-- ==== Sys2Proof/Word.lean ====
section
/-!
DEFINITION. Word.lean: the word types of the IW40 (R8, R13), and the records that commands carry as operands: the
memories, what their ECC finds, fabric packets, fuses, JTAG instructions.
Log entries that code here: 9 (DESIGN CHOICE, unsafe).
-/

namespace Sys2Proof

/-- One byte. -/
abbrev Byte := BitVec 8

/-- A 16-bit halfword (semaphores, R80). -/
abbrev Half := BitVec 16

/-- A register word (R13: registers are 32 bits wide). -/
abbrev Word := BitVec 32

/-- A 64-bit word (a register pair of R14, an address, a scene time). -/
abbrev DWord := BitVec 64

/-- 1 KiB (R7). -/
def kib : Nat := 1024
/-- 1 MiB (R7). -/
def mib : Nat := 1048576
/-- 1 GiB (R7). -/
def gib : Nat := 1073741824

/-- The memories of the module, each addressed by physical byte (R64, R75, R287, R301, R505); `host` is host memory as
the device wrote it. -/
inductive Space where
  | hbm | slice | bench | acc | tier | slc | host
  deriving DecidableEq, Repr

/-- What the ECC of the memories finds while a command runs: the 32-byte units found uncorrectable, and those corrected. -/
structure Ecc where
  ue : List (Space × Nat)
  ce : List (Space × Nat)
  deriving DecidableEq, Repr

/-- What the fuses hold (R476, R480): four key digests as SHA-384 values, revocation bits, the security epoch. -/
structure Fuses where
  digests : List Nat
  revoked : Nat
  epoch : Nat
  deriving DecidableEq, Repr

/-- The JTAG instructions of R564; `other` is every other code. -/
inductive JInstr where
  | bypass | idcode | sample | extest | clamp | highz | other
  deriving DecidableEq, Repr

end Sys2Proof

namespace Sys2Proof.Machine

/-- Who pushed a jig, the receiver of its completion notice (R77, R79): a register write by a master, the sequencer for
a partition, the timetable for a slot, the collective engine for a group of a partition, the Keeper, or a JIG_PUSH command. -/
inductive Pusher where
  | reg (master : Nat)
  | seqr (part : Nat)
  | tt (slot : Nat)
  | col (part grp : Nat)
  | keeper
  | cmd (part sq seq : Nat)
  deriving DecidableEq, Repr

/-- A packet of Istil Link 2 (R350): the header fields, the payload, and the run fields that the first COL_DATA to a peer carries
(R369: OP, IN_FMT, OUT_FMT, COUNT, AREA; the manual gives them no place). -/
structure Pkt where
  ty : Nat
  ctl : Nat
  dst : Nat
  src : Nat
  dpart : Nat
  spart : Nat
  key : Nat
  tag : Nat
  addr : Nat
  len : Nat
  status : Nat
  level : Nat
  group : Nat
  pay : List Byte
  par : List Nat
  deriving DecidableEq, Repr

end Sys2Proof.Machine
end

