-- ==== Sys2Proof/Syntax.lean ====
section
/-!
DEFINITION. Syntax.lean: the commands, one constructor per row of spec/opcode_table.json. Beside the operands of a command itself
(a master, a unit number, a value) a row carries what the world around the module does with it: what a sensor reads, a packet, what
host memory returns, what ECC finds.
Log entries that code here: 132 (DESIGN CHOICE, unsafe).
-/

namespace Sys2Proof

/-- A command of the IW40. -/
inductive Instr where
  /-- R109: A write of the high word of CEL_JQ_PUSH pushes a jig onto the cell's jig queue: by master `m` with the high word `v`. -/
  | celJqPush (m : Half) (c : Fin 1024) (v : Word)
  /-- R77: The rollout sequencer, timetable, collective engine or Keeper pushes a jig to a cell over the towpath: from `src`, the jig at scratchpad address `start` with its identifier. -/
  | towpathJigDispatch (c : Fin 1024) (src : Machine.Pusher) (start : BitVec 24) (id : Half)
  /-- R77: A push held at a full jig queue enters the queue once an entry frees. -/
  | jqPushAdmit (c : Fin 1024)
  /-- R78: The first descriptor of the next jig becomes next to issue once every descriptor of the previous jig has completed. -/
  | jigStart (c : Fin 1024)
  /-- R76: The cell fetches the next descriptor of the running jig, up to 4 ahead of issue, and ends the jig with NO_LAST or BAD_JIG where required. -/
  | descriptorFetch (c : Fin 1024) (ecc : Ecc)
  /-- R91: An MMA descriptor issues and computes OUT = init + A × B in canonical order: at cell `c`; `ecc` is what the memories' ECC finds meanwhile. -/
  | mma (c : Fin 1024) (ecc : Ecc)
  /-- R267: A CONV descriptor issues and computes a direct convolution equal to an MMA over the canonical K: at cell `c`; `ecc` is what the memories' ECC finds meanwhile. -/
  | conv (c : Fin 1024) (ecc : Ecc)
  /-- R193: An ATTN descriptor issues and computes attention over paged KV in exact or page-bounds mode: at cell `c`; `ecc` is what the memories' ECC finds meanwhile. -/
  | attn (c : Fin 1024) (ecc : Ecc)
  /-- R206: An RSTEP descriptor issues and advances resident state by one step: at cell `c`; `ecc` is what the memories' ECC finds meanwhile. -/
  | rstep (c : Fin 1024) (ecc : Ecc)
  /-- R96: A VPROG descriptor issues and runs a vector program over its input: at cell `c`; `ecc` is what the memories' ECC finds meanwhile. -/
  | vprog (c : Fin 1024) (ecc : Ecc)
  /-- R150: An SFU descriptor issues and evaluates a special-function micro-program per element: at cell `c`; `ecc` is what the memories' ECC finds meanwhile. -/
  | sfu (c : Fin 1024) (ecc : Ecc)
  /-- R158: A STAT descriptor issues and writes the count, mean and variance of each row: at cell `c`; `ecc` is what the memories' ECC finds meanwhile. -/
  | stat (c : Fin 1024) (ecc : Ecc)
  /-- R155: A SOFTMAX descriptor issues and normalises each row into probabilities: at cell `c`; `ecc` is what the memories' ECC finds meanwhile. -/
  | softmax (c : Fin 1024) (ecc : Ecc)
  /-- R252: A GATHER descriptor copies table rows named by an index list: at cell `c`; `ecc` is what the memories' ECC finds meanwhile. -/
  | gather (c : Fin 1024) (ecc : Ecc)
  /-- R254: A SCATTER descriptor combines local rows into table rows in ascending edge order: at cell `c`; `ecc` is what the memories' ECC finds meanwhile. -/
  | scatter (c : Fin 1024) (ecc : Ecc)
  /-- R256: A SEGRED descriptor reduces local rows into segment rows: at cell `c`; `ecc` is what the memories' ECC finds meanwhile. -/
  | segred (c : Fin 1024) (ecc : Ecc)
  /-- R260: A SORT descriptor sorts, selects top-k or removes repeats of up to 65,536 keys: at cell `c`; `ecc` is what the memories' ECC finds meanwhile. -/
  | sort (c : Fin 1024) (ecc : Ecc)
  /-- R247: The block GSU grants the next waiting descriptor round-robin and runs it: `ce` and `ue`: an error corrected or not in the unit's own memory. -/
  | gsuGrant (b : Fin 64) (ce : Bool) (ue : Bool) (ecc : Ecc)
  /-- R131: A MITRE descriptor combines partial results in the canonical tree and adds the initial value once: at cell `c`; `ecc` is what the memories' ECC finds meanwhile. -/
  | mitre (c : Fin 1024) (ecc : Ecc)
  /-- R97: A BARGE descriptor hands one bulk transfer from the cell to a barge engine: at cell `c`; `ecc` is what the memories' ECC finds meanwhile. -/
  | barge (c : Fin 1024) (ecc : Ecc)
  /-- R100: A FENCE descriptor issues and waits for selected units, visibility or a barrier: at cell `c`; `ecc` is what the memories' ECC finds meanwhile. -/
  | fence (c : Fin 1024) (ecc : Ecc)
  /-- R100: A FENCE completes once its scoped descriptors have completed and its global conditions hold. -/
  | fenceComplete (c : Fin 1024)
  /-- R400: A TTWAIT descriptor issues and waits on scene time, stream progress or a set: at cell `c`; `ecc` is what the memories' ECC finds meanwhile. -/
  | ttwait (c : Fin 1024) (ecc : Ecc)
  /-- R400: A waiting TTWAIT completes when its condition holds in the cell's copy, or with TIMEOUT at its DEADLINE. -/
  | ttwaitComplete (c : Fin 1024)
  /-- R102: An RNG descriptor fills the bench with CBG-128 output: at cell `c`; `ecc` is what the memories' ECC finds meanwhile. -/
  | rng (c : Fin 1024) (ecc : Ecc)
  /-- R274: A CROP descriptor resamples boxes from feature maps by bilinear interpolation: at cell `c`; `ecc` is what the memories' ECC finds meanwhile. -/
  | crop (c : Fin 1024) (ecc : Ecc)
  /-- R213: A STATE_SAVE descriptor copies slot bytes of resident state to HBM: at cell `c`; `ecc` is what the memories' ECC finds meanwhile. -/
  | stateSave (c : Fin 1024) (ecc : Ecc)
  /-- R213: A STATE_LOAD descriptor fills slot bytes from HBM, zeros or another slot: at cell `c`; `ecc` is what the memories' ECC finds meanwhile. -/
  | stateLoad (c : Fin 1024) (ecc : Ecc)
  /-- R309: A LAYER_FENCE descriptor issues, optionally restarting the stream, and waits for its entry: at cell `c`; `ecc` is what the memories' ECC finds meanwhile. -/
  | layerFence (c : Fin 1024) (ecc : Ecc)
  /-- R310: Once the previous stream's barges have landed, the fence reads and checks the stream table and resets F. -/
  | streamRestart (c : Fin 1024) (ecc : Ecc)
  /-- R310: At the drain point, when every earlier descriptor has completed, F becomes ENTRY. -/
  | layerFenceDrain (c : Fin 1024)
  /-- R310: The lateness reaches its limit and the fence completes with FAILED_LATE_WEIGHTS. -/
  | lateWeightsTimeout (c : Fin 1024)
  /-- R308: The stream engine requests entry j once j is within the prefetch distance. -/
  | streamEntryRequest (c : Fin 1024) (ecc : Ecc)
  /-- R306: All bytes or lines of a stream entry have been written. -/
  | streamEntryLanded (c : Fin 1024)
  /-- R88: A running descriptor completes with its status, freeing its unit entry: the descriptor at place `idx` of its jig. -/
  | descriptorComplete (c : Fin 1024) (idx : Nat)
  /-- R82: A descriptor waiting longer than CEL_WAIT_LIMIT completes with TIMEOUT. -/
  | waitTimeout (c : Fin 1024)
  /-- R85: A descriptor still running 2^BOUND cycles after issue raises DESC_OVERRUN and is counted. -/
  | descOverrun (c : Fin 1024)
  /-- R69: The block router starts a multicast weight stream once every remaining group member has issued: group `k` of block `b`. -/
  | mcastStreamStart (b : Fin 64) (k : Fin 8) (ecc : Ecc)
  /-- R106: A write of 1 to CEL_CTRL.RESUME takes the cell out of TRAPPED: `v` holds the other fields of CEL_CTRL. -/
  | celResume (m : Half) (c : Fin 1024) (v : Word)
  /-- R81: A register write to CEL_SEMn replaces the count, with hardware increments added after. -/
  | celSemWrite (m : Half) (c : Fin 1024) (n : Fin 64) (v : Word)
  /-- R147: A write of the high word of CEL_MP_LOAD requests loading a micro-program image into a slot: `v` is the high word. -/
  | celMpLoad (m : Half) (c : Fin 1024) (v : Word)
  /-- R147: Once issued vector and SFU descriptors drain, the image is checked and installed, and issue is released. -/
  | mpInstall (c : Fin 1024)
  /-- R160: A write to CEL_MP_CLEAR empties a loaded micro-program slot. -/
  | celMpClear (m : Half) (c : Fin 1024) (v : Word)
  /-- R107: An array or lane parity error puts the cell in FAULTED and passes the fault to its block: `lane`: of the vector engine or the special-function unit, else of the arrays. -/
  | cellParityError (c : Fin 1024) (lane : Bool)
  /-- R503: The lowest throttle request changes and the new level takes effect at the next cycle. -/
  | throttleLevelChange
  /-- R323: A barge engine accepts a barge, checking it completely before any byte moves: by engine `e`. -/
  | bargeAccept (e : Fin 32)
  /-- R327: The engine starts the next unit of an active barge in round-robin order: at engine `e`. -/
  | bargeUnitStart (e : Fin 32)
  /-- R334: A unit is granted at all Locks of its path in a cycle in which every one offers to it: unit `u` of barge `bid`. -/
  | lockCommit (bid : Nat) (u : Nat)
  /-- R334: A Lock's window ends by fit, empty queue or 16 uncommitted offers, and the Lock switches or renews: of Lock `l`. -/
  | lockWindowEnd (l : Nat)
  /-- R334: After the turnaround, the other direction becomes current with an empty window: of Lock `l`. -/
  | lockTurnaroundEnd (l : Nat)
  /-- R334: A request waiting 256 cycles becomes aged and the Lock reserves itself for it: of unit `u` of barge `bid`. -/
  | lockAging (bid : Nat) (u : Nat)
  /-- R335: An urgent beat is served within one cycle plus a turnaround, whatever the window: at Lock `l`. -/
  | urgentBeat (l : Nat) (inward : Bool)
  /-- R327: A unit's destination write lands after its predecessor, or its source read fails: of barge `bid`; `dma` is what host memory returns, `fail` a failed host transfer. -/
  | bargeUnitLand (bid : Nat) (dma : List Byte) (fail : Bool) (ecc : Ecc)
  /-- R292: Every ns each weir's credit grows by its guarantee and is limited to BURST: `n` ns pass. -/
  | weirCreditTick (n : Nat)
  /-- R293: At each request slot the stack controller selects refresh, urgent, guaranteed or best-effort work. -/
  | hbmRequestSelect (st : Fin 8)
  /-- R288: A refresh falls due on a stack at its refresh interval. -/
  | hbmRefresh (st : Fin 8)
  /-- R289: A stack-link parity error is retried, or a fault retry cannot clear is fatal: `cleared`: a retry clears it. -/
  | hbmLinkError (st : Fin 8) (cleared : Bool)
  /-- R296: A write of HBM_WCOMMIT.GO checks and commits the staged weirs of a stack. -/
  | hbmWcommit (m : Half) (st : Fin 8)
  /-- R296: A write of FLS_WCOMMIT.GO checks and commits staged flash weirs and windows. -/
  | flsWcommit (m : Half)
  /-- R362: A write of LNK_WCOMMIT.GO checks and commits a lane group's staged weirs. -/
  | lnkWcommit (m : Half) (g : Fin 16)
  /-- R298: The Keeper reads a stack temperature and moves it between NORMAL, HOT and STOPPED: `temp` in °C. -/
  | hbmTempReading (st : Fin 8) (temp : Byte)
  /-- R298: A HOT stack read at 90 °C or below for 10 ms returns to NORMAL. -/
  | hbmCoolTimer (st : Fin 8)
  /-- R298: While a stack is HOT, SLOW notices go out every 1 ms. -/
  | slowNoticeTimer (st : Fin 8)
  /-- R519: The Keeper walks the in-flight tables and gives the stop's status to every item without one. -/
  | inFlightWalk
  /-- R284: A line fill returns from HBM, is installed, and serves the waiting reads: line `l`, whose home is cell `h`. -/
  | cacheFillComplete (h : Fin 1024) (l : Nat)
  /-- R304: The Keeper writes one weight-tier stripe of an update record. -/
  | weightStripeWrite
  /-- R226: The sequencer checks the rollout record and initialises pool, directory and areas: for partition `p`. -/
  | rollOpen (p : Fin 1024) (ecc : Ecc)
  /-- R226: The sequencer closes a rollout with no live sequences and returns its MAX_LIVE: for partition `p`. -/
  | rollClose (p : Fin 1024) (ecc : Ecc)
  /-- R235: The sequencer creates a sequence, taking image, table and first-step pages atomically: for partition `p`. -/
  | join (p : Fin 1024) (ecc : Ecc)
  /-- R236: The sequencer branches a sequence, sharing or copying its pages: for partition `p`. -/
  | fork (p : Fin 1024) (ecc : Ecc)
  /-- R237: The sequencer ends a sequence, releasing its pages and slot without saving: for partition `p`. -/
  | prune (p : Fin 1024) (ecc : Ecc)
  /-- R237: The sequencer ends a sequence, optionally saving its state first: for partition `p`. -/
  | leave (p : Fin 1024) (ecc : Ecc)
  /-- R238: The sequencer applies a STEP: picks the bucket and batch and reserves pages and slots: for partition `p`. -/
  | step (p : Fin 1024) (ecc : Ecc)
  /-- R235: The sequencer sets a sequence's priority or IDLE, taking or returning an earmark: for partition `p`. -/
  | seqSet (p : Fin 1024) (ecc : Ecc)
  /-- R242: A held STEP not released within HOLD_LIMIT completes with TIMEOUT. -/
  | holdLimitExpiry (p : Fin 1024)
  /-- R241: The last jig completion notice arrives and the STEP's completion is written. -/
  | stepCompletion (p : Fin 1024)
  /-- R230: The sequencer writes a notice once the ring has room. -/
  | noticeWrite (p : Fin 1024)
  /-- R354: A partition reads remote HBM in 4 KiB pieces over a direct link: the next command of SQ `q` of partition `p`. -/
  | fabRead (p : Fin 1024) (q : Fin 16)
  /-- R354: A partition writes remote HBM in 4 KiB pieces over a direct link: the next command of SQ `q` of partition `p`. -/
  | fabWrite (p : Fin 1024) (q : Fin 16) (ecc : Ecc)
  /-- R355: A target receives a READ_REQ, checks key and range, and responds: on lane group `g`. -/
  | readReq (g : Fin 16) (ecc : Ecc)
  /-- R355: A target receives a WRITE_REQ, applies it whole and acknowledges: on lane group `g`. -/
  | writeReq (g : Fin 16)
  /-- R359: A read response arrives and records the transaction's outcome, or is discarded as late: on lane group `g`. -/
  | readRsp (g : Fin 16)
  /-- R359: A write acknowledgement arrives and records the transaction's outcome: on lane group `g`. -/
  | writeAck (g : Fin 16)
  /-- R359: A transaction deadline passes and TIMEOUT is recorded, or held during recovery: of tag slot `slot`. -/
  | fabDeadline (slot : Nat)
  /-- R363: At each frame slot a group's egress selects the next frame to send. -/
  | egressFrameSelect (g : Fin 16)
  /-- R356: A receiver accepts the next good frame, or NAKs a bad CRC or gap: its LSEQ and acknowledgement, whether its CRC is good, its packet, the credits it returns. -/
  | linkFrameReceive (g : Fin 16) (lseq : Nat) (ack : Nat) (good : Bool) (k : Option Machine.Pkt) (ret : List Nat)
  /-- R356: A received NAK makes the sender replay from the named LSEQ. -/
  | linkNak (g : Fin 16) (lseq : Nat)
  /-- R356: An unacknowledged frame waiting 2 µs makes the sender replay. -/
  | linkReplayTimeout (g : Fin 16)
  /-- R357: A recovery episode lasting 20 µs declares the group down with cause BUDGET. -/
  | linkRecoveryBudget (g : Fin 16)
  /-- R344: A lane failing in service takes its whole group down. -/
  | laneFault (g : Fin 16)
  /-- R348: A DOWN group with ENABLE set begins training again 100 ms after going down. -/
  | linkRetrainTimer (g : Fin 16)
  /-- R348: A write of 1 to LNK_CTRL.RETRAIN starts training at once: `v` holds the other fields of LNK_CTRL. -/
  | lnkRetrain (m : Half) (g : Fin 16) (v : Word)
  /-- R348: A TRAIN packet arrives and drives the peer check and version selection: whether signal and FEC lock are reached, and the packet's node, group, major version and range of minor versions. -/
  | train (g : Fin 16) (signal : Bool) (fec : Bool) (node : Nat) (grp : Nat) (major : Nat) (lo : Nat) (hi : Nat)
  /-- R365: Every 1 ms the module sends a DELAY_PROBE on each UP link. -/
  | delayProbeTimer (g : Fin 16)
  /-- R365: A peer receives a DELAY_PROBE and answers with DELAY_ECHO. -/
  | delayProbe (g : Fin 16)
  /-- R365: An echo arrives and the prober computes LNK_DELAY. -/
  | delayEcho (g : Fin 16)
  /-- R360: A received SLOW notice extends deadlines and piece timers by 2 ms, up to 64 ms. -/
  | slow (g : Fin 16)
  /-- R361: A received ABORT records FAILED_LINK for every item in its scope. -/
  | abort (g : Fin 16)
  /-- R376: A received COL_ABORT fails the run with CL_PEER_FAILED. -/
  | colAbort (g : Fin 16)
  /-- R396: A TIME message arrives and the receiver computes its clock error. -/
  | time (g : Fin 16)
  /-- R396: A master module sends a TIME packet every 1 ms on each UP group. -/
  | timeSend
  /-- R367: A collective group is opened after checking its record and links: the next command of SQ `q` of partition `p`. -/
  | colOpen (p : Fin 1024) (q : Fin 16) (ecc : Ecc)
  /-- R368: A collective run is submitted for its group: the next command of SQ `q` of partition `p`. -/
  | colRun (p : Fin 1024) (q : Fin 16)
  /-- R369: A run starts once its predecessor in RUN_SEQ and any prior reclaim have completed: of group `grp` of partition `p`. -/
  | colRunStart (p : Fin 1024) (grp : Nat) (ecc : Ecc)
  /-- R372: A COL_DATA piece or slot grant arrives, is combined, forwarded or relayed: on lane group `g`. -/
  | colData (g : Fin 16) (ecc : Ecc)
  /-- R376: A member waiting too long for a piece fails the run with TIMEOUT. -/
  | colPieceTimeout (p : Fin 1024) (grp : Nat)
  /-- R366: A collective group with no run in flight is closed: the next command of SQ `q` of partition `p`. -/
  | colClose (p : Fin 1024) (q : Fin 16)
  /-- R375: A gather area is marked EMPTY after earlier runs complete: the next command of SQ `q` of partition `p`. -/
  | colReclaim (p : Fin 1024) (q : Fin 16)
  /-- R384: A video session is opened after checking its record and rate limits: the next command of SQ `q` of partition `p`. -/
  | vidOpen (p : Fin 1024) (q : Fin 16) (ecc : Ecc)
  /-- R385: A session is stopped and its commands, entries and waits cancelled: the next command of SQ `q` of partition `p`. -/
  | vidClose (p : Fin 1024) (q : Fin 16)
  /-- R384: One access or temporal unit is submitted for decoding: the next command of SQ `q` of partition `p`. -/
  | vidDecode (p : Fin 1024) (q : Fin 16)
  /-- R384: One frame is submitted for encoding: the next command of SQ `q` of partition `p`. -/
  | vidEncode (p : Fin 1024) (q : Fin 16)
  /-- R384: A RAW producer reports lines or frame completion: the next command of SQ `q` of partition `p`. -/
  | streamMark (p : Fin 1024) (q : Fin 16) (ecc : Ecc)
  /-- R386: Every 1 ms the region's engines start a round of time slices: lines completed by the sessions of region `r`, and their µs of basin stall. -/
  | videoEngineRound (r : Fin 4) (prog : List (Nat × Nat × Nat))
  /-- R384: A unit finishes decoding, its output frames are complete, and VID_DECODE completes: session `n`; `verdict` 0 OK, 1 breaks the syntax, 2 unsupported. -/
  | decodeUnitDone (n : Nat) (verdict : Fin 3) (keep : Bool) (ref : Option (List Byte))
  /-- R383: The device starts writing frame f once RELEASED allows: session `n`; `img` its samples. -/
  | frameWriteStart (n : Nat) (pic : Nat) (intra : Bool) (img : Option (List Byte))
  /-- R392: A coded chunk is written to the bitstream ring once it has room: session `n`. -/
  | encodeChunkWrite (n : Nat) (payload : List Byte) (last : Bool)
  /-- R397: A timetable entry is armed in the lowest free slot: the next command of SQ `q` of partition `p`. -/
  | ttArm (p : Fin 1024) (q : Fin 16)
  /-- R397: The partition's entry with the named tag is ended: the next command of SQ `q` of partition `p`. -/
  | ttDisarm (p : Fin 1024) (q : Fin 16)
  /-- R398: At a 4 ns compare tick a due entry fires its JIG, STEP or ALIGN action. -/
  | ttEntryFire
  /-- R401: An alignment group is opened from its record: the next command of SQ `q` of partition `p`. -/
  | alnOpen (p : Fin 1024) (q : Fin 16) (ecc : Ecc)
  /-- R404: An alignment group is stopped and its entries and waits cancelled: the next command of SQ `q` of partition `p`. -/
  | alnClose (p : Fin 1024) (q : Fin 16)
  /-- R402: At t_k + WINDOW a pending set is released with missing members marked: of group `id`. -/
  | alignDeadline (id : Nat)
  /-- R408: A dictionary is checked and bound to a partition handle: the next command of SQ `q` of partition `p`. -/
  | tokLoad (p : Fin 1024) (q : Fin 16) (ecc : Ecc)
  /-- R408: Input bytes are tokenized by longest match against a bound dictionary: the next command of SQ `q` of partition `p`. -/
  | tokenize (p : Fin 1024) (q : Fin 16) (ecc : Ecc)
  /-- R394: A write of SCL_SET's high word requests a forward step of the scene clock: `v` is the high word. -/
  | sclSet (m : Half) (v : Word)
  /-- R395: A rising PPS edge marks scene time for discipline. -/
  | timerefPpsEdge
  /-- R395: A lost time source moves the clock to HOLDOVER and raises LOST: `ref10`: the 10 MHz reference has failed. -/
  | sclSourceLost (ref10 : Bool)
  /-- R395: The error stays under 20 ns for 1 s and the clock becomes LOCKED. -/
  | sclLocked
  /-- R417: CREATE written to PRT_CMD checks and grants a partition's resources. -/
  | prtCreate (m : Half)
  /-- R419: DESTROY written to PRT_CMD resets and releases a partition. -/
  | prtDestroy (m : Half)
  /-- R430: RESET written to PRT_CMD starts a partition reset. -/
  | prtReset (m : Half)
  /-- R430: A Function Level Reset of a VF starts its partition reset. -/
  | vfFlr (p : Fin 1024)
  /-- R431: A partition reset stops issue, aborts peers, cuts barges and cancels items: `data`: per queue, the entries submitted and not yet fetched. -/
  | partitionReset (p : Fin 1024) (data : List (Nat × List Byte))
  /-- R431: The drain ends, the reset record is written and the partition returns to ACTIVE. -/
  | partitionResetDone (p : Fin 1024)
  /-- R446: A doorbell write moves an SQ tail and submits the covered entries. -/
  | dblSqTail (p : Fin 1024) (q : Fin 16) (v : Word)
  /-- R446: A doorbell write moves a CQ head and frees consumed entries. -/
  | dblCqHead (p : Fin 1024) (q : Fin 16) (v : Word)
  /-- R450: A write of PART_SQ_CTRL.ENABLE enables or disables an SQ: `data`: the entries submitted and not yet fetched. -/
  | partSqCtrlEnable (p : Fin 1024) (q : Fin 16) (v : Word) (data : List Byte)
  /-- R450: A write of PART_CQ_CTRL.ENABLE enables or disables a CQ. -/
  | partCqCtrlEnable (p : Fin 1024) (q : Fin 16) (v : Word)
  /-- R454: The executor fetches up to 8 entries from an SQ in its round-robin turn: `data` is what host memory returns; `fault` is the first entry of the fetch that it did not return. -/
  | sqFetch (data : List Byte) (fault : Option Nat)
  /-- R453: A recorded completion is written to its CQ when it has room: `fails`: failed attempts to write it. -/
  | cqCompletionWrite (p : Fin 1024) (q : Fin 16) (fails : Nat)
  /-- R449: The oldest unconsumed entry reaching TIME_US raises vector q. -/
  | cqIrqTimer (p : Fin 1024) (q : Fin 16)
  /-- R460: A NOP command completes with OK: the next command of SQ `q` of partition `p`. -/
  | nop (p : Fin 1024) (q : Fin 16)
  /-- R461: A COPY command moves bytes as one barge: the next command of SQ `q` of partition `p`. -/
  | copy (p : Fin 1024) (q : Fin 16)
  /-- R461: A ZERO command fills a range with zeros as one barge: the next command of SQ `q` of partition `p`. -/
  | zero (p : Fin 1024) (q : Fin 16)
  /-- R462: A JIG_PUSH command pushes a jig to a range of cells: the next command of SQ `q` of partition `p`. -/
  | jigPush (p : Fin 1024) (q : Fin 16)
  /-- R463: A CANCEL command cancels unstarted commands in a SEQ range: the next command of SQ `q` of partition `p`. -/
  | cancel (p : Fin 1024) (q : Fin 16)
  /-- R443: A PF aperture access reaches physical HBM or SRAM through its window: at offset `off`: a write of `data`, or a read of `n` bytes. -/
  | pfBar2Access (off : BitVec 36) (data : Option (List Byte)) (n : Nat) (ecc : Ecc)
  /-- R444: A VF aperture access reaches its partition's memory or is aborted: at offset `off` of partition `p`: a write of `data`, or a read of `n` bytes. -/
  | vfBar2Access (p : Fin 1024) (off : BitVec 32) (data : Option (List Byte)) (n : Nat) (ecc : Ecc)
  /-- R16: A write to a register with no row of its own applies under its access codes: by master `m` at address `a` of BAR0; `be` its byte enables, `whole` an access of 32 bits. -/
  | registerWrite (m : Half) (a : BitVec 30) (v : Word) (be : BitVec 4) (whole : Bool)
  /-- R14: A read of a 64-bit register's low word latches its high word for that master: by master `m` at address `a` of BAR0. -/
  | reg64LowRead (m : Half) (a : BitVec 30) (be : BitVec 4) (whole : Bool)
  /-- R536: A write to EVT_CLR clears event bits and may arm the capture latch: of the page that holds address `a`. -/
  | evtClr (m : Half) (a : BitVec 30) (v : Word)
  /-- R539: A write to EVT_FORCE sets event bits for test: of the page that holds address `a`. -/
  | evtForce (m : Half) (a : BitVec 30) (v : Word)
  /-- R466: A bound master claims an IDLE mailbox channel: `both`: the other master claims it in the same cycle. -/
  | mbxClaim (m : Half) (c : Fin 64) (both : Bool)
  /-- R466: The holder sends its message, making the channel FULL: by master `m`. -/
  | mbxGo (m : Half) (c : Fin 64)
  /-- R466: The receiver finishes a message, returning the channel to IDLE: by master `m`. -/
  | mbxDone (m : Half) (c : Fin 64)
  /-- R466: The holder releases a claimed channel to IDLE: by master `m`. -/
  | mbxRelease (m : Half) (c : Fin 64)
  /-- R467: A word is appended to a privileged channel queue: by master `m`. -/
  | mbxPush (m : Half) (c : Fin 64) (v : Word)
  /-- R467: A read removes the oldest word of the queue towards the reader: by master `m`. -/
  | mbxPop (m : Half) (c : Fin 64)
  /-- R465: The boot ROM or Keeper writes a channel binding, refused when invalid or locked: by master `m`. -/
  | mbxBind (m : Half) (c : Fin 64) (v : Word)
  /-- R465: The Keeper sets DBL_LOCK, locking every binding until a cold reset. -/
  | dblLock (m : Half)
  /-- R469: A mailbox domain goes off, aborting its channels and discarding queued words: of the domain of master `id`. -/
  | domainPowerOff (id : Half)
  /-- R558: PERST_N deasserts with P54V in range, sampling SLOT_ID and beginning BOOT: `slot` is what the straps read. -/
  | perstNDeassert (slot : Byte)
  /-- R560: PERST_N asserts and the device stops and enters COLD. -/
  | perstNAssert
  /-- R476: The boot ROM trains links, verifies images, starts the Keeper and enters HELD: what the fuses hold, and the links and stacks that fail training. -/
  | bootSequence (f : Fuses) (d2dBad : Nat) (modules : List Nat) (hbmBad : Nat)
  /-- R474: A PCIe hot reset or PF FLR returns the device to BOOT. -/
  | chipWarmReset
  /-- R488: A write to VER_REQUEST negotiates VER_ACTIVE. -/
  | verRequest (m : Half) (v : Word)
  /-- R492: A write to the CFG_REC window stores a record word and marks it written. -/
  | cfgRecWrite (m : Half) (w : Fin 256) (v : Word)
  /-- R493: CFG_CMD COMMIT checks and holds the configuration record. -/
  | cfgCommit (m : Half)
  /-- R494: CFG_CMD START moves the device from CONFIGURED to RUNNING. -/
  | cfgStart (m : Half)
  /-- R492: CFG_CMD CLEAR zeroes the record window and CFG_WRITTEN. -/
  | cfgClear (m : Half)
  /-- R483: A write of CFG_PAIR.ID to CFG_ACCEPT requests acceptance of an untested pairing. -/
  | cfgAccept (m : Half) (v : Word)
  /-- R483: The acceptance record is written and UNTESTED_PAIR clears. -/
  | acceptComplete
  /-- R484: CFG_IMG_CMD LOAD verifies and runs a replacement image. -/
  | imgLoad (m : Half)
  /-- R484: CFG_IMG_CMD LOAD_STORE loads an image and writes it to slot A. -/
  | imgLoadStore (m : Half)
  /-- R487: The device writes the status block on change or every 100 ms: `bme`: the PF may master. -/
  | statusBlockWrite (bme : Bool)
  /-- R497: Every 1 µs the hub samples P54V and the bank, detecting dips, surges and stops: P54V and the bank, in mV. -/
  | powerSample (vin : BitVec 20) (bank : BitVec 20)
  /-- R499: The bank switch opens after 2 ms or at 48.9 V and the power throttle applies. -/
  | bankSwitchOpen
  /-- R500: P54V stays in range for 10 ms and the power throttle is released. -/
  | dipRecover
  /-- R498: P54V above 59 V for more than 10 ms opens the input switch. -/
  | surgeTimer
  /-- R504: Every 10 µs the Keeper computes usable hold-up energy. -/
  | holdupEnergyTick
  /-- R504: Charging from 50 V to 54 V completes and C_meas is measured. -/
  | bankCapMeasure
  /-- R505: A flash write starts if E meets the reserve, or is deferred and rechecked every 1 ms. -/
  | journalWriteCheck
  /-- R508: A write to PWR_JCMD appends a host record to the journal. -/
  | pwrJcmdAppend (m : Half) (v : Word)
  /-- R509: The Keeper reads a die, optical or coolant sensor and applies thresholds: sensor `d`, °C, and the hottest SRAM layer above a compute die. -/
  | dieThermalReading (d : Fin 15) (temp : Byte) (layer : Byte)
  /-- R509: A sensor 5 °C below its step for 10 ms returns one step down. -/
  | dieCoolTimer (d : Fin 15)
  /-- R510: A write of PWR_GATE.REGIONS gates or ungates a region. -/
  | pwrGate (m : Half) (v : Word)
  /-- R514: A router CRC error persisting after 4 retries stops the block's routing. -/
  | routerFault (b : Fin 64)
  /-- R514: A region controller lockstep mismatch or watchdog expiry is a region fault: `dog`: its watchdog, else its lockstep. -/
  | rcFault (r : Fin 4) (dog : Bool)
  /-- R514: A die-to-die link needing a 17th replay passes fatal cause D2D_LINK to the chip: link `k` of region `r`'s die. -/
  | d2dReplayLimit (r : Fin 4) (k : Fin 4)
  /-- R515: The Keeper receives a unit fault and runs the matching or escalated reset. -/
  | unitFaultReport
  /-- R527: A cell reset clears its issue state, queue, semaphores and state region. -/
  | cellReset (c : Fin 1024)
  /-- R527: A block reset resets its cells, router, GSU and Locks. -/
  | blockReset (b : Fin 64)
  /-- R528: A region is fenced, its barges cut, its units reset, and the fence opened. -/
  | regionReset (r : Fin 4)
  /-- R530: A write to ERR_RESET requests a cell, block or region reset. -/
  | errReset (m : Half) (v : Word)
  /-- R517: A write of 1 to ERR CTRL.FORCE_FATAL starts the fatal path with cause FORCED. -/
  | forceFatal (m : Half)
  /-- R517: The Keeper fails to service the hub watchdog for 10 ms and is restarted in fatal mode. -/
  | keeperWatchdog
  /-- R517: An uncorrectable error in hub tables or Keeper memory is fatal: `lost`: the recorded status that the entry held, as (partition, SQ, SEQ). -/
  | hubUe (lost : Option (Nat × Nat × Nat))
  /-- R518: The fatal path stops issue, aborts peers, walks items and enters FAULTED. -/
  | fatalPath
  /-- R522: The Keeper writes the dump sections and header, then enters DUMPED. -/
  | crashDumpWrite
  /-- R525: After DUMPED the Keeper copies the dump to the journal. -/
  | dumpJournalCopy
  /-- R542: KPR_HEARTBEAT increments every 1 ms while the Keeper runs. -/
  | kprHeartbeat
  /-- R562: The BMC assigns the module's dynamic address by ENTDAA or SETDASA: by ENTDAA, or by SETDASA from a static address. -/
  | i3cDynamicAddress (static : Option (BitVec 7)) (addr : BitVec 7)
  /-- R563: A BMC private write issues a PF BAR0 read or write with identity 0xF800. -/
  | i3cPrivateWrite (bytes : List Byte)
  /-- R563: A BMC private read returns the status and data of the last command. -/
  | i3cPrivateRead
  /-- R564: A JTAG instruction is loaded and takes effect on the test access port. -/
  | jtagInstruction (code : JInstr)
  /-- R564: TRST_N or five TCK cycles with TMS high reset the test port. -/
  | jtagReset
  /-- R554: A live busbar is connected and P54V reaches the unpowered module, which limits inrush to 5.0 A and then starts the bank charger. -/
  | p54vConnect
  /-- R558: P54V has stayed within 44 V to 59 V for 100 ms while PERST_N is already deasserted, so BOOT begins at this instant. -/
  | p54vInRange100ms
  /-- R474: P54V is lost and the hold-up bank can no longer supply the hub, so the device enters COLD as a cold reset. -/
  | p54vLoss
  /-- R469: The PCIe link trains up and the host PF domain, off while the link was down, becomes reachable again. -/
  | pcieLinkUp
  deriving DecidableEq, Repr

end Sys2Proof
end

