-- ==== Sys2Proof/Decode.lean ====
section
/-!
DEFINITION. Decode.lean: spec/opcode_table.json gives no row any bits: the commands are events and accesses, not words,
so no word spells one. (A descriptor's 64 bytes, a queue entry's and a packet's are decoded where they are used.)
Log entries that code here: 10 (DESIGN CHOICE, unsafe).
-/

namespace Sys2Proof

/-- The command a word of the opcode table spells: none. -/
def decodeTableWord (_nbits _w : Nat) : Option Instr := none

end Sys2Proof
end

