-- ==== Sys2Proof/Machine/Bits.lean ====
section
/-!
DEFINITION. Machine/Bits.lean: bit fields, byte order (R8: little-endian), rounding of quotients, CRC-32C (R5).
Bit patterns that are only taken apart and put together are natural numbers here; `bits n hi lo` is [hi:lo] of R8.
-/

namespace Sys2Proof.Machine

/-- The field [hi:lo] of `n` (R8). -/
def bits (n hi lo : Nat) : Nat := (n >>> lo) % 2 ^ (hi + 1 - lo)

/-- Bit `i` of `n`. -/
def bit (n i : Nat) : Bool := n.testBit i

/-- One bit as a number. -/
def b2n (b : Bool) : Nat := if b then 1 else 0

/-- Replace the field [hi:lo] of `n` by `v`, keeping the other bits of a word of any width. -/
def setBits (n hi lo v : Nat) : Nat :=
  (n >>> (hi + 1)) <<< (hi + 1) + (v % 2 ^ (hi + 1 - lo)) <<< lo + n % 2 ^ lo

/-- ⌈a / b⌉ (R7's notation; 0 when b is 0). -/
def ceilDiv (a b : Nat) : Nat := (a + b - 1) / b

/-- `a` rounded up to a multiple of `b`. -/
def roundUp (a b : Nat) : Nat := ceilDiv a b * b

/-- The number whose little-endian bytes are given (R8). -/
def leNat : List Byte → Nat
  | [] => 0
  | b :: t => b.toNat + 256 * leNat t

/-- The `n` little-endian bytes of a number (R8). -/
def leBytes : Nat → Nat → List Byte
  | 0, _ => []
  | n + 1, v => BitVec.ofNat 8 v :: leBytes n (v / 256)

/-- Bytes `off` to `off + size − 1` of a record, little-endian (R8). -/
def fld (d : List Byte) (off size : Nat) : Nat := leNat ((d.drop off).take size)

/-- Byte `off` of a record. -/
def byteAt (d : List Byte) (off : Nat) : Nat := fld d off 1

/-- Every byte of `off … off + size − 1` of a record is zero (reserved bytes, R17, R86). -/
def zeroAt (d : List Byte) (off size : Nat) : Bool := ((d.drop off).take size).all (· == 0#8)

/-- Two's complement: the signed value of the low `w` bits of `n`. -/
def toSigned (w n : Nat) : Int :=
  let m := n % 2 ^ w
  if 2 ^ (w - 1) ≤ m then (m : Int) - 2 ^ w else m

/-- The `w`-bit two's complement pattern of an integer. -/
def ofSigned (w : Nat) (i : Int) : Nat := (i % (2 ^ w : Int)).toNat

/-- `true` when `n` is a power of two. -/
def isPow2 (n : Nat) : Bool := n ≠ 0 && n == 2 ^ n.log2

/-- The bits of a mask below `w`, ascending. -/
def maskBits (w m : Nat) : List Nat := (List.range w).filter (m.testBit ·)

/-- The number of ones among the low `w` bits. -/
def popCount (w m : Nat) : Nat := (maskBits w m).length

/-- The ceiling of log2 for n ≥ 1. -/
def clog2 (n : Nat) : Nat := if n ≤ 1 then 0 else (n - 1).log2 + 1

/-- Cut a list into pieces of `n` (the last may be shorter); `fuel` bounds the pieces. -/
def chunksOf {α : Type} (n : Nat) : Nat → List α → List (List α)
  | 0, _ => []
  | fuel + 1, l => if l.isEmpty then [] else l.take n :: chunksOf n fuel (l.drop n)

/-- One bit step of the reflected CRC-32C division (R5: polynomial 0x1EDC_6F41 reflected is 0x82F6_3B78). -/
def crcBit (c : Nat) : Nat := if c % 2 = 1 then (c / 2) ^^^ 0x82F63B78 else c / 2

/-- One byte of CRC-32C. -/
def crcByte (c : Nat) (b : Byte) : Nat :=
  crcBit (crcBit (crcBit (crcBit (crcBit (crcBit (crcBit (crcBit (c ^^^ b.toNat))))))))

/-- CRC-32C over bytes (R5: initial value and final XOR 0xFFFF_FFFF). -/
def crc32c (l : List Byte) : Nat := l.foldl crcByte 0xFFFFFFFF ^^^ 0xFFFFFFFF

/-- Unsigned lexicographic order on byte strings, a string before its extensions (R407). -/
def bytesLt : List Byte → List Byte → Bool
  | [], [] => false
  | [], _ :: _ => true
  | _ :: _, [] => false
  | a :: s, b :: t => if a.toNat < b.toNat then true else if b.toNat < a.toNat then false else bytesLt s t

end Sys2Proof.Machine
end

