-- ==== Sys2Proof/Machine/Float.lean ====
section
/-!
DEFINITION. Machine/Float.lean: the number formats of R39 and every rounding, conversion, chunk sum, tree and row
statistic of 02_arithmetic.md (R39 to R63). Values are exact dyadic numbers; each conversion rounds once (R42).
-/

namespace Sys2Proof.Machine

/-- The floating formats of R39. -/
inductive Fmt where
  | f32 | f16 | bf16 | e4m3 | e5m2 | e3m2 | e2m3 | e2m1
  deriving DecidableEq, Repr

/-- A decoded value: NaN by class alone (R40), a signed infinity, or (−1)^neg × mant × 2^exp exactly. -/
inductive Val where
  | nan
  | inf (neg : Bool)
  | fin (neg : Bool) (mant : Nat) (exp : Int)
  deriving DecidableEq, Repr

/-- Exponent bits of a format (R39). -/
def Fmt.ebits : Fmt → Nat
  | .f32 => 8 | .f16 => 5 | .bf16 => 8 | .e4m3 => 4 | .e5m2 => 5 | .e3m2 => 3 | .e2m3 => 2 | .e2m1 => 2

/-- Fraction bits of a format (R39). -/
def Fmt.fbits : Fmt → Nat
  | .f32 => 23 | .f16 => 10 | .bf16 => 7 | .e4m3 => 3 | .e5m2 => 2 | .e3m2 => 2 | .e2m3 => 3 | .e2m1 => 1

/-- Exponent bias of a format (R39). -/
def Fmt.bias : Fmt → Nat
  | .f32 => 127 | .f16 => 15 | .bf16 => 127 | .e4m3 => 7 | .e5m2 => 15 | .e3m2 => 3 | .e2m3 => 1 | .e2m1 => 1

/-- Element width of R39 for the narrow formats. -/
def Fmt.ewidth : Fmt → Nat
  | .e4m3 => 18 | .e5m2 => 32 | .e3m2 => 9 | .e2m3 => 6 | .e2m1 => 4 | _ => 0

/-- Bits of one encoding. -/
def Fmt.width (f : Fmt) : Nat := 1 + f.ebits + f.fbits

/-- The exponent of the smallest subnormal step (R39). -/
def Fmt.qmin (f : Fmt) : Int := 1 - (f.bias : Int) - f.fbits

/-- Infinity encodings exist (R39). -/
def Fmt.hasInf : Fmt → Bool
  | .f32 | .f16 | .bf16 | .e5m2 => true
  | _ => false

/-- The encoding of the largest finite value (R39), positive. -/
def Fmt.maxEnc : Fmt → Nat
  | .f32 => 0x7F7FFFFF | .f16 => 0x7BFF | .bf16 => 0x7F7F | .e4m3 => 0x7E | .e5m2 => 0x7B
  | .e3m2 => 0x1F | .e2m3 => 0x1F | .e2m1 => 0x7

/-- The canonical NaN of a format (R40); the narrow formats have none. -/
def Fmt.nanEnc : Fmt → Nat
  | .f32 => 0x7FC00000 | .f16 => 0x7E00 | .bf16 => 0x7FC0 | .e4m3 => 0x7F | .e5m2 => 0x7E | _ => 0

/-- The sign bit's weight. -/
def Fmt.signBit (f : Fmt) : Nat := 2 ^ (f.ebits + f.fbits)

/-- Decode an encoding (R39, R40, R41: subnormals are kept). -/
def decodeFmt (f : Fmt) (n : Nat) : Val :=
  let neg := bit n (f.ebits + f.fbits)
  let e := bits n (f.ebits + f.fbits - 1) f.fbits
  let m := n % 2 ^ f.fbits
  if f.hasInf && e == 2 ^ f.ebits - 1 then (if m = 0 then .inf neg else .nan)
  else if f = .e4m3 && e == 15 && m == 7 then .nan
  else if e = 0 then .fin neg m f.qmin
  else .fin neg (2 ^ f.fbits + m) (f.qmin + ((e : Int) - 1))

/-- Drop `k` low bits of `m`, round to nearest, ties to even (R42). -/
def rneShift (m k : Nat) : Nat :=
  let q := m >>> k
  let r := m % 2 ^ k
  if 2 * r > 2 ^ k then q + 1 else if 2 * r = 2 ^ k then q + q % 2 else q

/-- ⌊log2 (m × 2^e)⌋ for m > 0. -/
def ilog2 (m : Nat) (e : Int) : Int := (m.log2 : Int) + e

/-- Round m × 2^e to `p` significant bits with smallest step 2^qmin: the integer multiple and its step exponent. -/
def roundTo (p : Nat) (qmin : Int) (m : Nat) (e : Int) : Nat × Int :=
  if m = 0 then (0, qmin)
  else
    let q := max (ilog2 m e - (p - 1 : Nat)) qmin
    if q ≤ e then (m <<< (e - q).toNat, q) else (rneShift m (q - e).toNat, q)

/-- Encode a value that is already representable below the largest finite bound: m × 2^q with q the step. -/
def packFinite (f : Fmt) (neg : Bool) (m : Nat) (q : Int) : Nat :=
  let s := if neg then f.signBit else 0
  if m = 0 then s
  else
    let p := f.fbits + 1
    let (m, q) := if m = 2 ^ p then (2 ^ f.fbits, q + 1) else (m, q)
    if m < 2 ^ f.fbits then s + m
    else s + ((q - f.qmin).toNat + 1) * 2 ^ f.fbits + (m - 2 ^ f.fbits)

/-- The encoding a rounded finite magnitude would have with no upper bound, as a number (its order is the value's). -/
def magEnc (f : Fmt) (m : Nat) (q : Int) : Nat := packFinite f false m q

/-- Arithmetic events of R62, as bits of a mask. -/
def evSatE4M3 : Nat := 1
def evSatNarrow : Nat := 2
def evSatInt : Nat := 4
def evNanLost : Nat := 8
def evMxSpread : Nat := 16
def evStatSat : Nat := 32
def evNanOut : Nat := 64

/-- The event a saturating finite overflow raises (R43). -/
def satEvent (f : Fmt) : Nat := if f = .e4m3 then evSatE4M3 else evSatNarrow

/-- R43, the plain formats: encode a value with one RNE rounding, and the events it raises. -/
def encodePlain (f : Fmt) : Val → Nat × Nat
  | .nan => if f = .e2m1 ∨ f = .e3m2 ∨ f = .e2m3 then (0, evNanLost) else (f.nanEnc, evNanOut)
  | .inf neg =>
    let s := if neg then f.signBit else 0
    if f.hasInf then (s + (2 ^ f.ebits - 1) * 2 ^ f.fbits, 0) else (s + f.maxEnc, satEvent f)
  | .fin neg m e =>
    let (r, q) := roundTo (f.fbits + 1) f.qmin m e
    let s := if neg then f.signBit else 0
    if magEnc f r q ≤ f.maxEnc then (packFinite f neg r q, 0)
    else if f.hasInf then (s + (2 ^ f.ebits - 1) * 2 ^ f.fbits, 0)
    else (s + f.maxEnc, satEvent f)

/-- R43, an element of an MX block: never an infinity or a NaN encoding. -/
def encodeMxElem (f : Fmt) : Val → Nat × Nat
  | .fin neg m e =>
    let (r, q) := roundTo (f.fbits + 1) f.qmin m e
    let s := if neg then f.signBit else 0
    if magEnc f r q ≤ f.maxEnc then (packFinite f neg r q, 0) else (s + f.maxEnc, satEvent f)
  | .nan => (0, 0)
  | .inf neg => ((if neg then f.signBit else 0) + f.maxEnc, 0)

/-- R43, INT8 (w = 8) and INT32 (w = 32): round to nearest even, saturate. -/
def encodeInt (w : Nat) : Val → Nat × Nat
  | .nan => (0, evNanLost)
  | .inf neg => (if neg then 2 ^ (w - 1) else 2 ^ (w - 1) - 1, evSatInt)
  | .fin neg m e =>
    let mag := if 0 ≤ e then m <<< e.toNat else rneShift m (-e).toNat
    if neg then (if mag ≤ 2 ^ (w - 1) then ((2 ^ w - mag) % 2 ^ w, 0) else (2 ^ (w - 1), evSatInt))
    else if mag < 2 ^ (w - 1) then (mag, 0) else (2 ^ (w - 1) - 1, evSatInt)

/-- An integer as a value. -/
def ofInt (i : Int) : Val := .fin (i < 0) i.natAbs 0

/-- The value of a binary32 encoding. -/
def val32 (n : Nat) : Val := decodeFmt .f32 n

/-- One binary32 RNE rounding (R42). -/
def enc32 (v : Val) : Nat := (encodePlain .f32 v).1

/-- The canonical binary32 NaN (R40). -/
def nan32 : Nat := 0x7FC00000

/-- Exact sum of two values (IEEE 754: opposite infinities give NaN; an exact zero sum is +0 unless both are −0). -/
def vadd : Val → Val → Val
  | .nan, _ | _, .nan => .nan
  | .inf a, .inf b => if a = b then .inf a else .nan
  | .inf a, _ => .inf a
  | _, .inf b => .inf b
  | .fin a m e, .fin b n f =>
    let g := min e f
    let x : Int := (if a then -1 else 1) * ((m <<< (e - g).toNat : Nat) : Int)
    let y : Int := (if b then -1 else 1) * ((n <<< (f - g).toNat : Nat) : Int)
    let z := x + y
    if z = 0 then .fin (a && b && m == 0 && n == 0) 0 g else .fin (z < 0) z.natAbs g

/-- Negation of a value. -/
def vneg : Val → Val
  | .nan => .nan
  | .inf a => .inf (!a)
  | .fin a m e => .fin (!a) m e

/-- Exact product of two values (∞ × 0 is NaN). -/
def vmul : Val → Val → Val
  | .nan, _ | _, .nan => .nan
  | .inf a, .inf b => .inf (a != b)
  | .inf a, .fin b n _ => if n = 0 then .nan else .inf (a != b)
  | .fin a m _, .inf b => if m = 0 then .nan else .inf (a != b)
  | .fin a m e, .fin b n f => .fin (a != b) (m * n) (e + f)

/-- A quotient with enough bits and a sticky bit that one rounding to at most 32 bits is correct. -/
def vdiv : Val → Val → Val
  | .nan, _ | _, .nan => .nan
  | .inf _, .inf _ => .nan
  | .inf a, .fin b _ _ => .inf (a != b)
  | .fin a _ e, .inf b => .fin (a != b) 0 e
  | .fin a m e, .fin b n f =>
    if n = 0 then (if m = 0 then .nan else .inf (a != b))
    else if m = 0 then .fin (a != b) 0 (e - f)
    else
      let k := 40 + n.log2
      let q := (m <<< k) / n
      let s := if (m <<< k) % n = 0 then 0 else 1
      .fin (a != b) (2 * q + s) (e - f - k - 1)

/-- A square root with enough bits and a sticky bit. -/
def vsqrt : Val → Val
  | .nan => .nan
  | .inf neg => if neg then .nan else .inf false
  | .fin neg m e =>
    if m = 0 then .fin neg 0 (e / 2)
    else if neg then .nan
    else
      let k : Nat := 80 + (if (e - 80) % 2 = 0 then 0 else 1)
      let x := m <<< k
      let r := x.sqrt
      let s := if r * r = x then 0 else 1
      .fin false (2 * r + s) ((e - k) / 2 - 1)

/-- binary32 addition, RNE (R44). -/
def fadd (a b : Nat) : Nat := enc32 (vadd (val32 a) (val32 b))
/-- binary32 subtraction. -/
def fsub (a b : Nat) : Nat := enc32 (vadd (val32 a) (vneg (val32 b)))
/-- binary32 multiplication. -/
def fmul (a b : Nat) : Nat := enc32 (vmul (val32 a) (val32 b))
/-- binary32 fused multiply-add a × b + c, one rounding. -/
def ffma (a b c : Nat) : Nat := enc32 (vadd (vmul (val32 a) (val32 b)) (val32 c))
/-- binary32 division, correctly rounded. -/
def fdiv (a b : Nat) : Nat := enc32 (vdiv (val32 a) (val32 b))
/-- binary32 square root, correctly rounded. -/
def fsqrt (a : Nat) : Nat := enc32 (vsqrt (val32 a))
/-- A count as binary32. -/
def fofNat (n : Nat) : Nat := enc32 (.fin false n 0)
/-- binary32 negation flips the sign; a NaN stays canonical. -/
def fneg (a : Nat) : Nat := enc32 (vneg (val32 a))
/-- binary32 magnitude. -/
def fabs (a : Nat) : Nat := match val32 a with
  | .nan => nan32
  | .inf _ => enc32 (.inf false)
  | .fin _ m e => enc32 (.fin false m e)

/-- The exact order of two non-NaN values: a < b (−0 and +0 equal). -/
def vlt : Val → Val → Bool
  | .inf a, .inf b => a && !b
  | .inf a, .fin _ _ _ => a
  | .fin _ _ _, .inf b => !b
  | .fin a m e, .fin b n f =>
    let g := min e f
    let x : Int := (if a then -1 else 1) * ((m <<< (e - g).toNat : Nat) : Int)
    let y : Int := (if b then -1 else 1) * ((n <<< (f - g).toNat : Nat) : Int)
    x < y
  | _, _ => false

/-- A value is NaN. -/
def Val.isNan : Val → Bool
  | .nan => true
  | _ => false

/-- The sign of a value is negative. -/
def Val.isNeg : Val → Bool
  | .nan => false
  | .inf a => a
  | .fin a _ _ => a

/-- A value is ±0. -/
def Val.isZero : Val → Bool
  | .fin _ 0 _ => true
  | _ => false

/-- R44: minimum, NaN-propagating, −0 below +0. -/
def fmin (a b : Nat) : Nat :=
  let x := val32 a
  let y := val32 b
  if x.isNan || y.isNan then nan32
  else if vlt x y then a else if vlt y x then b else if x.isNeg then a else b

/-- R44: maximum, NaN-propagating, −0 below +0. -/
def fmax (a b : Nat) : Nat :=
  let x := val32 a
  let y := val32 b
  if x.isNan || y.isNan then nan32
  else if vlt x y then b else if vlt y x then a else if x.isNeg then b else a

/-- A total order key on non-NaN binary32: ascending numeric order with −0 below +0. -/
def orderKey32 (a : Nat) : Int :=
  if bit a 31 then -((a % 2 ^ 31 : Nat) : Int) - 1 else (a : Int)

/-! ### CBG-128 (R405) and stochastic rounding (R47, R48) -/

/-- One round of CBG-128 (R405). -/
def cbgRound (x0 x1 x2 x3 k0 k1 : Nat) : Nat × Nat × Nat × Nat :=
  let p0 := 0xB5297A4D * x0
  let p1 := 0x68E31DA5 * x2
  ((p1 / 2 ^ 32) ^^^ x1 ^^^ k0, p1 % 2 ^ 32, (p0 / 2 ^ 32) ^^^ x3 ^^^ k1, p0 % 2 ^ 32)

/-- `n` rounds of CBG-128, stepping the key between rounds (R405). -/
def cbgRounds : Nat → Nat → Nat → Nat → Nat → Nat → Nat → Nat × Nat × Nat × Nat
  | 0, x0, x1, x2, x3, _, _ => (x0, x1, x2, x3)
  | n + 1, x0, x1, x2, x3, k0, k1 =>
    match cbgRound x0 x1 x2 x3 k0 k1 with
    | (y0, y1, y2, y3) => cbgRounds n y0 y1 y2 y3 ((k0 + 0x9E3779B9) % 2 ^ 32) ((k1 + 0xBB67AE85) % 2 ^ 32)

/-- CBG-128 (R405): the four output words of a counter and a key. -/
def cbg128 (x0 x1 x2 x3 k0 k1 : Nat) : Nat × Nat × Nat × Nat := cbgRounds 10 x0 x1 x2 x3 k0 k1

/-- The four output words as one 128-bit number, word 0 lowest. -/
def cbgBlock (x0 x1 x2 x3 k0 k1 : Nat) : Nat :=
  match cbg128 x0 x1 x2 x3 k0 k1 with
  | (y0, y1, y2, y3) => y0 + y1 * 2 ^ 32 + y2 * 2 ^ 64 + y3 * 2 ^ 96

/-- R48: the 16-bit random value of element `i`. -/
def srRandom (seed sample stepNo i : Nat) : Nat :=
  let w := cbgBlock (i / 8 % 2 ^ 32) (sample % 2 ^ 32) (stepNo % 2 ^ 32) 5 (seed % 2 ^ 32) (seed / 2 ^ 32 % 2 ^ 32)
  bits w (16 * (i % 8) + 15) (16 * (i % 8))

/-- R47: stochastic rounding of a value to a plain format. -/
def encodeStochastic (f : Fmt) (r : Nat) : Val → Nat × Nat
  | .fin neg m e =>
    let p := f.fbits + 1
    if m = 0 then encodePlain f (.fin neg m e)
    else
      let q := max (ilog2 m e - (p - 1 : Nat)) f.qmin
      if q ≤ e then encodePlain f (.fin neg m e)
      else
        let k := (q - e).toNat
        let a := m >>> k
        let frac := ((m % 2 ^ k) <<< 16) >>> k
        if f.maxEnc < magEnc f a q then encodePlain f (.fin neg m e)
        else encodePlain f (.fin neg (if frac > r then a + 1 else a) q)
  | v => encodePlain f v

/-! ### MX blocks (R46) -/

/-- emax_elem of R46. -/
def emaxElem : Fmt → Int
  | .e4m3 => 8 | .e5m2 => 15 | .e3m2 => 4 | .e2m3 => 2 | .e2m1 => 2 | _ => 0

/-- ⌊log2⌋ of the largest finite non-zero magnitude of a list, if any. -/
def amaxLog2 (vs : List Val) : Option Int :=
  vs.foldl (fun acc v => match v with
    | .fin _ m e => if m = 0 then acc else
      match acc with
      | none => some (ilog2 m e)
      | some x => some (max x (ilog2 m e))
    | _ => acc) none

/-- R46: convert a block of values: its scale, its element encodings, its events. -/
def encodeMxBlock (f : Fmt) (vs : List Val) : Nat × List Nat × Nat :=
  if vs.any (fun v => match v with | .fin _ _ _ => false | _ => true) then
    (0xFF, vs.map (fun _ => 0), evNanOut)
  else
    match amaxLog2 vs with
    | none => (0, vs.map (fun v => if v.isNeg then f.signBit else 0), 0)
    | some l =>
      let x := max (-127) (min 127 (l - emaxElem f))
      let es := vs.map (fun v => match v with
        | .fin neg m e => encodeMxElem f (.fin neg m (e - x))
        | w => encodeMxElem f w)
      ((x + 127).toNat, es.map (·.1), es.foldl (fun a p => a ||| p.2) 0)

/-- The value of an MX element under a scale byte (R39, R46): 2^(scale − 127); 0xFF makes it NaN. -/
def scaleVal (scale : Nat) (v : Val) : Val :=
  if scale = 0xFF then .nan
  else match v with
    | .fin neg m e => .fin neg m (e + ((scale : Int) - 127))
    | w => w

/-! ### Chunks and the tree (R49 to R57) -/

/-- The integer multiple of the format's smallest step a finite value is (R50). -/
def stepsOf (f : Fmt) : Val → Int
  | .fin neg m e => (if neg then -1 else 1) * ((m <<< (e - f.qmin).toNat : Nat) : Int)
  | _ => 0

/-- One block pair of R50: 32 products, the combined scale exponent, and whether a scale was 0xFF. -/
structure BlockPair where
  as : List Val
  bs : List Val
  e : Int
  bad : Bool
  deriving DecidableEq, Repr

/-- Products that R52 treats specially: NaN seen, +∞ seen, −∞ seen. -/
def specials (ps : List Val) : Bool × Bool × Bool :=
  ps.foldl (fun (n, p, m) v => match v with
    | .nan => (true, p, m)
    | .inf neg => if neg then (n, p, true) else (n, true, m)
    | _ => (n, p, m)) (false, false, false)

/-- Truncate towards zero to a multiple of 2^k. -/
def truncTo (k : Nat) (x : Int) : Int := if x < 0 then -(((x.natAbs >>> k) <<< k : Nat) : Int) else (((x.natAbs >>> k) <<< k : Nat) : Int)

/-- R50 to R52: the binary32 result of one narrow-format chunk, and MX_SPREAD. -/
def narrowChunk (fa fb : Fmt) (bps : List BlockPair) : Nat × Nat :=
  let prods := bps.map (fun b => (b.as.zip b.bs).map (fun p => vmul p.1 p.2))
  let (n, p, m) := specials prods.flatten
  if n || bps.any (·.bad) then (nan32, 0)
  else if p && m then (nan32, 0)
  else if p then (enc32 (.inf false), 0)
  else if m then (enc32 (.inf true), 0)
  else
    let sums := bps.map (fun b => (b.e, (b.as.zip b.bs).foldl (fun s q => s + stepsOf fa q.1 * stepsOf fb q.2) (0 : Int)))
    let nz := sums.filter (fun q => q.2 ≠ 0)
    match nz with
    | [] => (0, 0)
    | q0 :: _ =>
      let emax := nz.foldl (fun a q => max a q.1) q0.1
      let L : Int := 103 - ((fa.ewidth + fb.ewidth : Nat) : Int)
      let terms := nz.map (fun q =>
        let spread := emax - q.1
        if spread ≤ L then q.2 * (2 ^ (L - spread).toNat : Int)
        else (truncTo (spread - L).toNat q.2) / (2 ^ (spread - L).toNat : Int))
      let total : Int := terms.foldl (· + ·) 0
      let ev := if nz.any (fun q => emax - q.1 > L) then evMxSpread else 0
      (if total = 0 then 0 else enc32 (.fin (total < 0) total.natAbs (emax - L + fa.qmin + fb.qmin)), ev)

/-- R53: one addition of the guarded accumulator (32 significant bits, smallest step 2^-157). -/
def guardedAdd (acc p : Val) : Val :=
  match vadd acc p with
  | .fin neg m e => let (r, q) := roundTo 32 (-157) m e; .fin neg r q
  | v => v

/-- R53: the binary32 result of one BF16 or FP16 chunk. -/
def wideChunk (as bs : List Val) : Nat :=
  enc32 ((as.zip bs).foldl (fun acc p => guardedAdd acc (vmul p.1 p.2)) (.fin false 0 0))

/-- One level of the pairwise tree: combine neighbours, the lower index on the left. -/
def pairUp {α : Type} (f : α → α → α) : List α → List α
  | a :: b :: t => f a b :: pairUp f t
  | l => l

/-- R55: the canonical tree, `fuel` bounding the levels. -/
def treeFold {α : Type} (f : α → α → α) : Nat → List α → List α
  | 0, l => l
  | n + 1, l => match l with
    | _ :: _ :: _ => treeFold f n (pairUp f l)
    | _ => l

/-- R55: canonical_tree of binary32 values; `none` for an empty list. -/
def canonicalTree {α : Type} (f : α → α → α) (l : List α) : Option α := (treeFold f 64 l).head?

/-- R55 to R56: combine chunk results and add the initial value; with no chunk the result is the initial value. -/
def treeWithInit (init : Nat) (chunks : List Nat) : Nat :=
  match canonicalTree fadd chunks with
  | none => init
  | some t => fadd init t

/-! ### Row statistics (R58 to R61) -/

/-- A partial statistic of R59. -/
structure Stat where
  n : Nat
  mu : Nat
  m2 : Nat
  deriving DecidableEq, Repr

/-- R59: the Welford update over a segment of prescaled elements. -/
def welford (ys : List Nat) : Stat :=
  match ys with
  | [] => ⟨0, 0, 0⟩
  | y :: t => t.foldl (fun s y =>
      let n := s.n + 1
      let d := fsub y s.mu
      let mu := fadd s.mu (fdiv d (fofNat n))
      let d2 := fsub y mu
      ⟨n, mu, fadd s.m2 (fmul d d2)⟩) ⟨1, y, 0⟩

/-- R60: merge two partial statistics, the lower segment on the left. -/
def statMerge (a b : Stat) : Stat :=
  let n := a.n + b.n
  let d := fsub b.mu a.mu
  let mu := fadd a.mu (fmul d (fdiv (fofNat b.n) (fofNat n)))
  let w := fdiv (fmul (fofNat a.n) (fofNat b.n)) (fofNat n)
  ⟨n, mu, fadd (fadd a.m2 b.m2) (fmul (fmul d d) w)⟩

/-- R58: the row's prescale exponent. -/
def rowExp (vs : List Val) : Int := (amaxLog2 vs).getD 0

/-- R61: write a scaled statistic in the output format, saturating with STAT_SAT. -/
def statOut (f : Fmt) (s : Nat) (sh : Int) : Nat × Nat :=
  match val32 s with
  | .fin neg m e =>
    let (r, q) := roundTo (f.fbits + 1) f.qmin m (e + sh)
    if magEnc f r q ≤ f.maxEnc then (packFinite f neg r q, 0)
    else ((if neg then f.signBit else 0) + f.maxEnc, evStatSat)
  | v => encodePlain f v

/-- R58 to R61: mean and variance of one row of at least one element in the output format, and the events raised. -/
def rowStats (f : Fmt) (sample : Bool) (vs : List Val) : Nat × Nat × Nat :=
  let (n, p, m) := specials vs
  let nan := (encodePlain f .nan).1
  if n || (p && m) then (nan, nan, evNanOut)
  else if p || m then ((encodePlain f (.inf m)).1, nan, evNanOut)
  else
    let e := rowExp vs
    let ys := vs.map (fun v => match v with
      | .fin neg k x => enc32 (.fin neg k (x - e))
      | w => enc32 w)
    match canonicalTree statMerge ((chunksOf 256 (ys.length + 1) ys).map welford) with
    | none => (nan, nan, evNanOut)
    | some st =>
      let s := if sample then (if st.n = 1 then 0 else fdiv st.m2 (fofNat (st.n - 1))) else fdiv st.m2 (fofNat st.n)
      let (mean, e1) := statOut f st.mu e
      let (var, e2) := statOut f s (2 * e)
      (mean, var, e1 ||| e2)

/-- R63: the sum of many binary32 elements: segments of 256 in index order, then the tree. -/
def rowSum (xs : List Nat) : Nat :=
  (canonicalTree fadd ((chunksOf 256 (xs.length + 1) xs).map (fun seg =>
    match seg with
    | [] => 0
    | x :: t => t.foldl fadd x))).getD 0

end Sys2Proof.Machine
end

