-- ==== Sys2Proof/Machine/Codes.lean ====
section
/-!
DEFINITION. Machine/Codes.lean: the status codes of R458, the reasons of R105 and the reason details of R135, R161.
Log entries that code here: 71 (DEDUCED, unsafe).
-/

namespace Sys2Proof.Machine

/-! ### Completion statuses (R458) -/
def stOk : Nat := 0x00
def stFailedOperand : Nat := 0x01
def stFailedMemory : Nat := 0x02
def stFailedLink : Nat := 0x03
def stTimeout : Nat := 0x04
def stCancelledReset : Nat := 0x05
def stCancelledHost : Nat := 0x06
def stDuplicate : Nat := 0x07
def stNoPages : Nat := 0x08
def stParked : Nat := 0x09
def stDomainOff : Nat := 0x0A
def stFailedDevice : Nat := 0x0B
def stFailedLateWeights : Nat := 0x0C
def stDenied : Nat := 0x0D
def stOversubscribed : Nat := 0x0E
def stThermalAbort : Nat := 0x0F

/-! ### Reasons (R105) -/
def rBadOpcode : Nat := 0x01
def rBadLayout : Nat := 0x02
def rReservedSet : Nat := 0x03
def rBadSem : Nat := 0x04
def rBadBound : Nat := 0x05
def rBoundRequired : Nat := 0x06
def rBadFormat : Nat := 0x07
def rBadShape : Nat := 0x08
def rAlign : Nat := 0x09
def rBenchRange : Nat := 0x0A
def rAccSpace : Nat := 0x0B
def rMcastMismatch : Nat := 0x0C
def rBarrierMismatch : Nat := 0x0D
def rBadSpace : Nat := 0x0E
def rNoLast : Nat := 0x0F
def rBadJig : Nat := 0x10
def rUnitCheck : Nat := 0x11
def rEccUncorr : Nat := 0x20
def rOutOfPartition : Nat := 0x21
def rWaitTimeout : Nat := 0x22

/-- The status that goes with a reason (R105). -/
def reasonStatus (r : Nat) : Nat :=
  if r = rEccUncorr then stFailedMemory
  else if r = rOutOfPartition then stDenied
  else if r = rWaitTimeout then stTimeout
  else stFailedOperand

/-! ### Details of UNIT_CHECK (R135, R161) -/
def dMaskIllegal : Nat := 0x040001
def dMmOverlap : Nat := 0x040002
def dDtUnpaired : Nat := 0x040003
def dDtPair : Nat := 0x040004
def dDtMismatch : Nat := 0x040005
def dDtOverlap : Nat := 0x040006
def dMtOverlap : Nat := 0x040007
def dVpBadInstr : Nat := 0x050001
def dVpStructure : Nat := 0x050002
def dSfEmptySlot : Nat := 0x050003
def dSfOverlap : Nat := 0x050004
def dLenRange : Nat := 0x050005
def dSmOverlap : Nat := 0x050006

/-! ### Details of ATTN (R200) -/
def dAtRoot : Nat := 0x060001
def dAtSeq : Nat := 0x060002
def dAtNoPage : Nat := 0x060003
def dAtBadPage : Nat := 0x060004
def dAtFreePage : Nat := 0x060005
def dAtAppend : Nat := 0x060006
def dAtCur : Nat := 0x060007
def dAtGroup : Nat := 0x060008
def dAtOverlap : Nat := 0x060009
def dAtParam : Nat := 0x06000A

/-! ### Details of RSTEP, STATE_SAVE and STATE_LOAD (R224) -/
def dStSlot : Nat := 0x070001
def dStExtent : Nat := 0x070002
def dStDup : Nat := 0x070003
def dStProg : Nat := 0x070004
def dStOverlap : Nat := 0x070005
def dStInStep : Nat := 0x070006

/-! ### Details of the GSU (R264), CONV and CROP (R281) -/
def dGsIndex : Nat := 0x090001
def dGsOffsets : Nat := 0x090002
def dGsOverlap : Nat := 0x090003
def dGsTable : Nat := 0x090004
def dCvGeom : Nat := 0x0A0001
def dCvGroups : Nat := 0x0A0002
def dCvKrange : Nat := 0x0A0003
def dCvOverlap : Nat := 0x0A0004
def dCrImage : Nat := 0x0A0005
def dCrOverlap : Nat := 0x0A0006

/-! ### Details of barges (R343) -/
def dBgOverlap : Nat := 0x0C0001
def dBgSkew : Nat := 0x0C0002
def dBgMcast : Nat := 0x0C0003
def dBgEngine : Nat := 0x0C0004

/-! ### Details of the sequencer (R246), of LAYER_FENCE (R320) -/
def dSqNotOpen : Nat := 0x080001
def dSqRecord : Nat := 0x080002
def dSqSeqRange : Nat := 0x080003
def dSqSeqLive : Nat := 0x080004
def dSqSeqDead : Nat := 0x080005
def dSqLiveLimit : Nat := 0x080006
def dSqImage : Nat := 0x080007
def dSqBroken : Nat := 0x080008
def dSqBusy : Nat := 0x080009
def dSqField : Nat := 0x08000A
def dLfEntry : Nat := 0x0B0001
def dLfNoStream : Nat := 0x0B0002
def dLfTable : Nat := 0x0B0003
def dLfKvResolve : Nat := 0x0B0004

end Sys2Proof.Machine
end

