-- ==== Sys2Proof/Config.lean ====
section
/-!
DEFINITION. Config.lean: what the manual leaves to the implementation, as constants with no body, so that no proof can
see a value: a statement that mentions one holds for every value. Each is named in a row of notes/assumptions.
Log entries that code here: 2 (DESIGN CHOICE, safe), 3 (DESIGN CHOICE, safe), 4 (DESIGN CHOICE, safe), 5 (DESIGN CHOICE, safe), 34 (DESIGN
CHOICE, safe).
-/

namespace Sys2Proof

/-- The free values of the model: a fresh number for each value of the State counter `free` (log entry 2). Nothing
constrains it; a user takes it modulo the range it needs. -/
opaque Config.freeNat : Nat → Nat

/-- R145: which of the binary32 results within one ulp a library function returns for an argument (slot, argument);
a library function is the same on every cell, so this depends on nothing else (log entry 3). -/
opaque Config.libPick : Nat → Nat → Nat

/-- R142, R143: what the working registers R, T, P, S (0 to 3), n (4) and the coefficients (5 to 20) of a
special-function lane hold before a loaded micro-program sets them, and n after RANGE meets a NaN (21): the manual does
not say (log entry 5). -/
opaque Config.mpOpen : Nat → Nat

/-- R541, fused: the module serial number (log entry 4). -/
opaque Config.serial : BitVec 64

end Sys2Proof
end

