-- ==== Sys2Proof/Machine/RegMap.lean ====
section
/-!
DEFINITION. Machine/RegMap.lean: the page index of R537 and every register of every page: offset, copies, fields with
their access codes (R16) and reset values (R19). A field not listed is reserved and reads 0 (R17). The rows follow the
register tables R62, R108 to R110, R160, R201, R223, R263, R280, R316 to R319, R340 to R342, R377, R378, R409 to R411,
R436, R438, R448, R449, R470 to R472, R495, R496, R512, R531, R532 and R541 to R551.
Log entries that code here: 13 (DESIGN CHOICE, unsafe).
-/

namespace Sys2Proof.Machine

/-- The access codes of R16; `rwd` is R448's and R449's "RW, disabled": writable only while the queue is DISABLED. -/
inductive Acc where
  | ro | rw | wo | w1c | w1s | rwl | rwd
  deriving DecidableEq, Repr

/-- One field [hi:lo] of a register with its access code and reset value. -/
structure Field where
  hi : Nat
  lo : Nat
  acc : Acc
  rst : Nat
  deriving DecidableEq, Repr

/-- One register row: its name, the offset of copy 0, the copies and their distance, and its fields. -/
structure Reg where
  name : String
  off : Nat
  copies : Nat
  stride : Nat
  fields : List Field
  deriving DecidableEq, Repr

/-- The page types of R537. -/
inductive Page where
  | chp | ver | cfg | kpr | mbx | dbl | prt | hbm | wei | fls | flsWin | lnk | lnkWei | col | aln | scl | pwr | err | dmp | rgn | arb | brg | vidPixel | vidEntropy | dieLink | sram | rgnErr | blk | router | gsu | lck | blkErr | cel | jq | bench | arrays | vector | state | slice | perf | celErr | partId | sub | cmp | amb | vfEvt | apCtl
  deriving DecidableEq, Repr

/-- The TYPE code of a page (R537). -/
def Page.type : Page → Nat
  | .chp => 0x0001
  | .ver => 0x0002
  | .cfg => 0x0003
  | .kpr => 0x0004
  | .mbx => 0x0005
  | .dbl => 0x0006
  | .prt => 0x0007
  | .hbm => 0x0008
  | .wei => 0x0009
  | .fls => 0x000A
  | .flsWin => 0x000B
  | .lnk => 0x000C
  | .lnkWei => 0x000D
  | .col => 0x000E
  | .aln => 0x000F
  | .scl => 0x0010
  | .pwr => 0x0011
  | .err => 0x0012
  | .dmp => 0x0013
  | .rgn => 0x0101
  | .arb => 0x0102
  | .brg => 0x0103
  | .vidPixel => 0x0104
  | .vidEntropy => 0x0105
  | .dieLink => 0x0106
  | .sram => 0x0107
  | .rgnErr => 0x0108
  | .blk => 0x0201
  | .router => 0x0202
  | .gsu => 0x0203
  | .lck => 0x0204
  | .blkErr => 0x0205
  | .cel => 0x0301
  | .jq => 0x0302
  | .bench => 0x0303
  | .arrays => 0x0304
  | .vector => 0x0305
  | .state => 0x0306
  | .slice => 0x0307
  | .perf => 0x0308
  | .celErr => 0x0309
  | .partId => 0x0401
  | .sub => 0x0402
  | .cmp => 0x0403
  | .amb => 0x0404
  | .vfEvt => 0x0405
  | .apCtl => 0x0406

/-- Registers of the chp page. -/
def regsChp : List Reg := [
  ⟨"STATUS", 0x00C, 1, 4, [⟨2, 0, .ro, 1⟩]⟩,
  ⟨"EVT_RAW", 0x010, 1, 4, [⟨0, 0, .ro, 0⟩, ⟨1, 1, .ro, 0⟩, ⟨2, 2, .ro, 0⟩]⟩,
  ⟨"CHP_STATE", 0x040, 1, 4, [⟨2, 0, .ro, 1⟩]⟩,
  ⟨"CHP_ORDER", 0x044, 1, 4, [⟨31, 0, .ro, 0x49573430⟩]⟩,
  ⟨"CHP_STEPPING", 0x048, 1, 4, [⟨15, 0, .ro, 0x4101⟩]⟩,
  ⟨"CHP_SERIAL.LOW", 0x050, 1, 4, [⟨31, 0, .ro, 0⟩]⟩,
  ⟨"CHP_SERIAL.HIGH", 0x054, 1, 4, [⟨31, 0, .ro, 0⟩]⟩,
  ⟨"CHP_SLOT", 0x058, 1, 4, [⟨7, 0, .ro, 0⟩]⟩,
  ⟨"CHP_EVT_SUM", 0x060, 1, 4, [⟨6, 0, .ro, 0⟩, ⟨14, 7, .ro, 0⟩, ⟨22, 15, .ro, 0⟩, ⟨26, 23, .ro, 0⟩]⟩,
  ⟨"CHP_LNK_SUM", 0x064, 1, 4, [⟨15, 0, .ro, 0⟩]⟩,
  ⟨"CHP_MBX_SUM.LOW", 0x068, 1, 4, [⟨31, 0, .ro, 0⟩]⟩,
  ⟨"CHP_MBX_SUM.HIGH", 0x06C, 1, 4, [⟨31, 0, .ro, 0⟩]⟩,
  ⟨"CHP_ABORTS", 0x070, 1, 4, [⟨31, 0, .rw, 0⟩]⟩,
  ⟨"CHP_LOCKED_WRITES", 0x074, 1, 4, [⟨31, 0, .rw, 0⟩]⟩,
  ⟨"CHP_APWINw", 0x100, 16, 4, [⟨0, 0, .rw, 0⟩, ⟨1, 1, .rw, 0⟩, ⟨11, 2, .rw, 0⟩]⟩]

/-- Registers of the ver page. -/
def regsVer : List Reg := [
  ⟨"EVT_RAW", 0x010, 1, 4, [⟨0, 0, .ro, 0⟩]⟩,
  ⟨"VER_DEVICE", 0x040, 1, 4, [⟨15, 0, .ro, 0x302⟩, ⟨31, 16, .ro, 0x206⟩]⟩,
  ⟨"VER_REQUEST", 0x044, 1, 4, [⟨15, 0, .rwl, 0⟩]⟩,
  ⟨"VER_ACTIVE", 0x048, 1, 4, [⟨15, 0, .ro, 0⟩, ⟨16, 16, .ro, 0⟩]⟩,
  ⟨"VER_STEPPING", 0x04C, 1, 4, [⟨15, 0, .ro, 0x4101⟩]⟩,
  ⟨"VER_KEEPER", 0x050, 1, 4, [⟨31, 0, .ro, 0⟩]⟩,
  ⟨"VER_MICROCODE", 0x054, 1, 4, [⟨31, 0, .ro, 0⟩]⟩,
  ⟨"VER_IF", 0x058, 1, 4, [⟨15, 0, .ro, 0⟩, ⟨31, 16, .ro, 0⟩]⟩,
  ⟨"VER_SLOTS", 0x05C, 1, 4, [⟨1, 0, .ro, 0⟩, ⟨3, 2, .ro, 0⟩]⟩]

/-- Registers of the cfg page. -/
def regsCfg : List Reg := [
  ⟨"STATUS", 0x00C, 1, 4, [⟨0, 0, .ro, 0⟩]⟩,
  ⟨"EVT_RAW", 0x010, 1, 4, [⟨0, 0, .ro, 0⟩, ⟨1, 1, .ro, 0⟩, ⟨2, 2, .ro, 0⟩, ⟨3, 3, .ro, 0⟩, ⟨4, 4, .ro, 0⟩, ⟨5, 5, .ro, 0⟩]⟩,
  ⟨"CFG_CMD", 0x040, 1, 4, [⟨1, 0, .wo, 0⟩]⟩,
  ⟨"CFG_STATUS", 0x044, 1, 4, [⟨7, 0, .ro, 0⟩, ⟨23, 8, .ro, 0⟩]⟩,
  ⟨"CFG_HELD", 0x048, 1, 4, [⟨11, 0, .ro, 0⟩, ⟨23, 16, .ro, 0⟩]⟩,
  ⟨"CFG_GEN", 0x04C, 1, 4, [⟨31, 0, .ro, 0⟩]⟩,
  ⟨"CFG_PAIR", 0x050, 1, 4, [⟨31, 0, .ro, 0⟩]⟩,
  ⟨"CFG_ACCEPT", 0x054, 1, 4, [⟨31, 0, .wo, 0⟩]⟩,
  ⟨"CFG_ACCEPT_STATUS", 0x058, 1, 4, [⟨1, 0, .ro, 0⟩]⟩,
  ⟨"CFG_SBLK.LOW", 0x060, 1, 4, [⟨31, 0, .rw, 0⟩]⟩,
  ⟨"CFG_SBLK.HIGH", 0x064, 1, 4, [⟨31, 0, .rw, 0⟩]⟩,
  ⟨"CFG_IMG_ADDR.LOW", 0x068, 1, 4, [⟨31, 0, .rw, 0⟩]⟩,
  ⟨"CFG_IMG_ADDR.HIGH", 0x06C, 1, 4, [⟨31, 0, .rw, 0⟩]⟩,
  ⟨"CFG_IMG_CMD", 0x070, 1, 4, [⟨1, 0, .wo, 0⟩]⟩,
  ⟨"CFG_IMG_STATUS", 0x074, 1, 4, [⟨7, 0, .ro, 0⟩, ⟨8, 8, .ro, 0⟩, ⟨9, 9, .ro, 0⟩]⟩,
  ⟨"CFG_WRITTENw", 0x080, 8, 4, [⟨31, 0, .ro, 0⟩]⟩,
  ⟨"CFG_REC", 0x100, 256, 4, [⟨31, 0, .rw, 0⟩]⟩]

/-- Registers of the kpr page. -/
def regsKpr : List Reg := [
  ⟨"STATUS", 0x00C, 1, 4, [⟨1, 0, .ro, 0⟩, ⟨2, 2, .ro, 0⟩]⟩,
  ⟨"EVT_RAW", 0x010, 1, 4, [⟨0, 0, .ro, 0⟩, ⟨1, 1, .ro, 0⟩, ⟨2, 2, .ro, 0⟩]⟩,
  ⟨"KPR_HEARTBEAT", 0x040, 1, 4, [⟨31, 0, .ro, 0⟩]⟩,
  ⟨"KPR_RESTARTS", 0x044, 1, 4, [⟨31, 0, .rw, 0⟩]⟩,
  ⟨"KPR_BUSY", 0x048, 1, 4, [⟨9, 0, .ro, 0⟩]⟩,
  ⟨"KPR_PENDING", 0x04C, 1, 4, [⟨15, 0, .ro, 0⟩]⟩]

/-- Registers of the mbx page. -/
def regsMbx : List Reg := [
  ⟨"STATUS", 0x00C, 1, 4, [⟨1, 0, .ro, 0⟩, ⟨2, 2, .ro, 0⟩, ⟨3, 3, .ro, 0⟩]⟩,
  ⟨"EVT_RAW", 0x010, 1, 4, [⟨0, 0, .ro, 0⟩, ⟨1, 1, .ro, 0⟩, ⟨2, 2, .ro, 0⟩, ⟨3, 3, .ro, 0⟩, ⟨4, 4, .ro, 0⟩, ⟨5, 5, .ro, 0⟩, ⟨6, 6, .ro, 0⟩, ⟨7, 7, .ro, 0⟩, ⟨8, 8, .ro, 0⟩]⟩,
  ⟨"MBX_BIND", 0x040, 1, 4, [⟨15, 0, .rwl, 0xFFFF⟩, ⟨31, 16, .rwl, 0xFFFF⟩]⟩,
  ⟨"MBX_CTL", 0x044, 1, 4, [⟨0, 0, .wo, 0⟩, ⟨1, 1, .wo, 0⟩, ⟨2, 2, .wo, 0⟩, ⟨3, 3, .wo, 0⟩]⟩,
  ⟨"MBX_SEQ", 0x048, 1, 4, [⟨31, 0, .ro, 0⟩]⟩,
  ⟨"MBX_PUSH", 0x04C, 1, 4, [⟨31, 0, .wo, 0⟩]⟩,
  ⟨"MBX_POP", 0x050, 1, 4, [⟨31, 0, .ro, 0⟩]⟩,
  ⟨"MBX_LEVEL", 0x054, 1, 4, [⟨5, 0, .ro, 0⟩, ⟨13, 8, .ro, 0⟩]⟩,
  ⟨"MBX_OVERFLOWS", 0x058, 1, 4, [⟨31, 0, .rw, 0⟩]⟩,
  ⟨"MBX_MSGi", 0x080, 16, 4, [⟨31, 0, .rw, 0⟩]⟩]

/-- Registers of the dbl page. -/
def regsDbl : List Reg := [
  ⟨"DBL_LOCK", 0x040, 1, 4, [⟨0, 0, .w1s, 0⟩]⟩,
  ⟨"DBL_RAW", 0x100, 7, 16, [⟨31, 0, .w1c, 0⟩]⟩,
  ⟨"DBL_MASK", 0x104, 7, 16, [⟨31, 0, .rw, 0⟩]⟩,
  ⟨"DBL_PEND", 0x108, 7, 16, [⟨31, 0, .ro, 0⟩]⟩]

/-- Registers of the prt page. -/
def regsPrt : List Reg := [
  ⟨"STATUS", 0x00C, 1, 4, [⟨0, 0, .ro, 0⟩]⟩,
  ⟨"EVT_RAW", 0x010, 1, 4, [⟨0, 0, .ro, 0⟩, ⟨1, 1, .ro, 0⟩, ⟨2, 2, .ro, 0⟩, ⟨3, 3, .ro, 0⟩]⟩,
  ⟨"PRT_SEL", 0x040, 1, 4, [⟨9, 0, .rw, 0⟩]⟩,
  ⟨"PRT_CMD", 0x044, 1, 4, [⟨1, 0, .wo, 0⟩]⟩,
  ⟨"PRT_CMD_STATUS", 0x048, 1, 4, [⟨7, 0, .ro, 0⟩, ⟨31, 8, .ro, 0⟩]⟩,
  ⟨"PRT_ATTR", 0x04C, 1, 4, [⟨0, 0, .rw, 0⟩, ⟨1, 1, .rw, 0⟩]⟩,
  ⟨"PRT_HBM", 0x050, 1, 4, [⟨7, 0, .rw, 0⟩, ⟨16, 8, .rw, 0⟩]⟩,
  ⟨"PRT_FABRIC", 0x054, 1, 4, [⟨15, 0, .rw, 0⟩, ⟨28, 16, .rw, 0⟩]⟩,
  ⟨"PRT_VIDEO", 0x058, 1, 4, [⟨15, 0, .rw, 0⟩, ⟨31, 16, .rw, 0⟩]⟩,
  ⟨"PRT_TT", 0x05C, 1, 4, [⟨10, 0, .rw, 0⟩]⟩,
  ⟨"PRT_STATE", 0x060, 1, 4, [⟨2, 0, .ro, 0⟩, ⟨13, 3, .ro, 0⟩]⟩,
  ⟨"PRT_RESETS", 0x064, 1, 4, [⟨31, 0, .ro, 0⟩]⟩,
  ⟨"PRT_FREE_CELLS", 0x068, 1, 4, [⟨10, 0, .ro, 0x400⟩]⟩,
  ⟨"PRT_FREE_GRANs", 0x070, 8, 4, [⟨8, 0, .ro, 0x100⟩]⟩,
  ⟨"PRT_CELLSw", 0x100, 32, 4, [⟨31, 0, .rw, 0⟩]⟩,
  ⟨"PRT_FREE_MAPw", 0x180, 32, 4, [⟨31, 0, .ro, 0xFFFFFFFF⟩]⟩,
  ⟨"PRT_RREC", 0x200, 16, 4, [⟨31, 0, .ro, 0⟩]⟩]

/-- Registers of the hbm page. -/
def regsHbm : List Reg := [
  ⟨"CTRL", 0x008, 1, 4, [⟨0, 0, .rwl, 0⟩]⟩,
  ⟨"STATUS", 0x00C, 1, 4, [⟨1, 0, .ro, 0⟩, ⟨2, 2, .ro, 0⟩, ⟨3, 3, .ro, 0⟩]⟩,
  ⟨"EVT_RAW", 0x010, 1, 4, [⟨0, 0, .ro, 0⟩, ⟨1, 1, .ro, 0⟩, ⟨2, 2, .ro, 0⟩, ⟨3, 3, .ro, 0⟩, ⟨4, 4, .ro, 0⟩, ⟨5, 5, .ro, 0⟩, ⟨6, 6, .ro, 0⟩, ⟨7, 7, .ro, 0⟩, ⟨8, 8, .ro, 0⟩, ⟨9, 9, .ro, 0⟩]⟩,
  ⟨"HBM_TEMP", 0x040, 1, 4, [⟨7, 0, .ro, 0⟩, ⟨15, 8, .rw, 0⟩]⟩,
  ⟨"HBM_DERATE", 0x044, 1, 4, [⟨12, 0, .ro, 0x1000⟩]⟩,
  ⟨"HBM_WCOMMIT", 0x048, 1, 4, [⟨0, 0, .wo, 0⟩]⟩,
  ⟨"HBM_WSTATUS", 0x04C, 1, 4, [⟨7, 0, .ro, 0⟩, ⟨31, 8, .ro, 0⟩]⟩,
  ⟨"HBM_WURGENT", 0x050, 1, 4, [⟨13, 0, .ro, 0⟩]⟩,
  ⟨"HBM_CE_COUNT", 0x054, 1, 4, [⟨31, 0, .rw, 0⟩]⟩,
  ⟨"HBM_UE_COUNT", 0x058, 1, 4, [⟨31, 0, .rw, 0⟩]⟩,
  ⟨"HBM_LINK_CE", 0x05C, 1, 4, [⟨31, 0, .rw, 0⟩]⟩,
  ⟨"HBM_TAG_STALL", 0x060, 1, 4, [⟨31, 0, .rw, 0⟩]⟩]

/-- Registers of the wei page. -/
def regsWei : List Reg := [
  ⟨"WEI_SHARE", 0x040, 128, 16, [⟨11, 0, .rw, 0⟩, ⟨15, 12, .rw, 0⟩, ⟨31, 16, .rw, 0⟩]⟩,
  ⟨"WEI_ACTIVE", 0x044, 128, 16, [⟨31, 0, .ro, 0⟩]⟩,
  ⟨"WEI_CREDIT", 0x048, 128, 16, [⟨31, 0, .ro, 0⟩]⟩,
  ⟨"WEI_STALL", 0x04C, 128, 16, [⟨31, 0, .rw, 0⟩]⟩]

/-- Registers of the fls page. -/
def regsFls : List Reg := [
  ⟨"FLS_WCOMMIT", 0x040, 1, 4, [⟨0, 0, .wo, 0⟩]⟩,
  ⟨"FLS_WSTATUS", 0x044, 1, 4, [⟨7, 0, .ro, 0⟩, ⟨31, 8, .ro, 0⟩]⟩,
  ⟨"FLS_DERATE", 0x048, 1, 4, [⟨12, 0, .ro, 0x1000⟩]⟩,
  ⟨"FLS_UE_COUNT", 0x04C, 1, 4, [⟨31, 0, .rw, 0⟩]⟩,
  ⟨"FLS_RETRY_COUNT", 0x050, 1, 4, [⟨31, 0, .rw, 0⟩]⟩,
  ⟨"EVT_RAW", 0x010, 1, 4, [⟨0, 0, .ro, 0⟩, ⟨1, 1, .ro, 0⟩, ⟨2, 2, .ro, 0⟩, ⟨3, 3, .ro, 0⟩]⟩,
  ⟨"LCK_STATE", 0x100, 32, 16, [⟨0, 0, .ro, 0⟩, ⟨1, 1, .ro, 0⟩, ⟨8, 2, .ro, 0⟩]⟩,
  ⟨"LCK_TURNS", 0x104, 32, 16, [⟨31, 0, .rw, 0⟩]⟩,
  ⟨"LCK_WAIT_OUT", 0x108, 32, 16, [⟨31, 0, .rw, 0⟩]⟩,
  ⟨"LCK_WAIT_IN", 0x10C, 32, 16, [⟨31, 0, .rw, 0⟩]⟩]

/-- Registers of the flsWin page. -/
def regsFlsWin : List Reg := [
  ⟨"FLS_WIN_BASE", 0x040, 128, 16, [⟨27, 0, .rw, 0⟩]⟩,
  ⟨"FLS_WIN_STRIPES", 0x044, 128, 16, [⟨27, 0, .rw, 0⟩]⟩,
  ⟨"FLS_WEIR", 0x048, 128, 16, [⟨11, 0, .rw, 0⟩, ⟨31, 16, .rw, 0⟩]⟩,
  ⟨"FLS_WEIR_ACTIVE", 0x04C, 128, 16, [⟨31, 0, .ro, 0⟩]⟩]

/-- Registers of the lnk page. -/
def regsLnk : List Reg := [
  ⟨"CTRL", 0x008, 1, 4, [⟨0, 0, .rw, 0⟩, ⟨1, 1, .wo, 0⟩]⟩,
  ⟨"STATUS", 0x00C, 1, 4, [⟨1, 0, .ro, 0⟩, ⟨3, 2, .ro, 0⟩, ⟨7, 4, .ro, 0⟩]⟩,
  ⟨"EVT_RAW", 0x010, 1, 4, [⟨0, 0, .ro, 0⟩, ⟨1, 1, .ro, 0⟩, ⟨2, 2, .ro, 0⟩, ⟨3, 3, .ro, 0⟩, ⟨4, 4, .ro, 0⟩, ⟨5, 5, .ro, 0⟩, ⟨6, 6, .ro, 0⟩, ⟨7, 7, .ro, 0⟩, ⟨8, 8, .ro, 0⟩, ⟨9, 9, .ro, 0⟩, ⟨10, 10, .ro, 0⟩]⟩,
  ⟨"LNK_EXPECT", 0x040, 1, 4, [⟨14, 0, .rw, 0x7FFF⟩, ⟨23, 16, .rw, 0xFF⟩]⟩,
  ⟨"LNK_PEER", 0x044, 1, 4, [⟨14, 0, .ro, 0x7FFF⟩, ⟨23, 16, .ro, 0xFF⟩]⟩,
  ⟨"LNK_REPLAYS", 0x048, 1, 4, [⟨31, 0, .rw, 0⟩]⟩,
  ⟨"LNK_DOWNS", 0x04C, 1, 4, [⟨31, 0, .rw, 0⟩]⟩,
  ⟨"LNK_DELAY", 0x050, 1, 4, [⟨23, 0, .ro, 0⟩]⟩,
  ⟨"LNK_LATE_RSP", 0x054, 1, 4, [⟨31, 0, .rw, 0⟩]⟩,
  ⟨"LNK_CREDIT_STALL", 0x058, 1, 4, [⟨31, 0, .rw, 0⟩]⟩,
  ⟨"LNK_SLOW_RX", 0x05C, 1, 4, [⟨31, 0, .rw, 0⟩]⟩,
  ⟨"LNK_WCOMMIT", 0x060, 1, 4, [⟨0, 0, .wo, 0⟩]⟩,
  ⟨"LNK_WSTATUS", 0x064, 1, 4, [⟨7, 0, .ro, 0⟩, ⟨31, 8, .ro, 0⟩]⟩,
  ⟨"LNK_DERATE", 0x068, 1, 4, [⟨12, 0, .ro, 0x1000⟩]⟩,
  ⟨"LNK_URGENT", 0x06C, 1, 4, [⟨13, 0, .ro, 0⟩]⟩]

/-- Registers of the lnkWei page. -/
def regsLnkWei : List Reg := [
  ⟨"WEI_SHARE", 0x040, 128, 16, [⟨11, 0, .rw, 0⟩, ⟨15, 12, .rw, 0⟩, ⟨31, 16, .rw, 0⟩]⟩,
  ⟨"WEI_ACTIVE", 0x044, 128, 16, [⟨31, 0, .ro, 0⟩]⟩,
  ⟨"WEI_CREDIT", 0x048, 128, 16, [⟨31, 0, .ro, 0⟩]⟩,
  ⟨"WEI_STALL", 0x04C, 128, 16, [⟨31, 0, .rw, 0⟩]⟩]

/-- Registers of the col page. -/
def regsCol : List Reg := [
  ⟨"STATUS", 0x00C, 1, 4, [⟨15, 0, .ro, 0⟩]⟩,
  ⟨"EVT_RAW", 0x010, 1, 4, [⟨0, 0, .ro, 0⟩, ⟨1, 1, .ro, 0⟩, ⟨2, 2, .ro, 0⟩, ⟨3, 3, .ro, 0⟩]⟩,
  ⟨"COL_NODE", 0x040, 1, 4, [⟨14, 0, .ro, 0x7FFF⟩]⟩,
  ⟨"COL_TIMEOUT", 0x044, 1, 4, [⟨23, 0, .rwl, 0x7D0⟩]⟩,
  ⟨"COL_RUNS", 0x048, 1, 4, [⟨31, 0, .rw, 0⟩]⟩,
  ⟨"COL_FAILS", 0x04C, 1, 4, [⟨31, 0, .rw, 0⟩]⟩,
  ⟨"COL_SLOW_TX", 0x050, 1, 4, [⟨31, 0, .rw, 0⟩]⟩,
  ⟨"COL_LAST_ABORT", 0x054, 1, 4, [⟨14, 0, .ro, 0x7FFF⟩, ⟨15, 15, .ro, 0⟩, ⟨23, 16, .ro, 0⟩]⟩,
  ⟨"COL_EXTENDED", 0x058, 1, 4, [⟨31, 0, .rw, 0⟩]⟩,
  ⟨"COL_TAGS_LIVE", 0x05C, 1, 4, [⟨16, 0, .ro, 0⟩]⟩,
  ⟨"COL_SLOW_UNSENT", 0x060, 1, 4, [⟨31, 0, .rw, 0⟩]⟩]

/-- Registers of the aln page. -/
def regsAln : List Reg := [
  ⟨"ALN_SETS", 0x100, 64, 16, [⟨31, 0, .rw, 0⟩]⟩,
  ⟨"ALN_PARTIAL", 0x104, 64, 16, [⟨31, 0, .rw, 0⟩]⟩,
  ⟨"ALN_OWNER", 0x108, 64, 16, [⟨9, 0, .ro, 0⟩, ⟨31, 31, .ro, 0⟩]⟩,
  ⟨"ALN_NEXT", 0x10C, 64, 16, [⟨31, 0, .ro, 0⟩]⟩,
  ⟨"EVT_RAW", 0x010, 1, 4, [⟨0, 0, .ro, 0⟩, ⟨1, 1, .ro, 0⟩]⟩]

/-- Registers of the scl page. -/
def regsScl : List Reg := [
  ⟨"CTRL", 0x008, 1, 4, [⟨1, 0, .rw, 0⟩, ⟨5, 2, .rw, 0⟩, ⟨6, 6, .rw, 0⟩]⟩,
  ⟨"STATUS", 0x00C, 1, 4, [⟨1, 0, .ro, 0⟩]⟩,
  ⟨"EVT_RAW", 0x010, 1, 4, [⟨0, 0, .ro, 0⟩, ⟨1, 1, .ro, 0⟩, ⟨2, 2, .ro, 0⟩, ⟨3, 3, .ro, 0⟩]⟩,
  ⟨"SCL_TIME.LOW", 0x040, 1, 4, [⟨31, 0, .ro, 0⟩]⟩,
  ⟨"SCL_TIME.HIGH", 0x044, 1, 4, [⟨31, 0, .ro, 0⟩]⟩,
  ⟨"SCL_SET.LOW", 0x048, 1, 4, [⟨31, 0, .wo, 0⟩]⟩,
  ⟨"SCL_SET.HIGH", 0x04C, 1, 4, [⟨31, 0, .wo, 0⟩]⟩,
  ⟨"SCL_PPS_PHASE", 0x050, 1, 4, [⟨29, 0, .rw, 0⟩]⟩,
  ⟨"SCL_OFFSET", 0x054, 1, 4, [⟨31, 0, .ro, 0⟩]⟩,
  ⟨"SCL_RATE", 0x058, 1, 4, [⟨31, 0, .ro, 0⟩]⟩,
  ⟨"SCL_DEPTH", 0x05C, 1, 4, [⟨7, 0, .ro, 0⟩]⟩,
  ⟨"TTB_ARMED", 0x060, 1, 4, [⟨10, 0, .ro, 0⟩]⟩,
  ⟨"TTB_FIRES", 0x064, 1, 4, [⟨31, 0, .rw, 0⟩]⟩,
  ⟨"TTB_LATE", 0x068, 1, 4, [⟨31, 0, .rw, 0⟩]⟩,
  ⟨"TTB_FAILS", 0x06C, 1, 4, [⟨31, 0, .rw, 0⟩]⟩]

/-- Registers of the pwr page. -/
def regsPwr : List Reg := [
  ⟨"STATUS", 0x00C, 1, 4, [⟨1, 0, .ro, 0⟩, ⟨2, 2, .ro, 0⟩, ⟨3, 3, .ro, 0⟩]⟩,
  ⟨"EVT_RAW", 0x010, 1, 4, [⟨0, 0, .ro, 0⟩, ⟨1, 1, .ro, 0⟩, ⟨2, 2, .ro, 0⟩, ⟨3, 3, .ro, 0⟩, ⟨4, 4, .ro, 0⟩, ⟨5, 5, .ro, 0⟩, ⟨6, 6, .ro, 0⟩, ⟨7, 7, .ro, 0⟩, ⟨8, 8, .ro, 0⟩, ⟨9, 9, .ro, 0⟩, ⟨10, 10, .ro, 0⟩, ⟨11, 11, .ro, 0⟩, ⟨12, 12, .ro, 0⟩, ⟨13, 13, .ro, 0⟩]⟩,
  ⟨"PWR_VIN", 0x040, 1, 4, [⟨15, 0, .ro, 0⟩, ⟨31, 16, .rw, 0xFFFF⟩]⟩,
  ⟨"PWR_BANK", 0x044, 1, 4, [⟨15, 0, .ro, 0⟩, ⟨31, 16, .ro, 0⟩]⟩,
  ⟨"PWR_HOLDUP", 0x048, 1, 4, [⟨15, 0, .ro, 0⟩, ⟨31, 16, .ro, 0xFA0⟩]⟩,
  ⟨"PWR_DIPS", 0x04C, 1, 4, [⟨31, 0, .rw, 0⟩]⟩,
  ⟨"PWR_THROTTLES", 0x050, 1, 4, [⟨31, 0, .rw, 0⟩]⟩,
  ⟨"PWR_DEFERRED", 0x054, 1, 4, [⟨31, 0, .rw, 0⟩]⟩,
  ⟨"PWR_SURGES", 0x058, 1, 4, [⟨31, 0, .rw, 0⟩]⟩,
  ⟨"PWR_LEVEL", 0x05C, 1, 4, [⟨4, 0, .ro, 0x10⟩, ⟨12, 8, .ro, 0x10⟩, ⟨20, 16, .ro, 0x10⟩]⟩,
  ⟨"PWR_JSRC.LOW", 0x060, 1, 4, [⟨31, 0, .rw, 0⟩]⟩,
  ⟨"PWR_JSRC.HIGH", 0x064, 1, 4, [⟨31, 0, .rw, 0⟩]⟩,
  ⟨"PWR_JCMD", 0x068, 1, 4, [⟨0, 0, .wo, 0⟩]⟩,
  ⟨"PWR_JSTATUS", 0x06C, 1, 4, [⟨7, 0, .ro, 0⟩, ⟨8, 8, .ro, 0⟩, ⟨9, 9, .ro, 0⟩, ⟨31, 16, .ro, 0⟩]⟩,
  ⟨"PWR_JFREE", 0x070, 1, 4, [⟨31, 0, .ro, 0⟩]⟩,
  ⟨"PWR_GATE", 0x074, 1, 4, [⟨3, 1, .rw, 0⟩]⟩,
  ⟨"THM_SENSORd", 0x080, 15, 4, [⟨7, 0, .ro, 0⟩, ⟨15, 8, .rw, 0⟩]⟩]

/-- Registers of the err page. -/
def regsErr : List Reg := [
  ⟨"CTRL", 0x008, 1, 4, [⟨0, 0, .wo, 0⟩]⟩,
  ⟨"STATUS", 0x00C, 1, 4, [⟨0, 0, .ro, 0⟩]⟩,
  ⟨"EVT_RAW", 0x010, 1, 4, [⟨0, 0, .ro, 0⟩, ⟨1, 1, .ro, 0⟩, ⟨2, 2, .ro, 0⟩, ⟨3, 3, .ro, 0⟩, ⟨4, 4, .ro, 0⟩, ⟨5, 5, .ro, 0⟩, ⟨6, 6, .ro, 0⟩]⟩,
  ⟨"ERR_FATAL", 0x040, 1, 4, [⟨7, 0, .ro, 0⟩, ⟨9, 8, .ro, 0⟩, ⟨31, 16, .ro, 0⟩]⟩,
  ⟨"ERR_ESC_WINDOW", 0x044, 1, 4, [⟨15, 0, .rw, 0x64⟩]⟩,
  ⟨"ERR_RESET", 0x048, 1, 4, [⟨1, 0, .wo, 0⟩, ⟨25, 16, .wo, 0⟩]⟩,
  ⟨"ERR_RESET_STATUS", 0x04C, 1, 4, [⟨7, 0, .ro, 0⟩, ⟨8, 8, .ro, 0⟩]⟩,
  ⟨"ERR_CELL_FAULTS", 0x050, 1, 4, [⟨31, 0, .rw, 0⟩]⟩,
  ⟨"ERR_BLOCK_FAULTS", 0x054, 1, 4, [⟨31, 0, .rw, 0⟩]⟩,
  ⟨"ERR_REGION_FAULTS", 0x058, 1, 4, [⟨31, 0, .rw, 0⟩]⟩,
  ⟨"ERR_ESCALATIONS", 0x05C, 1, 4, [⟨31, 0, .rw, 0⟩]⟩,
  ⟨"ERR_LOG_COUNT", 0x060, 1, 4, [⟨31, 0, .ro, 0⟩]⟩,
  ⟨"ERR_LOG_SEL", 0x064, 1, 4, [⟨11, 0, .rw, 0⟩]⟩,
  ⟨"ERR_FENCE_WAIT", 0x068, 1, 4, [⟨31, 0, .rw, 0⟩]⟩,
  ⟨"ERR_LOGDATAi", 0x080, 8, 4, [⟨31, 0, .ro, 0⟩]⟩]

/-- Registers of the dmp page. -/
def regsDmp : List Reg := [
  ⟨"STATUS", 0x00C, 1, 4, [⟨1, 0, .ro, 0⟩, ⟨2, 2, .ro, 0⟩]⟩,
  ⟨"EVT_RAW", 0x010, 1, 4, [⟨0, 0, .ro, 0⟩, ⟨1, 1, .ro, 0⟩, ⟨2, 2, .ro, 0⟩]⟩,
  ⟨"DMP_BASE.LOW", 0x040, 1, 4, [⟨31, 0, .ro, 0xF0000000⟩]⟩,
  ⟨"DMP_BASE.HIGH", 0x044, 1, 4, [⟨31, 0, .ro, 0xF⟩]⟩,
  ⟨"DMP_COUNT", 0x048, 1, 4, [⟨31, 0, .ro, 0⟩]⟩,
  ⟨"DMP_JOURNAL", 0x04C, 1, 4, [⟨7, 0, .ro, 0⟩, ⟨15, 8, .ro, 0⟩]⟩,
  ⟨"DMP_JSEQ.LOW", 0x050, 1, 4, [⟨31, 0, .ro, 0⟩]⟩,
  ⟨"DMP_JSEQ.HIGH", 0x054, 1, 4, [⟨31, 0, .ro, 0⟩]⟩]

/-- Registers of the rgn page. -/
def regsRgn : List Reg := [
  ⟨"STATUS", 0x00C, 1, 4, [⟨1, 0, .ro, 0⟩, ⟨2, 2, .ro, 0⟩]⟩,
  ⟨"EVT_RAW", 0x010, 1, 4, [⟨0, 0, .ro, 0⟩, ⟨1, 1, .ro, 0⟩]⟩,
  ⟨"RGN_EVT_SUM", 0x040, 1, 4, [⟨14, 0, .ro, 0⟩, ⟨31, 16, .ro, 0⟩]⟩,
  ⟨"RGN_RC_RESTARTS", 0x044, 1, 4, [⟨31, 0, .rw, 0⟩]⟩]

/-- Registers of the arb page. -/
def regsArb : List Reg := [
  ⟨"RGN_XB_STALLk", 0x040, 23, 4, [⟨31, 0, .rw, 0⟩]⟩]

/-- Registers of the brg page. -/
def regsBrg : List Reg := [
  ⟨"STATUS", 0x00C, 1, 4, [⟨8, 0, .ro, 0⟩, ⟨14, 9, .ro, 0⟩]⟩,
  ⟨"EVT_RAW", 0x010, 1, 4, [⟨0, 0, .ro, 0⟩, ⟨1, 1, .ro, 0⟩, ⟨2, 2, .ro, 0⟩]⟩,
  ⟨"BRG_INTAKE_STALL", 0x040, 1, 4, [⟨31, 0, .rw, 0⟩]⟩,
  ⟨"BRG_DONE", 0x044, 1, 4, [⟨31, 0, .rw, 0⟩]⟩,
  ⟨"BRG_FAILS", 0x048, 1, 4, [⟨31, 0, .rw, 0⟩]⟩,
  ⟨"BRG_BYTES.LOW", 0x050, 1, 4, [⟨31, 0, .ro, 0⟩]⟩,
  ⟨"BRG_BYTES.HIGH", 0x054, 1, 4, [⟨31, 0, .ro, 0⟩]⟩]

/-- Registers of the vidPixel page. -/
def regsVidPixel : List Reg := [
  ⟨"VID_DEC_KPEL", 0x040, 1, 4, [⟨31, 0, .ro, 0⟩]⟩,
  ⟨"VID_ENC_KPEL", 0x044, 1, 4, [⟨31, 0, .ro, 0⟩]⟩,
  ⟨"VID_SESSIONS", 0x048, 1, 4, [⟨7, 0, .ro, 0⟩, ⟨15, 8, .ro, 0⟩]⟩,
  ⟨"VID_RING_STALL", 0x04C, 1, 4, [⟨31, 0, .rw, 0⟩]⟩,
  ⟨"VID_CONCEALED", 0x050, 1, 4, [⟨31, 0, .rw, 0⟩]⟩,
  ⟨"VID_CAP_MISS", 0x054, 1, 4, [⟨31, 0, .rw, 0⟩]⟩]

/-- Registers of the vidEntropy page. -/
def regsVidEntropy : List Reg := [
  ⟨"VID_BASIN_STALL", 0x040, 1, 4, [⟨31, 0, .rw, 0⟩]⟩,
  ⟨"VID_TOK_UNK", 0x044, 1, 4, [⟨31, 0, .rw, 0⟩]⟩]

/-- Registers of the dieLink page. -/
def regsDieLink : List Reg := [
  ⟨"EVT_RAW", 0x010, 1, 4, [⟨0, 0, .ro, 0⟩, ⟨1, 1, .ro, 0⟩]⟩,
  ⟨"RGN_DL_STATE", 0x040, 4, 16, [⟨1, 0, .ro, 0⟩]⟩,
  ⟨"RGN_DL_CRC", 0x044, 4, 16, [⟨31, 0, .rw, 0⟩]⟩,
  ⟨"RGN_DL_REPLAYS", 0x048, 4, 16, [⟨31, 0, .rw, 0⟩]⟩,
  ⟨"RGN_DL_MODULES", 0x04C, 4, 16, [⟨31, 0, .ro, 0⟩]⟩,
  ⟨"LCK_STATE", 0x200, 4, 16, [⟨0, 0, .ro, 0⟩, ⟨1, 1, .ro, 0⟩, ⟨8, 2, .ro, 0⟩]⟩,
  ⟨"LCK_TURNS", 0x204, 4, 16, [⟨31, 0, .rw, 0⟩]⟩,
  ⟨"LCK_WAIT_OUT", 0x208, 4, 16, [⟨31, 0, .rw, 0⟩]⟩,
  ⟨"LCK_WAIT_IN", 0x20C, 4, 16, [⟨31, 0, .rw, 0⟩]⟩,
  ⟨"LCK_STATE", 0x240, 1, 16, [⟨0, 0, .ro, 0⟩, ⟨1, 1, .ro, 0⟩, ⟨8, 2, .ro, 0⟩]⟩,
  ⟨"LCK_TURNS", 0x244, 1, 16, [⟨31, 0, .rw, 0⟩]⟩,
  ⟨"LCK_WAIT_OUT", 0x248, 1, 16, [⟨31, 0, .rw, 0⟩]⟩,
  ⟨"LCK_WAIT_IN", 0x24C, 1, 16, [⟨31, 0, .rw, 0⟩]⟩]

/-- Registers of the sram page. -/
def regsSram : List Reg := [
  ⟨"EVT_RAW", 0x010, 1, 4, [⟨0, 0, .ro, 0⟩, ⟨1, 1, .ro, 0⟩]⟩,
  ⟨"RGN_SRAM_CEl", 0x040, 4, 4, [⟨31, 0, .rw, 0⟩]⟩,
  ⟨"RGN_SRAM_UEl", 0x050, 4, 4, [⟨31, 0, .rw, 0⟩]⟩,
  ⟨"RGN_SRAM_TEMP", 0x060, 1, 4, [⟨7, 0, .ro, 0⟩]⟩]

/-- Registers of the rgnErr page. -/
def regsRgnErr : List Reg := [
  ⟨"EVT_RAW", 0x010, 1, 4, [⟨0, 0, .ro, 0⟩, ⟨1, 1, .ro, 0⟩, ⟨2, 2, .ro, 0⟩]⟩,
  ⟨"ERR_COUNT", 0x040, 1, 4, [⟨31, 0, .rw, 0⟩]⟩]

/-- Registers of the blk page. -/
def regsBlk : List Reg := [
  ⟨"STATUS", 0x00C, 1, 4, [⟨0, 0, .ro, 1⟩]⟩,
  ⟨"EVT_RAW", 0x010, 1, 4, [⟨0, 0, .ro, 0⟩]⟩,
  ⟨"BLK_EVT_SUM", 0x040, 1, 4, [⟨4, 0, .ro, 0⟩, ⟨31, 16, .ro, 0⟩]⟩]

/-- Registers of the router page. -/
def regsRouter : List Reg := [
  ⟨"EVT_RAW", 0x010, 1, 4, [⟨0, 0, .ro, 0⟩]⟩,
  ⟨"BLK_RT_WEIGHTk", 0x040, 17, 4, [⟨3, 0, .rwl, 1⟩]⟩,
  ⟨"BLK_RT_CRC", 0x0A0, 1, 4, [⟨31, 0, .rw, 0⟩]⟩,
  ⟨"BLK_RT_RETRIES", 0x0A4, 1, 4, [⟨31, 0, .rw, 0⟩]⟩]

/-- Registers of the gsu page. -/
def regsGsu : List Reg := [
  ⟨"STATUS", 0x00C, 1, 4, [⟨0, 0, .ro, 0⟩, ⟨4, 1, .ro, 0⟩]⟩,
  ⟨"EVT_RAW", 0x010, 1, 4, [⟨0, 0, .ro, 0⟩, ⟨1, 1, .ro, 0⟩, ⟨2, 2, .ro, 0⟩, ⟨3, 3, .ro, 0⟩, ⟨4, 4, .ro, 0⟩, ⟨5, 5, .ro, 0⟩, ⟨6, 6, .ro, 0⟩, ⟨8, 8, .ro, 0⟩, ⟨9, 9, .ro, 0⟩, ⟨10, 10, .ro, 0⟩, ⟨11, 11, .ro, 0⟩]⟩,
  ⟨"GSU_GRANT_WAIT", 0x040, 1, 4, [⟨31, 0, .rw, 0⟩]⟩,
  ⟨"GSU_OOB_COUNT", 0x044, 1, 4, [⟨31, 0, .rw, 0⟩]⟩,
  ⟨"GSU_OOB_FIRST", 0x048, 1, 4, [⟨31, 0, .ro, 0⟩]⟩,
  ⟨"GSU_EMPTY_SEGS", 0x04C, 1, 4, [⟨31, 0, .rw, 0⟩]⟩,
  ⟨"GSU_EDGES", 0x050, 1, 4, [⟨31, 0, .rw, 0⟩]⟩]

/-- Registers of the lck page. -/
def regsLck : List Reg := [
  ⟨"LCK_STATE", 0x040, 16, 16, [⟨0, 0, .ro, 0⟩, ⟨1, 1, .ro, 0⟩, ⟨8, 2, .ro, 0⟩]⟩,
  ⟨"LCK_TURNS", 0x044, 16, 16, [⟨31, 0, .rw, 0⟩]⟩,
  ⟨"LCK_WAIT_OUT", 0x048, 16, 16, [⟨31, 0, .rw, 0⟩]⟩,
  ⟨"LCK_WAIT_IN", 0x04C, 16, 16, [⟨31, 0, .rw, 0⟩]⟩]

/-- Registers of the blkErr page. -/
def regsBlkErr : List Reg := [
  ⟨"EVT_RAW", 0x010, 1, 4, [⟨0, 0, .ro, 0⟩, ⟨1, 1, .ro, 0⟩, ⟨2, 2, .ro, 0⟩]⟩,
  ⟨"ERR_COUNT", 0x040, 1, 4, [⟨31, 0, .rw, 0⟩]⟩]

/-- Registers of the cel page. -/
def regsCel : List Reg := [
  ⟨"CTRL", 0x008, 1, 4, [⟨0, 0, .rw, 0⟩, ⟨1, 1, .wo, 0⟩, ⟨2, 2, .rwl, 0⟩]⟩,
  ⟨"STATUS", 0x00C, 1, 4, [⟨2, 0, .ro, 0⟩, ⟨8, 4, .ro, 0⟩, ⟨31, 16, .ro, 0⟩]⟩,
  ⟨"EVT_RAW", 0x010, 1, 4, [⟨0, 0, .ro, 0⟩, ⟨1, 1, .ro, 0⟩, ⟨2, 2, .ro, 0⟩, ⟨3, 3, .ro, 0⟩, ⟨4, 4, .ro, 0⟩, ⟨5, 5, .ro, 0⟩, ⟨6, 6, .ro, 0⟩, ⟨7, 7, .ro, 0⟩]⟩,
  ⟨"CEL_PARTITION", 0x040, 1, 4, [⟨9, 0, .ro, 0⟩]⟩,
  ⟨"CEL_WAIT_LIMIT", 0x044, 1, 4, [⟨31, 0, .rw, 0xFFFFFFFF⟩]⟩,
  ⟨"CEL_SKIPPED", 0x048, 1, 4, [⟨31, 0, .ro, 0⟩]⟩,
  ⟨"CEL_OVERRUNS", 0x04C, 1, 4, [⟨31, 0, .ro, 0⟩]⟩,
  ⟨"CEL_SEMn", 0x100, 64, 4, [⟨15, 0, .rw, 0⟩]⟩]

/-- Registers of the jq page. -/
def regsJq : List Reg := [
  ⟨"CEL_JQ_PUSH", 0x040, 1, 4, [⟨23, 0, .wo, 0⟩]⟩,
  ⟨"CEL_JQ_PUSH", 0x044, 1, 4, [⟨15, 0, .wo, 0⟩]⟩,
  ⟨"CEL_JQ_STALL", 0x048, 1, 4, [⟨31, 0, .ro, 0⟩]⟩,
  ⟨"CEL_JQ_DONE", 0x04C, 1, 4, [⟨31, 0, .ro, 0⟩]⟩,
  ⟨"CEL_JQ_LAST", 0x050, 1, 4, [⟨7, 0, .ro, 0⟩, ⟨15, 8, .ro, 0⟩, ⟨31, 16, .ro, 0⟩]⟩]

/-- Registers of the bench page. -/
def regsBench : List Reg := [
  ⟨"CEL_BENCH_CE", 0x040, 1, 4, [⟨31, 0, .rw, 0⟩]⟩,
  ⟨"CEL_BENCH_UE", 0x044, 1, 4, [⟨31, 0, .rw, 0⟩]⟩,
  ⟨"CEL_BENCH_AGED", 0x048, 1, 4, [⟨31, 0, .rw, 0⟩]⟩,
  ⟨"CEL_BENCH_CONFLICT", 0x04C, 1, 4, [⟨31, 0, .rw, 0⟩]⟩]

/-- Registers of the arrays page. -/
def regsArrays : List Reg := [
  ⟨"EVT_RAW", 0x010, 1, 4, [⟨0, 0, .ro, 0⟩, ⟨1, 1, .ro, 0⟩, ⟨2, 2, .ro, 0⟩, ⟨3, 3, .ro, 0⟩, ⟨4, 4, .ro, 0⟩, ⟨5, 5, .ro, 0⟩, ⟨6, 6, .ro, 0⟩, ⟨8, 8, .ro, 0⟩, ⟨9, 9, .ro, 0⟩, ⟨10, 10, .ro, 0⟩, ⟨11, 11, .ro, 0⟩, ⟨12, 12, .ro, 0⟩]⟩,
  ⟨"CEL_ATTN_PAGES", 0x040, 1, 4, [⟨31, 0, .rw, 0⟩]⟩,
  ⟨"CEL_ATTN_FETCHES", 0x044, 1, 4, [⟨31, 0, .rw, 0⟩]⟩,
  ⟨"CEL_ATTN_OVERREAD", 0x048, 1, 4, [⟨31, 0, .rw, 0⟩]⟩,
  ⟨"CEL_ATTN_PIN_HITS", 0x04C, 1, 4, [⟨31, 0, .rw, 0⟩]⟩,
  ⟨"CEL_ATTN_PIN_MISS", 0x050, 1, 4, [⟨31, 0, .rw, 0⟩]⟩,
  ⟨"CEL_CONV_BANK_WAIT", 0x054, 1, 4, [⟨31, 0, .rw, 0⟩]⟩,
  ⟨"CEL_CROP_FILLS", 0x058, 1, 4, [⟨31, 0, .rw, 0⟩]⟩,
  ⟨"CEL_CROP_NAN", 0x05C, 1, 4, [⟨31, 0, .rw, 0⟩]⟩]

/-- Registers of the vector page. -/
def regsVector : List Reg := [
  ⟨"EVT_RAW", 0x010, 1, 4, [⟨0, 0, .ro, 0⟩, ⟨1, 1, .ro, 0⟩, ⟨2, 2, .ro, 0⟩, ⟨3, 3, .ro, 0⟩, ⟨4, 4, .ro, 0⟩, ⟨5, 5, .ro, 0⟩, ⟨6, 6, .ro, 0⟩, ⟨8, 8, .ro, 0⟩, ⟨9, 9, .ro, 0⟩, ⟨10, 10, .ro, 0⟩, ⟨11, 11, .ro, 0⟩, ⟨12, 12, .ro, 0⟩]⟩,
  ⟨"CEL_EMPTY_ROWS", 0x040, 1, 4, [⟨31, 0, .rw, 0⟩]⟩,
  ⟨"CEL_MASKED_ROWS", 0x044, 1, 4, [⟨31, 0, .rw, 0⟩]⟩,
  ⟨"CEL_MP_LOAD", 0x048, 1, 4, [⟨23, 0, .wo, 0⟩]⟩,
  ⟨"CEL_MP_LOAD", 0x04C, 1, 4, [⟨6, 0, .wo, 0⟩]⟩,
  ⟨"CEL_MP_STATUS", 0x050, 1, 4, [⟨0, 0, .ro, 0⟩, ⟨15, 8, .ro, 0⟩, ⟨22, 16, .ro, 0⟩]⟩,
  ⟨"CEL_MP_CLEAR", 0x054, 1, 4, [⟨6, 0, .wo, 0⟩]⟩,
  ⟨"CEL_MP_VALID.LOW", 0x058, 1, 4, [⟨31, 0, .ro, 0⟩]⟩,
  ⟨"CEL_MP_VALID.HIGH", 0x05C, 1, 4, [⟨31, 0, .ro, 0⟩]⟩]

/-- Registers of the state page. -/
def regsState : List Reg := [
  ⟨"STATUS", 0x00C, 1, 4, [⟨0, 0, .ro, 0⟩, ⟨1, 1, .ro, 0⟩]⟩,
  ⟨"EVT_RAW", 0x010, 1, 4, [⟨0, 0, .ro, 0⟩, ⟨1, 1, .ro, 0⟩, ⟨2, 2, .ro, 0⟩, ⟨3, 3, .ro, 0⟩]⟩,
  ⟨"CEL_STATE_CFG", 0x040, 1, 4, [⟨5, 0, .rwl, 0x38⟩, ⟨31, 16, .rwl, 0⟩]⟩,
  ⟨"CEL_STATE_SLOTS", 0x044, 1, 4, [⟨31, 0, .ro, 0⟩]⟩,
  ⟨"CEL_STATE_WAIT", 0x048, 1, 4, [⟨31, 0, .rw, 0⟩]⟩,
  ⟨"CEL_STATE_SAVES", 0x04C, 1, 4, [⟨31, 0, .rw, 0⟩]⟩,
  ⟨"CEL_STATE_LOADS", 0x050, 1, 4, [⟨31, 0, .rw, 0⟩]⟩,
  ⟨"CEL_STATE_FAILS", 0x054, 1, 4, [⟨31, 0, .rw, 0⟩]⟩,
  ⟨"CEL_RSTEP_VECTORS", 0x058, 1, 4, [⟨31, 0, .rw, 0⟩]⟩]

/-- Registers of the slice page. -/
def regsSlice : List Reg := [
  ⟨"EVT_RAW", 0x010, 1, 4, [⟨0, 0, .ro, 0⟩, ⟨1, 1, .ro, 0⟩, ⟨2, 2, .ro, 0⟩, ⟨3, 3, .ro, 0⟩, ⟨4, 4, .ro, 0⟩]⟩,
  ⟨"CEL_SLICE_CFG", 0x040, 1, 4, [⟨4, 0, .rwl, 0x10⟩, ⟨5, 5, .rwl, 0⟩]⟩,
  ⟨"CEL_STREAM_BASE", 0x044, 1, 4, [⟨23, 0, .rw, 0⟩]⟩,
  ⟨"CEL_STREAM_CTRL", 0x048, 1, 4, [⟨3, 0, .rw, 0⟩]⟩,
  ⟨"CEL_STREAM_STATUS", 0x04C, 1, 4, [⟨1, 0, .ro, 0⟩, ⟨14, 4, .ro, 0⟩, ⟨31, 16, .ro, 0⟩]⟩,
  ⟨"CEL_LATE_LIMIT", 0x050, 1, 4, [⟨31, 0, .rw, 0xFFFFFFFF⟩]⟩,
  ⟨"CEL_LATE_CYCLES", 0x054, 1, 4, [⟨31, 0, .rw, 0⟩]⟩,
  ⟨"CEL_LATE_MAX", 0x058, 1, 4, [⟨31, 0, .rw, 0⟩]⟩,
  ⟨"CEL_LATE_FAILS", 0x05C, 1, 4, [⟨31, 0, .rw, 0⟩]⟩,
  ⟨"CEL_CACHE_HITS", 0x060, 1, 4, [⟨31, 0, .rw, 0⟩]⟩,
  ⟨"CEL_CACHE_MISSES", 0x064, 1, 4, [⟨31, 0, .rw, 0⟩]⟩,
  ⟨"CEL_CACHE_UE", 0x068, 1, 4, [⟨31, 0, .rw, 0⟩]⟩]

/-- Registers of the perf page. -/
def regsPerf : List Reg := [
  ⟨"CTRL", 0x008, 1, 4, [⟨0, 0, .rw, 0⟩]⟩,
  ⟨"CEL_RD_STALL", 0x040, 1, 4, [⟨31, 0, .rw, 0⟩]⟩,
  ⟨"CEL_BARGE_STALL", 0x044, 1, 4, [⟨31, 0, .rw, 0⟩]⟩,
  ⟨"CEL_CYCLES.LOW", 0x048, 1, 4, [⟨31, 0, .rw, 0⟩]⟩,
  ⟨"CEL_CYCLES.HIGH", 0x04C, 1, 4, [⟨31, 0, .rw, 0⟩]⟩,
  ⟨"CEL_ISSUED", 0x050, 1, 4, [⟨31, 0, .rw, 0⟩]⟩,
  ⟨"CEL_ARRAY_BUSY", 0x054, 1, 4, [⟨31, 0, .rw, 0⟩]⟩,
  ⟨"CEL_THROTTLED", 0x058, 1, 4, [⟨31, 0, .rw, 0⟩]⟩]

/-- Registers of the celErr page. -/
def regsCelErr : List Reg := [
  ⟨"EVT_RAW", 0x010, 1, 4, [⟨0, 0, .ro, 0⟩, ⟨1, 1, .ro, 0⟩, ⟨2, 2, .ro, 0⟩]⟩,
  ⟨"ERR_COUNT", 0x040, 1, 4, [⟨31, 0, .rw, 0⟩]⟩]

/-- Registers of the partId page. -/
def regsPartId : List Reg := [
  ⟨"STATUS", 0x00C, 1, 4, [⟨2, 0, .ro, 0⟩]⟩,
  ⟨"EVT_RAW", 0x010, 1, 4, [⟨0, 0, .ro, 0⟩, ⟨1, 1, .ro, 0⟩]⟩,
  ⟨"PART_ID", 0x040, 1, 4, [⟨9, 0, .ro, 0⟩, ⟨20, 10, .ro, 0⟩]⟩,
  ⟨"PART_ATTR", 0x044, 1, 4, [⟨0, 0, .ro, 0⟩, ⟨1, 1, .ro, 0⟩]⟩,
  ⟨"PART_OVERRUNS", 0x048, 1, 4, [⟨31, 0, .rw, 0⟩]⟩,
  ⟨"PART_OVR_CAPT", 0x04C, 1, 4, [⟨9, 0, .ro, 0⟩, ⟨31, 16, .ro, 0⟩]⟩,
  ⟨"PART_OVR_JIG", 0x050, 1, 4, [⟨15, 0, .ro, 0⟩]⟩,
  ⟨"PART_RREC", 0x080, 16, 4, [⟨31, 0, .ro, 0⟩]⟩]

/-- Registers of the sub page. -/
def regsSub : List Reg := [
  ⟨"DBL_SQ_TAILq", 0x040, 16, 4, [⟨11, 0, .rw, 0⟩]⟩,
  ⟨"PART_SQ_BASEq.LOW", 0x100, 16, 32, [⟨31, 0, .rwd, 0⟩]⟩,
  ⟨"PART_SQ_BASEq.HIGH", 0x104, 16, 32, [⟨31, 0, .rwd, 0⟩]⟩,
  ⟨"PART_SQ_CTRLq", 0x108, 16, 32, [⟨0, 0, .rw, 0⟩, ⟨7, 4, .rwd, 6⟩, ⟨11, 8, .rwd, 0⟩]⟩,
  ⟨"PART_SQ_SEQBASEq", 0x10C, 16, 32, [⟨31, 0, .rwd, 0⟩]⟩,
  ⟨"PART_SQ_STATUSq", 0x110, 16, 32, [⟨11, 0, .ro, 0⟩, ⟨13, 12, .ro, 0⟩]⟩,
  ⟨"PART_SQ_HIGHq", 0x114, 16, 32, [⟨31, 0, .ro, 0⟩]⟩,
  ⟨"PART_SQ_DUPSq", 0x118, 16, 32, [⟨31, 0, .rw, 0⟩]⟩,
  ⟨"PART_SQ_STALEq", 0x11C, 16, 32, [⟨31, 0, .rw, 0⟩]⟩]

/-- Registers of the cmp page. -/
def regsCmp : List Reg := [
  ⟨"DBL_CQ_HEADq", 0x040, 16, 4, [⟨15, 0, .rw, 0⟩]⟩,
  ⟨"PART_CQ_BASEq.LOW", 0x100, 16, 32, [⟨31, 0, .rwd, 0⟩]⟩,
  ⟨"PART_CQ_BASEq.HIGH", 0x104, 16, 32, [⟨31, 0, .rwd, 0⟩]⟩,
  ⟨"PART_CQ_CTRLq", 0x108, 16, 32, [⟨0, 0, .rw, 0⟩, ⟨7, 4, .rwd, 6⟩]⟩,
  ⟨"PART_CQ_IRQq", 0x10C, 16, 32, [⟨7, 0, .rw, 1⟩, ⟨25, 16, .rw, 0⟩, ⟨31, 31, .rw, 0⟩]⟩,
  ⟨"PART_CQ_STATUSq", 0x110, 16, 32, [⟨15, 0, .ro, 0⟩, ⟨17, 16, .ro, 0⟩]⟩,
  ⟨"PART_CQ_HELD", 0x114, 16, 32, [⟨31, 0, .ro, 0⟩]⟩,
  ⟨"PART_CQ_STALLq", 0x118, 16, 32, [⟨31, 0, .rw, 0⟩]⟩]

/-- Registers of the amb page. -/
def regsAmb : List Reg := [
  ⟨"DBL_RAW", 0x0C0, 1, 4, [⟨31, 0, .w1c, 0⟩]⟩,
  ⟨"DBL_MASK", 0x0C4, 1, 4, [⟨31, 0, .rw, 0⟩]⟩,
  ⟨"DBL_PEND", 0x0C8, 1, 4, [⟨31, 0, .ro, 0⟩]⟩]

/-- Registers of the vfEvt page. -/
def regsVfEvt : List Reg := [
  ⟨"EVT_RAW", 0x010, 1, 4, [⟨0, 0, .ro, 0⟩, ⟨1, 1, .ro, 0⟩, ⟨2, 2, .ro, 0⟩, ⟨3, 3, .ro, 0⟩, ⟨4, 4, .ro, 0⟩]⟩,
  ⟨"PART_SQ_FAULTS", 0x040, 1, 4, [⟨15, 0, .ro, 0⟩]⟩,
  ⟨"PART_CQ_FAULTS", 0x044, 1, 4, [⟨15, 0, .ro, 0⟩]⟩]

/-- Registers of the apCtl page. -/
def regsApCtl : List Reg := [
  ⟨"PART_AP_BASE.LOW", 0x040, 1, 4, [⟨0, 0, .rw, 0⟩, ⟨31, 28, .rw, 0⟩]⟩,
  ⟨"PART_AP_BASE.HIGH", 0x044, 1, 4, [⟨31, 0, .rw, 0⟩]⟩]

/-- The registers of a page beyond the common header (R537). -/
def pageRegs : Page → List Reg
  | .chp => regsChp
  | .ver => regsVer
  | .cfg => regsCfg
  | .kpr => regsKpr
  | .mbx => regsMbx
  | .dbl => regsDbl
  | .prt => regsPrt
  | .hbm => regsHbm
  | .wei => regsWei
  | .fls => regsFls
  | .flsWin => regsFlsWin
  | .lnk => regsLnk
  | .lnkWei => regsLnkWei
  | .col => regsCol
  | .aln => regsAln
  | .scl => regsScl
  | .pwr => regsPwr
  | .err => regsErr
  | .dmp => regsDmp
  | .rgn => regsRgn
  | .arb => regsArb
  | .brg => regsBrg
  | .vidPixel => regsVidPixel
  | .vidEntropy => regsVidEntropy
  | .dieLink => regsDieLink
  | .sram => regsSram
  | .rgnErr => regsRgnErr
  | .blk => regsBlk
  | .router => regsRouter
  | .gsu => regsGsu
  | .lck => regsLck
  | .blkErr => regsBlkErr
  | .cel => regsCel
  | .jq => regsJq
  | .bench => regsBench
  | .arrays => regsArrays
  | .vector => regsVector
  | .state => regsState
  | .slice => regsSlice
  | .perf => regsPerf
  | .celErr => regsCelErr
  | .partId => regsPartId
  | .sub => regsSub
  | .cmp => regsCmp
  | .amb => regsAmb
  | .vfEvt => regsVfEvt
  | .apCtl => regsApCtl

/-- Every page carries the header of R15; CTRL, STATUS and EVT_RAW fields stand in the page's own rows. -/
def headerRegs : List Reg := [
  ⟨"EVT_MASK", 0x014, 1, 4, [⟨31, 0, .rw, 0⟩]⟩]

/-- The row that holds the register at offset `off` of a page and which copy it is. -/
def findReg (p : Page) (off : Nat) : Option (Reg × Nat) :=
  ((headerRegs ++ pageRegs p).find? (fun r =>
    r.off ≤ off && (off - r.off) % r.stride == 0 && (off - r.off) / r.stride < r.copies)).map
    (fun r => (r, (off - r.off) / r.stride))

/-- The reset value of a register row. -/
def Reg.rst (r : Reg) : Nat := r.fields.foldl (fun a f => a + (f.rst % 2 ^ (f.hi + 1 - f.lo)) <<< f.lo) 0

/-- The bits that the fields of one of the given access codes cover. -/
def Reg.mask (r : Reg) (acc : Acc → Bool) : Nat :=
  r.fields.foldl (fun a f => if acc f.acc then a ||| ((2 ^ (f.hi + 1 - f.lo) - 1) <<< f.lo) else a) 0

/-- The event bits a page defines (R15, R17). -/
def Page.evtBits (p : Page) : Nat :=
  match findReg p 0x10 with
  | some (r, _) => r.mask (fun _ => true)
  | none => 0

/-- Offsets of the low words of the 64-bit registers of a page (R14; R109, R160, R340, R409, R448, R449, R472, R496,
R512, R532, R541, R551). -/
def Page.pairs : Page → List Nat
  | .chp => [0x050, 0x068]
  | .cfg => [0x060, 0x068]
  | .scl => [0x040, 0x048]
  | .pwr => [0x060]
  | .dmp => [0x040, 0x050]
  | .brg => [0x050]
  | .jq => [0x040]
  | .vector => [0x048, 0x058]
  | .perf => [0x048]
  | .sub | .cmp => (List.range 16).map (fun q => 0x100 + 32 * q)
  | .apCtl => [0x040]
  | _ => []

/-- The base offset of the VF pages of partition `p` in the model's register address space: PF BAR0 is 512 MiB (R533),
the VF BAR0 of virtual function p + 1 follows at 0x2000_0000 + p × 0x1_0000. -/
def vfBase (p : Nat) : Nat := 0x20000000 + p * 0x10000

/-- PF BAR0 offset of the window of region `r` (R533). -/
def regionBase (r : Nat) : Nat := 0x4000000 * (r + 1)

/-- PF BAR0 offset of the window of global block `g` (region g / 16, block g mod 16; R533). -/
def blockBase (g : Nat) : Nat := regionBase (g / 16) + 0x200000 * (g % 16 + 1)

/-- PF BAR0 offset of the window of global cell `c` (R9, R533). -/
def cellBase (c : Nat) : Nat := blockBase (c / 16) + 0x40000 + (c % 16) * 0x10000

/-- PF BAR0 offsets of the pages (R537). -/
def pgChp : Nat := 0
def pgVer : Nat := 0x1000
def pgCfg : Nat := 0x2000
def pgKpr : Nat := 0x3000
def pgMbx (c : Nat) : Nat := 0x10000 + c * 0x1000
def pgDbl : Nat := 0x50000
def pgPrt : Nat := 0x60000
def pgHbm (s : Nat) : Nat := 0x100000 + s * 0x10000
def pgWei (s k : Nat) : Nat := pgHbm s + (k + 1) * 0x1000
def pgFls : Nat := 0x200000
def pgFlsWin (k : Nat) : Nat := 0x201000 + k * 0x1000
def pgLnk (g : Nat) : Nat := 0x300000 + g * 0x10000
def pgLnkWei (g k : Nat) : Nat := pgLnk g + (k + 1) * 0x1000
def pgCol : Nat := 0x400000
def pgAln : Nat := 0x500000
def pgScl : Nat := 0x600000
def pgPwr : Nat := 0x700000
def pgErr : Nat := 0x800000
def pgDmp : Nat := 0x801000
def pgRgn (r : Nat) : Nat := regionBase r
def pgArb (r : Nat) : Nat := regionBase r + 0x1000
def pgBrg (r e : Nat) : Nat := regionBase r + 0x10000 + e * 0x1000
def pgVidPix (r : Nat) : Nat := regionBase r + 0x20000
def pgVidEnt (r : Nat) : Nat := regionBase r + 0x28000
def pgDie (r : Nat) : Nat := regionBase r + 0x30000
def pgSram (r : Nat) : Nat := regionBase r + 0x40000
def pgRgnErr (r : Nat) : Nat := regionBase r + 0x50000
def pgBlk (g : Nat) : Nat := blockBase g
def pgRouter (g : Nat) : Nat := blockBase g + 0x1000
def pgGsu (g : Nat) : Nat := blockBase g + 0x2000
def pgLck (g : Nat) : Nat := blockBase g + 0x3000
def pgBlkErr (g : Nat) : Nat := blockBase g + 0x4000
def pgCel (c : Nat) : Nat := cellBase c
def pgJq (c : Nat) : Nat := cellBase c + 0x1000
def pgBench (c : Nat) : Nat := cellBase c + 0x2000
def pgArrays (c : Nat) : Nat := cellBase c + 0x3000
def pgVector (c : Nat) : Nat := cellBase c + 0x4000
def pgState (c : Nat) : Nat := cellBase c + 0x5000
def pgSlice (c : Nat) : Nat := cellBase c + 0x6000
def pgPerf (c : Nat) : Nat := cellBase c + 0x7000
def pgCelErr (c : Nat) : Nat := cellBase c + 0x8000
def pgPartId (p : Nat) : Nat := vfBase p
def pgSub (p : Nat) : Nat := vfBase p + 0x1000
def pgCmp (p : Nat) : Nat := vfBase p + 0x2000
def pgAmb (p : Nat) : Nat := vfBase p + 0x3000
def pgVfEvt (p : Nat) : Nat := vfBase p + 0x4000
def pgApCtl (p : Nat) : Nat := vfBase p + 0x8000

/-- Which page an address of the model's register space lies in, and its instance (R533, R537). -/
def pageOf (a : Nat) : Option (Page × Nat) :=
  let pg := a / 0x1000
  if a < 0x4000000 then
    if pg = 0 then some (.chp, 0) else if pg = 1 then some (.ver, 0)
    else if pg = 2 then some (.cfg, 0) else if pg = 3 then some (.kpr, 0)
    else if 0x10 ≤ pg && pg < 0x50 then some (.mbx, pg - 0x10)
    else if pg = 0x50 then some (.dbl, 0) else if pg = 0x60 then some (.prt, 0)
    else if 0x100 ≤ pg && pg < 0x180 then
      if pg % 16 = 0 then some (.hbm, (pg - 0x100) / 16)
      else if pg % 16 ≤ 8 then some (.wei, (pg - 0x100) / 16 * 8 + (pg % 16 - 1)) else none
    else if pg = 0x200 then some (.fls, 0)
    else if 0x201 ≤ pg && pg ≤ 0x208 then some (.flsWin, pg - 0x201)
    else if 0x300 ≤ pg && pg < 0x400 then
      if pg % 16 = 0 then some (.lnk, (pg - 0x300) / 16)
      else if pg % 16 ≤ 8 then some (.lnkWei, (pg - 0x300) / 16 * 8 + (pg % 16 - 1)) else none
    else if pg = 0x400 then some (.col, 0) else if pg = 0x500 then some (.aln, 0)
    else if pg = 0x600 then some (.scl, 0) else if pg = 0x700 then some (.pwr, 0)
    else if pg = 0x800 then some (.err, 0) else if pg = 0x801 then some (.dmp, 0) else none
  else if a < 0x14000000 then
    let r := a / 0x4000000 - 1
    let o := a % 0x4000000
    if o < 0x200000 then
      let k := o / 0x1000
      if k = 0 then some (.rgn, r) else if k = 1 then some (.arb, r)
      else if 0x10 ≤ k && k < 0x18 then some (.brg, r * 8 + (k - 0x10))
      else if k = 0x20 then some (.vidPixel, r) else if k = 0x28 then some (.vidEntropy, r)
      else if k = 0x30 then some (.dieLink, r) else if k = 0x40 then some (.sram, r)
      else if k = 0x50 then some (.rgnErr, r) else none
    else if o < 0x2200000 then
      let b := o / 0x200000 - 1
      let g := r * 16 + b
      let q := o % 0x200000
      let k := q / 0x1000
      if k = 0 then some (.blk, g) else if k = 1 then some (.router, g)
      else if k = 2 then some (.gsu, g) else if k = 3 then some (.lck, g)
      else if k = 4 then some (.blkErr, g)
      else if 0x40000 ≤ q && q < 0x140000 then
        let c := g * 16 + (q - 0x40000) / 0x10000
        let t := q / 0x1000 % 16
        if t = 0 then some (.cel, c) else if t = 1 then some (.jq, c) else if t = 2 then some (.bench, c)
        else if t = 3 then some (.arrays, c) else if t = 4 then some (.vector, c) else if t = 5 then some (.state, c)
        else if t = 6 then some (.slice, c) else if t = 7 then some (.perf, c) else if t = 8 then some (.celErr, c)
        else none
      else none
    else none
  else if 0x20000000 ≤ a && a < 0x24000000 then
    let p := (a - 0x20000000) / 0x10000
    let k := a / 0x1000 % 16
    if k = 0 then some (.partId, p) else if k = 1 then some (.sub, p) else if k = 2 then some (.cmp, p)
    else if k = 3 then some (.amb, p) else if k = 4 then some (.vfEvt, p) else if k = 8 then some (.apCtl, p) else none
  else none

/-- The reset value of the register at an address (R19); 0 where no register stands (R17). -/
def regRst (a : Nat) : Word :=
  match pageOf a with
  | none => 0
  | some (p, _) =>
    match findReg p (a % 0x1000) with
    | some (r, _) => BitVec.ofNat 32 r.rst
    | none => 0

end Sys2Proof.Machine
end

