-- ==== Sys2Proof/Machine/State.lean ====
section
/-!
DEFINITION. Machine/State.lean: the state
Log entries that code here: 2 (DESIGN CHOICE, safe), 10 (DESIGN CHOICE, unsafe), 11 (DESIGN CHOICE, unsafe), 36 (DEDUCED, unsafe), 42
(DEDUCED, unsafe), 54 (DEDUCED, unsafe), 59 (DEDUCED, unsafe), 63 (DEDUCED, unsafe), 77 (DEDUCED, unsafe), 78 (DEDUCED, unsafe), 86
(DEDUCED, unsafe), 97 (DEDUCED, unsafe), 113 (DEDUCED, unsafe), 114 (DESIGN CHOICE, unsafe), 133 (DESIGN CHOICE, unsafe).
-/

namespace Sys2Proof.Machine

/-- The five places a descriptor can run (R87, R88). -/
inductive CUnit where
  | arrays | vector | sfu | port | issue
  deriving DecidableEq, Repr

/-- How far an issued descriptor is (`barged`: its engine has accepted its barge, which frees the transfer port, R323): `queued` behind an earlier entry of its unit (R88) or its dovetail producer (R122),
`waiting` on another unit (multicast stream, GSU, barge engine, group, fence), or `ran`: results in memory, ready to
complete. -/
inductive Phase where
  | queued | waiting | barged | ran
  deriving DecidableEq, Repr

/-- One jig in a queue (R76, R77). -/
structure Jig where
  start : Nat
  id : Nat
  pusher : Pusher
  deriving DecidableEq, Repr

/-- An issued descriptor that has not completed. `undo` holds the former contents of every 128-byte word it wrote, for
the outcomes R104 allows when it is cut short; `dtStatus` is the status of a dovetail producer that failed (R124), `aux` is 1 when the result goes to
an MMA in the skewed dovetail layout (R120). -/
structure RunDesc where
  idx : Nat
  addr : Nat
  desc : List Byte
  issued : Nat
  since : Nat
  phase : Phase
  status : Nat
  reason : Nat
  detail : Nat
  undo : List (Space × Nat × List Byte)
  overrun : Bool
  dtStatus : Nat
  aux : Nat
  deriving DecidableEq, Repr

/-- The running jig of a cell (R76 to R79, R106). `prev` is the descriptor before the next to issue, with the status it
failed with, if it did (R119, R124); `halt` stops issue after a LAYER_FENCE that did not complete OK (R311); `lockSince` is when it began to wait at the interlock of R215. -/
structure JigRun where
  jig : Jig
  fetched : List (List Byte)
  nextFetch : Nat
  nextIssue : Nat
  stop : Nat
  sawLast : Bool
  issued : List RunDesc
  failed : Nat
  firstBad : Option (Nat × Nat)
  waitSince : Nat
  prev : Option (List Byte × Nat)
  trap : Bool
  halt : Bool
  lockSince : Option Nat
  eccWords : List (Space × Nat)
  deriving DecidableEq, Repr

/-- The states of a cell that are not derived from its jig (R108). -/
inductive CellMode where
  | normal | trapped | faulted | resetting
  deriving DecidableEq, Repr

/-- A cell -/
structure Cell where
  mode : CellMode
  queue : List Jig
  held : List Jig
  run : Option JigRun
  mp : List (Nat × List Byte)
  mpLoad : Option (Option Nat × Nat)
  mpHeld : List (Option Nat × Nat)
  deriving DecidableEq, Repr

/-- A cell after reset. -/
def cellInit : Cell := ⟨.normal, [], [], none, [], none, []⟩

/-- A multicast group of a block (R69): the leader's mask and the leader once it has issued, the cells of the group that have issued,
and the leader of the stream that runs. -/
structure Mcast where
  mask : Nat
  leader : Option Nat
  members : List Nat
  stream : Option Nat
  deriving DecidableEq, Repr

/-- A barrier of a block (R101) -/
structure Barrier where
  mask : Nat
  arrived : List Nat
  deriving DecidableEq, Repr

/-- Marks on 32-byte units [lo, hi) of a memory: an uncorrectable error (R70, R75, R290), or never written (R315). -/
structure Mark where
  sp : Space
  never : Bool
  lo : Nat
  hi : Nat
  deriving DecidableEq, Repr

/-- The memories: (address, byte) pairs in canonical form; an unlisted byte reads as zero (R312). -/
structure Mems where
  hbm : List Host.Cell
  slice : List Host.Cell
  bench : List Host.Cell
  acc : List Host.Cell
  tier : List Host.Cell
  slc : List Host.Cell
  host : List Host.Cell
  marks : List Mark
  deriving DecidableEq, Repr

/-- A jig completion notice on its way to the pusher (R79). -/
structure JigNotice where
  cell : Nat
  pusher : Pusher
  id : Nat
  failed : Nat
  status : Nat
  deriving DecidableEq, Repr

/-- A unit of the first three levels (R25). -/
inductive UnitRef where
  | cell (c : Nat)
  | block (b : Nat)
  | region (r : Nat)
  deriving DecidableEq, Repr

/-- A fault on its way to the Keeper (R26, R515): the unit, the fault code of R549 (0 for a cell) and the scene time. -/
structure FaultRec where
  unit : UnitRef
  code : Nat
  time : Nat
  deriving DecidableEq, Repr

/-- A partition reset in progress (R430, R431): its trigger, its start, the counters of its record (R435) in the order
of their offsets from 0x14, and whether its stop and cancel stage has run. -/
structure ResetRun where
  cause : Nat
  start : Nat
  startNs : Nat
  stopped : Bool
  hot : Bool
  counts : List Nat
  deriving DecidableEq, Repr

/-- A pinned page (R191): its pool page, its home cell, its slot there, and whether the slot has been filled. -/
structure Pin where
  page : Nat
  home : Nat
  slot : Nat
  filled : Bool
  deriving DecidableEq, Repr

/-- A partition (R413 to R419, R435). `gran` holds, for each stack of the set in ascending order, the granule of each
row (R287). -/
structure Part where
  st : Nat
  cells : List Nat
  stk : List Nat
  gran : List (List Nat)
  rt : Bool
  rb : Bool
  key : Nat
  quota : Nat
  decCap : Nat
  encCap : Nat
  ttRes : Nat
  pins : List Pin
  resets : Nat
  rrec : List Byte
  rst : Option ResetRun
  deriving DecidableEq, Repr

/-- A partition number in state NONE. -/
def partNone : Part := ⟨0, [], [], [], false, false, 0, 0, 0, 0, 0, [], 0, [], none⟩

/-- A line fill in flight (R284, R285): home cell, line, and whether no write has met it. -/
structure Fill where
  home : Nat
  line : Nat
  good : Bool
  deriving DecidableEq, Repr

/-- A split group of ATTN (R190): its mask, and the members that issued. -/
structure Split where
  mask : Nat
  members : List Nat
  deriving DecidableEq, Repr

/-- An end of a barge (R98, R321): a cell's bench or slice, HBM or the weight tier under the carried partition, host memory. -/
inductive BEnd where
  | bench (c : Nat)
  | slice (c : Nat)
  | hbm
  | tier
  | host
  deriving DecidableEq, Repr

/-- Who launched a barge and waits for it (R321): a descriptor of a cell, a stream entry of a cell, a copy of the
sequencer for a partition, a host copy command, a region controller processor, the Keeper. -/
inductive Origin where
  | cell (c idx : Nat)
  | stream (c entry : Nat)
  | seqr (p token : Nat)
  | cmd (p sq seq : Nat)
  | rcp (r : Nat)
  | keeper
  deriving DecidableEq, Repr

/-- The skew fields of a barge (R97, R326). -/
structure SkewSpec where
  bits : Nat
  rows : Nat
  g : Nat
  k : Nat
  srcPitch : Nat
  dstPitch : Nat
  deriving DecidableEq, Repr

/-- A unit in flight: its index, the time of its request, whether its Locks have been granted (R333, R334), and whether
its request has become aged. -/
structure UnitRun where
  u : Nat
  since : Nat
  granted : Bool
  aged : Bool
  deriving DecidableEq, Repr

/-- A barge (R321 to R330). `next` is the next unit to start, `landed` the units landed, `cut` the status of the action
that cut it. `desc` holds bytes 8 to 63 of the descriptor (R524). -/
structure Barge where
  bid : Nat
  origin : Origin
  key : Nat
  part : Nat
  engine : Nat
  src : BEnd
  dsts : List BEnd
  srcAddr : Nat
  dstAddr : Nat
  len : Nat
  zero : Bool
  skew : Option SkewSpec
  rsem : Option Nat
  next : Nat
  landed : Nat
  units : List UnitRun
  cut : Option Nat
  since : Nat
  desc : List Byte
  deriving DecidableEq, Repr

/-- A Lock (R334): direction (true is IN), beats and urgent beats of the window, when the window opened, when its head
began to be offered, and whether it is turning. -/
structure Lock where
  dirIn : Bool
  beats : Nat
  urgent : Nat
  openAt : Nat
  headAt : Nat
  turning : Bool
  deriving DecidableEq, Repr

/-- A Lock after reset: OUT, a window of 0 beats. -/
def lockInit : Lock := ⟨false, 0, 0, 0, 0, false⟩

/-- The requests waiting at an HBM stack (R293): the urgent queue in arrival order, the other requests per partition, the
partitions granted last, and refresh commands due. -/
structure HbmQ where
  urgent : List Nat
  wait : List (Nat × Nat)
  lastG : Nat
  lastB : Nat
  refresh : Nat
  deriving DecidableEq, Repr

/-- A completed barge on its way to an originator other than a cell descriptor. -/
structure BargeNotice where
  origin : Origin
  part : Nat
  status : Nat
  detail : Nat
  bytes : Nat
  deriving DecidableEq, Repr

/-- A host command from its fetch until its status is recorded (R451, R454): `bell` orders the doorbell writes of its
partition (R233), `got` holds the cell notices of a JIG_PUSH, `left` how many are still to come, `dups` the USER values of
duplicates that wait for its status (R457). -/
structure Cmd where
  part : Nat
  sq : Nat
  seq : Nat
  user : Nat
  entry : List Byte
  bell : Nat
  started : Bool
  got : List (Nat × Nat)
  left : Nat
  dups : List Nat
  deriving DecidableEq, Repr

/-- A submission queue beside its registers (R448, R456): the submitted entries not yet fetched, as (doorbell, count), the
window of seen numbers with their recorded status and result, and the ranges cancelled among entries not yet fetched, as
(first number, span, doorbells before it). -/
structure Sq where
  vis : List (Nat × Nat)
  seen : List (Nat × Option (Nat × Nat))
  cancels : List (Nat × Nat × Nat)
  deriving DecidableEq, Repr

/-- A recorded completion (R452). -/
structure Comp where
  seq : Nat
  sq : Nat
  status : Nat
  orig : Nat
  result : Nat
  time : Nat
  user : Nat
  deriving DecidableEq, Repr

/-- A completion queue beside its registers (R445, R449): recorded completions that wait, the PHASE bit of this pass, when
each unconsumed entry was written, and whether its interrupt condition holds. -/
structure Cq where
  held : List Comp
  phase : Bool
  times : List Nat
  irq : Bool
  waitNs : Nat
  deriving DecidableEq, Repr

/-- A completion queue after reset. -/
def cqInit : Cq := ⟨[], true, [], false, 0⟩

/-- The state condition of a sequence (R218). -/
inductive Cond where
  | resident (slot : Nat)
  | saved (src : Nat)
  | fresh
  deriving DecidableEq, Repr

/-- A live sequence (R231). -/
structure SeqRec where
  len : Nat
  prio : Nat
  idle : Bool
  full : Bool
  parked : Bool
  broken : Bool
  first : Bool
  cond : Cond
  lastStep : Nat
  age : Nat
  mark : Nat
  deriving DecidableEq, Repr

/-- A step from its stage 3 to its stage 7 (R241, R242): the command, the batch, the sequences parked; `heldAt` while it
holds; the notices received and the cells awaited once dispatched. -/
structure StepRun where
  sq : Nat
  seq : Nat
  number : Nat
  batch : List Nat
  parked : Nat
  heldAt : Option Nat
  cells : List Nat
  got : List (Nat × Nat)
  deriving DecidableEq, Repr

/-- An open rollout (R225 to R244): its record and the root records it names as read at ROLL_OPEN, the sequence table, the
application stamp, STEP_COUNT, the depth of the free-page stack, the step in progress, `stage8` while a stage 8 applies the
commands that wait (those of doorbells below the number), what leaves at its end, notices waiting for the ring, and the counters of the status block. -/
structure Roll where
  record : List Byte
  kvB : List Byte
  stB : List Byte
  seqs : List (Nat × SeqRec)
  stamp : Nat
  steps : Nat
  top : Nat
  step : Option StepRun
  stage8 : Option Nat
  deferPages : List Nat
  deferSlots : List Nat
  nq : List (Nat × Nat × Nat × Nat)
  head : Nat
  missed : Nat
  stallNs : Nat
  last : Nat
  deriving DecidableEq, Repr

/-- A stream engine (R305 to R311): its state (0 IDLE, 1 ACTIVE, 2 ABORTED), F + 1, the distance, the entries of the table
read at the restart, entries landed and requested, the lines still awaited by the entry that moves, the lines of entries
resolved and not yet moving, whether an entry moves, the failure recorded first (entry, status, whether a resolution), and BAD_ENTRY. -/
structure Strm where
  st : Nat
  f1 : Nat
  dist : Nat
  ents : List (List Byte)
  landed : Nat
  req : Nat
  lines : List Nat
  plans : List (Nat × List Nat)
  moving : Bool
  fail : Option (Nat × Nat × Bool)
  bad : Nat
  deriving DecidableEq, Repr

/-- A stream engine after reset. -/
def strmInit : Strm := ⟨0, 0, 0, [], 0, 0, [], [], false, none, 0⟩

/-- A packet queued at a group's egress (R363): the partition its weir charges, its class (0 notice, 1 urgent request, 2 other),
the tag slot of a request. -/
structure QEnt where
  pkt : Pkt
  part : Nat
  cls : Nat
  slot : Option Nat
  deriving DecidableEq, Repr

/-- A sent frame not yet acknowledged (R356): LSEQ, when it was last sent, its packet. -/
structure Frame where
  lseq : Nat
  sentAt : Nat
  ent : QEnt
  deriving DecidableEq, Repr

/-- A recovery episode (R357): its start, the LSEQs unacknowledged at its first replay and still so, its replays. -/
structure Episode where
  start : Nat
  need : List Nat
  replays : Nat
  deriving DecidableEq, Repr

/-- A lane group beside its registers (R344 to R357, R365): the egress queue, the unacknowledged frames, those to send again,
the next LSEQ, the LSEQ expected from the peer, whether a NAK is out, link control frames to send as (0 ACK, 1 NAK, 2 + VC credits; value), the
credits held per VC, received packets not yet handled (packet, scene time and time of arrival), the episode, when the group went
down, the partitions granted last, whether a module-scope ABORT bars the peer's requests, the probe number, when the last probe was sent. -/
structure Link where
  q : List QEnt
  unacked : List Frame
  replay : List Frame
  nextSeq : Nat
  expect : Nat
  nakked : Bool
  ctrl : List (Nat × Nat)
  credits : List Nat
  rx : List (Pkt × Nat × Nat)
  epi : Option Episode
  downAt : Nat
  lastG : Nat
  lastB : Nat
  blocked : Bool
  probe : Nat
  probeAt : Nat
  deriving DecidableEq, Repr

/-- A group after reset or training: no frame, full credits (R352: 512 KiB, 8 MiB, 8 MiB, 64 KiB of 256 B). -/
def linkInit : Link := ⟨[], [], [], 0, 0, false, [], [2048, 32768, 32768, 256], [], none, 0, 0, 0, false, 0, 0⟩

/-- A live tag slot (R352, R358, R359): its generation, the command and piece it serves, the group and node, the local bytes, when
its request was sent, the ns of its extensions, and whether its deadline is held. -/
structure Tag where
  slot : Nat
  gen : Nat
  part : Nat
  sq : Nat
  seq : Nat
  idx : Nat
  group : Nat
  node : Nat
  dpart : Nat
  write : Bool
  urgent : Bool
  addr : Nat
  len : Nat
  sent : Option Nat
  ext : Nat
  held : Bool
  deriving DecidableEq, Repr

/-- A FAB_READ or FAB_WRITE in flight (R355): its pieces, the next to send, how many have an outcome, and the lowest that is not OK. -/
structure FabRun where
  part : Nat
  sq : Nat
  seq : Nat
  write : Bool
  urgent : Bool
  group : Nat
  node : Nat
  dpart : Nat
  key : Nat
  len : Nat
  loc : Nat
  rem : Nat
  next : Nat
  done : Nat
  bad : Option (Nat × Nat × Nat)
  deriving DecidableEq, Repr

/-- An open collective group (R366): its record's fields, the FULL areas, the RUN_SEQ of its previous run. -/
structure CGroup where
  part : Nat
  id : Nat
  ring : Bool
  members : List (Nat × Nat)
  areaBase : Nat
  areaBytes : Nat
  areas : Nat
  prev : Nat
  nxt : Nat
  full : List Nat
  lastSeq : Option Nat
  deriving DecidableEq, Repr

/-- An accepted COL_RUN or COL_RECLAIM that has not completed (R368 to R376): its entry, whether it is a reclaim, whether the run
has started, waited for its RUN_SEQ, when its piece timer began and its extensions, the jigs awaited as (cell, step), the jigs that failed,
the pieces received as (level, slice or rank, bytes), the sends made as (level, slice or rank), the peers checked and told, the
steps NEXT granted, the steps granted to PREV, and the last block present. -/
structure CRun where
  part : Nat
  grp : Nat
  sq : Nat
  seq : Nat
  entry : List Byte
  reclaim : Bool
  started : Bool
  gap : Bool
  since : Nat
  ext : Nat
  pend : List (Nat × Nat)
  bad : List (Nat × Nat)
  got : List (Nat × Nat × List Byte)
  sent : List (Nat × Nat)
  checked : List Nat
  told : List Nat
  grants : Nat
  granted : Nat
  present : Nat
  deriving DecidableEq, Repr

/-- A video session (R380 to R393): bytes 0 to 127 of its record, the frames and lines complete, the commands in service in
order, the captures of pictures not yet output, the captures of complete frames, the frame being written (capture, flags, samples), the
most recent reference picture, frames output by the command in service, encode: chunks and payload bytes of the frame, whether a chunk waits for room, bytes written to the
ring, bits and captures of frames, frames since the last intra frame, the frames of the long-term slots, and whether
units are concealed until an intra picture (R527). -/
structure Sess where
  stream : Nat
  part : Nat
  record : List Byte
  addr : Nat
  region : Nat
  f : Nat
  l : Nat
  cmds : List (Nat × Nat)
  held : List Nat
  caps : List (Nat × Nat)
  cur : Option (Nat × Nat × List Byte)
  ref : Option (List Byte)
  outs : Nat
  chunks : Nat
  bytes : Nat
  full : Bool
  bsWritten : Nat
  hist : List (Nat × Nat)
  sinceIntra : Option Nat
  ltr : List (Nat × Nat)
  conceal : Bool
  deriving DecidableEq, Repr

/-- An alignment group (R401 to R404): its record, the tick of its first set and the tick whose set is pending. -/
structure AGroup where
  id : Nat
  part : Nat
  record : List Byte
  first : Nat
  k : Nat
  gone : List Nat
  deriving DecidableEq, Repr

/-- An armed timetable entry (R397 to R399): its command's entry, AT as it stands, whether it was due when armed or advanced, sets
released since, its fires, late fires and last failed status. -/
structure TEnt where
  slot : Nat
  uid : Nat
  part : Nat
  sq : Nat
  seq : Nat
  entry : List Byte
  at' : Nat
  late : Bool
  sets : Nat
  fires : Nat
  lates : Nat
  bad : Nat
  deriving DecidableEq, Repr

/-- An occurrence of a JIG action (R399): its entry, the jig identifier, the cells still to report, whether one failed. -/
structure TOcc where
  slot : Nat
  uid : Nat
  id : Nat
  left : List Nat
  failed : Bool
  deriving DecidableEq, Repr

/-- The scene clock beside SCL_TIME (R394 to R396): the error still to slew, ns towards the next slew, a step that waits for the next edge,
whether the first lock is still to come, when the source was last heard, since when the error has been under 20 ns, when TIME was last sent. -/
structure Scl where
  slew : Int
  acc : Nat
  setAt : Option Nat
  first : Bool
  heard : Nat
  good : Option Nat
  sentAt : Nat
  deriving DecidableEq, Repr

/-- A record of the error log (R526): scene time, raising page, event bit, level, reset scope, the page's captures. -/
structure ErrRec where
  time : Nat
  page : Nat
  evt : Nat
  level : Nat
  scope : Nat
  capt : List Nat
  deriving DecidableEq, Repr

/-- A descriptor in a cell's trace tail (R523, section 5): the cycles of its issue and completion, its OPCODE, status (0xFF
while it runs), TAG, jig identifier and index. -/
structure TraceRec where
  issued : Nat
  done : Nat
  op : Nat
  status : Nat
  tag : Nat
  jig : Nat
  idx : Nat
  deriving DecidableEq, Repr

/-- A reset of a cell, block or region in progress (R527, R528): its unit, and whether ERR_RESET asked for it. -/
structure UReset where
  unit : UnitRef
  byCmd : Bool
  deriving DecidableEq, Repr

/-- A stop of the module in progress (R299, R501, R517, R518): its cause, LEVEL and INSTANCE, the status its walk gives,
the scene time and state when it was detected, how far it is (0 detected, 1 issue stopped and ABORT sent, 2 walked, 3 FAULTED,
4 the dump's last part is out), the commands given a status by the walk, completions written since, TABLE_LOST, whether the dump goes to
the journal only, and for the dump's unit tables (R524) the barges, tag slots and jigs (cell, position) that the walk found. -/
structure StopRun where
  cause : Nat
  level : Nat
  inst : Nat
  status : Nat
  time : Nat
  was : Nat
  stage : Nat
  items : Nat
  written : Nat
  lost : Bool
  jnlOnly : Bool
  barges : List Barge
  tags : List Tag
  jigs : List (Nat × Nat × Jig)
  deriving DecidableEq, Repr

/-- The input and the bank between samples (R497 to R501, R504, R511): P54V in mV and whether it is connected; since when it
has been at 44 V or above, within 44 V to 59 V, in a dip, below 38 V, below 36 V, above 59 V; whether the input and bank switches are
open; whether the dip's throttle holds; when the charger passed 50 V. Sensors (R298, R509): the step of each, and since
when each has been cool enough to return; the time of each stack's last SLOW notices. -/
structure Power where
  live : Bool
  vin : Nat
  bank : Nat
  cap : Nat
  okSince : Option Nat
  inSince : Option Nat
  dip : Option Nat
  under38 : Option Nat
  under36 : Option Nat
  over59 : Option Nat
  inputOpen : Bool
  bankOpen : Bool
  chargeAt : Option Nat
  steps : List (Nat × Nat)
  cool : List (Nat × Nat)
  slowAt : List (Nat × Nat)
  deriving DecidableEq, Repr

/-- A module before P54V is connected. -/
def powerInit : Power := ⟨false, 0, 0, 0, none, none, none, none, none, none, false, false, none, [], [], []⟩

/-- What a flash write belongs to (R505): an acceptance (R483), a stored image of a KIND (R484), an APPEND of a TYPE (R508), an
update progress record (R507), part `i` of the dump's copy (R525), the next weight-tier stripe of the update of a SEQ (R304). -/
inductive JFor where
  | accept
  | image (kind : Nat)
  | host (ty : Nat)
  | progress
  | dump (i : Nat)
  | stripe (seq : Nat)
  deriving DecidableEq, Repr

/-- A journal record or stored image being written (R505, R506): what for, the SLC byte address of its start, its bytes,
how many are written, and its TYPE, SEQ and payload length (0 for an image). -/
structure JWork where
  what : JFor
  addr : Nat
  bytes : List Byte
  done : Nat
  ty : Nat
  seq : Nat
  len : Nat
  deriving DecidableEq, Repr

/-- A whole record of the journal log (R506): SLC address, TYPE, SEQ, payload bytes. -/
structure JRec where
  addr : Nat
  ty : Nat
  seq : Nat
  len : Nat
  deriving DecidableEq, Repr

/-- A weight update being applied (R508): the SEQ of its record, its first stripe and count, stripes done, the SLC address
of its data, and whether an APPEND waits for it. -/
structure Update where
  seq : Nat
  first : Nat
  count : Nat
  done : Nat
  data : Nat
  cmd : Bool
  deriving DecidableEq, Repr

/-- The journal (R505 to R508): whole records, the next SLC address and SEQ, the writes waiting in order, whether the first
has been deferred, updates to apply. -/
structure Jnl where
  recs : List JRec
  next : Nat
  seq : Nat
  work : List JWork
  deferred : Bool
  updates : List Update
  deriving DecidableEq, Repr

/-- An empty journal: it begins after the image slots (R478, R506). -/
def jnlInit : Jnl := ⟨[], 0x10000000, 1, [], false, []⟩

/-- A running image (R479, R481): where it came from (0 slot A, 1 slot B, 2 loaded) and its header. -/
structure Img where
  slot : Nat
  hdr : List Byte
  deriving DecidableEq, Repr

/-- The I3C target (R562, R563): whether its bus is down (R469), its dynamic address, the status and data of the last command. -/
structure I3c where
  down : Bool
  addr : Option Nat
  status : Nat
  data : Nat
  deriving DecidableEq, Repr

/-- The queues of a privileged mailbox channel (R467): A to B, B to A, oldest first. -/
structure MbxQ where
  ab : List Nat
  ba : List Nat
  deriving DecidableEq, Repr

/-- What the last access of a master returned: nothing, a value, bytes, a Completer Abort, a poisoned completion, or the status an internal
master receives in place of an abort (R465, R469). -/
inductive Resp where
  | none
  | value (v : Nat)
  | bytes (b : List Byte)
  | abort
  | poisoned
  | refused (status : Nat)
  deriving DecidableEq, Repr

/-- The block's state. -/
structure State where
  pending : List Instr
  now : Nat
  free : Nat
  mems : Mems
  regs : List (Nat × Word)
  disarmed : List (Nat × Bool)
  msix : List (Nat × Nat)
  cells : List (Nat × Cell)
  mcast : List (Nat × Mcast)
  barriers : List (Nat × Barrier)
  splits : List (Nat × Split)
  parts : List (Nat × Part)
  cache : List (Nat × List Nat)
  fills : List Fill
  hbmq : List (Nat × HbmQ)
  wins : List (Nat × Nat × Nat)
  credit : List (Nat × Int)
  bargeSeq : Nat
  bargeWait : List Barge
  barges : List Barge
  engineLast : List (Nat × Nat)
  locks : List (Nat × Lock)
  bargeNotices : List BargeNotice
  gsuLast : List (Nat × Nat)
  stepping : List Nat
  throttle : Nat
  notices : List JigNotice
  faults : List FaultRec
  sclTime : Nat
  dark : List Nat
  resp : Resp
  latch : List (Nat × Nat)
  staging : List (Nat × Option Nat)
  cold : Bool
  sqs : List (Nat × Sq)
  cqs : List (Nat × Cq)
  cmds : List Cmd
  bell : Nat
  turn : List (Nat × Nat)
  lastTurn : Nat
  rolls : List (Nat × Option Roll)
  streams : List (Nat × Strm)
  links : List (Nat × Link)
  tags : List Tag
  gens : List (Nat × Nat)
  fabs : List FabRun
  cgroups : List CGroup
  cruns : List CRun
  sess : List Sess
  aligns : List AGroup
  tts : List TEnt
  toccs : List TOcc
  ttUid : Nat
  dicts : List (Nat × Nat)
  scl : Scl
  stop : Option StopRun
  errLog : List ErrRec
  traces : List (Nat × List TraceRec)
  uresets : List UReset
  lastReset : List (Nat × Nat)
  prtCmd : Option (Nat × Nat)
  mbxq : List (Nat × MbxQ)
  power : Power
  jnl : Jnl
  kImg : Option Img
  uImg : Option Img
  heldRec : Option (List Byte)
  fuses : Fuses
  trained : Bool
  sblk : List Nat × Nat
  i3c : I3c
  jtag : JInstr
  perst : Bool
  pcieUp : Bool
  msixHeld : List (Nat × Nat)
  deriving DecidableEq, Repr

/-- No command ends in a fault: where an access or an operation is wrong, the manual gives the block's answer to it (a
Completer Abort, a status, an event), and that answer is the command's effect. -/
inductive Fault
  deriving DecidableEq, Repr

/-- Refusals. `notModelled`, with a row's mnemonic, is what exec would answer for a row without a meaning; no row is left so, and no
meaning answers it. It is safe: it says nothing of the hardware. -/
inductive Refusal where
  | notModelled (mnemonic : String)
  deriving DecidableEq, Repr

/-- The scene clock after reset (R394, R395): not running with a source, its first lock still to come. -/
def sclInit : Scl := ⟨0, 0, none, true, 0, none, 0⟩

/-- The module right after reset (R19, R474): in COLD, without P54V, PERST_N asserted; every register at its reset value (R19: an empty
table), every memory zero (R312), every queue, table and engine empty. -/
def State.reset : State where
  pending := []
  now := 0
  free := 0
  mems := ⟨[], [], [], [], [], [], [], []⟩
  regs := []
  disarmed := []
  msix := []
  cells := []
  mcast := []
  barriers := []
  splits := []
  parts := []
  cache := []
  fills := []
  hbmq := []
  wins := []
  credit := []
  bargeSeq := 0
  bargeWait := []
  barges := []
  engineLast := []
  locks := []
  bargeNotices := []
  gsuLast := []
  stepping := []
  throttle := 16
  notices := []
  faults := []
  sclTime := 0
  dark := []
  resp := .none
  latch := []
  staging := []
  cold := true
  sqs := []
  cqs := []
  cmds := []
  bell := 0
  turn := []
  lastTurn := 1023
  rolls := []
  streams := []
  links := []
  tags := []
  gens := []
  fabs := []
  cgroups := []
  cruns := []
  sess := []
  aligns := []
  tts := []
  toccs := []
  ttUid := 0
  dicts := []
  scl := sclInit
  stop := none
  errLog := []
  traces := []
  uresets := []
  lastReset := []
  prtCmd := none
  mbxq := []
  power := powerInit
  jnl := jnlInit
  kImg := none
  uImg := none
  heldRec := none
  fuses := ⟨[0, 0, 0, 0], 0, 0⟩
  trained := false
  sblk := ([], 0)
  i3c := ⟨false, none, 0, 0⟩
  jtag := .idcode
  perst := true
  pcieUp := false
  msixHeld := []

end Sys2Proof.Machine
end

