-- ==== Sys2Proof/Machine/Ops.lean ====
section
/-!
DEFINITION. Machine/Ops.lean: the named operations every command shares: sparse tables and memories in canonical form
(R70, R75, R290, R312, R315), registers (R13 to R17), events and their summary (R15, R538, R539), captures (R105, R535,
R536, R549), free values.
Log entries that code here: 2 (DESIGN CHOICE, safe), 12 (DESIGN CHOICE, unsafe), 14 (DEDUCED, unsafe), 16 (DESIGN CHOICE, unsafe), 19
(DESIGN CHOICE, unsafe), 44 (DESIGN CHOICE, safe), 86 (DEDUCED, unsafe), 106 (DEDUCED, unsafe), 133 (DESIGN CHOICE, unsafe).
-/

namespace Sys2Proof.Machine

/-! ### Sparse tables: strictly rising keys, no entry equal to the default -/

/-- The value at a key. -/
def tabGet {α : Type} (d : Nat → α) : List (Nat × α) → Nat → α
  | [], k => d k
  | (i, v) :: t, k => if i = k then v else tabGet d t k

/-- Remove a key. -/
def tabDrop {α : Type} (k : Nat) (t : List (Nat × α)) : List (Nat × α) := t.filter (fun e => e.1 != k)

/-- Store a value at a key, keeping the canonical form. -/
def tabPut {α : Type} [DecidableEq α] (d : Nat → α) : List (Nat × α) → Nat → α → List (Nat × α)
  | [], k, v => if v = d k then [] else [(k, v)]
  | (i, w) :: t, k, v =>
    if k < i then (if v = d k then (i, w) :: tabDrop k t else (k, v) :: (i, w) :: t)
    else if k = i then (if v = d k then tabDrop k t else (k, v) :: t)
    else (i, w) :: tabPut d t k v

/-- Return every key of [lo, hi) to the default. -/
def tabClear {α : Type} (lo hi : Nat) (t : List (Nat × α)) : List (Nat × α) :=
  t.filter (fun e => decide (e.1 < lo) || decide (hi ≤ e.1))

/-- The canonical form: keys strictly rising from `lo`, no entry equal to its default. -/
def tabWfFrom {α : Type} [DecidableEq α] (d : Nat → α) : Nat → List (Nat × α) → Bool
  | _, [] => true
  | lo, (i, v) :: t => decide (lo ≤ i) && decide (v ≠ d i) && tabWfFrom d (i + 1) t

/-- The canonical form of a sparse table. -/
def tabWf {α : Type} [DecidableEq α] (d : Nat → α) (t : List (Nat × α)) : Bool := tabWfFrom d 0 t

/-! ### Memories -/

/-- What a byte no one has written reads as (R312). -/
def memDefault : Nat → Byte := fun _ => 0#8

/-- Read one byte of one memory. -/
def memGet (m : List Host.Cell) (a : Nat) : Byte := tabGet memDefault m a

/-- Write one byte of one memory. -/
def memPut (m : List Host.Cell) (a : Nat) (b : Byte) : List Host.Cell := tabPut memDefault m a b

/-- Write consecutive bytes. -/
def memWrite (m : List Host.Cell) (a : Nat) : List Byte → List Host.Cell
  | [] => m
  | b :: t => memWrite (memPut m a b) (a + 1) t

/-- Read consecutive bytes. -/
def memRead (m : List Host.Cell) (a : Nat) : Nat → List Byte
  | 0 => []
  | n + 1 => memGet m a :: memRead m (a + 1) n

/-- Canonical form of one memory. -/
def Memory.wf (m : List Host.Cell) : Bool := tabWf memDefault m

/-- The memory of a space. -/
def memOf (m : Mems) : Space → List Host.Cell
  | .hbm => m.hbm | .slice => m.slice | .bench => m.bench | .acc => m.acc
  | .tier => m.tier | .slc => m.slc | .host => m.host

/-- Replace the memory of a space. -/
def setMem (m : Mems) (sp : Space) (x : List Host.Cell) : Mems :=
  match sp with
  | .hbm => { m with hbm := x }
  | .slice => { m with slice := x }
  | .bench => { m with bench := x }
  | .acc => { m with acc := x }
  | .tier => { m with tier := x }
  | .slc => { m with slc := x }
  | .host => { m with host := x }

/-- Every memory is in canonical form. -/
def memsWf (m : Mems) : Bool :=
  Memory.wf m.hbm && Memory.wf m.slice && Memory.wf m.bench && Memory.wf m.acc && Memory.wf m.tier &&
  Memory.wf m.slc && Memory.wf m.host

/-- Remove the units [lo, hi) of a space from the marks. -/
def clearMarks (sp : Space) (lo hi : Nat) (ms : List Mark) : List Mark :=
  ms.flatMap (fun k =>
    if k.sp = sp then
      (if k.lo < min k.hi lo then [{ k with hi := min k.hi lo }] else []) ++
      (if max k.lo hi < k.hi then [{ k with lo := max k.lo hi }] else [])
    else [k])

/-- A unit of a space carries a mark of the given kind. -/
def marked (ms : List Mark) (sp : Space) (never : Bool) (u : Nat) : Bool :=
  ms.any (fun k => k.sp == sp && k.never == never && k.lo ≤ u && u < k.hi)

/-- A unit carries any mark. -/
def anyMark (ms : List Mark) (sp : Space) (u : Nat) : Bool := marked ms sp true u || marked ms sp false u

/-- R290, R315: before a partial write into a marked unit the unit's bytes become zero. -/
def zeroIfMarked (ms : List Mark) (sp : Space) (u : Nat) (m : List Host.Cell) : List Host.Cell :=
  if anyMark ms sp u then tabClear (32 * u) (32 * u + 32) m else m

/-- Write bytes of a space: marked units at the ends are zeroed, the marks of every touched unit go (R290, R315). -/
def memsWrite (m : Mems) (sp : Space) (a : Nat) (bs : List Byte) : Mems :=
  if bs.isEmpty then m
  else
    let lo := a / 32
    let hi := (a + bs.length - 1) / 32
    let x := zeroIfMarked m.marks sp hi (zeroIfMarked m.marks sp lo (memOf m sp))
    { setMem m sp (memWrite x a bs) with marks := clearMarks sp lo (hi + 1) m.marks }

/-- Write `n` zeros: the same as writing a list of zeros, without the list. -/
def memsZero (m : Mems) (sp : Space) (a n : Nat) : Mems :=
  if n = 0 then m
  else
    let lo := a / 32
    let hi := (a + n - 1) / 32
    let x := zeroIfMarked m.marks sp hi (zeroIfMarked m.marks sp lo (memOf m sp))
    { setMem m sp (tabClear a (a + n) x) with marks := clearMarks sp lo (hi + 1) m.marks }

/-- Scrub [a, a + n): zero with valid ECC (R312, R313), marked never written when POISON is set (R315). -/
def memsScrub (m : Mems) (sp : Space) (a n : Nat) (poison : Bool) : Mems :=
  let ms := clearMarks sp (a / 32) ((a + n) / 32) m.marks
  { setMem m sp (tabClear a (a + n) (memOf m sp)) with
      marks := if poison then ⟨sp, true, a / 32, (a + n) / 32⟩ :: ms else ms }

/-- Read bytes of a space: a never-written unit reads as 0xFF (R315). -/
def memsRead (m : Mems) (sp : Space) (a : Nat) : Nat → List Byte
  | 0 => []
  | n + 1 => (if marked m.marks sp true (a / 32) then 0xFF#8 else memGet (memOf m sp) a) :: memsRead m sp (a + 1) n

/-- The first unit of [a, a + n) that holds an uncorrectable error (R290). -/
def firstBad (m : Mems) (sp : Space) (a n : Nat) : Option Nat :=
  if n = 0 then none
  else (m.marks.filter (fun k => k.sp == sp && !k.never && decide (k.lo ≤ (a + n - 1) / 32) && decide (a / 32 < k.hi))).foldl
    (fun acc k => let u := max k.lo (a / 32)
      match acc with
      | none => some u
      | some v => some (min u v)) none

/-- The first unit of [a, a + n) marked never written (R315). -/
def firstNever (m : Mems) (sp : Space) (a n : Nat) : Option Nat :=
  if n = 0 then none
  else (m.marks.filter (fun k => k.sp == sp && k.never && decide (k.lo ≤ (a + n - 1) / 32) && decide (a / 32 < k.hi))).foldl
    (fun acc k => let u := max k.lo (a / 32)
      match acc with
      | none => some u
      | some v => some (min u v)) none

/-- Mark units with uncorrectable errors that the environment reports: the whole 4 KiB codeword in the weight tier and
the SLC area (R303). -/
def memsStrike (m : Mems) (us : List (Space × Nat)) : Mems :=
  { m with marks := us.foldl (fun ms u =>
      if marked ms u.1 false u.2 then ms
      else if u.1 = .tier ∨ u.1 = .slc then ⟨u.1, false, u.2 / 128 * 128, u.2 / 128 * 128 + 128⟩ :: ms
      else ⟨u.1, false, u.2, u.2 + 1⟩ :: ms) m.marks }

/-- Read from the state's memories. -/
def rd (s : State) (sp : Space) (a n : Nat) : List Byte := memsRead s.mems sp a n

/-- Write to the state's memories. -/
def wr (s : State) (sp : Space) (a : Nat) (bs : List Byte) : State := { s with mems := memsWrite s.mems sp a bs }

/-- A little-endian number read from memory (R8). -/
def rdN (s : State) (sp : Space) (a n : Nat) : Nat := leNat (rd s sp a n)

/-! ### Free values -/

/-- A fresh free value. -/
def freeVal (s : State) : Nat × State := (Config.freeNat s.free, { s with free := s.free + 1 })

/-- A fresh free value below `n` (0 when n is 0). -/
def freeBelow (n : Nat) (s : State) : Nat × State := (Config.freeNat s.free % n, { s with free := s.free + 1 })

/-- `n` fresh free bytes. -/
def freeBytes (n : Nat) (s : State) : List Byte × State :=
  (leBytes n (Config.freeNat s.free), { s with free := s.free + 1 })

/-! ### Registers -/

/-- The stored value of a register. -/
def rget (s : State) (a : Nat) : Nat := (tabGet regRst s.regs a).toNat

/-- Store a register. -/
def rset (s : State) (a v : Nat) : State := { s with regs := tabPut regRst s.regs a (BitVec.ofNat 32 v) }

/-- Add to a counter that saturates at 2^32 − 1. -/
def bumpSat (s : State) (a n : Nat) : State := rset s a (min (rget s a + n) 0xFFFFFFFF)

/-- Add to a counter that wraps. -/
def bumpWrap (s : State) (a n : Nat) : State := rset s a (rget s a + n)

/-- Add to a 64-bit counter that wraps. -/
def bumpWrap64 (s : State) (a n : Nat) : State :=
  let v := rget s a + rget s (a + 4) * 2 ^ 32 + n
  rset (rset s a v) (a + 4) (v / 2 ^ 32)

/-- Set one field of a register. -/
def rsetBits (s : State) (a hi lo v : Nat) : State := rset s a (setBits (rget s a) hi lo v)

/-- One field of a register. -/
def rbits (s : State) (a hi lo : Nat) : Nat := bits (rget s a) hi lo

/-- Return every register of [lo, hi) to its reset value and arm the capture latches there (R19, R536). -/
def regsClear (s : State) (lo hi : Nat) : State :=
  { s with regs := tabClear lo hi s.regs, disarmed := tabClear lo hi s.disarmed }

/-! ### Events (R15, R538) -/

/-- The pending state of a page (R538): an unmasked event bit is set. -/
def pagePending (s : State) (pg : Nat) : Bool := (rget s (pg + 0x10)) &&& (0xFFFFFFFF - rget s (pg + 0x14)) ≠ 0

/-- A region answers no access: it is gated (R510) or fenced (R528); `dark` lists these regions. -/
def regionDark (s : State) (r : Nat) : Bool := s.dark.contains r

/-- The pages of PF BAR0 whose event registers hold something, outside dark regions (R538). -/
def pendingPages (s : State) : List Nat :=
  (s.regs.filter (fun e => e.1 % 0x1000 == 0x10 && decide (e.1 < 0x20000000) &&
      pagePending s (e.1 - 0x10) && !(decide (0x4000000 ≤ e.1) && regionDark s (e.1 / 0x4000000 - 1)))).map (fun e => e.1 - 0x10)

/-- CHP_EVT_SUM (R538, R541): the bit of a pending page. -/
def sumBit (pg : Nat) : Nat :=
  match pageOf pg with
  | some (.chp, _) => 0 | some (.ver, _) => 1 | some (.cfg, _) => 2 | some (.kpr, _) => 3
  | some (.mbx, _) => 4 | some (.dbl, _) => 5 | some (.prt, _) => 6
  | some (.hbm, i) => 7 + i
  | some (.wei, i) => 7 + i / 8
  | some (.fls, _) => 15 | some (.flsWin, _) => 15
  | some (.lnk, _) => 16 | some (.lnkWei, _) => 16
  | some (.col, _) => 17 | some (.aln, _) => 18 | some (.scl, _) => 19 | some (.pwr, _) => 20
  | some (.err, _) => 21 | some (.dmp, _) => 22
  | _ => 23 + (pg / 0x4000000 - 1)

/-- The value of CHP_EVT_SUM. -/
def chpEvtSum (s : State) : Nat := (pendingPages s).foldl (fun a p => a ||| 2 ^ sumBit p) 0

/-- MSI-X vector `v` of function `fn` (0 the PF, p + 1 the VF of partition p) is sent (R441); in HELD it stays pending until
the device leaves HELD (R485), and likewise where the outputs are as in HELD (R474). -/
def msixSend (s : State) (fn v : Nat) : State :=
  let st := rbits s (pgChp + 0x40) 2 0
  if st = 3 ∨ st = 4 then { s with msix := s.msix ++ [(fn, v)] }
  else if s.msixHeld.contains (fn, v) then s
  else { s with msixHeld := s.msixHeld ++ [(fn, v)] }

/-- R538: vector 0 goes out when CHP_EVT_SUM leaves 0. `t` is the state after a change made to `s`. -/
def summarise (s t : State) : State :=
  if (pendingPages s).isEmpty && !(pendingPages t).isEmpty then msixSend t 0 0 else t

/-- Set event bits of a page. VF pages are outside the chip summary; their page 4 raises vector 16 (R472). -/
def setEvents (s : State) (pg evts : Nat) : State :=
  let t := rset s (pg + 0x10) (rget s (pg + 0x10) ||| evts)
  if pg < 0x20000000 then summarise s t
  else if pagePending t pg && !pagePending s pg then msixSend t ((pg - 0x20000000) / 0x10000 + 1) 16 else t

/-- R526: the event bits of a page that are logged: uncorrectable errors, parity, LINK_FATAL, unit faults. -/
def logged (pg : Nat) : List Nat :=
  match pageOf pg with
  | some (.hbm, _) => [5, 7] | some (.fls, _) => [0] | some (.brg, _) => [2] | some (.sram, _) => [1]
  | some (.gsu, _) => [11] | some (.cel, _) => [7] | some (.arrays, _) => [11, 12] | some (.vector, _) => [9, 12]
  | some (.state, _) => [3] | some (.slice, _) => [2]
  | some (.celErr, _) => [1] | some (.blkErr, _) => [1] | some (.rgnErr, _) => [1]
  | _ => []

/-- The level of a page: 0 cell, 1 block, 2 region, 3 chip (R523, R533). -/
def pageLevel (pg : Nat) : Nat :=
  if pg < 0x4000000 then 3
  else if pg % 0x4000000 < 0x200000 then 2
  else if pg % 0x200000 < 0x40000 then 1
  else 0

/-- R526: write one record of the error log; a full log loses its oldest record and raises LOG_WRAPPED. -/
def logErr (s : State) (pg evt scope : Nat) : State :=
  let r : ErrRec := ⟨s.sclTime, pg, evt, pageLevel pg, scope, [rget s (pg + 0x20), rget s (pg + 0x24), rget s (pg + 0x28), rget s (pg + 0x2C)]⟩
  let t := rset { s with errLog := s.errLog ++ [r] } (pgErr + 0x60) (rget s (pgErr + 0x60) + 1)
  if 4096 < t.errLog.length then setEvents { t with errLog := t.errLog.drop 1 } pgErr 0x40 else t

/-- Raise event bits of a page (R15), and log those that R526 names. -/
def raise (s : State) (pg evts : Nat) : State :=
  (logged pg).foldl (fun t b => if evts.testBit b then logErr t pg b 0 else t) (setEvents s pg evts)

/-! ### Captures (R536) -/

/-- The first capture after the latch is armed writes ERR_CAPT0 to ERR_CAPT3 whole; a later one changes nothing. -/
def capture (s : State) (pg c0 c1 c2 c3 : Nat) : State :=
  if tabGet (fun _ => false) s.disarmed pg then s
  else
    let t := rset (rset (rset (rset s (pg + 0x20) c0) (pg + 0x24) c1) (pg + 0x28) c2) (pg + 0x2C) c3
    { t with disarmed := tabPut (fun _ => false) t.disarmed pg true }

/-- Arm a page's capture latch (R536). -/
def armCapture (s : State) (pg : Nat) : State :=
  { s with disarmed := tabPut (fun _ => false) s.disarmed pg false }

/-- A failure record of a cell error page (R105, R549): counted, captured if the latch is armed, CAPTURED raised. -/
def cellErrRecord (s : State) (c c0 c1 c2 c3 : Nat) : State :=
  raise (bumpSat (capture s (pgCelErr c) c0 c1 c2 c3) (pgCelErr c + 0x40) 1) (pgCelErr c) 1

/-! ### Cells -/

/-- The state of a cell. -/
def cellGet (s : State) (c : Nat) : Cell := tabGet (fun _ => cellInit) s.cells c

/-- Replace the state of a cell. -/
def cellPut (s : State) (c : Nat) (x : Cell) : State := { s with cells := tabPut (fun _ => cellInit) s.cells c x }

/-- Cell clock cycles between two instants in ns (1.5 GHz, R3). -/
def cyclesOf (ns : Nat) : Nat := ns * 3 / 2

/-- The cell of a memory address of bench, slice or accumulator space, and the address within. -/
def benchA (c a : Nat) : Nat := c * 0x100000 + a
def sliceA (c a : Nat) : Nat := c * 0x1000000 + a
def accA (c a : Nat) : Nat := c * 0x100000 + a

/-- Semaphore `n` of a cell (R80): it is the register CEL_SEMn (R108). -/
def semAddr (c n : Nat) : Nat := pgCel c + 0x100 + 4 * n

/-- R80: increment a semaphore; at 65,535 it stays and SEM_SAT is raised. -/
def semInc (s : State) (c n : Nat) : State :=
  let v := rget s (semAddr c n)
  if v < 65535 then rset s (semAddr c n) (v + 1) else raise s (pgCel c) 0x10

/-- R80: decrement a semaphore. -/
def semDec (s : State) (c n : Nat) : State := rset s (semAddr c n) (rget s (semAddr c n) - 1)

end Sys2Proof.Machine
end

