-- ==== Sys2Proof/Machine/Flags.lean ====
section
/-!
DEFINITION. Machine/Flags.lean: the event flags of a cell's units: arithmetic events (R62), the ECC events of its
memories (R70, R75, R108, R110, R315, R319), the performance page (R551).
Log entries that code here: 9 (DESIGN CHOICE, unsafe), 20 (DESIGN CHOICE, unsafe).
-/

namespace Sys2Proof.Machine

/-- Raise arithmetic events in the arrays page (MMA, CONV, ATTN, RSTEP, MITRE; R62). -/
def arithArrays (s : State) (c ev : Nat) : State := if ev = 0 then s else raise s (pgArrays c) ev

/-- Raise arithmetic events in the vector page (VPROG, SFU, SOFTMAX, STAT; R62). -/
def arithVector (s : State) (c ev : Nat) : State := if ev = 0 then s else raise s (pgVector c) ev

/-- A counter of the performance page: frozen while CTRL.FREEZE is 1 (R551). -/
def perfBump (s : State) (c off n : Nat) : State :=
  if bit (rget s (pgPerf c + 8)) 0 then s else bumpSat s (pgPerf c + off) n

/-- R290, R315, R319: a read of a never-written unit raises NEVER_WRITTEN and records the address; its status is
unaffected. Only HBM and slices are ever so marked. -/
def noteNever (s : State) (sp : Space) (u : Nat) : State :=
  match sp with
  | .hbm =>
    let st := u * 32 / 0x1000000000
    let a := u * 32 % 0x1000000000
    raise (capture s (pgHbm st) (a % 2 ^ 32) (a / 2 ^ 32) 0 0) (pgHbm st) 0x100
  | .slice =>
    let c := u * 32 / 0x1000000
    raise (capture s (pgSlice c) (u * 32 % 0x1000000) 0 0 0) (pgSlice c) 0x10
  | _ => s

/-- Unit `u` of the accumulator files lies in its cell's state region (R202). -/
def inStateRegion (s : State) (u : Nat) : Bool :=
  let c := u * 32 / 0x100000
  decide (min (rbits s (pgState c + 0x40) 5 0) 56 * 4096 ≤ u * 32 % 0x40000) && decide (u * 32 % 0x40000 < 0x38000)

/-- An ECC event of an accumulator file, and of the state region where the unit lies in it (R75, R223). -/
def accEcc (s : State) (u evArr evState : Nat) : State :=
  let c := u * 32 / 0x100000
  let t := raise s (pgArrays c) evArr
  if inStateRegion s u then raise t (pgState c) evState else t

/-- An uncorrectable error met by a read: the events and counters of the memory it lies in (R70, R75, R290, R319, R546). -/
def noteUe (s : State) (sp : Space) (u : Nat) : State :=
  match sp with
  | .bench =>
    let c := u * 32 / 0x100000
    raise (bumpSat s (pgBench c + 0x44) 1) (pgCel c) 0x80
  | .acc => accEcc s u 0x800 8
  | .slice =>
    let c := u * 32 / 0x1000000
    let r := c / 256
    let l := u * 32 % 0x1000000 / 0x400000
    raise (raise (bumpSat s (pgSram r + 0x50 + 4 * l) 1) (pgSram r) 2) (pgSlice c) 0x4
  | .hbm =>
    let st := u * 32 / 0x1000000000
    let a := u * 32 % 0x1000000000
    raise (capture (bumpSat s (pgHbm st + 0x58) 1) (pgHbm st) (a % 2 ^ 32) (a / 2 ^ 32) 0 0) (pgHbm st) 0x20
  | .tier | .slc => raise (bumpSat (bumpSat s (pgFls + 0x4C) 1) (pgFls + 0x50) 8) pgFls 3
  | _ => s

/-- A corrected error: its event and counter; nothing else changes. -/
def noteCe (s : State) (sp : Space) (u : Nat) : State :=
  match sp with
  | .bench =>
    let c := u * 32 / 0x100000
    raise (bumpSat s (pgBench c + 0x40) 1) (pgCel c) 0x40
  | .acc => accEcc s u 0x400 4
  | .slice =>
    let c := u * 32 / 0x1000000
    let r := c / 256
    let l := u * 32 % 0x1000000 / 0x400000
    raise (raise (bumpSat s (pgSram r + 0x40 + 4 * l) 1) (pgSram r) 1) (pgSlice c) 0x2
  | .hbm =>
    let st := u * 32 / 0x1000000000
    raise (bumpSat s (pgHbm st + 0x54) 1) (pgHbm st) 0x10
  | .tier | .slc => raise (bumpSat s (pgFls + 0x50) 1) pgFls 2
  | _ => s

/-- What the ECC reports while a command runs: units found uncorrectable are marked, corrected ones counted. -/
def eccEnv (s : State) (e : Ecc) : State :=
  e.ce.foldl (fun t u => noteCe t u.1 u.2) { s with mems := memsStrike s.mems e.ue }

end Sys2Proof.Machine
end

