-- ==== Sys2Proof/Machine/Operands.lean ====
section
/-!
DEFINITION. Machine/Operands.lean: the operand forms of descriptors: format codes (R90), bench, accumulator and slice
regions with their extents (R70, R75, R104, R282), element access, the skewed layout (R73, R74), the header (R83 to R86)
and its checks (R104, steps 1 to 5).
Log entries that code here: 21 (DEDUCED, unsafe), 22 (DEDUCED, unsafe).
-/

namespace Sys2Proof.Machine

/-! ### Format codes (R90) -/

/-- What an element of a format is. -/
inductive Elem where
  | fl (f : Fmt)
  | mx (f : Fmt)
  | fp4
  | int8
  | int32
  deriving DecidableEq, Repr

/-- R90: the format of a code. -/
def fmtOf (code : Nat) : Option Elem :=
  if code = 0x00 then some (.fl .f32) else if code = 0x01 then some (.fl .f16) else if code = 0x02 then some (.fl .bf16)
  else if code = 0x10 then some (.fl .e4m3) else if code = 0x11 then some (.fl .e5m2)
  else if code = 0x12 then some (.mx .e4m3) else if code = 0x13 then some (.mx .e5m2)
  else if code = 0x14 then some (.mx .e3m2) else if code = 0x15 then some (.mx .e2m3) else if code = 0x16 then some (.mx .e2m1)
  else if code = 0x17 then some .fp4 else if code = 0x20 then some .int8 else if code = 0x21 then some .int32 else none

/-- R90: bits per element. -/
def elemBits : Elem → Nat
  | .fl f => f.width
  | .mx f => f.width
  | .fp4 => 4
  | .int8 => 8
  | .int32 => 32

/-- Bits per element of a code (0 for an illegal one). -/
def codeBits (code : Nat) : Nat := ((fmtOf code).map elemBits).getD 0

/-- Bytes per element of a code of whole bytes. -/
def codeBytes (code : Nat) : Nat := codeBits code / 8

/-- The code is an MX format. -/
def isMx (code : Nat) : Bool := 0x12 ≤ code && code ≤ 0x16

/-- The floating format of an element's bits. -/
def elemFmt : Elem → Fmt
  | .fl f => f
  | .mx f => f
  | .fp4 => .e2m1
  | _ => .f32

/-- The exact value of an element's bits, scales left aside. -/
def elemVal (e : Elem) (n : Nat) : Val :=
  match e with
  | .fl f => decodeFmt f n
  | .mx f => decodeFmt f n
  | .fp4 => decodeFmt .e2m1 n
  | .int8 => ofInt (toSigned 8 n)
  | .int32 => ofInt (toSigned 32 n)

/-- R63: an element widened to binary32 (INT32 by one rounding, every other exactly). -/
def widen (code n : Nat) : Nat :=
  match fmtOf code with
  | some e => enc32 (elemVal e n)
  | none => 0

/-- R42, R43, R47: a binary32 value converted to a plain format code. `sr` is the random value of R48 when stochastic
rounding is selected. The encoding and the events raised. -/
def convertTo (code : Nat) (sr : Option Nat) (x : Nat) : Nat × Nat :=
  match fmtOf code with
  | some (.fl f) => match sr with
    | some r => encodeStochastic f r (val32 x)
    | none => encodePlain f (val32 x)
  | some .int8 => encodeInt 8 (val32 x)
  | some .int32 => encodeInt 32 (val32 x)
  | some .fp4 => encodePlain .e2m1 (val32 x)
  | _ => (0, 0)

/-! ### Regions -/

/-- A region of a memory of one cell: `rows` rows of `len` bytes, `pitch` apart. -/
structure Region where
  sp : Space
  base : Nat
  rows : Nat
  pitch : Nat
  len : Nat
  deriving DecidableEq, Repr

/-- A contiguous region. -/
def flat (sp : Space) (base len : Nat) : Region := ⟨sp, base, 1, 0, len⟩

/-- One past the last byte of a region. -/
def Region.last (r : Region) : Nat := if r.rows = 0 ∨ r.len = 0 then r.base else r.base + (r.rows - 1) * r.pitch + r.len

/-- The rows of a region as (address, bytes). -/
def Region.spans (r : Region) : List (Nat × Nat) := (List.range r.rows).map (fun i => (r.base + i * r.pitch, r.len))

/-- Two byte ranges share a byte. -/
def spansMeet (a b : Nat × Nat) : Bool := decide (a.1 < b.1 + b.2) && decide (b.1 < a.1 + a.2) && a.2 != 0 && b.2 != 0

/-- Two regions share a byte. -/
def Region.meets (a b : Region) : Bool :=
  a.sp == b.sp && decide (a.base < b.last) && decide (b.base < a.last) &&
    a.spans.any (fun x => b.spans.any (fun y => spansMeet x y))

/-- A check of R104: whether it fails, its reason and its detail. -/
abbrev Chk := Bool × Nat × Nat

/-- The first check that fails (R104). -/
def firstFail (l : List Chk) : Option (Nat × Nat) := (l.find? (·.1)).map (·.2)

/-- The bytes of a cell's scratchpad (R282): SCRATCH_1M MiB. -/
def scratchBytes (s : State) (c : Nat) : Nat := min (rbits s (pgSlice c + 0x40) 4 0) 16 * 0x100000

/-- The accumulator offset within an array at which no descriptor may address a byte: the state region or the tree area
begins there (R75, R202). -/
def accLimit (s : State) (c : Nat) : Nat := min (rbits s (pgState c + 0x40) 5 0) 56 * 4096

/-- Extent check of one region (R104 step 7): bench regions stay in the bench (R70), slice regions in the scratchpad (R282). -/
def extentChk (s : State) (c : Nat) (r : Region) : Chk :=
  match r.sp with
  | .bench => (decide (0x100000 < r.last), rBenchRange, 0)
  | .slice => (decide (scratchBytes s c < r.last), rOutOfPartition, 0)
  | _ => (false, 0, 0)

/-- Accumulator check of one region (R104 step 8): no byte of a tree area or of the state region (R75, R204). -/
def accChk (s : State) (c : Nat) (r : Region) : Chk :=
  match r.sp with
  | .acc => (r.spans.any (fun x => x.2 != 0 &&
      (decide (accLimit s c < x.1 % 0x40000 + x.2) || decide (0x100000 < x.1 + x.2))), rAccSpace, 0)
  | _ => (false, 0, 0)

/-- Bench or accumulator by a selector bit. -/
def benchOrAcc (acc : Bool) : Space := if acc then .acc else .bench

/-- The model's address of byte `a` of a memory of cell `c`. -/
def cellAddr (sp : Space) (c a : Nat) : Nat :=
  match sp with
  | .slice => sliceA c a
  | .bench => benchA c a
  | .acc => benchA c a
  | _ => a

/-- Read `n` bytes at `a` of a memory of cell `c`. -/
def crd (s : State) (sp : Space) (c a n : Nat) : List Byte := rd s sp (cellAddr sp c a) n

/-- A little-endian number there. -/
def crdN (s : State) (sp : Space) (c a n : Nat) : Nat := leNat (crd s sp c a n)

/-- Element `i` of `b` bits of a packed line at byte address `a` (R73: bits [b(i + 1) − 1 : bi] of the line). -/
def elemAt (s : State) (sp : Space) (c a b i : Nat) : Nat :=
  let o := b * i
  bits (crdN s sp c (a + o / 8) ((o % 8 + b + 7) / 8)) (o % 8 + b - 1) (o % 8)

/-- R73, R74: element (r, k) of an operand of lanes at `base`: skewed in row blocks of `bm` lanes with group `g`, or plain. -/
def laneElem (s : State) (sp : Space) (c base pitch b bm g kTot : Nat) (skew : Bool) (r k : Nat) : Nat :=
  if skew then
    elemAt s sp c (base + (r / bm) * (kTot + g - 1) * pitch + (k + (r % bm) % g) * pitch) b (r % bm)
  else elemAt s sp c (base + r * pitch) b k

/-! ### The header (R83, R84) -/

def dOp (d : List Byte) : Nat := byteAt d 0
def dLayout (d : List Byte) : Nat := byteAt d 1
def dWait (d : List Byte) : Nat := byteAt d 2
def dSignal (d : List Byte) : Nat := byteAt d 3
def dTag (d : List Byte) : Nat := fld d 4 2
def dFlags (d : List Byte) : Nat := fld d 6 2
def dLast (d : List Byte) : Bool := bit (dFlags d) 0
def dDtIn (d : List Byte) : Bool := bit (dFlags d) 1
def dDtOut (d : List Byte) : Bool := bit (dFlags d) 2
def dMasked (d : List Byte) : Bool := bit (dFlags d) 3
def dSkew (d : List Byte) : Bool := bit (dFlags d) 5
def dTrap (d : List Byte) : Bool := bit (dFlags d) 6
def dBound (d : List Byte) : Nat := bits (dFlags d) 15 8

/-- The SKEW flag has a meaning for BARGE, MMA, CONV and ATTN only (R84). -/
def skewOps : List Nat := [0x01, 0x02, 0x03, 0x0E]

/-- R104, steps 1 to 5: the checks that depend on the header alone. -/
def headerChecks (requireBound : Bool) (d : List Byte) : List Chk :=
  let op := dOp d
  [ (decide (op = 0 ∨ 0x15 < op), rBadOpcode, 0),
    (decide (dLayout d ≠ 2 ∧ ¬ (dLayout d = 1 ∧ (op = 0x01 ∨ op = 0x05 ∨ op = 0x0E))), rBadLayout, 0),
    (decide (dLayout d = 1 ∧ op = 0x0E) && dSkew d, rBadLayout, 0),
    (bit (dFlags d) 4 || bit (dFlags d) 7, rReservedSet, 0),
    (dSkew d && !skewOps.contains op, rReservedSet, 0),
    (dMasked d && !(op == 0x01 || op == 0x0D), rUnitCheck, dMaskIllegal),
    (decide (64 ≤ dWait d ∧ dWait d ≠ 0xFF), rBadSem, 0),
    (decide (64 ≤ dSignal d ∧ dSignal d ≠ 0xFF), rBadSem, 0),
    (decide (40 < dBound d), rBadBound, 0),
    (requireBound && dBound d == 0, rBoundRequired, 0) ]

/-- The units of an opcode (R87). -/
def opUnits (op : Nat) : List CUnit :=
  if op = 0x01 ∨ op = 0x02 ∨ op = 0x03 ∨ op = 0x0D ∨ op = 0x12 then [.arrays]
  else if op = 0x04 then [.arrays, .vector]
  else if op = 0x05 ∨ op = 0x07 ∨ op = 0x11 then [.vector]
  else if op = 0x06 then [.sfu]
  else if op = 0x08 then [.vector, .sfu]
  else if op = 0x09 ∨ op = 0x0A ∨ op = 0x0B ∨ op = 0x0C ∨ op = 0x0E ∨ op = 0x13 ∨ op = 0x14 then [.port]
  else [.issue]

/-! ### Helpers for the field checks of step 6 -/

/-- A field that must be zero and is not (RESERVED_SET). -/
def chkZero (b : Bool) : Chk := (b, rReservedSet, 0)
/-- A format, pairing or mode value that is not allowed. -/
def chkFmt (b : Bool) : Chk := (b, rBadFormat, 0)
/-- A count, dimension, identifier or pitch minimum that is broken. -/
def chkShape (b : Bool) : Chk := (b, rBadShape, 0)
/-- An address or pitch that is not a multiple of `n`. -/
def chkAlign (v n : Nat) : Chk := (v % n != 0, rAlign, 0)
/-- A layout-2 byte or value in a layout-1 descriptor (R86). -/
def chkLay (d : List Byte) (b : Bool) : Chk := (dLayout d == 1 && b, rBadLayout, 0)
/-- Bench address checks: [31:20] zero, aligned. -/
def chkBenchAddr (v n : Nat) : List Chk := [chkZero (decide (0x100000 ≤ v)), chkAlign v n]

/-- R94: the rounding context at a bench address: seed, sample, step, row origin, column origin, tensor columns. -/
structure RoundCtx where
  seed : Nat
  sample : Nat
  step : Nat
  row : Nat
  col : Nat
  cols : Nat
  deriving DecidableEq, Repr

/-- Read a rounding context of 32 bytes (R94). -/
def readRound (s : State) (c a : Nat) : RoundCtx :=
  let b := crd s .bench c a 32
  ⟨fld b 0 8, fld b 8 4, fld b 12 4, fld b 16 4, fld b 20 4, fld b 24 4⟩

/-- The random value of R48 for element (m, n) of a tile, when stochastic rounding is on. -/
def srAt (on : Bool) (x : RoundCtx) (m n : Nat) : Option Nat :=
  if on then some (srRandom x.seed x.sample x.step ((x.row + m) * x.cols + x.col + n)) else none

end Sys2Proof.Machine
end

