-- ==== Sys2Proof/Machine/Cells.lean ====
section
/-!
DEFINITION. Machine/Cells.lean: the jig queue and the issue logic of a cell (R76 to R89, R104 to R107): pushes, fetch,
header checks, issue, running, completion, traps and faults. The opcodes' own checks and results are in the files of
their chapters; Machine/Issue.lean puts them together.
Log entries that code here: 9 (DESIGN CHOICE, unsafe), 18 (DESIGN CHOICE, safe), 19 (DESIGN CHOICE, unsafe), 23 (DEDUCED, unsafe), 25
(DESIGN CHOICE, unsafe), 26 (DEDUCED, unsafe), 29 (DEDUCED, unsafe), 35 (DEDUCED, unsafe), 40 (DESIGN CHOICE, safe), 42 (DEDUCED, unsafe),
98 (DEDUCED, unsafe), 127 (DEDUCED, unsafe).
-/

namespace Sys2Proof.Machine

/-! ### Pushes (R77) -/

/-- A push enters the queue when it has room for 16, counting the running jig; otherwise the towpath holds it. -/
def jigPush (s : State) (c : Nat) (j : Jig) : State :=
  let x := cellGet s c
  if x.queue.length < 16 ∧ x.held.isEmpty then cellPut s c { x with queue := x.queue ++ [j] }
  else cellPut s c { x with held := x.held ++ [j] }

/-- The oldest held push enters once an entry is free. -/
def jigAdmit (s : State) (c : Nat) : State :=
  let x := cellGet s c
  match x.held with
  | j :: t => if x.queue.length < 16 then cellPut s c { x with queue := x.queue ++ [j], held := t } else s
  | [] => s

/-! ### Failures and the end of a jig -/

/-- R105, R108: OP_FAILED and the record of a descriptor that did not complete OK. -/
def recordFail (s : State) (c jigId idx addr : Nat) (d : List Byte) (status reason detail : Nat) : State :=
  cellErrRecord (raise s (pgCel c) 2) c (reason + dOp d * 2 ^ 8 + dTag d * 2 ^ 16) addr (jigId + idx * 2 ^ 16)
    (status + detail * 2 ^ 8)

/-- R79: the notice's status is that of the first descriptor in jig order that did not complete OK. -/
def noteBad (jr : JigRun) (idx status : Nat) : JigRun :=
  { jr with
      failed := jr.failed + 1
      firstBad := match jr.firstBad with
        | none => some (idx, status)
        | some (i, st) => if idx < i then some (idx, status) else some (i, st) }

/-- Change the running jig of a cell. -/
def setJr (s : State) (c : Nat) (jr : JigRun) : State := cellPut s c { cellGet s c with run := some jr }

/-- R223: RSTEP, STATE_SAVE and STATE_LOAD that do not complete OK raise STATE_FAILED and are counted (R214 for a move
issued during a step). -/
def stateFailed (s : State) (c : Nat) (d : List Byte) (detail : Nat) : State :=
  if dOp d = 0x04 ∨ dOp d = 0x13 ∨ dOp d = 0x14 then
    raise (bumpSat s (pgState c + 0x54) 1) (pgState c) (if detail = dStInStep then 3 else 1)
  else s

/-- The stream engine of a cell (R305). -/
def strmGet (s : State) (c : Nat) : Strm := tabGet (fun _ => strmInit) s.streams c
def strmPut (s : State) (c : Nat) (x : Strm) : State := { s with streams := tabPut (fun _ => strmInit) s.streams c x }

/-- R311: the stream becomes ABORTED. -/
def streamAbort (s : State) (c : Nat) : State := strmPut s c { strmGet s c with st := 2 }

/-! ### Trace tails (R523, section 5) -/

/-- The low word of the cell clock count of now. -/
def cellCycle (s : State) : Nat := cyclesOf s.now % 2 ^ 32

/-- The trace tail of a cell: its last 256 descriptors, oldest first. -/
def traceGet (s : State) (c : Nat) : List TraceRec := tabGet (fun _ => []) s.traces c
def tracePut (s : State) (c : Nat) (l : List TraceRec) : State :=
  { s with traces := tabPut (fun _ => []) s.traces c (l.drop (l.length - 256)) }

/-- A descriptor issues. -/
def traceIssue (s : State) (c : Nat) (d : List Byte) (jig idx : Nat) : State :=
  tracePut s c (traceGet s c ++ [⟨cellCycle s, 0, dOp d, 0xFF, dTag d, jig, idx⟩])

/-- A descriptor completes; one that failed at issue enters the tail complete. -/
def traceDone (s : State) (c : Nat) (d : List Byte) (jig idx status : Nat) : State :=
  let l := traceGet s c
  let open' := fun (t : TraceRec) => t.status == 0xFF && t.jig == jig && t.idx == idx
  if l.any open' then tracePut s c (l.map (fun t => if open' t then { t with done := cellCycle s, status := status } else t))
  else tracePut s c (l ++ [⟨cellCycle s, cellCycle s, dOp d, status, dTag d, jig, idx⟩])

/-- R104, R106, R311: what every completion does: the failure record, the count in the jig, the trap flag, SIGNAL_SEM. -/
def descDone (s : State) (c : Nat) (jr : JigRun) (idx addr : Nat) (d : List Byte) (status reason detail : Nat) : State :=
  let fence := dOp d = 0x15
  let s := traceDone s c d jr.jig.id idx status
  let t := if status = stOk then setJr s c jr
    else recordFail (stateFailed (setJr (if fence then streamAbort s c else s) c { noteBad jr idx status with
        trap := jr.trap || dTrap d, halt := jr.halt || fence }) c d detail) c jr.jig.id idx addr d status reason detail
  if dSignal d < 64 then semInc t c (dSignal d) else t

/-- The descriptors of a jig from `i` to its LAST, at most `fuel` of them (R106: those it did not issue). -/
def countRest (s : State) (c start : Nat) : Nat → Nat → Nat
  | 0, _ => 0
  | fuel + 1, i =>
    if scratchBytes s c < start + 64 * i + 64 then 0
    else if dLast (crd s .slice c (start + 64 * i) 64) then 1 else 1 + countRest s c start fuel (i + 1)

/-- R79: the status of a jig's notice: that of the first descriptor that did not complete OK, else that of the fetch that stopped it. -/
def jigStatus (jr : JigRun) : Nat :=
  match jr.firstBad with
  | some (_, st) => st
  | none => if jr.stop = 0 then stOk else reasonStatus jr.stop

/-- Nothing of a jig remains to issue or to complete. -/
def jigOver (jr : JigRun) : Bool :=
  jr.issued.isEmpty && (jr.trap || jr.halt || (jr.fetched.isEmpty && (jr.sawLast || jr.stop != 0)))

/-- R76, R79, R109: what the end of a jig leaves in registers: the record of a fetch that stopped it, CEL_JQ_LAST, CEL_JQ_DONE, JIG_DONE. -/
def jigResult (s : State) (c : Nat) (jr : JigRun) : State :=
  let s1 := if jr.stop = 0 || jr.trap || jr.halt then s
    else cellErrRecord s c jr.stop (jr.jig.start + 64 * jr.nextFetch) (jr.jig.id + jr.nextFetch * 2 ^ 16) (reasonStatus jr.stop)
  let s2 := rset s1 (pgJq c + 0x50) (jigStatus jr + min jr.failed 255 * 2 ^ 8 + jr.jig.id * 2 ^ 16)
  raise (bumpWrap s2 (pgJq c + 0x4C) 1) (pgCel c) 1

/-- R77, R79, R106: the jig leaves its cell, which traps when it must, and its notice is on its way. -/
def jigLeave (s : State) (c : Nat) (jr : JigRun) : State :=
  let s1 := cellPut s c { cellGet s c with
    run := none, queue := (cellGet s c).queue.drop 1, mode := if jr.trap then .trapped else (cellGet s c).mode }
  { s1 with notices := s.notices ++ [⟨c, jr.jig.pusher, jr.jig.id, jr.failed, jigStatus jr⟩] }

/-- R106: the descriptors that a jig did not issue are counted; a trap is raised. -/
def jigSkipped (s : State) (c : Nat) (jr : JigRun) : State :=
  let s1 := if jr.trap || jr.halt then bumpSat s (pgCel c + 0x48)
      (if jr.sawLast && jr.fetched.isEmpty then 0 else countRest s c jr.jig.start (16384 - jr.nextIssue) jr.nextIssue)
    else s
  if jr.trap then raise s1 (pgCel c) 8 else s1

/-- R79, R106: end the running jig when nothing of it remains to issue or to complete. -/
def jigMaybeEnd (s : State) (c : Nat) : State :=
  match (cellGet s c).run with
  | none => s
  | some jr => if jigOver jr then jigSkipped (jigLeave (jigResult s c jr) c jr) c jr else s

/-! ### Fetch (R76) -/

/-- R76: fetch the next descriptor, up to 4 ahead of issue; past the 16,384th or the scratchpad the jig stops. -/
def fetchOne (s : State) (c : Nat) : State :=
  match (cellGet s c).run with
  | none => s
  | some jr =>
    if (cellGet s c).mode != .normal || s.stop.isSome || jr.sawLast || jr.stop != 0 || jr.trap || jr.halt || decide (4 ≤ jr.fetched.length) then s
    else if 16384 ≤ jr.nextFetch then setJr s c { jr with stop := rNoLast }
    else if scratchBytes s c < jr.jig.start + 64 * jr.nextFetch + 64 then setJr s c { jr with stop := rBadJig }
    else
      let a := jr.jig.start + 64 * jr.nextFetch
      match firstBad s.mems .slice (sliceA c a) 64 with
      | some u => setJr (noteUe s .slice u) c { jr with stop := rEccUncorr }
      | none =>
        let d := crd s .slice c a 64
        setJr s c { jr with fetched := jr.fetched ++ [d], nextFetch := jr.nextFetch + 1, sawLast := dLast d }

/-! ### The descriptor next to issue -/

/-- REQUIRE_BOUND of the cell (R85). -/
def requireBound (s : State) (c : Nat) : Bool := bit (rget s (pgCel c + 8)) 2

/-- A descriptor that fails at issue: it reads and writes nothing, keeps its WAIT_SEM count and signals (R104). -/
def failNext (s : State) (c : Nat) (jr : JigRun) (d : List Byte) (status reason detail : Nat) : State :=
  let jr' := { jr with
    fetched := jr.fetched.drop 1, nextIssue := jr.nextIssue + 1, prev := some (d, status), waitSince := s.now,
    lockSince := none }
  descDone s c jr' jr.nextIssue (jr.jig.start + 64 * jr.nextIssue) d status reason detail

/-- R124: the status a consumer takes over from its failed predecessor, 0 when there is none. -/
def passedStatus (jr : JigRun) (d : List Byte) : Nat :=
  match jr.prev with
  | some (p, st) => if dDtIn d && dDtOut p then st else 0
  | none => 0

/-- R104: a failure of steps 1 to 5 completes the descriptor as soon as it is next to issue; a consumer whose producer
failed makes no checks of its own and completes with the producer's status (R119, R124). -/
def settle (c : Nat) : Nat → State → State
  | 0, s => s
  | fuel + 1, s =>
    match (cellGet s c).run with
    | none => s
    | some jr =>
      if jr.trap || jr.halt || s.stop.isSome || !bit (rget s (pgCel c + 8)) 0 then s
      else match jr.fetched with
        | [] => s
        | d :: _ =>
          if passedStatus jr d ≠ 0 then settle c fuel (failNext s c jr d (passedStatus jr d) 0 0)
          else match firstFail (headerChecks (requireBound s c) d) with
          | some (r, det) => settle c fuel (failNext s c jr d (reasonStatus r) r det)
          | none => s

/-- Settle the next descriptor, then end the jig if nothing of it remains. -/
def settleEnd (s : State) (c : Nat) : State := jigMaybeEnd (settle c 5 s) c

/-- R78: the next jig starts once the previous one has ended. -/
def jigStart (s : State) (c : Nat) : State :=
  let x := cellGet s c
  match x.mode, x.run, x.queue with
  | .normal, none, j :: _ =>
    let ok := j.start % 64 == 0 && decide (j.start + 64 ≤ scratchBytes s c)
    let jr : JigRun := ⟨j, [], 0, 0, if ok then 0 else rBadJig, false, [], 0, none, s.now, none, false, false, none, []⟩
    settleEnd (fetchOne (cellPut s c { x with run := some jr }) c) c
  | _, _, _ => s

/-! ### Issue (R88) -/

/-- What an opcode brings to its issue: the checks of R104 by step, the regions whose extents are checked, those whose
bytes are read and those that receive results. -/
structure Plan where
  fields : List Chk
  after6 : List Chk
  regions : List Region
  overlaps : List Chk
  after8 : List Chk
  reads : List Region
  results : List Region
  deriving DecidableEq, Repr

/-- R104, steps 6 to 8 with the checks of bench-resident data. -/
def planChecks (s : State) (c : Nat) (p : Plan) : List Chk :=
  p.fields ++ p.after6 ++ p.regions.map (extentChk s c) ++ p.overlaps ++ p.regions.map (accChk s c) ++ p.after8

/-- The unit entries an issued descriptor holds. -/
def RunDesc.units (r : RunDesc) : List CUnit := if r.phase = .barged then [] else opUnits (dOp r.desc)

/-- R88: a unit has two entries; the issue stage holds one descriptor. -/
def unitFree (jr : JigRun) (u : CUnit) : Bool :=
  let n := (jr.issued.filter (fun r => r.units.contains u)).length
  if u = .issue then n == 0 else decide (n < 2)

/-- The issue stage is free (R88: FENCE, TTWAIT and LAYER_FENCE occupy it until they complete). -/
def issueStageFree (jr : JigRun) : Bool := unitFree jr .issue

/-- R147: while a micro-program load is in progress, descriptors of the vector engine and the SFU are held. -/
def mpHolds (x : Cell) (d : List Byte) : Bool :=
  x.mpLoad.isSome && (opUnits (dOp d)).any (fun u => u == .vector || u == .sfu)

/-- The next descriptor of a cell, if the cell may issue it and it has the given opcode. -/
def nextOp (s : State) (c op : Nat) : Option (JigRun × List Byte) :=
  let x := cellGet s c
  match x.mode, x.run with
  | .normal, some jr =>
    match jr.fetched with
    | d :: _ =>
      if dOp d = op && s.stop.isNone && bit (rget s (pgCel c + 8)) 0 && !jr.trap && !jr.halt && issueStageFree jr && !mpHolds x d then some (jr, d)
      else none
    | [] => none
  | _, _ => none

/-- R80: the WAIT_SEM of a descriptor is satisfied. -/
def semReady (s : State) (c : Nat) (d : List Byte) : Bool :=
  if dWait d < 64 then decide (1 ≤ rget s (semAddr c (dWait d))) else true

/-- R119: a producer issues only after its successor has been fetched. -/
def successorKnown (jr : JigRun) (d : List Byte) : Bool :=
  !dDtOut d || dLast d || decide (2 ≤ jr.fetched.length) || jr.stop != 0

/-- R215: a state move and an RSTEP of one cell never run at the same time. -/
def interlocked (jr : JigRun) (d : List Byte) : Bool :=
  let op := dOp d
  jr.issued.any (fun r => if op == 0x04 then dOp r.desc == 0x13 || dOp r.desc == 0x14
    else (op == 0x13 || op == 0x14) && dOp r.desc == 0x04)

/-- R215: note when the next descriptor begins to wait at the interlock. -/
def noteLock (s : State) (c : Nat) (jr : JigRun) (d : List Byte) : State :=
  if interlocked jr d && semReady s c d && jr.lockSince.isNone then setJr s c { jr with lockSince := some s.now } else s

/-- What the issue logic decides for the next descriptor. -/
inductive IssueRes where
  | stay
  | fail (reason detail : Nat)
  | go
  deriving DecidableEq, Repr

/-- R88, R104: decide the issue of descriptor `d` under the plan `p` and the dovetail checks `dt` of step 9. -/
def issueTest (s : State) (c : Nat) (jr : JigRun) (d : List Byte) (p : Plan) (dt : List Chk) : IssueRes :=
  if passedStatus jr d ≠ 0 then .stay
  else match firstFail (headerChecks (requireBound s c) d) with
  | some (r, det) => .fail r det
  | none =>
    if !(semReady s c d && (opUnits (dOp d)).all (unitFree jr) && successorKnown jr d) || interlocked jr d then .stay
    else match firstFail (planChecks s c p ++ dt) with
      | some (r, det) => .fail r det
      | none => .go

/-- R80, R88, R551: the descriptor issues: its WAIT_SEM is decremented, it takes its unit entries, the next one moves up. -/
def takeIssue (s : State) (c : Nat) (jr : JigRun) (d : List Byte) (aux : Nat) : State :=
  let s0 := traceIssue s c d jr.jig.id jr.nextIssue
  let s1 := if dWait d < 64 then semDec s0 c (dWait d) else s0
  let r : RunDesc := ⟨jr.nextIssue, jr.jig.start + 64 * jr.nextIssue, d, s.now, s.now, .queued, 0, 0, 0, [], false, 0, aux⟩
  let s2 := match jr.lockSince with
    | some t => bumpSat s1 (pgState c + 0x48) (cyclesOf (s.now - t))
    | none => s1
  perfBump (setJr s2 c { jr with
    issued := jr.issued ++ [r], fetched := jr.fetched.drop 1, nextIssue := jr.nextIssue + 1,
    prev := some (d, 0), waitSince := s.now, lockSince := none }) c 0x50 1

/-! ### Running -/

/-- What running a descriptor gives: the state with its events, the bytes it writes, how it ends, the result regions
whose contents a failure leaves undefined, and whether it is finished or waits on another unit. -/
structure RunOut where
  st : State
  writes : List (Space × Nat × List Byte)
  status : Nat
  reason : Nat
  detail : Nat
  scramble : List Region
  phase : Phase
  deriving DecidableEq, Repr

/-- A descriptor that ran to its end. -/
def ranOk (s : State) (ws : List (Space × Nat × List Byte)) : RunOut := ⟨s, ws, 0, 0, 0, [], .ran⟩

/-- A descriptor that failed while running. -/
def ranFail (s : State) (ws : List (Space × Nat × List Byte)) (reason detail : Nat) (rs : List Region) : RunOut :=
  ⟨s, ws, reasonStatus reason, reason, detail, rs, .ran⟩

/-- A descriptor that waits on another unit. -/
def ranWait (s : State) : RunOut := ⟨s, [], 0, 0, 0, [], .waiting⟩

/-- The former contents of the 128-byte words a write touches, for those not yet recorded (R104). -/
def undoOf (s : State) (u : List (Space × Nat × List Byte)) (w : Space × Nat × List Byte) : List (Space × Nat × List Byte) :=
  let lo := w.2.1 / 128
  let n := (w.2.1 + w.2.2.length + 127) / 128 - lo
  u ++ ((List.range n).filter (fun i => !(u.any (fun e => e.1 == w.1 && e.2.1 == 128 * (lo + i))))).map
    (fun i => (w.1, 128 * (lo + i), rd s w.1 (128 * (lo + i)) 128))

/-- Apply result writes, keeping the former words. -/
def applyWrites (s : State) (ws : List (Space × Nat × List Byte)) : State × List (Space × Nat × List Byte) :=
  ws.foldl (fun p w => (wr p.1 w.1 w.2.1 w.2.2, undoOf p.1 p.2 w)) (s, [])

/-- R104: after a failure each 128-byte word of a result region keeps its bytes or holds bytes no rule states. -/
def scrambleSpan (sp : Space) (n : Nat) : Nat → Nat → State → State
  | 0, _, s => s
  | fuel + 1, a, s =>
    if n = 0 then s
    else
      let k := min n (128 - a % 128)
      let (b, s1) := freeBelow 2 s
      let (bs, s2) := freeBytes k s1
      let s3 := if b = 0 then s2 else wr s2 sp a bs
      if k < n then scrambleSpan sp (n - k) fuel (a + k) s3 else s3

/-- R104 for every row of the result regions of a failed descriptor of cell `c`. -/
def scrambleRegions (c : Nat) (rs : List Region) (s : State) : State :=
  rs.foldl (fun t r => r.spans.foldl (fun u x => scrambleSpan r.sp x.2 (x.2 / 128 + 2) (cellAddr r.sp c x.1) u) t) s

/-- Change one issued descriptor of a cell. -/
def updIssued (s : State) (c idx : Nat) (f : RunDesc → RunDesc) : State :=
  match (cellGet s c).run with
  | none => s
  | some jr => setJr s c { jr with issued := jr.issued.map (fun r => if r.idx = idx then f r else r) }

/-- Record the outcome of running descriptor `idx`. -/
def putRun (c idx : Nat) (o : RunOut) : State :=
  let (s1, u) := applyWrites o.st o.writes
  let s2 := scrambleRegions c o.scramble s1
  updIssued s2 c idx (fun r => { r with
    phase := o.phase, status := o.status, reason := o.reason, detail := o.detail, undo := r.undo ++ u, since := s2.now })

/-- R107: an uncorrectable error that recurs in one 128-byte bench or accumulator word of one jig is a cell fault. -/
def cellFault (s : State) (c : Nat) : State :=
  let s1 := cellPut s c { cellGet s c with mode := .faulted }
  raise { s1 with faults := s1.faults ++ [⟨.cell c, 0, s.sclTime⟩] } (pgCelErr c) 2

/-- The outcome of an uncorrectable error at unit `u` met by a descriptor (R70, R75, R107). -/
def hitUe (s : State) (c : Nat) (sp : Space) (u : Nat) : State :=
  let s1 := noteUe s sp u
  match sp, (cellGet s1 c).run with
  | .bench, some jr | .acc, some jr =>
    if jr.eccWords.contains (sp, u / 4) then cellFault s1 c
    else setJr s1 c { jr with eccWords := (sp, u / 4) :: jr.eccWords }
  | _, _ => s1

/-- ECC of the bytes a descriptor reads: never-written units are noted, the first uncorrectable unit fails it. -/
def readEcc (s : State) (c : Nat) : List Region → State × Bool
  | [] => (s, true)
  | r :: t =>
    match (r.spans.filterMap (fun x => firstBad s.mems r.sp (cellAddr r.sp c x.1) x.2)).head? with
    | some u => (hitUe s c r.sp u, false)
    | none =>
      match (r.spans.filterMap (fun x => firstNever s.mems r.sp (cellAddr r.sp c x.1) x.2)).head? with
      | some u => readEcc (noteNever s r.sp u) c t
      | none => readEcc s c t

/-- Run a descriptor whose reads are `p.reads`: it fails with ECC_UNCORR on a bad unit, else `go` computes its result. -/
def withReads (s : State) (c : Nat) (p : Plan) (go : State → RunOut) : RunOut :=
  match readEcc s c p.reads with
  | (s1, true) => go s1
  | (s1, false) => ranFail s1 [] rEccUncorr 0 p.results

/-- R88, R122: the entries an issued descriptor must wait for before it starts: an earlier one of a unit it shares, or
its dovetail producer. -/
def blocked (l : List RunDesc) (r : RunDesc) : Bool :=
  l.any (fun q => decide (q.idx < r.idx) && q.phase != .ran &&
    (q.units.any r.units.contains || (dDtIn r.desc && q.idx + 1 == r.idx)))

/-- The first issued descriptor that may start. -/
def startable (s : State) (c : Nat) : Option RunDesc :=
  match (cellGet s c).run with
  | none => none
  | some jr => jr.issued.find? (fun r => r.phase == .queued && !blocked jr.issued r)

/-- R124: the status an issued consumer takes from its producer, 0 when the producer did not fail. -/
def producerStatus (s : State) (c : Nat) (r : RunDesc) : Nat :=
  if !dDtIn r.desc then 0
  else if r.dtStatus ≠ 0 then r.dtStatus
  else match (cellGet s c).run with
    | none => 0
    | some jr => match jr.issued.find? (fun q => q.idx + 1 == r.idx) with
      | some q => if dDtOut q.desc then q.status else 0
      | none => 0

/-! ### Completion (R79, R88, R104, R106) -/

/-- A running descriptor may complete: it ran, and every earlier entry of its units has completed (R88). -/
def completable (l : List RunDesc) (r : RunDesc) : Bool :=
  r.phase == .ran && !(l.any (fun q => decide (q.idx < r.idx) && q.units.any r.units.contains))

/-- R104: cutting a descriptor short leaves each of its 128-byte words as it wrote it or as it was. -/
def unwind (us : List (Space × Nat × List Byte)) (s : State) : State :=
  us.foldl (fun t u => let (b, t1) := freeBelow 2 t
    if b = 0 then t1 else wr t1 u.1 u.2.1 u.2.2) s

/-- R88: descriptor `idx` of cell `c` completes with its status and frees its entries. -/
def completeIdx (s : State) (c idx : Nat) : State :=
  match (cellGet s c).run with
  | none => s
  | some jr =>
    match jr.issued.find? (fun r => r.idx == idx) with
    | none => s
    | some r =>
      let jr1 := { jr with
        issued := (jr.issued.filter (fun q => q.idx != idx)).map (fun q =>
          if q.idx = idx + 1 ∧ dDtOut r.desc = true ∧ dDtIn q.desc = true then { q with dtStatus := r.status } else q)
        prev := match jr.prev with
          | some (p, st) => some (p, if idx + 1 = jr.nextIssue then r.status else st)
          | none => none }
      descDone s c jr1 idx r.addr r.desc r.status r.reason r.detail

/-- End a waiting or running descriptor with a status of its own (TIMEOUT, a mismatch). -/
def endWith (s : State) (c idx status reason detail : Nat) : State :=
  completeIdx (updIssued s c idx (fun r => { r with phase := .ran, status := status, reason := reason, detail := detail })) c idx

/-- The issued descriptor `idx` of a cell. -/
def issuedAt (s : State) (c idx : Nat) : Option RunDesc :=
  match (cellGet s c).run with
  | none => none
  | some jr => jr.issued.find? (fun r => r.idx == idx)

/-- The STATE field of a cell (R108). -/
def cellState (s : State) (c : Nat) : Nat :=
  let x := cellGet s c
  match x.mode with
  | .trapped => 3
  | .faulted => 4
  | .resetting => 5
  | .normal =>
    match x.run with
    | none => 0
    | some jr =>
      if !issueStageFree jr then 2
      else match jr.fetched with
        | d :: _ => if semReady s c d then 1 else if jr.issued.isEmpty then 2 else 1
        | [] => 1

end Sys2Proof.Machine
end

