-- ==== Sys2Proof/Machine/Mma.lean ====
section
/-!
DEFINITION. Machine/Mma.lean: MMA (R65 to R67, R69, R73, R74, R91 to R94, R111 to R117), MITRE (R129 to R133) and the
dovetail checks and layouts (R118 to R121).
Log entries that code here: 22 (DEDUCED, unsafe), 24 (DEDUCED, unsafe), 41 (DEDUCED, unsafe).
-/

namespace Sys2Proof.Machine

/-- The fields that an MMA and a MITRE share as producers and writers of a tile. -/
structure Tile where
  m : Nat
  n : Nat
  outFmt : Nat
  gang : Bool
  init : Nat
  outAcc : Bool
  round : Nat
  outAddr : Nat
  initAddr : Nat
  beta : Nat
  outPitch : Nat
  roundCtx : Nat
  deriving DecidableEq, Repr

/-- The tile of an MMA (R91, R92) or of a MITRE (R129, R130). -/
def tileOf (d : List Byte) : Tile :=
  if dOp d = 0x0D then
    let mode := byteAt d 16
    ⟨fld d 8 2, fld d 10 2, byteAt d 15, bit mode 0, bits mode 2 1, bit mode 5, bits mode 7 6, fld d 28 4, fld d 32 4,
      fld d 36 4, fld d 40 2, fld d 44 4⟩
  else
    let mode := byteAt d 19
    ⟨fld d 8 2, fld d 10 2, byteAt d 18, bit mode 0, bits mode 2 1, bit mode 5, bits mode 7 6, fld d 28 4, fld d 32 4,
      fld d 48 4, fld d 52 2, fld d 56 4⟩

/-- BM, BN and the skew group G of a mode (R65, R73). -/
def blockM (gang : Bool) : Nat := if gang then 64 else 128
def blockN (gang : Bool) : Nat := if gang then 64 else 32
def skewG (gang : Bool) : Nat := if gang then 64 else 32

/-- Rows and columns that the output region covers: padded to whole blocks with MASKED (R113). -/
def outRows (t : Tile) (masked : Bool) : Nat := if masked then roundUp t.m (blockM t.gang) else t.m
def outCols (t : Tile) (masked : Bool) : Nat := if masked then roundUp t.n (blockN t.gang) else t.n

/-- The successor of the descriptor next to issue, when it has been fetched. -/
def successor (jr : JigRun) : Option (List Byte) := jr.fetched[1]?

/-- The result goes to an MMA through a dovetail, in the skewed layout (R118, R120). -/
def dtToMma (jr : JigRun) (d : List Byte) : Bool :=
  dDtOut d && match successor jr with
    | some q => dOp q == 0x01
    | none => false

/-- The skewed result region of R120. -/
def dtRegion (t : Tile) : Region :=
  flat .bench t.outAddr (ceilDiv t.m (blockM t.gang) * (t.n + skewG t.gang - 1) * t.outPitch)

/-- The output region of a tile (R113, R114). -/
def outRegion (t : Tile) (masked toMma : Bool) : Region :=
  if toMma then dtRegion t
  else ⟨benchOrAcc t.outAcc, t.outAddr, outRows t masked, t.outPitch, outCols t masked * codeBytes t.outFmt⟩

/-- The initial-value region (R91, R92, R114), if there is one. -/
def initRegion (t : Tile) : List Region :=
  let sp := benchOrAcc (bit t.initAddr 31)
  let a := t.initAddr % 0x80000000
  if t.init = 1 then [flat sp a (4 * t.n)]
  else if t.init = 2 then [flat sp a (t.m * (ceilDiv (4 * t.n) 32 * 32))]
  else []

/-- R93: the initial-value region coincides exactly with the output region. -/
def initCoincides (t : Tile) (masked : Bool) : Bool :=
  bit t.initAddr 31 == t.outAcc && t.initAddr % 0x80000000 == t.outAddr && (t.outFmt == 0x00 || t.outFmt == 0x21) && !masked &&
    ((t.init == 2 && t.outPitch == ceilDiv (4 * t.n) 32 * 32) || (t.init == 1 && t.m == 1))

/-- The initial value of element (m, n) as binary32 bits, or as an integer for integer data (R56, R92). -/
def initBits (s : State) (c : Nat) (t : Tile) (m n : Nat) : Nat :=
  let sp := benchOrAcc (bit t.initAddr 31)
  let a := t.initAddr % 0x80000000
  if t.init = 1 then crdN s sp c (a + 4 * n) 4
  else if t.init = 2 then fmul t.beta (crdN s sp c (a + m * (ceilDiv (4 * t.n) 32 * 32) + 4 * n) 4)
  else 0

/-- The writes of a tile of encoded elements, row-major, padded with zeros under MASKED (R113, R93). -/
def plainWrites (c : Nat) (t : Tile) (masked : Bool) (el : Nat → Nat → Nat) : List (Space × Nat × List Byte) :=
  let w := codeBytes t.outFmt
  let sp := benchOrAcc t.outAcc
  (List.range (outRows t masked)).map (fun m =>
    (sp, cellAddr sp c (t.outAddr + m * t.outPitch),
      (List.range (outCols t masked)).flatMap (fun n => leBytes w (if m < t.m ∧ n < t.n then el m n else 0))))

/-- The writes of a tile into the skewed operand A of a consumer with K = N (R73, R120): lanes at or above M are left, or
zero under MASKED. -/
def skewWrites (c : Nat) (t : Tile) (masked : Bool) (el : Nat → Nat → Nat) : List (Space × Nat × List Byte) :=
  let w := codeBytes t.outFmt
  let bm := blockM t.gang
  let g := skewG t.gang
  (List.range (ceilDiv t.m bm)).flatMap (fun i =>
    let lanes := if masked then min (roundUp t.m bm - i * bm) bm else min (t.m - i * bm) bm
    (List.range (t.n + g - 1)).map (fun ln =>
      (Space.bench, benchA c (t.outAddr + (i * (t.n + g - 1) + ln) * t.outPitch),
        (List.range lanes).flatMap (fun r =>
          let k := ln - r % g
          leBytes w (if r % g ≤ ln ∧ k < t.n ∧ i * bm + r < t.m then el (i * bm + r) k else 0)))))

/-- The result writes of a tile and the events of its conversions. -/
def tileWrites (c : Nat) (t : Tile) (masked toMma : Bool) (res : List (List (Nat × Nat))) :
    List (Space × Nat × List Byte) × Nat :=
  let el := fun m n => (((res[m]?).getD [])[n]?.getD (0, 0)).1
  (if toMma then skewWrites c t masked el else plainWrites c t masked el,
    res.foldl (fun a row => row.foldl (fun b p => b ||| p.2) a) 0)

/-- Checks of the fields an MMA and a MITRE share: OUT_FMT, INIT, ROUND, OUT_DEST (R91, R92, R130). -/
def tileModeChecks (d : List Byte) (t : Tile) (isInt : Bool) : List Chk :=
  [ chkFmt (if isInt then !(t.outFmt == 0x20 || t.outFmt == 0x21)
      else !(t.outFmt == 0 || t.outFmt == 1 || t.outFmt == 2 || t.outFmt == 0x10 || t.outFmt == 0x11)),
    chkLay d (t.round != 0),
    chkFmt (t.init == 3), chkFmt (isInt && t.init == 2), chkFmt (decide (2 ≤ t.round)),
    chkFmt (t.round == 1 && !(t.outFmt == 2 || t.outFmt == 0x10 || t.outFmt == 0x11)),
    chkFmt (t.outAcc && !(t.outFmt == 0 || t.outFmt == 0x21)) ]

/-- Checks of OUT_ADDR and INIT_ADDR (R91). -/
def tileAddrChecks (t : Tile) : List Chk :=
  [ chkAlign t.outAddr 32,
    chkZero (t.init == 0 && t.initAddr != 0), chkZero (bits t.initAddr 30 20 != 0), chkAlign (t.initAddr % 0x80000000) 32 ]

/-- Checks of OUT_PITCH (R91, R113). -/
def pitchChecks (t : Tile) (masked toMma : Bool) : List Chk :=
  [ chkAlign t.outPitch 32,
    chkShape (decide (t.outPitch < (if toMma then t.n else outCols t masked) * codeBytes t.outFmt)) ]

/-! ### MMA -/

/-- The operand side of an MMA (R91). -/
structure MmaOps where
  k : Nat
  aFmt : Nat
  bFmt : Nat
  bSrc : Nat
  aAddr : Nat
  bAddr : Nat
  aPitch : Nat
  bPitch : Nat
  aScale : Nat
  bScale : Nat
  aT : Nat
  bT : Nat
  group : Nat
  mask : Nat
  deriving DecidableEq, Repr

/-- Read the operand fields of an MMA. -/
def mmaOps (d : List Byte) : MmaOps :=
  ⟨fld d 12 4, byteAt d 16, byteAt d 17, bits (byteAt d 19) 4 3, fld d 20 4, fld d 24 4, fld d 36 2, fld d 38 2,
    fld d 40 4, fld d 44 4, byteAt d 54, byteAt d 55, byteAt d 60, fld d 61 2⟩

/-- R49: the classes of operand formats that pair with each other: narrow 1, BF16 2, FP16 3, INT8 4, none 0. -/
def pairClass (code : Nat) : Nat :=
  if 0x10 ≤ code ∧ code ≤ 0x17 then 1 else if code = 0x02 then 2 else if code = 0x01 then 3
  else if code = 0x20 then 4 else 0

/-- The format code exists in layout 2 only (R91). -/
def fmtLay2 (code : Nat) : Bool := decide (0x12 ≤ code ∧ code ≤ 0x17) || code == 0x01

/-- The slice or bench space operand B is read from; a multicast member reads the leader's slice. -/
def mmaBSpace (o : MmaOps) : Space := if o.bSrc = 0 then .bench else .slice

/-- The skewed layout of operand B: the slice is always skewed (R93). -/
def mmaBSkew (o : MmaOps) (skew : Bool) : Bool := o.bSrc != 0 || skew

/-- R104 step 6 for an MMA. -/
def mmaFields (c : Nat) (jr : JigRun) (d : List Byte) : List Chk :=
  let t := tileOf d
  let o := mmaOps d
  let g := t.gang
  let ba := codeBits o.aFmt
  let bb := codeBits o.bFmt
  let isInt := o.aFmt == 0x20
  let skew := dSkew d
  [ chkShape (decide (t.m < 1 ∨ 512 < t.m)), chkShape (decide (t.n < 1 ∨ 512 < t.n)), chkShape (decide (65536 < o.k)),
    chkLay d (fmtLay2 o.aFmt), chkFmt (pairClass o.aFmt == 0),
    chkLay d (fmtLay2 o.bFmt), chkFmt (pairClass o.bFmt != pairClass o.aFmt),
    chkLay d (t.outFmt == 0 || t.outFmt == 1) ] ++
  tileModeChecks d t isInt ++
  [ chkLay d (decide (2 ≤ o.bSrc)) ] ++
  chkBenchAddr o.aAddr 32 ++
  [ chkZero (if o.bSrc = 0 then false else if o.bSrc = 2 then o.bAddr != 0 else decide (0x1000000 ≤ o.bAddr)),
    chkAlign o.bAddr 32 ] ++
  tileAddrChecks t ++
  [ chkShape (o.k != 0 && decide (o.aPitch < (if skew then ceilDiv (min t.m (blockM g) * ba) 8 else ceilDiv (o.k * ba) 8))),
    chkShape (o.k != 0 && o.bSrc != 2 &&
      decide (o.bPitch < (if mmaBSkew o skew then ceilDiv (min t.n (blockN g) * bb) 8 else ceilDiv (o.k * bb) 8))),
    chkLay d (o.aScale != 0), chkZero (!isMx o.aFmt && o.aScale != 0),
    chkLay d (o.bScale != 0), chkZero (!isMx o.bFmt && o.bScale != 0) ] ++
  pitchChecks t (dMasked d) (dtToMma jr d) ++
  [ chkLay d (o.aT != 0), chkZero (o.aFmt != 0x17 && o.aT != 0),
    chkLay d (o.bT != 0), chkZero (o.bFmt != 0x17 && o.bT != 0),
    chkLay d (t.roundCtx != 0), chkZero (t.round != 1 && t.roundCtx != 0), chkAlign t.roundCtx 32,
    chkLay d (o.group != 0), chkZero (decide (8 ≤ o.group)),
    chkLay d (o.mask != 0), chkShape (decide (2 ≤ o.bSrc) && !bit o.mask (c % 16)),
    chkZero (byteAt d 63 != 0) ]

/-- The A, B, scale and rounding-context regions of R114; with K = 0 the operand regions are not read (R116). -/
def mmaReads (d : List Byte) : List Region :=
  let t := tileOf d
  let o := mmaOps d
  let g := skewG t.gang
  let skew := dSkew d
  (if o.k = 0 then [] else
    [ flat .bench o.aAddr (if skew then ceilDiv t.m (blockM t.gang) * (o.k + g - 1) * o.aPitch else t.m * o.aPitch) ] ++
    (if o.bSrc = 2 then [] else
      [ flat (mmaBSpace o) o.bAddr
          (if mmaBSkew o skew then ceilDiv t.n (blockN t.gang) * (o.k + g - 1) * o.bPitch else t.n * o.bPitch) ]) ++
    (if isMx o.aFmt then [flat .bench o.aScale (t.m * ceilDiv o.k 32)] else []) ++
    (if isMx o.bFmt then [flat .bench o.bScale (t.n * ceilDiv o.k 32)] else [])) ++
  (if t.round = 1 then [flat .bench t.roundCtx 32] else [])

/-- The issue plan of an MMA (R91, R114). -/
def mmaPlan (c : Nat) (jr : JigRun) (d : List Byte) : Plan :=
  let t := tileOf d
  let out := outRegion t (dMasked d) (dtToMma jr d)
  let rds := mmaReads d
  let ini := initRegion t
  ⟨mmaFields c jr d, [], rds ++ ini ++ [out],
    [(rds.any out.meets, rUnitCheck, dMmOverlap),
     (ini.any out.meets && !initCoincides t (dMasked d), rUnitCheck, dMmOverlap)],
    [], rds ++ ini, [out]⟩

/-- The K indices of block pair `j` of chunk `ch` that form products (`ok`; a padded tap of a CONV forms none, R270). -/
def pairIdx (k ch j : Nat) (ok : Nat → Bool) : List Nat := (List.range 32).filterMap (fun i =>
  let x := 256 * ch + 32 * j + i
  if x < k ∧ ok x = true then some x else none)

/-- The binary32 result of one chunk of a narrow or wide reduction, given the element and scale readers (R49 to R53). -/
def chunkResult (fa fb k ch : Nat) (ok : Nat → Bool) (a b : Nat → Nat) (sa sb : Nat → Nat) (ta tb : Nat) : Nat × Nat :=
  match fmtOf fa, fmtOf fb with
  | some ea, some eb =>
    if pairClass fa = 1 then
      let bps := (List.range 8).filterMap (fun j =>
        let ix := pairIdx k ch j ok
        if ix.isEmpty then none else
          let xa := if isMx fa then sa (8 * ch + j) else if fa = 0x17 then ta else 127
          let xb := if isMx fb then sb (8 * ch + j) else if fb = 0x17 then tb else 127
          some (BlockPair.mk (ix.map (fun i => elemVal ea (a i))) (ix.map (fun i => elemVal eb (b i)))
            ((xa : Int) - 127 + ((xb : Int) - 127)) (xa == 255 || xb == 255)))
      narrowChunk (elemFmt ea) (elemFmt eb) bps
    else
      let ix := (List.range 256).filterMap (fun i => if 256 * ch + i < k ∧ ok (256 * ch + i) = true then some (256 * ch + i) else none)
      (wideChunk (ix.map (fun i => elemVal ea (a i))) (ix.map (fun i => elemVal eb (b i))), 0)
  | _, _ => (0, 0)

/-- The exact integer sum of INT8 products (R54). -/
def int8Sum (k : Nat) (a b : Nat → Nat) : Int :=
  (List.range k).foldl (fun x i => x + toSigned 8 (a i) * toSigned 8 (b i)) 0

/-- R54 to R56: one output element: reduction, initial value, one conversion. `sr` as in R47. -/
def reduceElem (fa fb k : Nat) (a b sa sb : Nat → Nat) (ta tb init outFmt : Nat) (sr : Option Nat) : Nat × Nat :=
  if fa = 0x20 then
    encodeInt (codeBits outFmt) (ofInt (int8Sum k a b + toSigned 32 init))
  else
    let rs := (List.range (ceilDiv k 256)).map (fun ch => chunkResult fa fb k ch (fun _ => true) a b sa sb ta tb)
    let (e, ev) := convertTo outFmt sr (treeWithInit init (rs.map (·.1)))
    (e, rs.foldl (fun x p => x ||| p.2) ev)

/-- R67, R91: every element of an MMA of cell `c` with operand B of cell `cb` at `bAddr`, `bPitch` (R69). -/
def mmaResult (s : State) (c cb bAddr bPitch : Nat) (d : List Byte) : List (List (Nat × Nat)) :=
  let t := tileOf d
  let o := mmaOps d
  let g := skewG t.gang
  let ctx := readRound s c t.roundCtx
  let nb := ceilDiv o.k 32
  (List.range t.m).map (fun m => (List.range t.n).map (fun n =>
    reduceElem o.aFmt o.bFmt o.k
      (fun k => laneElem s .bench c o.aAddr o.aPitch (codeBits o.aFmt) (blockM t.gang) g o.k (dSkew d) m k)
      (fun k => laneElem s (mmaBSpace o) cb bAddr bPitch (codeBits o.bFmt) (blockN t.gang) g o.k (mmaBSkew o (dSkew d)) n k)
      (fun j => crdN s .bench c (o.aScale + m * nb + j) 1) (fun j => crdN s .bench c (o.bScale + n * nb + j) 1)
      o.aT o.bT (initBits s c t m n) t.outFmt (srAt (t.round == 1) ctx m n)))

/-- R74: a plain-layout operand raises UNSKEWED_READ. -/
def unskewed (s : State) (c : Nat) (d : List Byte) : State := if dSkew d then s else raise s (pgArrays c) 0x100

/-- The result of an MMA: its writes and its arithmetic events (R62). `toMma` is fixed by the successor at issue. -/
def mmaFinish (s : State) (c cb bAddr bPitch : Nat) (toMma : Bool) (d : List Byte) : RunOut :=
  let (ws, ev) := tileWrites c (tileOf d) (dMasked d) toMma (mmaResult s c cb bAddr bPitch d)
  ranOk (arithArrays (unskewed s c d) c ev) ws

/-! ### MITRE (R129 to R133) -/

/-- R104 step 6 for a MITRE. -/
def mitreFields (jr : JigRun) (d : List Byte) : List Chk :=
  let t := tileOf d
  let parts := fld d 12 2
  let inFmt := byteAt d 14
  let inPitch := fld d 18 2
  let pAddr := fld d 20 4
  let stride := fld d 24 4
  [ chkShape (decide (t.m < 1 ∨ 512 < t.m)), chkShape (decide (t.n < 1 ∨ 512 < t.n)),
    chkShape (decide (parts < 1 ∨ 256 < parts)), chkFmt (!(inFmt == 0x00 || inFmt == 0x21)) ] ++
  tileModeChecks d t (inFmt == 0x21) ++
  [ chkZero (bits (byteAt d 16) 4 3 != 0), chkZero (byteAt d 17 != 0),
    chkAlign inPitch 32, chkShape (decide (inPitch < 4 * t.n)),
    chkZero (bits pAddr 30 20 != 0), chkAlign (pAddr % 0x80000000) 32,
    chkAlign stride 32, chkShape (decide (stride < (t.m - 1) * inPitch + 4 * t.n)) ] ++
  tileAddrChecks t ++ pitchChecks t (dMasked d) (dtToMma jr d) ++
  [ chkZero (!zeroAt d 42 2), chkZero (t.round != 1 && t.roundCtx != 0), chkAlign t.roundCtx 32, chkZero (!zeroAt d 48 16) ]

/-- The partial regions of a MITRE: NPARTS × PART_STRIDE bytes (R133). -/
def mitreParts (d : List Byte) : Region :=
  flat (benchOrAcc (bit (fld d 20 4) 31)) (fld d 20 4 % 0x80000000) (fld d 12 2 * fld d 24 4)

/-- R133: the output coincides exactly with partial 0. -/
def mitreCoincides (d : List Byte) : Bool :=
  let t := tileOf d
  bit (fld d 20 4) 31 == t.outAcc && fld d 20 4 % 0x80000000 == t.outAddr && (t.outFmt == 0x00 || t.outFmt == 0x21) &&
    t.outPitch == fld d 18 2 && !dMasked d

/-- The issue plan of a MITRE. -/
def mitrePlan (jr : JigRun) (d : List Byte) : Plan :=
  let t := tileOf d
  let out := outRegion t (dMasked d) (dtToMma jr d)
  let ini := initRegion t
  let rc := if t.round = 1 then [flat .bench t.roundCtx 32] else []
  ⟨mitreFields jr d, [], [mitreParts d] ++ ini ++ rc ++ [out],
    [(out.meets (mitreParts d) && !mitreCoincides d, rUnitCheck, dMtOverlap),
     ((ini ++ rc).any out.meets, rUnitCheck, dMtOverlap)],
    [], [mitreParts d] ++ ini ++ rc, [out]⟩

/-- R131: one element of a MITRE. -/
def mitreElem (s : State) (c : Nat) (d : List Byte) (t : Tile) (ctx : RoundCtx) (m n : Nat) : Nat × Nat :=
  let p := mitreParts d
  let v := (List.range (fld d 12 2)).map (fun q => crdN s p.sp c (p.base + q * fld d 24 4 + m * fld d 18 2 + 4 * n) 4)
  if byteAt d 14 = 0x21 then
    encodeInt (codeBits t.outFmt) (ofInt (v.foldl (fun a x => a + toSigned 32 x) (toSigned 32 (initBits s c t m n))))
  else convertTo t.outFmt (srAt (t.round == 1) ctx m n) (treeWithInit (initBits s c t m n) v)

/-- The result of a MITRE (R131). -/
def mitreRun (s : State) (c : Nat) (toMma : Bool) (d : List Byte) : RunOut :=
  let t := tileOf d
  let ctx := readRound s c t.roundCtx
  let res := (List.range t.m).map (fun m => (List.range t.n).map (fun n => mitreElem s c d t ctx m n))
  let (ws, ev) := tileWrites c t (dMasked d) toMma res
  ranOk (arithArrays s c ev) ws

/-! ### Dovetail checks (R119 to R121) -/

/-- R119, producer rows, in the order of its table. -/
def dtProducerChecks (jr : JigRun) (d : List Byte) : List Chk :=
  let t := tileOf d
  let sop := match successor jr with
    | some q => dOp q
    | none => 0
  let paired := !dLast d && match successor jr with
    | some q => dDtIn q
    | none => false
  let isTile := dOp d == 0x01 || dOp d == 0x0D
  [ (!paired, rUnitCheck, dDtUnpaired),
    (!(isTile && (sop == 0x01 || sop == 0x05)), rUnitCheck, dDtPair),
    (t.outAcc, rUnitCheck, dDtPair),
    (if sop = 0x01 then
        !(t.outFmt == 1 || t.outFmt == 2 || t.outFmt == 0x10 || t.outFmt == 0x11 || t.outFmt == 0x20) ||
          decide (t.outPitch < ceilDiv (min t.m (blockM t.gang) * codeBits t.outFmt) 8)
      else t.outPitch != t.n * codeBytes t.outFmt || dMasked d, rUnitCheck, dDtPair) ]

/-- R120, R121: the consumer's operand matches the producer's result. -/
def dtMatches (p d : List Byte) : Bool :=
  let t := tileOf p
  if dOp d = 0x01 then
    let o := mmaOps d
    o.aAddr == t.outAddr && o.aPitch == t.outPitch && o.aFmt == t.outFmt && (tileOf d).m == t.m && o.k == t.n &&
      (tileOf d).gang == t.gang && dSkew d
  else
    fld d 24 4 == t.outAddr && byteAt d 20 == t.outFmt && fld d 40 2 == 128 * codeBytes t.outFmt && fld d 16 4 == t.m * t.n

/-- The dovetail region between a producer and its consumer (R120, R121). -/
def dtLink (p d : List Byte) : Region :=
  if dOp d = 0x01 then dtRegion (tileOf p) else outRegion (tileOf p) false false

/-- R119, consumer rows, in the order of its table. -/
def dtConsumerChecks (jr : JigRun) (d : List Byte) (results : List Region) : List Chk :=
  [ (!(dOp d == 0x01 || dOp d == 0x05), rUnitCheck, dDtPair),
    (match jr.prev with
      | some (p, _) => !dDtOut p
      | none => true, rUnitCheck, dDtUnpaired) ] ++
  match jr.prev with
  | some (p, _) =>
    [ (!dtMatches p d, rUnitCheck, dDtMismatch), (results.any (dtLink p d).meets, rUnitCheck, dDtOverlap) ]
  | none => []

/-- Step 9 of R104. -/
def dtChecks (jr : JigRun) (d : List Byte) (results : List Region) : List Chk :=
  (if dDtOut d then dtProducerChecks jr d else []) ++ (if dDtIn d then dtConsumerChecks jr d results else [])

end Sys2Proof.Machine
end

