-- ==== Sys2Proof/Machine/Tiers.lean ====
section
/-!
DEFINITION. Machine/Tiers.lean: the memory of a partition: granules and their addresses (R287), cache lines (R283 to
R286), accesses with their ECC (R285, R290), partition faults (R516).
Log entries that code here: 9 (DESIGN CHOICE, unsafe), 20 (DESIGN CHOICE, unsafe), 43 (DEDUCED, unsafe), 46 (DEDUCED, unsafe), 48 (DEDUCED,
unsafe), 109 (DEDUCED, unsafe).
-/

namespace Sys2Proof.Machine

/-! ### Partitions -/

/-- A partition. -/
def partGet (s : State) (p : Nat) : Part := tabGet (fun _ => partNone) s.parts p

/-- Replace a partition. -/
def partPut (s : State) (p : Nat) (x : Part) : State := { s with parts := tabPut (fun _ => partNone) s.parts p x }

/-- The partition that owns a cell (R413). -/
def ownerOf (s : State) (c : Nat) : Option Nat :=
  (s.parts.find? (fun e => e.2.st != 0 && e.2.cells.contains c)).map (·.1)

/-- The physical HBM address of granule byte `b` of granule `g` on stack `st` (R287): 64 GiB a stack, 256 MiB a granule. -/
def hbmPhys (st g b : Nat) : Nat := st * 0x1000000000 + g * 0x10000000 + b

/-- R287: the HBM bytes of a partition. -/
def Part.hbmBytes (q : Part) : Nat := (q.gran.headD []).length * q.stk.length * 0x10000000

/-- R287: the physical address of partition address `a`. -/
def Part.xlate (q : Part) (a : Nat) : Option Nat :=
  let n := q.stk.length
  if n = 0 then none
  else
    let r := a / (n * 0x10000000)
    let o := a % (n * 0x10000000)
    let pos := o / 4096 % n
    match q.stk[pos]?, (q.gran[pos]?).bind (·[r]?) with
    | some st, some g => some (hbmPhys st g (o / (4096 * n) * 4096 + o % 4096))
    | _, _ => none

/-- Cut [a, a + n) at multiples of `k`. -/
def pieces (k : Nat) : Nat → Nat → Nat → List (Nat × Nat)
  | 0, _, _ => []
  | fuel + 1, a, n => if n = 0 then [] else
    let m := min n (k - a % k)
    (a, m) :: pieces k fuel (a + m) (n - m)

/-- The 4 KiB pieces of a partition range as physical ranges; none if any byte lies outside the partition (R287, R415). -/
def hphys (s : State) (p a n : Nat) : Option (List (Nat × Nat)) :=
  (pieces 4096 (n / 4096 + 2) a n).mapM (fun x => ((partGet s p).xlate x.1).map (fun y => (y, x.2)))

/-! ### HBM requests (R293) -/

/-- The request queues of a stack. -/
def hbmqGet (s : State) (st : Nat) : HbmQ := tabGet (fun _ => ⟨[], [], 0, 0, 0⟩) s.hbmq st

/-- Replace the request queues of a stack. -/
def hbmqPut (s : State) (st : Nat) (q : HbmQ) : State :=
  { s with hbmq := tabPut (fun _ => ⟨[], [], 0, 0, 0⟩) s.hbmq st q }

/-- The address of partition `p`'s weir group on a stack (R317). -/
def weiAddr (st p : Nat) : Nat := pgWei st (p / 128 % 8) + 0x40 + 16 * (p % 128)

/-- R293: `n` requests of 256 B of partition `p` arrive at a stack: into the urgent queue while the partition holds fewer
than URGENT entries there. -/
def hbmArrive (s : State) (st p n : Nat) : State :=
  if n = 0 then s
  else
    let q := hbmqGet s st
    let room := if p < 1024 then rbits s (weiAddr st p + 4) 15 12 - (q.urgent.filter (· == p)).length else 0
    let k := min n room
    hbmqPut s st { q with
      urgent := q.urgent ++ List.replicate k p
      wait := tabPut (fun _ => 0) q.wait p (tabGet (fun _ => 0) q.wait p + (n - k)) }

/-- The requests of physical ranges. -/
def physArrive (s : State) (p : Nat) (ps : List (Nat × Nat)) : State :=
  ps.foldl (fun t x => hbmArrive t (x.1 / 0x1000000000) p ((x.1 % 256 + x.2 + 255) / 256)) s

/-! ### The cache of a partition (R283 to R286) -/

/-- Sets of a cell's cache part. -/
def cacheSets (s : State) (c : Nat) : Nat := 4 * (16 - scratchBytes s c / 0x100000)

/-- R283: the home cell and the set of line `l`. -/
def lineHome (s : State) (p l : Nat) : Option (Nat × Nat) :=
  let q := partGet s p
  match q.cells[l % q.cells.length]? with
  | none => none
  | some h => if cacheSets s h = 0 then none else some (h, l / q.cells.length % cacheSets s h)

/-- The key of a set of a home cell. -/
def setKey (h st : Nat) : Nat := h * 64 + st

/-- The part of [a, a + n) that lies in line `l`. -/
def inLine (a n l : Nat) : Nat × Nat := (max a (16384 * l), min (a + n) (16384 * l + 16384) - max a (16384 * l))

/-- One lookup of [a, a + n) in line `l` (R284): a hit makes the line most recent and is counted; a miss starts a fill of
the whole line unless one is in flight. A lookup that does not allocate starts none. Reads of HBM become requests. -/
def lineLookup (s : State) (p : Nat) (alloc : Bool) (a n l : Nat) : State :=
  let direct := fun (t : State) => physArrive t p ((hphys t p (inLine a n l).1 (inLine a n l).2).getD [])
  match lineHome s p l with
  | none => direct s
  | some (h, st) =>
    let ways := tabGet (fun _ => []) s.cache (setKey h st)
    if ways.contains l then
      bumpSat { s with cache := tabPut (fun _ => []) s.cache (setKey h st) (l :: ways.filter (· != l)) } (pgSlice h + 0x60) 1
    else if !alloc then direct s
    else if s.fills.any (fun f => f.home == h && f.line == l && f.good) then s
    else
      let s1 := bumpSat { s with fills := s.fills ++ [⟨h, l, true⟩] } (pgSlice h + 0x64) 1
      physArrive s1 p ((hphys s1 p (16384 * l) 16384).getD [])

/-- The lines of a range. -/
def linesOf (a n : Nat) : List Nat :=
  if n = 0 then [] else (List.range ((a + n - 1) / 16384 + 1 - a / 16384)).map (· + a / 16384)

/-- R285: a write invalidates its lines at their homes; a fill in flight is not installed. -/
def lineInvalidate (s : State) (p l : Nat) : State :=
  match lineHome s p l with
  | none => s
  | some (h, st) =>
    { s with
        cache := tabPut (fun _ => []) s.cache (setKey h st) ((tabGet (fun _ => []) s.cache (setKey h st)).filter (· != l))
        fills := s.fills.map (fun f => if f.home = h ∧ f.line = l then { f with good := false } else f) }

/-- R284: the oldest fill of a home returns; it is installed as the most recent of its 16 ways unless a write met it. -/
def fillDone (s : State) (h l : Nat) : State :=
  match s.fills.find? (fun f => f.home == h && f.line == l), ownerOf s h with
  | some f, some p =>
    let s1 := { s with fills := s.fills.erase f }
    match lineHome s p l with
    | some (h', st) =>
      if f.good && h' == h then
        let ways := tabGet (fun _ => []) s1.cache (setKey h st)
        { s1 with cache := tabPut (fun _ => []) s1.cache (setKey h st) ((l :: ways.filter (· != l)).take 16) }
      else s1
    | none => s1
  | some f, none => { s with fills := s.fills.erase f }
  | none, _ => s

/-- The cache part of a cell is invalidated (R313, R431, R527). -/
def cacheDrop (s : State) (c : Nat) : State :=
  { s with cache := tabClear (setKey c 0) (setKey (c + 1) 0) s.cache, fills := s.fills.filter (fun f => f.home != c) }

/-- R286, R546: an uncorrectable error in the cache part: way `u / 512` of the part loses its line, which is fetched again. -/
def cacheStrike (s : State) (u : Nat) : State :=
  let c := u / 524288
  let k := (u % 524288 * 32 - scratchBytes s c) / 16384
  let ways := tabGet (fun _ => []) s.cache (setKey c (k / 16))
  match ways[k % 16]? with
  | none => s
  | some ln =>
    let s1 := { s with
      cache := tabPut (fun _ => []) s.cache (setKey c (k / 16)) (ways.filter (· != ln)), fills := s.fills ++ [⟨c, ln, true⟩] }
    let l := u * 32 % 0x1000000 / 0x400000
    let s2 := raise (bumpSat s1 (pgSram (c / 256) + 0x50 + 4 * l) 1) (pgSram (c / 256)) 2
    raise (bumpSat (bumpSat s2 (pgSlice c + 0x64) 1) (pgSlice c + 0x68) 1) (pgSlice c) 8

/-! ### Accesses to a partition's HBM -/

/-- What a read of a partition's HBM gives: the state with its events, the reason of its failure (0 for none), the bytes. -/
abbrev HRead := State × Nat × List Byte

/-- ECC of physical ranges: the first uncorrectable unit fails the read (R290); never-written units are noted (R315). -/
def physEcc (s : State) (ps : List (Nat × Nat)) : State × Bool :=
  match (ps.filterMap (fun x => firstBad s.mems .hbm x.1 x.2)).head? with
  | some u => (noteUe s .hbm u, false)
  | none => match (ps.filterMap (fun x => firstNever s.mems .hbm x.1 x.2)).head? with
    | some u => (noteNever s .hbm u, true)
    | none => (s, true)

/-- R284, R287, R290: read `n` bytes at partition address `a`; `alloc` says whether a miss allocates. -/
def hget (s : State) (p a n : Nat) (alloc : Bool) : HRead :=
  match hphys s p a n with
  | none => (s, rOutOfPartition, [])
  | some ps =>
    let s1 := (linesOf a n).foldl (fun t l => lineLookup t p alloc a n l) s
    match physEcc s1 ps with
    | (s2, false) => (s2, rEccUncorr, [])
    | (s2, true) => (s2, 0, ps.flatMap (fun x => rd s2 .hbm x.1 x.2))

/-- A plain look at a partition's bytes, with no lookup and no ECC. -/
def hpeek (s : State) (p a n : Nat) : List Byte :=
  ((hphys s p a n).getD []).flatMap (fun x => rd s .hbm x.1 x.2)

/-- A little-endian number there. -/
def hpeekN (s : State) (p a n : Nat) : Nat := leNat (hpeek s p a n)

/-- Write consecutive physical ranges. -/
def physWrite (s : State) : List (Nat × Nat) → List Byte → State
  | [], _ => s
  | (y, m) :: t, bs => physWrite (wr s .hbm y (bs.take m)) t (bs.drop m)

/-- R285, R287: write bytes at partition address `a`; none if any byte lies outside. -/
def hput (s : State) (p a : Nat) (bs : List Byte) : Option State :=
  match hphys s p a bs.length with
  | none => none
  | some ps => some ((linesOf a bs.length).foldl (fun t l => lineInvalidate t p l) (physArrive (physWrite s ps bs) p ps))

/-- The same, where the range is known to lie inside. -/
def hputD (s : State) (p a : Nat) (bs : List Byte) : State := (hput s p a bs).getD s

/-- The physical pieces of a write, for a descriptor's result list. -/
def splitBytes : List (Nat × Nat) → List Byte → List (Space × Nat × List Byte)
  | [], _ => []
  | (y, m) :: t, bs => (Space.hbm, y, bs.take m) :: splitBytes t (bs.drop m)

/-- R285, R293: what a write of a range does besides storing its bytes: its requests, and its lines invalidated. -/
def hinval (s : State) (p a n : Nat) : State :=
  (linesOf a n).foldl (fun t l => lineInvalidate t p l) (physArrive s p ((hphys s p a n).getD []))

/-- The result writes of bytes at partition address `a`. -/
def hwrites (s : State) (p a : Nat) (bs : List Byte) : List (Space × Nat × List Byte) :=
  splitBytes ((hphys s p a bs.length).getD []) bs

/-! ### Unit records (R549) -/

/-- The record of a block or region fault: code, instance and scene time; UNIT_FAULT for a fault of the unit itself. -/
def unitRecord (s : State) (pg inst code : Nat) (fault : Bool) : State :=
  raise (bumpSat (capture s pg (code + inst * 2 ^ 8) (s.sclTime % 2 ^ 32) (s.sclTime / 2 ^ 32 % 2 ^ 32) 0xFD) (pg + 0x40) 1) pg
    (if fault then 3 else 1)

/-! ### Partition faults and resets (R430, R516) -/

/-- The scene time of now (R394). -/
def sceneNow (s : State) : Nat := s.sclTime

/-- R430: a trigger with a cause starts the reset of an ACTIVE partition; one in progress is joined. -/
def startReset (s : State) (p cause : Nat) : State :=
  let q := partGet s p
  if q.st = 2 then
    partPut s p { q with st := if cause = 3 then 4 else 3, rst := some ⟨cause, sceneNow s, s.now, false, false, List.replicate 9 0⟩ }
  else if q.st = 3 ∧ cause = 3 then partPut s p { q with st := 4 }
  else s

/-- Add to counter `i` of the record of a reset in progress (R435): 0 CMDS_CANCELLED, 1 BARGES_REFUSED, 2 BARGES_CUT,
3 UNITS_DRAINED, 4 DESCS_CANCELLED, 5 JIGS_DISCARDED, 6 FAB_CANCELLED, 7 VIDEO_CANCELLED, 8 SEQ_CANCELLED. -/
def resetCount (s : State) (p i n : Nat) : State :=
  let q := partGet s p
  match q.rst with
  | none => s
  | some r => if n = 0 then s else partPut s p { q with rst := some { r with counts := r.counts.set i (r.counts.getD i 0 + n) } }

/-! ### The weight tier (R302) -/

/-- R302: the tier address of partition weight address `w`, for `n` bytes, in the active window. -/
def tierAddr (s : State) (p w n : Nat) : Option Nat :=
  let x := tabGet (fun _ => ((0, 0) : Nat × Nat)) s.wins p
  if w + n ≤ x.2 * 65536 ∧ x.1 * 65536 + w + n ≤ 16000000000000 then some (x.1 * 65536 + w) else none

/-- The address of a partition's flash weir group (R318). -/
def flsAddr (p : Nat) : Nat := pgFlsWin (p / 128 % 8) + 0x40 + 16 * (p % 128)

/-- The credit of the weir whose register group is at `w`, in units of 2^-24 byte (R292). -/
def creditGet (s : State) (w : Nat) : Int := tabGet (fun _ => 0) s.credit w

/-- Set a credit. -/
def creditPut (s : State) (w : Nat) (v : Int) : State := { s with credit := tabPut (fun _ => (0 : Int)) s.credit w v }

/-- R292, R322: a flash read of `n` bytes is charged to the partition's flash weir. -/
def flsCharge (s : State) (p n : Nat) : State :=
  if p < 1024 then
    creditPut s (flsAddr p) (creditGet s (flsAddr p) - (n * 2 ^ 24 : Nat))
  else s

/-- Read `n` bytes at partition weight address `w`. -/
def tierGet (s : State) (p w n : Nat) : HRead :=
  match tierAddr s p w n with
  | none => (s, rOutOfPartition, [])
  | some a =>
    let s1 := flsCharge s p n
    match firstBad s1.mems .tier a n with
    | some u => (noteUe s1 .tier u, rEccUncorr, [])
    | none => (s1, 0, rd s1 .tier a n)

/-- What the ECC reports while a command runs (R286 for the cache part of a slice). -/
def eccIn (s : State) (e : Ecc) : State :=
  let inCache := fun (u : Space × Nat) => u.1 == .slice && decide (scratchBytes s (u.2 / 524288) ≤ u.2 % 524288 * 32)
  (e.ue.filter inCache).foldl (fun t u => cacheStrike t u.2) (eccEnv s { e with ue := e.ue.filter (fun u => !inCache u) })

end Sys2Proof.Machine
end

