-- ==== Sys2Proof/Machine/SfuLib.lean ====
section
/-!
DEFINITION. Machine/SfuLib.lean: the special-function library of R145. The manual fixes the special cases exactly and
every other result within one ulp; here a 512-bit approximation of the exact result is computed and the result is one
of the binary32 values within one ulp of it, chosen by the free constant Config.libPick (log entry 3).
Log entries that code here: 3 (DESIGN CHOICE, safe), 130 (DESIGN CHOICE, unsafe).
-/

namespace Sys2Proof.Machine

/-- Fraction bits of the fixed-point approximations. -/
def fxP : Nat := 512

/-- π, ln 2, √(2/π) and 2/√π times 2^512. -/
def fxPi : Int := 0x3243f6a8885a308d313198a2e03707344a4093822299f31d0082efa98ec4e6c89452821e638d01377be5466cf34e90c6cc0ac29b7c97c50dd3f84d5b5b5470917
def fxLn2 : Int := 0xb17217f7d1cf79abc9e3b39803f2f6af40f343267298b62d8a0d175b8baafa2be7b876206debac98559552fb4afa1b10ed2eae35c138214427573b291169b825
def fxSqrt2Pi : Int := 0xcc42299ea1b284687e59e2805d5c717fa7053e60a24e0db1808e369004c73a5d3bf158aa88fa7b6e47eba75766e9d11bd6284ef2e17c2a264f1d32688be119ff
def fx2SqrtPi : Int := 0x120dd750429b6d11ae3a914fed7fd8688281341d7587cea2e7342b06199cc416180eb39f0b24e1e2281806c12d98f35d77a3e9ddc91c394f0e9eedf0efffd84a2

/-- 1 in fixed point. -/
def fxOne : Int := 2 ^ fxP

/-- Fixed-point product and quotient, rounded down. -/
def fxMul (a b : Int) : Int := (a * b) / fxOne
def fxDiv (a b : Int) : Int := (a * fxOne) / b

/-- A finite value in fixed point (rounded down below 2^-512). -/
def fxOf : Val → Int
  | .fin neg m e =>
    let k := e + (fxP : Nat)
    let n : Int := if 0 ≤ k then (m <<< k.toNat : Nat) else (m >>> (-k).toNat : Nat)
    if neg then -n else n
  | _ => 0

/-- A fixed-point number as a value. -/
def fxVal (x : Int) : Val := .fin (decide (x < 0)) x.natAbs (-(fxP : Nat))

/-- Σ x^i / i! from term `i` on, `t` being the previous term. -/
def expSeries (x : Int) : Nat → Int → Nat → Int
  | 0, _, _ => 0
  | fuel + 1, t, i =>
    let u := fxMul t x / i
    u + expSeries x fuel u (i + 1)

/-- e^x for a fixed-point x, |x| at most about 200. -/
def fxExp (x : Int) : Int :=
  let k := x / fxLn2
  let r := x - k * fxLn2
  let v := fxOne + expSeries r 130 fxOne 1
  if 0 ≤ k then v * 2 ^ k.toNat else v / 2 ^ (-k).toNat

/-- Σ y^(2i+1) / (2i+1) from term `i` on: atanh. -/
def atanhSeries (y2 : Int) : Nat → Int → Nat → Int
  | 0, _, _ => 0
  | fuel + 1, t, i => t / (2 * i + 1) + atanhSeries y2 fuel (fxMul t y2) (i + 1)

/-- ln (1 + y) for y > −1 not far from 0, as 2 atanh (y / (2 + y)). -/
def fxLog1p (y : Int) : Int :=
  let z := fxDiv y (2 * fxOne + y)
  2 * atanhSeries (fxMul z z) 260 z 0

/-- ln of a positive value m × 2^e. -/
def fxLog (m : Nat) (e : Int) : Int :=
  let l := m.log2
  let k : Int := (l : Int) + e
  let f : Int := ((m : Int) * fxOne) / 2 ^ l
  if fxOne * 3 / 2 ≤ f then (k + 1) * fxLn2 + fxLog1p (f / 2 - fxOne) else k * fxLn2 + fxLog1p (f - fxOne)

/-- 1 / (1 + e^−x). -/
def fxSigmoid (x : Int) : Int :=
  if 0 ≤ x then fxDiv fxOne (fxOne + fxExp (-(min x (300 * fxOne))))
  else let e := fxExp (max x (-(300 * fxOne))); fxDiv e (fxOne + e)

/-- Alternating series Σ (−1)^i x^(2i+1) / (i! (2i+1)) of erf. -/
def erfSeries (x2 : Int) : Nat → Int → Nat → Int
  | 0, _, _ => 0
  | fuel + 1, t, i => t / (2 * i + 1) + erfSeries x2 fuel (-(fxMul t x2) / (i + 1)) (i + 1)

/-- Alternating series Σ (−1)^i x^(2i+s) / (2i+s)!, the terms from `i` on. -/
def trigSeries (x2 : Int) : Nat → Int → Nat → Int
  | 0, _, _ => 0
  | fuel + 1, t, i => t + trigSeries x2 fuel (-(fxMul t x2) / ((i + 1) * (i + 2))) (i + 2)

/-- sin and cos of r in [−π/4, π/4]. -/
def fxSin (r : Int) : Int := trigSeries (fxMul r r) 60 r 1
def fxCos (r : Int) : Int := trigSeries (fxMul r r) 60 fxOne 0

/-- sin (q = 0) or cos (q = 1) of a fixed-point angle: reduce by quarter turns. -/
def fxTrig (q : Nat) (x : Int) : Int :=
  let h := fxPi / 2
  let k := (x + h / 2) / h
  let r := x - k * h
  let s := (k + q) % 4
  if s = 0 then fxSin r else if s = 1 then fxCos r else if s = 2 then -(fxSin r) else -(fxCos r)

/-- A value's magnitude is below 2^k. -/
def tiny (k : Int) : Val → Bool
  | .fin _ m e => m == 0 || decide (ilog2 m e < k)
  | _ => false

/-- The approximation of the exact result of library slot `f` for a finite non-zero argument. -/
def libApprox (f : Nat) (v : Val) : Val :=
  match v with
  | .fin neg m e =>
    let x := fxOf v
    let big := !tiny 7 v
    if f = 0x00 then (if big then (if neg then .fin false 0 0 else .fin false 1 200) else if tiny (-60) v then vadd (.fin false 1 0) v
      else fxVal (fxExp x))
    else if f = 0x01 then (if !tiny 8 v then (if neg then .fin false 0 0 else .fin false 1 200)
      else if tiny (-60) v then vadd (.fin false 1 0) (vmul v (fxVal fxLn2)) else fxVal (fxExp (fxMul x fxLn2)))
    else if f = 0x02 then fxVal (fxLog m e)
    else if f = 0x03 then fxVal (fxDiv (fxLog m e) fxLn2)
    else if f = 0x04 then vdiv (.fin false 1 0) v
    else if f = 0x05 then vdiv (.fin false 1 0) (vsqrt (.fin false (m <<< 200) (e - 200)))
    else if f = 0x06 then vsqrt v
    else if f = 0x07 then (if tiny (-60) v then v
      else let s := fxSigmoid (2 * x); fxVal (2 * s - fxOne))
    else if f = 0x08 then fxVal (fxSigmoid x)
    else if f = 0x09 then (if big && !neg then v else vmul v (fxVal (fxSigmoid x)))
    else if f = 0x0A then (if big && !neg then v else
      let xc := if big then -(200 * fxOne) else x
      let u := fxMul fxSqrt2Pi (xc + (fxMul (fxMul xc xc) xc) * 44715 / 1000000)
      vmul v (fxVal (fxSigmoid (2 * u))))
    else if f = 0x0B then (if !tiny 3 v then .fin neg (2 ^ 60 - 1) (-60)
      else if tiny (-60) v then vmul (fxVal fx2SqrtPi) v
      else fxVal (fxMul fx2SqrtPi (erfSeries (fxMul x x) 400 x 0)))
    else if f = 0x0C then (if neg then (if big then .fin false 0 0 else fxVal (fxLog1p (fxExp x)))
      else if big then v else fxVal (x + fxLog1p (fxExp (-x))))
    else if f = 0x0D then (if tiny (-60) v then v else fxVal (fxTrig 0 x))
    else if f = 0x0E then (if tiny (-60) v then .fin false (2 ^ 60 - 1) (-60) else fxVal (fxTrig 1 x))
    else .nan
  | _ => .nan

/-- A binary32 value within one ulp of the approximation: the rounded one or a neighbour, as `pick` says. -/
def nearPick (pick : Nat) (a : Val) : Nat :=
  match a with
  | .fin neg m e =>
    let (r, q) := roundTo 24 (-149) m e
    let c : Nat := if pick % 3 = 0 then r - 1 else if pick % 3 = 1 then r else r + 1
    let g := min q e
    let d : Int := ((c <<< (q - g).toNat : Nat) : Int) - ((m <<< (e - g).toNat : Nat) : Int)
    let ok := d.natAbs ≤ 1 <<< (q - g).toNat
    enc32 (.fin neg (if ok then c else r) q)
  | v => enc32 v

/-- The exact power of two of a positive value, if it is one (R145: exp2 and log2). -/
def exactLog2 (m : Nat) (e : Int) : Option Int := if m = 2 ^ m.log2 then some ((m.log2 : Nat) + e) else none

/-- The special cases of R145, exact. -/
def libSpecial (f : Nat) (v : Val) : Option Nat :=
  let one := 0x3F800000
  let pinf := 0x7F800000
  let ninf := 0xFF800000
  match v with
  | .nan => some nan32
  | .inf neg =>
    if f = 0x00 ∨ f = 0x01 then some (if neg then 0 else pinf)
    else if f = 0x02 ∨ f = 0x03 ∨ f = 0x06 then some (if neg then nan32 else pinf)
    else if f = 0x04 then some (if neg then 0x80000000 else 0)
    else if f = 0x05 then some (if neg then nan32 else 0)
    else if f = 0x07 ∨ f = 0x0B then some (if neg then 0xBF800000 else one)
    else if f = 0x08 then some (if neg then 0 else one)
    else if f = 0x09 ∨ f = 0x0A then some (if neg then 0x80000000 else pinf)
    else if f = 0x0C then some (if neg then 0 else pinf)
    else some nan32
  | .fin neg m e =>
    if m = 0 then
      let same := if neg then 0x80000000 else 0
      if f = 0x00 ∨ f = 0x01 ∨ f = 0x0E then some one
      else if f = 0x02 ∨ f = 0x03 then some ninf
      else if f = 0x04 ∨ f = 0x05 then some (if neg then ninf else pinf)
      else if f = 0x08 then some 0x3F000000
      else if f = 0x0C then none
      else some same
    else if neg && (f == 0x02 || f == 0x03 || f == 0x05 || f == 0x06) then some nan32
    else if f = 0x01 then
      let i := vadd v (.fin false 0 0)
      match i with
      | .fin _ m e => if 0 ≤ e ∨ m % 2 ^ (-e).toNat = 0 then
          let k : Int := (if neg then -1 else 1) * (if 0 ≤ e then ((m <<< e.toNat : Nat) : Int) else ((m >>> (-e).toNat : Nat) : Int))
          if -149 ≤ k ∧ k ≤ 127 then some (enc32 (.fin false 1 k)) else none
        else none
      | _ => none
    else if f = 0x02 then (if exactLog2 m e = some 0 then some 0 else none)
    else if f = 0x03 then (exactLog2 m e).map (fun k => enc32 (ofInt k))
    else none

/-- R145: library function `f` of a binary32 argument. -/
def libFn (f x : Nat) : Nat :=
  match libSpecial f (val32 x) with
  | some r => r
  | none => nearPick (Config.libPick f x) (libApprox f (val32 x))

end Sys2Proof.Machine
end

