-- ==== Sys2Proof/Machine/Vector.lean ====
section
/-!
DEFINITION. Machine/Vector.lean: VPROG (R96, R136 to R141), SFU with library and loaded micro-programs (R142 to R151),
SOFTMAX (R152 to R157), STAT (R158, R159), RNG (R102, R103) and the micro-program store (R146 to R148, R160).
Log entries that code here: 5 (DESIGN CHOICE, safe), 6 (DEDUCED, unsafe), 27 (DEDUCED, unsafe), 28 (DEDUCED, unsafe), 41 (DEDUCED, unsafe).
-/

namespace Sys2Proof.Machine

/-! ### Vectors of 128 elements -/

/-- The byte address of element `e` of `b` bits in vectors of 128 at `base`, `stride` apart, and its bit offset (R96). -/
def vecByte (base stride b e : Nat) : Nat := base + e / 128 * stride + e % 128 * b / 8

/-- Element `e` of an input of whole-byte elements. -/
def vecElem (s : State) (c base stride code e : Nat) : Nat := crdN s .bench c (vecByte base stride (codeBits code) e) (codeBytes code)

/-- The region of `n` elements in vectors. -/
def vecRegion (base stride b n : Nat) : List Region :=
  (if n / 128 = 0 then [] else [⟨.bench, base, n / 128, stride, 16 * b⟩]) ++
  (if n % 128 = 0 then [] else [flat .bench (base + n / 128 * stride) (ceilDiv (n % 128 * b) 8)])

/-- Pack elements of `b` bits into little-endian bytes, bit 0 first. -/
def packBits (b : Nat) (l : List Nat) : List Byte :=
  leBytes (ceilDiv (l.length * b) 8) (l.foldr (fun x a => x % 2 ^ b + a * 2 ^ b) 0)

/-- The writes of `els` as vectors of `b`-bit elements. -/
def vecWrites (c base stride b : Nat) (els : List Nat) : List (Space × Nat × List Byte) :=
  ((chunksOf 128 (els.length / 128 + 1) els).zipIdx).map (fun p => (Space.bench, benchA c (base + p.2 * stride), packBits b p.1))

/-- The address of the scales of an MX output of `n` elements (R96). -/
def mxScaleAddr (base stride b n : Nat) : Nat :=
  roundUp (base + (n - 1) / 128 * stride + ceilDiv (((n - 1) % 128 + 1) * b) 8) 32

/-- Convert binary32 results to OUT_FMT and write them as vectors; an MX format writes its scales after them (R46, R96). -/
def vecOut (c base stride code : Nat) (sr : Nat → Option Nat) (xs : List Nat) : List (Space × Nat × List Byte) × Nat :=
  if isMx code then
    match fmtOf code with
    | some (.mx f) =>
      let blocks := (chunksOf 32 (xs.length / 32 + 1) xs).map (fun b => encodeMxBlock f (b.map val32))
      (vecWrites c base stride (codeBits code) (blocks.flatMap (fun b => b.2.1)) ++
        [(.bench, benchA c (mxScaleAddr base stride (codeBits code) xs.length), blocks.map (fun b => BitVec.ofNat 8 b.1))],
        blocks.foldl (fun a b => a ||| b.2.2) 0)
    | _ => ([], 0)
  else
    let es := xs.zipIdx.map (fun p => convertTo code (sr p.2) p.1)
    (vecWrites c base stride (codeBits code) (es.map (·.1)), es.foldl (fun a e => a ||| e.2) 0)

/-! ### VPROG -/

/-- One vector instruction (R137). -/
structure VInstr where
  op : Nat
  d : Nat
  a : Nat
  b : Nat
  c : Nat
  imm : Nat
  deriving DecidableEq, Repr

/-- Take an instruction word apart. -/
def vInstr (w : Nat) : VInstr := ⟨bits w 7 0, bits w 13 8, bits w 19 14, bits w 25 20, bits w 31 26, bits w 63 32⟩

/-- How many source fields an operation uses (R138): A, then B, then C. -/
def vSources (op : Nat) : Nat :=
  if op = 0x00 ∨ op = 0x01 then 0
  else if op = 0x02 ∨ op = 0x09 ∨ op = 0x0A ∨ op = 0x0F ∨ op = 0x10 ∨ op = 0x11 then 1
  else if op = 0x06 ∨ op = 0x0D then 3 else 2

/-- The sources an instruction reads. -/
def VInstr.srcs (i : VInstr) : List Nat := [i.a, i.b, i.c].take (vSources i.op)

/-- R137: every field value of an instruction lies in its table. -/
def vFieldOk (rowwise : Bool) (i : VInstr) : Bool :=
  decide (i.op ≤ 0x11) && decide (i.d < 32) &&
  (!(i.op == 0x00 || i.op == 0x02 || i.op == 0x11) || i.d == 0) &&
  ([i.a, i.b, i.c].drop (vSources i.op)).all (· == 0) &&
  i.srcs.all (fun x => decide (x < 50) || (x == 50 && rowwise)) &&
  (if i.op = 0x01 then decide (i.imm ≤ 2)
   else if i.op = 0x10 then i.imm == 1 || i.imm == 2 || i.imm == 0x10 || i.imm == 0x11
   else if i.op = 0x11 then decide (i.imm ≤ 2)
   else i.imm == 0 || i.srcs.contains 48) &&
  (!(i.op == 0x10 || i.op == 0x11) || !i.srcs.contains 48)

/-- R139: the structure rules of a program; `has` tells which inputs are present. -/
def vStructOk (rowwise : Bool) (has : Nat → Bool) (p : List VInstr) : Bool :=
  let sts := (p.filter (fun i => i.op == 0x02)).length
  let reds := (p.filter (fun i => i.op == 0x11)).length
  (if rowwise then sts == 0 && reds == 1 && (match p.getLast? with
      | some i => i.op == 0x11
      | none => false)
    else sts == 1 && reds == 0) &&
  p.all (fun i => i.op != 0x01 || has i.imm)

/-- What a lane reads besides its registers. -/
structure LaneEnv where
  input : Nat → Nat
  param : Nat → Nat
  elem : Nat
  rowIdx : Nat

/-- A source operand (R137). -/
def vSrc (env : LaneEnv) (regs : List Nat) (imm x : Nat) : Nat :=
  if x < 32 then regs[x]?.getD 0
  else if x < 48 then env.param (x - 32)
  else if x = 48 then imm
  else if x = 49 then fofNat env.elem
  else fofNat env.rowIdx

/-- The binary32 1.0. -/
def one32 : Nat := 0x3F800000

/-- The value an operation gives, with the events of CVT (R138, R43). -/
def vAlu (env : LaneEnv) (regs : List Nat) (i : VInstr) : Nat × Nat :=
  let a := vSrc env regs i.imm i.a
  let b := vSrc env regs i.imm i.b
  let c := vSrc env regs i.imm i.c
  let va := val32 a
  let vb := val32 b
  if i.op = 0x01 then (env.input i.imm, 0)
  else if i.op = 0x03 then (fadd a b, 0)
  else if i.op = 0x04 then (fsub a b, 0)
  else if i.op = 0x05 then (fmul a b, 0)
  else if i.op = 0x06 then (ffma a b c, 0)
  else if i.op = 0x07 then (fmin a b, 0)
  else if i.op = 0x08 then (fmax a b, 0)
  else if i.op = 0x09 then (fabs a, 0)
  else if i.op = 0x0A then (fneg a, 0)
  else if i.op = 0x0B then (if vlt va vb then one32 else 0, 0)
  else if i.op = 0x0C then (if va.isNan || vb.isNan || vlt va vb || vlt vb va then 0 else one32, 0)
  else if i.op = 0x0D then (if va.isNan || va.isZero then c else b, 0)
  else if i.op = 0x0E then (fdiv a b, 0)
  else if i.op = 0x0F then (fsqrt a, 0)
  else if i.op = 0x10 then
    let (e, ev) := convertTo i.imm none a
    (widen i.imm e, ev &&& (0xFF - evNanOut))
  else (a, 0)

/-- Run a program for one lane from the given registers: the registers, the value of its ST or RED operand and the
events raised (R136, R138). -/
def vRunFrom (env : LaneEnv) (regs : List Nat) (p : List VInstr) : List Nat × Nat × Nat :=
  p.foldl (fun (st : List Nat × Nat × Nat) i =>
    if i.op = 0x00 then st
    else if i.op = 0x02 ∨ i.op = 0x11 then (st.1, vSrc env st.1 i.imm i.a, st.2.2)
    else
      let (v, ev) := vAlu env st.1 i
      (st.1.set i.d v, st.2.1, st.2.2 ||| ev)) (regs, 0, 0)

/-- The same from registers of +0. -/
def vRun (env : LaneEnv) (p : List VInstr) : Nat × Nat := (vRunFrom env (List.replicate 32 0) p).2

/-- The program at a bench address. -/
def readProg (s : State) (c a n : Nat) : List VInstr := (List.range n).map (fun i => vInstr (crdN s .bench c (a + 8 * i) 8))

/-- The format codes VPROG, as an input (R96). -/
def vpFmts : List Nat := [0x00, 0x01, 0x02, 0x10, 0x11, 0x20, 0x21]

/-- Plain floating formats of SFU, SOFTMAX and STAT inputs. -/
def fltFmts : List Nat := [0x00, 0x01, 0x02, 0x10, 0x11]

/-- ROUND of MODE bits [1:0] against OUT_FMT (R92). -/
def roundChecks (r outFmt : Nat) : List Chk :=
  [chkFmt (decide (2 ≤ r)), chkFmt (r == 1 && !(outFmt == 2 || outFmt == 0x10 || outFmt == 0x11))]

/-- R104 step 6 for a VPROG (R96). -/
def vprogFields (d : List Byte) : List Chk :=
  let n := fld d 16 4
  let fi := byteAt d 20
  let fo := byteAt d 21
  let mode := byteAt d 22
  let row := bit mode 2
  let rl := fld d 44 4
  [ chkAlign (fld d 8 4) 32, chkShape (decide (fld d 12 2 < 1 ∨ 1024 < fld d 12 2)), chkZero (!zeroAt d 14 2),
    chkShape (decide (16777216 < n)),
    chkFmt (!vpFmts.contains fi), chkLay d (isMx fo), chkFmt (!(vpFmts.contains fo || isMx fo)),
    chkLay d (bits mode 2 0 != 0), chkZero (bits mode 7 3 != 0) ] ++ roundChecks (bits mode 1 0) fo ++
  [ chkZero (byteAt d 23 != 0), chkAlign (fld d 24 4) 32, chkAlign (fld d 28 4) 32, chkAlign (fld d 32 4) 32,
    chkAlign (fld d 36 4) 32,
    chkShape (decide (fld d 40 2 < 16 * codeBits fi)), chkShape (decide (fld d 42 2 < 16 * codeBits fo)),
    chkLay d (rl != 0), chkZero (!row && rl != 0), chkShape (row && decide (rl < 1 ∨ 16777216 < rl)),
    chkShape (row && n % (max rl 1) != 0),
    chkLay d (fld d 48 4 != 0), chkAlign (fld d 48 4) 32,
    chkLay d (fld d 52 4 != 0), chkZero (bits mode 1 0 != 1 && fld d 52 4 != 0), chkAlign (fld d 52 4) 32,
    chkZero (!zeroAt d 56 8) ]

/-- The number of output elements (R96). -/
def vprogOuts (d : List Byte) : Nat := if bit (byteAt d 22) 2 then fld d 16 4 / max (fld d 44 4) 1 else fld d 16 4

/-- The regions a VPROG reads: inputs, parameters, rounding context; none with COUNT 0 (R96). -/
def vprogReads (d : List Byte) : List Region :=
  let n := fld d 16 4
  let st := fld d 40 2
  let b := codeBits (byteAt d 20)
  if n = 0 then [] else
    vecRegion (fld d 24 4) st b n ++ (if fld d 28 4 = 0 then [] else vecRegion (fld d 28 4) st b n) ++
    (if fld d 32 4 = 0 then [] else vecRegion (fld d 32 4) st b n) ++
    (if fld d 48 4 = 0 then [] else [flat .bench (fld d 48 4) 64]) ++
    (if bits (byteAt d 22) 1 0 = 1 then [flat .bench (fld d 52 4) 32] else [])

/-- The regions a VPROG writes: the output vectors and, for an MX format, the scales (R96). -/
def vprogResults (d : List Byte) : List Region :=
  let n := vprogOuts d
  let fo := byteAt d 21
  if n = 0 then [] else
    vecRegion (fld d 36 4) (fld d 42 2) (codeBits fo) n ++
    (if isMx fo then [flat .bench (mxScaleAddr (fld d 36 4) (fld d 42 2) (codeBits fo) n) (ceilDiv n 32)] else [])

/-- R139: the program checks, made after step 6, first the fields in instruction order and then the structure. -/
def vprogProgChecks (s : State) (c : Nat) (d : List Byte) : List Chk :=
  let row := bit (byteAt d 22) 2
  if 0x100000 < fld d 8 4 + 8 * fld d 12 2 then []
  else
    let p := readProg s c (fld d 8 4) (fld d 12 2)
    [ (!p.all (vFieldOk row), rUnitCheck, dVpBadInstr),
      (!vStructOk row (fun i => i == 0 || (i == 1 && fld d 28 4 != 0) || (i == 2 && fld d 32 4 != 0)) p,
        rUnitCheck, dVpStructure) ]

/-- The issue plan of a VPROG. -/
def vprogPlan (s : State) (c : Nat) (d : List Byte) : Plan :=
  let prog := flat .bench (fld d 8 4) (8 * fld d 12 2)
  ⟨vprogFields d, vprogProgChecks s c d, [prog] ++ vprogReads d ++ vprogResults d, [], [],
    [prog] ++ vprogReads d, vprogResults d⟩

/-- R140: reduce the RED operands of one row. -/
def rowReduce (kind : Nat) (xs : List Nat) : Nat :=
  match xs with
  | [] => 0
  | x :: t => if kind = 0 then rowSum xs else if kind = 1 then t.foldl fmax x else t.foldl fmin x

/-- The result of a VPROG (R96, R136 to R140). -/
def vprogRun (s : State) (c : Nat) (d : List Byte) : RunOut :=
  let n := fld d 16 4
  if n = 0 then ranOk s []
  else
    let p := readProg s c (fld d 8 4) (fld d 12 2)
    let fi := byteAt d 20
    let row := bit (byteAt d 22) 2
    let rl := max (fld d 44 4) 1
    let ctx := readRound s c (fld d 52 4)
    let sron := bits (byteAt d 22) 1 0 == 1
    let lane := fun e => vRun
      ⟨fun i => widen fi (vecElem s c (fld d (24 + 4 * i) 4) (fld d 40 2) fi e),
       fun w => if fld d 48 4 = 0 then 0 else crdN s .bench c (fld d 48 4 + 4 * w) 4, e, e % rl⟩ p
    let rs := (List.range n).map lane
    let kind := match p.getLast? with
      | some i => i.imm
      | none => 0
    let xs := if row then (chunksOf rl (n / rl) (rs.map (·.1))).map (rowReduce kind) else rs.map (·.1)
    let (ws, ev) := vecOut c (fld d 36 4) (fld d 42 2) (byteAt d 21)
      (fun e => if sron then some (srRandom ctx.seed ctx.sample ctx.step (ctx.row * ctx.cols + ctx.col + e)) else none) xs
    ranOk (arithVector s c (rs.foldl (fun a r => a ||| r.2) ev)) ws

/-! ### The special-function unit -/

/-- The working registers of a special-function lane (R142). -/
structure SfuLane where
  x : Nat
  n : Int
  r : Nat
  t : Nat
  p : Nat
  s : Nat
  coef : List Nat
  deriving DecidableEq, Repr

/-- A binary32 constant, coefficient or other word of an image. -/
def imgWord (img : List Byte) (off : Nat) : Nat := fld img off 4

/-- Constant i of the pool (R146). -/
def imgK (img : List Byte) (i : Nat) : Nat := imgWord img (16 + 4 * (i % 16))

/-- The integer nearest a value, ties to even; 0 parts for NaN are handled by the caller. -/
def nearestInt : Val → Int
  | .fin neg m e =>
    let mag := if 0 ≤ e then m <<< e.toNat else rneShift m (-e).toNat
    if neg then -(mag : Int) else mag
  | .inf neg => if neg then -1000 else 1000
  | .nan => 0

/-- ⌊v⌋ clamped to lo … hi. -/
def floorClamp (lo hi : Int) : Val → Int
  | .fin neg m e =>
    let i : Int := if neg then -(m : Int) else m
    let f := if 0 ≤ e then i * 2 ^ e.toNat else i / 2 ^ (-e).toNat
    max lo (min hi f)
  | .inf neg => if neg then lo else hi
  | .nan => lo

/-- Steps RANGE, SEG, POLY, RECON, FIX and SEL (R143). The condition of SEL stands in mode bits [3:0] and its action in
[7:4] (log entry 6). -/
def sfuStep (img : List Byte) (l : SfuLane) (st : List Byte) : SfuLane :=
  let kind := byteAt st 0
  let mode := byteAt st 1
  let ka := imgK img (byteAt st 4)
  let kb := imgK img (byteAt st 5)
  let kc := imgK img (byteAt st 6)
  let vx := val32 l.x
  if kind = 1 then
    if mode = 0 then
      let n : Int := match vmul vx (val32 ka) with
        | .nan => Config.mpOpen 21 % 601 - 300
        | v => max (-300) (min 300 (nearestInt v))
      let mn := enc32 (ofInt (-n))
      let r1 := ffma mn kb l.x
      { l with n := n, r := ffma mn kc r1 }
    else match vx with
      | .fin false (m + 1) e =>
        let k := ilog2 (m + 1) e
        let r := enc32 (.fin false (m + 1) (e - k))
        if vlt (val32 r) (val32 ka) then { l with n := k, r := r }
        else { l with n := k + 1, r := enc32 (.fin false (m + 1) (e - k - 1)) }
      | _ => { l with n := 0, r := one32 }
  else if kind = 2 then
    let i := (floorClamp 0 63 (vmul (vadd (val32 l.r) (vneg (val32 ka))) (val32 kb))).toNat
    let o := 224 + 8 * byteAt img 5 + 68 * i
    if i < byteAt img 6 then
      { l with t := fsub l.r (imgWord img o), coef := (List.range 16).map (fun j => imgWord img (o + 4 + 4 * j)) }
    else { l with t := fsub l.r 0, coef := List.replicate 16 0 }
  else if kind = 3 then
    let o := byteAt st 3
    let c := fun j => l.coef[o + j]?.getD 0
    let y := (List.range mode).foldl (fun y i => ffma y l.t (c (mode - 1 - i))) (c mode)
    if byteAt st 2 = 0 then { l with p := y } else { l with s := y }
  else if kind = 4 then
    if mode = 0 then { l with p := match val32 l.p with
      | .fin neg m e => enc32 (.fin neg m (e + l.n))
      | v => enc32 v }
    else { l with p := ffma (enc32 (ofInt l.n)) ka l.p }
  else if kind = 5 then
    if vx.isNan then { l with p := nan32 }
    else
      let hit := (List.range (byteAt img 7)).find? (fun i =>
        let cl := byteAt img (80 + 8 * i)
        let k := val32 (imgK img (byteAt img (81 + 8 * i)))
        (cl == 1 && l.x == 0) || (cl == 2 && l.x == 0x80000000) || (cl == 3 && l.x == 0x7F800000) ||
          (cl == 4 && l.x == 0xFF800000) || (cl == 5 && !k.isNan && !vlt vx k) || (cl == 6 && !k.isNan && !vlt k vx))
      match hit with
      | some i => { l with p := imgWord img (84 + 8 * i) }
      | none => l
  else
    let cond := bits mode 3 0
    let act := bits mode 7 4
    let k := val32 ka
    let ok := if cond = 0 then vlt vx k else if cond = 1 then l.n % 2 != 0 else if cond = 2 then l.n / 2 % 2 != 0
      else !vx.isNan && !k.isNan && !vlt vx k
    if ok then { l with p := if act = 0 then l.s else if act = 1 then fneg l.p else fsub kb l.p } else l

/-- A loaded micro-program evaluated on an argument (R142, R143). -/
def sfuEval (img : List Byte) (x : Nat) : Nat :=
  let l0 : SfuLane := ⟨x, (Config.mpOpen 4 % 601 : Int) - 300, Config.mpOpen 0 % 2 ^ 32, Config.mpOpen 1 % 2 ^ 32,
    Config.mpOpen 2 % 2 ^ 32, Config.mpOpen 3 % 2 ^ 32, (List.range 16).map (fun i => Config.mpOpen (5 + i) % 2 ^ 32)⟩
  ((List.range (byteAt img 5)).foldl (fun l i => sfuStep img l ((img.drop (224 + 8 * i)).take 8)) l0).p

/-- The image in a loaded slot, empty when there is none. -/
def mpSlot (s : State) (c slot : Nat) : List Byte := tabGet (fun _ => []) (cellGet s c).mp slot

/-- A slot holds a function: the library, or a loaded image (R145, R150). -/
def slotFull (s : State) (c f : Nat) : Bool := decide (f ≤ 0x0E) || (decide (0x40 ≤ f ∧ f ≤ 0x7F) && !(mpSlot s c f).isEmpty)

/-- The function in a slot. -/
def slotFn (s : State) (c f x : Nat) : Nat := if f ≤ 0x0E then libFn f x else sfuEval (mpSlot s c f) x

/-- R104 step 6 for an SFU (R150, R151). -/
def sfuFields (s : State) (c : Nat) (d : List Byte) : List Chk :=
  let fi := byteAt d 9
  let fo := byteAt d 10
  let mode := byteAt d 11
  [ (!slotFull s c (byteAt d 8), rUnitCheck, dSfEmptySlot), chkFmt (!fltFmts.contains fi), chkFmt (!fltFmts.contains fo),
    chkZero (bits mode 7 2 != 0) ] ++ roundChecks (bits mode 1 0) fo ++
  [ chkShape (decide (16777216 < fld d 12 4)), chkAlign (fld d 16 4) 32, chkAlign (fld d 20 4) 32,
    chkShape (decide (fld d 24 2 < 16 * codeBits fi)), chkShape (decide (fld d 26 2 < 16 * codeBits fo)),
    chkZero (bits mode 1 0 != 1 && fld d 32 4 != 0), chkAlign (fld d 32 4) 32, chkZero (!zeroAt d 36 28) ]

/-- The issue plan of an SFU: the output may coincide exactly with the input (R151). -/
def sfuPlan (s : State) (c : Nat) (d : List Byte) : Plan :=
  let n := fld d 12 4
  let fi := byteAt d 9
  let fo := byteAt d 10
  let inp := vecRegion (fld d 16 4) (fld d 24 2) (codeBits fi) n
  let out := vecRegion (fld d 20 4) (fld d 26 2) (codeBits fo) n
  let rc := if bits (byteAt d 11) 1 0 = 1 ∧ n ≠ 0 then [flat .bench (fld d 32 4) 32] else []
  let same := codeBits fi == codeBits fo && fld d 24 2 == fld d 26 2 && fld d 16 4 == fld d 20 4
  ⟨sfuFields s c d, [], inp ++ out ++ rc,
    [(!same && out.any (fun o => inp.any o.meets), rUnitCheck, dSfOverlap),
     (out.any (fun o => rc.any o.meets), rUnitCheck, dSfOverlap)],
    [], inp ++ rc, out⟩

/-- The result of an SFU (R142, R150). -/
def sfuRun (s : State) (c : Nat) (d : List Byte) : RunOut :=
  let n := fld d 12 4
  let fi := byteAt d 9
  let ctx := readRound s c (fld d 32 4)
  let sron := bits (byteAt d 11) 1 0 == 1
  let xs := (List.range n).map (fun e => slotFn s c (byteAt d 8)
    (fmul (widen fi (vecElem s c (fld d 16 4) (fld d 24 2) fi e)) (fld d 28 4)))
  let (ws, ev) := vecOut c (fld d 20 4) (fld d 26 2) (byteAt d 10)
    (fun e => if sron then some (srRandom ctx.seed ctx.sample ctx.step (ctx.row * ctx.cols + ctx.col + e)) else none) xs
  if n = 0 then ranOk s [] else ranOk (arithVector s c ev) ws

/-! ### SOFTMAX (R152 to R157) -/

/-- The running maximum and sum of the first pass, segment by segment (R152). -/
def softSegs : List (List Nat) → Nat → Nat → Nat × Nat
  | [], m, s => (m, s)
  | seg :: t, m, s =>
    let ninf := 0xFF800000
    let mg := seg.foldl fmax ninf
    let mn := fmax m mg
    if mn = ninf then softSegs t m s
    else
      let s1 := if m ≠ ninf ∧ vlt (val32 m) (val32 mn) = true then fmul s (libFn 0 (fsub m mn)) else s
      softSegs t mn (seg.foldl (fun a z => fadd a (libFn 0 (fsub z mn))) s1)

/-- R152: one row of at least one element: maximum, sum, and the binary32 quotients before conversion; `none` for a
fully masked row. -/
def softRow (z : List Nat) : Nat × Nat × Option (List Nat) :=
  if z.any (fun x => (val32 x).isNan || x == 0x7F800000) then (nan32, nan32, some (z.map (fun _ => nan32)))
  else
    let (m, s) := softSegs (chunksOf 256 (z.length / 256 + 1) z) 0xFF800000 0
    if m = 0xFF800000 then (m, s, none)
    else (m, s, some (z.map (fun x => fdiv (libFn 0 (fsub x m)) s)))

/-- R104 step 6 for a SOFTMAX (R155). -/
def softmaxFields (d : List Byte) : List Chk :=
  let rl := fld d 12 4
  let fi := byteAt d 16
  let fo := byteAt d 17
  let mode := byteAt d 18
  [ chkShape (decide (fld d 8 4 < 1 ∨ 65536 < fld d 8 4)), chkShape (decide (524288 < rl)), chkFmt (!fltFmts.contains fi),
    chkFmt (!fltFmts.contains fo), chkZero (bits mode 7 4 != 0) ] ++ roundChecks (bits mode 1 0) fo ++
  [ chkZero (byteAt d 19 != 0), chkAlign (fld d 20 4) 32, chkAlign (fld d 24 4) 32,
    chkAlign (fld d 28 4) 32, chkShape (decide (fld d 28 4 < rl * codeBytes fi)),
    chkAlign (fld d 32 4) 32, chkShape (decide (fld d 32 4 < rl * codeBytes fo)),
    chkZero (!bit mode 3 && fld d 40 4 != 0), chkAlign (fld d 40 4) 32,
    chkZero (!bit mode 2 && fld d 44 4 != 0), chkAlign (fld d 44 4) 32,
    chkZero (bits mode 1 0 != 1 && fld d 48 4 != 0), chkAlign (fld d 48 4) 32, chkZero (!zeroAt d 52 12) ]

/-- The issue plan of a SOFTMAX: extents of R155, overlaps of R156. -/
def softmaxPlan (d : List Byte) : Plan :=
  let rows := fld d 8 4
  let mode := byteAt d 18
  let inp := flat .bench (fld d 20 4) (rows * fld d 28 4)
  let out := flat .bench (fld d 24 4) (rows * fld d 32 4)
  let len := if bit mode 3 then [flat .bench (fld d 40 4) (4 * rows)] else []
  let sta := if bit mode 2 then [flat .bench (fld d 44 4) (8 * rows)] else []
  let rc := if bits mode 1 0 = 1 then [flat .bench (fld d 48 4) 32] else []
  let same := codeBits (byteAt d 16) == codeBits (byteAt d 17) && fld d 28 4 == fld d 32 4 && fld d 20 4 == fld d 24 4
  let bad := (!same && out.meets inp) || (len ++ sta).any (fun x => x.meets inp || x.meets out) ||
    len.any (fun x => sta.any x.meets) || rc.any (fun x => x.meets out || sta.any x.meets)
  ⟨softmaxFields d, [], [inp, out] ++ len ++ sta ++ rc, [(bad, rUnitCheck, dSmOverlap)], [],
    [inp] ++ len ++ rc,
    [⟨.bench, fld d 24 4, rows, fld d 32 4, fld d 12 4 * codeBytes (byteAt d 17)⟩] ++ sta⟩

/-- The lengths of the rows (R155): one length, or the list. -/
def rowLens (s : State) (c rows rl : Nat) (list : Bool) (addr : Nat) : List Nat :=
  (List.range rows).map (fun r => if list then crdN s .bench c (addr + 4 * r) 4 else rl)

/-- R154, R159: an empty row raises EMPTY_ROW and is counted. -/
def emptyRow (s : State) (c : Nat) : State := raise (bumpSat s (pgVector c + 0x40) 1) (pgVector c) 0x800

/-- Row `r` of a SOFTMAX: the state with its events and the writes of the row. -/
def softmaxRow (c : Nat) (d : List Byte) (ctx : RoundCtx) (s : State) (r len : Nat) : State × List (Space × Nat × List Byte) :=
  let fi := byteAt d 16
  let fo := byteAt d 17
  let mode := byteAt d 18
  let z := (List.range len).map (fun i =>
    fmul (widen fi (crdN s .bench c (fld d 20 4 + r * fld d 28 4 + i * codeBytes fi) (codeBytes fi))) (fld d 36 4))
  let (m, sum, ys) : Nat × Nat × Option (List Nat) := if len = 0 then (0xFF800000, 0, some []) else softRow z
  let s1 := if len = 0 then emptyRow s c else if ys.isNone then bumpSat s (pgVector c + 0x44) 1 else s
  let enc : List (Nat × Nat) := match ys with
    | none => z.map (fun _ => (0, 0))
    | some l => l.zipIdx.map (fun p => convertTo fo (srAt (bits mode 1 0 == 1) ctx r p.2) p.1)
  let w1 := if len = 0 then [] else
    [(Space.bench, benchA c (fld d 24 4 + r * fld d 32 4), enc.flatMap (fun p => leBytes (codeBytes fo) p.1))]
  let w2 := if bit mode 2 then [(Space.bench, benchA c (fld d 44 4 + 8 * r), leBytes 4 m ++ leBytes 4 sum)] else []
  (arithVector s1 c (enc.foldl (fun a p => a ||| p.2) 0), w1 ++ w2)

/-- The result of a SOFTMAX: rows in order; a listed length above ROW_LEN fails it there (R156). -/
def softmaxRun (s : State) (c : Nat) (d : List Byte) : RunOut :=
  let rows := fld d 8 4
  let mode := byteAt d 18
  let ctx := readRound s c (fld d 48 4)
  let lens := rowLens s c rows (fld d 12 4) (bit mode 3) (fld d 40 4)
  let good := (lens.takeWhile (fun l => decide (l ≤ fld d 12 4)))
  let (s1, ws) := good.zipIdx.foldl (fun (p : State × List (Space × Nat × List Byte)) x =>
    let (t, w) := softmaxRow c d ctx p.1 x.2 x.1
    (t, p.2 ++ w)) (s, [])
  let k := good.length
  if k = rows then ranOk s1 ws
  else ranFail s1 ws rUnitCheck dLenRange
    ([⟨.bench, fld d 24 4 + k * fld d 32 4, rows - k, fld d 32 4, fld d 12 4 * codeBytes (byteAt d 17)⟩] ++
      (if bit mode 2 then [flat .bench (fld d 44 4 + 8 * k) (8 * (rows - k))] else []))

/-! ### STAT (R158, R159) -/

/-- R104 step 6 for a STAT. -/
def statFields (d : List Byte) : List Chk :=
  let rl := fld d 12 4
  let fi := byteAt d 16
  let fo := byteAt d 17
  let mode := byteAt d 18
  [ chkShape (decide (fld d 8 4 < 1 ∨ 65536 < fld d 8 4)), chkShape (decide (524288 < rl)), chkFmt (!fltFmts.contains fi),
    chkFmt (!(fo == 0 || fo == 1 || fo == 2)), chkZero (bits mode 7 2 != 0), chkZero (byteAt d 19 != 0),
    chkAlign (fld d 20 4) 32, chkAlign (fld d 24 4) 32, chkShape (decide (fld d 24 4 < rl * codeBytes fi)),
    chkZero (bits (fld d 28 4) 30 20 != 0), chkAlign (fld d 28 4 % 0x80000000) 32,
    chkZero (!bit mode 1 && fld d 32 4 != 0), chkAlign (fld d 32 4) 32, chkZero (!zeroAt d 36 28) ]

/-- The output records of a STAT. -/
def statOutRegion (d : List Byte) : Region :=
  flat (benchOrAcc (bit (fld d 28 4) 31)) (fld d 28 4 % 0x80000000) (16 * fld d 8 4)

/-- The issue plan of a STAT: the output meets neither input nor lengths (R159). -/
def statPlan (d : List Byte) : Plan :=
  let rows := fld d 8 4
  let inp := flat .bench (fld d 20 4) (rows * fld d 24 4)
  let len := if bit (byteAt d 18) 1 then [flat .bench (fld d 32 4) (4 * rows)] else []
  let out := statOutRegion d
  ⟨statFields d, [], [inp] ++ len ++ [out], [(out.meets inp || len.any out.meets, rUnitCheck, dSmOverlap)], [],
    [inp] ++ len, [out]⟩

/-- The record of one row: count, mean, variance, zero; and its events (R159). -/
def statRecord (s : State) (c : Nat) (d : List Byte) (r len : Nat) : List Byte × Nat :=
  let fi := byteAt d 16
  let f : Fmt := if byteAt d 17 = 0 then .f32 else if byteAt d 17 = 1 then .f16 else .bf16
  if len = 0 then (List.replicate 16 0#8, 0)
  else
    let vs := (List.range len).map (fun i => val32 (widen fi (crdN s .bench c (fld d 20 4 + r * fld d 24 4 + i * codeBytes fi) (codeBytes fi))))
    let (mean, var, ev) := rowStats f (bit (byteAt d 18) 0) vs
    (leBytes 4 len ++ leBytes 4 mean ++ leBytes 4 var ++ leBytes 4 0, ev)

/-- The result of a STAT. -/
def statRun (s : State) (c : Nat) (d : List Byte) : RunOut :=
  let rows := fld d 8 4
  let out := statOutRegion d
  let lens := rowLens s c rows (fld d 12 4) (bit (byteAt d 18) 1) (fld d 32 4)
  let good := lens.takeWhile (fun l => decide (l ≤ fld d 12 4))
  let (s1, ws) := good.zipIdx.foldl (fun (p : State × List (Space × Nat × List Byte)) x =>
    let (rec', ev) := statRecord s c d x.2 x.1
    let t := if x.1 = 0 then emptyRow p.1 c else p.1
    (arithVector t c ev, p.2 ++ [(out.sp, cellAddr out.sp c (out.base + 16 * x.2), rec')])) (s, [])
  let k := good.length
  if k = rows then ranOk s1 ws
  else ranFail s1 ws rUnitCheck dLenRange [flat out.sp (out.base + 16 * k) (16 * (rows - k))]

/-! ### RNG (R102, R103) -/

/-- R104 step 6 for an RNG. -/
def rngFields (d : List Byte) : List Chk :=
  [ chkFmt (fld d 28 4 == 5), chkAlign (fld d 32 4) 32, chkShape (decide (fld d 36 4 < 1 ∨ 65536 < fld d 36 4)),
    chkFmt (decide (1 < byteAt d 40)), chkZero (!zeroAt d 41 23) ]

/-- The issue plan of an RNG. -/
def rngPlan (d : List Byte) : Plan :=
  let out := flat .bench (fld d 32 4) (16 * fld d 36 4)
  ⟨rngFields d, [], [out], [], [], [], [out]⟩

/-- DIST 0 leaves a word, DIST 1 makes (w >> 8) × 2^-24. -/
def rngWord (dist w : Nat) : Nat := if dist = 0 then w else enc32 (.fin false (w / 256) (-24))

/-- Block j of an RNG (R103). -/
def rngBlock (d : List Byte) (j : Nat) : List Byte :=
  match cbg128 ((fld d 16 4 + j) % 2 ^ 32) (fld d 20 4) (fld d 24 4) (fld d 28 4) (fld d 8 4) (fld d 12 4) with
  | (a, b, e, f) => [a, b, e, f].flatMap (fun w => leBytes 4 (rngWord (byteAt d 40) w))

/-- The result of an RNG. -/
def rngRun (s : State) (c : Nat) (d : List Byte) : RunOut :=
  ranOk s ((List.range (fld d 36 4)).map (fun j => (.bench, benchA c (fld d 32 4 + 16 * j), rngBlock d j)))

/-! ### The micro-program store (R146 to R148, R160) -/

/-- A step's field values are legal (R143, R146). -/
def mpStepOk (st : List Byte) : Bool :=
  let kind := byteAt st 0
  let mode := byteAt st 1
  decide (byteAt st 4 < 16 ∧ byteAt st 5 < 16 ∧ byteAt st 6 < 16) && byteAt st 7 == 0 &&
  (if kind = 1 then decide (mode ≤ 1)
   else if kind = 2 then mode == 0
   else if kind = 3 then decide (mode ≤ 7) && decide (byteAt st 2 ≤ 1) && (byteAt st 3 == 0 || byteAt st 3 == 8)
   else if kind = 4 then decide (mode ≤ 1)
   else if kind = 5 then mode == 0
   else if kind = 6 then decide (bits mode 3 0 ≤ 3) && decide (bits mode 7 4 ≤ 2)
   else false)

/-- The rejection reason of an image for a slot, 0 when it is good (R148, R160). -/
def mpReject (slot : Nat) (img : List Byte) : Nat :=
  let steps := byteAt img 5
  let segs := byteAt img 6
  if fld img 0 4 ≠ 0x4D505247 then 1
  else if byteAt img 4 ≠ 1 then 2
  else if slot < 0x40 ∨ 0x7F < slot then 3
  else if steps < 1 ∨ 32 < steps then 4
  else if 64 < segs ∨ 8 < byteAt img 7 ∨ ¬ (List.range 8).all (fun i =>
      decide (byteAt img (80 + 8 * i) ≤ 6 ∧ byteAt img (81 + 8 * i) < 16) && zeroAt img (82 + 8 * i) 2) = true then 5
  else if fld img 8 4 ≠ 224 + 8 * steps + 68 * segs then 6
  else if fld img 12 4 ≠ crc32c ((img.drop 16).take (fld img 8 4 - 16)) then 7
  else if (List.range steps).all (fun i => mpStepOk ((img.drop (224 + 8 * i)).take 8)) then 0 else 8

/-- R160: bit j of CEL_MP_VALID is the presence of an image in slot 0x40 + j. -/
def mpValid (s : State) (c : Nat) : Nat := (cellGet s c).mp.foldl (fun a e => a + 2 ^ (e.1 - 0x40)) 0

/-- R147, R160: the load in progress checks its image and installs it or is refused, or the clear in progress empties its
slot; issue is released, and a held request starts. -/
def mpInstall (s : State) (c : Nat) : State :=
  let x := cellGet s c
  match x.mpLoad with
  | none => s
  | some (none, slot) =>
    cellPut s c { x with mp := tabPut (fun _ => []) x.mp slot [], mpLoad := x.mpHeld.head?, mpHeld := x.mpHeld.drop 1 }
  | some (some a, slot) =>
    let len := fld (crd s .slice c a 16) 8 4
    let img := crd s .slice c a (min len (224 + 8 * 32 + 68 * 64))
    let r := if a % 64 ≠ 0 ∨ scratchBytes s c < a + 224 ∨ scratchBytes s c < a + len then 9
      else if (firstBad s.mems .slice (sliceA c a) len).isSome then 7
      else mpReject slot img
    let y := { x with
      mp := if r = 0 then tabPut (fun _ => []) x.mp slot img else x.mp
      mpLoad := x.mpHeld.head?, mpHeld := x.mpHeld.drop 1 }
    let s1 := rset (cellPut s c y) (pgVector c + 0x50) (r * 2 ^ 8 + slot % 128 * 2 ^ 16)
    if r = 0 then s1 else raise s1 (pgVector c) 0x400

end Sys2Proof.Machine
end

