-- ==== Sys2Proof/Machine/Attn.lean ====
section
/-!
DEFINITION. Machine/Attn.lean: KV structures (R162 to R170), ATTN in exact and page-bounds mode (R178 to R191, R193 to
R198), its append (R165, R196) and its split groups (R190).
Log entries that code here: 38 (DEDUCED, unsafe), 41 (DEDUCED, unsafe), 129 (DESIGN CHOICE, safe).
-/

namespace Sys2Proof.Machine

/-! ### The KV root record, the directory and the tables (R162 to R170) -/

/-- A KV root record (R162). -/
structure KvRoot where
  layers : Nat
  heads : Nat
  fmt : Nat
  pool : Nat
  pages : Nat
  maxSeq : Nat
  dir : Nat
  states : Nat
  bound : Nat
  boundSlice : Bool
  pinAt : Nat
  pinSlots : Nat
  pinOff : Nat
  deriving DecidableEq, Repr

/-- Read a root record of 64 bytes; none outside the legal values of R162. -/
def kvRoot (b : List Byte) : Option KvRoot :=
  let heads := byteAt b 6
  let fmt := byteAt b 7
  let thr := fld b 50 2
  if fld b 0 4 = 0x4B565254 ∧ byteAt b 4 = 1 ∧ 1 ≤ byteAt b 5 ∧ byteAt b 5 ≤ 64 ∧ (isPow2 heads = true ∧ heads ≤ 32) ∧
      (fmt = 0x10 ∨ fmt = 0x11) ∧ fld b 8 8 % 16384 = 0 ∧ 1 ≤ fld b 16 4 ∧ fld b 16 4 ≤ 33554432 ∧
      1 ≤ fld b 20 4 ∧ fld b 20 4 ≤ 1048576 ∧ fld b 24 8 % 64 = 0 ∧ fld b 32 8 % 64 = 0 ∧ fld b 40 8 % 512 = 0 ∧
      byteAt b 48 ≤ 1 ∧ byteAt b 49 = 0 ∧ thr ≠ 1 ∧ fld b 52 2 ≤ 1024 ∧ zeroAt b 54 2 = true ∧ fld b 56 4 % 16384 = 0 ∧
      zeroAt b 60 4 = true then
    some ⟨byteAt b 5, heads, fmt, fld b 8 8, fld b 16 4, fld b 20 4, fld b 24 8, fld b 32 8, fld b 40 8, byteAt b 48 == 1,
      thr, fld b 52 2, fld b 56 4⟩
  else none

/-- R168: logical pages of one table page. -/
def KvRoot.perTable (r : KvRoot) : Nat := 4096 / r.heads

/-- R167: bytes of a directory entry. -/
def KvRoot.stride (r : KvRoot) : Nat := roundUp (16 + 16 * r.layers * r.heads) 64

/-- R167: the directory entry of a sequence. -/
def KvRoot.dirAt (r : KvRoot) (seq : Nat) : Nat := r.dir + seq * r.stride

/-- First-level entries of a sequence. -/
def KvRoot.l1Count (r : KvRoot) : Nat := 4 * r.layers * r.heads

/-- R163: the address of pool page `n`. -/
def KvRoot.pageAt (r : KvRoot) (n : Nat) : Nat := r.pool + n * 16384

/-- R168: the first-level index of a logical page. -/
def KvRoot.l1Index (r : KvRoot) (layer lp : Nat) : Nat := layer * (16384 / r.perTable) + lp / r.perTable

/-- R168: the byte of a second-level entry in its table page. -/
def KvRoot.l2Byte (r : KvRoot) (lp head : Nat) : Nat := ((lp % r.perTable) * r.heads + head) * 4

/-- R168: the fields of an entry: the page, when it is VALID. -/
def entryPage (e : Nat) : Option Nat := if bit e 25 then some (e % 2 ^ 25) else none

/-- R170: the address of a page state word. -/
def KvRoot.stateAt (r : KvRoot) (n : Nat) : Nat := r.states + 4 * n

/-- The home cell of a page: the cell with index n mod C (R164, R191). -/
def pageHome (q : Part) (n : Nat) : Nat := (q.cells[n % q.cells.length]?).getD 0

/-! ### Reads that may fail -/

/-- A running read: the state, and either a failure (reason, detail) or a value. -/
abbrev Got (α : Type) := State × Except (Nat × Nat) α

/-- Read partition bytes for a descriptor (R287, R290). -/
def hgetE (s : State) (p a n : Nat) : Got (List Byte) :=
  match hget s p a n true with
  | (s1, 0, b) => (s1, .ok b)
  | (s1, r, _) => (s1, .error (r, 0))

/-- Continue after a read. -/
def Got.bind {α β : Type} (g : Got α) (f : State → α → Got β) : Got β :=
  match g with
  | (s, .ok a) => f s a
  | (s, .error e) => (s, .error e)

/-- Run a reader over a list. -/
def gotMap {α β : Type} (f : State → α → Got β) : State → List α → Got (List β)
  | s, [] => (s, .ok [])
  | s, a :: t => Got.bind (f s a) (fun s1 b => Got.bind (gotMap f s1 t) (fun s2 bs => (s2, .ok (b :: bs))))

/-- A failure with a detail of UNIT_CHECK. -/
def gotFail {α : Type} (s : State) (detail : Nat) : Got α := (s, .error (rUnitCheck, detail))

/-! ### The descriptor (R193 to R195) -/

def atNq (d : List Byte) : Nat := if byteAt d 8 = 0 then 256 else byteAt d 8
def atMode (d : List Byte) : Nat := byteAt d 11
def atGroup (d : List Byte) : Bool := bit (atMode d) 2
def atExact (d : List Byte) : Bool := bit (atMode d) 0
def atGroupMask (d : List Byte) : Nat := fld d 60 2

/-- A binary32 that is positive and finite. -/
def posFinite (x : Nat) : Bool := decide (0 < x ∧ x < 0x7F800000)

/-- R104 step 6 for an ATTN. -/
def attnFields (c : Nat) (d : List Byte) : List Chk :=
  let mode := atMode d
  let round := bits mode 7 6
  let par := fun (b : Bool) => ((b, rUnitCheck, dAtParam) : Chk)
  [ chkFmt (!(byteAt d 9 == 0x10 || byteAt d 9 == 0x11)), chkFmt (!fltFmts.contains (byteAt d 10)),
    chkZero (bits mode 5 4 != 0) ] ++ roundChecks round (byteAt d 10) ++
  [ chkZero (!atGroup d && byteAt d 14 != 0), chkShape (decide (8 ≤ byteAt d 14)), chkShape (decide (4 < byteAt d 15)),
    chkAlign (fld d 16 8) 64, chkAlign (fld d 24 4) 32, chkAlign (fld d 28 4) 32, chkAlign (fld d 32 4) 32,
    chkAlign (fld d 36 4) 32, par (!posFinite (fld d 40 4)),
    par (if atExact d then fld d 44 4 != 0 else fld d 44 4 != 0 && !posFinite (fld d 44 4)),
    par (if atExact d then fld d 48 4 != 0 else fld d 48 4 != 0 && !posFinite (fld d 48 4)),
    chkZero (!bit mode 3 && fld d 52 4 != 0), chkAlign (fld d 52 4) 32,
    chkZero (round != 1 && fld d 56 4 != 0), chkAlign (fld d 56 4) 32,
    chkZero (!atGroup d && atGroupMask d != 0),
    (atGroup d && !isPow2 (popCount 16 (atGroupMask d)), rUnitCheck, dAtGroup),
    chkShape (atGroup d && !bit (atGroupMask d) (c % 16)), chkZero (!zeroAt d 62 2) ]

/-- R195: the line pitch of skewed queries. -/
def atQPitch (d : List Byte) : Nat := ceilDiv (atNq d) 32 * 32

/-- The regions an ATTN reads in the bench (R198). -/
def attnReads (d : List Byte) : List Region :=
  let nq := atNq d
  [ flat .bench (fld d 24 4) (8 * nq),
    flat .bench (fld d 28 4) (if dSkew d then 159 * atQPitch d else 128 * nq),
    flat .bench (fld d 32 4) (256 * nq) ] ++
  (if bits (atMode d) 7 6 = 1 then [flat .bench (fld d 56 4) 32] else [])

/-- The result regions of an ATTN. -/
def attnResults (d : List Byte) : List Region :=
  flat .bench (fld d 36 4) (atNq d * 128 * codeBytes (byteAt d 10)) ::
    (if bit (atMode d) 3 then [flat .bench (fld d 52 4) (16 * atNq d)] else [])

/-- The query list: (SEQ field, CUR, bytes 6 and 7) (R195). -/
def queryList (s : State) (c : Nat) (d : List Byte) : List (Nat × Nat × Nat) :=
  (List.range (atNq d)).map (fun q =>
    let b := crd s .bench c (fld d 24 4 + 8 * q) 8
    (fld b 0 4, fld b 4 2, fld b 6 2))

/-- The checks of the query list, made after step 8 (R198). -/
def queryChecks (s : State) (c : Nat) (d : List Byte) : List Chk :=
  let l := queryList s c d
  l.flatMap (fun e => [chkZero (decide (2 ^ 20 ≤ e.1) || e.2.2 != 0), (decide (atNq d ≤ e.2.1), rUnitCheck, dAtCur)]) ++
  [(l.any (fun e => l.any (fun f => e.1 == f.1 && e.2.1 != f.2.1)), rUnitCheck, dAtCur)]

/-- The issue plan of an ATTN. -/
def attnPlan (s : State) (c : Nat) (d : List Byte) : Plan :=
  let rds := attnReads d
  let res := attnResults d
  ⟨attnFields c d, [], rds ++ res,
    [(res.any (fun o => rds.any o.meets) || (match res with
      | [a, b] => a.meets b
      | _ => false), rUnitCheck, dAtOverlap)],
    if (firstFail (attnFields c d ++ (rds ++ res).map (extentChk s c))).isNone then queryChecks s c d else [], rds, res⟩

/-! ### Resolution of pages (R168, R198) -/

/-- A query: its sequence, current entry, length, and pool pages by logical page. -/
structure Query where
  seq : Nat
  cur : Nat
  len : Nat
  pages : List Nat
  deriving DecidableEq, Repr

/-- A shared-page accounting fault found by a fetch of page `n` (R192, R514, R516). -/
def pageFault (s : State) (p n : Nat) : State :=
  let g := pageHome (partGet s p) n / 16
  startReset (unitRecord s (pgBlkErr g) g 2 false) p 4

/-- R168: resolve one logical page. -/
def resolvePage (p : Nat) (r : KvRoot) (seq layer head : Nat) (s : State) (lp : Nat) : Got Nat :=
  Got.bind (hgetE s p (r.dirAt seq + 16 + 4 * r.l1Index layer lp) 4) (fun s1 b1 =>
    match entryPage (leNat b1) with
    | none => gotFail s1 dAtNoPage
    | some t =>
      if r.pages ≤ t then gotFail s1 dAtBadPage
      else Got.bind (hgetE s1 p (r.pageAt t + r.l2Byte lp head) 4) (fun s2 b2 =>
        match entryPage (leNat b2) with
        | none => gotFail s2 dAtNoPage
        | some n =>
          if r.pages ≤ n then gotFail s2 dAtBadPage
          else Got.bind (hgetE s2 p (r.stateAt n) 4) (fun s3 w =>
            if leNat w % 65536 = 0 then gotFail (pageFault s3 p n) dAtFreePage else (s3, .ok n))))

/-- Read the directory entry of a query and resolve its pages. -/
def resolveQuery (p : Nat) (r : KvRoot) (layer head : Nat) (s : State) (e : Nat × Nat × Nat) : Got Query :=
  if r.maxSeq ≤ e.1 then gotFail s dAtSeq
  else Got.bind (hgetE s p (r.dirAt e.1) 16) (fun s1 b =>
    if !bit (byteAt b 4) 0 then gotFail s1 dAtSeq
    else
      let len := fld b 0 4
      Got.bind (gotMap (resolvePage p r e.1 layer head) s1 (List.range (ceilDiv len 64))) (fun s2 ps =>
        (s2, .ok ⟨e.1, e.2.1, len, ps⟩)))

/-! ### Scores, bounds and segments (R178 to R184) -/

/-- R178: the scaled score of a query vector against a key vector. -/
def atScore (qf kf scale : Nat) (q k : List Nat) : Nat :=
  fmul (chunkResult qf kf 128 0 (fun _ => true) (fun i => q.getD i 0) (fun i => k.getD i 0) (fun _ => 127) (fun _ => 127) 127 127).1 scale

/-- A BF16 value. -/
def bf (x : Nat) : Val := decodeFmt .bf16 x

/-- R179: the score bound of a page, from the 256 BF16 values of its record. -/
def atBound (qf scale : Nat) (q : List Nat) (rec' : List Nat) : Nat :=
  let inf := 0x7F800000
  let terms := (List.range 128).map (fun i =>
    let v := match fmtOf qf with
      | some e => elemVal e (q.getD i 0)
      | none => .nan
    if v.isZero then Val.fin false 0 0
    else vmul v (bf (if v.isNeg then rec'.getD i 0 else rec'.getD (128 + i) 0)))
  let odd := fun (v : Val) => match v with
    | .fin _ _ _ => false
    | _ => true
  let qnan := q.any (fun x => match fmtOf qf with
    | some e => (elemVal e x).isNan
    | none => true)
  if rec'.any (fun x => (bf x).isNan) || qnan || terms.any odd then inf
  else
    let sum := terms.foldl vadd (.fin false 0 0)
    fmul (if sum.isZero then 0 else enc32 sum) scale

/-- A partial (m, s, o) (R181). -/
structure AttPart where
  m : Nat
  s : Nat
  o : List Nat
  deriving DecidableEq, Repr

/-- −∞ of binary32. -/
def ninf32 : Nat := 0xFF800000

/-- R181: a segment's partial from its positions (z, V widened) in segment order. -/
def segPartial (l : List (Nat × List Nat)) : AttPart :=
  let m := l.foldl (fun a x => fmax a x.1) ninf32
  let z : AttPart := ⟨m, 0, List.replicate 128 0⟩
  if m = ninf32 then z
  else l.foldl (fun p x =>
    let w := libFn 0 (fsub x.1 m)
    { p with s := fadd p.s w, o := (p.o.zip x.2).map (fun y => ffma w y.2 y.1) }) z

/-- R182: the merge of two partials; `a` holds the lower segments. -/
def attMerge (a b : AttPart) : AttPart :=
  if a.m = ninf32 then b
  else if b.m = ninf32 then a
  else
    let m := fmax a.m b.m
    let fa := libFn 0 (fsub a.m m)
    let fb := libFn 0 (fsub b.m m)
    ⟨m, fadd (fmul a.s fa) (fmul b.s fb), (a.o.zip b.o).map (fun x => fadd (fmul x.1 fa) (fmul x.2 fb))⟩

/-- A z that makes its query NaN (R182). -/
def badZ (z : Nat) : Bool := (val32 z).isNan || z == 0x7F800000

/-- R184: the bound on the mass of `n` unread positions when the next bound lies `g` above the maximum. -/
def skipBound (g n : Nat) : Nat :=
  let g1 := fmax g 0xC2AE0000
  fmul (fmul (libFn 0 (fmul g1 0x3F7FFFF0)) (fofNat n)) 0x3F800010

/-- What a query has read: partials by segment, running maximum, pages taken of its order, NaN found, err. -/
structure QRun where
  segs : List AttPart
  m : Nat
  next : Nat
  bad : Bool
  err : Nat
  deriving DecidableEq, Repr

/-- Insert into a list sorted by `le`. -/
def insertBy {α : Type} (le : α → α → Bool) (x : α) : List α → List α
  | [] => [x]
  | y :: t => if le x y then x :: y :: t else y :: insertBy le x t

/-- A stable sort by `le`. -/
def sortBy {α : Type} (le : α → α → Bool) : List α → List α
  | [] => []
  | x :: t => insertBy le x (sortBy le t)

/-- One round: up to 16 segments of up to 4 pages; `pg j` gives the positions of logical page `j`. -/
def atRound (pg : Nat → List (Nat × List Nat)) (order : List Nat) (q : QRun) : QRun :=
  (List.range 16).foldl (fun r _ =>
    if order.length ≤ r.next then r
    else
      let l := ((order.drop r.next).take 4).flatMap pg
      let part := segPartial l
      { r with segs := r.segs ++ [part], m := fmax r.m part.m, next := min (r.next + 4) order.length,
               bad := r.bad || l.any (fun x => badZ x.1) }) q

/-- R184, R187: the rounds of a query until it stops. `ub j` is the bound of page `j`, `left k` the valid positions of
the pages from rank `k`. -/
def atLoop (exact : Bool) (t maxErr : Nat) (pg : Nat → List (Nat × List Nat)) (ub : Nat → Nat) (left : Nat → Nat)
    (order : List Nat) : Nat → QRun → QRun
  | 0, q => q
  | fuel + 1, q =>
    if q.bad then q
    else if order.length ≤ q.next then { q with err := 0 }
    else if exact then atLoop exact t maxErr pg ub left order fuel (atRound pg order q)
    else
      let g := fsub (ub (order.getD q.next 0)) q.m
      let e := skipBound g (left q.next)
      if vlt (val32 g) (val32 (fneg t)) && (maxErr == 0 || !vlt (val32 maxErr) (val32 e)) then { q with err := e }
      else atLoop exact t maxErr pg ub left order fuel (atRound pg order q)

/-- Valid positions of logical page `j` of a sequence of length `len` (R166). -/
def validAt (len j : Nat) : Nat := min 64 (len - 64 * j)

/-- The bytes of a pool page: its pinned slot when that is filled, else HBM (R183, R191). -/
def pageBytes (s : State) (p : Nat) (r : KvRoot) (n : Nat) : List Byte :=
  match (partGet s p).pins.find? (fun x => x.page == n && x.filled) with
  | some x => crd s .slice x.home (r.pinOff + 16384 * x.slot) 16384
  | none => hpeek s p (r.pageAt n) 16384

/-- The vector of 128 elements at byte `o` of a list. -/
def vec128 (b : List Byte) (o : Nat) : List Nat := ((b.drop o).take 128).map (·.toNat)

/-- The positions of a page: (z, V widened) of its first `n` (R163, R166). -/
def pagePositions (qf kf scale : Nat) (q : List Nat) (b : List Byte) (n : Nat) : List (Nat × List Nat) :=
  (List.range n).map (fun i => (atScore qf kf scale q (vec128 b (128 * i)), (vec128 b (8192 + 128 * i)).map (widen kf)))

/-- R164: where the bound record of page `n` lies: in HBM (partition address), or in the slice of a cell. -/
def boundAt (q : Part) (r : KvRoot) (n : Nat) : Sum Nat (Nat × Nat) :=
  if r.boundSlice then .inr (pageHome q n, r.bound % 2 ^ 24 + n / q.cells.length * 512) else .inl (r.bound + n * 512)

/-- Read the bound record of page `n`. -/
def readBound (p : Nat) (r : KvRoot) (s : State) (n : Nat) : Got (List Byte) :=
  match boundAt (partGet s p) r n with
  | .inl a => hgetE s p a 512
  | .inr (h, a) =>
    if scratchBytes s h < a + 512 then (s, .error (rOutOfPartition, 0))
    else match firstBad s.mems .slice (sliceA h a) 512 with
      | some u => (noteUe s .slice u, .error (rEccUncorr, 0))
      | none => (s, .ok (crd s .slice h a 512))

/-- The 256 BF16 values of a record. -/
def bf16s (b : List Byte) : List Nat := (List.range 256).map (fun i => fld b (2 * i) 2)

/-- The query vector `q` (R195). -/
def queryVec (s : State) (c : Nat) (d : List Byte) (q : Nat) : List Nat :=
  (List.range 128).map (fun k => laneElem s .bench c (fld d 28 4) (if dSkew d then atQPitch d else 128) 8 256 32 128 (dSkew d) q k)

/-! ### Running (R188, R189, R191, R198) -/

/-- Fetch one page for cell `c`: from its slot, filling the slot at the first fetch after pinning, or from HBM (R188, R191). -/
def fetchPage (c p : Nat) (r : KvRoot) (s : State) (n : Nat) : Got Unit :=
  let s0 := bumpSat s (pgArrays c + 0x44) 1
  match (partGet s0 p).pins.find? (fun x => x.page == n) with
  | some x =>
    if x.filled then
      let a := r.pinOff + 16384 * x.slot
      match firstBad s0.mems .slice (sliceA x.home a) 16384 with
      | some u => (noteUe s0 .slice u, .error (rEccUncorr, 0))
      | none => (bumpSat s0 (pgArrays c + 0x4C) 1, .ok ())
    else Got.bind (hgetE s0 p (r.pageAt n) 16384) (fun s1 b =>
      let s2 := wr s1 .slice (sliceA x.home (r.pinOff + 16384 * x.slot)) b
      let q := partGet s2 p
      (partPut s2 p { q with pins := q.pins.map (fun y => if y.page = n then { y with filled := true } else y) }, .ok ()))
  | none => Got.bind (hgetE s0 p (r.pageAt n) 16384) (fun s1 _ => (s1, .ok ()))

/-- What the queries of a descriptor give. -/
structure AttRes where
  root : KvRoot
  queries : List Query
  runs : List QRun
  orders : List (List Nat)
  deriving DecidableEq, Repr

/-- Distinct elements in order of first appearance. -/
def distinct : List Nat → List Nat
  | [] => []
  | x :: t => x :: (distinct t).filter (· != x)

/-- The distinct pool pages of each round (R188), with the segment index of each page in its round. -/
def roundPages (a : AttRes) (k : Nat) : List (Nat × Nat) :=
  ((a.queries.zip (a.orders.zip a.runs)).flatMap (fun x =>
    (((x.2.1.take x.2.2.next).drop (64 * k)).take 64).zipIdx.map (fun y => (x.1.pages.getD y.1 0, y.2 / 4)))).foldl
    (fun l y => if l.any (fun z => z.1 == y.1) then l else l ++ [y]) []

/-- Read everything an ATTN needs and run its queries (R180 to R187). -/
def attnCompute (s : State) (c p : Nat) (d : List Byte) : Got AttRes :=
  let layer := byteAt d 12
  let head := byteAt d 13
  let scale := fld d 40 4
  let t := if fld d 44 4 = 0 then 0x41800000 else fld d 44 4
  Got.bind (hgetE s p (fld d 16 8) 64) (fun s1 rb =>
    match kvRoot rb with
    | none => gotFail s1 dAtRoot
    | some r =>
      if r.layers ≤ layer ∨ r.heads ≤ head then gotFail s1 dAtParam
      else Got.bind (gotMap (resolveQuery p r layer head) s1 (queryList s1 c d)) (fun s2 qs =>
        Got.bind (if atExact d then (s2, .ok []) else
            gotMap (readBound p r) s2 (distinct (qs.flatMap (·.pages)))) (fun s3 bs =>
          let bounds := (distinct (qs.flatMap (·.pages))).zip (bs.map bf16s)
          let runs := qs.zipIdx.map (fun x =>
            let q := x.1
            let qv := queryVec s3 c d x.2
            let kb := crd s3 .bench c (fld d 32 4 + 256 * q.cur) 256
            let seg0 := [(atScore (byteAt d 9) r.fmt scale qv (vec128 kb 0), (vec128 kb 128).map (widen r.fmt))]
            let ub := fun j => atBound (byteAt d 9) scale qv (((bounds.find? (fun y => y.1 == q.pages.getD j 0)).map (·.2)).getD [])
            let us := (List.range q.pages.length).map (fun j => (j, if atExact d then 0 else ub j))
            let order := if atExact d then List.range q.pages.length
              else (sortBy (fun a b => !vlt (val32 a.2) (val32 b.2)) us).map (·.1)
            let p0 := segPartial seg0
            let run := atLoop (atExact d) t (fld d 48 4)
              (fun j => pagePositions (byteAt d 9) r.fmt scale qv (pageBytes s3 p r (q.pages.getD j 0)) (validAt q.len j))
              (fun j => ((us.find? (fun y => y.1 == j)).map (·.2)).getD 0)
              (fun k => (order.drop k).foldl (fun a j => a + validAt q.len j) 0)
              order (q.pages.length / 64 + 2) ⟨[p0], p0.m, 0, seg0.any (fun y => badZ y.1), 0⟩
            (order, run))
          (s3, .ok ⟨r, qs, runs.map (·.2), runs.map (·.1)⟩))))

/-- The output elements and the statistics of query `q` (R182, R197). -/
def attnOut (ctx : RoundCtx) (d : List Byte) (q : Nat) (x : Query × QRun × List Nat) : List (Nat × Nat) × List Byte :=
  let run := x.2.1
  let fo := byteAt d 10
  let r := (canonicalTree attMerge run.segs).getD ⟨ninf32, 0, []⟩
  let sr := fun i => if bits (atMode d) 7 6 = 1 then some (srRandom ctx.seed ctx.sample ctx.step (q * 128 + i)) else none
  let els := (List.range 128).map (fun i =>
    if run.bad then convertTo fo (sr i) nan32
    else if r.m = ninf32 then (0, 0)
    else convertTo fo (sr i) (fdiv (r.o.getD i 0) r.s))
  let skipped := (x.2.2.drop run.next).foldl (fun a j => a + validAt x.1.len j) 0
  (els, leBytes 4 (if run.bad then nan32 else r.m) ++ leBytes 4 (if run.bad then nan32 else run.err) ++
    leBytes 4 run.next ++ leBytes 4 skipped)

/-- R165: a bound record after key `k`, each dimension under R44. -/
def boundAdd (kf : Nat) (rec' : List Nat) (k : List Nat) : List Nat :=
  (List.range 256).map (fun i =>
    let x := widen kf (k.getD (i % 128) 0)
    let y := rec'.getD i 0 * 2 ^ 16
    (convertTo 0x02 none (if i < 128 then fmin y x else fmax y x)).1)

/-- The writes that store bytes at a bound record's place. -/
def boundWrites (s : State) (p : Nat) (r : KvRoot) (n : Nat) (b : List Byte) : List (Space × Nat × List Byte) :=
  match boundAt (partGet s p) r n with
  | .inl a => hwrites s p a b
  | .inr (h, a) => [(Space.slice, sliceA h a, b)]

/-- R285: invalidate the lines of a bound record in HBM. -/
def boundInval (s : State) (p : Nat) (r : KvRoot) (n : Nat) : State :=
  match boundAt (partGet s p) r n with
  | .inl a => hinval s p a 512
  | .inr _ => s

/-- R196: the append of one current entry: the writes of its key, its value and its bound record. -/
def appendOne (c p : Nat) (d : List Byte) (r : KvRoot) (s : State) (q : Query) : Got (List (Space × Nat × List Byte)) :=
  if q.len = 1048576 then gotFail s dAtAppend
  else
    let lp := q.len / 64
    Got.bind (hgetE s p (r.dirAt q.seq + 16 + 4 * r.l1Index (byteAt d 12) lp) 4) (fun s1 b1 =>
      match entryPage (leNat b1) with
      | none => gotFail s1 dAtAppend
      | some t =>
        if r.pages ≤ t then gotFail s1 dAtBadPage
        else Got.bind (hgetE s1 p (r.pageAt t + r.l2Byte lp (byteAt d 13)) 4) (fun s2 b2 =>
          match entryPage (leNat b2) with
          | none => gotFail s2 dAtAppend
          | some n =>
            if r.pages ≤ n then gotFail s2 dAtBadPage
            else Got.bind (hgetE s2 p (r.stateAt n) 4) (fun s3 w =>
              if leNat w % 65536 ≠ 1 then gotFail s3 dAtAppend
              else Got.bind (readBound p r s3 n) (fun s4 rb =>
                let kb := crd s4 .bench c (fld d 32 4 + 256 * q.cur) 256
                let a := r.pageAt n + 128 * (q.len % 64)
                if (hphys s4 p a 128).isNone || (hphys s4 p (a + 8192) 128).isNone then (s4, .error (rOutOfPartition, 0))
                else
                  let nb := (boundAdd r.fmt (bf16s rb) (vec128 kb 0)).flatMap (leBytes 2)
                  let s5 := boundInval (hinval (hinval s4 p a 128) p (a + 8192) 128) p r n
                  (s5, .ok (hwrites s5 p a (kb.take 128) ++ hwrites s5 p (a + 8192) (kb.drop 128) ++
                    boundWrites s5 p r n nb))))))

/-- One query per sequence, in list order. -/
def perSeq : List Query → List Query
  | [] => []
  | q :: t => q :: (perSeq t).filter (fun x => x.seq != q.seq)

/-- The members of the split group of a descriptor of cell `c`; the cell itself without a group. -/
def atMembers (c : Nat) (d : List Byte) : List Nat :=
  if atGroup d then (maskBits 16 (atGroupMask d)).map (fun i => c / 16 * 16 + i) else [c]

/-- R188, R190: the fetches of the rounds, each by the member that computes its segment. -/
def atFetches (p : Nat) (ms : List Nat) (a : AttRes) (s : State) : Got (List Unit) :=
  let rounds := (a.runs.foldl (fun n r => max n (ceilDiv r.next 64)) 0)
  gotMap (fun t y => fetchPage (ms.getD (y.2 % ms.length) 0) p a.root t y.1) s ((List.range rounds).flatMap (roundPages a))

/-- R189: pages fetched ahead and not read: a free number within what LOOKAHEAD allows. -/
def atOverread (c : Nat) (d : List Byte) (a : AttRes) (s : State) : State :=
  let room := (a.runs.zip a.orders).foldl (fun n x => n + min (64 * byteAt d 15) (x.2.length - x.1.next)) 0
  if room = 0 then s
  else
    let (k, s1) := freeBelow (room + 1) s
    bumpSat s1 (pgArrays c + 0x48) k

/-- R201: the pages that entered results, counted at the member that computes their segment. -/
def atCount (ms : List Nat) (a : AttRes) (s : State) : State :=
  ms.zipIdx.foldl (fun t m => bumpSat t (pgArrays m.1 + 0x40)
    (a.runs.foldl (fun n r => n + ((List.range r.next).filter (fun i => i / 4 % 16 % ms.length == m.2)).length) 0)) s

/-- The result of an ATTN of cell `c`, the leader of its group. -/
def attnRun (s : State) (c : Nat) (d : List Byte) : RunOut :=
  let s0 := unskewed s c d
  let p := (ownerOf s c).getD 1024
  let ms := atMembers c d
  let res : Got (List (Space × Nat × List Byte) × Nat) := Got.bind (attnCompute s0 c p d) (fun s1 a =>
    Got.bind (atFetches p ms a s1) (fun s2 _ =>
      let ctx := readRound s2 c (fld d 56 4)
      let outs := (a.queries.zip (a.runs.zip a.orders)).zipIdx.map (fun x => attnOut ctx d x.2 (x.1.1, x.1.2.1, x.1.2.2))
      let w1 := outs.zipIdx.map (fun x => (Space.bench, benchA c (fld d 36 4 + x.2 * 128 * codeBytes (byteAt d 10)),
        x.1.1.flatMap (fun e => leBytes (codeBytes (byteAt d 10)) e.1)))
      let w2 := if bit (atMode d) 3 then
        outs.zipIdx.map (fun x => (Space.bench, benchA c (fld d 52 4 + 16 * x.2), x.1.2)) else []
      let ev := outs.foldl (fun e x => x.1.foldl (fun f y => f ||| y.2) e) 0
      Got.bind (if bit (atMode d) 1 then gotMap (appendOne c p d a.root) s2 (perSeq a.queries) else (s2, .ok []))
        (fun s3 apps => (atOverread c d a (atCount ms a s3), .ok (w1 ++ w2 ++ apps.flatten, ev)))))
  match res with
  | (s1, .ok (ws, ev)) => ranOk (arithArrays s1 c ev) ws
  | (s1, .error (r, det)) => ranFail s1 [] r det (attnResults d)

/-! ### Split groups (R190) -/

/-- The key of a split group of a block. -/
def splitKey (c : Nat) (d : List Byte) : Nat := c / 16 * 8 + byteAt d 14 % 8

/-- A split group. -/
def splitGet (s : State) (k : Nat) : Split := tabGet (fun _ => ⟨0, []⟩) s.splits k

/-- Replace a split group; one with no members is none. -/
def splitPut (s : State) (k : Nat) (x : Split) : State :=
  { s with splits := tabPut (fun _ => ⟨0, []⟩) s.splits k (if x.members.isEmpty then ⟨0, []⟩ else x) }

/-- The waiting ATTN of a member of group `k`. -/
def splitDesc (s : State) (k c : Nat) : Option RunDesc :=
  match (cellGet s c).run with
  | none => none
  | some jr => jr.issued.find? (fun r => r.phase == .waiting && dOp r.desc == 3 && atGroup r.desc && splitKey c r.desc == k)

/-- Members whose bytes 8 to 59 differ from the leader's fail once both have issued (R190). -/
def splitCull (s : State) (k : Nat) : State :=
  let g := splitGet s k
  match (maskBits 16 g.mask).head? with
  | none => s
  | some l =>
    let lead := k / 8 * 16 + l
    match splitDesc s k lead with
    | none => s
    | some ld =>
      g.members.foldl (fun t c => match splitDesc t k c with
        | none => t
        | some r =>
          if (r.desc.drop 8).take 52 = (ld.desc.drop 8).take 52 then t
          else
            let x := splitGet t k
            putRun c r.idx (ranFail (splitPut t k { x with members := x.members.filter (· != c) }) [] rUnitCheck dAtGroup
              (attnResults r.desc))) s

/-- R190: when every member has issued the group runs: the leader computes and writes, the others end with it. -/
def splitForm (s : State) (k : Nat) : State :=
  let g := splitGet s k
  if !(maskBits 16 g.mask).all (fun i => g.members.contains (k / 8 * 16 + i)) || g.mask == 0 then s
  else match (maskBits 16 g.mask).head? with
    | none => s
    | some l =>
      let lead := k / 8 * 16 + l
      match splitDesc s k lead with
      | none => s
      | some ld =>
        let o := withReads s lead (attnPlan s lead ld.desc) (fun t => attnRun t lead ld.desc)
        let rest := (g.members.filter (· != lead)).filterMap (fun c => (splitDesc s k c).map (fun r => (c, r)))
        let s1 := splitPut (putRun lead ld.idx o) k ⟨0, []⟩
        rest.foldl (fun t x =>
          let t1 := unskewed t x.1 x.2.desc
          putRun x.1 x.2.idx (if o.status = 0 then ranOk t1 [] else ranFail t1 [] o.reason o.detail [])) s1

/-- R190: descriptor `r` of cell `c` joins its group; an unequal mask fails it. -/
def splitJoin (s : State) (c : Nat) (r : RunDesc) : State :=
  let k := splitKey c r.desc
  let g := splitGet s k
  if g.members ≠ [] ∧ g.mask ≠ atGroupMask r.desc then
    putRun c r.idx (ranFail s [] rUnitCheck dAtGroup (attnResults r.desc))
  else
    let s1 := splitPut s k ⟨atGroupMask r.desc, g.members ++ [c]⟩
    splitForm (splitCull (putRun c r.idx (ranWait s1)) k) k

/-- R190, R101: a member that leaves dissolves the group; every other waiting member completes with TIMEOUT. -/
def splitDissolve (s : State) (c : Nat) (r : RunDesc) : State :=
  let k := splitKey c r.desc
  let g := splitGet s k
  if !g.members.contains c then s
  else (g.members.filter (· != c)).foldl (fun t x => match splitDesc t k x with
    | none => t
    | some q => endWith t x q.idx stTimeout rWaitTimeout 0) (splitPut s k ⟨0, []⟩)

end Sys2Proof.Machine
end

