-- ==== Sys2Proof/Machine/Gsu.lean ====
section
/-!
DEFINITION. Machine/Gsu.lean: the gather/scatter unit of a block: GATHER and SCATTER (R249 to R255), SEGRED (R256 to
R259), SORT (R260, R261), the grant (R247, R248).
Log entries that code here: 36 (DEDUCED, unsafe).
-/

namespace Sys2Proof.Machine

/-! ### Local regions and tables (R249) -/

/-- A local address field: the space in [31], the address in [23:0]. -/
def locSpace (v : Nat) : Space := if bit v 31 then .slice else .bench
def locRegion (v len : Nat) : Region := flat (locSpace v) (v % 2 ^ 24) len

/-- The checks of a local address field. -/
def locChecks (v : Nat) : List Chk := [chkZero (bits v 30 24 != 0), chkAlign (v % 2 ^ 24) 32]

/-- A pitch below its minimum (R264). -/
def chkPitch (b : Bool) : Chk := (b, rUnitCheck, dGsTable)

def gsCount (d : List Byte) : Nat := fld d 8 4
def gsRowBytes (d : List Byte) : Nat := fld d 12 2
def gsTabSpace (d : List Byte) : Nat := byteAt d 16
def gsTabCell (c : Nat) (d : List Byte) : Nat := if gsTabSpace d = 3 then fld d 18 2 else c
def gsTabRows (d : List Byte) : Nat := fld d 20 4
def gsTabAddr (d : List Byte) : Nat := fld d 24 8
def gsTabPitch (d : List Byte) : Nat := fld d 44 4
def gsScatter (d : List Byte) : Bool := dOp d == 0x0A
def gsIdx16 (d : List Byte) : Bool := bit (byteAt d 15) 3

/-- R104 step 6 for GATHER and SCATTER (R252). -/
def gsFields (s : State) (c : Nat) (d : List Byte) : List Chk :=
  let op := bits (byteAt d 15) 1 0
  let ef := byteAt d 14
  let sp := gsTabSpace d
  let rb := gsRowBytes d
  let mine := match ownerOf s c with
    | some p => (partGet s p).cells.contains (fld d 18 2)
    | none => false
  [ chkShape (decide (1048576 < gsCount d)), chkShape (decide (rb < 4 ∨ 16384 < rb) || rb % 4 != 0),
    chkFmt (gsScatter d && op != 0 && !(ef == 0 || ef == 1 || ef == 2 || ef == 0x21)),
    chkZero (!(gsScatter d && op != 0) && ef != 0),
    chkFmt (!gsScatter d && op != 0), chkZero (bits (byteAt d 15) 7 4 != 0),
    (!(sp == 0 || sp == 1 || sp == 3 || sp == 4), rBadSpace, 0), chkZero (byteAt d 17 != 0),
    chkZero (sp != 3 && fld d 18 2 != 0), (sp == 3 && !mine, rUnitCheck, dGsTable),
    chkShape (decide (gsTabRows d < 1 ∨ 65536 < gsTabRows d)), chkAlign (gsTabAddr d) 4 ] ++
  locChecks (fld d 32 4) ++ locChecks (fld d 36 4) ++
  [ chkAlign (fld d 40 4) 4, chkPitch (decide (fld d 40 4 < rb)), chkAlign (gsTabPitch d) 4,
    chkPitch (decide (gsTabPitch d < rb)), chkZero (!zeroAt d 48 16) ]

/-- The table as a region of the issuing cell's own memory, when it lies there. -/
def gsTabLocal (c : Nat) (d : List Byte) : List Region :=
  let len := gsTabRows d * gsTabPitch d
  if gsTabSpace d = 0 then [flat .bench (gsTabAddr d) len]
  else if gsTabSpace d = 1 ∨ (gsTabSpace d = 3 ∧ gsTabCell c d = c) then [flat .slice (gsTabAddr d) len] else []

/-- R249: the table's extent in another cell's slice or in HBM. -/
def gsTabExtent (s : State) (c : Nat) (d : List Byte) : Chk :=
  let last := gsTabAddr d + gsTabRows d * gsTabPitch d
  (if gsTabSpace d = 3 then decide (scratchBytes s (gsTabCell c d) < last)
   else if gsTabSpace d = 4 then decide ((partGet s ((ownerOf s c).getD 1024)).hbmBytes < last) else false, rOutOfPartition, 0)

def gsIdxRegion (d : List Byte) : Region := locRegion (fld d 32 4) (gsCount d * (if gsIdx16 d then 2 else 4))
def gsRowsRegion (d : List Byte) : Region := locRegion (fld d 36 4) (gsCount d * fld d 40 4)

/-- The issue plan of GATHER and SCATTER. -/
def gsPlan (s : State) (c : Nat) (d : List Byte) : Plan :=
  let tab := gsTabLocal c d
  let ix := gsIdxRegion d
  let rows := gsRowsRegion d
  let bad := rows.meets ix || tab.any (fun t => t.meets rows || (gsScatter d && t.meets ix))
  ⟨gsFields s c d, [], tab ++ [ix, rows], [gsTabExtent s c d, (bad, rUnitCheck, dGsOverlap)], [],
    if gsCount d = 0 then [] else [ix],
    if gsScatter d then [] else [⟨rows.sp, rows.base, gsCount d, fld d 40 4, gsRowBytes d⟩]⟩

/-- Read a row of bytes of the table (R249, R290). -/
def gsTabRead (c : Nat) (d : List Byte) (s : State) (row : Nat) : HRead :=
  let a := gsTabAddr d + row * gsTabPitch d
  let n := gsRowBytes d
  if gsTabSpace d = 4 then hget s ((ownerOf s c).getD 1024) a n true
  else
    let sp := if gsTabSpace d = 0 then Space.bench else .slice
    let k := gsTabCell c d
    match readEcc s k [flat sp a n] with
    | (s1, true) => (s1, 0, crd s1 sp k a n)
    | (s1, false) => (s1, rEccUncorr, [])

/-- The writes of a row of the table. -/
def gsTabWrites (c : Nat) (d : List Byte) (s : State) (row : Nat) (b : List Byte) : List (Space × Nat × List Byte) :=
  let a := gsTabAddr d + row * gsTabPitch d
  if gsTabSpace d = 4 then hwrites s ((ownerOf s c).getD 1024) a b
  else
    let sp := if gsTabSpace d = 0 then Space.bench else .slice
    [(sp, cellAddr sp (gsTabCell c d) a, b)]

/-- R285: invalidate the lines of a table row in HBM. -/
def gsTabInval (c : Nat) (d : List Byte) (s : State) (row : Nat) : State :=
  if gsTabSpace d = 4 then hinval s ((ownerOf s c).getD 1024) (gsTabAddr d + row * gsTabPitch d) (gsRowBytes d) else s

/-! ### Indices (R250, R251) -/

/-- An index list of a cell: none for the null index. -/
def gsIndices (s : State) (c : Nat) (r : Region) (idx16 : Bool) (n : Nat) : List (Option Nat) :=
  let w := if idx16 then 2 else 4
  (List.range n).map (fun i =>
    let v := crdN s r.sp c (r.base + i * w) w
    if v = 2 ^ (8 * w) - 1 then none else some v)

/-- The GSU page of a cell's block. -/
def gsPage (c : Nat) : Nat := pgGsu (c / 16)

/-- R251: the scan: the list with out-of-range entries made null, or the position of the first. -/
def gsScan (s : State) (c lim : Nat) (skip : Bool) (l : List (Option Nat)) : State × Except Nat (List (Option Nat)) :=
  let out := fun (x : Option Nat) => match x with
    | some v => decide (lim ≤ v)
    | none => false
  match l.findIdx? out with
  | none => (s, .ok l)
  | some i =>
    if skip then
      (raise (bumpSat s (gsPage c + 0x44) (l.filter out).length) (gsPage c) 0x100,
        .ok (l.map (fun x => if out x then none else x)))
    else (rset s (gsPage c + 0x48) i, .error i)

/-- Arithmetic events of the GSU page (R263). -/
def arithGsu (s : State) (c ev : Nat) : State := if ev = 0 then s else raise s (gsPage c) ev

/-! ### GATHER and SCATTER (R253 to R255) -/

/-- GATHER: the rows in ascending edge index. -/
def gatherRows (c : Nat) (d : List Byte) (out : Region) : State → List (Space × Nat × List Byte) → List (Option Nat × Nat) → RunOut
  | s, ws, [] => ranOk s ws
  | s, ws, (x, e) :: t =>
    let put := fun (b : List Byte) => (out.sp, cellAddr out.sp c (out.base + e * fld d 40 4), b)
    match x with
    | none => gatherRows c d out s (ws ++ [put (List.replicate (gsRowBytes d) 0#8)]) t
    | some r => match gsTabRead c d s r with
      | (s1, 0, b) => gatherRows c d out s1 (ws ++ [put b]) t
      | (s1, q, _) => ranFail s1 ws q 0 [⟨out.sp, out.base, gsCount d, fld d 40 4, gsRowBytes d⟩]

/-- Signed comparison of 32-bit words. -/
def int32Lt (a b : Nat) : Bool := decide (toSigned 32 a < toSigned 32 b)

/-- R254, R258: combine two elements of a format: 1 add, 2 maximum, 3 minimum. -/
def gsCombine (code op t v : Nat) : Nat × Nat :=
  if code = 0x21 then
    if op = 1 then encodeInt 32 (ofInt (toSigned 32 t + toSigned 32 v))
    else if op = 2 then (if int32Lt t v then v else t, 0) else (if int32Lt v t then v else t, 0)
  else
    let a := widen code t
    let b := widen code v
    convertTo code none (if op = 1 then fadd a b else if op = 2 then fmax a b else fmin a b)

/-- The elements of a row. -/
def rowElems (w : Nat) (b : List Byte) : List Nat := (List.range (b.length / max w 1)).map (fun i => fld b (i * w) w)

/-- R254: one edge on its destination row. -/
def scatterRow (d : List Byte) (old src : List Byte) : List Byte × Nat :=
  let op := bits (byteAt d 15) 1 0
  if op = 0 then (src, 0)
  else
    let w := codeBytes (byteAt d 14)
    let r := ((rowElems w old).zip (rowElems w src)).map (fun x => gsCombine (byteAt d 14) op x.1 x.2)
    (r.flatMap (fun x => leBytes w x.1), r.foldl (fun a x => a ||| x.2) 0)

/-- The rows written so far, latest first. -/
def scatterDone (c : Nat) (d : List Byte) (s : State) (rows : List (Nat × List Byte)) : State × List (Space × Nat × List Byte) :=
  let ks := distinct (rows.map (·.1))
  (ks.foldl (fun t r => gsTabInval c d t r) s,
    ks.flatMap (fun r => match rows.find? (fun y => y.1 == r) with
      | some (_, b) => gsTabWrites c d s r b
      | none => []))

/-- SCATTER: the edges in ascending index; a failing edge leaves the rows of the edges below it (R255). -/
def scatterRows (c : Nat) (d : List Byte) (src : Region) : State → List (Nat × List Byte) → Nat → List (Option Nat × Nat) → RunOut
  | s, rows, ev, [] =>
    let (s1, ws) := scatterDone c d s rows
    ranOk (arithGsu (bumpSat s1 (gsPage c + 0x50) (gsCount d)) c ev) ws
  | s, rows, ev, (x, e) :: t =>
    match x with
    | none => scatterRows c d src s rows ev t
    | some r =>
      let fail := fun (s2 : State) =>
        let (s3, ws) := scatterDone c d s2 rows
        ranFail (arithGsu (bumpSat (rset s3 (gsPage c + 0x48) e) (gsPage c + 0x50) e) c ev) ws rEccUncorr 0 []
      match readEcc s c [flat src.sp (src.base + e * fld d 40 4) (gsRowBytes d)] with
      | (s1, false) => fail s1
      | (s1, true) =>
        let got : HRead := match rows.find? (fun y => y.1 == r) with
          | some (_, b) => (s1, 0, b)
          | none => if bits (byteAt d 15) 1 0 = 0 then (s1, 0, []) else gsTabRead c d s1 r
        match got with
        | (s2, 0, old) =>
          let (b, ev2) := scatterRow d old (crd s2 src.sp c (src.base + e * fld d 40 4) (gsRowBytes d))
          scatterRows c d src s2 ((r, b) :: rows) (ev ||| ev2) t
        | (s2, _, _) => fail s2

/-- A granted GATHER or SCATTER. -/
def gsRun (s : State) (c : Nat) (d : List Byte) : RunOut :=
  if gsCount d = 0 then ranOk s []
  else
    let ix := gsIdxRegion d
    match gsScan s c (gsTabRows d) (bit (byteAt d 15) 2) (gsIndices s c ix (gsIdx16 d) (gsCount d)) with
    | (s1, .error _) => ranFail s1 [] rUnitCheck dGsIndex []
    | (s1, .ok l) =>
      if gsScatter d then scatterRows c d (gsRowsRegion d) s1 [] 0 l.zipIdx
      else gatherRows c d (gsRowsRegion d) (bumpSat s1 (gsPage c + 0x50) (gsCount d)) [] l.zipIdx

/-! ### SEGRED (R256 to R259) -/

/-- R104 step 6 for a SEGRED. -/
def segFields (d : List Byte) : List Chk :=
  let fi := byteAt d 16
  let fo := byteAt d 17
  let mode := byteAt d 18
  let rb := fld d 32 2
  [ chkShape (decide (1048576 < gsCount d)), chkShape (decide (fld d 12 4 < 1 ∨ 65536 < fld d 12 4)),
    chkFmt (!(fi == 0 || fi == 1 || fi == 2 || fi == 0x21)),
    chkFmt (if fi = 0x21 then fo != 0x21 else !(fo == 0 || fo == 1 || fo == 2)),
    chkFmt (fi == 0x21 && bits mode 1 0 == 3), chkZero (bits mode 7 5 != 0), chkZero (byteAt d 19 != 0) ] ++
  locChecks (fld d 20 4) ++ locChecks (fld d 24 4) ++ locChecks (fld d 28 4) ++
  [ chkShape (decide (rb < 4 ∨ 16384 < rb) || rb % 4 != 0), chkZero (!zeroAt d 34 2), chkAlign (fld d 36 4) 4,
    chkPitch (decide (fld d 36 4 < rb)), chkAlign (fld d 40 4) 4,
    chkPitch (decide (fld d 40 4 < rb / max (codeBytes fi) 1 * codeBytes fo)),
    chkZero (!bit mode 4 && fld d 44 4 != 0) ] ++ locChecks (fld d 44 4) ++ [chkZero (!zeroAt d 48 16)]

def segIds (d : List Byte) : Bool := bit (byteAt d 18) 2
def segNum (d : List Byte) : Nat := fld d 12 4
def segIn (d : List Byte) : Region := locRegion (fld d 20 4) (gsCount d * fld d 36 4)
def segList (d : List Byte) : Region := locRegion (fld d 24 4) (4 * (if segIds d then gsCount d else segNum d + 1))

/-- The output rows and the counts. -/
def segOuts (d : List Byte) : List Region :=
  locRegion (fld d 28 4) (segNum d * fld d 40 4) :: (if bit (byteAt d 18) 4 then [locRegion (fld d 44 4) (4 * segNum d)] else [])

/-- The issue plan of a SEGRED. -/
def segPlan (d : List Byte) : Plan :=
  let ins := [segIn d, segList d]
  let outs := segOuts d
  let bad := outs.any (fun o => ins.any o.meets) || (match outs with
    | [a, b] => a.meets b
    | _ => false)
  let inRows : Region := ⟨locSpace (fld d 20 4), fld d 20 4 % 2 ^ 24, gsCount d, fld d 36 4, fld d 32 2⟩
  let outW := fld d 32 2 / max (codeBytes (byteAt d 16)) 1 * codeBytes (byteAt d 17)
  ⟨segFields d, [], ins ++ outs, [(bad, rUnitCheck, dGsOverlap)], [], [segList d, inRows],
    ⟨locSpace (fld d 28 4), fld d 28 4 % 2 ^ 24, segNum d, fld d 40 4, outW⟩ :: outs.drop 1⟩

/-- R257: the segment of each row, none where it is skipped. -/
def segOfRows (s : State) (c : Nat) (d : List Byte) : State × Except Nat (List (Option Nat)) :=
  let r := segList d
  if segIds d then
    match gsScan s c (segNum d) (bit (byteAt d 18) 3) (gsIndices s c r false (gsCount d)) with
    | (s1, .ok l) => (bumpSat s1 (gsPage c + 0x50) (gsCount d), .ok l)
    | (s1, .error _) => (s1, .error dGsIndex)
  else
    let off := (List.range (segNum d + 1)).map (fun i => crdN s r.sp c (r.base + 4 * i) 4)
    if off.getD 0 1 ≠ 0 ∨ off.getD (segNum d) 0 ≠ gsCount d ∨
        ((off.zip (off.drop 1)).any (fun x => decide (x.2 < x.1))) = true then (s, .error dGsOffsets)
    else (s, .ok ((off.zip (off.drop 1)).zipIdx.flatMap (fun x => List.replicate (x.1.2 - x.1.1) (some x.2))))

/-- R258: one element of a segment from its column of rows, not empty. -/
def segElem (d : List Byte) (xs : List Nat) : Nat × Nat :=
  let fi := byteAt d 16
  let fo := byteAt d 17
  let kind := bits (byteAt d 18) 1 0
  if fi = 0x21 then
    if kind = 0 then encodeInt 32 (ofInt (xs.foldl (fun a x => a + toSigned 32 x) 0))
    else (xs.tail.foldl (fun a x => (gsCombine 0x21 (kind + 1) a x).1) (xs.headD 0), 0)
  else
    let ys := xs.map (widen fi)
    let v := if kind = 0 then ys.foldl fadd 0
      else if kind = 1 then ys.tail.foldl fmax (ys.headD 0)
      else if kind = 2 then ys.tail.foldl fmin (ys.headD 0)
      else fdiv (ys.foldl fadd 0) (fofNat ys.length)
    convertTo fo none v

/-- A granted SEGRED. -/
def segRun (s : State) (c : Nat) (d : List Byte) : RunOut :=
  match segOfRows s c d with
  | (s1, .error det) => ranFail s1 [] rUnitCheck det []
  | (s1, .ok segs) =>
    let wi := codeBytes (byteAt d 16)
    let wo := codeBytes (byteAt d 17)
    let n := fld d 32 2 / max wi 1
    let isp := locSpace (fld d 20 4)
    let osp := locSpace (fld d 28 4)
    let csp := locSpace (fld d 44 4)
    let res := (List.range (segNum d)).map (fun g =>
      let rows := (segs.zipIdx.filter (fun x => x.1 == some g)).map (fun x =>
        rowElems wi (crd s1 isp c (fld d 20 4 % 2 ^ 24 + x.2 * fld d 36 4) (fld d 32 2)))
      (rows.length, (List.range n).map (fun i => if rows.isEmpty then (0, 0) else segElem d (rows.map (fun r => r.getD i 0)))))
    let empty := (res.filter (fun x => x.1 == 0)).length
    let s2 := if empty = 0 then s1 else raise (bumpSat s1 (gsPage c + 0x4C) empty) (gsPage c) 0x200
    let ev := res.foldl (fun a x => x.2.foldl (fun b y => b ||| y.2) a) 0
    ranOk (arithGsu s2 c ev) (res.zipIdx.flatMap (fun x =>
      (osp, cellAddr osp c (fld d 28 4 % 2 ^ 24 + x.2 * fld d 40 4), x.1.2.flatMap (fun y => leBytes wo y.1)) ::
      (if bit (byteAt d 18) 4 then [(csp, cellAddr csp c (fld d 44 4 % 2 ^ 24 + 4 * x.2), leBytes 4 x.1.1)] else [])))

/-! ### SORT (R260, R261) -/

def soN (d : List Byte) : Nat := fld d 8 4
def soK (d : List Byte) : Nat := if fld d 12 4 = 0 then soN d else fld d 12 4

/-- R104 step 6 for a SORT. -/
def sortFields (d : List Byte) : List Chk :=
  let kf := byteAt d 16
  let mode := byteAt d 17
  [ chkShape (decide (65536 < soN d)), chkShape (decide (soN d < fld d 12 4)),
    chkFmt (!(kf == 0 || kf == 1 || kf == 2 || kf == 0x21)), chkFmt (bit mode 4 && kf != 0x21), chkZero (bits mode 7 5 != 0),
    chkZero (!zeroAt d 18 2), chkAlign (fld d 20 4) 32, chkZero (!bit mode 2 && fld d 24 4 != 0), chkAlign (fld d 28 4) 32,
    chkZero (!bit mode 2 && fld d 32 4 != 0), chkZero (!bit mode 3 && fld d 36 4 != 0), chkZero (!zeroAt d 44 20) ]

/-- The regions of a SORT: keys, payloads, output keys, output payloads, output indices, count. -/
def sortRegions (d : List Byte) : List Region :=
  let w := codeBytes (byteAt d 16)
  let mode := byteAt d 17
  [ flat .bench (fld d 20 4) (w * soN d), flat .bench (fld d 24 4) (if bit mode 2 then 4 * soN d else 0),
    flat .bench (fld d 28 4) (w * soK d), flat .bench (fld d 32 4) (if bit mode 2 then 4 * soK d else 0),
    flat .bench (fld d 36 4) (if bit mode 3 then 4 * soK d else 0),
    flat .bench (fld d 40 4) (if fld d 40 4 = 0 then 0 else 4) ]

/-- The issue plan of a SORT: only KEY_OUT on KEY_ADDR and VAL_OUT on VAL_ADDR may coincide. -/
def sortPlan (d : List Byte) : Plan :=
  let rs := sortRegions d
  let z := rs.zipIdx
  let bad := z.any (fun a => z.any (fun b => decide (a.2 < b.2) && a.1.meets b.1 &&
    !(((a.2 == 0 && b.2 == 2) || (a.2 == 1 && b.2 == 3)) && a.1.base == b.1.base)))
  ⟨sortFields d, [], rs, [(bad, rUnitCheck, dGsOverlap)], [], rs.take 2, rs.drop 2⟩

/-- R261: the rank of a key. -/
def sortKey (d : List Byte) (x : Nat) : Int :=
  if byteAt d 16 = 0x21 then (if bit (byteAt d 17) 4 then (x : Int) else toSigned 32 x) else orderKey32 (widen (byteAt d 16) x)

/-- R261: a key as it is written out: a NaN canonical. -/
def sortOut (d : List Byte) (x : Nat) : Nat :=
  if byteAt d 16 = 0x21 then x else (convertTo (byteAt d 16) none (widen (byteAt d 16) x)).1

/-- Keep the first of each run of equal ranks. -/
def firstOfRuns : List (Int × Nat × Nat) → List (Int × Nat × Nat)
  | [] => []
  | [x] => [x]
  | x :: y :: t => if x.1 = y.1 then
      (match firstOfRuns (y :: t) with
        | _ :: u => x :: u
        | [] => [x])
    else x :: firstOfRuns (y :: t)

/-- A granted SORT. -/
def sortRun (s : State) (c : Nat) (d : List Byte) : RunOut :=
  let w := codeBytes (byteAt d 16)
  let mode := byteAt d 17
  let keys := (List.range (soN d)).map (fun i =>
    let x := crdN s .bench c (fld d 20 4 + w * i) w
    (sortKey d x, i, x))
  let sorted := sortBy (fun (a b : Int × Nat × Nat) => if bit mode 0 then decide (b.1 ≤ a.1) else decide (a.1 ≤ b.1)) keys
  let out := (if bit mode 1 then firstOfRuns sorted else sorted).take (soK d)
  let wr4 := fun (base : Nat) (l : List Nat) => (Space.bench, benchA c base, l.flatMap (leBytes 4))
  ranOk s ((if out.isEmpty then [] else
      [(Space.bench, benchA c (fld d 28 4), out.flatMap (fun x => leBytes w (sortOut d x.2.2)))] ++
      (if bit mode 2 then [wr4 (fld d 32 4) (out.map (fun x => crdN s .bench c (fld d 24 4 + 4 * x.2.1) 4))] else []) ++
      (if bit mode 3 then [wr4 (fld d 36 4) (out.map (·.2.1))] else [])) ++
    (if fld d 40 4 = 0 then [] else [wr4 (fld d 40 4) [out.length]]))

/-! ### The grant (R247, R248) -/

/-- The GSU opcodes. -/
def gsuOps : List Nat := [0x09, 0x0A, 0x0B, 0x0C]

/-- The GSU descriptor of a cell in the given phase. -/
def gsuDesc (s : State) (c : Nat) (ph : Phase) : Option RunDesc :=
  match (cellGet s c).run with
  | none => none
  | some jr => jr.issued.find? (fun r => r.phase == ph && gsuOps.contains (dOp r.desc))

/-- The cell whose descriptor is granted and has not completed (R263). -/
def gsuBusy (s : State) (g : Nat) : Option Nat :=
  (List.range 16).find? (fun i => (gsuDesc s (16 * g + i) .ran).isSome)

/-- R247: the next waiting cell after the one granted last. -/
def gsuNext (s : State) (g : Nat) : Option Nat :=
  let last := tabGet (fun _ => 15) s.gsuLast g
  ((List.range 16).map (fun i => (last + 1 + i) % 16)).find? (fun i => (gsuDesc s (16 * g + i) .waiting).isSome)

/-- R247, R255, R514: the GSU grants a descriptor and runs it; an error in its buffers fails it. -/
def gsuGrant (s : State) (g : Nat) (ce ue : Bool) : State :=
  match gsuBusy s g, gsuNext s g with
  | none, some i =>
    let c := 16 * g + i
    match gsuDesc s c .waiting with
    | none => s
    | some r =>
      let s0 := { s with gsuLast := tabPut (fun _ => 15) s.gsuLast g i }
      let s1 := bumpSat s0 (pgGsu g + 0x40) (cyclesOf (s.now - r.since))
      let s2 := if ce then raise s1 (pgGsu g) 0x400 else s1
      let plan := if dOp r.desc = 0x0B then segPlan r.desc else if dOp r.desc = 0x0C then sortPlan r.desc else gsPlan s2 c r.desc
      if ue then
        putRun c r.idx (ranFail (unitRecord (raise s2 (pgGsu g) 0x800) (pgBlkErr g) g 3 false) [] rEccUncorr 0 plan.results)
      else putRun c r.idx (withReads s2 c plan (fun t =>
        if dOp r.desc = 0x0B then segRun t c r.desc else if dOp r.desc = 0x0C then sortRun t c r.desc else gsRun t c r.desc))
  | _, _ => s

end Sys2Proof.Machine
end

