-- ==== Sys2Proof/Machine/Conv.lean ====
section
/-!
DEFINITION. Machine/Conv.lean: CONV (R265 to R272) and CROP (R274 to R278).
Log entries that code here: 37 (DEDUCED, unsafe), 41 (DEDUCED, unsafe).
-/

namespace Sys2Proof.Machine

/-! ### The geometry block (R265, R266) -/

/-- One axis of a convolution: input extent, kernel, stride, dilation, low and high padding. -/
structure Axis where
  ext : Nat
  ker : Nat
  str : Nat
  dil : Nat
  lo : Nat
  hi : Nat
  deriving DecidableEq, Repr

/-- R266: the output extent of an axis (0 when there is none). -/
def Axis.out (a : Axis) : Nat :=
  let span := a.dil * (a.ker - 1) + 1
  if a.ext + a.lo + a.hi < span then 0 else (a.ext + a.lo + a.hi - span) / max a.str 1 + 1

/-- R266: the input coordinate of output `o` and tap `k`, none when it is padded. -/
def Axis.coord (a : Axis) (o k : Nat) : Option Nat :=
  let x := o * a.str + k * a.dil
  if a.lo ≤ x ∧ x - a.lo < a.ext then some (x - a.lo) else none

/-- A geometry block: axes D, H, W and the six pitches. -/
structure Geom where
  d : Axis
  h : Axis
  w : Axis
  inPix : Nat
  inLine : Nat
  inPlane : Nat
  outPix : Nat
  outLine : Nat
  outPlane : Nat
  deriving DecidableEq, Repr

/-- Read a geometry block of 64 bytes. -/
def geomOf (b : List Byte) : Geom :=
  let ax := fun i => (⟨fld b (2 * i) 2, byteAt b (6 + i), byteAt b (9 + i), byteAt b (12 + i), byteAt b (16 + 2 * i),
    byteAt b (17 + 2 * i)⟩ : Axis)
  ⟨ax 0, ax 1, ax 2, fld b 24 4, fld b 28 4, fld b 32 4, fld b 36 4, fld b 40 4, fld b 44 4⟩

/-- Output positions P (R266). -/
def Geom.positions (g : Geom) : Nat := g.d.out * g.h.out * g.w.out

/-- R265: every field and every output extent lies in its range. -/
def geomOk (b : List Byte) (cinBits cout outSize : Nat) : Bool :=
  let g := geomOf b
  let axOk := fun (a : Axis) => decide (1 ≤ a.ext ∧ a.ext ≤ 16384 ∧ 1 ≤ a.ker ∧ 1 ≤ a.str ∧ 1 ≤ a.dil ∧ 1 ≤ a.out)
  axOk g.d && axOk g.h && axOk g.w && byteAt b 15 == 0 && zeroAt b 22 2 && zeroAt b 48 16 &&
  decide (g.positions ≤ 65536) &&
  (g.inPix == 32 || g.inPix == 64 || (g.inPix % 128 == 0 && g.inPix != 0)) && decide (ceilDiv cinBits 8 ≤ g.inPix) &&
  g.inLine % 128 == 0 && (decide (g.h.ext ≤ 1) || decide (g.w.ext * g.inPix ≤ g.inLine)) &&
  g.inPlane % 128 == 0 && (decide (g.d.ext ≤ 1) || decide (g.h.ext * g.inLine ≤ g.inPlane)) &&
  g.outPix % (max outSize 1) == 0 && decide (cout * outSize ≤ g.outPix) &&
  (decide (g.h.out ≤ 1) || decide (g.w.out * g.outPix ≤ g.outLine)) &&
  (decide (g.d.out ≤ 1) || decide (g.h.out * g.outLine ≤ g.outPlane))

/-! ### CONV (R267 to R271) -/

/-- The fields of a CONV. -/
structure ConvOps where
  cin : Nat
  cout : Nat
  groups : Nat
  mode : Nat
  inFmt : Nat
  wFmt : Nat
  outFmt : Nat
  geomAt : Nat
  inAt : Nat
  wAt : Nat
  outAt : Nat
  initAt : Nat
  inScale : Nat
  wScale : Nat
  wGroup : Nat
  wLine : Nat
  chunk0 : Nat
  chunks : Nat
  ctxAt : Nat
  inT : Nat
  wT : Nat
  deriving DecidableEq, Repr

/-- Read the fields of a CONV. -/
def convOps (d : List Byte) : ConvOps :=
  ⟨fld d 8 2, fld d 10 2, fld d 12 2, byteAt d 15, byteAt d 16, byteAt d 17, byteAt d 18, fld d 20 4, fld d 24 4, fld d 28 4,
    fld d 32 4, fld d 36 4, fld d 40 4, fld d 44 4, fld d 48 4, fld d 52 2, byteAt d 54, byteAt d 55, fld d 56 4,
    byteAt d 60, byteAt d 61⟩

/-- The output side of a CONV as a tile, for the checks it shares with an MMA. -/
def convTile (o : ConvOps) : Tile :=
  ⟨1, o.cout, o.outFmt, bit o.mode 0, bits o.mode 2 1, bit o.mode 5, bits o.mode 7 6, o.outAt, o.initAt, 0, 0, o.ctxAt⟩

def ConvOps.fromSlice (o : ConvOps) : Bool := bits o.mode 4 3 == 1
def ConvOps.wSpace (o : ConvOps) : Space := if o.fromSlice then .slice else .bench
def ConvOps.wSkew (o : ConvOps) (skew : Bool) : Bool := o.fromSlice || skew

/-- R104 step 6 for a CONV. -/
def convFields (d : List Byte) : List Chk :=
  let o := convOps d
  let uc := fun (b : Bool) (det : Nat) => ((b, rUnitCheck, det) : Chk)
  [ chkShape (decide (o.cin < 1 ∨ 16384 < o.cin)), chkShape (decide (o.cout < 1 ∨ 4096 < o.cout)),
    chkShape (decide (o.groups < 1 ∨ o.cin < o.groups)), uc (o.cin % o.groups != 0 || o.cout % o.groups != 0) dCvGroups,
    chkZero (byteAt d 14 != 0), chkFmt (decide (2 ≤ bits o.mode 2 1)), chkFmt (decide (2 ≤ bits o.mode 4 3)),
    chkFmt (decide (2 ≤ bits o.mode 7 6)), chkFmt (pairClass o.inFmt == 0), chkFmt (pairClass o.wFmt != pairClass o.inFmt) ] ++
  tileModeChecks d (convTile o) (o.inFmt == 0x20) ++
  [ chkZero (byteAt d 19 != 0), chkAlign o.geomAt 32, chkAlign o.inAt 128,
    chkZero (o.fromSlice && decide (2 ^ 24 ≤ o.wAt)), chkAlign o.wAt 32 ] ++ tileAddrChecks (convTile o) ++
  [ chkZero (!isMx o.inFmt && o.inScale != 0), chkZero (!isMx o.wFmt && o.wScale != 0), chkAlign o.wGroup 32,
    chkZero (bits o.mode 7 6 != 1 && o.ctxAt != 0), chkAlign o.ctxAt 32,
    chkZero (o.inFmt != 0x17 && o.inT != 0), chkZero (o.wFmt != 0x17 && o.wT != 0), chkZero (!zeroAt d 62 2) ]

/-- The geometry of a CONV of cell `c`. -/
def convGeom (s : State) (c : Nat) (o : ConvOps) : Geom := geomOf (crd s .bench c o.geomAt 64)

def Geom.taps (g : Geom) : Nat := g.d.ker * g.h.ker * g.w.ker
def ConvOps.cinG (o : ConvOps) : Nat := o.cin / max o.groups 1
def ConvOps.coutG (o : ConvOps) : Nat := o.cout / max o.groups 1
def convK (o : ConvOps) (g : Geom) : Nat := g.taps * o.cinG

/-- One group's weight region (R114, R272). -/
def convWRegion (o : ConvOps) (skew : Bool) (k : Nat) : Nat :=
  let gang := bit o.mode 0
  if o.wSkew skew then ceilDiv o.coutG (blockN gang) * (k + skewG gang - 1) * o.wLine else o.coutG * o.wLine

/-- The chunks a CONV computes (R271). -/
def convChunks (o : ConvOps) (k : Nat) : List Nat :=
  let n := ceilDiv k 256
  (List.range (if o.chunks = 0 then n - o.chunk0 else o.chunks)).map (· + o.chunk0)

/-- The checks of the geometry block, made after step 6, and of what depends on it. -/
def convGeomChecks (s : State) (c : Nat) (d : List Byte) : List Chk :=
  let o := convOps d
  if 0x100000 < o.geomAt + 64 then []
  else
    let b := crd s .bench c o.geomAt 64
    let g := geomOf b
    let k := convK o g
    let n := ceilDiv k 256
    let skew := dSkew d
    let wb := codeBits o.wFmt
    [ (!geomOk b (o.cin * codeBits o.inFmt) o.cout (codeBytes o.outFmt), rUnitCheck, dCvGeom),
      (decide (65536 < k) || ((isMx o.inFmt || isMx o.wFmt) && o.cinG % 32 != 0), rUnitCheck, dCvGroups),
      (decide (n ≤ o.chunk0 ∨ n < o.chunk0 + o.chunks), rUnitCheck, dCvKrange),
      chkShape (decide (o.wGroup < convWRegion o skew k)),
      chkShape (decide (o.wLine < (if o.wSkew skew then ceilDiv (min o.coutG (blockN (bit o.mode 0)) * wb) 8 else ceilDiv (k * wb) 8))) ]

/-- The bytes of the input and of the output region (R272). -/
def convInLen (o : ConvOps) (g : Geom) : Nat :=
  (g.d.ext - 1) * g.inPlane + (g.h.ext - 1) * g.inLine + (g.w.ext - 1) * g.inPix + ceilDiv (o.cin * codeBits o.inFmt) 8
def convOutLen (o : ConvOps) (g : Geom) : Nat :=
  (g.d.out - 1) * g.outPlane + (g.h.out - 1) * g.outLine + (g.w.out - 1) * g.outPix + o.cout * codeBytes o.outFmt

/-- The regions a CONV reads. -/
def convReads (s : State) (c : Nat) (d : List Byte) : List Region :=
  let o := convOps d
  let g := convGeom s c o
  [ flat .bench o.geomAt 64, flat .bench o.inAt (convInLen o g), flat o.wSpace o.wAt (o.groups * o.wGroup) ] ++
  (if isMx o.inFmt then [flat .bench o.inScale (g.d.ext * g.h.ext * g.w.ext * (o.cin / 32))] else []) ++
  (if isMx o.wFmt then [flat .bench o.wScale (o.cout * ceilDiv (convK o g) 32)] else []) ++
  (if bits o.mode 2 1 = 1 then [flat (benchOrAcc (bit o.initAt 31)) (o.initAt % 0x80000000) (4 * o.cout)] else []) ++
  (if bits o.mode 7 6 = 1 then [flat .bench o.ctxAt 32] else [])

/-- The issue plan of a CONV. -/
def convPlan (s : State) (c : Nat) (d : List Byte) : Plan :=
  let o := convOps d
  let g := convGeom s c o
  let sp := benchOrAcc (bit o.mode 5)
  let out := flat sp o.outAt (convOutLen o g)
  let okGeom := (firstFail (convFields d)).isNone && decide (o.geomAt + 64 ≤ 0x100000)
  let rds := if okGeom then convReads s c d else [flat .bench o.geomAt 64]
  ⟨convFields d, if okGeom then convGeomChecks s c d else [], rds ++ (if okGeom then [out] else []),
    [(okGeom && rds.any out.meets, rUnitCheck, dCvOverlap)], [], rds,
    if okGeom then (List.range (g.d.out * g.h.out)).map (fun i =>
      ⟨sp, o.outAt + i / max g.h.out 1 * g.outPlane + i % max g.h.out 1 * g.outLine, g.w.out, g.outPix, o.cout * codeBytes o.outFmt⟩)
    else []⟩

/-- The input pixel of K index `k` at output position (od, oh, ow), none for a padded tap (R266, R270). -/
def convPixel (g : Geom) (cinG od oh ow k : Nat) : Option (Nat × Nat × Nat) :=
  let t := k / max cinG 1
  match g.d.coord od (t / (g.w.ker * g.h.ker)), g.h.coord oh (t / g.w.ker % g.h.ker), g.w.coord ow (t % g.w.ker) with
  | some x, some y, some z => some (x, y, z)
  | _, _, _ => none

/-- R270, R271: output element (p, co). -/
def convElem (s : State) (c : Nat) (d : List Byte) (o : ConvOps) (g : Geom) (ctx : RoundCtx) (p co : Nat) : Nat × Nat :=
  let od := p / (g.h.out * g.w.out)
  let oh := p / g.w.out % g.h.out
  let ow := p % g.w.out
  let grp := co / max o.coutG 1
  let n := co % max o.coutG 1
  let cg := max o.cinG 1
  let k := convK o g
  let gang := bit o.mode 0
  let px := convPixel g o.cinG od oh ow
  let ok := fun i => (px i).isSome
  let a := fun i => match px i with
    | some (x, y, z) => elemAt s .bench c (o.inAt + x * g.inPlane + y * g.inLine + z * g.inPix) (codeBits o.inFmt) (grp * o.cinG + i % cg)
    | none => 0
  let b := fun i => laneElem s o.wSpace c (o.wAt + grp * o.wGroup) o.wLine (codeBits o.wFmt) (blockN gang) (skewG gang) k
    (o.wSkew (dSkew d)) n i
  let sa := fun j => match px (32 * j) with
    | some (x, y, z) => crdN s .bench c (o.inScale + ((x * g.h.ext + y) * g.w.ext + z) * (o.cin / 32) + (grp * o.cinG + 32 * j % cg) / 32) 1
    | none => 127
  let sb := fun j => crdN s .bench c (o.wScale + (grp * o.coutG + n) * ceilDiv k 32 + j) 1
  let init := if bits o.mode 2 1 = 1 then
    crdN s (benchOrAcc (bit o.initAt 31)) c (o.initAt % 0x80000000 + 4 * co) 4 else 0
  let cs := convChunks o k
  if o.inFmt = 0x20 then
    encodeInt (codeBits o.outFmt) (ofInt (cs.foldl (fun t ch => (List.range 256).foldl (fun x i =>
      let j := 256 * ch + i
      if j < k ∧ ok j = true then x + toSigned 8 (a j) * toSigned 8 (b j) else x) t) (toSigned 32 init)))
  else
    let rs := cs.map (fun ch => chunkResult o.inFmt o.wFmt k ch ok a b sa sb o.inT o.wT)
    let (e, ev) := convertTo o.outFmt (srAt (bits o.mode 7 6 == 1) ctx p co) (treeWithInit init (rs.map (·.1)))
    (e, rs.foldl (fun x r => x ||| r.2) ev)

/-- The result of a CONV. -/
def convRun (s : State) (c : Nat) (d : List Byte) : RunOut :=
  let o := convOps d
  let g := convGeom s c o
  let ctx := readRound s c o.ctxAt
  let sp := benchOrAcc (bit o.mode 5)
  let res := (List.range g.positions).map (fun p => (List.range o.cout).map (fun co => convElem s c d o g ctx p co))
  let s1 := if o.wSkew (dSkew d) then s else raise s (pgArrays c) 0x100
  ranOk (arithArrays s1 c (res.foldl (fun a r => r.foldl (fun b x => b ||| x.2) a) 0)) (res.zipIdx.map (fun x =>
    let p := x.2
    (sp, cellAddr sp c (o.outAt + p / (g.h.out * g.w.out) * g.outPlane + p / g.w.out % g.h.out * g.outLine + p % g.w.out * g.outPix),
      x.1.flatMap (fun e => leBytes (codeBytes o.outFmt) e.1))))

/-! ### CROP (R274 to R278) -/

def crNbox (d : List Byte) : Nat := fld d 8 2
def crOh (d : List Byte) : Nat := byteAt d 10
def crOw (d : List Byte) : Nat := byteAt d 11
def crC (d : List Byte) : Nat := fld d 12 2
def crInH (d : List Byte) : Nat := fld d 24 2
def crInW (d : List Byte) : Nat := fld d 26 2

/-- R104 step 6 for a CROP. -/
def cropFields (d : List Byte) : List Chk :=
  let fi := byteAt d 14
  let fo := byteAt d 15
  let mode := byteAt d 16
  let r := bits mode 3 2
  let wi := codeBytes fi
  let wo := codeBytes fo
  [ chkShape (decide (crNbox d < 1 ∨ 4096 < crNbox d)), chkShape (crOh d == 0), chkShape (crOw d == 0),
    chkShape (decide (crC d < 1 ∨ 4096 < crC d)), chkFmt (!fltFmts.contains fi), chkFmt (!fltFmts.contains fo) ] ++
  roundChecks r fo ++
  [ chkZero (bits mode 7 4 != 0), chkZero (byteAt d 17 != 0), chkShape (decide (fld d 18 2 < 1 ∨ 4096 < fld d 18 2)) ] ++
  locChecks (fld d 20 4) ++
  [ chkShape (decide (crInH d < 1 ∨ 16384 < crInH d)), chkShape (decide (crInW d < 1 ∨ 16384 < crInW d)),
    chkAlign (fld d 28 4) (max wi 1), chkShape (decide (fld d 28 4 < crC d * wi)),
    chkShape (decide (1 < crInH d ∧ fld d 32 4 < crInW d * fld d 28 4)),
    chkShape (decide (1 < fld d 18 2 ∧ fld d 36 4 < crInH d * fld d 32 4)),
    chkAlign (fld d 40 4) 32, chkAlign (fld d 44 4) 32,
    chkShape (decide (1 < crNbox d ∧ fld d 48 4 < crOh d * crOw d * fld d 52 2)),
    chkAlign (fld d 52 2) (max wo 1), chkShape (decide (fld d 52 2 < crC d * wo)), chkZero (!zeroAt d 54 2),
    chkZero (r != 1 && fld d 60 4 != 0), chkAlign (fld d 60 4) 32 ]

/-- The issue plan of a CROP. -/
def cropPlan (d : List Byte) : Plan :=
  let inp := locRegion (fld d 20 4) ((fld d 18 2 - 1) * fld d 36 4 + (crInH d - 1) * fld d 32 4 + (crInW d - 1) * fld d 28 4 +
    crC d * codeBytes (byteAt d 14))
  let box := flat .bench (fld d 40 4) (32 * crNbox d)
  let rc := if bits (byteAt d 16) 3 2 = 1 then [flat .bench (fld d 60 4) 32] else []
  let row := crC d * codeBytes (byteAt d 15)
  let out := flat .bench (fld d 44 4) ((crNbox d - 1) * fld d 48 4 + (crOh d * crOw d - 1) * fld d 52 2 + row)
  let rds := [inp, box] ++ rc
  ⟨cropFields d, [], rds ++ [out], [(rds.any out.meets, rUnitCheck, dCrOverlap)], [], rds,
    (List.range (crNbox d)).map (fun b => ⟨.bench, fld d 44 4 + b * fld d 48 4, crOh d * crOw d, fld d 52 2, row⟩)⟩

/-- R276: the sample coordinate `i` of `n` along an axis from `a0` to `a1`. -/
def cropCoord (corner : Bool) (a0 a1 n i : Nat) : Nat :=
  let half := 0x3F000000
  if !corner then fsub (ffma (enc32 (.fin false (2 * i + 1) (-1))) (fdiv (fsub a1 a0) (fofNat n)) a0) half
  else if n > 1 then ffma (fofNat i) (fdiv (fsub a1 a0) (fofNat (n - 1))) a0
  else fmul (fadd a0 a1) half

/-- R277: a coordinate clamped to 0 to `top`. -/
def cropClamp (top x : Nat) : Nat :=
  if vlt (val32 x) (val32 0) then 0 else if vlt (val32 (fofNat top)) (val32 x) then fofNat top else x

/-- R277: a coordinate lies below 0 or above `top`. -/
def cropOut (top x : Nat) : Bool := vlt (val32 x) (val32 0) || vlt (val32 (fofNat top)) (val32 x)

/-- R278: linear interpolation. -/
def lerp (a v f : Nat) : Nat := if f = 0 then a else ffma f (fsub v a) a

/-- One sample: the kind (0 in range, 1 fill, 2 NaN) and the values of its channels before conversion (R277, R278). -/
def cropSample (s : State) (c : Nat) (d : List Byte) (img sy sx : Nat) : Nat × List Nat :=
  let h1 := crInH d - 1
  let w1 := crInW d - 1
  if (val32 sy).isNan || (val32 sx).isNan then (2, List.replicate (crC d) nan32)
  else if bit (byteAt d 16) 1 && (cropOut h1 sy || cropOut w1 sx) then (1, List.replicate (crC d) (fld d 56 4))
  else
    let y := cropClamp h1 sy
    let x := cropClamp w1 sx
    let y0 := (floorClamp 0 16384 (val32 y)).toNat
    let x0 := (floorClamp 0 16384 (val32 x)).toNat
    let fy := fsub y (fofNat y0)
    let fx := fsub x (fofNat x0)
    let y1 := min (y0 + 1) h1
    let x1 := min (x0 + 1) w1
    let fi := byteAt d 14
    let sp := locSpace (fld d 20 4)
    let q := fun (yy xx ch : Nat) => widen fi (crdN s sp c (fld d 20 4 % 2 ^ 24 + img * fld d 36 4 + yy * fld d 32 4 +
      xx * fld d 28 4 + ch * codeBytes fi) (codeBytes fi))
    (0, (List.range (crC d)).map (fun ch =>
      lerp (lerp (q y0 x0 ch) (q y0 x1 ch) fx) (lerp (q y1 x0 ch) (q y1 x1 ch) fx) fy))

/-- The result of a CROP: the box list is read once; a map number out of range fails it and nothing is written (R275). -/
def cropRun (s : State) (c : Nat) (d : List Byte) : RunOut :=
  let boxes := (List.range (crNbox d)).map (fun b => crd s .bench c (fld d 40 4 + 32 * b) 32)
  if boxes.any (fun b => decide (fld d 18 2 ≤ fld b 0 4)) then ranFail s [] rUnitCheck dCrImage []
  else
    let ctx := readRound s c (fld d 60 4)
    let fo := byteAt d 15
    let oh := crOh d
    let ow := crOw d
    let corner := bit (byteAt d 16) 0
    let res : List (Nat × Nat × Nat × List (Nat × Nat)) := boxes.zipIdx.flatMap (fun x => (List.range (oh * ow)).map (fun p =>
      let sy := cropCoord corner (fld x.1 4 4) (fld x.1 12 4) oh (p / ow)
      let sx := cropCoord corner (fld x.1 8 4) (fld x.1 16 4) ow (p % ow)
      let (kind, vs) := cropSample s c d (fld x.1 0 4) sy sx
      (kind, x.2, p, vs.zipIdx.map (fun y =>
        convertTo fo (srAt (bits (byteAt d 16) 3 2 == 1) ctx (x.2 * oh * ow + p) y.2) y.1))))
    let fills := (res.filter (fun r => r.1 == 1)).length
    let nans := (res.filter (fun r => r.1 == 2)).length
    let ev := res.foldl (fun a r => r.2.2.2.foldl (fun b y => b ||| y.2) a) (if nans = 0 then 0 else evNanOut)
    ranOk (arithArrays (bumpSat (bumpSat s (pgArrays c + 0x58) fills) (pgArrays c + 0x5C) nans) c ev) (res.map (fun r =>
      (Space.bench, benchA c (fld d 44 4 + r.2.1 * fld d 48 4 + r.2.2.1 * fld d 52 2),
        r.2.2.2.flatMap (fun e => leBytes (codeBytes fo) e.1))))

end Sys2Proof.Machine
end

