-- ==== Sys2Proof/Machine/Recur.lean ====
section
/-!
DEFINITION. Machine/Recur.lean: the state region and its slots (R202 to R205), RSTEP (R206 to R210), STATE_SAVE and
STATE_LOAD (R212 to R215), the state root record (R216).
Log entries that code here: 39 (DEDUCED, unsafe).
-/

namespace Sys2Proof.Machine

/-! ### The state region (R202, R203) -/

/-- BASE: the first accumulator address of the state region in each array. -/
def stateBase (s : State) (c : Nat) : Nat := accLimit s c

/-- R: bytes of the region in one array. -/
def stateR (s : State) (c : Nat) : Nat := 0x38000 - stateBase s c

/-- SLOT_BYTES. -/
def slotBytes (s : State) (c : Nat) : Nat := 32 * rbits s (pgState c + 0x40) 31 16

/-- SLOTS (R203). -/
def stateSlots (s : State) (c : Nat) : Nat := if slotBytes s c = 0 then 0 else 4 * stateR s c / slotBytes s c

/-- The accumulator address of state offset `o` (R203). -/
def stateAddr (s : State) (c o : Nat) : Nat :=
  let r := stateR s c
  if r = 0 then 0 else o / r * 0x40000 + stateBase s c + o % r

/-- The accumulator pieces of `n` bytes at state offset `o`: a range is cut where it passes to the next array. -/
def stateSpans (s : State) (c o n : Nat) : List (Nat × Nat) :=
  let r := stateR s c
  if r = 0 then [] else (pieces r (n / r + 2) o n).map (fun x => (stateAddr s c x.1, x.2))

/-- Those pieces as regions. -/
def stateRegions (s : State) (c o n : Nat) : List Region := (stateSpans s c o n).map (fun x => flat .acc x.1 x.2)

/-- Read bytes at a state offset. -/
def stateRead (s : State) (c o n : Nat) : List Byte := (stateSpans s c o n).flatMap (fun x => crd s .acc c x.1 x.2)

/-- The writes of bytes at a state offset. -/
def stateWrites (s : State) (c o : Nat) (bs : List Byte) : List (Space × Nat × List Byte) :=
  (splitBytes (stateSpans s c o bs.length) bs).map (fun w => (Space.acc, accA c w.2.1, w.2.2))

/-- R205: the state region becomes zeros. -/
def stateZero (s : State) (c : Nat) : State :=
  (List.range 4).foldl (fun t i => { t with
    mems := memsScrub t.mems .acc (accA c (i * 0x40000 + stateBase s c)) (stateR s c) false }) s

/-! ### RSTEP (R206 to R210) -/

def rsNs (d : List Byte) : Nat := fld d 8 2
def rsW (d : List Byte) : Nat := fld d 10 2
def rsIn (d : List Byte) (k : Nat) : Nat := fld d (20 + 4 * k) 4
def rsGateLen (d : List Byte) : Nat := fld d 48 2
def rsOutLen (d : List Byte) : Nat := fld d 50 2

/-- R104 step 6 for an RSTEP. -/
def rstepFields (d : List Byte) : List Chk :=
  let sf := byteAt d 12
  let fi := byteAt d 13
  let fo := byteAt d 14
  let mode := byteAt d 15
  let noOut := rsOutLen d == 0
  [ chkShape (decide (rsNs d < 1 ∨ 4096 < rsNs d)), chkShape (decide (rsW d < 1 ∨ 4096 < rsW d)),
    chkFmt (!(sf == 2 || sf == 0x10 || sf == 0x11)), chkFmt (!(fi == 0 || fi == 1 || fi == 2)),
    chkZero (noOut && fo != 0), chkFmt (!noOut && !fltFmts.contains fo),
    chkZero (bits mode 7 2 != 0), chkFmt (decide (2 ≤ bits mode 1 0)),
    chkAlign (fld d 16 4) 32, chkAlign (rsIn d 0) 32, chkAlign (rsIn d 1) 32, chkAlign (rsIn d 2) 32,
    chkZero (noOut && fld d 32 4 != 0), chkAlign (fld d 32 4) 32,
    chkShape (decide (fld d 36 2 < rsW d * codeBytes fi)), chkShape (!noOut && decide (fld d 38 2 < rsW d * codeBytes fo)),
    chkAlign (fld d 40 4) (max (codeBytes sf) 1), chkAlign (fld d 44 4) 32,
    chkShape (decide (rsGateLen d < 1 ∨ 256 < rsGateLen d)), chkShape (decide (256 < rsOutLen d)),
    chkAlign (fld d 52 4) 32, chkZero (bits mode 1 0 != 1 && fld d 56 4 != 0), chkAlign (fld d 56 4) 32,
    chkZero (!zeroAt d 60 4) ]

/-- R208: the programs of an RSTEP. -/
def rstepProgs (s : State) (c : Nat) (d : List Byte) : List VInstr × List VInstr :=
  (readProg s c (fld d 44 4) (rsGateLen d), readProg s c (fld d 44 4 + 8 * rsGateLen d) (rsOutLen d))

/-- R208: the rules of the programs. -/
def rstepProgOk (d : List Byte) (g o : List VInstr) : Bool :=
  (g ++ o).all (fun i => vFieldOk false i && i.op != 0x11 && (i.op != 0x01 || rsIn d i.imm != 0)) &&
  g.all (fun i => i.op != 0x02) && (rsOutLen d == 0 || (o.filter (fun i => i.op == 0x02)).length == 1)

/-- The slot list: (SEQ field, SLOT, bytes 6 and 7) (R207). -/
def slotList (s : State) (c : Nat) (d : List Byte) : List (Nat × Nat × Nat) :=
  (List.range (rsNs d)).map (fun j =>
    let b := crd s .bench c (fld d 16 4 + 8 * j) 8
    (fld b 0 4, fld b 4 2, fld b 6 2))

/-- Bytes of one stream's channels in a slot. -/
def rsSpan (d : List Byte) : Nat := rsW d * codeBytes (byteAt d 12)

/-- The bench regions an RSTEP reads. -/
def rstepReads (d : List Byte) : List Region :=
  [flat .bench (fld d 16 4) (8 * rsNs d)] ++
  ((List.range 3).filter (fun k => rsIn d k != 0)).map (fun k =>
    ⟨.bench, rsIn d k, rsNs d, fld d 36 2, rsW d * codeBytes (byteAt d 13)⟩) ++
  [flat .bench (fld d 44 4) (8 * (rsGateLen d + rsOutLen d))]

/-- The parameter block and the rounding context. -/
def rstepExtra (d : List Byte) : List Region :=
  (if fld d 52 4 = 0 then [] else [flat .bench (fld d 52 4) 64]) ++
  (if bits (byteAt d 15) 1 0 = 1 then [flat .bench (fld d 56 4) 32] else [])

/-- The output region of an RSTEP. -/
def rstepOut (d : List Byte) : List Region :=
  if rsOutLen d = 0 then [] else [⟨.bench, fld d 32 4, rsNs d, fld d 38 2, rsW d * codeBytes (byteAt d 14)⟩]

/-- A list holds an element twice. -/
def hasDup : List Nat → Bool
  | [] => false
  | x :: t => t.contains x || hasDup t

/-- R210: the checks of the slot list and the rounding context. -/
def rstepListChecks (s : State) (c : Nat) (d : List Byte) : List Chk :=
  let l := slotList s c d
  let ctx := readRound s c (fld d 56 4)
  let uc := fun (b : Bool) (det : Nat) => ((b, rUnitCheck, det) : Chk)
  [ chkZero (l.any (fun e => decide (2 ^ 20 ≤ e.1) || e.2.2 != 0)),
    chkShape (bits (byteAt d 15) 1 0 == 1 && (ctx.row != 0 || decide (ctx.cols < 1 ∨ 32768 < ctx.cols))),
    uc (l.any (fun e => decide (stateSlots s c ≤ e.2.1))) dStSlot,
    uc (decide (slotBytes s c < fld d 40 4 + rsSpan d)) dStExtent,
    uc (hasDup (l.map (·.2.1)) || hasDup (l.map (·.1))) dStDup,
    uc ((rstepOut d).any (fun o => (rstepReads d).any o.meets)) dStOverlap ]

/-- The state bytes an RSTEP covers. -/
def rstepState (s : State) (c : Nat) (d : List Byte) : List Region :=
  (slotList s c d).flatMap (fun e => stateRegions s c (e.2.1 * slotBytes s c + fld d 40 4) (rsSpan d))

/-- The issue plan of an RSTEP. -/
def rstepPlan (s : State) (c : Nat) (d : List Byte) : Plan :=
  let bench := rstepReads d ++ rstepExtra d ++ rstepOut d
  let fits := (firstFail (rstepFields d ++ bench.map (extentChk s c))).isNone
  ⟨rstepFields d,
    if (firstFail (rstepFields d)).isNone && decide (fld d 44 4 + 8 * (rsGateLen d + rsOutLen d) ≤ 0x100000) then
      [(!rstepProgOk d (rstepProgs s c d).1 (rstepProgs s c d).2, rUnitCheck, dStProg)] else [],
    bench, [], if fits then rstepListChecks s c d else [],
    rstepReads d ++ rstepExtra d ++ (if fits then rstepState s c d else []),
    rstepOut d ++ (if fits then rstepState s c d else [])⟩

/-- R209: one element: new state bits, output bits, events. `h` is the old state's encoding. -/
def rstepElem (env : LaneEnv) (d : List Byte) (g o : List VInstr) (sr : Option Nat) (h : Nat) : Nat × Nat × Nat :=
  let sf := byteAt d 12
  let ho := widen sf h
  let (r1, _, e1) := vRunFrom env ((List.replicate 32 0).set 0 ho) g
  let (hn, e2) := convertTo sf sr (ffma (r1.getD 30 0) ho (r1.getD 31 0))
  if rsOutLen d = 0 then (hn, 0, e1 ||| e2)
  else
    let (_, st, e3) := vRunFrom env (r1.set 0 (widen sf hn)) o
    let (y, e4) := convertTo (byteAt d 14) none st
    (hn, y, e1 ||| e2 ||| e3 ||| e4)

/-- Stream `j` of an RSTEP: its state and output writes and events (R207, R209). -/
def rstepStream (s : State) (c : Nat) (d : List Byte) (g o : List VInstr) (ctx : RoundCtx) (j : Nat) (e : Nat × Nat × Nat) :
    List (Space × Nat × List Byte) × Nat :=
  let sb := codeBytes (byteAt d 12)
  let ib := codeBytes (byteAt d 13)
  let ob := codeBytes (byteAt d 14)
  let off := e.2.1 * slotBytes s c + fld d 40 4
  let old := stateRead s c off (rsSpan d)
  let els := (List.range (rsW d)).map (fun ch =>
    rstepElem ⟨fun k => widen (byteAt d 13) (crdN s .bench c (rsIn d k + j * fld d 36 2 + ch * ib) ib),
        fun w => if fld d 52 4 = 0 then 0 else crdN s .bench c (fld d 52 4 + 4 * w) 4, j * rsW d + ch, 0⟩ d g o
      (if bits (byteAt d 15) 1 0 = 1 then some (srRandom ctx.seed ctx.sample ctx.step (e.1 * ctx.cols + ctx.col + ch)) else none)
      (fld old (ch * sb) sb))
  (stateWrites s c off (els.flatMap (fun x => leBytes sb x.1)) ++
    (if rsOutLen d = 0 then []
      else [(Space.bench, benchA c (fld d 32 4 + j * fld d 38 2), els.flatMap (fun x => leBytes ob x.2.1))]),
    els.foldl (fun a x => a ||| x.2.2) 0)

/-- The result of an RSTEP. -/
def rstepRun (s : State) (c : Nat) (d : List Byte) : RunOut :=
  let (g, o) := rstepProgs s c d
  let ctx := readRound s c (fld d 56 4)
  let rs := (slotList s c d).zipIdx.map (fun x => rstepStream s c d g o ctx x.2 x.1)
  let s1 := bumpSat s (pgState c + 0x58) (ceilDiv (rsNs d * rsW d) 128)
  ranOk (arithArrays s1 c (rs.foldl (fun a x => a ||| x.2) 0)) (rs.flatMap (·.1))

/-! ### STATE_SAVE and STATE_LOAD (R212 to R214) -/

/-- A list entry: SLOT, SRC_SLOT, bytes 4 to 7, HADDR. -/
def moveList (s : State) (c : Nat) (d : List Byte) : List (Nat × Nat × Nat × Nat) :=
  (List.range (fld d 8 2)).map (fun n =>
    let b := crd s .bench c (fld d 12 4 + 16 * n) 16
    (fld b 0 2, fld b 2 2, fld b 4 4, fld b 8 8))

/-- R104 step 6 for a state move. -/
def moveFields (d : List Byte) : List Chk :=
  [ chkShape (decide (fld d 8 2 < 1 ∨ 4096 < fld d 8 2)), chkFmt (decide ((if dOp d = 0x13 then 0 else 2) < byteAt d 10)),
    chkZero (byteAt d 11 != 0), chkAlign (fld d 12 4) 32, chkAlign (fld d 16 4) 32,
    chkShape (fld d 20 4 == 0 || fld d 20 4 % 32 != 0), chkZero (!zeroAt d 24 40) ]

/-- R213: the checks of one list entry. -/
def moveEntryChecks (s : State) (c : Nat) (d : List Byte) (e : Nat × Nat × Nat × Nat) : List Chk :=
  let copy := dOp d == 0x14 && byteAt d 10 == 2
  let hbm := dOp d == 0x13 || byteAt d 10 == 0
  [ chkZero (e.2.2.1 != 0 || (!copy && e.2.1 != 0) || (!hbm && e.2.2.2 != 0)),
    (decide (stateSlots s c ≤ e.1) || (copy && decide (stateSlots s c ≤ e.2.1)), rUnitCheck, dStSlot),
    chkAlign e.2.2.2 32 ]

/-- IN_STEP of a cell (R214). -/
def inStep (s : State) (c : Nat) : Bool := match ownerOf s c with
  | some p => s.stepping.contains p
  | none => false

/-- The issue plan of a state move (R213, R214). -/
def movePlan (s : State) (c : Nat) (d : List Byte) : Plan :=
  let list := flat .bench (fld d 12 4) (16 * fld d 8 2)
  let l := moveList s c d
  ⟨moveFields d, [], [list], [],
    if (firstFail (moveFields d ++ [extentChk s c list])).isNone then
      [(inStep s c, rUnitCheck, dStInStep), (decide (slotBytes s c < fld d 16 4 + fld d 20 4), rUnitCheck, dStExtent)] ++
      l.flatMap (moveEntryChecks s c d) ++ [(hasDup (l.map (·.1)), rUnitCheck, dStDup)]
    else [],
    [list], []⟩

/-- The state offset a move starts at in a slot. -/
def moveOff (s : State) (c : Nat) (d : List Byte) (slot : Nat) : Nat := slot * slotBytes s c + fld d 16 4

/-- ECC of the slot bytes a move reads. -/
def moveEcc (s : State) (c : Nat) (d : List Byte) (slot : Nat) : State × Bool :=
  readEcc s c (stateRegions s c (moveOff s c d slot) (fld d 20 4))

/-- R213: save the entries in list order. -/
def saveEntries (c p : Nat) (d : List Byte) : State → List (Space × Nat × List Byte) → List (Nat × Nat × Nat × Nat) → RunOut
  | s, ws, [] => ranOk s ws
  | s, ws, e :: t =>
    let bs := stateRead s c (moveOff s c d e.1) (fld d 20 4)
    let image := ((pieces 4096 (bs.length / 4096 + 2) e.2.2.2 bs.length).filterMap (fun x =>
      ((partGet s p).xlate x.1).map (fun y => flat .hbm y x.2)))
    match moveEcc s c d e.1 with
    | (s1, false) => ranFail s1 ws rEccUncorr 0 image
    | (s1, true) =>
      if (hphys s1 p e.2.2.2 bs.length).isNone then ranFail s1 ws rOutOfPartition 0 image
      else saveEntries c p d (bumpSat (hinval s1 p e.2.2.2 bs.length) (pgState c + 0x4C) 1)
        (ws ++ hwrites s1 p e.2.2.2 bs) t

/-- The result of a STATE_SAVE. -/
def saveRun (s : State) (c : Nat) (d : List Byte) : RunOut :=
  saveEntries c ((ownerOf s c).getD 1024) d s [] (moveList s c d)

/-- R213: load the entries in list order; `src` gives an entry's bytes. -/
def loadEntries (c : Nat) (d : List Byte) (src : State → Nat × Nat × Nat × Nat → HRead) :
    State → List (Space × Nat × List Byte) → List (Nat × Nat × Nat × Nat) → RunOut
  | s, ws, [] => ranOk s ws
  | s, ws, e :: t =>
    match src s e with
    | (s1, 0, bs) => loadEntries c d src (bumpSat s1 (pgState c + 0x50) 1) (ws ++ stateWrites s1 c (moveOff s1 c d e.1) bs) t
    | (s1, r, _) => ranFail s1 ws r 0 []

/-- The result of a STATE_LOAD: every source of a copy is read before any destination is written. -/
def loadRun (s : State) (c : Nat) (d : List Byte) : RunOut :=
  let p := (ownerOf s c).getD 1024
  let n := fld d 20 4
  loadEntries c d (fun t e =>
    if byteAt d 10 = 0 then hget t p e.2.2.2 n false
    else if byteAt d 10 = 1 then (t, 0, List.replicate n 0#8)
    else match moveEcc t c d e.2.1 with
      | (t1, true) => (t1, 0, stateRead s c (moveOff s c d e.2.1) n)
      | (t1, false) => (t1, rEccUncorr, [])) s [] (moveList s c d)

end Sys2Proof.Machine
end

