-- ==== Sys2Proof/Machine/Barge.lean ====
section
/-!
DEFINITION. Machine/Barge.lean: barges from their launch to their completion (R97 to R99, R321 to R331) and the Locks of
their paths (R332 to R337).
Log entries that code here: 22 (DEDUCED, unsafe), 42 (DEDUCED, unsafe), 51 (DEDUCED, unsafe), 52 (DESIGN CHOICE, safe), 53 (DEDUCED,
unsafe), 54 (DEDUCED, unsafe), 62 (DEDUCED, unsafe), 103 (DEDUCED, unsafe).
-/

namespace Sys2Proof.Machine

/-! ### The BARGE descriptor (R97, R98) -/

def bgSrcSpace (d : List Byte) : Nat := bits (byteAt d 9) 3 0
def bgDstSpace (d : List Byte) : Nat := bits (byteAt d 9) 7 4
def bgZero (d : List Byte) : Bool := bit (byteAt d 10) 0
def bgMulti (d : List Byte) : Bool := bit (byteAt d 10) 1
def bgSignal (d : List Byte) : Bool := bit (byteAt d 10) 2

/-- R104 step 6 for a BARGE. -/
def bargeFields (d : List Byte) : List Chk :=
  let eng := byteAt d 8
  let ss := bgSrcSpace d
  let ds := bgDstSpace d
  let rs := byteAt d 38
  let lay1 := dLayout d == 1
  [ (decide (8 ≤ eng ∧ eng ≠ 0xFF), rUnitCheck, dBgEngine), (decide (5 < ss ∨ 4 < ds), rBadSpace, 0),
    chkLay d (bits (byteAt d 10) 2 1 != 0), chkZero (bits (byteAt d 10) 7 3 != 0), chkZero (byteAt d 11 != 0),
    chkShape (fld d 12 4 == 0), chkZero (!(ss == 2 || ss == 3) && fld d 32 2 != 0),
    chkZero (!(ds == 2 || ds == 3) && fld d 34 2 != 0), chkLay d (fld d 36 2 != 0),
    chkLay d (rs != 0), chkZero (!lay1 && !bgSignal d && rs != 0xFF), (!lay1 && bgSignal d && decide (64 ≤ rs), rBadSem, 0),
    chkLay d (byteAt d 39 != 0), chkZero (!dSkew d && byteAt d 39 != 0), chkLay d (!zeroAt d 40 14), chkZero (!zeroAt d 54 10) ]

/-- The skew fields of a descriptor. -/
def bgSkew (d : List Byte) : Option SkewSpec :=
  if dSkew d then some ⟨byteAt d 39, fld d 40 2, fld d 42 2, fld d 44 4, fld d 48 4, fld d 52 2⟩ else none

/-- R326: the destination bytes of a barge. -/
def spanOf (len : Nat) : Option SkewSpec → Nat
  | none => len
  | some k => (k.k + k.g - 1) * k.dstPitch

/-- R326: the source bytes of a barge. -/
def srcSpanOf (len : Nat) : Option SkewSpec → Nat
  | none => len
  | some k => (k.rows - 1) * k.srcPitch + ceilDiv (k.k * k.bits) 8

/-- The issue plan of a BARGE: own bench and slice extents (R70, R282); the rest is the engine's to check (R324). -/
def bargePlan (d : List Byte) : Plan :=
  let own := fun (sp : Nat) (a n : Nat) => if sp = 0 then [flat .bench a n] else if sp = 1 then [flat .slice a n] else []
  ⟨bargeFields d, [], (if bgZero d then [] else own (bgSrcSpace d) (fld d 16 8) (srcSpanOf (fld d 12 4) (bgSkew d))) ++
    own (bgDstSpace d) (fld d 24 8) (spanOf (fld d 12 4) (bgSkew d)), [], [], [], []⟩

/-- The end a space code names (R98). -/
def bgEnd (c sp other : Nat) : BEnd :=
  if sp = 0 then .bench c else if sp = 1 then .slice c else if sp = 2 then .bench other else if sp = 3 then .slice other
  else if sp = 5 then .tier else .hbm

/-- The barge of a descriptor of cell `c` (R97, R321, R322). -/
def bargeOf (s : State) (c idx : Nat) (d : List Byte) : Barge :=
  let ds := bgDstSpace d
  let dc := fld d 34 2
  let cells := if bgMulti d then (maskBits 16 (fld d 36 2)).map (fun i => dc / 16 * 16 + i) else [dc]
  let eng := c / 256 * 8 + (if byteAt d 8 = 0xFF then c / 16 % 16 / 2 else byteAt d 8)
  ⟨s.bargeSeq, .cell c idx, c, (ownerOf s c).getD 1025, eng, bgEnd c (bgSrcSpace d) (fld d 32 2),
    if ds = 2 ∨ ds = 3 then cells.map (bgEnd c ds) else [bgEnd c ds dc], fld d 16 8, fld d 24 8, fld d 12 4, bgZero d, bgSkew d,
    if bgSignal d then some (byteAt d 38) else none, 0, 0, [], none, s.now, d.drop 8⟩

/-- R323: a barge is offered to its engine. -/
def bargeOffer (s : State) (b : Barge) : State :=
  { s with bargeWait := s.bargeWait ++ [{ b with bid := s.bargeSeq, since := s.now }], bargeSeq := s.bargeSeq + 1 }

/-- R321: the engine of region `r` with the fewest barges in flight, the lowest among equals. -/
def leastLoaded (s : State) (r : Nat) : Nat :=
  let load := fun (e : Nat) => (s.barges.filter (fun b => b.engine == e)).length
  ((List.range 8).map (· + 8 * r)).foldl (fun m e => if load e < load m then e else m) (8 * r)

/-- The result of a BARGE descriptor: it waits at the transfer port until its engine accepts the barge. -/
def bargeRun (s : State) (c idx : Nat) (d : List Byte) : RunOut := ranWait (bargeOffer s (bargeOf s c idx d))

/-! ### The engine's checks (R324) -/

/-- [a, a + n) of an end lies outside the carried partition's memory. -/
def endOutside (s : State) (p : Nat) (e : BEnd) (a n : Nat) : Bool :=
  let mine := fun (c : Nat) => decide (c < 1024) && (p == 1024 || (partGet s p).cells.contains c)
  match e with
  | .bench c => !mine c || decide (0x100000 < a + n)
  | .slice c => !mine c || decide (scratchBytes s c < a + n)
  | .hbm => if p = 1024 then decide (0x8000000000 < a + n) else (hphys s p a n).isNone
  | .tier => (tierAddr s p a n).isNone
  | .host => false

/-- Two ends name the same memory. -/
def sameMem (a b : BEnd) : Bool := a == b && a != .tier && a != .host

/-- R324: the skew fields are inconsistent. -/
def skewBad (len : Nat) (k : SkewSpec) : Bool :=
  !(k.bits == 4 || k.bits == 6 || k.bits == 8 || k.bits == 16) || decide (k.rows < 1 ∨ 128 < k.rows) ||
  !(k.g == 32 || k.g == 64) || decide (k.k < 1 ∨ 65536 < k.k) || k.k * k.bits % 8 != 0 ||
  len != k.rows * k.k * k.bits / 8 || decide (k.srcPitch < ceilDiv (k.k * k.bits) 8) ||
  decide (k.dstPitch < ceilDiv (k.rows * k.bits) 8)

def Barge.span (b : Barge) : Nat := spanOf b.len b.skew

/-- R324: the status and detail with which the engine rejects a barge. -/
def bargeReject (s : State) (b : Barge) : Option (Nat × Nat) :=
  let multi := match b.origin with
    | .cell _ _ => bit (byteAt b.desc 2) 1
    | _ => false
  let cellDst := byteAt b.desc 1 / 16 = 2 || byteAt b.desc 1 / 16 = 3
  if multi && (!cellDst || b.dsts.isEmpty) then some (stFailedOperand, dBgMcast)
  else if (match b.skew with
    | some k => skewBad b.len k
    | none => false) then some (stFailedOperand, dBgSkew)
  else if b.dsts.any (fun e => endOutside s b.part e b.dstAddr b.span) ||
      (!b.zero && endOutside s b.part b.src b.srcAddr (srcSpanOf b.len b.skew)) then some (stDenied, 0)
  else if !b.zero && b.dsts.any (sameMem b.src) && spansMeet (b.srcAddr, srcSpanOf b.len b.skew) (b.dstAddr, b.span) then
    some (stFailedOperand, dBgOverlap)
  else none

/-! ### Units (R325, R326) -/

/-- The units of a barge. -/
def Barge.count (b : Barge) : Nat := if b.span = 0 then 0 else (b.dstAddr + b.span - 1) / 4096 + 1 - b.dstAddr / 4096

/-- The destination range of unit `u`. -/
def Barge.unit (b : Barge) (u : Nat) : Nat × Nat :=
  let lo := max b.dstAddr ((b.dstAddr / 4096 + u) * 4096)
  (lo, min (b.dstAddr + b.span) ((b.dstAddr / 4096 + u + 1) * 4096) - lo)

/-- An uncorrectable error a barge meets in a cell's memory: a BARGE descriptor belongs to a jig, so it counts for R107. -/
def bargeUe (s : State) (o : Origin) (sp : Space) (c u : Nat) : State := match o with
  | .cell _ _ => hitUe s c sp u
  | _ => noteUe s sp u

/-- Read bytes of an end; `dma` supplies what host memory returns, `alloc` says whether a cache miss allocates (R284). -/
def endRead (s : State) (o : Origin) (p : Nat) (e : BEnd) (a n : Nat) (dma : List Byte) (alloc : Bool) : HRead :=
  let cellRead := fun (sp : Space) (c : Nat) =>
    match firstBad s.mems sp (cellAddr sp c a) n with
    | some u => (bargeUe s o sp c u, rEccUncorr, [])
    | none => ((match firstNever s.mems sp (cellAddr sp c a) n with
        | some u => noteNever s sp u
        | none => s), 0, crd s sp c a n)
  match e with
  | .bench c => cellRead .bench c
  | .slice c => cellRead .slice c
  | .hbm =>
    if p = 1024 then
      match physEcc (physArrive s 1024 [(a, n)]) [(a, n)] with
      | (s1, true) => (s1, 0, rd s1 .hbm a n)
      | (s1, false) => (s1, rEccUncorr, [])
    else hget s p a n alloc
  | .tier => tierGet s p a n
  | .host => (s, 0, (dma ++ List.replicate n 0#8).take n)

/-- Write bytes to an end. -/
def endWrite (s : State) (p : Nat) (e : BEnd) (a : Nat) (bs : List Byte) : State :=
  match e with
  | .bench c => wr s .bench (benchA c a) bs
  | .slice c => wr s .slice (sliceA c a) bs
  | .hbm => if p = 1024 then wr (physArrive s 1024 [(a, bs.length)]) .hbm a bs else hputD s p a bs
  | .tier => s
  | .host => wr s .host a bs

/-- R284: stream entries and the sequencer's copies look up the cache but never allocate. -/
def Barge.allocates (b : Barge) : Bool := match b.origin with
  | .stream _ _ => false
  | .seqr _ _ => false
  | _ => true

/-- Element `t` of source lane `r` (R326): its bits, or the failure of its read. -/
def laneRead (b : Barge) (k : SkewSpec) (s : State) (r t : Nat) : State × Option Nat :=
  let o := k.bits * t
  match endRead s b.origin b.part b.src (b.srcAddr + r * k.srcPitch + o / 8) ((o % 8 + k.bits + 7) / 8) [] b.allocates with
  | (s1, 0, bs) => (s1, some (bits (leNat bs) (o % 8 + k.bits - 1) (o % 8)))
  | (s1, _, _) => (s1, none)

/-- The value of a skewed line over all its lanes (R73). -/
def skewLine (b : Barge) (k : SkewSpec) (t : Nat) : State → List Nat → Nat → State × Option Nat
  | s, [], acc => (s, some acc)
  | s, r :: rest, acc =>
    if t < r % k.g ∨ k.k ≤ t - r % k.g then skewLine b k t s rest acc
    else if b.zero then skewLine b k t s rest acc
    else match laneRead b k s r (t - r % k.g) with
      | (s1, some v) => skewLine b k t s1 rest (acc + v * 2 ^ (k.bits * r))
      | (s1, none) => (s1, none)

/-- The writes of the lines of a skewed unit that lie in [lo, lo + n). -/
def skewUnit (b : Barge) (k : SkewSpec) (lo n : Nat) : State → List Nat → List (Nat × List Byte) → State × Option (List (Nat × List Byte))
  | s, [], acc => (s, some acc)
  | s, t :: rest, acc =>
    let w := ceilDiv (k.rows * k.bits) 8
    let a := b.dstAddr + t * k.dstPitch
    let from' := max a lo
    let to' := min (a + w) (lo + n)
    if to' ≤ from' then skewUnit b k lo n s rest acc
    else match skewLine b k t s (List.range k.rows) 0 with
      | (s1, none) => (s1, none)
      | (s1, some v) => skewUnit b k lo n s1 rest (acc ++ [(from', ((leBytes w v).drop (from' - a)).take (to' - from'))])

/-- What unit `u` writes: (destination address, bytes), or none where its source read fails. -/
def unitData (s : State) (b : Barge) (u : Nat) (dma : List Byte) : State × Option (List (Nat × List Byte)) :=
  let (lo, n) := b.unit u
  match b.skew with
  | some k => skewUnit b k lo n s ((List.range ((n + k.dstPitch - 1) / max k.dstPitch 1 + 1)).map (· + (lo - b.dstAddr) / max k.dstPitch 1)) []
  | none =>
    if b.zero then (s, some [(lo, List.replicate n 0#8)])
    else match endRead s b.origin b.part b.src (b.srcAddr + (lo - b.dstAddr)) n dma b.allocates with
      | (s1, 0, bs) => (s1, some [(lo, bs)])
      | (s1, _, _) => (s1, none)

/-! ### Completion (R328, R330, R340) -/

/-- The page of engine `e` of the module. -/
def pgEngine (e : Nat) : Nat := pgBrg (e / 8) (e % 8)

/-- R105: the reason a barge's status gives a cell descriptor. -/
def bargeReason (status : Nat) : Nat :=
  if status = stOk then 0 else if status = stDenied then rOutOfPartition
  else if status = stFailedMemory then rEccUncorr else if status = stFailedOperand then rUnitCheck else 0

/-- A barge completes with a status: the engine's counters and capture, remote semaphores, the originator. -/
def bargeFinish (s : State) (b : Barge) (status detail : Nat) : State :=
  let pg := pgEngine b.engine
  let s1 := bumpSat { s with barges := s.barges.filter (fun x => x.bid != b.bid), bargeWait := s.bargeWait.filter (fun x => x.bid != b.bid) }
    (pg + 0x44) 1
  let s2 := if status = stOk then s1
    else
      let x := capture s1 pg (status + detail * 2 ^ 8) ((b.unit b.landed).1 % 2 ^ 32) (b.key + b.part % 1024 * 2 ^ 16) 0
      raise (bumpSat x (pg + 0x48) 1) pg 1
  let s3 := match status, b.rsem with
    | 0, some sem => b.dsts.foldl (fun t e => match e with
        | .bench c => semInc t c sem
        | .slice c => semInc t c sem
        | _ => t) s2
    | _, _ => s2
  match b.origin with
  | .cell c idx => endWith s3 c idx status (bargeReason status) detail
  | o => { s3 with bargeNotices := s3.bargeNotices ++ [⟨o, b.part, status, detail, b.landed⟩] }

/-- Replace a barge in flight. -/
def bargePut (s : State) (b : Barge) : State :=
  { s with barges := s.barges.map (fun x => if x.bid = b.bid then b else x) }

/-- R330: once no granted unit of a cut barge remains it completes with the status of the action. -/
def bargeSettleCut (s : State) (b : Barge) : State :=
  match b.cut with
  | some st => if b.units.isEmpty then bargeFinish s b st 0 else bargePut s b
  | none => bargePut s b

/-- R330: cut a barge in flight: units whose Locks have been granted run to their landing. -/
def bargeCut (s : State) (b : Barge) (status : Nat) : State :=
  if b.cut.isSome then s
  else bargeSettleCut (raise s (pgEngine b.engine) 2)
    { b with cut := some status, units := b.units.filter (·.granted) }

/-! ### Acceptance (R323, R324) -/

/-- BARGE descriptors of a cell whose barges are in flight. -/
def cellBarges (s : State) (c : Nat) : Nat :=
  (s.barges.filter (fun b => match b.origin with
    | .cell x _ => x == c
    | _ => false)).length

/-- Stream barges of a cell in flight (R306). -/
def streamBarges (s : State) (c : Nat) : Nat :=
  (s.barges.filter (fun b => match b.origin with
    | .stream x _ => x == c
    | _ => false)).length

/-- R338: the originator of a waiting barge is at its own limit. -/
def originFull (s : State) (b : Barge) : Bool :=
  match b.origin with
  | .cell c _ => decide (32 ≤ cellBarges s c)
  | .stream c _ => decide (8 ≤ streamBarges s c)
  | _ => false

/-- Barges in flight at an engine. -/
def engineLoad (s : State) (e : Nat) : Nat := (s.barges.filter (fun b => b.engine == e)).length

/-- The barge engine `e` accepts next: the oldest offered whose originator is not at its limit. -/
def nextOffer (s : State) (e : Nat) : Option Barge :=
  if 256 ≤ engineLoad s e then none else s.bargeWait.find? (fun b => b.engine == e && !originFull s b)

/-- R323, R324: the engine accepts its next barge, or rejects it; a cell's transfer port is free from then on. -/
def bargeAccept (s : State) (e : Nat) : State :=
  match nextOffer s e with
  | none => s
  | some b =>
    let s1 := { s with bargeWait := s.bargeWait.filter (fun x => x.bid != b.bid) }
    match bargeReject s1 b with
    | some (st, det) => bargeFinish s1 b st det
    | none =>
      let s2 := { s1 with barges := s1.barges ++ [b] }
      match b.origin with
      | .cell c idx => updIssued s2 c idx (fun r => { r with phase := .barged })
      | _ => s2

/-! ### Paths and Locks (R332, R333) -/

/-- The Lock of a region's end of link `k`, of the hub's end of link `r`, of a flash channel; slice Locks are their cells. -/
def lockDie (r k : Nat) : Nat := 1024 + 8 * r + k
def lockHub (r : Nat) : Nat := 1024 + 8 * r + 4
def lockFlash (ch : Nat) : Nat := 1056 + ch

/-- The register group of a Lock (R341). -/
def lockReg (l : Nat) : Nat :=
  if l < 1024 then pgLck (l / 16) + 0x40 + 16 * (l % 16)
  else if l < 1056 then pgDie ((l - 1024) / 8) + (if (l - 1024) % 8 = 4 then 0x240 else 0x200 + 16 * ((l - 1024) % 8))
  else pgFls + 0x100 + 16 * (l - 1056)

/-- A hold: its Lock, its direction (true IN), its beats. -/
abbrev Need := Nat × Bool × Nat

/-- The dies an end's bytes lie on: region 0 to 3, hub 4. -/
def endDies (s : State) (p : Nat) (e : BEnd) (a n : Nat) : List (Nat × Nat) :=
  match e with
  | .bench c => [(c / 256, n)]
  | .slice c => [(c / 256, n)]
  | .hbm =>
    let ps := if p = 1024 then [(a, n)] else (hphys s p a n).getD []
    ps.map (fun x => (x.1 / 0x1000000000 / 2, x.2))
  | .tier => [(4, n)]
  | .host => [(4, n)]

/-- The bank ports of a crossing of `n` bytes from die `x` to die `y`. -/
def crossing (x y n : Nat) : List Need :=
  let beats := ceilDiv n 256
  if x = y then []
  else if x = 4 then [(lockHub y, false, beats), (lockDie y y, true, beats)]
  else if y = 4 then [(lockDie x x, false, beats), (lockHub x, true, beats)]
  else [(lockDie x y, false, beats), (lockDie y x, true, beats)]

/-- R333: the holds unit `u` of a barge requests. -/
def unitPath (s : State) (b : Barge) (u : Nat) : List Need :=
  let (lo, n) := b.unit u
  let sa := b.srcAddr + (lo - b.dstAddr)
  let srcs := if b.zero then [(b.engine / 8, n)] else endDies s b.part b.src sa n
  let dsts := distinct ((b.dsts.flatMap (fun e => endDies s b.part e lo n)).map (·.1))
  (if b.zero then [] else match b.src with
    | .slice c => [(c, false, ceilDiv n 1024)]
    | .tier => match tierAddr s b.part sa n with
      | some a => (pieces 65536 (n / 65536 + 2) a n).map (fun x => (lockFlash (x.1 / 65536 % 32), false, ceilDiv x.2 512))
      | none => []
    | _ => []) ++
  b.dsts.flatMap (fun e => match e with
    | .slice c => [(c, true, ceilDiv n 512)]
    | _ => []) ++
  srcs.flatMap (fun x => dsts.flatMap (fun y => crossing x.1 y x.2))

/-- A Lock. -/
def lockGet (s : State) (l : Nat) : Lock := tabGet (fun _ => lockInit) s.locks l
def lockPut (s : State) (l : Nat) (x : Lock) : State := { s with locks := tabPut (fun _ => lockInit) s.locks l x }

/-- A request at a Lock: its place in the order of R333, its barge and unit, its direction and beats. -/
structure Req where
  rank : List Nat
  bid : Nat
  u : Nat
  dirIn : Bool
  beats : Nat
  aged : Bool
  deriving DecidableEq, Repr

/-- Lexicographic order of ranks. -/
def rankLt : List Nat → List Nat → Bool
  | [], _ => false
  | _ :: _, [] => false
  | a :: s, b :: t => decide (a < b) || (a == b && rankLt s t)

/-- The requests waiting at a Lock. -/
def lockReqs (s : State) (l : Nat) : List Req :=
  s.barges.zipIdx.flatMap (fun x => (x.1.units.filter (fun v => !v.granted)).flatMap (fun v =>
    ((unitPath s x.1 v.u).filter (fun n => n.1 == l)).map (fun n =>
      ⟨[v.since, x.1.key, x.2, v.u], x.1.bid, v.u, n.2.1, n.2.2, v.aged⟩)))

/-- The first of a list of requests. -/
def firstReq (l : List Req) : Option Req :=
  l.foldl (fun m r => match m with
    | none => some r
    | some q => if rankLt r.rank q.rank then some r else some q) none

/-- The oldest aged request at a Lock, which reserves it (R334). -/
def reservedFor (s : State) (l : Nat) : Option Req := firstReq ((lockReqs s l).filter (·.aged))

/-- The head request of a direction. -/
def headReq (s : State) (l : Nat) (dirIn : Bool) : Option Req := firstReq ((lockReqs s l).filter (fun r => r.dirIn == dirIn))

/-- R334: Lock `l` offers to the hold `n` of unit `u` of barge `bid`. -/
def lockOffers (s : State) (bid u : Nat) (n : Need) : Bool :=
  let x := lockGet s n.1
  !x.turning && x.dirIn == n.2.1 &&
  match reservedFor s n.1 with
  | some r => r.bid == bid && r.u == u
  | none => match headReq s n.1 x.dirIn with
    | some r => r.bid == bid && r.u == u && decide (x.beats + n.2.2 ≤ 64)
    | none => false

/-- R514, R528: no request crosses a die-to-die link of a fenced region, nor a router that has stopped. -/
def lockBarred (s : State) (l : Nat) : Bool :=
  if l < 1024 then rbits s (pgBlk (l / 16) + 0xC) 0 0 == 0
  else if l < 1056 then rbits s (pgRgn ((l - 1024) / 8) + 0xC) 2 2 == 1
  else false

/-- Every Lock of a path offers to the unit; where it holds one Lock in both directions (a copy within a slice), the offer of one serves
both (log entry 62). -/
def pathOffers (s : State) (bid u : Nat) (path : List Need) : Bool :=
  path.all (fun n => path.any (fun m => m.1 == n.1 && lockOffers s bid u m))

/-- R334, Commit: a unit is granted at all the Locks of its path, when every one offers to it. -/
def lockCommit (s : State) (bid u : Nat) : State :=
  match s.barges.find? (fun b => b.bid == bid) with
  | none => s
  | some b =>
    let path := unitPath s b u
    if path.any (fun n => lockBarred s n.1) then s
    else if b.units.any (fun v => v.u == u && !v.granted) && pathOffers s bid u path then
      let s1 := bargePut s { b with units := b.units.map (fun v => if v.u = u then { v with granted := true } else v) }
      path.foldl (fun t n => lockPut t n.1 { lockGet t n.1 with beats := (lockGet t n.1).beats + n.2.2, headAt := t.now }) s1
    else s

/-- R334: the window of a Lock may end: (a) no fit, (b) its queue is empty, (c) 16 offers, or a reservation of the other
direction. -/
def windowEnds (s : State) (l : Nat) : Bool :=
  let x := lockGet s l
  let other := (headReq s l (!x.dirIn)).isSome
  !x.turning &&
  match reservedFor s l with
  | some r => r.dirIn != x.dirIn
  | none => match headReq s l x.dirIn with
    | none => other
    | some r => decide (64 < x.beats + r.beats) ||
      (other && decide (32 ≤ cyclesOf (s.now - x.openAt)) && decide (16 ≤ cyclesOf (s.now - max (r.rank.headD 0) x.headAt)))

/-- R334: the window ends: the Lock switches if the other direction waits, else it renews. -/
def lockWindowEnd (s : State) (l : Nat) : State :=
  if !windowEnds s l then s
  else
    let x := lockGet s l
    if (headReq s l (!x.dirIn)).isSome then lockPut s l { x with turning := true }
    else lockPut s l { x with beats := 0, urgent := 0, openAt := s.now, headAt := s.now }

/-- R334: after the turnaround the other direction is current with a window of 0 beats. -/
def lockTurned (s : State) (l : Nat) : State :=
  let x := lockGet s l
  if x.turning then bumpSat (lockPut s l ⟨!x.dirIn, 0, 0, s.now, s.now, false⟩) (lockReg l + 4) 1 else s

/-- R334: a request that has waited 256 cycles becomes aged. -/
def lockAge (s : State) (bid u : Nat) : State :=
  match s.barges.find? (fun b => b.bid == bid) with
  | none => s
  | some b => bargePut s { b with units := b.units.map (fun v =>
      if v.u = u ∧ v.granted = false ∧ 256 ≤ cyclesOf (s.now - v.since) then { v with aged := true } else v) }

/-- R335: an urgent beat: it counts in the window of its direction, at most 16 of them; served against the current
direction, the Lock turns and returns. -/
def urgentBeat (s : State) (l : Nat) (dirIn : Bool) : State :=
  let x := lockGet s l
  if x.dirIn = dirIn then
    if x.urgent < 16 then lockPut s l { x with beats := x.beats + 1, urgent := x.urgent + 1 } else s
  else bumpSat s (lockReg l + 4) 2

/-- LCK_STATE (R341). -/
def lockState (s : State) (l : Nat) : Nat :=
  let x := lockGet s l
  b2n x.dirIn + 2 * b2n (reservedFor s l).isSome + 4 * min x.beats 127

/-! ### Units (R327 to R329) -/

/-- R327: the active barges of an engine. -/
def activeBarges (s : State) (e : Nat) : List Barge := (s.barges.filter (fun b => b.engine == e)).take 32

/-- R327: the barge whose next unit starts: round-robin after the one served last. -/
def nextUnit (s : State) (e : Nat) : Option Barge :=
  let l := (activeBarges s e).filter (fun b => b.cut.isNone && decide (b.next < b.count) && decide (b.units.length < 4))
  let last := tabGet (fun _ => 0) s.engineLast e
  match l.find? (fun b => decide (last < b.bid + 1)) with
  | some b => some b
  | none => l.head?

/-- R327: the next unit starts; a unit whose path has no Lock is granted at once. -/
def unitStart (s : State) (e : Nat) : State :=
  match nextUnit s e with
  | none => s
  | some b =>
    let s1 := bargePut s { b with next := b.next + 1, units := b.units ++ [⟨b.next, s.now, (unitPath s b b.next).isEmpty, false⟩] }
    { s1 with engineLast := tabPut (fun _ => 0) s1.engineLast e (b.bid + 1) }

/-- R327 to R329: the lowest unit in flight of a barge lands, in every destination, or its source read fails. -/
def unitLand (s : State) (bid : Nat) (dma : List Byte) : State :=
  match s.barges.find? (fun b => b.bid == bid) with
  | none => s
  | some b =>
    match b.units.find? (fun v => v.u == b.landed) with
    | none => s
    | some v =>
      if !v.granted then s
      else match unitData s b v.u dma with
        | (s1, none) =>
          bargeFinish (raise s1 (pgEngine b.engine) 4) b stFailedMemory 0
        | (s1, some ws) =>
          let s2 := b.dsts.foldl (fun t e => ws.foldl (fun x w => endWrite x b.part e w.1 w.2) t) s1
          let s3 := bumpWrap64 s2 (pgEngine b.engine + 0x50) (ws.foldl (fun n w => n + w.2.length) 0)
          let s4 := if b.cut.isSome then resetCount s3 b.part 3 1 else s3
          let b1 := { b with landed := b.landed + 1, units := b.units.filter (fun x => x.u != v.u) }
          if b1.cut.isNone && b1.landed == b1.count then bargeFinish s4 b1 stOk 0 else bargeSettleCut s4 b1

end Sys2Proof.Machine
end

