-- ==== Sys2Proof/Machine/Weirs.lean ====
section
/-!
DEFINITION. Machine/Weirs.lean: weirs of stacks, flash and lane groups (R291 to R297, R302, R362) and the request slots of
an HBM stack (R288, R293).
Log entries that code here: 45 (DEDUCED, unsafe), 47 (DEDUCED, unsafe), 124 (DEDUCED, unsafe).
-/

namespace Sys2Proof.Machine

/-! ### Weirs (R291, R292) -/

/-- A lane group's weir group of a partition (R377, in the layout of R317). -/
def lnkAddr (g p : Nat) : Nat := pgLnkWei g (p / 128 % 8) + 0x40 + 16 * (p % 128)

/-- SHARE, URGENT and BURST of a value in the layout of WEI_SHARE. -/
def wShare (v : Nat) : Nat := bits v 11 0
def wUrgent (v : Nat) : Nat := bits v 15 12
def wBurst (v : Nat) : Nat := bits v 31 16

/-- R292: the limit BURST sets, in units of 2^-24 byte. -/
def burstCap (v : Nat) : Int := (wBurst v * 1024 * 2 ^ 24 : Nat)

/-- R291, R292: `n` ns of a weir with active value `v`: its credit grows and is limited; BURST is ignored when SHARE is 0. -/
def creditAfter (v derate rate n : Nat) (c : Int) : Int :=
  if wShare v = 0 then c else min (c + (n * (wShare v * derate * rate) : Nat)) (burstCap v)

/-- The active weirs as (address of the group, active value, address of DERATE, RATE). -/
def activeWeirs (s : State) : List (Nat × Nat × Nat × Nat) :=
  s.regs.filterMap (fun e =>
    match pageOf e.1 with
    | some (.wei, i) => if 0x40 ≤ e.1 % 0x1000 ∧ e.1 % 16 = 4 then some (e.1 - 4, e.2.toNat, pgHbm (i / 8) + 0x44, 2048) else none
    | some (.lnkWei, i) => if 0x40 ≤ e.1 % 0x1000 ∧ e.1 % 16 = 4 then some (e.1 - 4, e.2.toNat, pgLnk (i / 8) + 0x68, 200) else none
    | some (.flsWin, _) => if 0x40 ≤ e.1 % 0x1000 ∧ e.1 % 16 = 12 then some (e.1 - 12, e.2.toNat, pgFls + 0x48, 115) else none
    | _ => none)

/-- R292: every weir's credit after `n` ns. -/
def creditTick (s : State) (n : Nat) : State :=
  (activeWeirs s).foldl (fun t w => creditPut t w.1 (creditAfter w.2.1 (rbits s w.2.2.1 12 0) w.2.2.2 n (creditGet t w.1))) s

/-- R296: the verdict on staged values, in the layout of WEI_SHARE, of a resource with or without an urgent lane. -/
def weirVerdict (staged : List Nat) (urgent : Bool) : Nat :=
  if 3686 < (staged.map wShare).sum ∨ (urgent ∧ 8 < (staged.map wUrgent).sum) then stOversubscribed
  else if staged.any (fun v => wShare v != 0 && wBurst v == 0) then stFailedOperand
  else stOk

/-- R292: the credit kept at a commit is limited to the new BURST. -/
def creditLimit (s : State) (w v : Nat) : State :=
  if wShare v = 0 then s else creditPut s w (min (creditGet s w) (burstCap v))

/-- R296: commit the weirs whose groups are at `group p`, staged at `+so` and active at `+ao` of a group. -/
def weirCommit (s : State) (group : Nat → Nat) (so ao : Nat) (urgent : Bool) : State × Nat × List Nat :=
  let staged := (List.range 1024).map (fun p => rget s (group p + so))
  match weirVerdict staged urgent with
  | 0 => ((List.range 1024).foldl (fun t p =>
      let v := rget s (group p + so)
      creditLimit (rset t (group p + ao) v) (group p) v) s, stOk, staged)
  | st => (s, st, staged)

/-- R296, R316: HBM_WCOMMIT of a stack. -/
def hbmCommit (s : State) (st : Nat) : State :=
  let (s1, status, staged) := weirCommit s (weiAddr st) 0 4 true
  raise (rset (rset s1 (pgHbm st + 0x4C) (status + (staged.map wShare).sum * 2 ^ 8)) (pgHbm st + 0x50) (staged.map wUrgent).sum)
    (pgHbm st) 0x200

/-- R296, R302, R318: FLS_WCOMMIT of the flash weirs and windows. -/
def flsCommit (s : State) : State :=
  let (s1, status, staged) := weirCommit s flsAddr 8 12 false
  let s2 := if status = stOk then
      { s1 with wins := (List.range 1024).foldl (fun t p =>
          tabPut (fun _ => ((0, 0) : Nat × Nat)) t p (rbits s (flsAddr p) 27 0, rbits s (flsAddr p + 4) 27 0)) s1.wins }
    else s1
  raise (rset s2 (pgFls + 0x44) (status + (staged.map wShare).sum * 2 ^ 8)) pgFls 4

/-- R296, R362, R377: LNK_WCOMMIT of a lane group. -/
def lnkCommit (s : State) (g : Nat) : State :=
  let (s1, status, staged) := weirCommit s (lnkAddr g) 0 4 true
  raise (rset (rset s1 (pgLnk g + 0x64) (status + (staged.map wShare).sum * 2 ^ 8)) (pgLnk g + 0x6C) (staged.map wUrgent).sum)
    (pgLnk g) 0x200

/-! ### Derating (R297, R298, R499) -/

/-- R297: the DERATE of a stack is the lowest any cause requires; a change raises DERATED. -/
def derateUpdate (s : State) (st : Nat) : State :=
  let v := if rbits s (pgHbm st + 0xC) 1 0 = 1 ∨ rbits s (pgPwr + 0x5C) 12 8 < 16 then 2048 else 4096
  if rbits s (pgHbm st + 0x44) 12 0 = v then s else raise (rset s (pgHbm st + 0x44) v) (pgHbm st) 8

/-! ### Request slots of a stack (R293) -/

/-- The charge of one HBM request of 256 B. -/
def reqCharge : Int := (256 * 2 ^ 24 : Nat)

/-- R293: the charge of an urgent request takes the credit negative by at most URGENT × 256 B. -/
def urgentCharge (s : State) (st p : Nat) : State :=
  let w := weiAddr st p
  let c := creditGet s w
  let floor : Int := -((wUrgent (rget s (w + 4)) * 256 * 2 ^ 24 : Nat) : Int)
  creditPut s w (max (c - reqCharge) (min c floor))

/-- Round-robin by partition number, starting after the one granted last. -/
def rrAfter (l : List Nat) (last : Nat) : Option Nat :=
  match l.find? (fun p => decide (last < p)) with
  | some p => some p
  | none => l.head?

/-- R293: one request slot of a stack: refresh, then urgent, guaranteed and best-effort requests. -/
def hbmSelect (s : State) (st : Nat) : State :=
  let q := hbmqGet s st
  if q.refresh ≠ 0 then hbmqPut s st { q with refresh := q.refresh - 1 }
  else match q.urgent with
    | p :: t => urgentCharge (hbmqPut s st { q with urgent := t }) st p
    | [] =>
      let ps := q.wait.map (·.1)
      let paid := fun (p : Nat) => decide (p < 1024) && decide (reqCharge ≤ creditGet s (weiAddr st p))
      let less := fun (p : Nat) => tabPut (fun _ => 0) q.wait p (tabGet (fun _ => 0) q.wait p - 1)
      match rrAfter (ps.filter paid) q.lastG with
      | some p => creditPut (hbmqPut s st { q with wait := less p, lastG := p }) (weiAddr st p) (creditGet s (weiAddr st p) - reqCharge)
      | none => match rrAfter (ps.filter (fun p => !paid p)) q.lastB with
        | some p => hbmqPut s st { q with wait := less p, lastB := p }
        | none => s

/-- R288: a refresh falls due on a stack. -/
def hbmRefresh (s : State) (st : Nat) : State :=
  let q := hbmqGet s st
  hbmqPut s st { q with refresh := q.refresh + 1 }

/-- R295: the ns with a request of a partition waiting at a stack are counted in its WEI_STALL. -/
def stallTick (s : State) (n : Nat) : State :=
  s.hbmq.foldl (fun t e =>
    let ps := distinct (e.2.urgent ++ e.2.wait.map (·.1))
    ps.foldl (fun u p => if p < 1024 then bumpSat u (weiAddr e.1 p + 12) n else u) t) s

end Sys2Proof.Machine
end

