-- ==== Sys2Proof/Machine/Access.lean ====
section
/-!
DEFINITION. Machine/Access.lean: the device state (R474) and who may reach a register page (R13, R477, R510, R528, R534,
R535).
Log entries that code here: 112 (DEDUCED, unsafe).
-/

namespace Sys2Proof.Machine

/-! ### Device states (R474) -/

def dvCold : Nat := 0
def dvBoot : Nat := 1
def dvHeld : Nat := 2
def dvConfigured : Nat := 3
def dvRunning : Nat := 4
def dvFaulted : Nat := 5
def dvDumped : Nat := 6

/-- The state of the device; COLD answers nothing, so no register holds it. -/
def devState (s : State) : Nat := if s.cold then dvCold else rbits s (pgChp + 0x40) 2 0

/-- R474, R541: enter a state; STATE_CHANGE is raised when it is another. -/
def enterState (s : State) (v : Nat) : State :=
  if rbits s (pgChp + 0x40) 2 0 = v then s
  else raise (rset (rset s (pgChp + 0x40) v) (pgChp + 0xC) v) pgChp 1

/-- The Keeper runs (R542, MODE not BOOT_ROM). -/
def keeperRuns (s : State) : Bool := rbits s (pgKpr + 0xC) 1 0 != 0

/-- R509: the optical engine of a lane group is above its limit and has not yet read 75 °C or below. -/
def optHot (s : State) (g : Nat) : Bool := decide (1 ≤ tabGet (fun _ => 0) s.power.steps (5 + g / 2))

/-! ### Master identities (R464) -/

def mHost : Nat := 0x0000
def mVf (p : Nat) : Nat := 0x1001 + p
def mKeeper : Nat := 0xF000
def mRegion (r : Nat) : Nat := 0xF100 + r
def mBmc : Nat := 0xF800

/-! ### Aborts (R534, R535) -/

/-- A page of CHP, VER or CFG. -/
def bootPage (a : Nat) : Bool := decide (a < 0x3000)

/-- R534: the kind of an access to PF BAR0 that is aborted, in the order 2, 4, 3, 1; 0 when it is answered. Without a
Keeper the boot ROM serves CHP, VER and CFG only (R476). -/
def accessKind (s : State) (a : Nat) (aligned : Bool) : Nat :=
  if 0x20000000 ≤ a ∨ (pageOf a).isNone then 2
  else if (devState s = dvBoot ∨ !keeperRuns s) ∧ !bootPage a then 4
  else if 0x4000000 ≤ a ∧ regionDark s (a / 0x4000000 - 1) then 3
  else if !aligned then 1
  else 0

/-- R534, R535: an aborted access is captured and counted; it changes nothing else. -/
def abortAccess (s : State) (m a : Nat) (write : Bool) (be data kind : Nat) : State :=
  let pg := if kind = 1 then a / 0x1000 * 0x1000 else pgChp
  let s1 := capture s pg a (m + b2n write * 2 ^ 16 + be % 16 * 2 ^ 17) (if write then data else 0) (0xFE + kind * 2 ^ 8)
  let s2 := bumpSat s1 (pgChp + 0x70) 1
  let s3 := if kind = 1 ∨ kind = 2 then raise s2 pgChp 2 else s2
  { s3 with resp := .abort }

/-- R477, R534: an aligned 32-bit write by master `m` to a page of PF BAR0: it is aborted, ignored (BOOT) or applied. -/
def pfWrite (s : State) (m a data : Nat) (f : State → State) : State :=
  if s.cold then s
  else
    let k := accessKind s a true
    if k ≠ 0 then abortAccess s m a true 15 data k
    else if devState s = dvBoot then s
    else f s

/-- R447, R477: a 32-bit write to a page of VF BAR0. -/
def vfWrite (s : State) (f : State → State) : State :=
  if s.cold then s else if devState s = dvBoot then { s with resp := .abort } else f s

/-- R419: while partition `p` is NONE every access of its VF beyond the identity page is aborted. -/
def vfPart (s : State) (p : Nat) (f : State → State) : State :=
  vfWrite s (fun t => if (partGet t p).st = 0 then { t with resp := .abort } else f t)

/-- Queues are fetched, commands started and timetable entries fired in RUNNING only (R474), and no more once a stop has
been detected (R299, R518). -/
def running (s : State) : Bool := devState s = dvRunning && s.stop.isNone

/-- Partition `p` is ACTIVE (R414). -/
def partActive (s : State) (p : Nat) : Bool := (partGet s p).st == 2

end Sys2Proof.Machine
end

