-- ==== Sys2Proof/Machine/Hostq.lean ====
section
/-!
DEFINITION. Machine/Hostq.lean: submission and completion queues of the partitions (R445 to R457) and the recording of a
command's status (R27, R452, R453).
Log entries that code here: 47 (DEDUCED, unsafe), 82 (DESIGN CHOICE, unsafe), 83 (DEDUCED, unsafe), 84 (DEDUCED, unsafe), 85 (DEDUCED,
unsafe).
-/

namespace Sys2Proof.Machine

/-! ### Registers of the queues (R448, R449) -/

def sqTail (p q : Nat) : Nat := pgSub p + 0x40 + 4 * q
def sqReg (p q off : Nat) : Nat := pgSub p + 0x100 + 32 * q + off
def cqHead (p q : Nat) : Nat := pgCmp p + 0x40 + 4 * q
def cqReg (p q off : Nat) : Nat := pgCmp p + 0x100 + 32 * q + off

/-- The submission queue of a partition. -/
def sqGet (s : State) (p q : Nat) : Sq := tabGet (fun _ => ⟨[], [], []⟩) s.sqs (p * 16 + q)
def sqPut (s : State) (p q : Nat) (x : Sq) : State := { s with sqs := tabPut (fun _ => ⟨[], [], []⟩) s.sqs (p * 16 + q) x }

/-- The completion queue of a partition. -/
def cqGet (s : State) (p q : Nat) : Cq := tabGet (fun _ => cqInit) s.cqs (p * 16 + q)
def cqPut (s : State) (p q : Nat) (x : Cq) : State := { s with cqs := tabPut (fun _ => cqInit) s.cqs (p * 16 + q) x }

/-- STATE of an SQ and a CQ. -/
def sqState (s : State) (p q : Nat) : Nat := rbits s (sqReg p q 0x10) 13 12
def cqState (s : State) (p q : Nat) : Nat := rbits s (cqReg p q 0x10) 17 16

/-- Entries of a ring. -/
def sqSize (s : State) (p q : Nat) : Nat := 2 ^ rbits s (sqReg p q 8) 7 4
def cqSize (s : State) (p q : Nat) : Nat := 2 ^ rbits s (cqReg p q 8) 7 4

/-- The completion queue an SQ names. -/
def sqCq (s : State) (p q : Nat) : Nat := rbits s (sqReg p q 8) 11 8

/-- Set STATE of an SQ or a CQ and its bit in the fault maps of R472. -/
def sqSetState (s : State) (p q v : Nat) : State :=
  rset (rsetBits s (sqReg p q 0x10) 13 12 v) (pgVfEvt p + 0x40) (setBits (rget s (pgVfEvt p + 0x40)) q q (b2n (v == 2)))
def cqSetState (s : State) (p q v : Nat) : State :=
  rset (rsetBits s (cqReg p q 0x10) 17 16 v) (pgVfEvt p + 0x44) (setBits (rget s (pgVfEvt p + 0x44)) q q (b2n (v == 2)))

/-- Raise an event of a VF's events page (R472). -/
def vfEvt (s : State) (p ev : Nat) : State := raise s (pgVfEvt p) ev

/-! ### Recording a status (R27, R452, R453, R457) -/

/-- A recorded completion joins the queue of its CQ in the order of recording. -/
def compPush (s : State) (p cq : Nat) (c : Comp) : State :=
  let x := cqGet s p cq
  cqPut s p cq { x with held := x.held ++ [c] }

/-- The window entry of a number. -/
def seenAt (s : State) (p q n : Nat) : Option (Option (Nat × Nat)) :=
  ((sqGet s p q).seen.find? (fun e => e.1 == n)).map (·.2)

/-- Record the status of a command: its completion, then those of the duplicates that waited for it. -/
def recordCmd (s : State) (c : Cmd) (status result : Nat) : State :=
  let x := sqGet s c.part c.sq
  let cq := sqCq s c.part c.sq
  let t := s.sclTime
  let s1 := sqPut s c.part c.sq { x with seen := x.seen.map (fun e => if e.1 = c.seq then (c.seq, some (status, result)) else e) }
  let s2 := compPush s1 c.part cq ⟨c.seq, c.sq, status, status, result, t, c.user⟩
  let s3 := c.dups.foldl (fun u w =>
    bumpSat (compPush u c.part cq ⟨c.seq, c.sq, stDuplicate, status, result, t, w⟩) (sqReg c.part c.sq 0x18) 1) s2
  { s3 with cmds := s3.cmds.erase c }

/-- The command of a tag that has no recorded status. -/
def cmdAt (s : State) (p q seq : Nat) : Option Cmd := s.cmds.find? (fun c => c.part == p && c.sq == q && c.seq == seq)

/-- Record the status of a command, once: a command with a recorded status keeps it (R27). -/
def complete (s : State) (p q seq status result : Nat) : State :=
  match cmdAt s p q seq with
  | none => s
  | some c => recordCmd s c status result

/-- Complete a command. -/
def cmdDone (s : State) (c : Cmd) (status result : Nat) : State := complete s c.part c.sq c.seq status result

/-- Complete a command with FAILED_OPERAND and a detail. -/
def cmdFail (s : State) (c : Cmd) (detail : Nat) : State := cmdDone s c stFailedOperand detail

/-- Change a command. -/
def cmdUpd (s : State) (c : Cmd) (f : Cmd → Cmd) : State :=
  { s with cmds := s.cmds.map (fun x => if x.part == c.part && x.sq == c.sq && x.seq == c.seq then f x else x) }

/-! ### Which command starts next (R233, R451, R454) -/

/-- The command code of an entry. -/
def cmdOp (c : Cmd) : Nat := byteAt c.entry 0

/-- Commands of the rollout sequencer. -/
def isSeqCmd (c : Cmd) : Bool := decide (0x40 ≤ cmdOp c ∧ cmdOp c ≤ 0x47)

/-- The commands of an SQ in fetch order. -/
def sqCmds (s : State) (p q : Nat) : List Cmd := s.cmds.filter (fun c => c.part == p && c.sq == q)

/-- A command may start: its partition is ACTIVE in RUNNING, no earlier command of its SQ waits for a unit, and with
ORDERED every earlier one has a recorded status. Sequencer commands are dispatched as they are fetched. -/
def startableIn (l : List Cmd) (c : Cmd) : Bool :=
  let before := l.takeWhile (fun x => x.seq != c.seq)
  !c.started && before.all (fun x => x.started || isSeqCmd x) && (!bit (byteAt c.entry 1) 0 || before.isEmpty)

/-- The command of SQ `q` that starts next, if it has code `op`. -/
def cmdNext (s : State) (p q op : Nat) : Option Cmd :=
  if !(running s && partActive s p) then none
  else
    let l := sqCmds s p q
    match l.find? (fun c => !c.started && !isSeqCmd c) with
    | some c => if startableIn l c && cmdOp c == op then some c else none
    | none => none

/-- The bytes of an entry named by a list of (first, count) ranges are the only operand bytes that may be non-zero. -/
def operandsOk (c : Cmd) (ranges : List (Nat × Nat)) : Bool :=
  (List.range 48).all (fun i => byteAt c.entry (16 + i) == 0 || ranges.any (fun r => decide (r.1 ≤ 16 + i ∧ 16 + i < r.1 + r.2)))

/-- Operand fields. -/
def opf (c : Cmd) (off size : Nat) : Nat := fld c.entry off size

/-! ### Details (R473) -/
def dHqOpcode : Nat := 0x100001
def dHqField : Nat := 0x100002
def dHqStale : Nat := 0x100003
def dHqSpace : Nat := 0x100004
def dHqHostDma : Nat := 0x100005
def dHqFetch : Nat := 0x100006
def dHqCell : Nat := 0x100007

/-- R459: allocated command codes. -/
def opAllocated (o : Nat) : Bool := decide (o ≤ 0x04 ∨ (0x40 ≤ o ∧ o ≤ 0x47) ∨ (0x50 ≤ o ∧ o ≤ 0x55) ∨ (0x60 ≤ o ∧ o ≤ 0x6A))

/-! ### Doorbells (R446) -/

/-- DBL_SQ_TAIL. -/
def sqDoorbell (s : State) (p q v : Nat) : State :=
  let n := sqSize s p q
  let tail := v % 4096
  if sqState s p q ≠ 1 ∨ n ≤ v then vfEvt s p 4
  else
    let old := rget s (sqTail p q)
    let k := (tail + n - old % n) % n
    let s1 := rset s (sqTail p q) tail
    if k = 0 then s1
    else
      let x := sqGet s1 p q
      { sqPut s1 p q { x with vis := x.vis ++ [(s1.bell, k)] } with bell := s1.bell + 1 }

/-- R445: unconsumed entries of a CQ. -/
def cqUnread (s : State) (p q : Nat) : Nat :=
  let n := cqSize s p q
  (rbits s (cqReg p q 0x10) 15 0 + n - rget s (cqHead p q) % n) % n

/-- R449: the interrupt condition of a CQ by count. -/
def cqCountDue (s : State) (p q : Nat) : Bool :=
  bit (rget s (cqReg p q 0xC)) 31 && decide (max 1 (rbits s (cqReg p q 0xC) 7 0) ≤ cqUnread s p q)

/-- The active host interface version (R488), encoded as major × 256 + minor. -/
def activeVersion (s : State) : Nat := rbits s (pgVer + 0x48) 15 0

/-- R449: the interrupt condition of a CQ by time, which version 3.2 adds (R489). -/
def cqTimeDue (s : State) (p q : Nat) : Bool :=
  let t := if activeVersion s < 0x0302 then 0 else rbits s (cqReg p q 0xC) 25 16
  bit (rget s (cqReg p q 0xC)) 31 && t != 0 && match (cqGet s p q).times with
  | w :: _ => decide (t * 1000 ≤ s.now - w)
  | [] => false

/-- R441, R449: vector `q` goes out when the condition of CQ `q` begins to hold. -/
def cqIrq (s : State) (p q : Nat) : State :=
  let x := cqGet s p q
  let due := cqCountDue s p q || cqTimeDue s p q
  let s1 := cqPut s p q { x with irq := due }
  if due && !x.irq then msixSend s1 (p + 1) q else s1

/-- DBL_CQ_HEAD: the entries before the new HEAD are freed. -/
def cqDoorbell (s : State) (p q v : Nat) : State :=
  let n := cqSize s p q
  let old := rget s (cqHead p q)
  let k := (v + n - old % n) % n
  if cqState s p q ≠ 1 ∨ n ≤ v ∨ cqUnread s p q < k then vfEvt s p 4
  else
    let x := cqGet s p q
    cqIrq (rset (cqPut s p q { x with times := x.times.drop k }) (cqHead p q) v) p q

/-! ### Enabling and disabling (R448, R450, R456) -/

/-- The entry of a slot, out of the bytes fetched from host memory. -/
def entryOf (data : List Byte) (i : Nat) : List Byte := ((data.drop (64 * i)).take 64) ++ List.replicate (64 - ((data.drop (64 * i)).take 64).length) 0#8

/-- R431, R450: each visible entry not yet fetched is fetched and completes with a status, without execution. -/
def endVisible (s : State) (p q status : Nat) (data : List Byte) : State :=
  let x := sqGet s p q
  let n := (x.vis.map (·.2)).sum
  let s1 := sqPut s p q { x with vis := [] }
  (List.range n).foldl (fun t i =>
    let e := entryOf data i
    compPush t p (sqCq t p q) ⟨fld e 4 4, q, status, status, 0, t.sclTime, fld e 8 8⟩) s1

/-- R450: disabling an SQ ends its visible entries with CANCELLED_HOST. -/
def cancelVisible (s : State) (p q : Nat) (data : List Byte) : State := endVisible s p q stCancelledHost data

/-- R448, R450: a write of PART_SQ_CTRL; SIZE_LOG2 and CQ are writable only while the queue is DISABLED. -/
def sqCtrl (s : State) (p q v : Nat) (data : List Byte) : State :=
  let off := sqState s p q = 0
  let s1 := if off then rsetBits s (sqReg p q 8) 11 4 (bits v 11 4) else s
  if bit v 0 then
    if !off then rsetBits s1 (sqReg p q 8) 0 0 1
    else
      let l := rbits s1 (sqReg p q 8) 7 4
      if l < 6 ∨ 12 < l ∨ rget s1 (sqReg p q 0) % 4096 ≠ 0 then vfEvt s1 p 4
      else
        let s2 := rset (rset (rsetBits s1 (sqReg p q 8) 0 0 1) (sqTail p q) 0) (sqReg p q 0x10) 0
        sqSetState (sqPut (rset s2 (sqReg p q 0x14) (rget s2 (sqReg p q 0xC) + 0xFFFFFFFF)) p q
          ⟨[], [], []⟩) p q 1
  else sqSetState (rsetBits (cancelVisible s1 p q data) (sqReg p q 8) 0 0 0) p q 0

/-- R449, R450: a write of PART_CQ_CTRL. -/
def cqCtrl (s : State) (p q v : Nat) : State :=
  let off := cqState s p q = 0
  let s1 := if off then rsetBits s (cqReg p q 8) 7 4 (bits v 7 4) else s
  if bit v 0 then
    if !off then rsetBits s1 (cqReg p q 8) 0 0 1
    else
      let l := rbits s1 (cqReg p q 8) 7 4
      if l < 6 ∨ rget s1 (cqReg p q 0) % 4096 ≠ 0 then vfEvt s1 p 4
      else
        let x := cqGet s1 p q
        let s2 := rset (rset (rsetBits s1 (cqReg p q 8) 0 0 1) (cqHead p q) 0) (cqReg p q 0x10) 0
        cqSetState (cqPut s2 p q { x with phase := true, times := [], irq := false }) p q 1
  else cqSetState (rsetBits s1 (cqReg p q 8) 0 0 0) p q 0

/-! ### Completions (R452, R453, R455) -/

/-- The 32 bytes of a completion entry. -/
def compBytes (c : Comp) (phase : Bool) : List Byte :=
  leBytes 4 c.seq ++ leBytes 2 (c.sq + b2n phase * 2 ^ 15) ++ leBytes 1 c.status ++ leBytes 1 c.orig ++ leBytes 8 c.result ++
  leBytes 8 c.time ++ leBytes 8 c.user

/-- A CQ has room for one more entry (R445). -/
def cqRoom (s : State) (p q : Nat) : Bool := cqState s p q == 1 && decide (cqUnread s p q + 1 < cqSize s p q)

/-- A 64-bit register's value. -/
def rget64 (s : State) (a : Nat) : Nat := rget s a + rget s (a + 4) * 2 ^ 32

/-- R453, R455: the oldest recorded completion is written to its CQ when it has room; `fails` writes of it fail. -/
def compWrite (s : State) (p q fails : Nat) : State :=
  let x := cqGet s p q
  match x.held with
  | [] => s
  | c :: t =>
    if !cqRoom s p q then s
    else if 2 ≤ fails then vfEvt (cqSetState s p q 2) p 2
    else
      let tail := rbits s (cqReg p q 0x10) 15 0
      let last := tail + 1 = cqSize s p q
      let s1 := wr s .host (rget64 s (cqReg p q 0) + 32 * tail) (compBytes c x.phase)
      let s2 := rsetBits s1 (cqReg p q 0x10) 15 0 (if last then 0 else tail + 1)
      cqIrq (cqPut s2 p q { x with held := t, phase := if last then !x.phase else x.phase, times := x.times ++ [s.now] }) p q

/-- PART_CQ_HELD (R449). -/
def cqHeld (s : State) (p q : Nat) : Nat := (cqGet s p q).held.length

/-- R449, R450: time with a completion waiting on a full, disabled or faulted CQ is counted. -/
def cqStallTick (s : State) (n : Nat) : State :=
  s.cqs.foldl (fun t e =>
    let p := e.1 / 16
    let q := e.1 % 16
    if e.2.held.isEmpty || cqRoom s p q then t
    else
      let w := e.2.waitNs + n
      bumpSat (cqPut t p q { e.2 with waitNs := w % 1000 }) (cqReg p q 0x18) (w / 1000)) s

/-! ### Fetching (R454 to R457) -/

/-- The SQ may be fetched: it is enabled, has visible entries, and no completion waits at its CQ for want of room. -/
def fetchable (s : State) (p q : Nat) : Bool :=
  sqState s p q == 1 && !(sqGet s p q).vis.isEmpty &&
  ((cqGet s p (sqCq s p q)).held.isEmpty || cqRoom s p (sqCq s p q)) &&
  (sqCmds s p q).all (fun c => c.started || isSeqCmd c)

/-- The SQs of a partition with visible entries. -/
def turnOf (s : State) (p : Nat) : List (Nat × Nat) := ((List.range 16).filter (fetchable s p)).map (fun q => (p, q))

/-- R454: the next SQ in the round-robin of partitions and queues, with the rest of the turn. -/
def nextTurn (s : State) : Option ((Nat × Nat) × List (Nat × Nat)) :=
  match s.turn.filter (fun x => fetchable s x.1 x.2 && partActive s x.1) with
  | x :: t => some (x, t)
  | [] =>
    let order := (List.range 1024).map (fun i => (s.lastTurn + 1 + i) % 1024)
    match order.find? (fun p => partActive s p && !(turnOf s p).isEmpty) with
    | none => none
    | some p => match turnOf s p with
      | x :: t => some (x, t)
      | [] => none

/-- R489: the version that adds a command code. -/
def opVersion (o : Nat) : Nat :=
  if o ≤ 0x04 ∨ 0x69 ≤ o then 0x0206
  else if 0x60 ≤ o ∧ o ≤ 0x64 then 0x0207
  else if 0x50 ≤ o ∧ o ≤ 0x55 then 0x0208
  else if o ≤ 0x47 then 0x0300
  else 0x0301

/-- R489: an entry sets an operand flag that version 3.2 adds: URGENT of FAB_READ and FAB_WRITE, KV_IMAGE and STATE_IMAGE of JOIN. -/
def lateFlag (e : List Byte) : Bool :=
  ((byteAt e 0 == 0x50 || byteAt e 0 == 0x51) && bit (byteAt e 22) 0) || (byteAt e 0 == 0x42 && bits (byteAt e 21) 2 1 != 0)

/-- R459, R490: the checks of a fetched entry's header and of what the active version holds. -/
def headerFail (s : State) (e : List Byte) : Nat :=
  if !opAllocated (byteAt e 0) || decide (activeVersion s < opVersion (byteAt e 0)) then dHqOpcode
  else if bits (byteAt e 1) 7 1 ≠ 0 ∨ !zeroAt e 2 2 ∨ (lateFlag e ∧ activeVersion s < 0x0302) then dHqField
  else 0

/-- R456: the numbers of the window [L, H]. -/
def windowCut (h base : Nat) (l : List (Nat × Option (Nat × Nat))) : List (Nat × Option (Nat × Nat)) :=
  l.filter (fun e => decide ((h + 2 ^ 32 - e.1) % 2 ^ 32 ≤ min 4095 ((h + 2 ^ 32 - base) % 2 ^ 32)))

/-- R456, R463: accept a fetched entry: it is executed and marked seen, unless its header is bad or it was cancelled. -/
def acceptEntry (s : State) (p q bell : Nat) (e : List Byte) : State :=
  let seq := fld e 4 4
  let x := sqGet s p q
  let c : Cmd := ⟨p, q, seq, fld e 8 8, e, bell, false, [], 0, []⟩
  let s1 := sqPut s p q { x with seen := x.seen ++ [(seq, none)] }
  let s2 := { s1 with cmds := s1.cmds ++ [c] }
  if x.cancels.any (fun k => decide ((seq + 2 ^ 32 - k.1) % 2 ^ 32 ≤ k.2.1 ∧ bell < k.2.2)) then recordCmd s2 c stCancelledHost 0
  else if headerFail s e = 0 then s2
  else recordCmd s2 c stFailedOperand (headerFail s e)

/-- R456, R457: act on one fetched entry. -/
def takeEntry (s : State) (p q bell : Nat) (e : List Byte) : State :=
  let seq := fld e 4 4
  let user := fld e 8 8
  let base := rget s (sqReg p q 0xC)
  let h := rget s (sqReg p q 0x14)
  let ahead := (seq + 2 ^ 32 - h) % 2 ^ 32
  let back := (h + 2 ^ 32 - seq) % 2 ^ 32
  let span := (h + 2 ^ 32 - base) % 2 ^ 32
  let inWin := decide (back ≤ min 4095 span) && decide (h ≠ (base + 0xFFFFFFFF) % 2 ^ 32)
  let x := sqGet s p q
  if 1 ≤ ahead ∧ ahead < 2 ^ 31 then
    acceptEntry (sqPut (rset s (sqReg p q 0x14) seq) p q { x with seen := windowCut seq base x.seen }) p q bell e
  else if inWin then
    match seenAt s p q seq with
    | none => acceptEntry s p q bell e
    | some (some (st, res)) =>
      bumpSat (compPush s p (sqCq s p q) ⟨seq, q, stDuplicate, st, res, s.sclTime, user⟩) (sqReg p q 0x18) 1
    | some none => { s with cmds := s.cmds.map (fun c =>
        if c.part == p && c.sq == q && c.seq == seq then { c with dups := c.dups ++ [user] } else c) }
  else bumpSat (compPush s p (sqCq s p q) ⟨seq, q, stFailedOperand, stFailedOperand, dHqStale, s.sclTime, user⟩) (sqReg p q 0x1C) 1

/-- The first visible entry of an SQ leaves: its doorbell, and the queue without it. -/
def popVisible : List (Nat × Nat) → Option (Nat × List (Nat × Nat))
  | [] => none
  | (b, k) :: t => if k ≤ 1 then some (b, t) else some (b, (b, k - 1) :: t)

/-- Fetch `n` entries of an SQ in order; entry `fault` meets a host error (R455). -/
def fetchLoop (p q : Nat) (data : List Byte) (fault : Option Nat) : Nat → Nat → State → State
  | 0, _, s => s
  | n + 1, i, s =>
    let x := sqGet s p q
    match popVisible x.vis with
    | none => s
    | some (b, vis) =>
      let head := rbits s (sqReg p q 0x10) 11 0
      if fault = some i then
        let left := (x.vis.map (·.2)).sum
        let s1 := vfEvt (sqSetState (sqPut s p q { x with vis := [] }) p q 2) p 1
        (List.range left).foldl (fun t k => compPush t p (sqCq t p q)
          ⟨0, q, stFailedMemory, stFailedMemory, dHqFetch + (head + k) % sqSize s p q * 2 ^ 32, t.sclTime, 0⟩) s1
      else
        let s1 := rsetBits (sqPut s p q { x with vis := vis }) (sqReg p q 0x10) 11 0 ((head + 1) % sqSize s p q)
        fetchLoop p q data fault n (i + 1) (takeEntry s1 p q b (entryOf data i))

/-- R454: one fetch of up to 8 entries from the next SQ in turn; `data` is what host memory returns. -/
def sqFetch (s : State) (data : List Byte) (fault : Option Nat) : State :=
  if !running s then s
  else match nextTurn s with
    | none => s
    | some ((p, q), rest) => fetchLoop p q data fault 8 0 { s with turn := rest, lastTurn := p }

/-! ### NOP, JIG_PUSH, CANCEL (R460, R462, R463) -/

/-- Start a command. -/
def cmdStart (s : State) (c : Cmd) : State := cmdUpd s c (fun x => { x with started := true })

/-- R460: NOP. -/
def hostNop (s : State) (p q : Nat) : State :=
  match cmdNext s p q 0x00 with
  | none => s
  | some c => if operandsOk c [] then cmdDone s c stOk 0 else cmdFail s c dHqField

/-- R462: JIG_PUSH. -/
def hostJigPush (s : State) (p q : Nat) : State :=
  match cmdNext s p q 0x03 with
  | none => s
  | some c =>
    let first := opf c 16 2
    let n := opf c 18 2
    let off := opf c 20 4
    let cells := (partGet s p).cells
    if !operandsOk c [(16, 10)] || n == 0 || off % 64 != 0 then cmdFail s c dHqField
    else if cells.length < first + n then cmdFail s c dHqCell
    else ((cells.drop first).take n).foldl (fun t x => jigPush t x ⟨off, opf c 24 2, .cmd p c.sq c.seq⟩)
      (cmdUpd s c (fun x => { x with started := true, left := n }))

/-- R462: the notice of a cell reaches its JIG_PUSH. -/
def hostJigNotice (s : State) (p q seq : Nat) (n : JigNotice) : State :=
  match cmdAt s p q seq with
  | none => s
  | some c =>
    let got := c.got ++ [(n.cell, n.status)]
    if c.left ≤ 1 then
      let bad := got.filter (fun x => x.2 != 0)
      let worst := bad.foldl (fun (m : Option (Nat × Nat)) x => match m with
        | none => some x
        | some y => if x.1 < y.1 then some x else some y) none
      cmdDone s c (worst.elim stOk (·.2)) bad.length
    else cmdUpd s c (fun x => { x with got := got, left := c.left - 1 })

/-- R463: CANCEL. -/
def hostCancel (s : State) (p q : Nat) : State :=
  match cmdNext s p q 0x04 with
  | none => s
  | some c =>
    if !operandsOk c [(16, 1), (20, 8)] || decide (16 ≤ opf c 16 1) then cmdFail s c dHqField
    else
      let lo := opf c 20 4
      let span := (opf c 24 4 + 2 ^ 32 - lo) % 2 ^ 32
      let hit := (sqCmds s p (opf c 16 1)).filter (fun x => !x.started && !(x.sq == c.sq && x.seq == c.seq) &&
        decide ((x.seq + 2 ^ 32 - lo) % 2 ^ 32 ≤ span))
      let s1 := hit.foldl (fun t x => cmdDone t x stCancelledHost 0) s
      let y := sqGet s1 p (opf c 16 1)
      cmdDone (sqPut s1 p (opf c 16 1) { y with cancels := if y.vis.isEmpty then [] else y.cancels ++ [(lo, span, s1.bell)] })
        c stOk hit.length

/-! ### COPY and ZERO (R461) -/

/-- The end a space code of a host copy names. -/
def hostEnd (s : State) (p sp ci : Nat) : Option BEnd :=
  let cell := (partGet s p).cells[ci]?
  if sp = 2 then cell.map .bench else if sp = 3 then cell.map .slice
  else if sp = 4 then some .hbm else if sp = 5 then some .tier else if sp = 8 then some .host else none

/-- The region of an end for the choice of an engine (R321). -/
def endRegion (s : State) (p : Nat) (e other : BEnd) (a b : Nat) : Nat :=
  let own := fun (x : BEnd) (y : Nat) => match x with
    | .bench c => c / 256
    | .slice c => c / 256
    | .hbm => (((partGet s p).xlate y).getD 0) / 0x2000000000
    | _ => 0
  if e == .host then own other b else own e a

/-- R461: COPY and ZERO run as one barge with key 1,025. -/
def hostCopy (s : State) (p q : Nat) (zero : Bool) : State :=
  match cmdNext s p q (if zero then 0x02 else 0x01) with
  | none => s
  | some c =>
    let ss := opf c 16 1
    let ds := opf c 17 1
    let ok := fun (sp : Nat) => sp == 2 || sp == 3 || sp == 4 || sp == 5 || sp == 8
    let cellSp := fun (sp : Nat) => sp == 2 || sp == 3
    let fields := if zero then [(17, 1), (20, 2), (24, 4), (40, 8)] else [(16, 6), (24, 4), (32, 16)]
    let n := (partGet s p).cells.length
    if !operandsOk c fields || opf c 24 4 == 0 then cmdFail s c dHqField
    else if !ok ds || ds == 5 || (if zero then ds == 8 else !ok ss || (ss == 8 && ds == 8)) then cmdFail s c dHqSpace
    else if (cellSp ds && decide (n ≤ opf c 20 2)) || (!zero && cellSp ss && decide (n ≤ opf c 18 2)) then cmdFail s c dHqCell
    else
      let dst := (hostEnd s p ds (opf c 20 2)).getD .hbm
      let src := if zero then dst else (hostEnd s p ss (opf c 18 2)).getD .hbm
      let sa := opf c 32 8
      let da := opf c 40 8
      let len := opf c 24 4
      let b : Barge := ⟨s.bargeSeq, .cmd p c.sq c.seq, 1025, p, leastLoaded s (endRegion s p dst src da sa), src, [dst], sa, da,
        len, zero, none, none, 0, 0, [], none, s.now,
        leBytes 1 0xFF ++ leBytes 1 (if zero then ds * 16 else ss + ds % 16 * 16) ++ leBytes 1 (b2n zero) ++ leBytes 1 0 ++
          leBytes 4 len ++ leBytes 8 sa ++ leBytes 8 da ++ List.replicate 32 0#8⟩
      bargeOffer (cmdStart s c) b

/-- R461: a unit of a barge lands, or its host DMA fails. -/
def hostUnitLand (s : State) (bid : Nat) (dma : List Byte) (fail : Bool) : State :=
  match s.barges.find? (fun b => b.bid == bid) with
  | none => s
  | some b =>
    if fail && (b.src == .host || b.dsts.contains .host) && b.units.any (fun v => v.u == b.landed && v.granted) then
      bargeFinish (raise s (pgEngine b.engine) 4) b stFailedMemory dHqHostDma
    else unitLand s bid dma

/-- R329, R461: a host copy's barge has ended; the result gives the bytes landed. -/
def hostBargeNotice (s : State) (p q seq : Nat) (n : BargeNotice) : State :=
  match cmdAt s p q seq with
  | none => s
  | some c =>
    if n.status = stOk then cmdDone s c stOk (opf c 24 4)
    else cmdDone s c n.status n.detail

end Sys2Proof.Machine
end

