-- ==== Sys2Proof/Machine/Pages.lean ====
section
/-!
DEFINITION. Machine/Pages.lean: the page manager (R165 to R175, R191, R227, R240): reference counts, the free-page stack,
forks, releases, joins from an image, the preparation of a step's pages, pinning.
Log entries that code here: 43 (DEDUCED, unsafe), 57 (DESIGN CHOICE, unsafe).
-/

namespace Sys2Proof.Machine

/-- Work of the sequencer on the state that may fail with a status and a detail, keeping the state it has reached. -/
abbrev SeqM := ExceptT (Nat × Nat) (StateM State)

/-- Run such work. -/
def SeqM.exec {α : Type} (m : SeqM α) (s : State) : Except (Nat × Nat) α × State := m.run.run s

/-- Fail with a status and a detail. -/
def sqFail {α : Type} (status detail : Nat) : SeqM α := throw (status, detail)

/-- R232: read partition bytes: DENIED outside the partition, FAILED_MEMORY at an uncorrectable error. -/
def sqRead (p a n : Nat) : SeqM (List Byte) := do
  let s ← get
  match hget s p a n false with
  | (s1, 0, b) => do set s1; pure b
  | (s1, r, _) => do set s1; sqFail (reasonStatus r) 0

/-- Write partition bytes. -/
def sqWrite (p a : Nat) (bs : List Byte) : SeqM Unit := do
  let s ← get
  match hput s p a bs with
  | some s1 => set s1
  | none => sqFail stDenied 0

/-- A 32-bit word there. -/
def sqWord (p a : Nat) : SeqM Nat := do return leNat (← sqRead p a 4)
def sqPutWord (p a v : Nat) : SeqM Unit := sqWrite p a (leBytes 4 v)

/-- Write `n` zeros at partition address `a`. -/
def hzero (s : State) (p a n : Nat) : State :=
  let t := ((hphys s p a n).getD []).foldl (fun u x => { u with mems := memsZero u.mems .hbm x.1 x.2 }) s
  hinval t p a n

/-! ### Rollouts -/

/-- The open rollout of a partition. -/
def rollGet (s : State) (p : Nat) : Option Roll := tabGet (fun _ => none) s.rolls p

/-- Set or close the rollout of a partition. -/
def rollPut (s : State) (p : Nat) (x : Option Roll) : State := { s with rolls := tabPut (fun _ => none) s.rolls p x }

/-- Change the open rollout. -/
def rollUpd (s : State) (p : Nat) (f : Roll → Roll) : State :=
  match rollGet s p with
  | some r => rollPut s p (some (f r))
  | none => s

/-- The rollout a command works in. -/
def sqRoll (p : Nat) : SeqM Roll := do
  match rollGet (← get) p with
  | some r => pure r
  | none => sqFail stFailedOperand dSqNotOpen

/-- Change it. -/
def sqUpd (p : Nat) (f : Roll → Roll) : SeqM Unit := modify (fun s => rollUpd s p f)

def Roll.useKv (r : Roll) : Bool := bit (byteAt r.record 5) 0
def Roll.useState (r : Roll) : Bool := bit (byteAt r.record 5) 1
def Roll.freeBase (r : Roll) : Nat := fld r.record 24 8
def Roll.area (r : Roll) : Nat := fld r.record 32 8
def Roll.maxLive (r : Roll) : Nat := fld r.record 52 4
def Roll.notices (r : Roll) : Nat := fld r.record 48 4

/-- The KV root record of the rollout (R162). -/
def Roll.kv (r : Roll) : Option KvRoot := if r.useKv then kvRoot r.kvB else none

/-- R231: a live sequence. -/
def Roll.seqAt (r : Roll) (q : Nat) : Option SeqRec := (r.seqs.find? (fun e => e.1 == q)).map (·.2)

/-- The sequence table is kept in ascending identifier. -/
def seqInsert (q : Nat) (x : SeqRec) : List (Nat × SeqRec) → List (Nat × SeqRec)
  | [] => [(q, x)]
  | (i, y) :: t => if q < i then (q, x) :: (i, y) :: t else if q = i then (q, x) :: t else (i, y) :: seqInsert q x t

def Roll.seqPut (r : Roll) (q : Nat) (x : SeqRec) : Roll := { r with seqs := seqInsert q x r.seqs }
def Roll.seqDel (r : Roll) (q : Nat) : Roll := { r with seqs := r.seqs.filter (fun e => e.1 != q) }
def Roll.seqUpd (r : Roll) (q : Nat) (f : SeqRec → SeqRec) : Roll :=
  { r with seqs := r.seqs.map (fun e => if e.1 = q then (q, f e.2) else e) }

/-- R228: pages earmarked, and pages free and not earmarked. -/
def Roll.marks (r : Roll) : Nat := (r.seqs.map (·.2.mark)).sum
def Roll.freePages (r : Roll) : Nat := r.top - r.marks

/-! ### Page state words and pins (R170, R173, R191) -/

/-- A page leaves its pinned slot. -/
def unpin (s : State) (p n : Nat) : State :=
  let q := partGet s p
  if q.pins.any (fun x => x.page == n) then partPut s p { q with pins := q.pins.filter (fun x => x.page != n) } else s

/-- COUNT of a page. -/
def pageCount (p : Nat) (r : KvRoot) (n : Nat) : SeqM Nat := do return (← sqWord p (r.stateAt n)) % 65536

/-- Set COUNT; a page that becomes free loses PINNED, TABLE and its slot. -/
def setCount (p : Nat) (r : KvRoot) (n c : Nat) : SeqM Unit := do
  let w ← sqWord p (r.stateAt n)
  if c = 0 then
    modify (fun s => unpin s p n)
    sqPutWord p (r.stateAt n) 0
  else sqPutWord p (r.stateAt n) (setBits w 15 0 c)

/-- R227: take the page on top of the stack, with COUNT 1. -/
def popPage (p : Nat) (r : KvRoot) (table : Bool) : SeqM Nat := do
  let x ← sqRoll p
  if x.top = 0 then sqFail stNoPages 0
  else
    let n := (← sqWord p (x.freeBase + 4 * (x.top - 1))) % 2 ^ 25
    sqUpd p (fun y => { y with top := y.top - 1 })
    sqPutWord p (r.stateAt n) (1 + b2n table * 2 ^ 17)
    pure n

/-- R227: push a page. -/
def pushPage (p n : Nat) : SeqM Unit := do
  let x ← sqRoll p
  sqPutWord p (x.freeBase + 4 * x.top) n
  sqUpd p (fun y => { y with top := y.top + 1 })

/-- R191: pin every data page whose COUNT has reached PIN_THRESHOLD, unpin the others. -/
def pinUpdate (p : Nat) (r : KvRoot) (s : State) : State :=
  if r.pinAt = 0 then s
  else (List.range r.pages).foldl (fun t n =>
    let w := hpeekN t p (r.stateAt n) 4
    let q := partGet t p
    let pinned := q.pins.any (fun x => x.page == n)
    let want := !bit w 17 && decide (r.pinAt ≤ w % 65536)
    if want == pinned then t
    else if !want then hputD (unpin t p n) p (r.stateAt n) (leBytes 4 (setBits w 16 16 0))
    else
      let home := pageHome q n
      let free := (List.range r.pinSlots).filter (fun k => !q.pins.any (fun x => x.home == home && x.slot == k))
      if free.isEmpty then bumpSat t (pgArrays home + 0x50) 1
      else
        let (k, t1) := freeBelow free.length t
        let q1 := partGet t1 p
        hputD (partPut t1 p { q1 with pins := q1.pins ++ [⟨n, home, free.getD k 0, false⟩] }) p (r.stateAt n)
          (leBytes 4 (setBits w 16 16 1))) s

/-! ### Bound records (R164, R165) -/

/-- The empty bound. -/
def emptyBound : List Byte :=
  (List.replicate 128 0x7F80).flatMap (leBytes 2) ++ (List.replicate 128 0xFF80).flatMap (leBytes 2)

/-- The bound record of the first `n` K vectors of a page's bytes. -/
def boundOf (fmt : Nat) (b : List Byte) (n : Nat) : List Byte :=
  ((List.range n).foldl (fun r i => boundAdd fmt r (vec128 b (128 * i))) (bf16s emptyBound)).flatMap (leBytes 2)

/-- Write a bound record. -/
def putBound (s : State) (p : Nat) (r : KvRoot) (n : Nat) (b : List Byte) : State :=
  (boundWrites s p r n b).foldl (fun t w => wr t w.1 w.2.1 w.2.2) (boundInval s p r n)

/-- Read a bound record. -/
def sqBound (p : Nat) (r : KvRoot) (n : Nat) : SeqM (List Byte) := do
  match readBound p r (← get) n with
  | (s1, .ok b) => do set s1; pure b
  | (s1, .error (e, _)) => do set s1; sqFail (reasonStatus e) 0

/-- Copy a page and its bound record (R171, R174). -/
def copyPage (p : Nat) (r : KvRoot) (src dst : Nat) : SeqM Unit := do
  let b ← sqRead p (r.pageAt src) 16384
  let bd ← sqBound p r src
  sqWrite p (r.pageAt dst) b
  modify (fun s => putBound s p r dst bd)

/-! ### Tables -/

/-- The first-level entries of a sequence that are VALID: (index, table page). -/
def tablesOf (p : Nat) (r : KvRoot) (q : Nat) : SeqM (List (Nat × Nat)) := do
  let b ← sqRead p (r.dirAt q + 16) (4 * r.l1Count)
  return (List.range r.l1Count).filterMap (fun i => (entryPage (fld b (4 * i) 4)).map (fun n => (i, n)))

/-- The second-level entries of a table page that are VALID: (byte, page). -/
def entriesOf (p : Nat) (r : KvRoot) (t : Nat) : SeqM (List (Nat × Nat)) := do
  let b ← sqRead p (r.pageAt t) 16384
  return (List.range 4096).filterMap (fun i => (entryPage (fld b (4 * i) 4)).map (fun n => (4 * i, n)))

/-- A VALID entry naming a page. -/
def entryFor (n : Nat) : Nat := n + 2 ^ 25

/-- A new table page: all its entries invalid. -/
def newTable (p : Nat) (r : KvRoot) : SeqM Nat := do
  let n ← popPage p r true
  modify (fun s => hzero s p (r.pageAt n) 16384)
  pure n

/-! ### FORK (R171) -/

/-- The page need of a FORK: b's table pages, and a copy of every saturated data page. -/
def forkNeed (p : Nat) (r : KvRoot) (a : Nat) : SeqM Nat := do
  let ts ← tablesOf p r a
  let mut n := ts.length
  for t in ts do
    for e in (← entriesOf p r t.2) do
      if 65535 ≤ (← pageCount p r e.2) then n := n + 1
  return n

/-- R171: the pages of a FORK of a into b. -/
def forkPages (p : Nat) (r : KvRoot) (a b len : Nat) : SeqM Unit := do
  let ts ← tablesOf p r a
  modify (fun s => hzero s p (r.dirAt b) r.stride)
  sqWrite p (r.dirAt b) (leBytes 4 len ++ [1#8])
  let mut ns : List (Nat × Nat) := []
  for t in ts do
    let n ← popPage p r true
    sqWrite p (r.pageAt n) (← sqRead p (r.pageAt t.2) 16384)
    sqPutWord p (r.dirAt b + 16 + 4 * t.1) (entryFor n)
    ns := ns ++ [(t.2, n)]
  for x in ns do
    for e in (← entriesOf p r x.1) do
      let c ← pageCount p r e.2
      if c < 65535 then setCount p r e.2 (c + 1)
      else
        let n ← popPage p r false
        copyPage p r e.2 n
        sqPutWord p (r.pageAt x.2 + e.1) (entryFor n)

/-! ### Release (R173, R234) -/

/-- R173: release a sequence's pages; the pages freed, in the order they are pushed. -/
def releasePages (p : Nat) (r : KvRoot) (q : Nat) : SeqM (List Nat) := do
  let ts ← tablesOf p r q
  let mut freed : List Nat := []
  for t in ts do
    for e in (← entriesOf p r t.2) do
      let c ← pageCount p r e.2
      if c = 0 then modify (fun s => pageFault s p e.2)
      else
        setCount p r e.2 (c - 1)
        if c = 1 then freed := freed ++ [e.2]
  for t in ts do
    setCount p r t.2 0
    freed := freed ++ [t.2]
  sqWrite p (r.dirAt q + 4) [0#8]
  return freed

/-- R234: freed pages return at once, or at the end of the stage 8 in progress. -/
def returnPages (p : Nat) (l : List Nat) : SeqM Unit := do
  let x ← sqRoll p
  if x.stage8.isSome then sqUpd p (fun y => { y with deferPages := y.deferPages ++ l })
  else for n in l do pushPage p n

/-! ### Page need and preparation (R174, R175, R240) -/

/-- R168: the address of a second-level entry, through its table page. -/
def entryAt (p : Nat) (r : KvRoot) (q layer head lp : Nat) : SeqM (Option Nat) := do
  match entryPage (← sqWord p (r.dirAt q + 16 + 4 * r.l1Index layer lp)) with
  | none => return none
  | some t => return if r.pages ≤ t then none else some (r.pageAt t + r.l2Byte lp head)

/-- The pairs of attention layer and KV head, ascending. -/
def layerHeads (r : KvRoot) : List (Nat × Nat) :=
  (List.range r.layers).flatMap (fun l => (List.range r.heads).map (fun h => (l, h)))

/-- R175: the page need at a page boundary. -/
def boundaryNeed (r : KvRoot) (len : Nat) : Nat :=
  r.layers * r.heads + (if len / 64 % r.perTable = 0 then r.layers else 0)

/-- R175: the page need of a sequence for one step. -/
def pageNeed (p : Nat) (r : KvRoot) (q len : Nat) : SeqM Nat := do
  if len % 64 = 0 then return boundaryNeed r len
  else
    let mut n := 0
    for x in layerHeads r do
      match ← entryAt p r q x.1 x.2 (len / 64) with
      | none => pure ()
      | some a =>
        match entryPage (← sqWord p a) with
        | none => pure ()
        | some g => if g < r.pages && decide (1 < (← pageCount p r g)) then n := n + 1
    return n

/-- R174, R240: prepare the page that receives position LEN of one layer and KV head. -/
def preparePage (p : Nat) (r : KvRoot) (q len layer head : Nat) : SeqM Unit := do
  let lp := len / 64
  let l1 := r.dirAt q + 16 + 4 * r.l1Index layer lp
  if len % 64 = 0 ∧ lp % r.perTable = 0 ∧ head = 0 then
    if (entryPage (← sqWord p l1)).isNone then sqPutWord p l1 (entryFor (← newTable p r))
  match ← entryAt p r q layer head lp with
  | none => modify (fun s => pageFault s p 0)
  | some a =>
    match entryPage (← sqWord p a) with
    | none =>
      if len % 64 = 0 then
        let n ← popPage p r false
        modify (fun s => putBound s p r n emptyBound)
        sqPutWord p a (entryFor n)
      else modify (fun s => pageFault s p 0)
    | some g =>
      let c ← pageCount p r g
      if r.pages ≤ g ∨ c = 0 then modify (fun s => pageFault s p g)
      else if len % 64 = 0 then
        if c = 1 then modify (fun s => putBound s p r g emptyBound)
        else
          let n ← popPage p r false
          modify (fun s => putBound s p r n emptyBound)
          sqPutWord p a (entryFor n)
          setCount p r g (c - 1)
      else if 1 < c then
        let n ← popPage p r false
        try copyPage p r g n
        catch e =>
          setCount p r n 0
          pushPage p n
          throw e
        sqPutWord p a (entryFor n)
        setCount p r g (c - 1)

/-- R174: prepare every page of a batch, in ascending identifier, layer and head. -/
def prepareBatch (p : Nat) (r : KvRoot) (batch : List (Nat × Nat)) : SeqM Unit := do
  for b in batch do
    for x in layerHeads r do
      preparePage p r b.1 b.2 x.1 x.2

/-! ### JOIN from an image (R235) -/

/-- R235: the pages of a JOIN: data pages and table pages. -/
def joinNeed (r : KvRoot) (len : Nat) : Nat :=
  let lps := ceilDiv len 64
  r.layers * r.heads * lps + r.layers * ceilDiv lps r.perTable

/-- R235: copy one data page out of an image. -/
def joinPage (p : Nat) (r : KvRoot) (image len layer head lp t : Nat) : SeqM Unit := do
  let cnt := min 64 (len - 64 * lp)
  let raw ← sqRead p (image + ((layer * r.heads + head) * len + 64 * lp) * 256) (256 * cnt)
  let ks := (List.range cnt).flatMap (fun i => (raw.drop (256 * i)).take 128)
  let vs := (List.range cnt).flatMap (fun i => (raw.drop (256 * i + 128)).take 128)
  let n ← popPage p r false
  sqWrite p (r.pageAt n) ks
  sqWrite p (r.pageAt n + 8192) vs
  modify (fun s => putBound s p r n (boundOf r.fmt ks cnt))
  sqPutWord p (r.pageAt t + r.l2Byte lp head) (entryFor n)

/-- R235: the directory entry and the pages of a JOIN with `len` positions. -/
def joinPages (p : Nat) (r : KvRoot) (q image len : Nat) : SeqM Unit := do
  let lps := ceilDiv len 64
  modify (fun s => hzero s p (r.dirAt q) r.stride)
  for layer in List.range r.layers do
    for k in List.range (ceilDiv lps r.perTable) do
      let t ← newTable p r
      sqPutWord p (r.dirAt q + 16 + 4 * r.l1Index layer (k * r.perTable)) (entryFor t)
      for lp in (List.range (min r.perTable (lps - k * r.perTable))).map (· + k * r.perTable) do
        for head in List.range r.heads do
          joinPage p r image len layer head lp t
  sqWrite p (r.dirAt q) (leBytes 4 len ++ [1#8])

/-! ### A failed step (R244) -/

/-- R244: rewrite the bound record of one tail page of COUNT 1; a tail page that cannot be resolved is an accounting fault. -/
def rewriteTail (p : Nat) (r : KvRoot) (q len layer head : Nat) : SeqM Unit := do
  match ← entryAt p r q layer head (len / 64) with
  | none => modify (fun s => pageFault s p 0)
  | some a =>
    match entryPage (← sqWord p a) with
    | none => modify (fun s => pageFault s p 0)
    | some g =>
      let c ← pageCount p r g
      if r.pages ≤ g ∨ c = 0 then modify (fun s => pageFault s p g)
      else if c = 1 then
        let n := len % 64
        let keys : Option (List Byte) ← (do
          if n = 0 then return some []
          else return some (← sqRead p (r.pageAt g) (128 * n))) <|> pure none
        match keys with
        | some b => modify (fun s => putBound s p r g (boundOf r.fmt b n))
        | none => modify (fun s => putBound s p r g ((List.replicate 256 0x7FC0).flatMap (leBytes 2)))

/-- R244: every tail page of a batch; a table that cannot be read leaves its bound. -/
def rewriteTails (p : Nat) (r : KvRoot) (batch : List (Nat × Nat)) (s : State) : State :=
  batch.foldl (fun t b => (layerHeads r).foldl (fun u x => ((rewriteTail p r b.1 b.2 x.1 x.2).exec u).2) t) s

end Sys2Proof.Machine
end

