-- ==== Sys2Proof/Machine/Seqr.lean ====
section
/-!
DEFINITION. Machine/Seqr.lean: the rollout sequencer (R216 to R220, R225 to R244, R246): rollouts, sequences, commands in
their total order, steps.
Log entries that code here: 55 (DEDUCED, unsafe), 56 (DEDUCED, unsafe), 57 (DESIGN CHOICE, unsafe), 58 (DEDUCED, unsafe), 59 (DEDUCED,
unsafe), 60 (DEDUCED, unsafe), 61 (DEDUCED, unsafe), 127 (DEDUCED, unsafe), 129 (DESIGN CHOICE, safe).
-/

namespace Sys2Proof.Machine

/-! ### Records (R225, R216) -/

/-- R225: the rollout record. -/
def rollRecOk (b : List Byte) : Bool :=
  let use := byteAt b 5
  let kv := bit use 0
  let st := bit use 1
  fld b 0 4 == 0x524F4C4C && byteAt b 4 == 1 && bits use 7 2 == 0 && (kv || st) && fld b 6 2 != 0 &&
  (if kv then fld b 8 8 % 64 == 0 else fld b 8 8 == 0) && (if st then fld b 16 8 % 64 == 0 else fld b 16 8 == 0) &&
  (if kv then fld b 24 8 % 64 == 0 else fld b 24 8 == 0) && fld b 32 8 % 4096 == 0 && fld b 40 8 % 64 == 0 &&
  isPow2 (fld b 48 4) && decide (64 ≤ fld b 48 4 ∧ fld b 48 4 ≤ 1048576) && decide (1 ≤ fld b 52 4 ∧ fld b 52 4 ≤ 262144) &&
  fld b 56 4 % 64 == 0 && fld b 60 4 % 64 == 0 && fld b 64 4 % 32 == 0 && zeroAt b 68 60

/-- Fields of the state root record (R216). -/
def stFmt (b : List Byte) : Nat := byteAt b 5
def stCells (b : List Byte) : Nat := fld b 6 2
def stSlotBytes (b : List Byte) : Nat := fld b 8 4
def stSlots (b : List Byte) : Nat := fld b 12 4
def stSaveBase (b : List Byte) : Nat := fld b 16 8
def stSaveSeqs (b : List Byte) : Nat := fld b 24 4
def stStride (b : List Byte) : Nat := fld b 28 4

/-- R216: the state root record of a partition. -/
def stateRootOk (s : State) (p : Nat) (b : List Byte) : Bool :=
  let cells := (partGet s p).cells
  fld b 0 4 == 0x52535452 && byteAt b 4 == 1 && (stFmt b == 2 || stFmt b == 0x10 || stFmt b == 0x11) &&
  stCells b == (cells.filter (fun c => stateSlots s c != 0)).length && decide (1 ≤ stCells b ∧ stCells b ≤ 1024) &&
  cells.all (fun c => slotBytes s c == stSlotBytes b) &&
  decide (1 ≤ stSlots b ∧ stSlots b ≤ 262144) && cells.all (fun c => decide (stSlots b ≤ stateSlots s c)) &&
  stSaveBase b % 64 == 0 && decide (1 ≤ stSaveSeqs b ∧ stSaveSeqs b ≤ 1048576) && stStride b % 64 == 0 &&
  decide (64 + stCells b * stSlotBytes b ≤ stStride b) && zeroAt b 32 32

/-- [a, a + n) lies inside a partition's HBM (R287). -/
def insideHbm (s : State) (p a n : Nat) : Bool := decide (a + n ≤ (partGet s p).hbmBytes)

/-- [a, a + n) lies in the scratchpad of every cell of a partition. -/
def insideScratch (s : State) (p a n : Nat) : Bool := (partGet s p).cells.all (fun c => decide (a + n ≤ scratchBytes s c))

/-- R226: the areas a rollout's records name lie inside the partition. -/
def rollAreasOk (s : State) (p ra : Nat) (b kvB stB : List Byte) : Bool :=
  let h := insideHbm s p
  h ra 128 && h (fld b 32 8) 65856 && h (fld b 40 8) (16 * fld b 48 4) &&
  insideScratch s p (fld b 56 4) 64 && insideScratch s p (fld b 60 4) 131072 && decide (fld b 64 4 + 65536 ≤ 0x100000) &&
  (!bit (byteAt b 5) 0 || (h (fld b 8 8) 64 && match kvRoot kvB with
    | none => true
    | some r =>
      let c := (partGet s p).cells.length
      h r.pool (r.pages * 16384) && h r.dir (r.maxSeq * r.stride) && h r.states (4 * r.pages) && h (fld b 24 8) (4 * r.pages) &&
      (if r.boundSlice then insideScratch s p (r.bound % 2 ^ 24) (ceilDiv r.pages c * 512) else h r.bound (r.pages * 512)) &&
      (r.pinAt == 0 || insideScratch s p r.pinOff (r.pinSlots * 16384)))) &&
  (!bit (byteAt b 5) 1 || (h (fld b 16 8) 64 && h (stSaveBase stB) (stSaveSeqs stB * stStride stB)))

/-! ### The status block, notices, the order of commands (R228, R230, R233) -/

/-- Slots held by resident sequences. -/
def Roll.usedSlots (r : Roll) : List Nat := r.seqs.filterMap (fun e => match e.2.cond with
  | .resident k => some k
  | _ => none)

/-- Slots free (R228, R234). -/
def Roll.freeSlots (r : Roll) : List Nat :=
  if r.useState then (List.range (stSlots r.stB)).filter (fun k => !r.usedSlots.contains k && !r.deferSlots.contains k) else []

/-- R228: the status block, but NOTICE_TAIL, which the host writes. -/
def writeStatus (s : State) (p : Nat) : State :=
  match rollGet s p with
  | none => s
  | some r =>
    let cnt := fun (f : SeqRec → Bool) => (r.seqs.filter (fun e => f e.2)).length
    let lo := leBytes 8 r.steps ++ leBytes 4 r.seqs.length ++ leBytes 4 (cnt (·.parked)) ++ leBytes 4 (cnt (·.broken)) ++
      leBytes 4 r.freePages ++ leBytes 4 r.marks ++ leBytes 4 r.freeSlots.length ++ leBytes 4 (r.head % 2 ^ 32)
    let hi := leBytes 4 r.missed ++ leBytes 4 (r.stallNs / 1000) ++ leBytes 1 r.last ++ List.replicate 207 0#8
    hputD (hputD s p r.area lo) p (r.area + 40) hi

/-- R230: a notice waits for room in the ring. -/
def notice (p q kind status number : Nat) : SeqM Unit := sqUpd p (fun r => { r with nq := r.nq ++ [(q, kind, status, number)] })

/-- R230: the ring has room. -/
def noticeRoom (s : State) (p : Nat) (r : Roll) : Bool :=
  decide ((r.head + 2 ^ 32 - hpeekN s p (r.area + 36) 4) % 2 ^ 32 < r.notices)

/-- R230: write the next notice once the ring has room. -/
def noticeWrite (s : State) (p : Nat) : State :=
  match rollGet s p with
  | none => s
  | some r => match r.nq with
    | [] => s
    | (q, kind, st, n) :: t =>
      if noticeRoom s p r then
        let s1 := hputD s p (fld r.record 40 8 + 16 * (r.head % r.notices))
          (leBytes 4 q ++ leBytes 1 kind ++ leBytes 1 st ++ leBytes 2 0 ++ leBytes 8 n)
        writeStatus (rollPut s1 p (some { r with nq := t, head := (r.head + 1) % 2 ^ 32 })) p
      else s

/-- R230: time spent waiting on a full ring. -/
def noticeStallTick (s : State) (n : Nat) : State :=
  s.rolls.foldl (fun t e => match e.2 with
    | some r => if r.nq.isEmpty || noticeRoom s e.1 r then t else rollPut t e.1 (some { r with stallNs := r.stallNs + n })
    | none => t) s

/-- The sequencer commands of a partition that have not started. -/
def seqWaiting (s : State) (p : Nat) : List Cmd := s.cmds.filter (fun c => c.part == p && isSeqCmd c && !c.started)

/-- R233: the first of them in the total order. -/
def seqFirst (s : State) (p : Nat) : Option Cmd :=
  (seqWaiting s p).foldl (fun m c => match m with
    | none => some c
    | some x => if c.bell < x.bell then some c else some x) none

/-- Entries of a doorbell before `bell` are visible and not fetched. -/
def unfetchedBefore (s : State) (p bell : Nat) : Bool :=
  (List.range 16).any (fun q => (sqGet s p q).vis.any (fun v => decide (v.1 < bell)))

/-- R233: the command of a partition the sequencer applies next: the gate is open, or a stage 8 applies what waited. -/
def seqNext (s : State) (p : Nat) : Option Cmd :=
  if !(running s && partActive s p) then none
  else match seqFirst s p with
    | none => none
    | some c =>
      if unfetchedBefore s p c.bell || !startableIn (sqCmds s p c.sq) c then none
      else match rollGet s p with
        | none => some c
        | some r =>
          if r.step.isSome || !r.nq.isEmpty then none
          else match r.stage8 with
            | some b => if c.bell < b && cmdOp c != 0x46 then some c else none
            | none => some c

/-- R232: the operand bytes of a sequencer command that may be non-zero, and the mask of its flags byte. -/
def seqOperandsOk (c : Cmd) : Bool :=
  let flags := fun (off mask : Nat) => opf c off 1 ≤ mask
  match cmdOp c with
  | 0x40 => operandsOk c [(16, 8)]
  | 0x41 => operandsOk c []
  | 0x42 => operandsOk c [(16, 6), (24, 4), (32, 16)] && decide (flags 21 7)
  | 0x43 => operandsOk c [(16, 10)] && decide (flags 25 1)
  | 0x44 => operandsOk c [(16, 4)]
  | 0x45 => operandsOk c [(16, 5)] && decide (flags 20 1)
  | 0x46 => operandsOk c [(16, 4)] && decide (flags 17 1)
  | _ => operandsOk c [(16, 6)] && decide (flags 21 7)

/-- Fail with a detail of R246. -/
def sqOperand {α : Type} (detail : Nat) : SeqM α := sqFail stFailedOperand detail

/-- R228: the application stamp and the status block after a command. -/
def seqApplied (s : State) (p : Nat) : State := writeStatus (rollUpd s p (fun r => { r with stamp := r.stamp + 1 })) p

/-- R232: tables of the sequencer as they were: a command that fails changes none. -/
def seqUndo (s0 s1 : State) (p : Nat) : State :=
  rollPut { s1 with mems := { s0.mems with slice := s1.mems.slice, bench := s1.mems.bench, acc := s1.mems.acc } } p (rollGet s0 p)

/-- The detail of a failed state move: its record stays VALID 0 (R217, R220), the tables have not changed yet. -/
def movedMark : Nat := 2 ^ 32

/-- Apply the next command of partition `p`, if its code is `op`: `m` gives its result. -/
def seqApply (s : State) (p op : Nat) (m : Cmd → SeqM Nat) : State :=
  match seqNext s p with
  | none => s
  | some c =>
    if cmdOp c ≠ op then s
    else if !seqOperandsOk c then seqApplied (cmdFail s c dSqField) p
    else match (m c).exec s with
      | (.ok v, s1) => cmdDone (seqApplied s1 p) c stOk v
      | (.error (st, det), s1) =>
        cmdDone (seqApplied (if det = movedMark then rollPut s1 p (rollGet s p) else seqUndo s s1 p) p) c st (det % movedMark)

/-! ### State moves (R214, R217 to R220) -/

/-- The cells that hold state, in ascending number (R216). -/
def stateCells (s : State) (p : Nat) : List Nat := (partGet s p).cells.filter (fun c => stateSlots s c != 0)

/-- The bytes of a descriptor that moves one whole slot. -/
def moveDesc (op src len : Nat) : List Byte :=
  [BitVec.ofNat 8 op, 2#8, 0xFF#8, 0xFF#8, 0#8, 0#8, 1#8, 0#8, 1#8, 0#8, BitVec.ofNat 8 src, 0#8] ++ leBytes 4 0 ++ leBytes 4 0 ++
    leBytes 4 len ++ List.replicate 40 0#8

/-- One cell's part of a move: its bytes move, its counters and failure record follow, its boundary jig ends. -/
def moveCell (s : State) (p c op src slot other haddr : Nat) : State × Nat :=
  let d := moveDesc op src (slotBytes s c)
  let e := (slot, other, 0, haddr)
  let o := if op = 0x13 then saveEntries c p d s [] [e]
    else loadEntries c d (fun t x =>
      if src = 0 then hget t p x.2.2.2 (slotBytes t c) false
      else if src = 1 then (t, 0, List.replicate (slotBytes t c) 0#8)
      else match moveEcc t c d x.2.1 with
        | (t1, true) => (t1, 0, stateRead t1 c (moveOff t1 c d x.2.1) (slotBytes t1 c))
        | (t1, false) => (t1, rEccUncorr, [])) s [] [e]
  let s1 := scrambleRegions c o.scramble (applyWrites o.st o.writes).1
  let (id, s2) := freeBelow 65536 s1
  let s3 := if o.status = 0 then s2
    else recordFail (stateFailed s2 c d o.detail) c id 0 ((rollGet s2 p).elim 0 (fun r => fld r.record 60 4)) d o.status o.reason o.detail
  let s4 := rset s3 (pgJq c + 0x50) (o.status + b2n (o.status != 0) * 2 ^ 8 + id * 2 ^ 16)
  (raise (bumpWrap s4 (pgJq c + 0x4C) 1) (pgCel c) 1, o.status)

/-- R227: the boundary jigs overwrite the boundary area and the bench area of a cell with bytes no rule states. -/
def boundaryJig (s : State) (p c : Nat) : State :=
  match rollGet s p with
  | none => s
  | some r =>
    let s1 := scrambleSpan .slice 131072 1026 (sliceA c (fld r.record 60 4)) s
    scrambleSpan .bench 65536 514 (benchA c (fld r.record 64 4)) s1

/-- A move in every state cell; the status of the lowest cell that did not report OK. -/
def moveAll (s : State) (p op src slot other image : Nat) : State × Nat :=
  (stateCells s p).zipIdx.foldl (fun a x =>
    let t := boundaryJig a.1 p x.1
    let (t1, st) := moveCell t p x.1 op src slot other (image + 64 + x.2 * slotBytes t x.1)
    (t1, if a.2 = 0 then st else a.2)) (s, 0)

/-- R217: the save record of a sequence. -/
def saveRecord (r : Roll) (q : Nat) : Nat := stSaveBase r.stB + q * stStride r.stB

/-- R217: the header of a save record. -/
def saveHeader (r : Roll) (valid : Nat) : List Byte :=
  leBytes 4 0x52535456 ++ leBytes 1 valid ++ leBytes 1 (stFmt r.stB) ++ leBytes 2 (stCells r.stB) ++ leBytes 4 (stSlotBytes r.stB) ++
    List.replicate 52 0#8

/-- R217: save a slot into the record of sequence `q`: VALID 0 before, 1 after every cell's OK. -/
def saveSlot (s : State) (p q slot : Nat) : State × Nat :=
  match rollGet s p with
  | none => (s, stOk)
  | some r =>
    let rec' := saveRecord r q
    match moveAll (hputD s p rec' (saveHeader r 0)) p 0x13 0 slot 0 rec' with
    | (s1, 0) => (hputD s1 p (rec' + 4) [1#8], 0)
    | x => x

/-- R219: free a slot, at once or at the end of stage 8 (R234). -/
def freeSlot (r : Roll) (k : Nat) : Roll := if r.stage8.isSome then { r with deferSlots := r.deferSlots ++ [k] } else r

/-- R219: a free slot is assigned; which one is left open. -/
def takeSlot (s : State) (p : Nat) : Option (Nat × State) :=
  match rollGet s p with
  | none => none
  | some r => match r.freeSlots with
    | [] => none
    | k :: t => let (i, s1) := freeBelow (t.length + 1) s
      some ((k :: t).getD i k, s1)

/-- R219, R220: save a resident sequence and free its slot; false when the save fails and it stays RESIDENT. -/
def parkSave (s : State) (p q : Nat) : State × Bool :=
  match (rollGet s p).bind (·.seqAt q) with
  | none => (s, false)
  | some x => match x.cond with
    | .resident k => match saveSlot s p q k with
      | (s1, 0) => (rollUpd s1 p (fun r => r.seqUpd q (fun y => { y with cond := .saved (saveRecord r q) })), true)
      | (s1, _) => (s1, false)
    | _ => (s, true)

/-- R219: load a sequence that is not RESIDENT into a free slot. -/
def loadSeq (s : State) (p q : Nat) : State × Bool :=
  match (rollGet s p).bind (·.seqAt q) with
  | none => (s, false)
  | some x => match x.cond with
    | .resident _ => (s, true)
    | c => match takeSlot s p with
      | none => (s, false)
      | some (k, s1) =>
        match (match c with
          | .saved a => moveAll s1 p 0x14 0 k 0 a
          | _ => moveAll s1 p 0x14 1 k 0 0) with
        | (s2, 0) => (rollUpd s2 p (fun r => r.seqUpd q (fun y => { y with cond := .resident k })), true)
        | (s2, _) => (s2, false)

/-- Copy a whole save image. -/
def copyImage (p a b : Nat) : SeqM Unit := do
  let r ← sqRoll p
  sqWrite p b (← sqRead p a (64 + stCells r.stB * stSlotBytes r.stB))

/-! ### ROLL_OPEN and ROLL_CLOSE (R226) -/

/-- R226. -/
def rollOpen (p : Nat) (c : Cmd) : SeqM Nat := do
  let a := opf c 16 8
  if (rollGet (← get) p).isSome then sqOperand dSqBusy
  if a % 64 ≠ 0 then sqOperand dSqRecord
  let b ← sqRead p a 128
  if !rollRecOk b then sqOperand dSqRecord
  let kvB ← if bit (byteAt b 5) 0 then sqRead p (fld b 8 8) 64 else pure []
  let stB ← if bit (byteAt b 5) 1 then sqRead p (fld b 16 8) 64 else pure []
  let s ← get
  if (bit (byteAt b 5) 0 && (kvRoot kvB).isNone) || (bit (byteAt b 5) 1 && !stateRootOk s p stB) then sqOperand dSqRecord
  if !rollAreasOk s p a b kvB stB then sqFail stDenied 0
  let live := (s.rolls.map (fun e => e.2.elim 0 (·.maxLive))).sum
  if 262144 < live + fld b 52 4 then sqFail stOversubscribed 0
  let pages := ((if bit (byteAt b 5) 0 then kvRoot kvB else none).elim 0 (·.pages))
  let r : Roll := ⟨b, kvB, stB, [], 0, 0, pages, none, none, [], [], [], 0, 0, 0, 0⟩
  match r.kv with
  | some k =>
    modify (fun t => hzero (hzero t p k.states (4 * k.pages)) p k.dir (k.maxSeq * k.stride))
    sqWrite p r.freeBase ((List.range k.pages).flatMap (fun i => leBytes 4 (k.pages - 1 - i)))
  | none => pure ()
  modify (fun t =>
    let q := partGet t p
    rollPut (partPut (hzero t p r.area 65856) p { q with pins := [] }) p (some r))
  return 0

/-- R226. -/
def rollClose (p : Nat) (_c : Cmd) : SeqM Nat := do
  let r ← sqRoll p
  if !r.seqs.isEmpty then sqOperand dSqBusy
  modify (fun s => rollPut s p none)
  return 0

/-! ### Sequences (R231, R235 to R237) -/

/-- R231: the usable range of identifiers. -/
def seqRange (r : Roll) (q : Nat) : Bool :=
  (match r.kv with
    | some k => decide (q < k.maxSeq)
    | none => decide (q < 2 ^ 20)) && (!r.useState || decide (q < stSaveSeqs r.stB))

/-- A live sequence, or SQ_SEQ_DEAD. -/
def liveSeq (r : Roll) (q : Nat) : SeqM SeqRec := do
  if !seqRange r q then sqOperand dSqSeqRange
  match r.seqAt q with
  | some x => pure x
  | none => sqOperand dSqSeqDead

/-- R235: JOIN. -/
def seqJoin (p : Nat) (c : Cmd) : SeqM Nat := do
  let r ← sqRoll p
  let q := opf c 16 4
  let prio := opf c 20 1
  let fl := opf c 21 1
  let len := opf c 24 4
  let kvI := bit fl 1
  let stI := bit fl 2
  if 15 < prio ∨ (!kvI ∧ len ≠ 0) then sqOperand dSqField
  if !seqRange r q then sqOperand dSqSeqRange
  if (r.seqAt q).isSome then sqOperand dSqSeqLive
  if r.maxLive ≤ r.seqs.length then sqOperand dSqLiveLimit
  if (kvI && !r.useKv) || (stI && !r.useState) || decide (1048576 < len) then sqOperand dSqImage
  if stI then
    let b ← sqRead p (opf c 40 8) 64
    if !(fld b 0 4 == 0x52535456 && byteAt b 4 == 1 && byteAt b 5 == stFmt r.stB && fld b 6 2 == stCells r.stB &&
        fld b 8 4 == stSlotBytes r.stB) then sqOperand dSqImage
    if !insideHbm (← get) p (opf c 40 8) (64 + stCells r.stB * stSlotBytes r.stB) then sqFail stDenied 0
  let full := len == 1048576
  let idle := bit fl 0 || full
  let (taken, mark) := match r.kv with
    | some k => (if kvI then joinNeed k len else 0, if idle then 0 else if len % 64 = 0 then boundaryNeed k len else 0)
    | none => (0, 0)
  if r.freePages < taken + mark then sqFail stNoPages 0
  match r.kv with
  | some k =>
    if kvI && !insideHbm (← get) p (opf c 32 8) (k.layers * k.heads * len * 256) then sqFail stDenied 0
    joinPages p k q (opf c 32 8) (if kvI then len else 0)
  | none => pure ()
  sqUpd p (fun y => y.seqPut q ⟨len, prio, idle, full, false, false, true, if stI then .saved (opf c 40 8) else .fresh,
    y.steps, y.stamp + 1, mark⟩)
  return taken + mark * 2 ^ 32

/-- R219: the state of a FORK's new sequence: its condition, and whether it is parked. -/
def forkState (p b : Nat) (x : SeqRec) : SeqM (Cond × Bool) := do
  let r ← sqRoll p
  match x.cond with
  | .fresh => return (.fresh, false)
  | .saved src =>
    if r.useState then copyImage p src (saveRecord r b)
    return (.saved (saveRecord r b), false)
  | .resident k =>
    match takeSlot (← get) p with
    | some (n, s1) =>
      match moveAll s1 p 0x14 2 n k 0 with
      | (s2, 0) => do set s2; return (.resident n, false)
      | (s2, st) => do set s2; sqFail st movedMark
    | none =>
      match saveSlot (← get) p b k with
      | (s2, 0) => do set s2; return (.saved (saveRecord r b), true)
      | (s2, st) => do set s2; sqFail st movedMark

/-- R236: FORK. -/
def seqFork (p : Nat) (c : Cmd) : SeqM Nat := do
  let r ← sqRoll p
  let a := opf c 16 4
  let b := opf c 20 4
  let prio := opf c 24 1
  if 15 < prio ∧ prio ≠ 0xFF then sqOperand dSqField
  if !seqRange r a || !seqRange r b then sqOperand dSqSeqRange
  let x ← liveSeq r a
  if x.broken then sqOperand dSqBroken
  if (r.seqAt b).isSome then sqOperand dSqSeqLive
  if r.maxLive ≤ r.seqs.length then sqOperand dSqLiveLimit
  let need ← match r.kv with
    | some k => forkNeed p k a
    | none => pure 0
  if r.freePages < need then sqFail stNoPages 0
  let (cond, parked) ← if r.useState then forkState p b x else pure (.fresh, false)
  match r.kv with
  | some k => forkPages p k a b x.len
  | none => pure ()
  sqUpd p (fun y => y.seqPut b ⟨x.len, if prio = 0xFF then x.prio else prio, bit (opf c 25 1) 0 || x.full, x.full, parked,
    false, true, cond, y.steps, y.stamp + 1, 0⟩)
  if parked then notice p b 1 stParked r.steps
  return need + b2n parked * 2 ^ 32

/-- R237: a sequence ends: its pages and its slot are released. -/
def seqDrop (p q : Nat) (x : SeqRec) : SeqM Nat := do
  let r ← sqRoll p
  let freed ← match r.kv with
    | some k => releasePages p k q
    | none => pure []
  returnPages p freed
  sqUpd p (fun y => match x.cond with
    | .resident k => freeSlot (y.seqDel q) k
    | _ => y.seqDel q)
  return freed.length

/-- R237: PRUNE. -/
def seqPrune (p : Nat) (c : Cmd) : SeqM Nat := do
  let r ← sqRoll p
  let x ← liveSeq r (opf c 16 4)
  seqDrop p (opf c 16 4) x

/-- R237: LEAVE. -/
def seqLeave (p : Nat) (c : Cmd) : SeqM Nat := do
  let r ← sqRoll p
  let q := opf c 16 4
  let x ← liveSeq r q
  let noImage ← if !bit (opf c 20 1) 0 then pure 0
    else if !r.useState || x.broken then pure 1
    else match x.cond with
      | .fresh => pure 1
      | .saved a => do
        if a ≠ saveRecord r q then copyImage p a (saveRecord r q)
        pure 0
      | .resident k => do
        match saveSlot (← get) p q k with
        | (s1, 0) => do set s1; pure 0
        | (s1, st) => do set s1; sqFail st movedMark
  let n ← seqDrop p q x
  return n + noImage * 2 ^ 32

/-- R235: SEQ_SET. -/
def seqSet (p : Nat) (c : Cmd) : SeqM Nat := do
  let r ← sqRoll p
  let q := opf c 16 4
  let fl := opf c 21 1
  if 15 < opf c 20 1 then sqOperand dSqField
  let x ← liveSeq r q
  let mut mark := 0
  if bit fl 1 then
    if bit fl 0 then sqUpd p (fun y => y.seqUpd q (fun z => { z with idle := true, mark := 0 }))
    else if x.idle then
      if x.broken || x.full then sqOperand dSqBroken
      mark ← match r.kv with
        | some k => pageNeed p k q x.len
        | none => pure 0
      if r.freePages < mark then sqFail stNoPages 0
      sqUpd p (fun y => y.seqUpd q (fun z => { z with idle := false, mark := mark }))
  if bit fl 2 then sqUpd p (fun y => y.seqUpd q (fun z => { z with prio := opf c 20 1 }))
  return mark

/-! ### Steps (R238 to R244) -/

/-- R176: the bucket of a length. -/
def bucketOf (len : Nat) : Nat := if len = 0 then 0 else (ceilDiv len 64).log2 + 1

/-- R239: the order of eviction and parking: lowest PRIO first, then youngest. -/
def giveWay (a b : Nat × SeqRec) : Bool := decide (a.2.prio < b.2.prio) || (a.2.prio == b.2.prio && decide (b.2.age ≤ a.2.age))

/-- R238: the order of candidates. -/
def stepOrder (a b : Nat × SeqRec) : Bool :=
  decide (a.2.lastStep < b.2.lastStep) || (a.2.lastStep == b.2.lastStep &&
    (decide (b.2.prio < a.2.prio) || (a.2.prio == b.2.prio && decide (a.1 ≤ b.1))))

/-- R238: the bucket of a step and its candidates in order. -/
def candidates (r : Roll) (bucket : Nat) : Nat × List (Nat × SeqRec) :=
  let live := r.seqs.filter (fun e => !e.2.idle && !e.2.broken)
  let low := live.foldl (fun m e => min m e.2.lastStep) (live.headD (0, ⟨0, 0, false, false, false, false, false, .fresh, 0, 0, 0⟩)).2.lastStep
  let auto := (live.filter (fun e => e.2.lastStep == low)).foldl (fun m e => min m (bucketOf e.2.len)) 15
  let b := if bucket = 0xFF then (if live.isEmpty then 0 else auto) else bucket
  (b, sortBy stepOrder (live.filter (fun e => bucketOf e.2.len == b)))

/-- A sequence holds a slot. -/
def isResident (x : SeqRec) : Bool := match x.cond with
  | .resident _ => true
  | _ => false

/-- R239: the page and slot shortfalls of the kept candidates, given their page needs. -/
def shortfall (r : Roll) (kept : List (Nat × Nat)) : Nat × Nat :=
  ((kept.map (·.2)).sum - r.freePages,
   if r.useState then (kept.filter (fun k => !((r.seqAt k.1).elim false isResident))).length - r.freeSlots.length else 0)

/-- R239, step 1: evict resident sequences that are not kept while slots are short. -/
def evict (p number : Nat) (kept : List (Nat × Nat)) : List Nat → SeqM Unit
  | [] => pure ()
  | q :: t => do
    let r ← sqRoll p
    if (shortfall r kept).2 = 0 then pure ()
    else
      match parkSave (← get) p q with
      | (s1, true) => do set s1; notice p q 3 stOk number
      | (s1, false) => set s1
      evict p number kept t

/-- R239, step 2: park kept candidates while either total is short; the ones kept and the number parked. -/
def parkLoop (p number : Nat) : List Nat → List (Nat × Nat) → Nat → SeqM (List (Nat × Nat) × Nat)
  | [], kept, n => pure (kept, n)
  | q :: t, kept, n => do
    let r ← sqRoll p
    let (pg, sl) := shortfall r kept
    if pg = 0 ∧ sl = 0 then return (kept, n)
    else if sl = 0 ∧ ((kept.find? (fun k => k.1 == q)).elim 0 (·.2)) = 0 then parkLoop p number t kept n
    else
      let (s1, ok) := parkSave (← get) p q
      set s1
      if ok then
        sqUpd p (fun y => y.seqUpd q (fun z => { z with parked := true, first := true }))
        notice p q 1 stParked number
        parkLoop p number t (kept.filter (fun k => k.1 != q)) (n + 1)
      else parkLoop p number t kept n

/-- R219, R220: load every kept sequence that is not RESIDENT; one whose load fails leaves the batch. -/
def loadLoop (p : Nat) : List Nat → SeqM (List Nat)
  | [] => pure []
  | q :: t => do
    let r ← sqRoll p
    if !r.useState then return q :: (← loadLoop p t)
    else
      let (s1, ok) := loadSeq (← get) p q
      set s1
      if ok then return q :: (← loadLoop p t) else loadLoop p t

/-- R229: the batch header and list. -/
def writeBatch (s : State) (p number bucket : Nat) (batch : List Nat) : State :=
  match rollGet s p with
  | none => s
  | some r =>
    let entry := fun (q : Nat) => match r.seqAt q with
      | none => []
      | some x =>
        let slot := match x.cond with
          | .resident k => k
          | _ => 0xFFFF
        leBytes 4 q ++ leBytes 2 (if r.useState then slot else 0xFFFF) ++ leBytes 1 x.prio ++ leBytes 1 (b2n x.first) ++
          leBytes 4 x.len ++ leBytes 4 0
    hputD (hputD s p (r.area + 256) (leBytes 8 number ++ leBytes 4 batch.length ++ leBytes 1 bucket ++ List.replicate 51 0#8))
      p (r.area + 320) (batch.flatMap entry)

/-- R241: stage 4: one jig to every cell of the partition. -/
def dispatch (s : State) (p : Nat) : State :=
  match rollGet s p with
  | none => s
  | some r => match r.step with
    | none => s
    | some st =>
      let cells := (partGet s p).cells
      let s1 := rollPut s p (some { r with
        steps := r.steps + 1, step := some { st with heldAt := none, cells := cells, got := [] },
        seqs := r.seqs.map (fun e => if st.batch.contains e.1 then (e.1, { e.2 with first := false }) else e) })
      let s2 := { s1 with stepping := s1.stepping ++ [p] }
      cells.foldl (fun t c => jigPush t c ⟨fld r.record 56 4, st.number % 65536, .seqr p⟩) s2

/-- R232: the result of a STEP. -/
def stepResult (number n parked : Nat) : Nat := number % 2 ^ 32 + n % 65536 * 2 ^ 32 + parked % 65536 * 2 ^ 48

/-- R238, R239: the kept candidates of a step with their page needs: (bucket, kept). -/
def stepKept (p bucket maxBatch : Nat) : SeqM (Nat × List (Nat × Nat)) := do
  let r ← sqRoll p
  let (b, cs) := candidates r bucket
  let mut kept : List (Nat × Nat) := []
  for e in cs.take (min maxBatch 4096) do
    let need ← match r.kv with
      | some k => pageNeed p k e.1 e.2.len
      | none => pure 0
    kept := kept ++ [(e.1, need - e.2.mark)]
  return (b, kept)

/-- R238 to R240: stages 2 and 3: the batch, its bucket and the number parked. -/
def stepReserve (p number bucket maxBatch : Nat) : SeqM (Nat × List Nat × Nat) := do
  let (b, kept) ← stepKept p bucket maxBatch
  let r ← sqRoll p
  let outside := r.seqs.filter (fun e => isResident e.2 && !kept.any (fun k => k.1 == e.1))
  evict p number kept ((sortBy giveWay outside).map (·.1))
  let inside := r.seqs.filter (fun e => kept.any (fun k => k.1 == e.1))
  let (left, n) ← parkLoop p number ((sortBy giveWay inside).map (·.1)) kept 0
  if shortfall (← sqRoll p) left ≠ (0, 0) then sqFail stNoPages n
  let batch ← loadLoop p (sortBy (fun a b => decide (a ≤ b)) (left.map (·.1)))
  return (b, batch, n)

/-- R174, R191, R235: the batch's earmarks are used and its pages prepared. -/
def stepPrepare (p number : Nat) (batch : List Nat) : SeqM Unit := do
  let r ← sqRoll p
  for q in batch do sqUpd p (fun y => y.seqUpd q (fun z => { z with mark := 0 }))
  match r.kv with
  | some k => do
    prepareBatch p k (batch.filterMap (fun q => (r.seqAt q).map (fun x => (q, x.len))))
    modify (pinUpdate p k)
  | none => pure ()
  for q in batch do
    if ((← sqRoll p).seqAt q).elim false (·.parked) then
      sqUpd p (fun y => y.seqUpd q (fun z => { z with parked := false }))
      notice p q 2 stOk number

/-- Begin a stage 8 (R233). -/
def stage8Begin (s : State) (p : Nat) : State := rollUpd s p (fun r => { r with step := none, stage8 := some s.bell })

/-- R238 to R242: STEP. -/
def seqStep (s : State) (p : Nat) : State :=
  match seqNext s p with
  | none => s
  | some c =>
    if cmdOp c ≠ 0x46 then s
    else
      let bucket := opf c 16 1
      let mb := opf c 18 2
      match rollGet s p with
      | none => seqApplied (cmdFail s c (if seqOperandsOk c then dSqNotOpen else dSqField)) p
      | some r =>
        if !seqOperandsOk c || decide (15 < bucket ∧ bucket ≠ 0xFF) || decide (4096 < mb) then seqApplied (cmdFail s c dSqField) p
        else
          let number := r.steps + 1
          match (stepReserve p number bucket (if mb = 0 then 4096 else mb)).exec s with
          | (.error (st, n), s1) => stage8Begin (cmdDone (seqApplied s1 p) c st (stepResult number 0 n)) p
          | (.ok (b, batch, n), s1) =>
            match (stepPrepare p number batch).exec s1 with
            | (.error (st, _), s2) => stage8Begin (cmdDone (seqApplied s2 p) c st (stepResult number 0 n)) p
            | (.ok _, s2) =>
              let s3 := seqApplied (writeBatch s2 p number b batch) p
              if batch.isEmpty then stage8Begin (cmdDone s3 c stOk (stepResult number 0 n)) p
              else
                let s4 := cmdStart (rollUpd s3 p (fun y => { y with
                  step := some ⟨c.sq, c.seq, number, batch, n, some s3.now, [], []⟩ })) c
                if bit (opf c 17 1) 0 then s4 else dispatch s4 p

/-- R242: a timetable entry releases a held step, or misses. -/
def stepRelease (s : State) (p : Nat) : State :=
  match rollGet s p with
  | none => s
  | some r => match r.step with
    | some st => if st.heldAt.isSome then dispatch s p else writeStatus (rollPut s p (some { r with missed := r.missed + 1 })) p
    | none => writeStatus (rollPut s p (some { r with missed := r.missed + 1 })) p

/-- R242: a held step whose HOLD_LIMIT has passed completes with TIMEOUT. -/
def holdExpire (s : State) (p : Nat) : State :=
  match (rollGet s p).bind (fun r => r.step.map (fun st => (r, st))) with
  | none => s
  | some (r, st) => match st.heldAt with
    | some t =>
      if fld r.record 6 2 * 1000 ≤ s.now - t then
        stage8Begin (complete s p st.sq st.seq stTimeout (stepResult st.number 0 st.parked)) p
      else s
    | none => s

/-- R241: a cell's notice reaches the sequencer. -/
def stepNotice (s : State) (p : Nat) (n : JigNotice) : State :=
  rollUpd s p (fun r => { r with step := r.step.map (fun st => { st with got := st.got ++ [(n.cell, n.status)] }) })

/-- R241: the status of a step: that of the lowest cell that did not report OK. -/
def stepStatus (got : List (Nat × Nat)) : Nat :=
  ((got.filter (fun x => x.2 != 0)).foldl (fun (m : Option (Nat × Nat)) x => match m with
    | none => some x
    | some y => if x.1 < y.1 then some x else some y) none).elim stOk (·.2)

/-- R241, R244: the work of stage 8 on the batch of a step that completed with a status. -/
def stepSettle (p status : Nat) (batch : List Nat) : SeqM Unit := do
  let r ← sqRoll p
  for q in batch do
    match r.seqAt q with
    | none => pure ()
    | some x =>
      if status = stOk then
        let full := x.len + 1 == 1048576
        sqUpd p (fun y => y.seqUpd q (fun z => { z with
          len := z.len + 1, lastStep := y.steps, idle := z.idle || full, full := z.full || full }))
        match r.kv with
        | some k => modify (fun s => hputD s p (k.dirAt q) (leBytes 4 (x.len + 1)))
        | none => pure ()
        if full then notice p q 4 stOk r.steps
      else if r.useState then
        sqUpd p (fun y => (match x.cond with
          | .resident k => { y with deferSlots := y.deferSlots ++ [k] }
          | _ => y).seqUpd q (fun z => { z with broken := true, cond := .fresh }))
        notice p q 5 status r.steps
  if status ≠ stOk then
    match r.kv with
    | some k => modify (rewriteTails p k (batch.filterMap (fun q => (r.seqAt q).map (fun x => (q, x.len)))))
    | none => pure ()

/-- R241: every cell's notice has arrived: the STEP completes and stage 8 begins. -/
def stepComplete (s : State) (p : Nat) : State :=
  match (rollGet s p).bind (fun r => r.step.map (fun st => (r, st))) with
  | none => s
  | some (_, st) =>
    if st.heldAt.isSome || !(st.cells.all (fun c => st.got.any (fun g => g.1 == c))) then s
    else
      let status := stepStatus st.got
      let s1 := { s with stepping := s.stepping.erase p }
      let s2 := complete (rollUpd s1 p (fun r => { r with last := status })) p st.sq st.seq status
        (stepResult st.number st.batch.length st.parked)
      ((stepSettle p status st.batch).exec (stage8Begin s2 p)).2

/-- R191, R228, R234: the end of a stage 8, once nothing that waited remains before the next STEP. -/
def stage8End (s : State) (p : Nat) : State :=
  match rollGet s p with
  | none => s
  | some r => match r.stage8 with
    | none => s
    | some b =>
      let waits := match seqFirst s p with
        | some c => decide (c.bell < b) && cmdOp c != 0x46
        | none => false
      if waits || unfetchedBefore s p b || !r.nq.isEmpty then s
      else
        let pages := r.deferPages
        let s1 := rollPut s p (some { r with stage8 := none, deferPages := [], deferSlots := [] })
        let s2 := ((do for n in pages do pushPage p n : SeqM Unit).exec s1).2
        writeStatus (match r.kv with
          | some k => pinUpdate p k s2
          | none => s2) p

/-- R244, R431: a partition reset empties the sequence table and closes the rollout. -/
def rollAbort (s : State) (p : Nat) : State := { rollPut s p none with stepping := s.stepping.erase p }

end Sys2Proof.Machine
end

