-- ==== Sys2Proof/Machine/Stream.lean ====
section
/-!
DEFINITION. Machine/Stream.lean: stream engines and LAYER_FENCE (R305 to R311), cache fills (R284, R285).
Log entries that code here: 48 (DEDUCED, unsafe), 49 (DEDUCED, unsafe).
-/

namespace Sys2Proof.Machine

/-! ### Entries (R305) -/

def seKind (e : List Byte) : Nat := byteAt e 0
def seLayer (e : List Byte) : Nat := fld e 2 2
def seSeq (e : List Byte) : Nat := fld e 4 4
def seSrc (e : List Byte) : Nat := fld e 8 8
def seDst (e : List Byte) : Nat := fld e 16 4
def seLen (e : List Byte) : Nat := fld e 20 4

/-- An entry that writes the scratchpad. -/
def seCopies (e : List Byte) : Bool := seKind e == 4 || seKind e == 5

/-- R305: an entry obeys its layout; R308: its destination lies inside the scratchpad. -/
def entryOk (scratch : Nat) (e : List Byte) : Bool :=
  let k := seKind e
  (k == 4 || k == 5 || k == 8 || k == 9) && byteAt e 1 == 0 && (k == 9 || seLayer e == 0) &&
  (if k = 9 then decide (seSeq e < 2 ^ 20) else seSeq e == 0) &&
  (if k = 9 then seSrc e == 0 else seSrc e % (if k = 8 then 16384 else 32) == 0) &&
  (if seCopies e then seDst e % 32 == 0 && decide (seDst e + seLen e ≤ scratch) else seDst e == 0) &&
  (if seCopies e then decide (32 ≤ seLen e ∧ seLen e ≤ 16777216) && seLen e % 32 == 0
    else if k = 8 then seLen e % 16384 == 0 else seLen e == 0) && zeroAt e 24 8

/-- R308: an entry meets one of the `d` entries before it. -/
def entryMeets (es : List (List Byte)) (d j : Nat) : Bool :=
  let e := es.getD j []
  (List.range (min d j)).any (fun i =>
    let f := es.getD (j - 1 - i) []
    seCopies e && seCopies f && spansMeet (seDst e, seLen e) (seDst f, seLen f))

/-- R305, R308, R310: the stream table of a cell: its entries, or the index at fault (0xFFFF for the header). -/
def streamTable (s : State) (c : Nat) : Except Nat (List (List Byte)) :=
  let base := rbits s (pgSlice c + 0x44) 23 0
  let scratch := scratchBytes s c
  let h := crd s .slice c base 32
  let n := fld h 8 2
  if base % 64 ≠ 0 ∨ scratch < base + 32 then .error 0xFFFF
  else if fld h 0 4 ≠ 0x5354524D ∨ byteAt h 4 ≠ 1 ∨ !zeroAt h 5 3 ∨ !zeroAt h 10 22 ∨ n < 1 ∨ 1024 < n then .error 0xFFFF
  else if scratch < base + 32 + 32 * n then .error 0xFFFF
  else
    let es := (List.range n).map (fun j => crd s .slice c (base + 32 + 32 * j) 32)
    match (List.range n).find? (fun j => !entryOk scratch (es.getD j []) || entryMeets es (rbits s (pgSlice c + 0x48) 3 0) j) with
    | some j => .error j
    | none => .ok es

/-! ### Moving entries (R306, R307) -/

/-- R306: an entry of kind 4 or 5 moves as barges of at most 64 KiB. -/
def streamBargesOf (s : State) (c j : Nat) (e : List Byte) : State :=
  let k := seKind e
  (List.range (ceilDiv (seLen e) 65536)).foldl (fun t i =>
    let n := min 65536 (seLen e - 65536 * i)
    bargeOffer t ⟨t.bargeSeq, .stream c j, c, (ownerOf t c).getD 1025, c / 256 * 8 + c / 16 % 16 / 2, if k = 5 then .tier else .hbm,
      [.slice c], seSrc e + 65536 * i, seDst e + 65536 * i, n, false, none, none, 0, 0, [], none, t.now,
      leBytes 1 0xFF ++ leBytes 1 ((if k = 5 then 5 else 4) + 16) ++ leBytes 2 0 ++ leBytes 4 n ++ leBytes 8 (seSrc e + 65536 * i) ++
        leBytes 8 (seDst e + 65536 * i) ++ List.replicate 32 0#8⟩) s

/-- R306: lines are looked up at their homes; those not present are awaited. -/
def streamLines (s : State) (c : Nat) (ls : List Nat) : State × List Nat :=
  let p := (ownerOf s c).getD 1025
  ls.foldl (fun a l =>
    let t := lineLookup a.1 p true (16384 * l) 16384 l
    (t, if t.fills.any (fun f => f.line == l && ownerOf t f.home == some p) then a.2 ++ [l] else a.2)) (s, [])

/-- R306: the next requested entry begins to move. -/
def streamMove (s : State) (c : Nat) : State :=
  let x := strmGet s c
  if x.st ≠ 1 ∨ x.moving ∨ x.req ≤ x.landed then s
  else
    let e := x.ents.getD x.landed []
    if seCopies e then streamBargesOf (strmPut s c { x with moving := true, lines := [] }) c x.landed e
    else
      let ls := if seKind e = 8 then linesOf (seSrc e) (seLen e) else ((x.plans.find? (fun y => y.1 == x.landed)).elim [] (·.2))
      let (s1, w) := streamLines s c ls
      let y := strmGet s1 c
      strmPut s1 c { y with moving := true, lines := w, plans := y.plans.filter (fun z => z.1 != y.landed) }

/-- R307: the lines of a KIND 9 entry whose home is this cell, or its failure: a status and whether it is a resolution. -/
def resolveKv (s : State) (c : Nat) (e : List Byte) : Got (List Nat) :=
  let p := (ownerOf s c).getD 1025
  match (rollGet s p).bind (·.kv) with
  | none => gotFail s dLfKvResolve
  | some r =>
    if r.layers ≤ seLayer e ∨ r.maxSeq ≤ seSeq e then gotFail s dLfKvResolve
    else Got.bind (hgetE s p (r.dirAt (seSeq e)) 8) (fun s1 b =>
      if !bit (byteAt b 4) 0 then gotFail s1 dLfKvResolve
      else
        let lps := ceilDiv (fld b 0 4) 64
        let want := (List.range r.heads).flatMap (fun h => (List.range lps).map (fun lp => (h, lp)))
        Got.bind (gotMap (fun t x => resolvePage p r (seSeq e) (seLayer e) x.1 t x.2) s1 want) (fun s2 ns =>
          (s2, .ok ((ns.map (fun n => r.pageAt n / 16384)).filter (fun l => match lineHome s2 p l with
            | some (h, _) => h == c
            | none => false)))))

/-! ### The fence (R309 to R311) -/

def lfEntry (d : List Byte) : Nat := fld d 8 2
def lfRestart (d : List Byte) : Bool := bit (byteAt d 10) 0

/-- R104 step 6 for a LAYER_FENCE. -/
def fencePlan (d : List Byte) : Plan :=
  ⟨[chkZero (bits (byteAt d 10) 7 1 != 0), chkZero (byteAt d 11 != 0), chkZero (!zeroAt d 16 48)], [], [], [], [], [], []⟩

/-- The LAYER_FENCE at the issue stage of a cell. -/
def fenceAt (s : State) (c : Nat) : Option RunDesc :=
  match (cellGet s c).run with
  | none => none
  | some jr => jr.issued.find? (fun r => dOp r.desc == 0x15 && r.phase == .waiting)

/-- Set the stage of a fence: 0 restart, 1 drain, 2 wait from now. -/
def fenceStage (s : State) (c idx stage : Nat) : State :=
  updIssued s c idx (fun r => { r with aux := stage, since := s.now })

/-- R310: what a fence without RESTART, or after its restart, breaks. -/
def fenceEntryBad (x : Strm) (d : List Byte) : Option Nat :=
  if x.st ≠ 1 ∧ !lfRestart d then some dLfNoStream
  else if (!lfRestart d && decide (lfEntry d + 1 < x.f1)) || decide (x.ents.length ≤ lfEntry d) then some dLfEntry
  else none

/-- A fence issues: with RESTART it waits for the previous stream, else it is checked and waits for its drain point. -/
def fenceRun (s : State) (c : Nat) (d : List Byte) : RunOut :=
  if lfRestart d then ranWait s
  else match fenceEntryBad (strmGet s c) d with
    | some det => ranFail s [] rUnitCheck det []
    | none => ranWait s

/-- The lateness limit of a fence. -/
def lateLimit (s : State) (c : Nat) (d : List Byte) : Nat := if fld d 12 4 = 0 then rget s (pgSlice c + 0x50) else fld d 12 4

/-- R310: the lateness is counted. -/
def countLate (s : State) (c late : Nat) : State :=
  let s1 := bumpSat s (pgSlice c + 0x54) late
  if rget s1 (pgSlice c + 0x58) < late then rset s1 (pgSlice c + 0x58) (min late 0xFFFFFFFF) else s1

/-- R310: end a waiting fence whose entry has landed or has failed. -/
def fenceCheck (s : State) (c : Nat) : State :=
  match fenceAt s c with
  | none => s
  | some r =>
    let x := strmGet s c
    if r.aux ≠ 2 then s
    else match x.fail with
      | some (e, st, kv) =>
        if e ≤ lfEntry r.desc ∧ x.landed ≤ lfEntry r.desc then
          endWith s c r.idx st (if kv then rUnitCheck else bargeReason st) (if kv then dLfKvResolve else 0)
        else if lfEntry r.desc < x.landed then endWith (countLate s c (cyclesOf (s.now - r.since))) c r.idx stOk 0 0 else s
      | none =>
        if lfEntry r.desc < x.landed then endWith (countLate s c (cyclesOf (s.now - r.since))) c r.idx stOk 0 0 else s

/-- Record the first failure of a stream (R307, R310). -/
def streamFail (s : State) (c e status : Nat) (kv : Bool) : State :=
  let x := strmGet s c
  let s1 := strmPut s c { x with fail := x.fail.or (some (e, status, kv)), st := if kv then 2 else x.st, bad := if kv then e else x.bad }
  fenceCheck s1 c

/-- R310: the previous stream's barges have landed: the fence reads and checks the table and resets F. -/
def streamRestart (s : State) (c : Nat) : State :=
  let mine := fun (b : Barge) => match b.origin with
    | .stream x _ => x == c
    | _ => false
  match fenceAt s c with
  | none => s
  | some r =>
    if r.aux ≠ 0 || !lfRestart r.desc || s.barges.any mine || s.bargeWait.any mine then s
    else
      let base := rbits s (pgSlice c + 0x44) 23 0
      let n := fld (crd s .slice c base 32) 8 2
      match firstBad s.mems .slice (sliceA c base) (32 + 32 * n) with
      | some u => endWith (noteUe s .slice u) c r.idx stFailedMemory rEccUncorr 0
      | none => match streamTable s c with
        | .error j =>
          let s1 := strmPut s c { strmGet s c with bad := j }
          endWith s1 c r.idx stFailedOperand rUnitCheck dLfTable
        | .ok es =>
          let x : Strm := ⟨1, 0, rbits s (pgSlice c + 0x48) 3 0, es, 0, 0, [], [], false, none, (strmGet s c).bad⟩
          let s1 := strmPut s c x
          match fenceEntryBad x r.desc with
          | some det => endWith s1 c r.idx stFailedOperand rUnitCheck det
          | none => fenceStage s1 c r.idx 1

/-- R310: the drain point: every descriptor issued before the fence has completed; F becomes ENTRY. -/
def fenceDrain (s : State) (c : Nat) : State :=
  match fenceAt s c, (cellGet s c).run with
  | some r, some jr =>
    if (r.aux = 1 ∨ (r.aux = 0 ∧ !lfRestart r.desc)) ∧ jr.issued.all (fun q => decide (r.idx ≤ q.idx)) then
      let x := strmGet s c
      fenceCheck (fenceStage (strmPut s c { x with f1 := lfEntry r.desc + 1 }) c r.idx 2) c
    else s
  | _, _ => s

/-- R310: the lateness reaches its limit. -/
def fenceLate (s : State) (c : Nat) : State :=
  match fenceAt s c with
  | none => s
  | some r =>
    let lim := lateLimit s c r.desc
    if r.aux = 2 ∧ lim ≤ cyclesOf (s.now - r.since) then
      let s1 := raise (bumpSat (countLate s c lim) (pgSlice c + 0x5C) 1) (pgSlice c) 1
      endWith s1 c r.idx stFailedLateWeights 0 0
    else s

/-- R307, R308: the engine requests its next entry once it is within the prefetch distance. -/
def streamRequest (s : State) (c : Nat) : State :=
  let x := strmGet s c
  if x.st ≠ 1 ∨ x.ents.length ≤ x.req ∨ x.f1 + x.dist ≤ x.req ∨ x.fail.isSome then s
  else
    let e := x.ents.getD x.req []
    if seKind e = 9 then
      match resolveKv s c e with
      | (s1, .ok ls) =>
        let y := strmGet s1 c
        streamMove (strmPut s1 c { y with req := y.req + 1, plans := y.plans ++ [(x.req, ls)] }) c
      | (s1, .error (r, det)) =>
        if r = rUnitCheck ∨ det ≠ 0 then streamFail s1 c x.req stFailedOperand true
        else streamFail s1 c x.req (reasonStatus r) false
    else streamMove (strmPut s c { x with req := x.req + 1 }) c

/-- R306: all bytes or lines of the entry that moves are written; the next requested entry moves. -/
def streamLanded (s : State) (c : Nat) : State :=
  let x := strmGet s c
  let mine := fun (b : Barge) => match b.origin with
    | .stream y _ => y == c
    | _ => false
  if !x.moving || !x.lines.isEmpty || s.barges.any mine || s.bargeWait.any mine || x.fail.elim false (fun f => f.1 == x.landed) then s
  else
    let s1 := strmPut s c { x with landed := x.landed + 1, moving := false }
    streamMove (fenceCheck s1 c) c

/-- R310: a barge of a stream entry has ended. -/
def streamBargeNotice (s : State) (c e : Nat) (n : BargeNotice) : State :=
  if n.status = stOk then s else streamFail s c e n.status false

/-- CEL_STREAM_STATUS (R319). -/
def streamStatus (s : State) (c : Nat) : Nat :=
  let x := strmGet s c
  x.st + min x.landed 2047 * 2 ^ 4 + x.bad * 2 ^ 16

/-! ### Cache fills (R284 to R286) -/

/-- R284, R306: a fill returns; the stream entries that await its line see it installed, or look it up again. -/
def cacheFill (s : State) (h l : Nat) : State :=
  match s.fills.find? (fun f => f.home == h && f.line == l) with
  | none => s
  | some f =>
    let p := ownerOf s h
    let s1 := fillDone s h l
    s1.streams.foldl (fun t e =>
      if e.2.lines.contains l && ownerOf t e.1 == p then
        let x := strmGet t e.1
        if f.good then strmPut t e.1 { x with lines := x.lines.filter (· != l) }
        else
          let (t1, w) := streamLines t e.1 [l]
          if w.isEmpty then strmPut t1 e.1 { strmGet t1 e.1 with lines := x.lines.filter (· != l) } else t1
      else t) s1

end Sys2Proof.Machine
end

