-- ==== Sys2Proof/Machine/Fabric.lean ====
section
/-!
DEFINITION. Machine/Fabric.lean: lane groups, frames and their retry (R344 to R353, R356, R357), the egress and its weirs
(R362, R363), remote reads and writes with their one outcome (R354, R355, R358, R359), notices (R360, R361), delay probes (R365).
Log entries that code here: 47 (DEDUCED, unsafe), 63 (DEDUCED, unsafe), 64 (DESIGN CHOICE, unsafe), 65 (DESIGN CHOICE, safe), 66 (DEDUCED,
unsafe), 67 (DEDUCED, unsafe), 68 (DEDUCED, unsafe), 69 (DEDUCED, unsafe), 70 (DEDUCED, unsafe), 71 (DEDUCED, unsafe), 72 (DEDUCED, unsafe),
73 (DEDUCED, unsafe), 74 (DEDUCED, unsafe), 75 (DESIGN CHOICE, safe), 80 (DEDUCED, unsafe), 81 (DESIGN CHOICE, safe), 128 (DEDUCED, unsafe).
-/

namespace Sys2Proof.Machine

/-! ### Details (R379) -/
def dFbNoRoute : Nat := 0x0D0001
def dFbField : Nat := 0x0D0002
def dFbRemoteAbort : Nat := 0x0D0003
def dClRecord : Nat := 0x0D0004
def dClTopology : Nat := 0x0D0005
def dClGroup : Nat := 0x0D0006
def dClMismatch : Nat := 0x0D0007
def dClArea : Nat := 0x0D0008
def dClPeerFailed : Nat := 0x0D0009

/-! ### Packet types (R351) -/
def pkReadReq : Nat := 0x01
def pkWriteReq : Nat := 0x02
def pkReadRsp : Nat := 0x03
def pkWriteAck : Nat := 0x04
def pkColData : Nat := 0x05
def pkProbe : Nat := 0x07
def pkEcho : Nat := 0x08
def pkSlow : Nat := 0x10
def pkAbort : Nat := 0x11
def pkColAbort : Nat := 0x12
def pkTime : Nat := 0x13

/-- The VC of a packet (R350): 0 REQ, 1 RSP, 2 COL, 3 URG. -/
def Pkt.vc (k : Pkt) : Nat := k.ctl % 4

/-- RELAY (R350). -/
def Pkt.relay (k : Pkt) : Bool := bit k.ctl 2

/-- The bytes of a frame (R350): the header, the payload, 8 of the link layer. -/
def Pkt.frameBytes (k : Pkt) : Nat := 40 + k.pay.length

/-- The credits of a frame (R352). -/
def Pkt.need (k : Pkt) : Nat := ceilDiv k.frameBytes 256

/-! ### Groups -/

/-- A lane group. -/
def lnkGet (s : State) (g : Nat) : Link := tabGet (fun _ => linkInit) s.links g
def lnkPut (s : State) (g : Nat) (x : Link) : State := { s with links := tabPut (fun _ => linkInit) s.links g x }
def lnkUpd (s : State) (g : Nat) (f : Link → Link) : State := lnkPut s g (f (lnkGet s g))

/-- STATE of a group (R377): 0 DOWN, 1 TRAINING, 2 UP, 3 RECOVERY. -/
def lnkState (s : State) (g : Nat) : Nat := rbits s (pgLnk g + 0xC) 1 0

/-- A group carries frames. -/
def lnkUp (s : State) (g : Nat) : Bool := lnkState s g == 2 || lnkState s g == 3

/-- The running minor version (R349). -/
def lnkMinor (s : State) (g : Nat) : Nat := rbits s (pgLnk g + 0xC) 3 2

/-- The peer of a group. -/
def lnkPeer (s : State) (g : Nat) : Nat := rbits s (pgLnk g + 0x44) 14 0

/-- The module's node (R347). -/
def ownNode (s : State) : Nat := rbits s (pgCol + 0x40) 14 0

/-- R354: the lowest-numbered UP group whose peer is a node. -/
def routeTo (s : State) (node : Nat) : Option Nat := (List.range 16).find? (fun g => lnkUp s g && lnkPeer s g == node)

/-- Raise an event of a group, of the COL page. -/
def lnkEvt (s : State) (g ev : Nat) : State := raise s (pgLnk g) ev
def colEvt (s : State) (ev : Nat) : State := raise s pgCol ev

/-- Queue a packet at a group's egress; a group that carries no frames drops it. -/
def lnkQueue (s : State) (g : Nat) (e : QEnt) : State :=
  if lnkUp s g then lnkUpd s g (fun x => { x with q := x.q ++ [e] }) else s

/-- A packet of the module itself to a node. -/
def notePkt (s : State) (ty dst tag : Nat) (pay : List Byte) : Pkt :=
  ⟨ty, 3, dst, ownNode s, 0, 0, 0, tag, 0, pay.length, 0, 0, 0, pay, []⟩

/-- Queue a notice on a group. -/
def lnkNotice (s : State) (g : Nat) (k : Pkt) : State := lnkQueue s g ⟨k, 1024, 0, none⟩

/-! ### Tags and outcomes (R352, R359) -/

/-- The generation of a slot. -/
def genOf (s : State) (slot : Nat) : Nat := tabGet (fun _ => 0) s.gens slot

/-- Free a slot: its generation advances (R359). -/
def tagFree (s : State) (slot : Nat) : State :=
  { s with tags := s.tags.filter (fun t => t.slot != slot), gens := tabPut (fun _ => 0) s.gens slot ((genOf s slot + 1) % 256) }

/-- The FAB command of a tag of a host queue. -/
def fabAt (s : State) (p q seq : Nat) : Option FabRun := s.fabs.find? (fun f => f.part == p && f.sq == q && f.seq == seq)

/-- Replace a FAB command in flight. -/
def fabPut (s : State) (f : FabRun) : State :=
  { s with fabs := s.fabs.map (fun x => if x.part == f.part && x.sq == f.sq && x.seq == f.seq then f else x) }

/-- R355: pieces of 4,096 B at 4,096-aligned remote addresses. -/
def FabRun.count (f : FabRun) : Nat := (f.rem + f.len - 1) / 4096 + 1 - f.rem / 4096

/-- Piece `i`: its offset and bytes. -/
def FabRun.piece (f : FabRun) (i : Nat) : Nat × Nat :=
  let lo := max f.rem ((f.rem / 4096 + i) * 4096)
  (lo - f.rem, min (f.rem + f.len) ((f.rem / 4096 + i + 1) * 4096) - lo)

/-- A piece takes its outcome; the command completes with the last (R355). -/
def pieceDone (s : State) (f : FabRun) (idx status detail : Nat) : State :=
  let bad := if status = stOk then f.bad
    else match f.bad with
      | none => some (idx, status, detail)
      | some (i, st, d) => if idx < i then some (idx, status, detail) else some (i, st, d)
  let g := { f with done := f.done + 1, bad := bad }
  if g.count ≤ g.done then
    let s1 := { s with fabs := s.fabs.filter (fun x => !(x.part == f.part && x.sq == f.sq && x.seq == f.seq)) }
    match bad with
    | none => complete s1 f.part f.sq f.seq stOk f.len
    | some (_, st, d) => complete s1 f.part f.sq f.seq st d
  else fabPut s g

/-- R355: the local bytes of a read piece that did not complete OK hold bytes no rule states. -/
def pieceScramble (s : State) (p a n : Nat) : State :=
  let (bs, s1) := freeBytes n s
  hputD s1 p a bs

/-- R359: a transaction takes its outcome. -/
def tagOutcome (s : State) (t : Tag) (status detail : Nat) : State :=
  let s1 := if status ≠ stOk ∧ t.write = false then pieceScramble s t.part t.addr t.len else s
  let s2 := tagFree s1 t.slot
  match fabAt s2 t.part t.sq t.seq with
  | some f => pieceDone s2 f t.idx status detail
  | none => s2

/-- Record an outcome for every transaction of the given ones, and for the pieces of the given commands not yet sent. -/
def fabCut (s : State) (tagIn : Tag → Bool) (runIn : FabRun → Bool) (status detail : Nat) : State :=
  let s1 := (s.tags.filter tagIn).foldl (fun t x => tagOutcome t x status detail) s
  (s1.fabs.filter runIn).foldl (fun t f =>
    (List.range (f.count - f.next)).foldl (fun u i => match fabAt u f.part f.sq f.seq with
      | some g =>
        let (o, n) := g.piece (f.next + i)
        let v := if g.write then u else pieceScramble u g.part (g.loc + o) n
        match fabAt v f.part f.sq f.seq with
        | some h => pieceDone v { h with next := h.count } (f.next + i) status detail
        | none => v
      | none => u) t) s1

/-! ### Sending pieces (R352 to R355) -/

/-- The next free slot, from a place no rule states. -/
def pickSlot (s : State) : Option (Nat × State) :=
  let (k, s1) := freeBelow 65536 s
  let live := s.tags.map (·.slot)
  ((List.range 65536).find? (fun i => !live.contains ((k + i) % 65536))).map (fun i => ((k + i) % 65536, s1))

/-- A request may take a slot: the table, the partition's quota, the 1,024 per VC and node, the RSP buffer (R352, R353, R416). -/
def slotRoom (s : State) (f : FabRun) (n : Nat) : Bool :=
  decide (s.tags.length < 65536) &&
  decide ((s.tags.filter (fun t => t.part == f.part)).length < (partGet s f.part).quota * 16) &&
  decide ((s.tags.filter (fun t => t.node == f.node && t.urgent == f.urgent)).length < 1024) &&
  (f.write || decide (((s.tags.filter (fun t => t.group == f.group && !t.write)).map (·.len)).sum + n ≤ 0x800000))

/-- Send the next piece of a command, if it may go. -/
def pieceSend (s : State) (f : FabRun) : Option State :=
  let (o, n) := f.piece f.next
  if f.count ≤ f.next || !slotRoom s f n then none
  else
    let data := if f.write then hget s f.part (f.loc + o) n true else (s, 0, [])
    let f1 := { f with next := f.next + 1 }
    if data.2.1 ≠ 0 then some (pieceDone (fabPut data.1 f1) f1 f.next (reasonStatus data.2.1) 0)
    else match pickSlot data.1 with
      | none => none
      | some (slot, s1) =>
        let g := genOf s1 slot
        let t : Tag := ⟨slot, g, f.part, f.sq, f.seq, f.next, f.group, f.node, f.dpart, f.write, f.urgent, f.loc + o, n, none, 0, false⟩
        let k : Pkt := ⟨if f.write then pkWriteReq else pkReadReq, if f.urgent then 3 else 0, f.node, ownNode s1, f.dpart, f.part, f.key,
          slot + g * 2 ^ 16, f.rem + o, n, 0, 0, 0, data.2.2, []⟩
        some (lnkQueue { fabPut s1 f1 with tags := s1.tags ++ [t] } f.group ⟨k, f.part, if f.urgent then 1 else 2, some slot⟩)

/-- Send pieces of one command while they may go. -/
def runSend (p q seq : Nat) : Nat → State → State
  | 0, s => s
  | fuel + 1, s => match fabAt s p q seq with
    | none => s
    | some f => match pieceSend s f with
      | none => s
      | some t => runSend p q seq fuel t

/-- Send pieces of every command in flight. -/
def fabPump (s : State) : State := s.fabs.foldl (fun t f => runSend f.part f.sq f.seq 4098 t) s

/-- R354: FAB_READ and FAB_WRITE. -/
def hostFab (s : State) (p q : Nat) (write : Bool) : State :=
  match cmdNext s p q (if write then 0x51 else 0x50) with
  | none => s
  | some c =>
    let node := opf c 16 2
    let len := opf c 24 4
    let urgent := bit (opf c 22 1) 0
    match routeTo s node with
    | none => cmdFail s c dFbNoRoute
    | some g =>
      if !operandsOk c [(16, 7), (24, 4), (32, 16)] || bits (opf c 22 1) 7 1 != 0 || len == 0 || decide (16777216 < len) ||
          decide (1024 < opf c 18 2) || (partGet s p).quota == 0 ||
          (urgent && (decide (lnkMinor s g < 2) || wUrgent (rget s (lnkAddr g p + 4)) == 0)) then cmdFail s c dFbField
      else if (hphys s p (opf c 32 8) len).isNone then cmdDone s c stDenied 0
      else fabPump { cmdStart s c with fabs := s.fabs ++ [⟨p, q, c.seq, write, urgent, g, node, opf c 18 2, opf c 20 2, len,
        opf c 32 8, opf c 40 8, 0, 0, none⟩] }

/-! ### Egress (R352, R362, R363) -/

/-- A packet may be sent: its VC holds the credits it needs and fewer than 64 frames are unacknowledged (R352, R356). -/
def sendable (x : Link) (e : QEnt) : Bool :=
  decide (x.unacked.length < 64) && decide (e.pkt.need ≤ x.credits.getD e.pkt.vc 0)

/-- The charge of a packet: its header and payload, in the units of a credit. -/
def pktCharge (e : QEnt) : Int := ((32 + e.pkt.pay.length) * 2 ^ 24 : Nat)

/-- Urgent requests of a partition in flight on a group. -/
def urgentOut (s : State) (g p : Nat) : Nat := (s.tags.filter (fun t => t.group == g && t.part == p && t.urgent && t.sent.isSome)).length

/-- The credit of a partition at a group covers a packet. -/
def paidFor (s : State) (g : Nat) (e : QEnt) : Bool :=
  decide (e.part < 1024) && decide (pktCharge e ≤ creditGet s (lnkAddr g e.part))

/-- R363: RSP before COL, COL before REQ. -/
def vcRank (e : QEnt) : Nat := if e.pkt.vc = 1 then 0 else if e.pkt.vc = 2 then 1 else 2

/-- The first packet of a partition in the order of R363, among those given. -/
def firstOf (l : List QEnt) (p : Nat) : Option QEnt :=
  (l.filter (fun e => e.part == p)).foldl (fun m e => match m with
    | none => some e
    | some y => if vcRank e < vcRank y then some e else some y) none

/-- Choose round-robin by partition among packets. -/
def rrPick (l : List QEnt) (last : Nat) : Option QEnt :=
  match l.foldl (fun (m : Option Nat) e => if last < e.part then some (match m with
      | none => e.part
      | some y => min y e.part) else m) none with
  | some p => firstOf l p
  | none => match l.foldl (fun (m : Option Nat) e => some (match m with
      | none => e.part
      | some y => min y e.part)) none with
    | some p => firstOf l p
    | none => none

/-- The oldest packet of each partition and VC: within a VC a partition's packets keep their order. -/
def oldestOf (l : List QEnt) : List QEnt :=
  l.foldl (fun acc e => if acc.any (fun y => y.part == e.part && y.pkt.vc == e.pkt.vc) then acc else acc ++ [e]) []

/-- R363, steps 3 to 6: the next packet and whether its weir is charged for it (urgent or guaranteed). -/
def egressPick (s : State) (g : Nat) : Option (QEnt × Nat) :=
  let x := lnkGet s g
  match x.q.find? (fun e => e.cls == 0 && sendable x e) with
  | some e => some (e, 3)
  | none => match x.q.find? (fun e => e.cls == 1 && sendable x e && decide (urgentOut s g e.part < wUrgent (rget s (lnkAddr g e.part + 4)))) with
    | some e => some (e, 4)
    | none =>
      let l := (oldestOf (x.q.filter (fun e => e.cls == 2))).filter (sendable x)
      match rrPick (l.filter (paidFor s g)) x.lastG with
      | some e => some (e, 5)
      | none => (rrPick (l.filter (fun e => !paidFor s g e)) x.lastB).map (fun e => (e, 6))

/-- Remove the first occurrence of a packet from a queue. -/
def qRemove (e : QEnt) : List QEnt → List QEnt
  | [] => []
  | y :: t => if y = e then t else y :: qRemove e t

/-- R351, R396: the times a packet takes as its first bit leaves. -/
def stampOut (s : State) (k : Pkt) : Pkt :=
  if k.ty = pkProbe then { k with pay := leBytes 8 (sceneNow s) }
  else if k.ty = pkEcho then { k with pay := k.pay.take 16 ++ leBytes 8 (sceneNow s) ++ k.pay.drop 24 }
  else if k.ty = pkTime then { k with pay := leBytes 8 (sceneNow s) ++ k.pay.drop 8 }
  else k

/-- R362: the charge of a packet sent in step 4 or 5. -/
def linkCharge (s : State) (g : Nat) (e : QEnt) (step : Nat) : State :=
  let w := lnkAddr g e.part
  let c := creditGet s w
  if 1024 ≤ e.part then s
  else if step = 4 then
    let floor : Int := -((wUrgent (rget s (w + 4)) * 256 * 2 ^ 24 : Nat) : Int)
    creditPut s w (max (c - pktCharge e) (min c floor))
  else if step = 5 then creditPut s w (c - pktCharge e)
  else s

/-- The runs of a partition whose collective data has all left: their piece timers begin anew (R376). -/
def colSent (s : State) (e : QEnt) : State :=
  if e.pkt.ty = pkColData ∧ e.pkt.src = ownNode s ∧
      !(s.links.any (fun l => l.2.q.any (fun y => y.pkt.ty == pkColData && y.pkt.src == ownNode s && y.pkt.spart == e.pkt.spart &&
        y.pkt.group == e.pkt.group && y.pkt.tag == e.pkt.tag))) then
    { s with cruns := s.cruns.map (fun r => if r.part = e.pkt.spart ∧ r.grp = e.pkt.group ∧ r.started = true then
        { r with since := s.now } else r) }
  else s

/-- R358: a request of a tag slot leaves now. -/
def tagSent (s : State) (slot : Option Nat) : State :=
  match slot with
  | some k => { s with tags := s.tags.map (fun t => if t.slot = k then { t with sent := some s.now } else t) }
  | none => s

/-- R356, R362: a packet leaves as a new frame, kept until it is acknowledged. -/
def frameOut (s : State) (g : Nat) (e : QEnt) (step : Nat) : State :=
  let x := lnkGet s g
  colSent (tagSent (lnkPut (linkCharge s g e step) g { x with
    q := qRemove e x.q, unacked := x.unacked ++ [⟨x.nextSeq, s.now, { e with pkt := stampOut s e.pkt }⟩], nextSeq := (x.nextSeq + 1) % 256
    credits := x.credits.set e.pkt.vc (x.credits.getD e.pkt.vc 0 - e.pkt.need)
    lastG := if step = 5 then e.part else x.lastG, lastB := if step = 6 then e.part else x.lastB
    probeAt := if e.pkt.ty = pkProbe then s.now else x.probeAt }) e.slot) e

/-- R363: one frame slot of a group's egress. -/
def egress (s : State) (g : Nat) : State :=
  let x := lnkGet s g
  if !lnkUp s g then s
  else match x.ctrl with
    | _ :: t => lnkPut s g { x with ctrl := t }
    | [] => match x.replay with
      | f :: t => lnkPut s g { x with
          replay := t, unacked := x.unacked.map (fun u => if u.lseq = f.lseq then { u with sentAt := s.now } else u) }
      | [] => match egressPick s g with
        | none => s
        | some (e, step) => frameOut s g e step

/-- R352: cycles with a packet waiting for credits, or a request waiting for a tag slot, are counted in its group. -/
def lnkStallTick (s : State) (n : Nat) : State :=
  (List.range 16).foldl (fun t g =>
    let x := lnkGet t g
    if lnkUp t g && (x.q.any (fun e => decide (x.credits.getD e.pkt.vc 0 < e.pkt.need)) ||
        t.fabs.any (fun f => f.group == g && decide (f.next < f.count) && !slotRoom t f (f.piece f.next).2)) then
      bumpSat t (pgLnk g + 0x58) (cyclesOf n)
    else t) s

/-! ### A group goes down (R348, R357) -/

/-- The flight link to a flight position (R344, R345). -/
def flightGroup (k : Nat) : Nat := k / 2 * 4 + k % 2
def flightLink (s : State) (node : Nat) : Nat := flightGroup ((node % 8 + 8 - ownNode s % 8 + 7) % 8)

/-- A lane group is a fabric port (R344). -/
def isPort (g : Nat) : Bool := [2, 3, 6, 7, 10, 11, 13, 14, 15].contains g

/-- A collective group's links. -/
def CGroup.uses (c : CGroup) (s : State) (g : Nat) : Bool :=
  if c.ring then c.prev == g || c.nxt == g
  else c.members.any (fun m => m.1 != ownNode s && flightLink s m.1 == g)

def grpAt (s : State) (p id : Nat) : Option CGroup := s.cgroups.find? (fun c => c.part == p && c.id == id)

/-- The rank of a node in a group; the number of its members. -/
def CGroup.rank (c : CGroup) (node : Nat) : Nat := (c.members.map (·.1)).idxOf node
def CGroup.n (c : CGroup) : Nat := c.members.length

/-- R372: the link and the RELAY bit towards the member of rank `j`: the fewer hops, PREV_LINK on a tie. -/
def CGroup.route (c : CGroup) (s : State) (j : Nat) : Nat × Bool :=
  let node := (c.members.getD j (0x7FFF, 0)).1
  if c.ring then
    let r := c.rank (ownNode s)
    let fwd := (j + c.n - r) % c.n
    let back := (r + c.n - j) % c.n
    if back ≤ fwd then (c.prev, decide (1 < back)) else (c.nxt, decide (1 < fwd))
  else (flightLink s node, false)

/-- A packet of a collective run to the member of rank `j`. -/
def colPkt (s : State) (c : CGroup) (ty seq j addr level : Nat) (pay : List Byte) (par : List Nat) : Pkt :=
  let m := c.members.getD j (0x7FFF, 0)
  ⟨ty, (if ty = pkColData then 2 else 3) + 4 * b2n (c.route s j).2, m.1, ownNode s, m.2, c.part, 0, seq, addr, pay.length, 0, level, c.id,
    pay, par⟩

/-- R376: COL_ABORT to every other member, relayed where needed. -/
def colAbortSend (s : State) (c : CGroup) (seq status : Nat) : State :=
  let r := c.rank (ownNode s)
  colEvt (((List.range c.n).filter (· != r)).foldl (fun t j =>
    lnkNotice t (c.route t j).1 (colPkt t c pkColAbort seq j 0 0 (leBytes 8 status) [])) s) 2

/-- The COL_RUN command of an accepted run. -/
def CRun.seqNo (r : CRun) : Nat := fld r.entry 24 4
def CRun.op (r : CRun) : Nat := byteAt r.entry 18
def CRun.flag (r : CRun) (i : Nat) : Bool := bit (byteAt r.entry 19) i
def CRun.inFmt (r : CRun) : Nat := byteAt r.entry 20
def CRun.outFmt (r : CRun) : Nat := byteAt r.entry 21
def CRun.area (r : CRun) : Nat := fld r.entry 22 2
def CRun.count (r : CRun) : Nat := fld r.entry 28 4
def CRun.src (r : CRun) : Nat := fld r.entry 32 8
def CRun.dst (r : CRun) : Nat := fld r.entry 40 8
/-- Bytes of an element of a format of R368 (0x20 one byte). -/
def colBytes (f : Nat) : Nat := codeBytes f

/-- The destination of a run and its bytes at the member of rank `m` (R370, R374, R375). -/
def CRun.dstAt (r : CRun) (c : CGroup) : Nat := if r.flag 2 then c.areaBase + r.area * c.areaBytes else r.dst
def sliceLo (count n j : Nat) : Nat := j * count / n
def CRun.dstBytes (r : CRun) (c : CGroup) (m : Nat) : Nat :=
  let b := r.count * colBytes r.outFmt
  if r.op = 0 then c.n * b
  else if r.op = 1 then (sliceLo r.count c.n (m + 1) - sliceLo r.count c.n m) * colBytes r.outFmt
  else if r.op = 2 then b else 2 * b

/-- Remove an accepted run. -/
def crunDrop (s : State) (r : CRun) : State :=
  { s with cruns := s.cruns.filter (fun x => !(x.part == r.part && x.sq == r.sq && x.seq == r.seq)) }

/-- Replace an accepted run. -/
def crunPut (s : State) (r : CRun) : State :=
  { s with cruns := s.cruns.map (fun x => if x.part == r.part && x.sq == r.sq && x.seq == r.seq then r else x) }

/-- Change a group. -/
def grpUpd (s : State) (p id : Nat) (f : CGroup → CGroup) : State :=
  { s with cgroups := s.cgroups.map (fun c => if c.part == p && c.id == id then f c else c) }

/-- R375: the reclaims of a group that no accepted run precedes take effect. -/
def colReclaims (p g : Nat) : Nat → State → State
  | 0, s => s
  | fuel + 1, s => match s.cruns.find? (fun r => r.part == p && r.grp == g) with
    | some r =>
      if r.reclaim then
        let s1 := grpUpd (crunDrop s r) p g (fun c => { c with full := c.full.filter (· != fld r.entry 18 2) })
        colReclaims p g fuel (complete s1 p r.sq r.seq stOk 0)
      else s
    | none => s

/-- A run ends with a status (R376, R378): counted, its command completed, the group's RUN_SEQ advanced. -/
def runEnd (s : State) (r : CRun) (status detail : Nat) : State :=
  let s1 := bumpSat (crunDrop s r) (pgCol + 0x48) 1
  let s2 := if status = stOk then s1 else colEvt (bumpSat s1 (pgCol + 0x4C) 1) 1
  let s3 := grpUpd s2 r.part r.grp (fun c => { c with lastSeq := some (match c.lastSeq with
    | some v => max v r.seqNo
    | none => r.seqNo) })
  colReclaims r.part r.grp 4096 (complete s3 r.part r.sq r.seq status (if status = stOk then 0 else detail))

/-- R376: after a failed run its DST bytes and the area named hold what no rule states. -/
def runScramble (s : State) (r : CRun) (c : CGroup) : State :=
  let (bs, s1) := freeBytes (r.dstBytes c (c.rank (ownNode s))) s
  let s2 := hputD s1 r.part (r.dstAt c) bs
  if r.flag 2 then
    let (b, s3) := freeBelow 2 s2
    grpUpd s3 r.part r.grp (fun x => { x with full := if b = 0 then x.full.filter (· != r.area) else r.area :: x.full.filter (· != r.area) })
  else s2

/-- R376: a member fails a run; `tell` sends COL_ABORT to the others. -/
def runFail (s : State) (r : CRun) (status detail : Nat) (tell : Bool) : State :=
  match grpAt s r.part r.grp with
  | none => runEnd s r status detail
  | some c =>
    let s1 := if r.started then runScramble s r c else s
    runEnd (if tell then colAbortSend s1 c r.seqNo status else s1) r status detail

/-- Fail every run of the given ones. -/
def runsFail (s : State) (which : CRun → Bool) (status detail : Nat) (tell : Bool) : State :=
  (s.cruns.filter (fun r => !r.reclaim && which r)).foldl (fun t r => runFail t r status detail tell) s

/-- R348, R357: a group goes down with a cause. -/
def lnkDown (s : State) (g cause : Nat) : State :=
  if lnkState s g = 0 then rsetBits s (pgLnk g + 0xC) 7 4 cause
  else
    let x := lnkGet s g
    let s1 := rsetBits (rsetBits s (pgLnk g + 0xC) 7 4 cause) (pgLnk g + 0xC) 3 0 0
    let s2 := lnkPut s1 g { linkInit with rx := x.rx, downAt := s.now, blocked := x.blocked, probe := x.probe }
    let s3 := lnkEvt (bumpSat s2 (pgLnk g + 0x4C) 1) g 2
    let s4 := fabCut s3 (fun t => t.group == g) (fun f => f.group == g) stFailedLink 0
    runsFail s4 (fun r => (grpAt s4 r.part r.grp).elim false (fun c => c.uses s4 g)) stFailedLink 0 true

/-! ### Retry (R356, R357) -/

/-- R357: a replay from an LSEQ: an episode begins or goes on; a 17th replay takes the group down. -/
def lnkReplay (s : State) (g : Nat) (frames : List Frame) : State :=
  let x := lnkGet s g
  let all := x.unacked.map (·.lseq)
  let e := match x.epi with
    | some e => { e with replays := e.replays + 1 }
    | none => ⟨s.now, all, 1⟩
  if 16 < e.replays then lnkDown s g 7
  else
    let s1 := lnkPut s g { x with
      epi := some e, replay := frames
      unacked := x.unacked.map (fun u => if frames.any (fun f => f.lseq == u.lseq) then { u with sentAt := s.now } else u) }
    lnkEvt (bumpSat (rsetBits s1 (pgLnk g + 0xC) 1 0 3) (pgLnk g + 0x48) 1) g 4

/-- R359: at the end of an episode that the group survives, held deadlines are recorded. -/
def heldExpire (s : State) (g : Nat) : State :=
  (s.tags.filter (fun t => t.group == g && t.held)).foldl (fun t x => tagOutcome t x stTimeout 0) s

/-- R356, R357: frames up to and including an LSEQ are acknowledged; the episode ends with the last frame it awaits. -/
def lnkAck (s : State) (g ack : Nat) : State :=
  let x := lnkGet s g
  let gone := fun (l : Nat) => decide ((ack + 256 - l) % 256 < 128)
  let e := x.epi.map (fun e => { e with need := e.need.filter (fun l => !gone l) })
  let ended := match e with
    | some e => e.need.isEmpty
    | none => false
  let s1 := lnkPut s g { x with
    unacked := x.unacked.filter (fun f => !gone f.lseq), replay := x.replay.filter (fun f => !gone f.lseq)
    epi := if ended then none else e }
  if ended then heldExpire (rsetBits s1 (pgLnk g + 0xC) 1 0 2) g else s1

/-- R356: a NAK names the LSEQ the peer expects: the frames before it are acknowledged, the rest are sent again. -/
def lnkNak (s : State) (g lseq : Nat) : State :=
  if !lnkUp s g then s
  else
    let s1 := lnkAck s g ((lseq + 255) % 256)
    let x := lnkGet s1 g
    if x.unacked.isEmpty then s1 else lnkReplay s1 g x.unacked

/-- R356: the oldest unacknowledged frame has waited 2 µs. -/
def lnkReplayTimeout (s : State) (g : Nat) : State :=
  match (lnkGet s g).unacked with
  | f :: _ => if lnkUp s g && decide (2000 ≤ s.now - f.sentAt) then lnkReplay s g (lnkGet s g).unacked else s
  | [] => s

/-- R357: an episode has lasted 20 µs. -/
def lnkBudget (s : State) (g : Nat) : State :=
  match (lnkGet s g).epi with
  | some e => if 20000 ≤ s.now - e.start then lnkDown s g 8 else s
  | none => s

/-- R350: the packet types a receiver knows (R351; TRAIN is taken while training). -/
def knownType (t : Nat) : Bool := [1, 2, 3, 4, 5, 6, 7, 8, 0x10, 0x11, 0x12, 0x13].contains t

/-- R352, R356: a frame arrives: `good` is its CRC, `ret` the credits a control frame returns. -/
def lnkReceive (s : State) (g lseq ack : Nat) (good : Bool) (k : Option Pkt) (ret : List Nat) : State :=
  if !lnkUp s g then s
  else
    let nak := fun (t : State) =>
      let x := lnkGet t g
      if x.nakked then t else lnkPut t g { x with nakked := true, ctrl := x.ctrl ++ [(1, x.expect)] }
    if !good then nak s
    else
      let s1 := lnkAck s g ack
      let x := lnkGet s1 g
      match k with
      | none => lnkPut s1 g { x with credits := x.credits.zipWith (· + ·) (ret ++ List.replicate (x.credits.length - ret.length) 0) }
      | some p =>
        if lseq = x.expect then
          lnkPut s1 g { x with
            expect := (x.expect + 1) % 256, nakked := false, ctrl := x.ctrl ++ [(0, x.expect)] ++
              (if knownType p.ty then [] else [(2 + p.vc, p.need)])
            rx := if knownType p.ty then x.rx ++ [(p, sceneNow s, s.now)] else x.rx }
        else if (x.expect + 256 - lseq) % 256 < 128 then lnkPut s1 g { x with ctrl := x.ctrl ++ [(0, (x.expect + 255) % 256)] }
        else nak s1

/-- The oldest received packet of the given ones leaves its buffer; its credits go back (R352). -/
def rxTake (s : State) (g : Nat) (f : Pkt → Bool) : Option ((Pkt × Nat × Nat) × State) :=
  let x := lnkGet s g
  (x.rx.find? (fun y => f y.1)).map (fun y =>
    (y, lnkPut s g { x with rx := x.rx.erase y, ctrl := if lnkUp s g then x.ctrl ++ [(2 + y.1.vc, y.1.need)] else x.ctrl }))

/-! ### Training (R348, R349) -/

/-- LNK_CTRL.ENABLE. -/
def lnkEnabled (s : State) (g : Nat) : Bool := bit (rget s (pgLnk g + 8)) 0

/-- Training begins. -/
def trainStart (s : State) (g : Nat) : State :=
  if lnkState s g = 0 && lnkEnabled s g && (devState s == dvConfigured || devState s == dvRunning) && s.stop.isNone &&
      !optHot s g && ownNode s != 0x7FFF && !regionDark s (g / 4) then
    rsetBits s (pgLnk g + 0xC) 1 0 1
  else s

/-- R348: 100 ms after it went down a group with ENABLE set begins training again. -/
def retrainTimer (s : State) (g : Nat) : State :=
  if 100000000 ≤ s.now - (lnkGet s g).downAt then trainStart s g else s

/-- A write of LNK_CTRL: ENABLE, and training at once on RETRAIN. -/
def lnkCtrl (s : State) (g v : Nat) : State :=
  let s1 := rset s (pgLnk g + 8) (v % 2)
  let s2 := if v % 2 = 0 then lnkDown s1 g 1 else s1
  if bit v 1 then trainStart s2 g else s2

/-- R365: a DELAY_PROBE goes out. -/
def probeSend (s : State) (g : Nat) : State :=
  let x := lnkGet s g
  let n := (x.probe + 1) % 65536
  lnkNotice (lnkPut s g { x with probe := n, probeAt := s.now }) g (notePkt s pkProbe (lnkPeer s g) n (leBytes 8 0))

/-- R348, R349: the outcome of training: signal and FEC, then the TRAIN packet's node, group, major and minor versions. -/
def train (s : State) (g : Nat) (signal fec : Bool) (node grp major lo hi : Nat) : State :=
  if lnkState s g ≠ 1 then s
  else if !signal then lnkDown s g 3
  else if !fec then lnkDown s g 4
  else
    let s1 := rset s (pgLnk g + 0x44) (node % 2 ^ 15 + grp % 256 * 2 ^ 16)
    let en := rbits s (pgLnk g + 0x40) 14 0
    let eg := rbits s (pgLnk g + 0x40) 23 16
    if (en ≠ 0x7FFF ∧ en ≠ node) ∨ (eg ≠ 0xFF ∧ eg ≠ grp) then lnkEvt (lnkDown s1 g 5) g 8
    else if major ≠ 2 ∨ 3 < lo ∨ hi < lo then lnkEvt (lnkDown s1 g 6) g 0x10
    else
      let s2 := rset s1 (pgLnk g + 0xC) (2 + min hi 3 * 4)
      probeSend (lnkEvt (lnkPut s2 g { linkInit with probe := (lnkGet s2 g).probe, downAt := (lnkGet s2 g).downAt }) g 1) g

/-! ### Targets (R353, R355) -/

/-- A response to a request (R350). -/
def rspPkt (s : State) (k : Pkt) (ty status : Nat) (pay : List Byte) : Pkt :=
  ⟨ty, 1, k.src, ownNode s, k.spart, k.dpart, 0, k.tag, 0, pay.length, status, 0, 0, pay, []⟩

/-- R355: the target denies a request: key, range, or a partition that is not ACTIVE. -/
def targetDenies (s : State) (k : Pkt) : Bool :=
  !decide (k.dpart < 1024) || !partActive s k.dpart || (partGet s k.dpart).key != k.key || (hphys s k.dpart k.addr k.len).isNone

/-- R355: a target receives a request, unless a module-scope ABORT of the sender bars it (R361). -/
def targetReq (s : State) (g : Nat) (write : Bool) : State :=
  match rxTake s g (fun k => k.ty == (if write then pkWriteReq else pkReadReq)) with
  | none => s
  | some ((k, _, _), s1) =>
    if (lnkGet s1 g).blocked then s1
    else
      let rsp := fun (t : State) (st : Nat) (pay : List Byte) =>
        lnkQueue t g ⟨rspPkt t k (if write then pkWriteAck else pkReadRsp) st pay, k.dpart, 2, none⟩
      if targetDenies s1 k then rsp s1 stDenied []
      else if write then rsp (hputD s1 k.dpart k.addr k.pay) stOk []
      else match hget s1 k.dpart k.addr k.len true with
        | (s2, 0, bs) => rsp s2 stOk bs
        | (s2, r, _) => rsp s2 (reasonStatus r) []

/-! ### Responses and deadlines (R358, R359) -/

/-- R359: a response arrives: a late one is discarded and counted, else its status is the outcome. -/
def response (s : State) (g : Nat) (write : Bool) : State :=
  match rxTake s g (fun k => k.ty == (if write then pkWriteAck else pkReadRsp)) with
  | none => s
  | some ((k, _, _), s1) =>
    match s1.tags.find? (fun t => t.slot == k.tag % 65536 && t.gen == bits k.tag 23 16) with
    | none => lnkEvt (bumpSat s1 (pgLnk g + 0x54) 1) g 0x20
    | some t =>
      let s2 := if k.status = stOk ∧ write = false then hputD s1 t.part t.addr (k.pay.take t.len) else s1
      fabPump (tagOutcome s2 t k.status 0)

/-- The ns of COL_TIMEOUT (R358). -/
def colTimeout (s : State) : Nat := rbits s (pgCol + 0x44) 23 0 * 1000

/-- R358, R359: a deadline passes; in a recovery episode it is held. -/
def fabDeadline (s : State) (slot : Nat) : State :=
  match s.tags.find? (fun t => t.slot == slot) with
  | none => s
  | some t => match t.sent with
    | none => s
    | some at' =>
      if s.now < at' + colTimeout s + t.ext then s
      else if lnkState s t.group = 3 then { s with tags := s.tags.map (fun x => if x.slot = slot then { x with held := true } else x) }
      else fabPump (tagOutcome s t stTimeout 0)

/-! ### SLOW (R360) -/

/-- The nodes with which the module has a transaction or a run in flight. -/
def busyNodes (s : State) : List Nat :=
  s.tags.map (·.node) ++ (s.cruns.filter (fun r => r.started)).flatMap (fun r => (grpAt s r.part r.grp).elim [] (fun c => c.members.map (·.1)))

/-- R360: SLOW notices for a HOT stack at a temperature. -/
def slowSend (s : State) (st temp : Nat) : State :=
  let nodes := busyNodes s
  (List.range 16).foldl (fun t g =>
    if !lnkUp t g || !nodes.contains (lnkPeer t g) then t
    else if lnkMinor t g < 1 then lnkEvt (bumpSat t (pgCol + 0x60) 1) g 0x100
    else colEvt (bumpSat (lnkNotice t g (notePkt t pkSlow (lnkPeer t g) 0 (leBytes 1 st ++ leBytes 1 temp ++ leBytes 6 0))) (pgCol + 0x50) 1) 8) s

/-- R360: what an extension adds: 2 ms, at most 64 ms in all. -/
def slowExt (ext : Nat) : Nat := min (ext + 2000000) 64000000

/-- R360: a SLOW notice extends the items in flight with its sender. -/
def slowReceive (s : State) (g : Nat) : State :=
  match rxTake s g (fun k => k.ty == pkSlow) with
  | none => s
  | some ((k, _, _), s1) =>
    let hitT := fun (t : Tag) => t.node == k.src && decide (t.ext < 64000000)
    let hitR := fun (r : CRun) => !r.reclaim && decide (r.ext < 64000000) &&
      (grpAt s1 r.part r.grp).elim false (fun c => c.members.any (fun m => m.1 == k.src))
    let n := (s1.tags.filter hitT).length + (s1.cruns.filter hitR).length
    let s2 := { s1 with
      tags := s1.tags.map (fun t => if hitT t then { t with ext := slowExt t.ext } else t)
      cruns := s1.cruns.map (fun r => if hitR r then { r with ext := slowExt r.ext } else r) }
    lnkEvt (bumpSat (bumpSat s2 (pgCol + 0x58) n) (pgLnk g + 0x5C) 1) g 0x40

/-! ### ABORT (R361) -/

/-- R361: an ABORT notice of the module on every UP link. -/
def abortModule (s : State) (cause : Nat) : State :=
  let up := (List.range 16).filter (lnkUp s)
  let s1 := up.foldl (fun t g => lnkNotice t g (notePkt t pkAbort (lnkPeer t g) 0 (leBytes 8 cause))) s
  if up.isEmpty then s1 else colEvt s1 2

/-- R361: an ABORT notice of a partition to every node with which it has a transaction or a collective group. -/
def abortPart (s : State) (p : Nat) : State :=
  let nodes := distinct ((s.tags.filter (fun t => t.part == p)).map (·.node) ++
    (s.cgroups.filter (fun c => c.part == p)).flatMap (fun c => (c.members.map (·.1)).filter (· != ownNode s)))
  let groups := nodes.filterMap (fun n => (routeTo s n).map (fun g => (g, n)))
  let s1 := groups.foldl (fun t x => lnkNotice t x.1 (notePkt t pkAbort x.2 0 (leBytes 1 stCancelledReset ++ leBytes 1 1 ++ leBytes 2 p ++ leBytes 4 0))) s
  if groups.isEmpty then s1 else colEvt s1 2

/-- R361: an ABORT notice arrives. -/
def abortReceive (s : State) (g : Nat) : State :=
  match rxTake s g (fun k => k.ty == pkAbort) with
  | none => s
  | some ((k, _, _), s1) =>
    let cause := byteAt k.pay 0
    let scope := byteAt k.pay 1
    let part := fld k.pay 2 2
    let s2 := rset s1 (pgCol + 0x54) (k.src % 2 ^ 15 + scope % 2 * 2 ^ 15 + cause * 2 ^ 16)
    let s3 := colEvt (lnkEvt s2 g 0x80) 4
    let s4 := if scope = 0 then lnkUpd s3 g (fun x => { x with blocked := true }) else s3
    let s5 := fabCut s4 (fun t => t.node == k.src && (scope == 0 || t.dpart == part)) (fun f => f.node == k.src && (scope == 0 || f.dpart == part))
      stFailedLink dFbRemoteAbort
    fabPump (runsFail s5 (fun r => (grpAt s5 r.part r.grp).elim false (fun c =>
      c.members.any (fun m => m.1 == k.src && (scope == 0 || m.2 == part)))) stFailedLink dFbRemoteAbort true)

/-! ### Delay probes (R365) -/

/-- R365: every 1 ms a DELAY_PROBE on an UP link. -/
def probeTimer (s : State) (g : Nat) : State :=
  if lnkUp s g && decide (1000000 ≤ s.now - (lnkGet s g).probeAt) then probeSend s g else s

/-- R365: a peer answers a DELAY_PROBE. -/
def probeReceive (s : State) (g : Nat) : State :=
  match rxTake s g (fun k => k.ty == pkProbe) with
  | none => s
  | some ((k, t2, _), s1) =>
    lnkNotice s1 g (notePkt s1 pkEcho k.src (k.tag % 65536) (k.pay.take 8 ++ leBytes 8 t2 ++ leBytes 16 0))

/-- R365: an echo of the latest probe gives LNK_DELAY. -/
def echoReceive (s : State) (g : Nat) : State :=
  match rxTake s g (fun k => k.ty == pkEcho) with
  | none => s
  | some ((k, t4, at'), s1) =>
    let x := lnkGet s1 g
    if k.tag ≠ x.probe ∨ 100000 < at' - x.probeAt then s1
    else
      let t := fun (i : Nat) => (fld k.pay (8 * i) 8 : Int)
      rset s1 (pgLnk g + 0x50) (ofSigned 24 ((((t4 : Int) - t 0) - (t 2 - t 1)) / 2))

end Sys2Proof.Machine
end

