-- ==== Sys2Proof/Machine/Collect.lean ====
section
/-!
DEFINITION. Machine/Collect.lean: collective groups and runs (R366 to R376).
Log entries that code here: 76 (DEDUCED, unsafe), 77 (DEDUCED, unsafe), 78 (DEDUCED, unsafe), 79 (DEDUCED, unsafe), 80 (DEDUCED, unsafe),
127 (DEDUCED, unsafe).
-/

namespace Sys2Proof.Machine

/-! ### Opening and closing a group (R366, R367) -/

/-- R366: the members of a record. -/
def clMembers (b : List Byte) : List (Nat × Nat) :=
  (List.range (fld b 6 2)).map (fun i => (fld b (32 + 4 * i) 2, fld b (34 + 4 * i) 2))

/-- Members are in strictly ascending node order. -/
def ascending : List Nat → Bool
  | a :: b :: t => decide (a < b) && ascending (b :: t)
  | _ => true

/-- R366: the fields of a group record. -/
def clRecordOk (s : State) (b : List Byte) : Bool :=
  let shape := byteAt b 5
  let n := fld b 6 2
  let ms := clMembers b
  let nodes := ms.map (·.1)
  decide (fld b 0 4 = 0x434F4C47) && byteAt b 4 == 1 && decide (shape ≤ 1) &&
  decide (2 ≤ n) && decide (n ≤ if shape = 0 then 8 else 2560) &&
  fld b 8 8 % 4096 == 0 && (byteAt b 20 != 0 || fld b 8 8 == 0) && fld b 16 4 % 4096 == 0 && decide (byteAt b 20 ≤ 64) &&
  (if shape = 1 then isPort (byteAt b 21) && isPort (byteAt b 22) else byteAt b 21 == 0xFF && byteAt b 22 == 0xFF) && zeroAt b 23 9 &&
  ms.all (fun m => decide (m.1 < 20480) && decide (m.2 < 1024)) && ascending nodes && nodes.contains (ownNode s) &&
  (if shape = 0 then nodes.all (fun x => x / 8 == ownNode s / 8) else ascending (nodes.map (· / 8)))

/-- The group of a record. -/
def clGroup (p id : Nat) (b : List Byte) : CGroup :=
  ⟨p, id, byteAt b 5 == 1, clMembers b, fld b 8 8, fld b 16 4, byteAt b 20, byteAt b 21, byteAt b 22, [], none⟩

/-- R367: the links and peers a group needs. -/
def clTopologyOk (s : State) (c : CGroup) : Bool :=
  let r := c.rank (ownNode s)
  let node := fun (j : Nat) => (c.members.getD (j % c.n) (0x7FFF, 0)).1
  if c.ring then
    lnkUp s c.prev && lnkUp s c.nxt && lnkPeer s c.prev == node (r + c.n - 1) && lnkPeer s c.nxt == node (r + 1) &&
      (c.prev != c.nxt || c.n == 2) && (decide (c.n ≤ 3) || (decide (3 ≤ lnkMinor s c.prev) && decide (3 ≤ lnkMinor s c.nxt)))
  else (c.members.map (·.1)).all (fun x => x == ownNode s || (lnkUp s (flightLink s x) && lnkPeer s (flightLink s x) == x))

/-- R366, R367: COL_OPEN. -/
def colOpen (s : State) (p q : Nat) : State :=
  match cmdNext s p q 0x52 with
  | none => s
  | some c =>
    let id := opf c 16 2
    let a := opf c 24 8
    if !operandsOk c [(16, 2), (24, 8)] || decide (255 < id) || a % 64 != 0 then cmdFail s c dClRecord
    else match hget s p a 32 true with
      | (s1, 0, h) =>
        if 2560 < fld h 6 2 then cmdFail s1 c dClRecord
        else match hget s1 p a (32 + 4 * fld h 6 2) true with
          | (s2, 0, b) =>
            let g := clGroup p id b
            if !clRecordOk s2 b then cmdFail s2 c dClRecord
            else if g.areas ≠ 0 ∧ (hphys s2 p g.areaBase (g.areas * g.areaBytes)).isNone then cmdDone s2 c stDenied 0
            else if (grpAt s2 p id).isSome then cmdFail s2 c dClGroup
            else if !clTopologyOk s2 g then cmdFail s2 c dClTopology
            else cmdDone { s2 with cgroups := s2.cgroups ++ [g] } c stOk 0
          | (s2, r, _) => cmdDone s2 c (reasonStatus r) 0
      | (s1, r, _) => cmdDone s1 c (reasonStatus r) 0

/-- R366: COL_CLOSE. -/
def colClose (s : State) (p q : Nat) : State :=
  match cmdNext s p q 0x54 with
  | none => s
  | some c =>
    let id := opf c 16 2
    if !operandsOk c [(16, 2)] then cmdFail s c dClRecord
    else if (grpAt s p id).isNone || s.cruns.any (fun r => r.part == p && r.grp == id) then cmdFail s c dClGroup
    else
      let keep := fun (y : Pkt × Nat × Nat) => !(y.1.ty == pkColData && y.1.dpart == p && y.1.group == id && y.1.dst == ownNode s)
      let s1 := { s with
        cgroups := s.cgroups.filter (fun x => !(x.part == p && x.id == id))
        links := s.links.map (fun l => (l.1, { l.2 with rx := l.2.rx.filter keep })) }
      cmdDone s1 c stOk 0

/-! ### Submitting runs and reclaims (R368, R375) -/

/-- R375: no COL_RUN or COL_RECLAIM of the group comes before the command in the order of acceptance. -/
def colTurn (s : State) (p : Nat) (c : Cmd) : Bool :=
  !unfetchedBefore s p c.bell &&
  !(s.cmds.any (fun x => x.part == p && !x.started && (cmdOp x == 0x53 || cmdOp x == 0x55) && decide (x.bell < c.bell) &&
    opf x 16 2 == opf c 16 2))

/-- An accepted command. -/
def colAccepted (p : Nat) (c : Cmd) (reclaim gap : Bool) (now : Nat) : CRun :=
  ⟨p, opf c 16 2, c.sq, c.seq, c.entry, reclaim, false, gap, now, 0, [], [], [], [], [], [], 0, 0, 0⟩

/-- R368: the fields of a COL_RUN. -/
def colFieldsOk (s : State) (p : Nat) (c : Cmd) : Bool :=
  let b := c.entry
  let op := byteAt b 18
  let fl := byteAt b 19
  let i := byteAt b 20
  let o := byteAt b 21
  let red := op == 1 || op == 2
  let jigs := bit fl 0 || bit fl 1
  let n := (partGet s p).cells.length
  decide (op ≤ 3) && decide (fl < 8) && (!bit fl 2 || op == 0) &&
  (if red then i == 0x00 || i == 0x02 || i == 0x21 else i == 0x00 || i == 0x02 || i == 0x20) &&
  (if red then (if i = 0x21 then o == 0x21 else o == 0 || o == 1 || o == 2) else o == i) &&
  (bit fl 2 || fld b 22 2 == 0) && decide (1 ≤ fld b 28 4) && decide (fld b 28 4 ≤ 268435456) && fld b 32 8 % 32 == 0 &&
  (bit fl 2 || fld b 40 8 % 32 == 0) && (if jigs then decide (1 ≤ fld b 50 2) && decide (fld b 48 2 + fld b 50 2 ≤ n) else fld b 50 2 == 0) &&
  (!bit fl 0 || fld b 52 4 % 64 == 0) && (!bit fl 1 || decide (byteAt b 58 < 64)) && zeroAt b 59 5

/-- Bytes a run reads at SRC. -/
def CRun.srcBytes (r : CRun) : Nat := r.count * colBytes r.inFmt

/-- R369: the RUN_SEQ before which nothing of a group starts any more, with the accepted runs `l` and the last one `m`. -/
def maxSeq (l : List CRun) (m : Option Nat) : Option Nat :=
  l.foldl (fun m x => match m with
    | none => some x.seqNo
    | some v => some (max v x.seqNo)) m

/-- R369: a run submitted to a group waits for a RUN_SEQ not submitted yet. -/
def runGap (s : State) (p : Nat) (g : CGroup) (c : Cmd) : Bool :=
  (maxSeq (s.cruns.filter (fun x => x.part == p && x.grp == g.id && !x.reclaim)) g.lastSeq).elim false (fun v => fld c.entry 24 4 != v + 1)

/-- R368: COL_RUN: it is checked and accepted in the order of R375. -/
def colRun (s : State) (p q : Nat) : State :=
  match cmdNext s p q 0x53 with
  | none => s
  | some c =>
    if !colTurn s p c then s
    else match grpAt s p (opf c 16 2) with
      | none => cmdFail s c dClGroup
      | some g =>
        let r := colAccepted p c false (runGap s p g c) s.now
        let m := g.rank (ownNode s)
        if !colFieldsOk s p c then cmdFail s c dClRecord
        else if (hphys s p r.src r.srcBytes).isNone || (!r.flag 2 && (hphys s p r.dst (r.dstBytes g m)).isNone) then cmdDone s c stDenied 0
        else if !r.flag 2 && spansMeet (r.src, r.srcBytes) (r.dst, r.dstBytes g m) then cmdFail s c dClRecord
        else { cmdStart s c with cruns := s.cruns ++ [r] }

/-- R375: COL_RECLAIM. -/
def colReclaim (s : State) (p q : Nat) : State :=
  match cmdNext s p q 0x55 with
  | none => s
  | some c =>
    if !colTurn s p c then s
    else match grpAt s p (opf c 16 2) with
      | none => cmdFail s c dClGroup
      | some g =>
        if !operandsOk c [(16, 4)] then cmdFail s c dClRecord
        else if g.areas ≤ opf c 18 2 then cmdFail s c dClArea
        else colReclaims p g.id 4096 { cmdStart s c with cruns := s.cruns ++ [colAccepted p c true false s.now] }

/-! ### Sending (R372, R374) -/

/-- The started run of a group. -/
def runAt (s : State) (p g : Nat) : Option CRun := s.cruns.find? (fun r => r.part == p && r.grp == g && r.started)

/-- The run fields that a member checks (R369). -/
def CRun.par (r : CRun) : List Nat := [r.op, r.inFmt, r.outFmt, r.count, r.area]

/-- COL_DATA to the member of rank `j` over a link: pieces of at most 4,096 B; the first of the run carries its fields (R369). -/
def colSend (s : State) (c : CGroup) (r : CRun) (j link level addr : Nat) (bs : List Byte) : State :=
  let pieces := if bs.isEmpty then [[]] else chunksOf 4096 (bs.length / 4096 + 1) bs
  let first := ((runAt s r.part r.grp).elim false (fun x => !x.told.contains j))
  let s1 := pieces.zipIdx.foldl (fun t x =>
    lnkQueue t link ⟨colPkt t c pkColData r.seqNo j (addr + 4096 * x.2) level x.1 (if first && x.2 == 0 then r.par else []), r.part, 2, none⟩) s
  match runAt s1 r.part r.grp with
  | some x => crunPut s1 { x with told := j :: x.told.filter (· != j), sent := (level, j) :: x.sent }
  | none => s1

/-- The links to the previous and the next member. -/
def CGroup.prevLink (c : CGroup) (s : State) : Nat :=
  if c.ring then c.prev else (c.route s ((c.rank (ownNode s) + c.n - 1) % c.n)).1
def CGroup.nextLink (c : CGroup) (s : State) : Nat :=
  if c.ring then c.nxt else (c.route s ((c.rank (ownNode s) + 1) % c.n)).1

/-! ### Reductions (R370 to R372) -/

/-- The trailing zeros of a positive number below 2^12. -/
def trailing (v : Nat) : Nat := ((List.range 12).find? (fun i => v.testBit i)).getD 0

/-- The levels of the canonical tree over `n` members (R55). -/
def colLevels (n : Nat) : Nat := clog2 n

/-- The levels at which place `v` of a slice's tree has a right child (R372). -/
def childLevels (n v : Nat) : List Nat :=
  ((List.range (if v = 0 then colLevels n else trailing v)).map (· + 1)).filter (fun l => decide (v + 2 ^ (l - 1) < n))

/-- Bytes of a partial on the links: binary32, or the exact 64-bit sum of INT32 inputs (R371). -/
def CRun.width (r : CRun) : Nat := if r.inFmt = 0x21 then 8 else 4

/-- Elements of slice `j`. -/
def CRun.sliceLen (r : CRun) (n j : Nat) : Nat := sliceLo r.count n (j + 1) - sliceLo r.count n j

/-- The bytes received at a level for a slice or rank. -/
def CRun.gotAt (r : CRun) (level j : Nat) : List Byte := ((r.got.find? (fun x => x.1 == level && x.2.1 == j)).map (·.2.2)).getD []

/-- Split bytes into little-endian numbers of `w` bytes. -/
def numsOf (w : Nat) (bs : List Byte) : List Nat := (chunksOf w bs.length bs).map leNat

/-- One addition of the tree (R371). -/
def CRun.add (r : CRun) (a b : Nat) : Nat := if r.inFmt = 0x21 then (a + b) % 2 ^ 64 else fadd a b

/-- An input element widened (R371). -/
def CRun.widenIn (r : CRun) (v : Nat) : Nat := if r.inFmt = 0x21 then ofSigned 64 (toSigned 32 v) else widen r.inFmt v

/-- A result element converted once (R371). -/
def CRun.convert (r : CRun) (v : Nat) : Nat :=
  if r.inFmt = 0x21 then (encodeInt 32 (ofInt (toSigned 64 v))).1 else (convertTo r.outFmt none v).1

/-- R372: slice `j` at this member: nothing until its children have come; then its partial goes up, or the result is written. -/
def reduceSlice (s : State) (c : CGroup) (p g j : Nat) : State :=
  match runAt s p g with
  | none => s
  | some r =>
    let n := c.n
    let m := c.rank (ownNode s)
    let v := (m + n - j) % n
    let len := r.sliceLen n j
    let lv := if v = 0 then 0 else trailing v + 1
    let kids := childLevels n v
    if len = 0 || r.sent.any (fun x => x.1 == lv && x.2 == 4096 + j) || kids.any (fun l => (r.gotAt l j).length != len * r.width) then s
    else
      let e := colBytes r.inFmt
      match hget s p (r.src + sliceLo r.count n j * e) (len * e) true with
      | (s1, 0, bs) =>
        let own := (numsOf e bs).map r.widenIn
        let sum := kids.foldl (fun acc l => acc.zipWith r.add (numsOf r.width (r.gotAt l j))) own
        let s2 := crunPut s1 { r with sent := (lv, 4096 + j) :: r.sent }
        if v ≠ 0 then
          let to' := ((v - 2 ^ trailing v) + j) % n
          colSend s2 c r to' (c.route s2 to').1 lv (sliceLo r.count n j * r.width) (sum.flatMap (leBytes r.width))
        else
          let w := colBytes r.outFmt
          let out := sum.flatMap (fun x => leBytes w (r.convert x))
          let s3 := hputD s2 p (if r.op = 1 then r.dst else r.dst + sliceLo r.count n j * w) out
          if r.op = 1 then s3
          else ((List.range n).filter (· != m)).foldl (fun t k =>
            colSend t c r k (c.route t k).1 (colLevels n + 1) (sliceLo r.count n j * w) out) s3
      | (s1, rs, _) => runFail s1 r (reasonStatus rs) 0 true

/-! ### Gathers and rings (R370, R374) -/

/-- Bytes of a member's block. -/
def CRun.block (r : CRun) : Nat := r.count * colBytes r.inFmt

/-- R370, R372: the start of an ALL_GATHER: the own block is placed and sent. -/
def gatherStart (s : State) (c : CGroup) (p g : Nat) : State :=
  match runAt s p g with
  | none => s
  | some r =>
    let m := c.rank (ownNode s)
    if r.sent.contains (0, 4096) then s
    else match hget s p r.src r.block true with
      | (s1, 0, bs) =>
        let s2 := hputD (crunPut s1 { r with sent := (0, 4096) :: r.sent }) p (r.dstAt c + m * r.block) bs
        if c.ring then colSend s2 c r ((m + 1) % c.n) c.nxt 1 (m * r.block) bs
        else ((List.range c.n).filter (· != m)).foldl (fun t k => colSend t c r k (c.route t k).1 0 (m * r.block) bs) s2
      | (s1, rs, _) => runFail s1 r (reasonStatus rs) 0 true

/-- The cells of a run's jig set (R368). -/
def runCells (s : State) (r : CRun) : List Nat := (((partGet s r.part).cells.drop (fld r.entry 48 2)).take (fld r.entry 50 2))

/-- R373, R374: push the jig of a step to the set. -/
def pushStep (s : State) (r : CRun) (t : Nat) : State :=
  let id := (fld r.entry 56 2 + t) % 65536
  let cells := runCells s r
  let s1 := cells.foldl (fun u c => jigPush u c ⟨fld r.entry 52 4, id, .col r.part r.grp⟩) s
  match runAt s1 r.part r.grp with
  | some x => crunPut s1 { x with pend := x.pend ++ cells.map (fun c => (c, t)) }
  | none => s1

/-- R374: block `t` at this member: SRC for 0, then the two places of DST in turn. -/
def ringBlock (r : CRun) (t : Nat) : Nat := if t = 0 then r.src else r.dst + t % 2 * r.block

/-- R374: forward block `t` as block `t + 1` once NEXT has granted that step. -/
def ringForward (s : State) (c : CGroup) (p g t : Nat) : State :=
  match runAt s p g with
  | none => s
  | some r =>
    let m := c.rank (ownNode s)
    if r.present < t || decide (c.n ≤ t + 1) || decide (r.grants < t + 1) || r.sent.contains (t + 1, 4096) then s
    else match hget s p (ringBlock r t) r.block true with
      | (s1, 0, bs) =>
        colSend (crunPut s1 { r with sent := (t + 1, 4096) :: r.sent }) c r ((m + 1) % c.n) (c.nextLink s1) (t + 1)
          ((m + c.n - t) % c.n * r.block) bs
      | (s1, rs, _) => runFail s1 r (reasonStatus rs) 0 true

/-- R374: grant step `u` to PREV: 1 and 2 at the start, later ones when block `u − 2` is no longer needed. -/
def ringGrant (s : State) (c : CGroup) (p g u : Nat) : State :=
  match runAt s p g with
  | none => s
  | some r =>
    let m := c.rank (ownNode s)
    let ready := decide (u ≤ 2) || (decide (u - 2 ≤ r.present) && r.sent.contains (u - 1, 4096) && !r.pend.any (fun x => x.2 == u - 2))
    if c.n ≤ u || r.granted ≥ u || !ready then s
    else colSend (crunPut s { r with granted := u }) c r ((m + c.n - 1) % c.n) (c.prevLink s) u 0 []

/-! ### Completion (R373, R375, R376) -/

/-- Every piece a run expects has come and every one it owes has left. -/
def runFinished (s : State) (c : CGroup) (r : CRun) : Bool :=
  let n := c.n
  let m := c.rank (ownNode s)
  let others := (List.range n).filter (· != m)
  r.pend.isEmpty && !(s.links.any (fun l => l.2.q.any (fun y => y.pkt.ty == pkColData && y.pkt.src == ownNode s && y.part == r.part &&
    y.pkt.group == r.grp && y.pkt.tag == r.seqNo))) &&
  (if r.op = 0 then r.sent.contains (0, 4096) && others.all (fun b => (r.gotAt 0 b).length == r.block)
   else if r.op = 3 then decide (n ≤ r.present + 1) && (List.range (n - 1)).all (fun t => r.sent.contains (t + 1, 4096))
   else (List.range n).all (fun j => r.sliceLen n j == 0 || r.sent.any (fun x => x.2 == 4096 + j)) &&
     (r.op == 1 || others.all (fun j => (r.gotAt (colLevels n + 1) j).length == r.sliceLen n j * colBytes r.outFmt)))

/-- A run that has finished completes with OK: its semaphores, its area, its command. -/
def runSettle (s : State) (p g : Nat) : State :=
  match runAt s p g, grpAt s p g with
  | some r, some c =>
    if !runFinished s c r then s
    else
      let s1 := if r.flag 1 then (runCells s r).foldl (fun t x => semInc t x (byteAt r.entry 58)) s else s
      runEnd (if r.flag 2 then grpUpd s1 p g (fun x => { x with full := r.area :: x.full.filter (· != r.area) }) else s1) r stOk 0
  | _, _ => s

/-- Whatever of a started run can go on goes on. -/
def colPump (s : State) (p g : Nat) : State :=
  match runAt s p g, grpAt s p g with
  | some r, some c =>
    if r.op = 3 then
      let s1 := (List.range c.n).foldl (fun t k => ringGrant (ringForward t c p g k) c p g k) s
      let s2 := (List.range c.n).foldl (fun t k => if k = 0 then t else ringGrant t c p g k) s1
      runSettle s2 p g
    else if !r.pend.isEmpty then s
    else if r.op = 0 then runSettle (gatherStart s c p g) p g
    else runSettle ((List.range c.n).foldl (fun t j => reduceSlice t c p g j) s) p g
  | _, _ => s

/-- Every started run goes on where it can: after a frame has left. -/
def colPumpAll (s : State) : State := (s.cruns.filter (·.started)).foldl (fun t r => colPump t r.part r.grp) s

/-- R363: one frame slot, and what its departure completes. -/
def egressSlot (s : State) (g : Nat) : State := colPumpAll (egress s g)

/-! ### Starting a run (R369, R373, R375) -/

/-- The accepted runs of a group that no reclaim still to take effect precedes. -/
def runsReady (s : State) (p g : Nat) : List CRun :=
  ((s.cruns.filter (fun r => r.part == p && r.grp == g)).takeWhile (fun r => !r.reclaim))

/-- R369: the run that starts next: the group's next RUN_SEQ, or the lowest when it has had none. -/
def runNext (s : State) (p g : Nat) : Option CRun :=
  match grpAt s p g with
  | none => none
  | some c =>
    if (runAt s p g).isSome then none
    else match c.lastSeq with
      | some v => (runsReady s p g).find? (fun r => r.seqNo == v + 1)
      | none => (runsReady s p g).foldl (fun m r => match m with
        | none => some r
        | some x => if r.seqNo < x.seqNo then some r else some x) none

/-- R375: the area of a run is FULL, out of range or too small, or meets its source. -/
def areaBad (c : CGroup) (r : CRun) : Nat :=
  if !r.flag 2 then 0
  else if c.areas ≤ r.area ∨ c.full.contains r.area ∨ c.areaBytes < c.n * r.block then dClArea
  else if spansMeet (r.src, r.srcBytes) (r.dstAt c, c.n * r.block) then dClRecord
  else 0

/-- COL_RUN_START: the next run of a group starts. -/
def runStart (s : State) (p g : Nat) : State :=
  if !running s then s
  else match runNext s p g, grpAt s p g with
  | some r, some c =>
    if areaBad c r ≠ 0 then runFail s r stFailedOperand (areaBad c r) true
    else
      let r1 := { r with started := true, since := if r.gap then r.since else s.now }
      let s1 := crunPut s r1
      colPump (if r.flag 0 then pushStep s1 r1 0 else s1) p g
  | _, _ => s

/-- R373, R374: the notice of a cell for a run's jig. -/
def colNotice (s : State) (p g : Nat) (n : JigNotice) : State :=
  match runAt s p g with
  | none => s
  | some r =>
    match r.pend.find? (fun x => x.1 == n.cell && (fld r.entry 56 2 + x.2) % 65536 == n.id) with
    | none => s
    | some x =>
      let r1 := { r with pend := r.pend.erase x, bad := if n.status = stOk then r.bad else r.bad ++ [(n.cell, n.status)] }
      let s1 := crunPut s r1
      if r1.pend.any (fun y => y.2 == x.2) then s1
      else match r1.bad.foldl (fun (m : Option (Nat × Nat)) y => match m with
          | none => some y
          | some z => if y.1 < z.1 then some y else some z) none with
        | some b => runFail s1 r1 b.2 0 true
        | none => colPump s1 p g

/-! ### Receiving (R369, R372, R374, R376) -/

/-- Add bytes received at a level for a slice or rank. -/
def CRun.take (r : CRun) (level j : Nat) (bs : List Byte) : CRun :=
  { r with got := if r.got.any (fun x => x.1 == level && x.2.1 == j) then
      r.got.map (fun x => if x.1 = level ∧ x.2.1 = j then (x.1, x.2.1, x.2.2 ++ bs) else x)
    else r.got ++ [(level, j, bs)] }

/-- The slice that holds element `e` of a buffer. -/
def sliceOf (count n e : Nat) : Nat := ((List.range n).find? (fun j => decide (e < sliceLo count n (j + 1)))).getD 0

/-- What a started run does with a piece for it. -/
def colPiece (s : State) (c : CGroup) (r : CRun) (k : Pkt) : State :=
  let n := c.n
  let m := c.rank (ownNode s)
  if k.len = 0 then colPump (crunPut s { r with grants := max r.grants k.level }) r.part r.grp
  else if r.op = 0 then
    let b := k.addr / max r.block 1
    let s1 := hputD (crunPut s (r.take 0 b k.pay)) r.part (r.dstAt c + k.addr) k.pay
    let s2 := if c.ring && decide (k.level + 1 < n) then colSend s1 c r ((m + 1) % n) c.nxt (k.level + 1) k.addr k.pay else s1
    colPump s2 r.part r.grp
  else if r.op = 3 then
    let r1 := r.take k.level 0 k.pay
    let full := (r1.gotAt k.level 0).length == r.block
    let r2 := { r1 with present := if full then max r1.present k.level else r1.present }
    let s1 := hputD (crunPut s r2) r.part (r.dst + k.level % 2 * r.block + k.addr % max r.block 1) k.pay
    colPump (if full && r.flag 0 then pushStep s1 r2 k.level else s1) r.part r.grp
  else if k.level ≤ colLevels n then
    colPump (crunPut s (r.take k.level (sliceOf r.count n (k.addr / r.width)) k.pay)) r.part r.grp
  else
    let j := sliceOf r.count n (k.addr / max (colBytes r.outFmt) 1)
    colPump (hputD (crunPut s (r.take k.level j k.pay)) r.part (r.dst + k.addr) k.pay) r.part r.grp

/-- Forward a packet addressed to another node on the same side (R372): it is charged to the own member partition. -/
def colRelay (s : State) (g : Nat) (k : Pkt) : State :=
  match s.cgroups.find? (fun c => c.ring && c.id == k.group && (c.prev == g || c.nxt == g) && c.members.any (fun m => m.1 == k.dst)) with
  | none => s
  | some c =>
    let out := if c.prev = g then c.nxt else c.prev
    lnkQueue s out ⟨k, c.part, if k.ty = pkColData then 2 else 0, none⟩

/-- What a received packet of a collective meets: a run to take it, a run still to come, or none. -/
def colMeets (s : State) (k : Pkt) : Bool :=
  if k.relay && k.dst != ownNode s then true
  else match runAt s k.dpart k.group with
    | some r => decide (k.tag ≤ r.seqNo)
    | none => match grpAt s k.dpart k.group with
      | some c => c.lastSeq.elim false (fun v => decide (k.tag ≤ v))
      | none => false

/-- R372: COL_DATA: forwarded, taken by its run, or discarded with a run that has ended. -/
def colData (s : State) (g : Nat) : State :=
  match rxTake s g (fun k => k.ty == pkColData && colMeets s k) with
  | none => s
  | some ((k, _, _), s1) =>
    if k.relay && k.dst != ownNode s1 then colRelay s1 g k
    else match runAt s1 k.dpart k.group, grpAt s1 k.dpart k.group with
      | some r, some c =>
        if k.tag ≠ r.seqNo then s1
        else
          let r1 := { r with checked := if k.par.isEmpty then r.checked else k.src :: r.checked.filter (· != k.src) }
          if !k.par.isEmpty && !r.checked.contains k.src && k.par != r.par then runFail s1 r stFailedOperand dClMismatch true
          else colPiece (crunPut s1 r1) c r1 k
      | _, _ => s1

/-- R376: COL_ABORT: forwarded, or the run records FAILED_LINK. -/
def colAbort (s : State) (g : Nat) : State :=
  match rxTake s g (fun k => k.ty == pkColAbort) with
  | none => s
  | some ((k, _, _), s1) =>
    if k.relay && k.dst != ownNode s1 then colRelay s1 g k
    else
      let s2 := colEvt s1 4
      runsFail s2 (fun r => r.part == k.dpart && r.grp == k.group && r.seqNo == k.tag) stFailedLink dClPeerFailed false

/-- R369, R376: the piece timer of a run that awaits a piece passes. -/
def pieceTimeout (s : State) (p g : Nat) : State :=
  match s.cruns.find? (fun r => r.part == p && r.grp == g && !r.reclaim && (r.started || r.gap)) with
  | none => s
  | some r =>
    let waits := !r.started || r.op == 3 || r.pend.isEmpty
    if waits && decide (r.since + colTimeout s + r.ext ≤ s.now) then runFail s r stTimeout 0 true else s

end Sys2Proof.Machine
end

