-- ==== Sys2Proof/Machine/Video.lean ====
section
/-!
DEFINITION. Machine/Video.lean: sessions, their frames and progress (R380 to R384, R386), alignment groups (R401 to R403),
decoding and encoding (R388 to R393). What a codec's standard fixes, the samples and the coded bytes, comes with the commands.
Log entries that code here: 89 (DESIGN CHOICE, safe), 90 (DEDUCED, unsafe), 91 (DEDUCED, unsafe), 92 (DEDUCED, unsafe).
-/

namespace Sys2Proof.Machine

/-! ### Details (R412) -/
def dVdRecord : Nat := 0x0E0001
def dVdStream : Nat := 0x0E0002
def dVdSyntax : Nat := 0x0E0003
def dVdUnsupported : Nat := 0x0E0004
def dVdMark : Nat := 0x0E0005
def dTtFull : Nat := 0x0E0006
def dTtTag : Nat := 0x0E0007
def dTtField : Nat := 0x0E0008
def dTwSource : Nat := 0x0E0009
def dAlRecord : Nat := 0x0E000A
def dAlGroup : Nat := 0x0E000B
def dTkDict : Nat := 0x0E000C

/-! ### Sessions (R380, R381) -/

def Sess.kind (x : Sess) : Nat := byteAt x.record 5
def Sess.sample (x : Sess) : Nat := if byteAt x.record 7 = 10 then 2 else 1
def Sess.width (x : Sess) : Nat := fld x.record 8 2
def Sess.height (x : Sess) : Nat := fld x.record 10 2
def Sess.frames (x : Sess) : Nat := byteAt x.record 13
def Sess.rate (x : Sess) : Nat := fld x.record 16 4
def Sess.pitch (x : Sess) : Nat := fld x.record 20 4
def Sess.frameAt (x : Sess) (f : Nat) : Nat := fld x.record 24 8 + f % max x.frames 1 * fld x.record 32 8
def Sess.bsBase (x : Sess) : Nat := fld x.record 72 8
def Sess.bsBytes (x : Sess) : Nat := fld x.record 80 4

/-- A session by its stream number. -/
def sessAt (s : State) (n : Nat) : Option Sess := s.sess.find? (fun x => x.stream == n)
def sessPut (s : State) (x : Sess) : State := { s with sess := s.sess.map (fun y => if y.stream = x.stream then x else y) }

/-- R381: the fields of a session record. -/
def vidRecordOk (b : List Byte) : Bool :=
  let x : Sess := ⟨0, 0, b, 0, 0, 0, 0, [], [], [], none, none, 0, 0, 0, false, 0, [], none, [], false⟩
  let k := byteAt b 5
  let enc := k == 1
  let raw := k == 2
  let av1 := byteAt b 6 == 1
  let top := if av1 then 255 else 51
  let refs := if enc then byteAt b 96 + byteAt b 97 else if av1 then 8 else 16
  decide (fld b 0 4 = 0x56494453) && byteAt b 4 == 1 && decide (k ≤ 2) && decide (byteAt b 6 ≤ if raw then 0 else 1) &&
  (byteAt b 7 == 8 || byteAt b 7 == 10) && decide (16 ≤ x.width ∧ x.width ≤ 8192) && x.width % 8 == 0 &&
  decide (16 ≤ x.height ∧ x.height ≤ 4352) && x.height % 8 == 0 &&
  (if raw then byteAt b 12 == 0 else decide (byteAt b 12 ≤ 3) || byteAt b 12 == 0xFF) && decide (2 ≤ x.frames ∧ x.frames ≤ 64) &&
  (if raw then x.rate == 0 else decide (1 ≤ x.rate) && decide (x.rate ≤ if enc then 1000000 else 4000000)) &&
  x.pitch % 32 == 0 && decide (x.width * x.sample ≤ x.pitch) && fld b 24 8 % 4096 == 0 && fld b 32 8 % 4096 == 0 &&
  decide (3 * x.height * x.pitch / 2 + 64 ≤ fld b 32 8) &&
  (if raw then fld b 40 8 == 0 && fld b 48 8 == 0 && fld b 56 8 == 0 && fld b 64 4 == 0
    else fld b 40 8 % 4096 == 0 && decide ((refs + 1) * fld b 32 8 ≤ fld b 48 8) && fld b 56 8 % 4096 == 0 &&
      decide (2 * x.width * x.height ≤ fld b 64 4)) &&
  (if enc then fld b 72 8 % 4096 == 0 && decide (0x100000 ≤ x.bsBytes ∧ x.bsBytes ≤ 0x40000000) && x.bsBytes % 4096 == 0 &&
      decide ((if av1 then 1 else 0) ≤ fld b 84 2) && decide (fld b 84 2 ≤ fld b 86 2) && decide (fld b 86 2 ≤ top) &&
      (fld b 88 4 == 0 || decide (1 ≤ fld b 92 2 ∧ fld b 92 2 ≤ 10000)) && decide (1 ≤ byteAt b 96 ∧ byteAt b 96 ≤ 4) &&
      decide (byteAt b 97 ≤ 8) && decide (byteAt b 98 ≤ 68)
    else fld b 72 8 == 0) &&
  zeroAt b 14 2 && zeroAt b 68 4 && zeroAt b 99 29

/-- R415: the areas of a record lie inside the partition. -/
def vidAreasOk (s : State) (p : Nat) (b : List Byte) : Bool :=
  (hphys s p (fld b 24 8) (byteAt b 13 * fld b 32 8)).isSome && (hphys s p (fld b 40 8) (fld b 48 8)).isSome &&
  (hphys s p (fld b 56 8) (fld b 64 4)).isSome && (byteAt b 5 != 1 || (hphys s p (fld b 72 8) (fld b 80 4)).isSome)

/-- The committed rate of a region's sessions of a kind (R384, R411), of a partition's, and their number. -/
def regionRate (s : State) (r k : Nat) : Nat := ((s.sess.filter (fun x => x.region == r && x.kind == k)).map Sess.rate).sum
def partRate (s : State) (p k : Nat) : Nat := ((s.sess.filter (fun x => x.part == p && x.kind == k)).map Sess.rate).sum
def regionSess (s : State) (r k : Nat) : Nat := (s.sess.filter (fun x => x.region == r && x.kind == k)).length

/-- R381: the region of a record: the one named, or that with the lowest committed rate of the kind. -/
def vidRegion (s : State) (b : List Byte) : Nat :=
  if byteAt b 12 = 0xFF then
    (List.range 4).foldl (fun m r => if regionRate s r (byteAt b 5) < regionRate s m (byteAt b 5) then r else m) 0
  else byteAt b 12

/-- R384, R414: a session would pass a limit of its region, its partition or the module. -/
def vidOver (s : State) (p : Nat) (b : List Byte) : Bool :=
  let k := byteAt b 5
  let r := vidRegion s b
  let rate := fld b 16 4
  if k = 2 then false
  else
    let enc := k == 1
    decide ((if enc then 1000000 else 4000000) < regionRate s r k + rate) ||
    decide ((if enc then 32 else 128) ≤ regionSess s r k) ||
    decide ((if enc then 128 else 512) ≤ (s.sess.filter (fun x => x.kind == k)).length) ||
    decide (1000 * (if enc then (partGet s p).encCap else (partGet s p).decCap) < partRate s p k + rate)

/-- Write F and L, and BS_WRITTEN, to a session's status block (R381). -/
def vidStatus (s : State) (x : Sess) : State :=
  hputD (hputD (hputD s x.part (x.addr + 128) (leBytes 8 x.f)) x.part (x.addr + 144) (leBytes 8 x.bsWritten)) x.part (x.addr + 160) (leBytes 4 x.l)

/-- RELEASED and BS_CONSUMED (R381). -/
def Sess.released (x : Sess) (s : State) : Nat := hpeekN s x.part (x.addr + 136) 8
def Sess.consumed (x : Sess) (s : State) : Nat := hpeekN s x.part (x.addr + 152) 8

/-- R384: VID_OPEN. -/
def vidOpen (s : State) (p q : Nat) : State :=
  match cmdNext s p q 0x60 with
  | none => s
  | some c =>
    let n := opf c 16 2
    let a := opf c 24 8
    if !operandsOk c [(16, 2), (24, 8)] || decide (1023 < n) then cmdFail s c dHqField
    else if a % 64 ≠ 0 then cmdFail s c dVdRecord
    else match hget s p a 256 true with
      | (s1, 0, b) =>
        let x : Sess := ⟨n, p, b.take 128, a, vidRegion s1 b, 0, 0, [], [], [], none, none, 0, 0, 0, false, 0, [], none, [], false⟩
        if !vidRecordOk (b.take 128) then cmdFail s1 c dVdRecord
        else if !vidAreasOk s1 p b then cmdDone s1 c stDenied 0
        else if (sessAt s1 n).isSome then cmdFail s1 c dVdStream
        else if vidOver s1 p b then cmdDone s1 c stOversubscribed 0
        else cmdDone (vidStatus { s1 with sess := s1.sess ++ [x] } x) c stOk (if x.kind = 2 then 0 else x.region)
      | (s1, r, _) => cmdDone s1 c (reasonStatus r) 0

/-- R380: the session a command names, or how it fails. -/
def vidNamed (s : State) (p : Nat) (c : Cmd) (kind : Nat) : Except (Nat × Nat) Sess :=
  match sessAt s (opf c 16 2) with
  | none => .error (stFailedOperand, dVdStream)
  | some x => if x.part ≠ p then .error (stDenied, 0) else if x.kind ≠ kind then .error (stFailedOperand, dHqField) else .ok x

/-- R384: VID_DECODE is submitted. -/
def vidDecode (s : State) (p q : Nat) : State :=
  match cmdNext s p q 0x62 with
  | none => s
  | some c =>
    if !operandsOk c [(16, 3), (24, 4), (32, 16)] || decide (1 < opf c 18 1) || decide (opf c 24 4 < 1) || decide (268435456 < opf c 24 4) then
      cmdFail s c dHqField
    else match vidNamed s p c 0 with
      | .error e => cmdDone s c e.1 e.2
      | .ok x =>
        match hget s p (opf c 32 8) (opf c 24 4) true with
        | (s1, 0, _) => cmdStart (sessPut s1 { x with cmds := x.cmds ++ [(c.sq, c.seq)] }) c
        | (s1, r, _) => cmdDone s1 c (reasonStatus r) 0

/-- R384: VID_ENCODE is submitted. -/
def vidEncode (s : State) (p q : Nat) : State :=
  match cmdNext s p q 0x63 with
  | none => s
  | some c =>
    match vidNamed s p c 1 with
    | .error e => cmdDone s c e.1 e.2
    | .ok x =>
      let ltr := byteAt x.record 97
      if !operandsOk c [(16, 5), (32, 16)] || decide (7 < opf c 18 1) || (if bit (opf c 18 1) 1 then decide (ltr ≤ opf c 19 1) else opf c 19 1 != 0) ||
          decide (2 ^ ltr ≤ opf c 20 1) then cmdFail s c dHqField
      else match hget s p (opf c 32 8) (3 * x.height * x.pitch / 2) true with
        | (s1, 0, _) => cmdStart (sessPut s1 { x with cmds := x.cmds ++ [(c.sq, c.seq)] }) c
        | (s1, r, _) => cmdDone s1 c (reasonStatus r) 0

/-! ### Alignment groups (R401 to R403) -/

def AGroup.n (g : AGroup) : Nat := byteAt g.record 5
def AGroup.phase (g : AGroup) : Nat := fld g.record 8 8
def AGroup.period (g : AGroup) : Nat := fld g.record 16 8
def AGroup.tol (g : AGroup) : Nat := fld g.record 24 4
def AGroup.window (g : AGroup) : Nat := fld g.record 28 4
def AGroup.members (g : AGroup) : List Nat := (List.range g.n).map (fun j => fld g.record (48 + 2 * j) 2)

/-- R401: tick k. -/
def AGroup.tick (g : AGroup) (k : Nat) : Nat := g.phase + k * g.period

/-- An open group. -/
def alnAt (s : State) (id : Nat) : Option AGroup := s.aligns.find? (fun g => g.id == id)
def alnPut (s : State) (g : AGroup) : State := { s with aligns := s.aligns.map (fun x => if x.id = g.id then g else x) }

/-- The distance of two times. -/
def timeDist (a b : Nat) : Nat := if a ≤ b then b - a else a - b

/-- R402: the frame a member contributes to tick t: the nearest complete one within tolerance, the lower number among equals. -/
def memberFrame (s : State) (g : AGroup) (t m : Nat) : Option (Nat × Nat) :=
  if g.gone.contains m then none
  else match sessAt s m with
    | none => none
    | some x => (x.caps.filter (fun c => decide (timeDist c.2 t ≤ g.tol))).foldl (fun (best : Option (Nat × Nat)) c => match best with
        | none => some c
        | some b => if timeDist c.2 t < timeDist b.2 t ∨ (timeDist c.2 t = timeDist b.2 t ∧ c.1 < b.1) then some c else some b) none

/-- The registers of a group (R410). -/
def alnReg (g off : Nat) : Nat := pgAln + 0x100 + 16 * g + off

/-- R403: MISSING of the pending set: bit j for a member that has no frame. -/
def alnMissing (s : State) (g : AGroup) : Nat :=
  ((List.range g.n).filter (fun j => (memberFrame s g (g.tick g.k) (g.members.getD j 0)).isNone)).foldl (fun a j => a + 2 ^ j) 0

/-- R403: the record of the pending set. -/
def alnBytes (s : State) (g : AGroup) : List Byte :=
  leBytes 8 g.k ++ leBytes 8 (g.tick g.k) ++ leBytes 8 (sceneNow s) ++ leBytes 2 (alnMissing s g) ++ leBytes 2 g.n ++ leBytes 4 0 ++
    (g.members.map (memberFrame s g (g.tick g.k))).flatMap (fun m => match m with
      | some (f, c) => leBytes 4 f ++ leBytes 8 c
      | none => leBytes 4 0xFFFFFFFF ++ leBytes 8 0)

/-- R398: the entries armed on the releases of a group have one more to act on. -/
def ttSet (s : State) (id : Nat) : State :=
  { s with tts := s.tts.map (fun e => if byteAt e.entry 16 = 2 ∧ fld e.entry 18 2 = id then { e with sets := e.sets + 1 } else e) }

/-- R402, R403: release the pending set of a group: its record is written, the release counted and signalled. -/
def alnRelease (s : State) (id : Nat) : State :=
  match alnAt s id with
  | none => s
  | some g =>
    let s1 := hputD s g.part (fld g.record 32 8 + 256 * (g.k % max (fld g.record 40 4) 1)) (alnBytes s g)
    let s2 := ttSet (bumpSat (alnPut s1 { g with k := g.k + 1 }) (alnReg id 0) 1) id
    if alnMissing s g = 0 then raise s2 pgAln 1 else raise (bumpSat s2 (alnReg id 4) 1) pgAln 3

/-- R402: full releases, as far as every member has its frames. -/
def alnFull (id : Nat) : Nat → State → State
  | 0, s => s
  | fuel + 1, s => match alnAt s id with
    | none => s
    | some g => if g.members.all (fun m => (memberFrame s g (g.tick g.k) m).isSome) then alnFull id fuel (alnRelease s id) else s

/-- R402: a frame has completed: every group tries a full release. -/
def alnTry (s : State) : State := s.aligns.foldl (fun t g => alnFull g.id 64 t) s

/-- R402: the deadline of the pending set of a group. -/
def alnDeadline (s : State) (id : Nat) : State :=
  match alnAt s id with
  | none => s
  | some g => if g.tick g.k + g.window ≤ sceneNow s then alnRelease s id else s

/-- ALN_NEXT (R410). -/
def alnNext (s : State) (id : Nat) : Nat := (alnAt s id).elim 0 (fun g => g.k % 2 ^ 32)

/-- ALN_OWNER (R410). -/
def alnOwner (s : State) (id : Nat) : Nat := (alnAt s id).elim 0 (fun g => g.part + 2 ^ 31)

/-! ### Frames (R382, R383) -/

/-- The bytes of row `y` of a picture's samples, luma rows first, then the rows of interleaved chroma. -/
def Sess.row (x : Sess) (img : List Byte) (y : Nat) : List Byte :=
  let n := x.width * x.sample
  let b := (img.drop (y * n)).take n
  b ++ List.replicate (n - b.length) 0#8

/-- Write the lines [a, b) of frame F to its buffer. -/
def vidLines (s : State) (x : Sess) (img : List Byte) (a b : Nat) : State :=
  let base := x.frameAt x.f
  let rows := (List.range (b - a)).map (· + a) ++ (List.range (b / 2 - a / 2)).map (fun i => x.height + a / 2 + i)
  rows.foldl (fun t y => hputD t x.part (base + y * x.pitch) (x.row img y)) s

/-- Write the frame record of frame F (R382). -/
def vidRecord (s : State) (x : Sess) (capture flags : Nat) : State :=
  hputD s x.part (x.frameAt x.f + 3 * x.height * x.pitch / 2) (leBytes 8 x.f ++ leBytes 8 capture ++ leBytes 1 flags ++ List.replicate 47 0#8)

/-- Frame F is complete: every line, the status block, and the alignment groups that wait for it. -/
def vidFrameDone (s : State) (x : Sess) (capture : Nat) : State :=
  let y := { x with f := x.f + 1, l := 0, cur := none, caps := x.caps ++ [(x.f, capture)] }
  alnTry (vidStatus (sessPut s y) y)

/-- Complete the frame a session is writing. -/
def vidFinish (s : State) (n : Nat) : State :=
  match sessAt s n with
  | none => s
  | some x => match x.cur with
    | none => s
    | some (cap, _, img) => vidFrameDone (vidLines s x img x.l x.height) { x with outs := x.outs + 1 } cap

/-- The pixel page of a session's region. -/
def Sess.page (x : Sess) : Nat := pgVidPix x.region

/-- The command in service of a session. -/
def Sess.unit (x : Sess) (s : State) : Option Cmd :=
  match x.cmds with
  | (q, n) :: _ => cmdAt s x.part q n
  | [] => none

/-- R390, R393: the frame a VID_ENCODE codes is intra. -/
def encIntra (x : Sess) (c : Cmd) : Bool :=
  bit (opf c 18 1) 0 || match x.sinceIntra with
  | none => true
  | some n => fld x.record 94 2 != 0 && decide (fld x.record 94 2 ≤ n + 1)

/-- R382, R389: the frame F that a session starts: its capture, its flags and its samples, the last reference or mid grey for a concealed one. -/
def frameOpen (s : State) (x : Sess) (c : Cmd) (pic : Nat) (intra : Bool) (img : Option (List Byte)) : State :=
  let fill := List.replicate (3 * x.height * x.width / 2) (leBytes x.sample (2 ^ (byteAt x.record 7 - 1)))
  let cap := if x.kind = 1 then opf c 40 8 else x.held.getD pic (opf c 40 8)
  let y := { x with held := if x.kind = 0 then x.held.eraseIdx pic else x.held, conceal := x.conceal && !intra }
  let flags := b2n img.isNone + 2 * b2n (if x.kind = 1 then encIntra x c else intra)
  let s1 := if img.isNone then bumpSat s (x.page + 0x50) 1 else s
  vidRecord (sessPut s1 { y with cur := some (cap, flags, img.getD (x.ref.getD fill.flatten)), l := 0 }) y cap flags

/-- R383, R384, R389: the device starts frame F: the frame before it is complete, RELEASED allows it; `img` holds its samples, none for a
concealed one; `pic` names the held picture that a decode session outputs. -/
def frameStart (s : State) (n pic : Nat) (intra : Bool) (img : Option (List Byte)) : State :=
  if (sessAt s n).elim false (fun x => x.kind == 1 && x.cur.isSome) then s
  else
    let s1 := vidFinish s n
    match sessAt s1 n with
    | none => s
    | some x =>
      match x.unit s1 with
      | none => s
      | some c =>
        if !running s || decide (x.released s1 + x.frames ≤ x.f) then s
        else frameOpen s1 x c pic intra (if x.conceal && x.kind == 0 && !intra then none else img)

/-- R383, R386, R387: a round of a region's engines: lines completed by its sessions, and µs of basin stall. -/
def engineRound (s : State) (r : Nat) (prog : List (Nat × Nat × Nat)) : State :=
  if !running s then s
  else prog.foldl (fun t e => match sessAt t e.1 with
    | none => t
    | some x =>
      if x.region ≠ r ∨ x.kind = 2 then t
      else
        let t1 := bumpSat t (pgVidEnt r + 0x40) e.2.2
        match x.cur with
        | none => t1
        | some (_, _, img) =>
          let l := min (e.2.1 / 8 * 8) (x.height - 8)
          if l ≤ x.l then t1
          else
            let y := { x with l := l }
            vidStatus (sessPut (vidLines t1 x img x.l l) y) y) s

/-- R384, R389: the unit in service is decoded: `verdict` 0 OK, 1 breaks the syntax, 2 unsupported; `keep` when its own picture is held for
output, `ref` its picture where it becomes the most recent reference. -/
def decodeDone (s : State) (n verdict : Nat) (keep : Bool) (ref : Option (List Byte)) : State :=
  match sessAt s n with
  | none => s
  | some x0 =>
    if x0.kind ≠ 0 || !running s then s
    else match x0.unit s with
      | none => { s with sess := s.sess.map (fun y => if y.stream = n then { y with cmds := y.cmds.drop 1 } else y) }
      | some c =>
        let s1 := vidFinish s n
        match sessAt s1 n with
        | none => s1
        | some x =>
          let ended := bit (opf c 18 1) 0
          let y := { x with
            cmds := x.cmds.drop 1, outs := 0, ref := ref.or x.ref
            held := if ended then [] else if keep then x.held ++ [opf c 40 8] else x.held }
          let s2 := sessPut s1 y
          if verdict = 0 then cmdDone s2 c stOk (x.outs + (x.f - x.outs) % 2 ^ 32 * 2 ^ 32)
          else cmdFail s2 c (if verdict = 1 then dVdSyntax else dVdUnsupported)

/-- R391: W(n) of the frame in service with `b` bits so far: whether it exceeds the cap. -/
def capMissed (x : Sess) (t b : Nat) : Bool :=
  let kbps := fld x.record 88 4
  let w := fld x.record 92 2
  kbps != 0 && decide (kbps * w < ((x.hist.filter (fun h => decide (t < h.2 + w * 1000000))).map (·.1)).sum + b)

/-- R392: the header of a chunk. -/
def chunkHeader (len frame capture idx flags : Nat) : List Byte :=
  leBytes 4 len ++ leBytes 4 frame ++ leBytes 8 capture ++ leBytes 2 idx ++ leBytes 1 flags ++ List.replicate 13 0#8

/-- R391 to R393: the last chunk of a frame is written: the frame is complete and its command ends. -/
def encodeDone (s : State) (x : Sess) (c : Cmd) (cap : Nat) (flags : Nat) (img : List Byte) : State :=
  let miss := capMissed x cap (8 * x.bytes)
  let intra := bit flags 1
  let s1 := if miss then bumpSat (vidRecord s x cap (flags + 4)) (x.page + 0x54) 1 else s
  let y := { x with
    cmds := x.cmds.drop 1, outs := 0, chunks := 0, bytes := 0, hist := x.hist ++ [(8 * x.bytes, cap)]
    sinceIntra := if intra then some 0 else x.sinceIntra.map (· + 1)
    ltr := if bit (opf c 18 1) 1 then (opf c 19 1, x.f) :: x.ltr.filter (fun e => e.1 != opf c 19 1) else x.ltr }
  cmdDone (vidFrameDone (vidLines (sessPut s1 y) y img x.l x.height) y cap) c stOk (x.bytes + b2n miss * 2 ^ 32)

/-- R392: the bytes of a chunk. -/
def chunkBytes (x : Sess) (cap flags : Nat) (payload : List Byte) : List Byte :=
  chunkHeader payload.length x.f cap x.chunks flags ++ payload ++ List.replicate (roundUp payload.length 32 - payload.length) 0#8

/-- R392: a chunk goes to its place in the ring, behind a PAD header of `pad` bytes. -/
def chunkPut (s : State) (x : Sess) (cap flags pad : Nat) (payload : List Byte) : State :=
  let pos := x.bsWritten % max x.bsBytes 1
  hputD (if pad = 0 then s else hputD s x.part (x.bsBase + pos) (chunkHeader 0 x.f cap x.chunks 8)) x.part (x.bsBase + (x.bsWritten + pad) % max x.bsBytes 1)
    (chunkBytes x cap flags payload)

/-- A session after a chunk of `n` payload bytes that takes `size` bytes of the ring. -/
def Sess.wrote (x : Sess) (size n : Nat) : Sess := { x with bsWritten := x.bsWritten + size, chunks := x.chunks + 1, bytes := x.bytes + n, full := false }

/-- R392: the flags of a chunk: LAST, INTRA, CAP_MISS. -/
def chunkFlags (x : Sess) (cap flags n : Nat) (last : Bool) : Nat := b2n last + (flags / 2 % 2) * 2 + b2n (capMissed x cap (8 * (x.bytes + n))) * 4

/-- R392: a chunk is written to the bitstream ring once it has room, after a PAD header where it would cross the end. -/
def encodeChunk (s : State) (n : Nat) (payload : List Byte) (last : Bool) : State :=
  match sessAt s n with
  | none => s
  | some x => match x.unit s, x.cur with
    | some c, some (cap, flags, img) =>
      let size := 32 + roundUp payload.length 32
      let pos := x.bsWritten % max x.bsBytes 1
      let pad := if x.bsBytes < pos + size then x.bsBytes - pos else 0
      if x.kind ≠ 1 || !running s then s
      else if x.bsBytes < x.bsWritten - x.consumed s + pad + size then sessPut s { x with full := true }
      else
        let y := x.wrote (pad + size) payload.length
        let s1 := vidStatus (sessPut (chunkPut s x cap (chunkFlags x cap flags payload.length last) pad payload) y) y
        if last then encodeDone s1 y c cap flags img else s1
    | _, _ => s

/-- R384: a mark of a raw stream: its line and its capture; the record of its frame is written with the first. -/
def markPut (s : State) (x : Sess) (lines cap : Nat) : State :=
  let y := { x with l := lines, cur := some (cap, 0, []) }
  vidStatus (sessPut (if x.cur.isNone then vidRecord s x cap 0 else s) y) y

/-- R384: STREAM_MARK. -/
def streamMark (s : State) (p q : Nat) : State :=
  match cmdNext s p q 0x64 with
  | none => s
  | some c =>
    match vidNamed s p c 2 with
    | .error e => cmdDone s c e.1 e.2
    | .ok x =>
      let lines := opf c 20 4
      if !operandsOk c [(16, 3), (20, 20)] || decide (1 < opf c 18 1) || decide (x.height < lines) then cmdFail s c dHqField
      else if opf c 24 8 ≠ x.f ∨ lines < x.l then cmdFail s c dVdMark
      else
        let cap := (x.cur.map (·.1)).getD (opf c 32 8)
        let s1 := markPut s x lines cap
      cmdDone (if bit (opf c 18 1) 0 then vidFrameDone s1 { x with l := lines, cur := some (cap, 0, []) } cap else s1) c stOk 0

/-- R383, R392: µs in which a session waits for RELEASED or for room in its bitstream ring. -/
def ringStallTick (s : State) (n : Nat) : State :=
  s.sess.foldl (fun t x =>
    if x.full || (!x.cmds.isEmpty && x.cur.isNone && decide (x.released t + x.frames ≤ x.f)) then
      bumpSat t (x.page + 0x4C) ((s.now + n) / 1000 - s.now / 1000)
    else t) s

end Sys2Proof.Machine
end

