-- ==== Sys2Proof/Machine/Scene.lean ====
section
/-!
DEFINITION. Machine/Scene.lean: the scene clock (R394 to R396), the timetable (R397 to R399), TTWAIT (R400), the opening and closing of
alignment groups and the closing of sessions (R385, R401, R404), the tokenizer (R407, R408).
Log entries that code here: 93 (DESIGN CHOICE, safe), 94 (DEDUCED, unsafe), 95 (DEDUCED, unsafe), 96 (DESIGN CHOICE, safe), 97 (DEDUCED,
unsafe), 127 (DEDUCED, unsafe).
-/

namespace Sys2Proof.Machine

/-! ### Conditions (R383, R398, R400) -/

/-- R383: frame f, line l of a stream is complete. -/
def lineHolds (s : State) (stream f l : Nat) : Bool :=
  match sessAt s stream with
  | none => false
  | some x => decide (f < x.f) || (x.f == f && decide (l < x.l))

/-! ### The timetable (R397 to R399) -/

def TEnt.trig (e : TEnt) : Nat := byteAt e.entry 16
def TEnt.action (e : TEnt) : Nat := byteAt e.entry 17
def TEnt.source (e : TEnt) : Nat := fld e.entry 18 2
def TEnt.repeat' (e : TEnt) : Nat := fld e.entry 32 8
def TEnt.tag (e : TEnt) : Nat := fld e.entry 52 4

/-- R398: an entry is due. -/
def ttDue (s : State) (e : TEnt) : Bool :=
  if e.trig = 0 then decide (e.at' ≤ sceneNow s)
  else if e.trig = 1 then lineHolds s e.source e.at' (fld e.entry 20 4)
  else decide (0 < e.sets)

/-- The result of a TT_ARM (R397, R399). -/
def TEnt.result (e : TEnt) : Nat := e.fires % 2 ^ 32 + e.lates % 2 ^ 16 * 2 ^ 32 + e.slot * 2 ^ 48 + e.bad % 64 * 2 ^ 58

/-- An entry ends with a status. -/
def ttEnd (s : State) (e : TEnt) (status : Nat) : State :=
  complete { s with tts := s.tts.filter (fun x => x.uid != e.uid) } e.part e.sq e.seq status e.result

/-- Ranges, sources and groups of a TT_ARM: 0 legal, else the status and detail. -/
def ttArmBad (s : State) (p : Nat) (c : Cmd) : Option (Nat × Nat) :=
  let b := c.entry
  let tr := byteAt b 16
  let ac := byteAt b 17
  let src := fld b 18 2
  let n := (partGet s p).cells.length
  let field := some (stFailedOperand, dTtField)
  if 2 < tr ∨ 2 < ac ∨ !zeroAt b 56 8 then field
  else if (tr = 0 ∧ src ≠ 0) ∨ (tr ≠ 1 ∧ fld b 20 4 ≠ 0) ∨ (tr = 2 ∧ (fld b 24 8 ≠ 0 ∨ 1 < fld b 32 8)) then field
  else if ac ≠ 0 && !zeroAt b 40 10 then field
  else if ac = 0 ∧ (fld b 42 2 = 0 ∨ n < fld b 40 2 + fld b 42 2 ∨ fld b 44 4 % 64 ≠ 0) then field
  else if ac ≠ 2 ∧ fld b 50 2 ≠ 0 then field
  else
    let stream := if tr = 1 then (match sessAt s src with
      | none => field
      | some x => if x.part ≠ p then some (stDenied, 0) else if x.height ≤ fld b 20 4 then field else none) else none
    let owned := fun (g : Nat) => match alnAt s g with
      | none => field
      | some x => if x.part ≠ p then some (stDenied, 0) else none
    stream.or ((if tr = 2 then owned src else none).or (if ac = 2 then owned (fld b 50 2) else none))

/-- Armed entries of a partition. -/
def ttArmed (s : State) (p : Nat) : Nat := (s.tts.filter (fun e => e.part == p)).length

/-- R414: a slot is free for the partition: within its reserve, or among the unreserved. -/
def ttRoom (s : State) (p : Nat) : Bool :=
  let res := (s.parts.map (fun x => x.2.ttRes)).sum
  let extra := (s.parts.map (fun x => ttArmed s x.1 - x.2.ttRes)).sum
  decide (s.tts.length < 1024) && (decide (ttArmed s p < (partGet s p).ttRes) || decide (extra < 1024 - res))

/-- R397: TT_ARM. -/
def ttArm (s : State) (p q : Nat) : State :=
  match cmdNext s p q 0x65 with
  | none => s
  | some c =>
    match ttArmBad s p c with
    | some e => cmdDone s c e.1 e.2
    | none =>
      if s.tts.any (fun e => e.part == p && e.tag == fld c.entry 52 4) then cmdFail s c dTtTag
      else if !ttRoom s p then cmdFail s c dTtFull
      else
        let slot := ((List.range 1024).find? (fun i => !s.tts.any (fun e => e.slot == i))).getD 0
        let e : TEnt := ⟨slot, s.ttUid, p, c.sq, c.seq, c.entry, fld c.entry 24 8, false, 0, 0, 0, 0⟩
        cmdStart { s with tts := s.tts ++ [{ e with late := e.trig != 2 && ttDue s e }], ttUid := s.ttUid + 1 } c

/-- R397: TT_DISARM. -/
def ttDisarm (s : State) (p q : Nat) : State :=
  match cmdNext s p q 0x66 with
  | none => s
  | some c =>
    if !operandsOk c [(16, 4)] then cmdFail s c dTtField
    else match s.tts.find? (fun e => e.part == p && e.tag == opf c 16 4) with
      | none => cmdFail s c dTtTag
      | some e => cmdDone (ttEnd s e stOk) c stOk 0

/-- R399: the action of an entry. -/
def ttAct (s : State) (e : TEnt) : State :=
  if e.action = 1 then stepRelease s e.part
  else if e.action = 2 then alnRelease s (fld e.entry 50 2)
  else
    let cells := (((partGet s e.part).cells.drop (fld e.entry 40 2)).take (fld e.entry 42 2))
    let s1 := cells.foldl (fun t c => jigPush t c ⟨fld e.entry 44 4, fld e.entry 48 2, .tt e.slot⟩) s
    { s1 with toccs := s1.toccs ++ [⟨e.slot, e.uid, fld e.entry 48 2, cells, false⟩] }

/-- R398: a firing is counted. -/
def ttCount (s : State) (late : Bool) : State := bumpSat (if late then bumpSat s (pgScl + 0x68) 1 else s) (pgScl + 0x64) 1

/-- Replace an armed entry. -/
def ttPut (s : State) (e : TEnt) : State := { s with tts := s.tts.map (fun x => if x.uid = e.uid then e else x) }

/-- R398: an entry that has advanced is late when it is already due. -/
def ttLate (s : State) (uid : Nat) : State :=
  { s with tts := s.tts.map (fun x => if x.uid = uid then { x with late := x.trig != 2 && ttDue s x } else x) }

/-- An entry after a firing. -/
def TEnt.fired (e : TEnt) : TEnt := { e with fires := e.fires + 1, lates := e.lates + b2n e.late, sets := e.sets - 1 }

/-- A repeating entry after a firing: its AT advances by its period. -/
def TEnt.advanced (e : TEnt) : TEnt := if e.trig = 2 then e.fired else { e.fired with at' := e.at' + e.repeat' }

/-- R398: one due entry fires, then ends or advances. -/
def ttFire (s : State) (uid : Nat) : State :=
  match s.tts.find? (fun e => e.uid == uid) with
  | none => s
  | some e =>
    if e.repeat' = 0 then ttAct (ttEnd (ttCount s e.late) e.fired stOk) e.fired
    else ttLate (ttAct (ttPut (ttCount s e.late) e.advanced) e.advanced) uid

/-- The due entries in slot order. -/
def ttOrder (l : List TEnt) : List TEnt :=
  (List.range 1024).flatMap (fun i => l.filter (fun e => e.slot == i))

/-- R398: one compare tick. -/
def ttTick (s : State) : State :=
  if !running s then s
  else (ttOrder (s.tts.filter (ttDue s))).foldl (fun t e => ttFire t e.uid) s

/-- R399: a notice of a cell returns to the timetable. -/
def ttNotice (s : State) (slot : Nat) (n : JigNotice) : State :=
  match s.toccs.find? (fun o => o.slot == slot && o.id == n.id && o.left.contains n.cell) with
  | none => s
  | some o =>
    let bad := n.status != stOk && !o.failed
    let o1 := { o with left := o.left.erase n.cell, failed := o.failed || n.status != stOk }
    let rest := fun (l : List TOcc) => if o1.left.isEmpty then l.erase o else l.map (fun x => if x = o then o1 else x)
    let s1 := { s with
      toccs := rest s.toccs
      tts := if bad then s.tts.map (fun e => if e.uid = o.uid then { e with bad := n.status } else e) else s.tts }
    if bad then bumpSat s1 (pgScl + 0x6C) 1 else s1

/-! ### TTWAIT (R400) -/

/-- R104 step 6 for a TTWAIT. -/
def ttwaitPlan (s : State) (c : Nat) (d : List Byte) : Plan :=
  let k := byteAt d 8
  let src := fld d 10 2
  let p := ownerOf s c
  let bad := if k = 1 then !((sessAt s src).elim false (fun x => some x.part == p))
    else if k = 2 then !((alnAt s src).elim false (fun x => some x.part == p)) else false
  ⟨[chkFmt (decide (2 < k)), chkZero (byteAt d 9 != 0), chkZero (k == 0 && src != 0), chkZero (k != 1 && fld d 12 4 != 0),
    chkZero (!zeroAt d 32 32), (bad, rUnitCheck, dTwSource)], [], [], [], [], [], []⟩

/-- R400: the condition of a TTWAIT holds. -/
def ttwaitHolds (s : State) (d : List Byte) : Bool :=
  let k := byteAt d 8
  let at' := fld d 16 8
  if k = 0 then decide (at' ≤ sceneNow s)
  else if k = 1 then lineHolds s (fld d 10 2) at' (fld d 12 4)
  else (alnAt s (fld d 10 2)).elim false (fun g => decide (g.first ≤ at' ∧ at' < g.k))

/-- R400: how a waiting TTWAIT ends now, if it does: OK, or TIMEOUT at its DEADLINE. -/
def ttwaitEnds (s : State) (d : List Byte) : Option Nat :=
  if ttwaitHolds s d then some stOk
  else if fld d 24 8 ≠ 0 ∧ fld d 24 8 ≤ sceneNow s then some stTimeout else none

/-- The waiting descriptor at the issue stage of a cell with an opcode. -/
def waitingAt (s : State) (c op : Nat) : Option RunDesc :=
  match (cellGet s c).run with
  | none => none
  | some jr => jr.issued.find? (fun r => dOp r.desc == op && r.phase == .waiting)

/-- R400: a waiting TTWAIT completes. -/
def ttwaitCheck (s : State) (c : Nat) : State :=
  match waitingAt s c 0x10 with
  | none => s
  | some r => match ttwaitEnds s r.desc with
    | some st => endWith s c r.idx st 0 0
    | none => s

/-- A TTWAIT issues: it completes at once or waits. -/
def ttwaitRun (s : State) (d : List Byte) : RunOut :=
  match ttwaitEnds s d with
  | some st => ⟨s, [], st, 0, 0, [], .ran⟩
  | none => ranWait s

/-- R385, R404: every TTWAIT of the given ones ends with a status. -/
def ttwaitCut (s : State) (which : List Byte → Bool) (status : Nat) : State :=
  s.cells.foldl (fun t e => match waitingAt t e.1 0x10 with
    | some r => if which r.desc then endWith t e.1 r.idx status 0 0 else t
    | none => t) s

/-! ### Closing (R385, R401, R404) -/

/-- End the timetable entries of the given ones. -/
def ttCut (s : State) (which : TEnt → Bool) (status : Nat) : State := (s.tts.filter which).foldl (fun t e => ttEnd t e status) s

/-- R385: a session closes: its commands, entries and waits end with a status; alignment groups miss it from then on. -/
def sessClose (s : State) (x : Sess) (status : Nat) : State :=
  let s1 := x.cmds.foldl (fun t c => complete t x.part c.1 c.2 status 0) { s with sess := s.sess.filter (fun y => y.stream != x.stream) }
  let s2 := ttCut s1 (fun e => e.trig == 1 && e.source == x.stream) status
  let s3 := ttwaitCut s2 (fun d => byteAt d 8 == 1 && fld d 10 2 == x.stream) status
  { s3 with aligns := s3.aligns.map (fun g => if g.members.contains x.stream then { g with gone := x.stream :: g.gone } else g) }

/-- R385: VID_CLOSE. -/
def vidClose (s : State) (p q : Nat) : State :=
  match cmdNext s p q 0x61 with
  | none => s
  | some c =>
    if !operandsOk c [(16, 2)] then cmdFail s c dHqField
    else match sessAt s (opf c 16 2) with
      | none => cmdFail s c dVdStream
      | some x => if x.part ≠ p then cmdDone s c stDenied 0 else cmdDone (sessClose s x stCancelledHost) c stOk 0

/-- R404: an alignment group closes. -/
def alnShut (s : State) (g : AGroup) (status : Nat) : State :=
  let s1 := ttCut { s with aligns := s.aligns.filter (fun x => x.id != g.id) }
    (fun e => (e.trig == 2 && e.source == g.id) || (e.action == 2 && fld e.entry 50 2 == g.id)) status
  ttwaitCut s1 (fun d => byteAt d 8 == 2 && fld d 10 2 == g.id) status

/-- R401: the fields of an alignment record. -/
def alnRecordOk (s : State) (p : Nat) (b : List Byte) : Bool :=
  let g : AGroup := ⟨0, p, b, 0, 0, []⟩
  let sets := fld b 40 4
  decide (fld b 0 4 = 0x414C4E47) && byteAt b 4 == 1 && decide (1 ≤ g.n ∧ g.n ≤ 16) &&
  decide (100000 ≤ g.period ∧ g.period ≤ 10000000000) && decide (1 ≤ g.tol) && decide (2 * g.tol < g.period) &&
  decide (g.tol ≤ g.window ∧ g.window ≤ 256000000) && fld b 32 8 % 256 == 0 && isPow2 sets && decide (4 ≤ sets ∧ sets ≤ 4096) &&
  zeroAt b 6 2 && zeroAt b 44 4 && zeroAt b (48 + 2 * g.n) (80 - 2 * g.n) &&
  (distinct g.members).length == g.n && g.members.all (fun m => (sessAt s m).elim false (fun x => x.part == p))

/-- R401: ALN_OPEN. -/
def alnOpen (s : State) (p q : Nat) : State :=
  match cmdNext s p q 0x67 with
  | none => s
  | some c =>
    let id := opf c 16 2
    if !operandsOk c [(16, 2), (24, 8)] || decide (63 < id) then cmdFail s c dAlRecord
    else match hget s p (opf c 24 8) 128 true with
      | (s1, 0, b) =>
        let phase := fld b 8 8
        let k := if sceneNow s1 < phase then 0 else (sceneNow s1 - phase) / fld b 16 8 + 1
        if !alnRecordOk s1 p b then cmdFail s1 c dAlRecord
        else if (hphys s1 p (fld b 32 8) (256 * fld b 40 4)).isNone then cmdDone s1 c stDenied 0
        else if (alnAt s1 id).isSome then cmdFail s1 c dAlGroup
        else cmdDone { s1 with aligns := s1.aligns ++ [⟨id, p, b, k, k, []⟩] } c stOk 0
      | (s1, r, _) => cmdDone s1 c (reasonStatus r) 0

/-- R404: ALN_CLOSE. -/
def alnClose (s : State) (p q : Nat) : State :=
  match cmdNext s p q 0x68 with
  | none => s
  | some c =>
    if !operandsOk c [(16, 2)] then cmdFail s c dAlGroup
    else match alnAt s (opf c 16 2) with
      | none => cmdFail s c dAlGroup
      | some g => if g.part ≠ p then cmdDone s c stDenied 0 else cmdDone (alnShut s g stCancelledHost) c stOk 0

/-! ### The scene clock (R394 to R396) -/

def sclSrc (s : State) : Nat := rbits s (pgScl + 8) 1 0
def sclGroup (s : State) : Nat := rbits s (pgScl + 8) 5 2
def sclLock (s : State) : Nat := rbits s (pgScl + 0xC) 1 0
def sclEvt (s : State) (ev : Nat) : State := raise s pgScl ev
def sclSetLock (s : State) (v : Nat) : State := rsetBits s (pgScl + 0xC) 1 0 v

/-- R394: `n` ns of the clock: what remains of the error is slewed by at most 1 ns in each µs. -/
def sclTick (s : State) (n : Nat) : State :=
  let k := (s.scl.acc + n) / 1000
  let s1 := { s with scl := { s.scl with acc := (s.scl.acc + n) % 1000 } }
  if s.scl.slew = 0 ∨ k = 0 then { s1 with sclTime := (s1.sclTime + n) % 2 ^ 64 }
  else
    let (v, s2) := freeBelow (min k s.scl.slew.natAbs + 1) s1
    let d : Int := if s.scl.slew < 0 then -(v : Int) else v
    { s2 with sclTime := ((s2.sclTime + n : Int) + d).toNat % 2 ^ 64, scl := { s2.scl with slew := s2.scl.slew - d } }

/-- R394: a step of the clock forward. -/
def sclStep (s : State) (v : Nat) : State :=
  if !s.tts.isEmpty || decide (v < s.sclTime) then sclEvt s 8 else sclEvt { s with sclTime := v, scl := { s.scl with slew := 0 } } 4

/-- R394, R395: a write of SCL_SET. -/
def sclSet (s : State) (v : Nat) : State :=
  let src := sclSrc s
  if src = 0 then sclStep s v
  else if src = 3 || !s.tts.isEmpty || decide (v < s.sclTime) then sclEvt s 8
  else { s with scl := { s.scl with setAt := some v } }

/-- R395: what the clock keeps of a measured error at time `t`: what is left to slew, and since when it has been under 20 ns. -/
def sclMark (s : State) (e : Int) (step : Bool) (t : Nat) : State :=
  { s with scl := { s.scl with heard := t, first := false, slew := if step then 0 else e, good := if e.natAbs < 20 then s.scl.good.or (some t) else none } }

/-- R394: the step of the first lock. -/
def sclJump (s : State) (e : Int) : State := sclEvt { s with sclTime := s.sclTime + e.toNat } 4

/-- R395: a source that is heard is acquired. -/
def sclAcquire (s : State) : State := if sclLock s = 0 ∨ sclLock s = 3 then sclSetLock s 1 else s

/-- R394, R395: an error of the clock is measured: the first lock steps forward where it may, every other error is slewed. -/
def sclError (s : State) (e : Int) : State :=
  let (r, s0) := freeVal s
  let s1 := rset (rset s0 (pgScl + 0x54) (ofSigned 32 e)) (pgScl + 0x58) r
  let step := s1.scl.first && decide (0 < e) && s1.tts.isEmpty
  let s2 := sclMark s1 e step s.now
  sclAcquire (if step then sclJump s2 e else s2)

/-- The error of the clock at a PPS edge: the nearest scene time ≡ SCL_PPS_PHASE mod 10^9. -/
def ppsError (t phase : Nat) : Int :=
  let d := (phase + 1000000000 - t % 1000000000) % 1000000000
  if d ≤ 500000000 then d else (d : Int) - 1000000000

/-- R395: a rising PPS edge: a waiting SCL_SET applies, or the error is measured. -/
def ppsEdge (s : State) : State :=
  if sclSrc s ≠ 1 ∧ sclSrc s ≠ 2 then s
  else match s.scl.setAt with
    | some v => sclStep { s with scl := { s.scl with setAt := none, heard := s.now } } v
    | none => sclError s (ppsError s.sclTime (rbits s (pgScl + 0x50) 29 0))

/-- R395: the source is lost: no edge for 1.5 s, TIMEREF_10M failed, no TIME for 10 ms, or the group down. -/
def sclLost (s : State) (ref10Failed : Bool) : State :=
  let src := sclSrc s
  let quiet := s.now - s.scl.heard
  let lost := if src = 3 then decide (10000000 ≤ quiet) || !lnkUp s (sclGroup s)
    else if src = 0 then false
    else decide (1500000000 ≤ quiet) || (src == 2 && ref10Failed)
  if lost && sclLock s != 3 && sclLock s != 0 then
    sclEvt (sclSetLock { s with scl := { s.scl with good := none, slew := 0 } } 3) 2
  else s

/-- R395: the error has stayed under 20 ns for 1 s. -/
def sclLocked (s : State) : State :=
  match s.scl.good with
  | some t => if sclLock s = 1 ∧ 1000000000 ≤ s.now - t then sclEvt (sclSetLock s 2) 1 else s
  | none => s

/-- R396: a TIME message arrives. -/
def timeReceive (s : State) (g : Nat) : State :=
  match rxTake s g (fun k => k.ty == pkTime) with
  | none => s
  | some ((k, arrival, _), s1) =>
    if sclSrc s1 ≠ 3 ∨ sclGroup s1 ≠ g then s1
    else
      let e : Int := (fld k.pay 0 8 : Int) + (rbits s1 (pgLnk g + 0x50) 23 0 : Int) - (arrival : Int)
      sclError (rset s1 (pgScl + 0x5C) ((byteAt k.pay 8 + 1) % 256)) e

/-- R396: a master sends TIME on every UP group other than its source group. -/
def timeSend (s : State) : State :=
  if !bit (rget s (pgScl + 8)) 6 || decide (s.now < s.scl.sentAt + 1000000) then s
  else
    let src := sclSrc s
    let depth := if src = 3 then rbits s (pgScl + 0x5C) 7 0 else 0
    let pay := leBytes 8 0 ++ leBytes 1 depth ++ leBytes 1 (b2n (sclLock s == 2)) ++ leBytes 6 0
    (List.range 16).foldl (fun t g =>
      if !lnkUp t g || (src == 3 && sclGroup s == g) then t else lnkNotice t g (notePkt t pkTime (lnkPeer t g) 0 pay))
      { s with scl := { s.scl with sentAt := s.now } }

/-- A write of SCL_CTRL: without a source the clock is FREE; a new one is acquired. -/
def sclCtrl (s : State) (v : Nat) : State :=
  let old := sclSrc s
  let s1 := rset s (pgScl + 8) (v % 128)
  if v % 4 = old then s1
  else sclSetLock { s1 with scl := { s1.scl with slew := 0, good := none, setAt := none, heard := s.now } } (if v % 4 = 0 then 0 else 1)

/-! ### The tokenizer (R407, R408) -/

/-- The entries of an image as (string, token). -/
def tkEntries (b : List Byte) : List (List Byte × Nat) :=
  let io := fld b 16 4
  let po := fld b 20 4
  (List.range (fld b 8 4)).map (fun i =>
    let a := io + 12 * i
    ((b.drop (po + fld b (a + 4) 4)).take (byteAt b (a + 8)), fld b a 4))

/-- R407: an image obeys its layout. -/
def tkOk (b : List Byte) : Bool :=
  let n := fld b 8 4
  let io := fld b 16 4
  let po := fld b 20 4
  let pb := fld b 24 4
  let len := fld b 28 4
  decide (fld b 0 4 = 0x4F4C5A44) && fld b 4 2 == 2 && zeroAt b 6 2 && decide (1 ≤ n ∧ n ≤ 1048576) && io % 16 == 0 && decide (64 ≤ io) &&
  decide (io + 12 * n ≤ len) && decide (po + pb ≤ len) && b.length == len && zeroAt b 36 28 &&
  fld b 32 4 == crc32c (b.drop 64) &&
  (List.range n).all (fun i =>
    let a := io + 12 * i
    let l := byteAt b (a + 8)
    decide (1 ≤ l ∧ l ≤ 64) && decide (fld b (a + 4) 4 + l ≤ pb) && zeroAt b (a + 9) 3) &&
  (let e := (tkEntries b).map (·.1)
   (e.zip (e.drop 1)).all (fun x => bytesLt x.1 x.2))

/-- R408: TOK_LOAD. -/
def tokLoad (s : State) (p q : Nat) : State :=
  match cmdNext s p q 0x69 with
  | none => s
  | some c =>
    let a := opf c 24 8
    if !operandsOk c [(16, 1), (24, 8)] || decide (15 < opf c 16 1) then cmdFail s c dHqField
    else match hget s p a 64 true with
      | (s1, 0, h) =>
        match hget s1 p a (fld h 28 4) true with
        | (s2, 0, b) =>
          if tkOk b then cmdDone { s2 with dicts := tabPut (fun _ => 2 ^ 64) s2.dicts (p * 16 + opf c 16 1) a } c stOk 0
          else cmdFail s2 c dTkDict
        | (s2, r, _) => cmdDone s2 c (reasonStatus r) 0
      | (s1, r, _) => cmdDone s1 c (reasonStatus r) 0

/-- R408: the longest entry that the input begins with. -/
def tkLongest (es : List (List Byte × Nat)) (b : List Byte) : Option (List Byte × Nat) :=
  es.foldl (fun m e => if e.1.isPrefixOf b && (m.elim 0 (·.1.length)) < e.1.length then some e else m) none

/-- R408: the tokens of an input, the bytes consumed and the unknown bytes. -/
def tkRun (es : List (List Byte × Nat)) (unk : Nat) : Nat → List Byte → List Nat × Nat × Nat → List Nat × Nat × Nat
  | 0, _, acc => acc
  | fuel + 1, b, (ts, n, u) =>
    if b.isEmpty then (ts, n, u)
    else match tkLongest es b with
      | some e => tkRun es unk fuel (b.drop e.1.length) (ts ++ [e.2], n + e.1.length, u)
      | none => tkRun es unk fuel (b.drop 1) (ts ++ [unk], n + 1, u + 1)

/-- R408: TOKENIZE. -/
def tokenize (s : State) (p q : Nat) : State :=
  match cmdNext s p q 0x6A with
  | none => s
  | some c =>
    let d := opf c 16 1
    let a := tabGet (fun _ => 2 ^ 64) s.dicts (p * 16 + d)
    if !operandsOk c [(16, 1), (24, 4), (32, 20)] || decide (15 < d) then cmdFail s c dHqField
    else if a = 2 ^ 64 then cmdFail s c dTkDict
    else match hget s p (opf c 32 8) (opf c 24 4) true with
      | (s1, 0, input) =>
        match hget s1 p a (fld (hpeek s1 p a 64) 28 4) true with
        | (s2, 0, b) =>
          if (hphys s2 p (opf c 40 8) (4 * opf c 48 4)).isNone then cmdDone s2 c stDenied 0
          else
            let (ts, n, u) := tkRun (tkEntries b) (fld b 12 4) (opf c 48 4) input ([], 0, 0)
            let (r, s3) := freeBelow 4 s2
            cmdDone (bumpSat (hputD s3 p (opf c 40 8) (ts.flatMap (leBytes 4))) (pgVidEnt r + 0x44) u) c stOk (ts.length + n * 2 ^ 32)
        | (s2, r, _) => cmdDone s2 c (reasonStatus r) 0
      | (s1, r, _) => cmdDone s1 c (reasonStatus r) 0

end Sys2Proof.Machine
end

