-- ==== Sys2Proof/Machine/Issue.lean ====
section
/-!
DEFINITION. Machine/Issue.lean: the descriptors of a cell at work: issue by opcode (R87, R88, R104), running (R122, R124),
multicast weight streams (R69), FENCE and barriers (R100, R101), timeouts (R82), overruns (R85, R424), completion (R88), and
the delivery of notices to whoever waits for them (R77, R79, R321).
Log entries that code here: 1 (DESIGN CHOICE, unsafe), 17 (DESIGN CHOICE, unsafe), 18 (DESIGN CHOICE, safe), 24 (DEDUCED, unsafe), 30
(DEDUCED, unsafe), 31 (DEDUCED, unsafe), 32 (DEDUCED, unsafe), 35 (DEDUCED, unsafe), 99 (DEDUCED, unsafe).
-/

namespace Sys2Proof.Machine

/-! ### Multicast groups of a block (R69) -/

/-- The group of an MMA that takes part in a multicast. -/
def mcKey (c : Nat) (d : List Byte) : Nat := c / 16 * 8 + (mmaOps d).group % 8
def mcGet (s : State) (k : Nat) : Mcast := tabGet (fun _ => ⟨0, none, [], none⟩) s.mcast k
def mcPut (s : State) (k : Nat) (x : Mcast) : State := { s with mcast := tabPut (fun _ => ⟨0, none, [], none⟩) s.mcast k x }

/-- The multicast MMA of cell `c` for group `k` in a phase. -/
def mcDesc (s : State) (k c : Nat) (ph : Phase) : Option RunDesc :=
  match (cellGet s c).run with
  | none => none
  | some jr => jr.issued.find? (fun r => r.phase == ph && dOp r.desc == 1 && decide (2 ≤ (mmaOps r.desc).bSrc) && mcKey c r.desc == k)

/-- What every MMA of a group must share (R69). -/
def mcSame (a b : List Byte) : Bool :=
  (mmaOps a).mask == (mmaOps b).mask && (mmaOps a).k == (mmaOps b).k && (tileOf a).n == (tileOf b).n &&
  (mmaOps a).bFmt == (mmaOps b).bFmt && (tileOf a).gang == (tileOf b).gang

/-- A cell leaves a group: MCAST_WITHDRAWN. -/
def mcLeave (s : State) (c : Nat) : State := raise s (pgArrays c) 0x200

/-- The result region of an MMA, as it was placed at issue. -/
def mmaOut (r : RunDesc) : List Region := [outRegion (tileOf r.desc) (dMasked r.desc) (r.aux == 1)]

/-- Cells whose values differ from the leader's fail once both have issued; the group keeps without them. -/
def mcCull (s : State) (k : Nat) : State :=
  let g := mcGet s k
  match g.leader.bind (fun l => mcDesc s k l .waiting) with
  | none => s
  | some ld => g.members.foldl (fun t c => match mcDesc t k c .waiting with
    | none => t
    | some r =>
      if mcSame ld.desc r.desc then t
      else
        let x := mcGet t k
        putRun c r.idx (ranFail (mcLeave (mcPut t k { x with mask := setBits x.mask (c % 16) (c % 16) 0, members := x.members.filter (· != c) }) c)
          [] rMcastMismatch 0 [])) s

/-- R69: an MMA issues for its group and waits for the stream. -/
def mcJoin (s : State) (c : Nat) (r : RunDesc) : State :=
  let k := mcKey c r.desc
  let g := mcGet s k
  let lead := (mmaOps r.desc).bSrc == 3 && g.leader.isNone
  mcCull (mcPut (putRun c r.idx (ranWait s)) k { g with
    members := g.members ++ [c], leader := if lead then some c else g.leader, mask := if lead then (mmaOps r.desc).mask else g.mask }) k

/-- R69: the group dissolves: every other cell that has issued for it completes with TIMEOUT. -/
def mcDissolve (s : State) (k c : Nat) : State :=
  let g := mcGet s k
  (g.members.filter (· != c)).foldl (fun t x => match mcDesc t k x .waiting with
    | none => t
    | some r => endWith (mcLeave t x) x r.idx stTimeout rWaitTimeout 0) (mcPut s k ⟨0, none, [], g.stream⟩)

/-- A stream of the group still runs. -/
def mcBusy (s : State) (k : Nat) : Bool := ((mcGet s k).stream.bind (fun l => mcDesc s k l .ran)).isSome

/-- What an MMA reads at run: the regions of R114. -/
def mmaRunPlan (r : RunDesc) : Plan :=
  ⟨[], [], [], [], [], mmaReads r.desc ++ initRegion (tileOf r.desc), mmaOut r⟩

/-- R69: the stream starts when every cell that remains in the mask has issued, and no stream of the group runs. -/
def mcStart (s : State) (k : Nat) : State :=
  let g := mcGet s k
  match g.leader with
  | none => s
  | some l =>
    match mcDesc s k l .waiting with
    | none => s
    | some ld =>
      if mcBusy s k || !(maskBits 16 g.mask).all (fun i => g.members.contains (k / 8 * 16 + i)) then s
      else match readEcc s l (mmaRunPlan ld).reads with
        | (s1, false) => mcDissolve (putRun l ld.idx (ranFail (mcLeave s1 l) [] rEccUncorr 0 (mmaOut ld))) k l
        | (s1, true) =>
          let o := mmaOps ld.desc
          g.members.foldl (fun t c => match mcDesc t k c .waiting with
            | none => t
            | some r => putRun c r.idx (withReads t c (if c = l then ⟨[], [], [], [], [], [], mmaOut r⟩ else mmaRunPlan r) (fun u =>
                mmaFinish u c l o.bAddr o.bPitch (r.aux == 1) r.desc))) (mcPut s1 k ⟨0, none, [], some l⟩)

/-! ### FENCE and barriers (R100, R101) -/

def fcScope (d : List Byte) : Nat := byteAt d 8
def fcBarrier (d : List Byte) : Bool := bit (fcScope d) 5
def fcMask (d : List Byte) : Nat := fld d 10 2

/-- R104 step 6 for a FENCE. -/
def fcPlan (c : Nat) (d : List Byte) : Plan :=
  ⟨[ chkFmt (fcScope d == 0), chkZero (decide (64 ≤ fcScope d)), chkZero (!fcBarrier d && byteAt d 9 != 0),
     chkShape (fcBarrier d && decide (8 ≤ byteAt d 9)), chkShape (fcBarrier d && !bit (fcMask d) (c % 16)),
     chkZero (!zeroAt d 16 48) ], [], [], [], [], [], []⟩

def barKey (c : Nat) (d : List Byte) : Nat := c / 16 * 8 + byteAt d 9 % 8
def barGet (s : State) (k : Nat) : Barrier := tabGet (fun _ => ⟨0, []⟩) s.barriers k
def barPut (s : State) (k : Nat) (x : Barrier) : State := { s with barriers := tabPut (fun _ => ⟨0, []⟩) s.barriers k x }

/-- R101: a FENCE issues; an unequal mask fails it and it does not join. -/
def fcRun (s : State) (c : Nat) (d : List Byte) : RunOut :=
  let k := barKey c d
  let b := barGet s k
  if !fcBarrier d then ranWait s
  else if b.arrived ≠ [] ∧ b.mask ≠ fcMask d then ranFail s [] rBarrierMismatch 0 []
  else ranWait (barPut s k ⟨fcMask d, b.arrived ++ [c]⟩)

/-- The bit of SCOPE that selects a unit. -/
def scopeBit : CUnit → Nat
  | .arrays => 0 | .vector => 1 | .sfu => 2 | .port => 3 | .issue => 6

/-- R100: every earlier descriptor of the jig on a selected unit has completed; VISIBLE also waits for the transfer port's
writes. -/
def fcLocal (s : State) (c : Nat) (r : RunDesc) : Bool :=
  match (cellGet s c).run with
  | none => false
  | some jr => !(jr.issued.any (fun q => decide (q.idx < r.idx) && (opUnits (dOp q.desc)).any (fun u =>
      bit (fcScope r.desc) (scopeBit u) && u != .issue || (bit (fcScope r.desc) 4 && u == .port))))

/-- R100, R101: a waiting FENCE completes once its conditions hold; the cells of a barrier complete together. -/
def fcComplete (s : State) (c : Nat) : State :=
  match waitingAt s c 0x0F with
  | none => s
  | some r =>
    if !fcLocal s c r then s
    else if !fcBarrier r.desc then endWith s c r.idx stOk 0 0
    else
      let k := barKey c r.desc
      let b := barGet s k
      let all := (maskBits 16 b.mask).map (fun i => c / 16 * 16 + i)
      if all.all (fun x => b.arrived.contains x && (waitingAt s x 0x0F).elim false (fcLocal s x)) then
        all.foldl (fun t x => match waitingAt t x 0x0F with
          | none => t
          | some q => endWith t x q.idx stOk 0 0) (barPut s k ⟨0, []⟩)
      else s

/-- R101: a cell leaves its barrier, which dissolves: every cell still waiting at it completes with TIMEOUT. -/
def barDissolve (s : State) (c : Nat) (r : RunDesc) : State :=
  let k := barKey c r.desc
  let b := barGet s k
  if !fcBarrier r.desc || !b.arrived.contains c then s
  else (b.arrived.filter (· != c)).foldl (fun t x => match waitingAt t x 0x0F with
    | none => t
    | some q => endWith t x q.idx stTimeout rWaitTimeout 0) (barPut s k ⟨0, []⟩)

/-! ### Leaving a group before its end (R69, R101, R190) -/

/-- A waiting descriptor of a cell is about to end on its own: its group dissolves. -/
def leaveGroups (s : State) (c : Nat) (r : RunDesc) : State :=
  if r.phase ≠ .waiting then s
  else if dOp r.desc = 0x0F then barDissolve s c r
  else if dOp r.desc = 0x03 ∧ atGroup r.desc then splitDissolve s c r
  else if dOp r.desc = 0x01 then
    let k := mcKey c r.desc
    if (mcGet s k).members.contains c then mcDissolve (mcLeave s c) k c else s
  else s

/-! ### Running (R122, R124) -/

/-- The issue plan of the next descriptor (R104). -/
def planOf (s : State) (c : Nat) (jr : JigRun) (d : List Byte) : Plan :=
  match dOp d with
  | 0x01 => mmaPlan c jr d
  | 0x02 => convPlan s c d
  | 0x03 => attnPlan s c d
  | 0x04 => rstepPlan s c d
  | 0x05 => vprogPlan s c d
  | 0x06 => sfuPlan s c d
  | 0x07 => statPlan d
  | 0x08 => softmaxPlan d
  | 0x09 => gsPlan s c d
  | 0x0A => gsPlan s c d
  | 0x0B => segPlan d
  | 0x0C => sortPlan d
  | 0x0D => mitrePlan jr d
  | 0x0E => bargePlan d
  | 0x0F => fcPlan c d
  | 0x10 => ttwaitPlan s c d
  | 0x11 => rngPlan d
  | 0x12 => cropPlan d
  | 0x13 => movePlan s c d
  | 0x14 => movePlan s c d
  | 0x15 => fencePlan d
  | _ => ⟨[], [], [], [], [], [], []⟩

/-- Start an issued descriptor: it computes its results, or waits on another unit. -/
def runDesc (s : State) (c : Nat) (r : RunDesc) : State :=
  let d := r.desc
  let ps := producerStatus s c r
  let go := fun (p : Plan) (f : State → RunOut) => putRun c r.idx (withReads s c p f)
  if ps ≠ 0 then putRun c r.idx ⟨s, [], ps, 0, 0, [], .ran⟩
  else match dOp d with
  | 0x01 =>
    if 2 ≤ (mmaOps d).bSrc then mcJoin s c r
    else go (mmaRunPlan r) (fun t => mmaFinish t c c (mmaOps d).bAddr (mmaOps d).bPitch (r.aux == 1) d)
  | 0x02 => go (convPlan s c d) (fun t => convRun t c d)
  | 0x03 => if atGroup d then splitJoin s c r else go (attnPlan s c d) (fun t => attnRun t c d)
  | 0x04 => go (rstepPlan s c d) (fun t => rstepRun t c d)
  | 0x05 => go (vprogPlan s c d) (fun t => vprogRun t c d)
  | 0x06 => go (sfuPlan s c d) (fun t => sfuRun t c d)
  | 0x07 => go (statPlan d) (fun t => statRun t c d)
  | 0x08 => go (softmaxPlan d) (fun t => softmaxRun t c d)
  | 0x0D => go ⟨[], [], [], [], [], [mitreParts d] ++ initRegion (tileOf d) ++
      (if (tileOf d).round = 1 then [flat .bench (tileOf d).roundCtx 32] else []), mmaOut r⟩ (fun t => mitreRun t c (r.aux == 1) d)
  | 0x0E => putRun c r.idx (bargeRun s c r.idx d)
  | 0x0F => putRun c r.idx (fcRun s c d)
  | 0x10 => putRun c r.idx (ttwaitRun s d)
  | 0x11 => go (rngPlan d) (fun t => rngRun t c d)
  | 0x12 => go (cropPlan d) (fun t => cropRun t c d)
  | 0x13 => go (movePlan s c d) (fun t => saveRun t c d)
  | 0x14 => go (movePlan s c d) (fun t => loadRun t c d)
  | 0x15 => putRun c r.idx (fenceRun s c d)
  | _ => putRun c r.idx (ranWait s)

/-- R88, R122: start every issued descriptor of a cell that may start. -/
def pump (c : Nat) : Nat → State → State
  | 0, s => s
  | fuel + 1, s => match startable s c with
    | none => s
    | some r => pump c fuel (runDesc s c r)

/-- Everything that follows at once in the cells: descriptors start, failures at issue complete, jigs end. -/
def quiesce (s : State) : State :=
  (s.cells.map (·.1)).foldl (fun t c => if (cellGet t c).mode = .normal then settleEnd (pump c 12 t) c else t) s

/-! ### Delivery of notices (R77, R79, R321) -/

/-- A jig's notice reaches the unit that pushed it. -/
def jigTold (s : State) (n : JigNotice) : State :=
  match n.pusher with
  | .reg _ => s
  | .seqr p => stepNotice s p n
  | .tt slot => ttNotice s slot n
  | .col p g => colNotice s p g n
  | .keeper => s
  | .cmd p q seq => hostJigNotice s p q seq n

/-- A barge's end reaches its originator (R321). -/
def bargeTold (s : State) (n : BargeNotice) : State :=
  match n.origin with
  | .stream c e => streamBargeNotice s c e n
  | .cmd p q seq => hostBargeNotice s p q seq n
  | _ => s

/-- Deliver what waits, and let the cells go on. -/
def deliver : Nat → State → State
  | 0, s => s
  | fuel + 1, s =>
    let s1 := quiesce s
    let s2 := s1.notices.foldl jigTold { s1 with notices := [] }
    let s3 := s2.bargeNotices.foldl bargeTold { s2 with bargeNotices := [] }
    let s4 := (s3.rolls.map (·.1)).foldl stage8End s3
    if s1.notices.isEmpty && s1.bargeNotices.isEmpty then s4 else deliver fuel s4

/-- What follows at once from a command. -/
def after (s : State) : State := deliver 4 s

/-! ### The descriptor rows (R88, R104) -/

/-- R88: descriptor `op` issues at cell `c`, if it is next to issue and nothing holds it. -/
def issueDesc (s : State) (c op : Nat) (ecc : Ecc) : State :=
  let s0 := eccIn s ecc
  match nextOp s0 c op with
  | none => s0
  | some (jr0, d) =>
    let s1 := noteLock s0 c jr0 d
    let jr := ((cellGet s1 c).run).getD jr0
    let p := planOf s1 c jr d
    match issueTest s1 c jr d p (dtChecks jr d p.results) with
    | .stay => s1
    | .fail r det => after (failNext s1 c jr d (reasonStatus r) r det)
    | .go => after (takeIssue s1 c jr d (if op = 0x15 then b2n (!lfRestart d) else b2n (dtToMma jr d)))

/-! ### Completion, timeouts, overruns (R82, R85, R88, R424) -/

/-- R88: descriptor `idx` of a cell completes, once it has run and every earlier entry of its units has completed. -/
def descComplete (s : State) (c idx : Nat) : State :=
  match (cellGet s c).run with
  | none => s
  | some jr => match jr.issued.find? (fun r => r.idx == idx) with
    | none => s
    | some r => if completable jr.issued r && (cellGet s c).mode == .normal then after (completeIdx s c idx) else s

/-- The limit of a waiting descriptor (R82, R100). -/
def waitLimit (s : State) (c : Nat) (d : List Byte) : Nat :=
  if dOp d = 0x0F ∧ fld d 12 4 ≠ 0 then fld d 12 4 else rget s (pgCel c + 0x44)

/-- The issued descriptor of a cell that R82 limits and that has waited too long. -/
def waitedTooLong (s : State) (c : Nat) : Option RunDesc :=
  match (cellGet s c).run with
  | none => none
  | some jr => jr.issued.find? (fun r => r.phase == .waiting &&
      (dOp r.desc == 0x0F || dOp r.desc == 0x01 || (dOp r.desc == 0x03 && atGroup r.desc)) &&
      decide (waitLimit s c r.desc < cyclesOf (s.now - r.since)))

/-- R82: a descriptor that waits at its WAIT_SEM beyond the limit. -/
def semTooLong (s : State) (c : Nat) : Option (JigRun × List Byte) :=
  match (cellGet s c).mode, (cellGet s c).run with
  | .normal, some jr => match jr.fetched with
    | d :: _ =>
      if s.stop.isNone && !jr.trap && !jr.halt && issueStageFree jr && !semReady s c d &&
          decide (rget s (pgCel c + 0x44) < cyclesOf (s.now - jr.waitSince)) then some (jr, d) else none
    | [] => none
  | _, _ => none

/-- R69, R82, R101, R190: a wait longer than its limit ends with TIMEOUT. -/
def waitTimeout (s : State) (c : Nat) : State :=
  match waitedTooLong s c with
  | some r => after (endWith (leaveGroups (raise s (pgCel c) 0x20) c r) c r.idx stTimeout rWaitTimeout 0)
  | none => match semTooLong s c with
    | some (jr, d) => after (failNext (raise s (pgCel c) 0x20) c jr d stTimeout rWaitTimeout 0)
    | none => s

/-- A descriptor has run 2^BOUND cycles and is not yet recorded (R85). -/
def overruns (s : State) (r : RunDesc) : Bool :=
  !r.overrun && dBound r.desc != 0 && decide (2 ^ dBound r.desc ≤ cyclesOf (s.now - r.issued))

/-- R85: its cell records it, once. -/
def overrunCell (s : State) (c idx : Nat) : State :=
  updIssued (raise (bumpSat s (pgCel c + 0x4C) 1) (pgCel c) 4) c idx (fun q => { q with overrun := true })

/-- R424: the partition records it; the first since the event was cleared with the cell, TAG and jig. -/
def overrunPart (s : State) (p c tag jig : Nat) : State :=
  let pg := pgPartId p
  let s1 := if bit (rget s (pg + 0x10)) 0 then s
    else rset (rset s (pg + 0x4C) (c % 1024 + tag * 2 ^ 16)) (pg + 0x50) (jig % 65536)
  raise (raise (bumpSat s1 (pg + 0x48) 1) pg 1) pgPrt 8

/-- R85, R424: a descriptor still running 2^BOUND cycles after issue: its cell and its partition record it once. -/
def descOverrun (s : State) (c : Nat) : State :=
  match (cellGet s c).run with
  | none => s
  | some jr => match jr.issued.find? (overruns s) with
    | none => s
    | some r => match ownerOf s c with
      | none => overrunCell s c r.idx
      | some p => overrunPart (overrunCell s c r.idx) p c (dTag r.desc) jr.jig.id

/-! ### LAYER_FENCE, TTWAIT, GSU and multicast rows -/

/-- R69: the block router starts the stream of group `k` of a block. -/
def mcastRow (s : State) (b g : Nat) (ecc : Ecc) : State := after (mcStart (eccIn s ecc) (b * 8 + g))

/-- R247: the GSU of a block grants its next descriptor. -/
def gsuRow (s : State) (b : Nat) (ce ue : Bool) (ecc : Ecc) : State := after (gsuGrant (eccIn s ecc) b ce ue)

/-- R100: a FENCE that may complete does. -/
def fenceRow (s : State) (c : Nat) : State := after (fcComplete s c)

/-! ### Jigs (R76 to R79, R106) -/

/-- R106: CEL_CTRL.RESUME takes a cell out of TRAPPED. -/
def celResume (s : State) (c : Nat) : State :=
  let x := cellGet s c
  if x.mode = .trapped then cellPut s c { x with mode := .normal } else s

/-- R107: a parity error: 0 arrays, 1 vector engine, 2 special-function unit. -/
def parityError (s : State) (c : Nat) (lane : Bool) : State :=
  let s1 := if lane then raise s (pgVector c) 0x1000 else raise s (pgArrays c) 0x1000
  if (cellGet s1 c).mode = .faulted then s1 else cellFault s1 c

end Sys2Proof.Machine
end

