-- ==== Sys2Proof/Machine/Resets.lean ====
section
/-!
DEFINITION. Machine/Resets.lean: unit faults and their escalation (R514, R515), the reset scopes of a cell, a block and a
region (R527 to R530), fatal causes (R517), the stop of the module and its walk (R299 to R301, R501, R518 to R520).
Log entries that code here: 32 (DEDUCED, unsafe), 61 (DEDUCED, unsafe), 74 (DEDUCED, unsafe), 99 (DEDUCED, unsafe), 100 (DEDUCED, unsafe),
101 (DEDUCED, unsafe), 102 (DEDUCED, unsafe), 103 (DEDUCED, unsafe), 104 (DEDUCED, unsafe).
-/

namespace Sys2Proof.Machine

/-! ### Cell scope (R527) -/

/-- The barges that a cell's descriptors and stream engine launched. -/
def ofCell (c : Nat) (b : Barge) : Bool := match b.origin with
  | .cell x _ => x == c
  | .stream x _ => x == c
  | _ => false

/-- R330, R431: barges not yet accepted complete with a status; those in flight are cut. -/
def cutBarges (s : State) (which : Barge → Bool) (status : Nat) : State :=
  let s1 := (s.bargeWait.filter which).foldl (fun t b => bargeFinish t b status 0) s
  (s1.barges.filter which).foldl (fun t b => bargeCut t b status) s1

/-- End every issued descriptor of a cell but those whose barge is in flight, with a status: results as R104 allows. -/
def cutDescs (s : State) (c status : Nat) : State :=
  match (cellGet s c).run with
  | none => s
  | some jr => (jr.issued.filter (fun r => r.phase != .barged)).foldl (fun t r =>
      match issuedAt t c r.idx with
      | none => t
      | some q => endWith (unwind q.undo (leaveGroups t c q)) c r.idx status 0 0) s

/-- A reset of the cell begins: it issues nothing, its descriptors end, its barges are cut. -/
def cellBegin (s : State) (c : Nat) : State :=
  let s1 := cellPut s c { cellGet s c with mode := .resetting }
  cutBarges (cutDescs s1 c stCancelledReset) (ofCell c) stCancelledReset

/-- No barge of the cell is still landing. -/
def cellDrained (s : State) (c : Nat) : Bool := !(s.barges.any (ofCell c)) && !(s.bargeWait.any (ofCell c))

/-- The jigs of a cell: the running one, those queued behind it, those held by the towpath. -/
def cellJigs (x : Cell) : List Jig := x.queue ++ x.held

/-- Write as zeros the bench and accumulator units of a cell that hold an uncorrectable error (R527). -/
def eccClear (s : State) (c : Nat) : State :=
  let mine := fun (k : Mark) => (k.sp == .bench || k.sp == .acc) && !k.never && decide (32768 * c ≤ k.lo) && decide (k.hi ≤ 32768 * (c + 1))
  { s with mems := (s.mems.marks.filter mine).foldl (fun m k => memsZero m k.sp (32 * k.lo) (32 * (k.hi - k.lo))) s.mems }

/-- The state region of a cell becomes zeros (R205). -/
def stateClear (s : State) (c : Nat) : State :=
  { s with mems := memsScrub s.mems .acc (accA c (accLimit s c)) (0x38000 - accLimit s c) false }

/-- Semaphores of a cell to 0. -/
def semClear (s : State) (c : Nat) : State := (List.range 64).foldl (fun t n => rset t (semAddr c n) 0) s

/-- R527: what a cell reset clears, once its barges have landed; its jigs end with CANCELLED_RESET. -/
def cellFinish (s : State) (c : Nat) : State :=
  let x := cellGet s c
  let bad := (x.run.map (·.failed)).getD 0
  let told := (cellJigs x).mapIdx (fun i j => (⟨c, j.pusher, j.id, if i = 0 ∧ x.run.isSome then bad else 0, stCancelledReset⟩ : JigNotice))
  let s1 := cellPut s c cellInit
  let s2 := eccClear (stateClear (semClear (cacheDrop (strmPut s1 c strmInit) c) c) c) c
  { s2 with notices := s2.notices ++ told }

/-! ### Scopes -/

/-- The cells of a unit. -/
def UnitRef.cells : UnitRef → List Nat
  | .cell c => [c]
  | .block b => (List.range 16).map (16 * b + ·)
  | .region r => (List.range 256).map (256 * r + ·)

/-- The blocks of a unit that are reset whole. -/
def UnitRef.blocks : UnitRef → List Nat
  | .cell _ => []
  | .block b => [b]
  | .region r => (List.range 16).map (16 * r + ·)

/-- One scope covers another (R529). -/
def UnitRef.covers (u v : UnitRef) : Bool := match u, v with
  | .cell a, .cell b => a == b
  | .block a, .cell b => a == b / 16
  | .block a, .block b => a == b
  | .region a, .cell b => a == b / 256
  | .region a, .block b => a == b / 16
  | .region a, .region b => a == b
  | _, _ => false

/-- The key of a unit in `lastReset`: a cell by its number, block b at 1024 + b, region r at 1088 + r. -/
def UnitRef.key : UnitRef → Nat
  | .cell c => c
  | .block b => 1024 + b
  | .region r => 1088 + r

/-- The error page of a unit, its reset scope in the log (R526). -/
def UnitRef.page : UnitRef → Nat
  | .cell c => pgCelErr c
  | .block b => pgBlkErr b
  | .region r => pgRgnErr r
def UnitRef.scope : UnitRef → Nat
  | .cell _ => 1
  | .block _ => 2
  | .region _ => 3

/-- R527: the tables of a block: multicast groups, barriers, split groups; the router routes again; its Locks open OUT. -/
def blockClear (s : State) (b : Nat) : State :=
  let s1 := { s with
    mcast := tabClear (8 * b) (8 * b + 8) s.mcast, barriers := tabClear (8 * b) (8 * b + 8) s.barriers
    splits := tabClear (8 * b) (8 * b + 8) s.splits, locks := tabClear (16 * b) (16 * b + 16) s.locks }
  rsetBits s1 (pgBlk b + 0xC) 0 0 1

/-- R528: a region's fence: its register window goes dark, FENCED is raised and logged. -/
def fenceRegion (s : State) (r : Nat) : State :=
  let s1 := rsetBits { s with dark := if s.dark.contains r then s.dark else r :: s.dark } (pgRgn r + 0xC) 2 2 1
  logErr (raise s1 pgErr 4) pgErr 2 0

/-- R527: the outstanding commands of a region's sessions end; the sessions stay, and conceal until an intra picture. -/
def regionVideo (s : State) (r : Nat) : State :=
  (s.sess.filter (fun x => x.region == r && x.kind != 2)).foldl (fun t x =>
    let t1 := x.cmds.foldl (fun u c => complete u x.part c.1 c.2 stCancelledReset 0) t
    sessPut t1 { x with cmds := [], held := [], cur := none, ref := none, conceal := x.kind == 0 }) s

/-- R527, R528: a region reset begins beyond its blocks: the engines' barges are cut, the video engines cleared, the region controller restarts,
the lane groups go down with DOWN_CAUSE 9. -/
def regionBegin (s : State) (r : Nat) : State :=
  let s1 := regionVideo (cutBarges (fenceRegion s r) (fun b => b.engine / 8 == r) stCancelledReset) r
  let s2 := bumpSat (rsetBits s1 (pgRgn r + 0xC) 1 0 1) (pgRgn r + 0x44) 1
  (List.range 4).foldl (fun t i => lnkDown t (4 * r + i) 9) s2

/-- R527: a reset of a scope begins. One of a wider scope covers it already: it is absorbed (R529). Narrower resets under it are absorbed
by it. -/
def resetBegin (s : State) (u : UnitRef) (byCmd : Bool) : State :=
  if s.stop.isSome then s
  else if s.uresets.any (fun x => x.unit.covers u) then
    { s with uresets := s.uresets.map (fun x => if x.unit.covers u then { x with byCmd := x.byCmd || byCmd } else x) }
  else
    let under := s.uresets.filter (fun x => u.covers x.unit)
    let s1 := { s with uresets := s.uresets.filter (fun x => !(u.covers x.unit)) ++ [⟨u, byCmd || under.any (·.byCmd)⟩] }
    let s2 := u.blocks.foldl blockClear s1
    let s3 := match u with
      | .region r => regionBegin s2 r
      | _ => s2
    u.cells.foldl cellBegin s3

/-- R527: the scope of a reset has drained. -/
def resetDrained (s : State) (u : UnitRef) : Bool :=
  u.cells.all (cellDrained s) && match u with
  | .region r => !(s.barges.any (fun b => b.engine / 8 == r))
  | _ => true

/-- R528: the fence of a region opens. -/
def fenceOpen (s : State) (r : Nat) : State :=
  let s1 := rset { s with dark := s.dark.filter (· != r) } (pgRgn r + 0xC) 0
  raise (summarise s s1) (pgRgn r) 2

/-- R528: at the end of a region's reset its fence opens. -/
def scopeOpen (s : State) (u : UnitRef) : State :=
  match u with
  | .region r => fenceOpen s r
  | _ => s

/-- R527, R528: a reset completes once its scope has drained. -/
def resetFinish (s : State) (u : UnitRef) : State :=
  match s.uresets.find? (fun x => x.unit == u) with
  | none => s
  | some x =>
    if !resetDrained s u then s
    else
      let s1 := u.cells.foldl cellFinish { s with uresets := s.uresets.filter (fun y => y.unit != u) }
      let s2 := scopeOpen s1 u
      let s3 := raise (raise s2 u.page 4) pgErr 0x10
      let keep := s3.lastReset.filter (fun e => !((u.cells.map (fun c => UnitRef.key (.cell c)) ++ u.blocks.map (fun b => UnitRef.key (.block b))).contains e.1))
      let s4 := { s3 with lastReset := tabPut (fun _ => 0) keep u.key (s3.now + 1) }
      let s5 := logErr s4 pgErr 4 u.scope
      let s6 := if x.byCmd then rset s5 (pgErr + 0x4C) stOk else s5
      after s6

/-- R530: a write of ERR_RESET. -/
def errReset (s : State) (v : Nat) : State :=
  let op := v % 4
  let t := bits v 25 16
  let u := if op = 1 then UnitRef.cell t else if op = 2 then .block t else .region t
  let reg := if op = 1 then t / 256 else if op = 2 then t / 16 else t
  let refuse := fun (st : Nat) => raise (rsetBits s (pgErr + 0x4C) 7 0 st) pgErr 0x20
  if op = 0 then s
  else if bit (rget s (pgErr + 0x4C)) 8 then refuse stDenied
  else if (devState s ≠ dvConfigured ∧ devState s ≠ dvRunning) ∨ s.stop.isSome then refuse stDenied
  else if (op = 2 ∧ 64 ≤ t) ∨ (op = 3 ∧ 4 ≤ t) then refuse stDenied
  else if bit (rget s (pgPwr + 0x74)) reg then refuse stDomainOff
  else after (resetBegin (rset s (pgErr + 0x4C) 0x100) u true)

/-! ### Fatal causes (R517) -/

/-- R300, R517, R518: a cause that stops the module. The first starts the stop; a later one is logged only. -/
def stopCause (s : State) (cause level inst status : Nat) (lost : Bool) : State :=
  let s0 := logErr s pgErr 3 0
  if s.stop.isSome ∨ s.cold ∨ devState s = dvFaulted ∨ devState s = dvDumped then s0
  else
    let s1 := rset s0 (pgErr + 0x40) (cause + level % 4 * 2 ^ 8 + inst % 65536 * 2 ^ 16)
    let s2 := { s1 with stop := some ⟨cause, level, inst, status, s.sclTime, devState s, 0, 0, 0, lost, false, [], [], []⟩ }
    if cause = 6 ∨ cause = 7 then s2 else raise (rsetBits s2 (pgErr + 0xC) 0 0 1) pgErr 8

/-- A fatal error (R518). -/
def fatal (s : State) (cause level inst : Nat) : State := stopCause s cause level inst stFailedDevice false

/-- R517: FORCE_FATAL, from the host PF in CONFIGURED or RUNNING. -/
def forceFatal (s : State) : State :=
  if devState s = dvConfigured ∨ devState s = dvRunning then fatal s 8 3 0 else s

/-- R517: the Keeper has not serviced the hub watchdog: the boot ROM restarts it in fatal mode. -/
def watchdog (s : State) : State :=
  if s.cold ∨ !keeperRuns s then s
  else
    let s1 := rsetBits (bumpSat s (pgKpr + 0x44) 1) (pgKpr + 0xC) 1 0 2
    fatal (raise s1 pgKpr 3) 3 3 0

/-- R517: an uncorrectable error in the hub's tables or the Keeper's memory; every item of a corrupted entry has FAILED_DEVICE, whatever
status it recorded. -/
def hubUe (s : State) (lost : Option (Nat × Nat × Nat)) : State :=
  let s1 := match lost with
    | none => s
    | some (p, q, seq) => { s with cqs := s.cqs.map (fun e => if e.1 / 16 = p then (e.1, { e.2 with held := e.2.held.map (fun c =>
        if c.sq = q ∧ c.seq = seq then { c with status := stFailedDevice, orig := stFailedDevice, result := 0 } else c) }) else e) }
  stopCause s1 4 3 0 stFailedDevice lost.isSome

/-- R289: a stack-link parity error: retried, or fatal. -/
def hbmLinkError (s : State) (st : Nat) (cleared : Bool) : State :=
  if cleared then raise (bumpSat s (pgHbm st + 0x5C) 1) (pgHbm st) 0x40
  else fatal (raise s (pgHbm st) 0x80) 1 3 st

/-- R514: a die-to-die link needs a 17th replay: fatal cause D2D_LINK. -/
def d2dLimit (s : State) (r k : Nat) : State :=
  let s1 := bumpSat (bumpSat s (pgDie r + 0x44 + 16 * k) 17) (pgDie r + 0x48 + 16 * k) 17
  fatal (unitRecord (raise (rset s1 (pgDie r + 0x40 + 16 * k) 0) (pgDie r) 3) (pgRgnErr r) r 7 false) 2 2 (4 * r + k)

/-! ### Unit faults (R514, R515) -/

/-- A fault of a block or region, on its way to the Keeper. -/
def unitFault (s : State) (u : UnitRef) (inst code : Nat) : State :=
  let s1 := unitRecord s u.page inst code true
  { s1 with faults := s1.faults ++ [⟨u, code, s1.sclTime⟩] }

/-- R514: a router flit whose CRC fails on 4 consecutive retries. -/
def routerFault (s : State) (b : Nat) : State :=
  let s1 := raise (bumpSat (bumpSat s (pgRouter b + 0xA0) 5) (pgRouter b + 0xA4) 4) (pgRouter b) 1
  unitFault (rsetBits (raise s1 (pgBlk b) 1) (pgBlk b + 0xC) 0 0 0) (.block b) b 1

/-- R514: a region controller's lockstep mismatch, or its watchdog. -/
def rcFault (s : State) (r : Nat) (dog : Bool) : State :=
  unitFault (rsetBits (raise s (pgRgn r) 1) (pgRgn r + 0xC) 1 0 2) (.region r) r (if dog then 6 else 5)

/-- The unit that a fault escalates to (R515). -/
def UnitRef.wider : UnitRef → Option UnitRef
  | .cell c => some (.block (c / 16))
  | .block b => some (.region (b / 16))
  | .region _ => none

/-- R515: a fault within the window of the unit's own last reset. -/
def escalates (s : State) (u : UnitRef) : Bool :=
  let w := max 1 (rbits s (pgErr + 0x44) 15 0) * 1000000
  let t := tabGet (fun _ => 0) s.lastReset u.key
  t != 0 && decide (s.now - (t - 1) ≤ w)

/-- R514, R515: the Keeper receives the oldest unit fault: the matching reset, or the wider one. -/
def faultReport (s : State) : State :=
  match s.faults with
  | [] => s
  | f :: rest =>
    let s1 := bumpSat (raise { s with faults := rest } pgErr 1) (pgErr + 0x50 + 4 * (f.unit.scope - 1)) 1
    if !escalates s1 f.unit then after (resetBegin s1 f.unit false)
    else
      let s2 := logErr (bumpSat (raise s1 pgErr 2) (pgErr + 0x5C) 1) pgErr 1 0
      match f.unit.wider with
      | some w => after (resetBegin (unitRecord s2 w.page (w.key % 64 % if w.scope = 3 then 4 else 64) 4 false) w false)
      | none => fatal s2 5 2 (match f.unit with
        | .region r => r
        | _ => 0)

/-! ### The stop of the module (R299, R300, R501, R518 to R520) -/

/-- The stop in progress, at a stage. -/
def stopAt (s : State) (n : Nat) : Option StopRun := s.stop.filter (fun x => x.stage == n)

/-- R299, R518: issue has stopped; every barge is cut, and an ABORT of the module goes out on every UP link. -/
def stopBegin (s : State) (x : StopRun) : State :=
  let s1 := s.barges.foldl (fun t b => bargeCut t b x.status) s
  { abortModule s1 x.status with stop := some { x with stage := 1 } }

/-- Entries submitted and not fetched (R519). -/
def unfetched (s : State) : Nat := (s.sqs.map (fun e => (e.2.vis.map (·.2)).sum)).sum

/-- R519: the status registers of PRT, ERR and journal commands in progress. -/
def walkRegs (s : State) (status : Nat) : State :=
  let busy := bit (rget s (pgPrt + 0xC)) 0
  let s1 := if busy then msixSend (raise (rset (rset s (pgPrt + 0xC) 0) (pgPrt + 0x48) status) pgPrt 1) 0 2 else s
  let s2 := if bit (rget s1 (pgErr + 0x4C)) 8 then rset s1 (pgErr + 0x4C) status else s1
  if bit (rget s2 (pgPwr + 0x6C)) 8 then raise (rsetBits s2 (pgPwr + 0x6C) 9 0 status) pgPwr 0x800 else s2

/-- R519: every item without a status has the stop's, in one walk. -/
def walk (s : State) (x : StopRun) : State :=
  let n := s.cmds.length + unfetched s
  let s0 := (s.cells.map (·.1)).foldl (fun t c => match (cellGet t c).run with
    | none => t
    | some jr => jr.issued.foldl (fun u r => unwind r.undo u) t) s
  let s1 := s0.cmds.foldl (fun t c => recordCmd t c x.status 0) s0
  let s2 := walkRegs s1 x.status
  let idle := fun (e : Nat × Cell) => (e.1, { e.2 with run := none, queue := [], held := [], mpLoad := none, mpHeld := [] })
  { s2 with
    cells := (s2.cells.map idle).filter (fun e => e.2 != cellInit),
    sess := s2.sess.map (fun y => { y with cmds := [], cur := none }),
    bargeWait := [], tags := [], fabs := [], cruns := [], tts := [], toccs := [], rolls := [], stepping := [],
    notices := [], bargeNotices := [], uresets := [], faults := [], prtCmd := none,
    jnl := { s2.jnl with work := [], deferred := false },
    stop := some { x with
      stage := 2, items := n, barges := s.barges, tags := s.tags,
      jigs := s.cells.flatMap (fun e => (cellJigs e.2).mapIdx (fun i j => (e.1, i, j))) } }

/-- R475, R518: the optical links go dark, video output stops, the stacks of a power or thermal stop refresh themselves, and the device enters
FAULTED. -/
def stopEnd (s : State) (x : StopRun) : State :=
  let s1 := (List.range 16).foldl (fun t g => if lnkState t g = 0 then t else lnkDown t g 2) s
  enterState { s1 with stop := some { x with stage := 3 } } dvFaulted

/-- R299, R501, R518: the next stage of a stop. Before the stacks are trained nothing is in flight (R475). -/
def fatalPath (s : State) : State :=
  match s.stop with
  | none => s
  | some x =>
    if x.stage = 0 then (if s.trained then stopBegin s x else stopEnd s { x with jnlOnly := true })
    else if x.stage = 2 then stopEnd s x
    else s

/-- R519: the Keeper's walk. -/
def flightWalk (s : State) : State :=
  match stopAt s 1 with
  | none => s
  | some x => walk s x

end Sys2Proof.Machine
end

