-- ==== Sys2Proof/Machine/Mailbox.lean ====
section
/-!
DEFINITION. Machine/Mailbox.lean: mailbox channels and doorbells (R464 to R472), domains that power off (R469), the
apertures of PF BAR2 and VF BAR2 (R443, R444).
Log entries that code here: 15 (DESIGN CHOICE, unsafe), 44 (DESIGN CHOICE, safe), 88 (DEDUCED, unsafe), 110 (DEDUCED, unsafe), 111 (DEDUCED,
unsafe).
-/

namespace Sys2Proof.Machine

/-! ### Doorbells (R468, R471) -/

/-- The address of a receiver's doorbell group, and its interrupt when DBL_PEND leaves zero. -/
def dblGroup (id : Nat) : Option Nat :=
  if id = mHost then some (pgDbl + 0x100)
  else if id = mKeeper then some (pgDbl + 0x110)
  else if 0xF100 ≤ id ∧ id ≤ 0xF103 then some (pgDbl + 0x120 + 16 * (id - 0xF100))
  else if id = mBmc then some (pgDbl + 0x160)
  else if 0x1001 ≤ id ∧ id ≤ 0x1400 then some (pgAmb (id - 0x1001) + 0xC0)
  else none

/-- DBL_PEND of the group at `a`. -/
def dblPend (s : State) (a : Nat) : Nat := rget s a &&& (0xFFFFFFFF - rget s (a + 4))

/-- R468: a receiver's DBL_PEND changed from `s` to `t`. -/
def dblSignal (s t : State) (id a : Nat) : State :=
  if dblPend s a = 0 ∧ dblPend t a ≠ 0 then
    (if id = mHost then msixSend t 0 1
     else if 0x1001 ≤ id ∧ id ≤ 0x1400 then vfEvt t (id - 0x1001) 0x10 else t)
  else t

/-- R468: set a doorbell bit of a receiver. -/
def dblRing (s : State) (id c : Nat) : State :=
  match dblGroup id with
  | none => s
  | some a => dblSignal s (rset s a (rget s a ||| 2 ^ (c % 32))) id a

/-- A write of DBL_RAW (W1C) or DBL_MASK by its own master. -/
def dblWrite (s : State) (id : Nat) (mask : Bool) (v : Nat) : State :=
  match dblGroup id with
  | none => s
  | some a => dblSignal s (if mask then rset s (a + 4) v else rset s a (rget s a &&& (0xFFFFFFFF - v % 2 ^ 32))) id a

/-! ### Domains (R469) -/

/-- The domain of an identity is off. -/
def domainOff (s : State) (id : Nat) : Bool :=
  if id = mHost then !s.pcieUp
  else if 0x1001 ≤ id ∧ id ≤ 0x1400 then (partGet s (id - 0x1001)).st == 0
  else if 0xF100 ≤ id ∧ id ≤ 0xF103 then bit (rget s (pgPwr + 0x74)) (id - 0xF100)
  else if id = mBmc then s.i3c.down
  else false

/-! ### Bindings (R465) -/

def mbxA (s : State) (c : Nat) : Nat := rbits s (pgMbx c + 0x40) 15 0
def mbxB (s : State) (c : Nat) : Nat := rbits s (pgMbx c + 0x40) 31 16

/-- A master is bound to a channel. -/
def mbxBound (s : State) (m c : Nat) : Bool := m != 0xFFFF && (mbxA s c == m || mbxB s c == m)

/-- The other master of a channel. -/
def mbxOther (s : State) (m c : Nat) : Nat := if mbxA s c = m then mbxB s c else mbxA s c

/-- An identity of R464. -/
def identity (id : Nat) : Bool :=
  id == mHost || id == mKeeper || id == mBmc || decide ((0x1001 ≤ id ∧ id ≤ 0x1400) ∨ (0xF100 ≤ id ∧ id ≤ 0xF103))

/-- The identity of a VF. -/
def isVf (id : Nat) : Bool := decide (0x1001 ≤ id ∧ id ≤ 0x1400)

/-- R465: a binding of channel `c` is valid: unbound, or two distinct identities, no VF twice in channels 0 to 59, none in 60 to 63. -/
def bindOk (s : State) (c v : Nat) : Bool :=
  let a := v % 65536
  let b := v / 65536 % 65536
  let taken := fun (id : Nat) => isVf id && (List.range 60).any (fun k => k != c && mbxBound s id k)
  v % 2 ^ 32 == 0xFFFFFFFF ||
    (identity a && identity b && a != b && !(decide (60 ≤ c) && (isVf a || isVf b)) && !(decide (c < 60) && (taken a || taken b)))

/-- DBL_LOCK.LOCK. -/
def dblLocked (s : State) : Bool := bit (rget s (pgDbl + 0x40)) 0

/-- R540: a write of a locked field that would change it. -/
def lockedWrite (s : State) : State := raise (bumpSat s (pgChp + 0x74) 1) pgChp 4

/-- R465: the boot ROM or the Keeper writes a binding. -/
def mbxBind (s : State) (c v : Nat) : State :=
  if dblLocked s then (if rget s (pgMbx c + 0x40) = v % 2 ^ 32 then s else lockedWrite s)
  else if bindOk s c v then rset s (pgMbx c + 0x40) v
  else raise s (pgMbx c) 0x100

/-- R465: DBL_LOCK. -/
def dblLock (s : State) : State := rset s (pgDbl + 0x40) 1

/-! ### Access to a channel (R464, R465, R469) -/

/-- A refusal: a Completer Abort on PCIe, a status for an internal master. -/
def mbxRefuse (s : State) (m status : Nat) : State :=
  { s with resp := if m = mHost ∨ isVf m = true then .abort else .refused status }

/-- R465, R469: only a bound master reaches a channel, while both its domains are on. -/
def mbxAccess (s : State) (m c : Nat) (f : State → State) : State :=
  if !mbxBound s m c then mbxRefuse (raise s (pgMbx c) 0x10) m stDenied
  else if domainOff s (mbxA s c) || domainOff s (mbxB s c) then mbxRefuse (raise s (pgMbx c) 0x20) m stDomainOff
  else f s

/-- A write to a channel page by a master, through PF BAR0 or its VF's assigned mailbox page. -/
def mbxWrite (s : State) (m c : Nat) (f : State → State) : State :=
  if isVf m then vfPart s (m - 0x1001) (fun t => if mbxBound t m c then mbxAccess t m c f else t)
  else pfWrite s m (pgMbx c + 0x44) 0 (fun t => mbxAccess t m c f)

/-! ### Channels 0 to 59 (R466) -/

def mbxState (s : State) (c : Nat) : Nat := rbits s (pgMbx c + 0xC) 1 0

/-- Master `m` holds the channel, or sent the message in it. -/
def mbxHolds (s : State) (m c : Nat) : Bool := (if rbits s (pgMbx c + 0xC) 2 2 = 0 then mbxA s c else mbxB s c) == m

/-- An action that does not fit: BUSY_WRITE. -/
def mbxBusy (s : State) (c : Nat) : State := raise s (pgMbx c) 8

/-- R466: CLAIM; with `both`, both masters claim in one cycle: the lower identity is granted, the other raises COLLISION. -/
def mbxClaim (s : State) (m c : Nat) (both : Bool) : State :=
  let who := if both then min (mbxA s c) (mbxB s c) else m
  let hit := fun (t : State) => if both then raise t (pgMbx c) 4 else t
  if c ≥ 60 then s
  else if mbxState s c ≠ 0 then mbxBusy s c
  else hit (rset s (pgMbx c + 0xC) (1 + (if who = mbxA s c then 0 else 4)))

/-- R466: GO. -/
def mbxGo (s : State) (m c : Nat) : State :=
  if c ≥ 60 then s
  else if mbxState s c = 1 ∧ mbxHolds s m c then
    raise (dblRing (rsetBits s (pgMbx c + 0xC) 1 0 2) (mbxOther s m c) c) (pgMbx c) 1
  else mbxBusy s c

/-- R466: DONE. -/
def mbxDone (s : State) (m c : Nat) : State :=
  if c ≥ 60 then s
  else if mbxState s c = 2 ∧ mbxHolds s m c = false then
    raise (dblRing (bumpWrap (rsetBits s (pgMbx c + 0xC) 1 0 0) (pgMbx c + 0x48) 1) (mbxOther s m c) c) (pgMbx c) 2
  else mbxBusy s c

/-- R466: RELEASE. -/
def mbxRelease (s : State) (m c : Nat) : State :=
  if c ≥ 60 then s
  else if mbxState s c = 1 ∧ mbxHolds s m c then rsetBits s (pgMbx c + 0xC) 1 0 0
  else mbxBusy s c

/-- R466: a message word. -/
def mbxWord (s : State) (m c i v : Nat) : State :=
  if c ≥ 60 then s
  else if mbxState s c = 1 ∧ mbxHolds s m c then rset s (pgMbx c + 0x80 + 4 * i) v
  else mbxBusy s c

/-- A write of MBX_CTL: its actions in ascending bit order. -/
def mbxCtl (s : State) (m c v : Nat) : State :=
  let s1 := if bit v 0 then mbxClaim s m c false else s
  let s2 := if bit v 1 then mbxGo s1 m c else s1
  let s3 := if bit v 2 then mbxDone s2 m c else s2
  if bit v 3 then mbxRelease s3 m c else s3

/-! ### Channels 60 to 63 (R467) -/

def mbxqGet (s : State) (c : Nat) : MbxQ := tabGet (fun _ => ⟨[], []⟩) s.mbxq c
def mbxqPut (s : State) (c : Nat) (q : MbxQ) : State := { s with mbxq := tabPut (fun _ => ⟨[], []⟩) s.mbxq c q }

/-- R467: PUSH. -/
def mbxPush (s : State) (m c v : Nat) : State :=
  if c < 60 then s
  else
    let q := mbxqGet s c
    let isA := mbxA s c == m
    let l := if isA then q.ab else q.ba
    if 32 ≤ l.length then raise (bumpSat s (pgMbx c + 0x58) 1) (pgMbx c) 0x40
    else
      let s1 := mbxqPut s c (if isA then { q with ab := l ++ [v] } else { q with ba := l ++ [v] })
      raise (if l.isEmpty then dblRing s1 (mbxOther s m c) c else s1) (pgMbx c) 1

/-- R467: POP. -/
def mbxPop (s : State) (m c : Nat) : State :=
  if c < 60 then { s with resp := .value 0 }
  else
    let q := mbxqGet s c
    let isA := mbxA s c == m
    match if isA then q.ba else q.ab with
    | [] => raise { s with resp := .value 0 } (pgMbx c) 0x80
    | v :: t => raise { mbxqPut s c (if isA then { q with ba := t } else { q with ab := t }) with resp := .value v } (pgMbx c) 2

/-! ### Power-off of a domain (R469) -/

/-- R469: what a domain's power-off does to one channel bound to it. -/
def channelOff (s : State) (id c : Nat) : State :=
  if !mbxBound s id c then s
  else if c < 60 then
    if mbxState s c = 0 then s
    else dblRing (rset s (pgMbx c + 0xC) (rbits s (pgMbx c + 0xC) 2 2 * 4 + 8)) (mbxOther s id c) c
  else
    let q := mbxqGet s c
    if mbxA s c = id then bumpSat (mbxqPut s c { q with ba := [] }) (pgMbx c + 0x58) q.ba.length
    else bumpSat (mbxqPut s c { q with ab := [] }) (pgMbx c + 0x58) q.ab.length

/-- R469: the channels of a domain that went off. -/
def channelsOff (s : State) (id : Nat) : State := (List.range 64).foldl (fun t c => channelOff t id c) s

/-- R469: the PCIe link or the I3C bus goes down; a region or VF domain acts when it is off. -/
def domainDown (s : State) (id : Nat) : State :=
  let s1 := if id = mHost then { s with pcieUp := false } else if id = mBmc then { s with i3c := { s.i3c with down := true } } else s
  if s.cold then s1 else if domainOff s1 id then channelsOff s1 id else s1

/-- R469: the PCIe link trains up. -/
def linkUp (s : State) : State := { s with pcieUp := true }

/-! ### The apertures (R443, R444) -/

/-- The partition and partition address of an HBM physical byte. -/
def physOwner (s : State) (a : Nat) : Option (Nat × Nat) :=
  let st := a / 0x1000000000
  let g := a % 0x1000000000 / 0x10000000
  let b := a % 0x10000000
  s.parts.findSome? (fun e =>
    let q := e.2
    if q.st = 0 then none
    else match q.stk.idxOf? st with
      | none => none
      | some pos => match ((q.gran[pos]?).getD []).idxOf? g with
        | none => none
        | some r => some (e.1, r * (q.stk.length * 0x10000000) + (b / 4096 * q.stk.length + pos) * 4096 + b % 4096))

/-- The 4 KiB pieces of a physical range. -/
def physPieces (a n : Nat) : List (Nat × Nat) := pieces 4096 (n / 4096 + 2) a n

/-- A PF write to a granule of a partition invalidates its cached line (R285). -/
def physInval (s : State) (ps : List (Nat × Nat)) : State :=
  ps.foldl (fun t x => match physOwner t x.1 with
    | none => t
    | some (p, a) => lineInvalidate t p (a / 16384)) s

/-- R290, R315: a physical HBM read by the PF: its bytes, or a poisoned completion on an uncorrectable error. -/
def physRead (s : State) (ps : List (Nat × Nat)) : State :=
  match physEcc s ps with
  | (s1, false) => { s1 with resp := .poisoned }
  | (s1, true) => { s1 with resp := .bytes (ps.flatMap (fun x => rd s1 .hbm x.1 x.2)) }

/-- The bytes of an SRAM read; those of the cache part are raw, and the manual does not say how a line lies there. -/
def sramRead (s : State) (a n : Nat) : State :=
  match firstBad s.mems .slice a n with
  | some u => { noteUe s .slice u with resp := .poisoned }
  | none =>
    let s1 := match firstNever s.mems .slice a n with
      | some u => noteNever s .slice u
      | none => s
    let c := a / 0x1000000
    let keep := scratchBytes s c - a % 0x1000000
    let (raw, s2) := freeBytes (n - keep) s1
    { s2 with resp := .bytes (rd s2 .slice a (min n keep) ++ raw) }

/-- R443: an access through PF BAR2: `off` in the 64 GiB window, a write of `data` or a read of `n` bytes. -/
def pfAperture (s : State) (off : Nat) (data : Option (List Byte)) (n : Nat) : State :=
  let r := rget s (pgChp + 0x100 + 4 * (off / 0x100000000))
  let len := (data.map List.length).getD n
  let a := bits r 11 2 * 0x40000000 + off % 0x100000000
  let sram := bit r 1
  let ps := physPieces a len
  if s.cold then s
  else if devState s = dvBoot ∨ !bit r 0 then { s with resp := .abort }
  else if (if sram then 0x400000000 else 0x8000000000) < a + len then { s with resp := .abort }
  else if regionDark s (if sram then a / 0x100000000 else a / 0x2000000000) then { s with resp := .abort }
  else if sram then
    match data with
    | some b => { wr s .slice a b with resp := .none }
    | none => sramRead s a len
  else
    let s1 := physArrive s 1024 ps
    match data with
    | some b => { physWrite (physInval s1 ps) ps b with resp := .none }
    | none => physRead s1 ps

/-- R444: an access through VF BAR2 of a partition at offset `off`. -/
def vfAperture (s : State) (p off : Nat) (data : Option (List Byte)) (n : Nat) : State :=
  let lo := rget s (pgApCtl p + 0x40)
  let a := lo / 2 ^ 28 * 2 ^ 28 + rget s (pgApCtl p + 0x44) * 2 ^ 32 + off
  let len := (data.map List.length).getD n
  let denied := fun (t : State) => { vfEvt t p 8 with resp := .abort }
  vfPart s p (fun t =>
    if bit lo 0 then
      match (partGet t p).cells[a / 0x1000000]? with
      | none => denied t
      | some c =>
        let x := a % 0x1000000
        if scratchBytes t c < x + len then denied t
        else match data with
          | some b => { wr t .slice (sliceA c x) b with resp := .none }
          | none => sramRead t (sliceA c x) len
    else match data with
      | some b => match hput t p a b with
        | none => denied t
        | some u => { u with resp := .none }
      | none => match hget t p a len false with
        | (u, 0, b) => { u with resp := .bytes b }
        | (u, r, _) => if r = rOutOfPartition then denied u else { u with resp := .poisoned })

end Sys2Proof.Machine
end

