-- ==== Sys2Proof/Machine/Partn.lean ====
section
/-!
DEFINITION. Machine/Partn.lean: partitions: creation and destruction (R413 to R420), the reset of a partition and its record
(R430 to R435).
Log entries that code here: 82 (DESIGN CHOICE, unsafe), 87 (DEDUCED, unsafe), 108 (DEDUCED, unsafe), 109 (DEDUCED, unsafe).
-/

namespace Sys2Proof.Machine

def dPtState : Nat := 0x0F0001
def dPtCells : Nat := 0x0F0002
def dPtCellCfg : Nat := 0x0F0003
def dPtRtBlocks : Nat := 0x0F0004
def dPtHbm : Nat := 0x0F0005

/-! ### What is free (R413, R436) -/

/-- The granules of a stack that partitions hold. -/
def heldGrans (s : State) (st : Nat) : List Nat :=
  s.parts.flatMap (fun e => if e.2.st = 0 then [] else
    (e.2.stk.zip e.2.gran).flatMap (fun x => if x.1 = st then x.2 else []))

/-- The free granules of a stack, ascending; the top granule of stack 0 holds the dump (R287). -/
def freeGrans (s : State) (st : Nat) : List Nat :=
  let held := heldGrans s st
  (List.range (if st = 0 then 255 else 256)).filter (fun g => !held.contains g)

/-- The cells in no partition. -/
def freeCells (s : State) : List Nat :=
  let held := s.parts.flatMap (fun e => if e.2.st = 0 then [] else e.2.cells)
  (List.range 1024).filter (fun c => !held.contains c)

/-- The sum of a resource over the partitions that exist. -/
def partSum (s : State) (f : Part → Nat) : Nat := (s.parts.map (fun e => if e.2.st = 0 then 0 else f e.2)).sum

/-! ### CREATE (R416, R417) -/

/-- The cells staged in PRT_CELLS0 to PRT_CELLS31. -/
def stagedCells (s : State) : List Nat :=
  (List.range 1024).filter (fun c => bit (rget s (pgPrt + 0x100 + 4 * (c / 32))) (c % 32))

/-- The partition that CREATE would make of the staged values, without its granules. -/
def stagedPart (s : State) : Part :=
  { partNone with
    st := 2
    cells := stagedCells s
    stk := maskBits 8 (rbits s (pgPrt + 0x50) 7 0)
    rt := bit (rget s (pgPrt + 0x4C)) 0
    rb := bit (rget s (pgPrt + 0x4C)) 1
    key := rbits s (pgPrt + 0x54) 15 0
    quota := rbits s (pgPrt + 0x54) 28 16
    decCap := rbits s (pgPrt + 0x58) 15 0
    encCap := rbits s (pgPrt + 0x58) 31 16
    ttRes := rbits s (pgPrt + 0x5C) 10 0 }

/-- R417: the checks of CREATE in their order; none when all pass. -/
def createFail (s : State) (p : Nat) (q : Part) (g : Nat) : Option (Nat × Nat) :=
  let operand := fun (d : Nat) => some (stFailedOperand, d)
  let free := freeCells s
  let n := q.stk.length
  if (partGet s p).st ≠ 0 then operand dPtState
  else if q.cells.isEmpty || !q.cells.all free.contains then operand dPtCells
  else if !q.cells.all (fun c => rbits s (pgSlice c + 0x40) 4 0 == rbits s (pgSlice (q.cells.headD 0) + 0x40) 4 0) then operand dPtCellCfg
  else if q.rt && !q.cells.all (fun c => (List.range 16).all (fun i => q.cells.contains (c / 16 * 16 + i))) then operand dPtRtBlocks
  else if !((n == 0 && g == 0) || ([1, 2, 4, 8].contains n && decide (1 ≤ g ∧ g ≤ 256))) then operand dPtHbm
  else if !q.stk.all (fun st => decide (g ≤ (freeGrans s st).length)) then some (stOversubscribed, 0)
  else if 65536 < (partSum s (·.quota) + q.quota) * 16 ∨ 16000 < partSum s (·.decCap) + q.decCap ∨
      4000 < partSum s (·.encCap) + q.encCap ∨ 1024 < partSum s (·.ttRes) + q.ttRes then some (stOversubscribed, 0)
  else none

/-- R510: a region whose cells or stacks a CREATE needs is ungated first. -/
def ungate (s : State) (r : Nat) : State :=
  if bit (rget s (pgPwr + 0x74)) r then
    let s1 := rsetBits s (pgPwr + 0x74) r r 0
    if rbits s1 (pgRgn r + 0xC) 2 2 = 1 then s1 else summarise s { s1 with dark := s1.dark.filter (· != r) }
  else s

/-- R313, R315: everything granted with a cell becomes zero: slice, cache part, bench, accumulator file, semaphores. -/
def cellScrub (s : State) (c : Nat) : State :=
  let m1 := memsScrub s.mems .slice (sliceA c 0) 0x1000000 (bit (rget s (pgSlice c + 0x40)) 5)
  let m2 := memsScrub (memsScrub m1 .bench (benchA c 0) 0x100000 false) .acc (accA c 0) 0x100000 false
  semClear (cacheDrop { s with mems := m2 } c) c

/-- R313, R315: the granted granules of a stack become zero. -/
def granScrub (s : State) (st : Nat) (gs : List Nat) : State :=
  { s with mems := gs.foldl (fun m g => memsScrub m .hbm (hbmPhys st g 0) 0x10000000 (bit (rget s (pgHbm st + 8)) 0)) s.mems }

/-- R417: a cell joins the partition: REQUIRE_BOUND, CEL_PARTITION, ENABLE. -/
def cellJoin (s : State) (p : Nat) (bound : Bool) (c : Nat) : State :=
  let v := rget s (pgCel c + 8)
  rset (rset s (pgCel c + 8) (setBits (if bound then setBits v 2 2 1 else v) 0 0 1)) (pgCel c + 0x40) p

/-- The VF pages, queues and window of partition `p` return to their reset values. -/
def vfClear (s : State) (p : Nat) : State :=
  let s1 := regsClear s (pgPartId p) (pgPartId p + 0x10000)
  { s1 with sqs := tabClear (16 * p) (16 * p + 16) s1.sqs, cqs := tabClear (16 * p) (16 * p + 16) s1.cqs }

/-- R417: what a CREATE that passes its checks does. -/
def createPart (s : State) (p : Nat) (q : Part) (g : Nat) : State :=
  let regions := q.cells.map (· / 256) ++ q.stk.map (· / 2)
  let s1 := (List.range 4).foldl (fun t r => if regions.contains r then ungate t r else t) (vfClear s p)
  let q1 := { q with gran := q.stk.map (fun st => (freeGrans s st).take g) }
  let s2 := (q1.stk.zip q1.gran).foldl (fun t x => granScrub t x.1 x.2) s1
  let s3 := q1.cells.foldl cellScrub s2
  partPut (q1.cells.foldl (fun t c => cellJoin t p (q.rt || q.rb) c) s3) p q1

/-- A PRT command completes (R417, R436, R441). -/
def prtDone (s : State) (status detail : Nat) : State :=
  let s1 := rset (rset { s with prtCmd := none } (pgPrt + 0xC) 0) (pgPrt + 0x48) (status + detail * 2 ^ 8)
  msixSend (raise s1 pgPrt 1) 0 2

/-- R420: a PRT command is accepted only when none runs, in CONFIGURED or RUNNING. -/
def prtTurn (s : State) : Bool :=
  !bit (rget s (pgPrt + 0xC)) 0 && (devState s == dvConfigured || devState s == dvRunning) && s.stop.isNone

/-- R417: CREATE. -/
def prtCreate (s : State) : State :=
  let p := rbits s (pgPrt + 0x40) 9 0
  let q := stagedPart s
  let g := rbits s (pgPrt + 0x50) 16 8
  if !prtTurn s then raise s pgPrt 2
  else match createFail s p q g with
    | some (st, d) => prtDone s st d
    | none => prtDone (createPart s p q g) stOk 0

/-- R419, R430: DESTROY (3) and RESET (2), by their CAUSE. -/
def prtStop (s : State) (cause : Nat) : State :=
  let p := rbits s (pgPrt + 0x40) 9 0
  if !prtTurn s then raise s pgPrt 2
  else if (partGet s p).st = 0 then prtDone s stFailedOperand dPtState
  else startReset (rset { s with prtCmd := some (cause, p) } (pgPrt + 0xC) 1) p cause

/-- R430: a Function Level Reset of a VF. -/
def vfFlr (s : State) (p : Nat) : State :=
  if s.cold || s.stop.isSome then s else startReset s p 1

/-! ### The reset of a partition (R430 to R434) -/

/-- A stack of the partition is HOT. -/
def hotStack (s : State) (p : Nat) : Bool := (partGet s p).stk.any (fun st => rbits s (pgHbm st + 0xC) 1 0 == 1)

/-- Host commands of a partition without a status. -/
def partCmds (s : State) (p : Nat) : List Cmd := s.cmds.filter (fun c => c.part == p)

/-- Descriptors of a partition's cells that have not completed. -/
def partDescs (s : State) (p : Nat) : List RunDesc :=
  (partGet s p).cells.flatMap (fun c => ((cellGet s c).run.map (·.issued)).getD [])

/-- Jigs of a partition's cells that have not begun. -/
def partJigs (s : State) (p : Nat) : Nat :=
  ((partGet s p).cells.map (fun c => (cellJigs (cellGet s c)).length - b2n (cellGet s c).run.isSome)).sum

/-- R435: the counters of the record, from what is in flight when the reset takes effect. -/
def resetCounts (s : State) (p : Nat) : State :=
  let video := (partCmds s p).filter (fun c => decide (0x60 ≤ cmdOp c ∧ cmdOp c ≤ 0x64))
  let tt := s.tts.filter (fun e => e.part == p)
  let ttw := (partDescs s p).filter (fun r => dOp r.desc == 0x10)
  let seen := ((List.range 16).map (fun q => ((sqGet s p q).vis.map (·.2)).sum)).sum
  let s1 := resetCount (resetCount (resetCount s p 0 ((partCmds s p).length + seen)) p 1 (s.bargeWait.filter (fun b => b.part == p)).length) p 2
    (s.barges.filter (fun b => b.part == p && b.cut.isNone)).length
  let s2 := resetCount (resetCount s1 p 4 (partDescs s p).length) p 5 (partJigs s p)
  let s3 := resetCount s2 p 6 ((s.tags.filter (fun t => t.part == p)).length + (s.cruns.filter (fun r => r.part == p && !r.reclaim)).length)
  resetCount (resetCount s3 p 7 (video.length + tt.length + ttw.length)) p 8 ((partCmds s p).filter isSeqCmd).length

/-- R431: the collective groups, runs, dictionaries and entry records of a partition go. -/
def partForget (s : State) (p : Nat) : State :=
  { s with
      cgroups := s.cgroups.filter (fun g => g.part != p), cruns := s.cruns.filter (fun r => r.part != p),
      dicts := tabClear (16 * p) (16 * p + 16) s.dicts, toccs := s.toccs.filter (fun o => s.tts.any (fun e => e.uid == o.uid)) }

/-- R431: everything of the partition that has no status receives CANCELLED_RESET; what it holds open is closed. -/
def cancelPart (s : State) (p : Nat) (data : List (Nat × List Byte)) : State :=
  let st := stCancelledReset
  let s1 := (partGet s p).cells.foldl cellBegin s
  let s2 := cutBarges s1 (fun b => b.part == p) st
  let s3 := fabCut s2 (fun t => t.part == p) (fun f => f.part == p) st 0
  let s4 := runsFail s3 (fun r => r.part == p) st 0 true
  let s5 := (s4.sess.filter (fun x => x.part == p)).foldl (fun t x => sessClose t x st) s4
  let s6 := (s5.aligns.filter (fun g => g.part == p)).foldl (fun t g => alnShut t g st) s5
  let s7 := rollAbort (ttCut s6 (fun e => e.part == p) st) p
  let s8 := (partCmds s7 p).foldl (fun t c => recordCmd t c st 0) s7
  let s9 := (List.range 16).foldl (fun t q => endVisible t p q st (((data.find? (fun d => d.1 == q)).map (·.2)).getD [])) s8
  partForget s9 p

/-- Clear ENABLE in the cells of a partition, or set it. -/
def cellsEnable (s : State) (p v : Nat) : State := (partGet s p).cells.foldl (fun t c => rsetBits t (pgCel c + 8) 0 0 v) s

/-- R431: the reset stops issue, aborts peers, refuses and cuts barges, and cancels every item of the partition. `data` holds, per queue, the
entries submitted and not yet fetched. -/
def partReset (s : State) (p : Nat) (data : List (Nat × List Byte)) : State :=
  match (partGet s p).rst with
  | none => s
  | some r =>
    if r.stopped || s.stop.isSome then s
    else
      let s1 := resetCounts (abortPart (cellsEnable s p 0) p) p
      let s2 := cancelPart s1 p data
      let q := partGet s2 p
      after (partPut s2 p { q with pins := [], rst := q.rst.map (fun x => { x with stopped := true, hot := hotStack s2 p && s2.barges.any (fun b => b.part == p) }) })

/-- R435: the 64 bytes of the record. -/
def resetRecord (s : State) (q : Part) (r : ResetRun) (hot : Bool) : List Byte :=
  leBytes 4 (q.resets + 1) ++ leBytes 4 (r.cause + b2n (r.cause == 1) * 2 ^ 8 + b2n hot * 2 ^ 9) ++ leBytes 8 r.start ++
  leBytes 4 (s.now - r.startNs) ++ (r.counts.take 9).flatMap (fun n => leBytes 4 (min n 0xFFFFFFFF)) ++ List.replicate 8 0#8

/-- R431: write the completions of a reset while their queue has room; a Function Level Reset writes none. -/
def writeAll (s : State) (p q : Nat) : Nat → State
  | 0 => s
  | fuel + 1 => if s.pcieUp && cqRoom s p q && (cqGet s p q).held.length != 0 then writeAll (compWrite s p q 0) p q fuel else s

/-- R450: after a reset every queue of the partition is DISABLED, its window cleared. -/
def queuesOff (s : State) (p : Nat) : State :=
  (List.range 16).foldl (fun t q =>
    let t1 := writeAll t p q (cqGet t p q).held.length
    let t2 := cqSetState (rsetBits t1 (cqReg p q 8) 0 0 0) p q 0
    sqSetState (rsetBits (sqPut t2 p q ⟨[], [], []⟩) (sqReg p q 8) 0 0 0) p q 0) s

/-- R419: DESTROY releases what the partition holds. -/
def releasePart (s : State) (p : Nat) : State :=
  let q := partGet s p
  let s1 := (List.range 8).foldl (fun t st => rset (rset (creditPut t (weiAddr st p) 0) (weiAddr st p) 0) (weiAddr st p + 4) 0) s
  let s2 := [0, 4, 8, 12].foldl (fun t o => rset t (flsAddr p + o) 0) (creditPut s1 (flsAddr p) 0)
  let s3 := (List.range 16).foldl (fun t g => rset (rset (creditPut t (lnkAddr g p) 0) (lnkAddr g p) 0) (lnkAddr g p + 4) 0)
    { s2 with wins := tabPut (fun _ => ((0, 0) : Nat × Nat)) s2.wins p (0, 0) }
  let s4 := q.cells.foldl (fun t c => rset (rsetBits t (pgCel c + 8) 0 0 0) (pgCel c + 0x40) 0) s3
  channelsOff (partPut s4 p partNone) (mVf p)

/-- R435: the partition after its reset, with the record and the count. -/
def partAfter (s : State) (p : Nat) (r : ResetRun) : Part :=
  let q := partGet s p
  { q with resets := q.resets + 1, rrec := resetRecord s q r (r.hot || hotStack s p), rst := none, st := if q.st = 4 then 4 else 2 }

/-- R529: the resets of units of the partition's cells have become part of its reset. -/
def resetsForget (s : State) (cells : List Nat) : State :=
  { s with
    lastReset := s.lastReset.filter (fun e => !(decide (e.1 < 1024) && cells.contains e.1)),
    uresets := s.uresets.filter (fun x => match x.unit with
      | .cell c => !cells.contains c
      | _ => true) }

/-- R419, R431, R435: the end of a partition's reset, once its cells `cells` and its queues are as after reset. -/
def partEnd (s : State) (p : Nat) (r : ResetRun) (cells : List Nat) : State :=
  let x := partAfter s p r
  let s1 := logErr (raise (raise (resetsForget (partPut s p x) cells) pgPrt 4) (pgPartId p) 2) pgPrt 2 4
  if x.st = 4 then releasePart s1 p else cellsEnable s1 p 1

/-- R419, R436: the PRT command that waits for the reset of partition `p` completes. -/
def prtAnswer (s : State) (p : Nat) : State :=
  match s.prtCmd with
  | some (_, x) => if x = p then prtDone s stOk 0 else s
  | none => s

/-- R431, R433: the reset completes once every granted unit of the partition has landed. -/
def partResetDone (s : State) (p : Nat) : State :=
  let q := partGet s p
  match q.rst with
  | none => s
  | some r =>
    if !r.stopped || s.stop.isSome || s.barges.any (fun b => b.part == p) || !q.cells.all (cellDrained s) then s
    else
      let s1 := q.cells.foldl (fun t c => raise (cellFinish t c) (pgCelErr c) 4) s
      after (prtAnswer (partEnd (if r.cause = 1 then vfClear s1 p else queuesOff s1 p) p r q.cells) p)

end Sys2Proof.Machine
end

