-- ==== Sys2Proof/Machine/Journal.lean ====
section
/-!
DEFINITION. Machine/Journal.lean: the hold-up reserve (R504, R505), the journal in the SLC area (R506 to R508), the stripes of
the weight tier (R304), the copy of the dump (R525).
Log entries that code here: 123 (DEDUCED, unsafe), 124 (DEDUCED, unsafe).
-/

namespace Sys2Proof.Machine

/-! ### The reserve (R504, R505) -/

/-- R504: the usable energy E in mJ: ½ × C_meas × (V_bank² − 1,600), 0 below 40 V. -/
def holdupMj (s : State) : Nat := s.power.cap * (s.power.bank * s.power.bank - 1600000000) / 2000000000

/-- RESERVE_MJ in force. -/
def reserveMj (s : State) : Nat := rbits s (pgPwr + 0x48) 31 16

/-- R505: a flash write may start. -/
def reserveOk (s : State) : Bool := decide (reserveMj s ≤ holdupMj s)

/-! ### Records (R506) -/

/-- The end of the SLC area, and the start of the log after the image slots. -/
def slcEnd : Nat := 0x4000000000
def logStart : Nat := 0x10000000

/-- The bytes of a record with a payload of `len`, and the space it takes at 4 KiB-aligned offsets. -/
def recBytes (len : Nat) : Nat := 64 + roundUp len 32 + 32
def recSlot (len : Nat) : Nat := roundUp (recBytes len) 4096

/-- A payload padded with zeros to a multiple of 32 bytes. -/
def padded (payload : List Byte) : List Byte := payload ++ List.replicate (roundUp payload.length 32 - payload.length) 0#8

/-- Bytes 0 to 59 of a header. -/
def recHead (ty seq time : Nat) (payload : List Byte) : List Byte :=
  leBytes 4 0x4A524E4C ++ leBytes 1 ty ++ leBytes 1 1 ++ leBytes 2 0 ++ leBytes 8 seq ++ leBytes 4 payload.length ++
  leBytes 4 (crc32c (padded payload)) ++ leBytes 8 time ++ List.replicate 28 0#8

/-- A record: header, padded payload, trailer. -/
def recOf (ty seq time : Nat) (payload : List Byte) : List Byte :=
  let h := recHead ty seq time payload
  let c := leBytes 4 (crc32c h)
  h ++ c ++ padded payload ++ leBytes 4 0x4A434D54 ++ leBytes 4 0 ++ leBytes 8 seq ++ c ++ List.replicate 12 0#8

/-! ### Space in the log (R507) -/

/-- The records of the log, whole or being written, as (address, space). -/
def logHeld (j : Jnl) : List (Nat × Nat) :=
  j.recs.map (fun r => (r.addr, recSlot r.len)) ++ (j.work.filter (fun w => w.seq != 0)).map (fun w => (w.addr, recSlot w.len))

/-- Where `n` bytes fit after the last record, going round the end of the area, before the oldest. -/
def logRoom (j : Jnl) (n : Nat) : Option Nat :=
  match logHeld j with
  | [] => if logStart + n ≤ slcEnd then some (if j.next + n ≤ slcEnd then j.next else logStart) else none
  | (tail, _) :: _ =>
    if tail < j.next then
      if j.next + n ≤ slcEnd then some j.next else if logStart + n ≤ tail then some logStart else none
    else if j.next + n ≤ tail then some j.next else none

/-- PWR_JFREE: free journal space in MiB. -/
def logFree (j : Jnl) : Nat := (slcEnd - logStart - ((logHeld j).map (·.2)).sum) / 0x100000

/-- R507: the oldest record is erased; an update not fully applied is copied forward first, under the next SEQ. None when it finds no room. -/
def logErase (s : State) : Option State :=
  match s.jnl.recs with
  | [] => none
  | r :: t =>
    if !(s.jnl.updates.any (fun u => u.seq == r.seq)) then some { s with jnl := { s.jnl with recs := t } }
    else match logRoom s.jnl (recSlot r.len) with
      | none => none
      | some a =>
        let j := s.jnl
        let s1 := wr s .slc a (recOf r.ty j.seq s.sclTime (rd s .slc (r.addr + 64) r.len))
        some { s1 with jnl := { j with
          recs := t ++ [⟨a, r.ty, j.seq, r.len⟩], next := a + recSlot r.len, seq := j.seq + 1
          work := j.work.map (fun w => if w.what = .stripe r.seq then { w with what := .stripe j.seq } else w)
          updates := j.updates.map (fun u => if u.seq = r.seq then { u with seq := j.seq, data := a + 96 } else u) } }

/-- Room for `n` bytes, erasing the oldest records while there is none. -/
def logPlace (n : Nat) : Nat → State → State × Option Nat
  | 0, s => (s, logRoom s.jnl n)
  | fuel + 1, s => match logRoom s.jnl n with
    | some a => (s, some a)
    | none => match logErase s with
      | none => (s, none)
      | some t => logPlace n fuel t

/-- Queue a record of a TYPE for the log; false, with JOURNAL_FULL, when there is no space. -/
def recQueue (s : State) (what : JFor) (ty : Nat) (payload : List Byte) : State × Bool :=
  let n := recSlot payload.length
  match logPlace n s.jnl.recs.length s with
  | (t, none) => (raise t pgPwr 0x40, false)
  | (t, some a) =>
    let j := t.jnl
    ({ t with jnl := { j with
        work := j.work ++ [⟨what, a, recOf ty j.seq t.sclTime payload, 0, ty, j.seq, payload.length⟩], next := a + n, seq := j.seq + 1 } }, true)

/-! ### APPEND (R508) -/

/-- An APPEND completes. -/
def jcmdDone (s : State) (status : Nat) : State := raise (rsetBits s (pgPwr + 0x6C) 9 0 status) pgPwr 0x800

/-- R506, R508: the format of a host record with the bytes of its header. -/
def hostHeadOk (h : List Byte) : Bool :=
  let n := fld h 16 4
  fld h 0 4 == 0x4A524E4C && (byteAt h 4 == 2 || byteAt h 4 == 3) && byteAt h 5 == 1 && zeroAt h 6 2 &&
  decide (1 ≤ n ∧ n ≤ 0xFFFFFFE0) && zeroAt h 32 28 && fld h 60 4 == crc32c (h.take 60)

/-- R507: the payload of an update: stripes of the tier and their data. -/
def updateOk (n : Nat) (p : List Byte) : Bool :=
  let first := fld p 0 4
  let count := fld p 4 4
  decide (1 ≤ count ∧ count ≤ 65535) && decide (first + count ≤ 244140625) && zeroAt p 8 24 && n == 32 + 65536 * count

/-- Bytes of HBM as the Keeper reads them; none on an uncorrectable error or outside HBM. -/
def keeperRead (s : State) (a n : Nat) : State × Option (List Byte) :=
  if 0x8000000000 < a + n then (s, none)
  else
    let ps := physPieces a n
    match physEcc (physArrive s 1024 ps) ps with
    | (t, false) => (t, none)
    | (t, true) => (t, some (ps.flatMap (fun x => rd t .hbm x.1 x.2)))

/-- A 64-bit register of a page. -/
def jsrc (s : State) : Nat := rget64 s (pgPwr + 0x60)

/-- R508: the record at PWR_JSRC: its TYPE and payload, or the status of the failure. -/
def hostRecord (s : State) : State × Sum Nat (Nat × List Byte) :=
  let a := jsrc s
  if a % 4096 ≠ 0 ∨ 0x8000000000 < a + 64 then (s, .inl stFailedOperand)
  else match keeperRead s a 64 with
    | (s1, none) => (s1, .inl stFailedMemory)
    | (s1, some h) =>
      let n := fld h 16 4
      if !hostHeadOk h || decide (0x8000000000 < a + 64 + roundUp n 32) then (s1, .inl stFailedOperand)
      else match keeperRead s1 (a + 64) (roundUp n 32) with
        | (s2, none) => (s2, .inl stFailedMemory)
        | (s2, some p) =>
          if crc32c p ≠ fld h 20 4 ∨ !((p.drop n).all (· == 0#8)) ∨ (byteAt h 4 = 3 ∧ updateOk n p = false) then (s2, .inl stFailedOperand)
          else (s2, .inr (byteAt h 4, p.take n))

/-- R508: an APPEND whose record has been read: it is queued, or it fails. -/
def jcmdRun : State × Sum Nat (Nat × List Byte) → State
  | (s1, .inl st) => jcmdDone s1 st
  | (s1, .inr (ty, p)) => match recQueue s1 (.host ty) ty p with
    | (s2, true) => s2
    | (s2, false) => jcmdDone s2 stFailedMemory

/-- R508: a write of PWR_JCMD. -/
def jcmdWrite (s : State) (v : Nat) : State :=
  if !bit v 0 then s
  else if bit (rget s (pgPwr + 0x6C)) 8 ∨ s.stop.isSome ∨ devState s < dvHeld ∨ dvRunning < devState s then raise s pgPwr 0x1000
  else
    jcmdRun (hostRecord (rset s (pgPwr + 0x6C) (2 ^ 8 + (if byteAt (rd s .hbm (jsrc s) 64) 4 = 3 then 0 else rbits s (pgPwr + 0x6C) 31 16 * 2 ^ 16))))

/-! ### Updates of the weight tier (R304, R507, R508) -/

/-- Queue the next stripe of an update. -/
def stripeQueue (s : State) (seq : Nat) : State :=
  { s with jnl := { s.jnl with work := s.jnl.work ++ [⟨.stripe seq, 0, [], 0, 0, 0, 0⟩] } }

/-- An update ends; its APPEND, if one waits, completes with a status. -/
def updateEnd (s : State) (u : Update) (status : Nat) : State :=
  let s1 := { s with jnl := { s.jnl with updates := s.jnl.updates.filter (fun x => x.seq != u.seq) } }
  if u.cmd then jcmdDone s1 status else s1

/-- R507: an update progress record, then the next stripe if one is left. -/
def progressQueue (s : State) (u : Update) : State :=
  match recQueue s .progress 6 (leBytes 8 u.seq ++ leBytes 4 u.done ++ List.replicate 20 0#8) with
  | (s1, false) => updateEnd s1 u stFailedMemory
  | (s1, true) => if u.done < u.count then stripeQueue s1 u.seq else s1

/-- A tier stripe lies inside an active window (R302, R304). -/
def inWindow (s : State) (k : Nat) : Bool := s.wins.any (fun e => decide (e.2.1 ≤ k ∧ k < e.2.1 + e.2.2))

/-- R505: a write is deferred: raised and counted once, and shown in the status field of what waits. -/
def deferWrite (s : State) (w : JWork) : State :=
  if s.jnl.deferred then s
  else
    let s1 := bumpSat (raise { s with jnl := { s.jnl with deferred := true } } pgPwr 0x20) (pgPwr + 0x54) 1
    match w.what with
    | .accept => s1
    | .image _ => rsetBits s1 (pgCfg + 0x74) 9 9 1
    | .dump _ => raise s1 pgDmp 4
    | .host _ => rsetBits s1 (pgPwr + 0x6C) 9 9 1
    | .progress => if bit (rget s1 (pgPwr + 0x6C)) 8 then rsetBits s1 (pgPwr + 0x6C) 9 9 1 else s1
    | .stripe _ => if bit (rget s1 (pgPwr + 0x6C)) 8 then rsetBits s1 (pgPwr + 0x6C) 9 9 1 else s1

/-- A write starts: nothing is deferred any more. -/
def startWrite (s : State) : State := rsetBits { s with jnl := { s.jnl with deferred := false } } (pgPwr + 0x6C) 9 9 0

/-- R304, R508: the stripe at the head of the writes: DENIED inside an active window, deferred below the reserve, or written. -/
def stripeWrite (s : State) : State :=
  match s.jnl.work with
  | w :: rest => match w.what with
    | .stripe seq =>
      let pop := fun (t : State) => { t with jnl := { t.jnl with work := rest } }
      match s.jnl.updates.find? (fun u => u.seq == seq) with
      | none => pop s
      | some u =>
        if inWindow s (u.first + u.done) then updateEnd (pop s) u stDenied
        else if !reserveOk s then deferWrite s w
        else
          let s1 := pop (startWrite s)
          let s2 := wr s1 .tier ((u.first + u.done) * 65536) (rd s1 .slc (u.data + 65536 * u.done) 65536)
          let v := { u with done := u.done + 1 }
          let s3 := { s2 with jnl := { s2.jnl with updates := s2.jnl.updates.map (fun x => if x.seq = u.seq then v else x) } }
          let s4 := if u.cmd then rsetBits s3 (pgPwr + 0x6C) 31 16 v.done else s3
          if v.done % 64 = 0 ∨ v.done = v.count then progressQueue s4 v else stripeQueue s4 u.seq
    | _ => s
  | [] => s

/-! ### Journal units (R505, R525) -/

/-- R525: the copy of the dump ends; a dump that went to the journal only, or of a power stop, ends in DUMPED. -/
def dumpCopied (s : State) : State :=
  let s1 := raise (rsetBits s (pgDmp + 0xC) 2 2 0) pgDmp 2
  if devState s1 = dvFaulted then enterState s1 dvDumped else s1

/-- A record or image is written whole. -/
def workEnd (s : State) (w : JWork) : State :=
  match w.what with
  | .accept => s
  | .image _ => rsetBits s (pgCfg + 0x74) 8 8 1
  | .host 3 =>
    let p := w.bytes.drop 64
    stripeQueue { s with jnl := { s.jnl with updates := s.jnl.updates ++ [⟨w.seq, fld p 0 4, fld p 4 4, 0, w.addr + 96, true⟩] } } w.seq
  | .host _ => jcmdDone s stOk
  | .progress => match s.jnl.updates.find? (fun u => u.seq == fld (w.bytes.drop 64) 0 8) with
    | none => s
    | some u => if u.count ≤ u.done then updateEnd s u stOk else s
  | .dump _ =>
    let n := rbits s (pgDmp + 0x4C) 7 0 + 1
    let s1 := rsetBits s (pgDmp + 0x4C) 7 0 n
    if n = rbits s1 (pgDmp + 0x4C) 15 8 then dumpCopied s1 else s1
  | .stripe _ => s

/-- R525: the bank fell below the reserve during the copy of a power stop: what is appended stays. -/
def dumpGivenUp (s : State) : State :=
  let s1 := { s with jnl := { s.jnl with work := [], deferred := false } }
  enterState (rsetBits s1 (pgDmp + 0xC) 2 2 0) dvDumped

/-- R505: the check of the flash write at the head: deferred, or its next unit of at most 1 MiB is written. -/
def journalCheck (s : State) : State :=
  if s.cold ∨ devState s = dvBoot then s
  else match s.jnl.work with
    | [] => s
    | w :: rest =>
      match w.what with
      | .stripe _ => s
      | _ =>
        if !reserveOk s then
          let s1 := deferWrite s w
          match w.what with
          | .dump _ => if rbits s1 (pgErr + 0x40) 7 0 = 7 ∧ devState s1 = dvFaulted then dumpGivenUp s1 else s1
          | _ => s1
        else
          let s1 := startWrite s
          let unit := (w.bytes.drop w.done).take 0x100000
          let s2 := wr s1 .slc (w.addr + w.done) unit
          let v := { w with done := w.done + unit.length }
          if v.done < w.bytes.length then { s2 with jnl := { s2.jnl with work := v :: rest } }
          else
            let recs := if w.seq = 0 then s2.jnl.recs else s2.jnl.recs ++ [⟨w.addr, w.ty, w.seq, w.len⟩]
            workEnd { s2 with jnl := { s2.jnl with work := rest, recs := recs } } v

/-! ### Resets and boot (R506, R508, R560) -/

/-- A reset drops the writes that wait; a record cut short is ignored, and the log goes on after it. -/
def journalCut (j : Jnl) : Jnl :=
  let cut := j.work.filter (fun w => w.seq != 0)
  let next := match cut with
    | [] => j.next
    | w :: _ => if w.done = 0 then w.addr else w.addr + recSlot w.len
  let last := (j.recs.map (·.seq)).foldl max 0
  { j with next := next, seq := if cut.isEmpty then j.seq else last + 1, work := [], deferred := false, updates := [] }

/-- The stripes that the newest TYPE 6 record of an update shows. -/
def stripesDone (s : State) (seq : Nat) : Nat :=
  s.jnl.recs.foldl (fun n r =>
    let p := rd s .slc (r.addr + 64) 12
    if r.ty = 6 ∧ fld p 0 8 = seq then fld p 8 4 else n) 0

/-- R508: at boot the Keeper resumes every update with stripes left. -/
def journalResume (s : State) : State :=
  (s.jnl.recs.filter (fun r => r.ty == 3)).foldl (fun t r =>
    let p := rd t .slc (r.addr + 64) 8
    let u : Update := ⟨r.seq, fld p 0 4, fld p 4 4, stripesDone t r.seq, r.addr + 96, false⟩
    if u.done < u.count then stripeQueue { t with jnl := { t.jnl with updates := t.jnl.updates ++ [u] } } r.seq else t) s

end Sys2Proof.Machine
end

