-- ==== Sys2Proof/Machine/Boot.lean ====
section
/-!
DEFINITION. Machine/Boot.lean: the device states from COLD to RUNNING (R474 to R477, R558, R560), signed images and pairings
(R478 to R484), the held reasons (R485, R486), the status block (R487), host interface versions (R488), the configuration
record (R491 to R494).
Log entries that code here: 10 (DESIGN CHOICE, unsafe), 86 (DEDUCED, unsafe), 107 (DEDUCED, unsafe), 114 (DESIGN CHOICE, unsafe), 115
(DEDUCED, unsafe), 116 (DEDUCED, unsafe), 117 (DEDUCED, unsafe), 118 (DEDUCED, unsafe).
-/

namespace Sys2Proof.Machine

/-! ### What resets keep (R474, R527, R560) -/

/-- The dump granule (R522). -/
def dumpBase : Nat := 0xFF0000000

/-- What every reset keeps: time, the flash, host memory as written, the dump granule, the input and bank, the sideband and test port. -/
def resetState (s : State) : State :=
  { State.reset with
      pending := s.pending, now := s.now, free := s.free, mems := s.mems, msix := s.msix, power := s.power, jnl := journalCut s.jnl,
      fuses := s.fuses, i3c := s.i3c, jtag := s.jtag, perst := s.perst, pcieUp := s.pcieUp }

/-- R527: the registers that a chip warm reset keeps: CFG_GEN.LAST, every MBX_BIND, DBL_LOCK, ERR_FATAL, KPR_RESTARTS, CHP_SLOT, the DMP
page. -/
def warmKeeps (a : Nat) : Bool :=
  a == pgCfg + 0x4C || (decide (0x10000 ≤ a ∧ a < 0x50000) && a % 0x1000 == 0x40) || a == pgDbl + 0x40 || a == pgErr + 0x40 ||
  a == pgKpr + 0x44 || a == pgChp + 0x58 || a / 0x1000 * 0x1000 == pgDmp

/-- R474, R527: a chip warm reset, to BOOT; the scene clock runs on, the copy of a dump ends. -/
def warmReset (s : State) : State :=
  if s.cold then s
  else rsetBits { resetState s with regs := s.regs.filter (fun e => warmKeeps e.1), cold := false, sclTime := s.sclTime } (pgDmp + 0xC) 2 2 0

/-- R474, R560: a cold reset, to COLD; the PCIe link goes down. -/
def coldReset (s : State) : State := { resetState s with pcieUp := false }

/-- R558: BOOT begins. -/
def bootBegin (s : State) : State := { s with cold := false }

/-- P54V has stayed within 44 V to 59 V for 100 ms. -/
def inputSettled (s : State) : Bool := match s.power.inSince with
  | none => false
  | some t => decide (100000000 ≤ s.now - t)

/-- R558, R559: PERST_N is deasserted: SLOT_ID is sampled; BOOT begins if P54V has settled. -/
def perstRelease (s : State) (slot : Nat) : State :=
  let s1 := { rset s (pgChp + 0x58) slot with perst := false }
  if s.cold && inputSettled s then bootBegin s1 else s1

/-- R558: P54V has settled with PERST_N already deasserted. -/
def inputReady (s : State) : State := if s.cold && !s.perst && inputSettled s then bootBegin s else s

/-- R560: PERST_N is asserted. -/
def perstAssert (s : State) : State := { coldReset s with perst := true }

/-! ### Signed images (R478 to R481) -/

/-- The bytes of an image that R479 does not list are zero. -/
def imgZeros (h : List Byte) : Bool :=
  zeroAt h 22 2 && zeroAt h 28 4 && zeroAt h 129 7 && zeroAt h (136 + 8 * byteAt h 7) (512 - 136 - 8 * byteAt h 7) &&
  (List.range (byteAt h 7)).all (fun i => zeroAt h (136 + 8 * i + 1) 3 && zeroAt h (136 + 8 * i + 4) 2)

/-- R480: check 1. -/
def imgFormat (h : List Byte) : Bool :=
  fld h 0 4 == 0x5A494D47 && byteAt h 5 == 1 && decide (byteAt h 7 ≤ 32) &&
  decide (1 ≤ fld h 12 4 ∧ fld h 12 4 ≤ 67108864 - 608) && fld h 12 4 % 4 == 0 && imgZeros h

/-- The bytes of an image with header `h`. -/
def imgLength (h : List Byte) : Nat := 512 + fld h 12 4 + 96

/-- R480: checks 3: the key is a fused one and not revoked. -/
def imgKey (f : Fuses) (h : List Byte) : Bool :=
  match f.digests[byteAt h 6]? with
  | none => false
  | some d => !f.revoked.testBit (byteAt h 6) && beNat (sha384 ((h.drop 32).take 97)) == d

/-- R480: check 5. -/
def imgSigned (b : List Byte) : Bool :=
  let n := 512 + fld b 12 4
  let pub := (b.drop 33).take 96
  let sig := (b.drop n).take 96
  byteAt b 32 == 4 && ecdsaVerify (beNat (pub.take 48)) (beNat (pub.drop 48)) (beNat (sig.take 48)) (beNat (sig.drop 48)) (b.take n)

/-- R480: the result code of an image of one of some kinds: 0 when it verifies. -/
def imgVerify (f : Fuses) (kinds : List Nat) (b : List Byte) : Nat :=
  if b.length < 512 || !imgFormat b || decide (b.length < imgLength b) then 1
  else if !kinds.contains (byteAt b 4) then 2
  else if !imgKey f b then 3
  else if fld b 24 4 < f.epoch then 4
  else if !imgSigned b then 5
  else 0

/-- A slot of the SLC area as the boot ROM reads it: nothing when a codeword is unreadable. -/
def imgSlot (s : State) (slot : Nat) : List Byte :=
  let a := slot * 0x4000000
  let h := rd s .slc a 512
  let n := if imgFormat h then imgLength h else 512
  if (firstBad s.mems .slc a n).isSome then [] else rd s .slc a n

/-- R478, R480: the image of a kind: slot A, or slot B when A fails. -/
def slotImage (s : State) (kind : Nat) : Option Img :=
  let a := imgSlot s (2 * (kind - 1))
  if imgVerify s.fuses [kind] a = 0 then some ⟨0, a.take 512⟩
  else
    let b := imgSlot s (2 * (kind - 1) + 1)
    if imgVerify s.fuses [kind] b = 0 then some ⟨1, b.take 512⟩ else none

/-! ### Pairings (R482, R483) -/

/-- IMAGE_VERSION and IF_VERSION of an image. -/
def Img.version (i : Img) : Nat := fld i.hdr 8 4
def Img.ifVersion (i : Img) : Nat := fld i.hdr 16 2

/-- The PAIR list of an image names a partner with a value in [31:16]. -/
def Img.names (i : Img) (partner v : Nat) : Bool :=
  (List.range (byteAt i.hdr 7)).any (fun k => byteAt i.hdr (136 + 8 * k) == partner && fld i.hdr (136 + 8 * k + 6) 2 == v)

/-- R482: a pairing of the running images is not tested. -/
def untested (s : State) : Bool :=
  let step := rbits s (pgVer + 0x4C) 15 0
  let lone := fun (i : Option Img) => i.elim false (fun x => !x.names 0 step)
  lone s.kImg || lone s.uImg || match s.kImg, s.uImg with
  | some k, some u => !k.names 2 (u.version / 65536) && !u.names 1 (k.version / 65536)
  | _, _ => false

/-- R482: the majors of the two interface versions differ. -/
def ifMismatch (s : State) : Bool := match s.kImg, s.uImg with
  | some k, some u => k.ifVersion / 256 != u.ifVersion / 256
  | _, _ => false

/-- R483: the 12 bytes that CFG_PAIR.ID is the CRC-32C of. -/
def pairBytes (s : State) : List Byte :=
  leBytes 4 (rget s (pgVer + 0x50)) ++ leBytes 4 (rget s (pgVer + 0x54)) ++ leBytes 4 (rbits s (pgVer + 0x4C) 15 0)

/-- R481, R483, R495: the registers that report the running images, and CFG_PAIR.ID. -/
def imgRegs (s : State) : State :=
  let v := fun (i : Option Img) => i.elim 0 Img.version
  let f := fun (i : Option Img) => i.elim 0 Img.ifVersion
  let slot := fun (i : Option Img) => i.elim 3 (·.slot)
  let s1 := rset (rset s (pgVer + 0x50) (v s.kImg)) (pgVer + 0x54) (v s.uImg)
  let s2 := rset (rset s1 (pgVer + 0x58) (f s.kImg + f s.uImg * 2 ^ 16)) (pgVer + 0x5C) (slot s.kImg + slot s.uImg * 4)
  rset s2 (pgCfg + 0x50) (crc32c (pairBytes s2))

/-! ### Held reasons (R485, R486) -/

def hNoConfig : Nat := 0x001
def hIncomplete : Nat := 0x002
def hCrc : Nat := 0x004
def hInconsistent : Nat := 0x008
def hStale : Nat := 0x010
def hVerNone : Nat := 0x020
def hUntested : Nat := 0x040
def hIfMismatch : Nat := 0x080
def hImage : Nat := 0x100
def hD2d : Nat := 0x200
def hHbm : Nat := 0x400
def hInput : Nat := 0x800

/-- CFG_HELD.REASONS. -/
def reasons (s : State) : Nat := rbits s (pgCfg + 0x48) 11 0

/-- R486: set reasons at once; FIRST takes the lowest code of the earliest set since BOOT. -/
def heldSet (s : State) (m : Nat) : State :=
  let s1 := rsetBits s (pgCfg + 0x48) 11 0 (reasons s ||| m)
  if rbits s (pgCfg + 0x48) 23 16 = 0 then rsetBits s1 (pgCfg + 0x48) 23 16 ((((maskBits 12 m).head?).map (· + 1)).getD 0) else s1

/-! ### Applying the record (R494) -/

/-- R494: the fields that a configuration commit locks are locked. -/
def configLocked (s : State) : Bool := s.heldRec.isSome && decide (dvConfigured ≤ devState s) && reasons s == 0

/-- The binding that a record gives a channel (R491). -/
def recBind (r : List Byte) (c : Nat) : Nat :=
  if c < 60 then fld r (64 + 4 * c) 4 else if c = 62 then fld r 48 4 else fld r 52 4

/-- The channels a record binds. -/
def recChannels : List Nat := List.range 60 ++ [62, 63]

/-- R494: a held record is applied, and the device enters CONFIGURED; pending MSI-X messages go out (R485). -/
def recApply (s : State) (r : List Byte) : State :=
  let s1 := rsetBits (rset (rset s (pgCol + 0x40) (fld r 32 2)) (pgCol + 0x44) (fld r 36 4)) (pgPwr + 0x48) 31 16 (fld r 40 4)
  let s2 := (List.range 8).foldl (fun t i => rsetBits t (pgHbm i + 8) 0 0 (b2n (bit (byteAt r 44) i))) s1
  let s3 := if dblLocked s2 then s2 else dblLock (recChannels.foldl (fun t c => mbxBind t c (recBind r c)) s2)
  let s4 := enterState (rset s3 (pgCfg + 0x4C) (fld r 12 4)) dvConfigured
  { s4 with msix := s4.msix ++ s4.msixHeld, msixHeld := [] }

/-- R486, R494: in the cycle in which REASONS becomes 0 in HELD, the held record is applied. -/
def heldCheck (s : State) : State :=
  match s.heldRec with
  | none => s
  | some r => if devState s = dvHeld ∧ reasons s = 0 ∧ s.stop.isNone then recApply s r else s

/-- R486: clear reasons. -/
def heldClear (s : State) (m : Nat) : State :=
  heldCheck (rsetBits s (pgCfg + 0x48) 11 0 (reasons s &&& (0xFFF - m)))

/-! ### The boot sequence (R476, R477, R481) -/

/-- R312: memory is scrubbed but for the dump granule; flash is not. -/
def bootScrub (s : State) : State :=
  let kept := s.mems.hbm.filter (fun c => decide (dumpBase ≤ c.1 ∧ c.1 < dumpBase + 0x10000000))
  let keep := fun (k : Mark) => k.sp == .tier || k.sp == .slc || k.sp == .host ||
    (k.sp == .hbm && decide (dumpBase / 32 ≤ k.lo ∧ k.hi ≤ (dumpBase + 0x10000000) / 32))
  { s with mems := { s.mems with hbm := kept, slice := [], bench := [], acc := [], marks := s.mems.marks.filter keep } }

/-- R23, R545: the die-to-die links as training left them: bit 4r + k of `bad` for a failed link k of region r, and the modules in use. -/
def d2dTrain (s : State) (bad : Nat) (modules : List Nat) : State :=
  (List.range 16).foldl (fun t i =>
    let a := pgDie (i / 4) + 0x40 + 16 * (i % 4)
    if bit bad i then t else rset (rset t a 1) (a + 0xC) (modules.getD i 0)) s

/-- R288: the stacks as training left them. -/
def hbmTrain (s : State) (bad : Nat) : State :=
  (List.range 8).foldl (fun t i => if bit bad i then t else rsetBits t (pgHbm i + 0xC) 2 2 1) s

/-- R511: the boot input check: P54V out of range, or the bank too small or not measured. -/
def inputBad (s : State) : Bool := decide (s.power.vin < 44000 ∨ 59000 < s.power.vin)
def bankBad (s : State) : Bool := decide (s.power.cap < 15198)

/-- R465, R476: channels 60 and 61, unless a warm reset kept the bindings. -/
def bootBind (s : State) : State :=
  if dblLocked s then s else mbxBind (mbxBind s 60 (mKeeper + mHost * 2 ^ 16)) 61 (mKeeper + mBmc * 2 ^ 16)

/-- R476: the Keeper starts: it scrubs memory, resumes updates, and the sequencer runs if its microcode verified (R481). -/
def keeperStart (s : State) : State :=
  let s1 := rset (bootScrub s) (pgKpr + 0xC) (1 + b2n s.uImg.isSome * 4)
  journalResume (if s.uImg.isSome then s1 else raise s1 pgKpr 4)

/-- R476, R481, R511: the boot sequence, to HELD with every reason found at once. -/
def bootRun (s : State) (f : Fuses) (d2dBad : Nat) (modules : List Nat) (hbmBad : Nat) : State :=
  if s.cold ∨ devState s ≠ dvBoot ∨ s.stop.isSome then s
  else
    let s1 := hbmTrain (d2dTrain { s with fuses := f } d2dBad modules) hbmBad
    let s2 := bootBind (imgRegs { s1 with kImg := slotImage s1 1, uImg := slotImage s1 2, trained := true })
    let s3 := if s2.kImg.isSome then keeperStart s2 else s2
    let m := hNoConfig + b2n (untested s3) * hUntested + b2n (ifMismatch s3) * hIfMismatch +
      b2n (s3.kImg.isNone || s3.uImg.isNone) * hImage + b2n (d2dBad % 2 ^ 16 != 0) * hD2d + b2n (hbmBad % 2 ^ 8 != 0) * hHbm +
      b2n (s3.kImg.isSome && (inputBad s3 || bankBad s3)) * hInput
    enterState (heldSet (if s3.kImg.isSome && bankBad s3 then raise s3 pgPwr 0x400 else s3) m) dvHeld

/-- R511: INPUT_POWER clears once P54V has settled and the bank is measured healthy. -/
def inputCheck (s : State) : State :=
  if !s.cold && bit (reasons s) 11 && inputSettled s && !bankBad s then heldClear s hInput else s

/-! ### Versions (R488) -/

/-- The defined versions, highest first. -/
def versions : List Nat := [0x0302, 0x0301, 0x0300, 0x0208, 0x0207, 0x0206]

/-- R488: VER_ACTIVE for a request: the version with VALID, or 0. -/
def negotiate (k : Option Img) (req : Nat) : Nat :=
  let lo := k.elim 0 (fun i => fld i.hdr 18 2)
  let hi := k.elim 0 (fun i => fld i.hdr 20 2)
  match versions.find? (fun v => decide (v ≤ min req (min hi 0x0302))) with
  | none => 0
  | some v => if max 0x0206 lo ≤ v then v + 2 ^ 16 else 0

/-- R488, R540: a write of VER_REQUEST. -/
def verRequest (s : State) (v : Nat) : State :=
  let req := v % 65536
  if configLocked s then (if rbits s (pgVer + 0x44) 15 0 = req then s else lockedWrite s)
  else
    let s1 := rset (rset s (pgVer + 0x44) req) (pgVer + 0x48) (negotiate s.kImg req)
    if negotiate s.kImg req = 0 then raise s1 pgVer 1 else s1

/-! ### The configuration record (R491 to R494) -/

def cfgRefused (s : State) : State := raise s pgCfg 2

/-- R492: a word of the record window. -/
def cfgWord (s : State) (w v : Nat) : State :=
  if devState s ≠ dvHeld then raise s pgCfg 4
  else
    let m := pgCfg + 0x80 + 4 * (w / 32)
    rset (rset s (pgCfg + 0x100 + 4 * w) v) m (rget s m ||| 2 ^ (w % 32))

/-- R492: CLEAR. -/
def cfgClear (s : State) : State :=
  if devState s ≠ dvHeld then raise s pgCfg 4
  else { s with regs := tabClear (pgCfg + 0x100) (pgCfg + 0x500) (tabClear (pgCfg + 0x80) (pgCfg + 0xA0) s.regs) }

/-- The first of some words not written, as a byte offset. -/
def unwritten (s : State) (ws : List Nat) : Option Nat :=
  (ws.find? (fun w => !bit (rget s (pgCfg + 0x80 + 4 * (w / 32))) (w % 32))).map (4 * ·)

/-- R491: a binding of a channel is legal, given the bindings of the channels before it. -/
def bindLegal (s : State) (r : List Byte) (c : Nat) : Bool :=
  let v := recBind r c
  let a := v % 65536
  let b := v / 65536
  let seen := fun (id : Nat) => isVf id && (List.range c).any (fun k => recBind r k % 65536 == id || recBind r k / 65536 == id)
  (!dblLocked s || rget s (pgMbx c + 0x40) == v) &&
  (v == 0xFFFFFFFF || (identity a && identity b && a != b && !(decide (60 ≤ c) && (isVf a || isVf b)) &&
    !(decide (c < 60) && (seen a || seen b))))

/-- R491: the fields of a record that check 6 covers, in ascending offset, each with its verdict. -/
def recFields (s : State) (r : List Byte) : List (Nat × Bool) :=
  let zeros := fun (lo n : Nat) => (List.range n).map (fun i => (lo + i, byteAt r (lo + i) == 0))
  let node := fld r 32 2
  let tmo := fld r 36 4
  let res := fld r 40 4
  zeros 6 2 ++ zeros 16 12 ++ [(32, decide (node ≤ 20479) || node == 0x7FFF)] ++ zeros 34 2 ++
  [(36, decide (100 ≤ tmo ∧ tmo ≤ 10000000)), (40, decide (4000 ≤ res ∧ res ≤ 11000))] ++ zeros 45 3 ++
  [(48, bindLegal s r 62), (52, bindLegal s r 63)] ++ zeros 56 8 ++ (List.range 60).map (fun c => (64 + 4 * c, bindLegal s r c))

/-- R493: the reason and DETAIL of a commit; reason 0 when it passes. -/
def commitCheck (s : State) (r : List Byte) : Nat × Nat :=
  match unwritten s [0, 1, 2] with
  | some d => (hIncomplete, d)
  | none =>
    if fld r 0 4 ≠ 0x43464752 then (hInconsistent, 0)
    else if fld r 4 2 ≠ 1 then (hInconsistent, 4)
    else if fld r 8 4 ≠ 304 then (hInconsistent, 8)
    else match unwritten s (List.range 76) with
      | some d => (hIncomplete, d)
      | none =>
        if fld r 28 4 ≠ crc32c (r.take 28 ++ r.drop 32) then (hCrc, 28)
        else if fld r 12 4 ≤ rget s (pgCfg + 0x4C) then (hStale, 12)
        else match (recFields s r).find? (fun x => !x.2) with
          | some x => (hInconsistent, x.1)
          | none => if bit (rget s (pgVer + 0x48)) 16 then (0, 0) else (hVerNone, 0)

/-- The record in the window. -/
def windowRecord (s : State) : List Byte := (List.range 76).flatMap (fun w => leBytes 4 (rget s (pgCfg + 0x100 + 4 * w)))

/-- R493: COMMIT. -/
def cfgCommit (s : State) : State :=
  if devState s ≠ dvHeld ∨ bit (rget s (pgCfg + 0xC)) 0 ∨ s.stop.isSome then cfgRefused s
  else
    let r := windowRecord s
    let s1 := rsetBits s (pgCfg + 0x48) 11 0 (reasons s &&& (0xFFF - 0x3E))
    match commitCheck s r with
    | (0, _) => heldClear (raise (rset { s1 with heldRec := some r } (pgCfg + 0x44) 0) pgCfg 1) hNoConfig
    | (m, d) => raise (rset (heldSet s1 m) (pgCfg + 0x44) (m.log2 + 1 + d * 2 ^ 8)) pgCfg 1

/-- R475, R494: START. -/
def cfgStart (s : State) : State :=
  if devState s ≠ dvConfigured ∨ s.stop.isSome then cfgRefused s else enterState s dvRunning

/-- A write of CFG_CMD. -/
def cfgCmd (s : State) (v : Nat) : State :=
  match v % 4 with
  | 1 => cfgCommit s
  | 2 => cfgStart s
  | 3 => cfgClear s
  | _ => s

/-! ### Acceptance (R483) -/

/-- R483: a write of CFG_ACCEPT. -/
def cfgAccept (s : State) (v : Nat) : State :=
  if !bit (reasons s) 6 || v % 2 ^ 32 != rget s (pgCfg + 0x50) then raise s pgCfg 0x20
  else if rget s (pgCfg + 0x58) = 1 then s
  else match recQueue s .accept 4 (padded (pairBytes s ++ leBytes 4 (rget s (pgCfg + 0x50)))) with
    | (t, true) => rset t (pgCfg + 0x58) 1
    | (t, false) => t

/-- R483: the acceptance record is written. -/
def acceptDone (s : State) : State :=
  if rget s (pgCfg + 0x58) ≠ 1 ∨ s.jnl.work.any (fun w => w.what == .accept) then s
  else heldClear (raise (rset s (pgCfg + 0x58) 2) pgCfg 0x10) hUntested

/-! ### Image load (R484) -/

/-- R484: the running image of a kind is replaced. -/
def imgInstall (s : State) (h : List Byte) : State :=
  if byteAt h 4 = 1 then
    rsetBits (bumpSat (raise { s with kImg := some ⟨2, h⟩ } pgKpr 1) (pgKpr + 0x44) 1) (pgKpr + 0xC) 2 0 (1 + b2n s.uImg.isSome * 4)
  else rsetBits { s with uImg := some ⟨2, h⟩ } (pgKpr + 0xC) 2 2 1

/-- R484, R486: after a load that succeeds, the pairings are checked again, an acceptance and a held record are discarded. -/
def imgRecheck (s : State) : State :=
  let s1 := imgRegs { s with heldRec := none, jnl := { s.jnl with work := s.jnl.work.filter (fun w => w.what != .accept) } }
  let gone := hUntested + hIfMismatch + hImage
  let s2 := rset (rsetBits s1 (pgCfg + 0x48) 11 0 (reasons s1 &&& (0xFFF - gone))) (pgCfg + 0x58) 0
  heldSet s2 (hNoConfig + b2n (untested s2) * hUntested + b2n (ifMismatch s2) * hIfMismatch +
    b2n (s2.kImg.isNone || s2.uImg.isNone) * hImage)

/-- The image at an HBM physical address: nothing where it cannot be read. -/
def hbmImage (s : State) (a : Nat) : State × List Byte :=
  if a % 4096 ≠ 0 then (s, [])
  else match keeperRead s a 512 with
    | (s1, none) => (s1, [])
    | (s1, some h) => if !imgFormat h then (s1, h) else
      match keeperRead s1 a (imgLength h) with
      | (s2, none) => (s2, [])
      | (s2, some b) => (s2, b)

/-- R484: LOAD and LOAD_STORE. -/
def imgLoad (s : State) (store : Bool) : State :=
  if devState s ≠ dvHeld ∨ bit (rget s (pgCfg + 0xC)) 0 ∨ s.stop.isSome then cfgRefused s
  else
    let (s1, b) := hbmImage s (rget64 s (pgCfg + 0x68))
    let code := imgVerify s.fuses [1, 2] b
    let s2 := rset s1 (pgCfg + 0x74) code
    if code ≠ 0 then raise s2 pgCfg 8
    else
      let kind := byteAt b 4
      let s3 := imgRecheck (imgInstall s2 (b.take 512))
      let w : JWork := ⟨.image kind, (kind - 1) * 0x8000000, b, 0, 0, 0, 0⟩
      raise (if store then { s3 with jnl := { s3.jnl with work := s3.jnl.work ++ [w] } } else s3) pgCfg 8

/-- A write of CFG_IMG_CMD. -/
def imgCmd (s : State) (v : Nat) : State :=
  match v % 4 with
  | 1 => imgLoad s false
  | 2 => imgLoad s true
  | _ => s

/-! ### The status block (R487) -/

/-- What a change of brings a write of the block: STATE, REASONS, CFG_STATUS, CFG_ACCEPT_STATUS. -/
def blockKey (s : State) : List Nat := [devState s, reasons s, rget s (pgCfg + 0x44), rget s (pgCfg + 0x58)]

/-- R487: the 64 bytes of the block. -/
def statusBlock (s : State) (writes : Nat) : List Byte :=
  let v := rget s (pgVer + 0x48)
  leBytes 4 0x53424C4B ++ leBytes 1 (devState s) ++ leBytes 1 (rbits s (pgCfg + 0x48) 23 16) ++ leBytes 1 (rget s (pgCfg + 0x44)) ++
  leBytes 1 (rget s (pgCfg + 0x58)) ++ leBytes 4 (reasons s) ++ leBytes 4 (rget s (pgCfg + 0x4C)) ++
  leBytes 2 (v % 2 ^ 15 + bits v 16 16 * 2 ^ 15) ++ leBytes 2 0 ++ leBytes 4 (rget s (pgCfg + 0x50)) ++ leBytes 8 s.sclTime ++
  leBytes 4 writes ++ List.replicate 28 0#8

/-- R487: the device writes the block, after a change or 100 ms, while CFG_SBLK is set and the PF may master. -/
def blockWrite (s : State) (bme : Bool) : State :=
  let a := rget64 s (pgCfg + 0x60)
  let n := (s.sblk.1.getD 4 0)
  if s.cold ∨ devState s = dvBoot ∨ a = 0 ∨ bme = false ∨ s.pcieUp = false then s
  else if s.sblk.1.take 4 = blockKey s ∧ s.now - s.sblk.2 < 100000000 then s
  else { wr s .host (a / 64 * 64) (statusBlock s (n + 1)) with sblk := (blockKey s ++ [n + 1], s.now) }

/-- R542: the Keeper's heartbeat. -/
def heartbeat (s : State) : State := if !s.cold && keeperRuns s then bumpWrap s (pgKpr + 0x40) 1 else s

end Sys2Proof.Machine
end

