-- ==== Sys2Proof/Machine/Power.lean ====
section
/-!
DEFINITION. Machine/Power.lean: the input and the hold-up bank (R497 to R504, R511), throttle levels (R503), temperatures of
dies, engines and coolant (R509) and of the stacks (R298), region gating (R510).
Log entries that code here: 50 (DEDUCED, unsafe), 74 (DEDUCED, unsafe), 107 (DEDUCED, unsafe), 119 (DESIGN CHOICE, unsafe), 120 (DEDUCED,
unsafe), 121 (DEDUCED, unsafe), 122 (DEDUCED, unsafe), 126 (DEDUCED, unsafe).
-/

namespace Sys2Proof.Machine

/-! ### The input (R497, R498, R501) -/

/-- STATUS.INPUT. -/
def inputStatus (s : State) : Nat := rbits s (pgPwr + 0xC) 1 0

/-- R501: the power stop; `fed`: the bank switch closes and the bank feeds it. -/
def powerStop (s : State) (fed : Bool) : State :=
  if s.cold ∨ inputStatus s = 3 then s
  else
    let s1 := rsetBits (raise s pgPwr 8) (pgPwr + 0xC) 1 0 3
    let s2 := if fed then { s1 with power := { s1.power with bankOpen := false } } else s1
    stopCause s2 7 3 0 stFailedDevice false

/-- The time a condition has held without a break. -/
def since (s : State) (old : Option Nat) (holds : Bool) : Option Nat := if holds then some (old.getD s.now) else none

/-- A condition has held for more than `n` ns. -/
def heldOver (s : State) (t : Option Nat) (n : Nat) : Bool := t.elim false (fun x => decide (n < s.now - x))

/-- R497: the charger runs. -/
def charging (p : Power) : Bool := p.live && !p.inputOpen && decide (44000 ≤ p.vin) && decide (p.bank < 54000)

/-- R497, R504: the new readings, and how long each condition of the input has held. -/
def powerRead (s : State) (vin bank : Nat) : Power :=
  let p := s.power
  let q := { p with vin := vin, bank := bank }
  { q with
    okSince := since s p.okSince (decide (44000 ≤ vin)), inSince := since s p.inSince (decide (44000 ≤ vin ∧ vin ≤ 59000))
    dip := since s p.dip (decide (vin < 44000)), under38 := since s p.under38 (decide (vin < 38000))
    under36 := since s p.under36 (decide (vin < 36000)), over59 := since s p.over59 (decide (59000 < vin))
    bankOpen := p.bankOpen && decide (vin < 44000)
    chargeAt := if bank < 50000 then none else if charging q then some (p.chargeAt.getD s.now) else if bank < 54000 then none else p.chargeAt }

/-- R498, R499: a dip or a surge begins, a dip ends. -/
def inputEvents (s : State) (p : Power) : State :=
  let s1 := rsetBits s (pgPwr + 0x40) 31 16 (min (rbits s (pgPwr + 0x40) 31 16) s.power.vin)
  let s2 := if s.power.dip.isSome && p.dip.isNone then bumpSat (raise s1 pgPwr 1) (pgPwr + 0x4C) 1 else s1
  let s3 := if s.power.over59.isSome && p.over59.isNone && decide (s.power.vin ≤ 64000) then
    bumpSat (raise s2 pgPwr 0x10) (pgPwr + 0x58) 1 else s2
  if inputStatus s3 = 0 ∧ s3.power.dip.isSome then rsetBits s3 (pgPwr + 0xC) 1 0 1
  else if inputStatus s3 = 1 ∧ s3.power.dip.isNone then rsetBits s3 (pgPwr + 0xC) 1 0 0 else s3

/-- R498: the input switch opens, and the bank feeds a power stop. -/
def overVoltage (s : State) : State := powerStop { s with power := { s.power with inputOpen := true } } true

/-- R497, R498, R499, R501, R511: a sample of P54V and the bank, in mV. -/
def powerSample (s : State) (vin bank : Nat) : State :=
  if !s.power.live then s
  else
    let s1 := { s with power := powerRead s vin bank }
    if s.cold then s1
    else
      let s2 := inputEvents s1 s.power
      let s3 := if 64000 < vin then overVoltage s2 else s2
      let s4 := if heldOver s3 s3.power.under36 50000 then powerStop s3 true
        else if heldOver s3 s3.power.under38 10000000 then powerStop s3 false else s3
      inputCheck s4

/-- R498: P54V has been above 59 V for more than 10 ms. -/
def surgeTimer (s : State) : State := if heldOver s s.power.over59 10000000 then overVoltage s else s

/-! ### Dips (R499, R500) -/

/-- The DERATE of every stack after a cause changed (R297, R499). -/
def derateAll (s : State) : State := (List.range 8).foldl derateUpdate s

/-- R499: the bank switch opens 2 ms into a dip or at 48.9 V, and the power throttle applies. -/
def bankOpen (s : State) : State :=
  match s.power.dip with
  | none => s
  | some t =>
    if s.cold || s.power.bankOpen || inputStatus s == 3 || decide (s.now - t < 2000000 ∧ 48900 < s.power.bank) then s
    else
      let s1 := rsetBits { s with power := { s.power with bankOpen := true } } (pgPwr + 0x5C) 12 8 4
      bumpSat (raise (derateAll (rsetBits s1 (pgPwr + 0xC) 1 0 2)) pgPwr 2) (pgPwr + 0x50) 1

/-- R500: P54V has been at 44 V or above for 10 ms: the power throttle is released. -/
def dipRecover (s : State) : State :=
  if rbits s (pgPwr + 0x5C) 12 8 = 16 ∨ s.cold ∨ inputStatus s = 3 ∨ s.power.okSince.elim true (fun t => decide (s.now - t < 10000000)) = true then s
  else raise (derateAll (rsetBits (rsetBits s (pgPwr + 0x5C) 12 8 16) (pgPwr + 0xC) 1 0 0)) pgPwr 4

/-- R503: the lowest request becomes the level in force. -/
def levelChange (s : State) : State :=
  let q := min (rbits s (pgPwr + 0x5C) 12 8) (rbits s (pgPwr + 0x5C) 20 16)
  if s.cold then s else { rsetBits s (pgPwr + 0x5C) 4 0 q with throttle := q }

/-! ### The bank (R504, R511) -/

/-- R504: PWR_HOLDUP.MJ. -/
def energyTick (s : State) : State :=
  if s.cold || !keeperRuns s then s else rsetBits s (pgPwr + 0x48) 15 0 (min (holdupMj s) 65535)

/-- R504: the charger has taken the bank from 50 V to 54 V: C_meas = 2.0 A × t / 4 V, in µF. -/
def capMeasure (s : State) : State :=
  match s.power.chargeAt with
  | none => s
  | some t => if s.power.bank < 54000 then s
    else inputCheck { s with power := { s.power with cap := min ((s.now - t) / 2000) 65535, chargeAt := none } }

/-- R554: a live busbar is connected to the unpowered module. -/
def busConnect (s : State) : State := if s.power.live then s else { s with power := { powerInit with live := true } }

/-- R474: P54V is lost and the bank is spent: a cold reset, and the dump granule goes too (R527). -/
def busLoss (s : State) : State :=
  if !s.power.live then s
  else
    let s1 := coldReset s
    { s1 with
      power := powerInit, jtag := .idcode, i3c := { s1.i3c with addr := none, status := 0, data := 0 },
      mems := { s1.mems with hbm := [], slice := [], bench := [], acc := [], marks := s1.mems.marks.filter (fun k => k.sp == .tier || k.sp == .slc || k.sp == .host) } }

/-! ### Stacks (R298) -/

/-- THERMAL of a stack. -/
def stackHeat (s : State) (st : Nat) : Nat := rbits s (pgHbm st + 0xC) 1 0

/-- Since when a sensor (stack `st` at 16 + st) has been cool enough to return. -/
def coolAt (s : State) (d : Nat) : Option Nat := (s.power.cool.find? (fun e => e.1 == d)).map (·.2)
def coolSet (s : State) (d : Nat) (t : Option Nat) : State :=
  let l := s.power.cool.filter (fun e => e.1 != d)
  { s with power := { s.power with cool := match t with
      | none => l
      | some x => (d, x) :: l } }

/-- A stack's SLOW notices went out now (R298, R360). -/
def slowNow (s : State) (st temp : Nat) : State :=
  let s1 := slowSend s st temp
  { s1 with power := { s1.power with slowAt := (st, s1.now) :: s1.power.slowAt.filter (fun e => e.1 != st) } }

/-- R298, R299: a thermal stop. -/
def thermalStop (s : State) (inst : Nat) : State := stopCause s 6 3 inst stThermalAbort false

/-- R298: the Keeper reads a stack's temperature. -/
def hbmTemp (s : State) (st temp : Nat) : State :=
  if s.cold || !keeperRuns s then s
  else
    let v := rget s (pgHbm st + 0x40)
    let s1 := rset s (pgHbm st + 0x40) (setBits (setBits v 7 0 temp) 15 8 (max (bits v 15 8) temp))
    let h := stackHeat s1 st
    if h = 2 then s1
    else if 105 ≤ temp then thermalStop (raise (rsetBits s1 (pgHbm st + 0xC) 1 0 2) (pgHbm st) 4) st
    else if h = 0 ∧ 95 ≤ temp then
      let s2 := derateUpdate (rsetBits (rsetBits s1 (pgHbm st + 0xC) 1 0 1) (pgHbm st + 0xC) 3 3 1) st
      slowNow (coolSet (raise s2 (pgHbm st) 1) (16 + st) none) st temp
    else coolSet s1 (16 + st) (since s1 (coolAt s1 (16 + st)) (h == 1 && decide (temp ≤ 90)))

/-- R298: a HOT stack read at 90 °C or below for 10 ms returns to NORMAL. -/
def hbmCool (s : State) (st : Nat) : State :=
  if s.cold || stackHeat s st != 1 || (coolAt s (16 + st)).elim true (fun t => decide (s.now - t < 10000000)) then s
  else raise (derateUpdate (rsetBits (rsetBits (coolSet s (16 + st) none) (pgHbm st + 0xC) 1 0 0) (pgHbm st + 0xC) 3 3 0) st) (pgHbm st) 2

/-- R298, R360: the SLOW notices of a HOT stack, every 1 ms. -/
def slowTimer (s : State) (st : Nat) : State :=
  let due := (s.power.slowAt.find? (fun e => e.1 == st)).elim true (fun e => decide (1000000 ≤ s.now - e.2))
  if s.cold || stackHeat s st != 1 || !due || s.stop.isSome then s else slowNow s st (rbits s (pgHbm st + 0x40) 7 0)

/-! ### Dies, engines, coolant (R509) -/

/-- The step of a sensor. -/
def heatStep (s : State) (d : Nat) : Nat := tabGet (fun _ => 0) s.power.steps d
def heatSet (s : State) (d v : Nat) : State :=
  { s with power := { s.power with steps := tabPut (fun _ => 0) s.power.steps d v } }

/-- The step of a compute die at a temperature, the threshold of a step, the level a step requests. -/
def dieStep (t : Nat) : Nat := if 115 ≤ t then 4 else if 110 ≤ t then 3 else if 105 ≤ t then 2 else if 100 ≤ t then 1 else 0
def dieLimit (step : Nat) : Nat := 95 + 5 * step
def dieLevel (step : Nat) : Nat := if step = 0 then 16 else if step = 1 then 12 else if step = 2 then 8 else 4

/-- The thermal request: the lowest of the compute dies. -/
def thermalReq (s : State) : State :=
  rsetBits s (pgPwr + 0x5C) 20 16 ((List.range 4).foldl (fun m d => min m (dieLevel (heatStep s d))) 16)

/-- R509: a compute die's reading. -/
def dieRead (s : State) (d temp : Nat) : State :=
  let old := heatStep s d
  let new := dieStep temp
  if old < new then
    let s1 := thermalReq (heatSet (coolSet s d none) d new)
    let s2 := if old = 0 then raise s1 pgPwr 0x80 else s1
    if new = 4 then thermalStop s2 d else s2
  else coolSet s d (since s (coolAt s d) (old != 0 && decide (temp + 5 ≤ dieLimit old)))

/-- R509: the reading of an optical engine: its lane groups go down at 85 °C, and train again from 75 °C. -/
def opticRead (s : State) (e temp : Nat) : State :=
  if heatStep s (5 + e) = 0 then
    if temp < 85 then s
    else [2 * e, 2 * e + 1].foldl (fun t g => if lnkState t g = 0 then t else lnkDown t g 9) (heatSet s (5 + e) 1)
  else if temp ≤ 75 then heatSet s (5 + e) 0 else s

/-- R509: the Keeper reads sensor `d`; `layer` is the hottest SRAM layer above a compute die (R546). -/
def dieReading (s : State) (d temp layer : Nat) : State :=
  if s.cold || !keeperRuns s then s
  else
    let v := rget s (pgPwr + 0x80 + 4 * d)
    let s1 := rset s (pgPwr + 0x80 + 4 * d) (setBits (setBits v 7 0 temp) 15 8 (max (bits v 15 8) temp))
    if d < 4 then dieRead (rsetBits s1 (pgSram d + 0x60) 7 0 layer) d temp
    else if d = 4 then (if 110 ≤ temp ∧ heatStep s1 4 = 0 then thermalStop (heatSet s1 4 1) 4 else s1)
    else if d < 13 then opticRead s1 (d - 5) temp
    else if d = 13 ∧ 45 < temp then raise s1 pgPwr 0x200
    else s1

/-- R509: every reading of a die has been 5 °C below its step for 10 ms: one step down. -/
def dieCool (s : State) (d : Nat) : State :=
  let step := heatStep s d
  if s.cold || decide (4 ≤ d) || step == 0 || (coolAt s d).elim true (fun t => decide (s.now - t < 10000000)) then s
  else raise (thermalReq (heatSet (coolSet s d none) d (step - 1))) pgPwr 0x100

/-! ### Region gating (R510) -/

/-- R510: region `r` may be gated. -/
def gateOk (s : State) (r : Nat) : Bool :=
  s.parts.all (fun e => e.2.st == 0 || e.2.cells.all (fun c => c / 256 != r)) &&
  (heldGrans s (2 * r)).isEmpty && (heldGrans s (2 * r + 1)).isEmpty &&
  (List.range 4).all (fun i => rbits s (pgLnk (4 * r + i) + 8) 0 0 == 0) && !(s.sess.any (fun x => x.region == r))

/-- R510: one bit of PWR_GATE.REGIONS is written. -/
def gateBit (s : State) (r : Nat) (on : Bool) : State :=
  let was := bit (rget s (pgPwr + 0x74)) r
  if on && !was then
    if gateOk s r then
      channelsOff (rsetBits { s with dark := if s.dark.contains r then s.dark else r :: s.dark } (pgPwr + 0x74) r r 1) (mRegion r)
    else raise s pgPwr 0x2000
  else if !on && was then ungate s r
  else s

/-- R510: a write of PWR_GATE. -/
def gateWrite (s : State) (v : Nat) : State := [1, 2, 3].foldl (fun t r => gateBit t r (bit v r)) s

end Sys2Proof.Machine
end

