-- ==== Sys2Proof/Machine/Regs.lean ====
section
/-!
DEFINITION. Machine/Regs.lean: what a read of a register returns and what a write does: the common header (R15), the access codes
(R16 to R18), 64-bit registers (R14), events (R536, R538, R539), locked fields (R540), and the registers whose writes are commands of
their own.
Log entries that code here: 33 (DEDUCED, unsafe), 34 (DESIGN CHOICE, safe), 87 (DEDUCED, unsafe), 112 (DEDUCED, unsafe), 113 (DEDUCED,
unsafe), 128 (DEDUCED, unsafe).
-/

namespace Sys2Proof.Machine

/-! ### Values that the block computes when they are read -/

/-- RGN_EVT_SUM (R543): the bit of a pending page of the region. -/
def rgnSumBit (pg : Nat) : Nat :=
  match pageOf pg with
  | some (.rgn, _) => 0 | some (.arb, _) => 1 | some (.brg, i) => 2 + i % 8 | some (.vidPixel, _) => 10 | some (.vidEntropy, _) => 11
  | some (.dieLink, _) => 12 | some (.sram, _) => 13 | some (.rgnErr, _) => 14
  | _ => 16 + (pg % 0x4000000 / 0x200000 - 1)

/-- BLK_EVT_SUM (R547): the bit of a pending page of the block. -/
def blkSumBit (pg : Nat) : Nat :=
  match pageOf pg with
  | some (.blk, _) => 0 | some (.router, _) => 1 | some (.gsu, _) => 2 | some (.lck, _) => 3 | some (.blkErr, _) => 4
  | _ => 16 + (pg % 0x200000 - 0x40000) / 0x10000

/-- The bits that a list of pages sets. -/
def orBits (f : Nat → Nat) (l : List Nat) : Nat := l.foldl (fun a p => a ||| 2 ^ f p) 0

/-- Pending pages in [lo, hi). -/
def pendIn (s : State) (lo hi : Nat) : List Nat := (pendingPages s).filter (fun p => decide (lo ≤ p ∧ p < hi))

/-- CHP_LNK_SUM and CHP_MBX_SUM (R541). -/
def lnkSum (s : State) : Nat := orBits (fun p => (p - 0x300000) / 0x10000) (pendIn s 0x300000 0x400000)
def mbxSum (s : State) : Nat := orBits (fun p => (p - 0x10000) / 0x1000) (pendIn s 0x10000 0x50000)

/-- KPR_PENDING (R542): PRT, CFG, ERR_RESET and journal commands accepted and not complete; weir commits complete at once. -/
def keeperPending (s : State) : Nat :=
  b2n (bit (rget s (pgPrt + 0xC)) 0) + b2n (rget s (pgCfg + 0x58) == 1) + b2n (bit (rget s (pgErr + 0x4C)) 8) +
  b2n (bit (rget s (pgPwr + 0x6C)) 8)

/-- The 32 bytes of a record of the error log (R526). -/
def ErrRec.bytes (r : ErrRec) : List Byte :=
  leBytes 8 r.time ++ leBytes 4 r.page ++ leBytes 1 r.evt ++ leBytes 1 r.level ++ leBytes 2 r.scope ++ (r.capt.take 4).flatMap (leBytes 4)

/-- ERR_LOGDATAi (R531). -/
def logData (s : State) (i : Nat) : Nat :=
  match s.errLog[rbits s (pgErr + 0x64) 11 0]? with
  | none => 0
  | some r => fld r.bytes (4 * i) 4

/-- A weir's credit in whole bytes, truncated towards zero (R317). -/
def creditWord (s : State) (w : Nat) : Nat := ofSigned 32 (Int.tdiv (creditGet s w) (2 ^ 24))

/-- A word of a reset record (R435). -/
def recWord (s : State) (p i : Nat) : Nat := fld (partGet s p).rrec (4 * i) 4

/-- The registers of PRT that report what exists (R436). -/
def prtLive (s : State) (off : Nat) : Option Nat :=
  let p := rbits s (pgPrt + 0x40) 9 0
  if off = 0x4C ∧ activeVersion s < 0x0301 then some 0
  else if off = 0x60 then some ((partGet s p).st + (partGet s p).cells.length * 2 ^ 3)
  else if off = 0x64 then some (partGet s p).resets
  else if off = 0x68 then some (freeCells s).length
  else if 0x70 ≤ off ∧ off < 0x90 then some (freeGrans s ((off - 0x70) / 4)).length
  else if 0x180 ≤ off ∧ off < 0x200 then
    let free := freeCells s
    some ((List.range 32).foldl (fun a j => a + b2n (free.contains ((off - 0x180) / 4 * 32 + j)) * 2 ^ j) 0)
  else if 0x200 ≤ off ∧ off < 0x240 then some (recWord s p ((off - 0x200) / 4))
  else none

/-- The registers of PWR that report the input and the bank (R512). -/
def pwrLive (s : State) (off : Nat) : Option Nat :=
  if off = 0xC then some (inputStatus s + b2n (!s.power.bankOpen) * 4 + b2n (charging s.power) * 8)
  else if off = 0x40 then some (setBits (rget s (pgPwr + 0x40)) 15 0 (min s.power.vin 65535))
  else if off = 0x44 then some (min s.power.bank 65535 + s.power.cap % 65536 * 2 ^ 16)
  else if off = 0x70 then some (logFree s.jnl)
  else none

/-- CEL_CYCLES (R551): the stored value is the count less the cycles since reset, unless the page is frozen. -/
def celCycles (s : State) (c : Nat) : Nat :=
  let v := rget64 s (pgPerf c + 0x48)
  if bit (rget s (pgPerf c + 8)) 0 then v else (v + cyclesOf s.now) % 2 ^ 64

/-- STATUS of a cell (R108). -/
def celStatus (s : State) (c : Nat) : Nat :=
  let x := cellGet s c
  cellState s c + min x.queue.length 16 * 2 ^ 4 + (x.run.elim 0 (fun jr => jr.jig.id % 65536)) * 2 ^ 16

/-- A STATE_SAVE or STATE_LOAD of a cell is running (R223). -/
def moveBusy (s : State) (c : Nat) : Bool :=
  (cellGet s c).run.elim false (fun jr => jr.issued.any (fun r => dOp r.desc == 0x13 || dOp r.desc == 0x14))

/-- The registers of a cell's pages that the cell computes. -/
def cellLive (s : State) (pg : Page) (c off : Nat) : Option Nat :=
  match pg with
  | .cel => if off = 0xC then some (celStatus s c) else none
  | .vector =>
    if off = 0x50 then some (rget s (pgVector c + 0x50) / 2 * 2 + b2n (cellGet s c).mpLoad.isSome)
    else if off = 0x58 then some (mpValid s c % 2 ^ 32) else if off = 0x5C then some (mpValid s c / 2 ^ 32) else none
  | .state =>
    if off = 0xC then some (b2n (inStep s c) + 2 * b2n (moveBusy s c)) else if off = 0x44 then some (stateSlots s c) else none
  | .slice => if off = 0x4C then some (streamStatus s c) else none
  | .perf => if off = 0x48 then some (celCycles s c % 2 ^ 32) else if off = 0x4C then some (celCycles s c / 2 ^ 32) else none
  | _ => none

/-- The Lock whose LCK_STATE stands at an offset of a page (R341). -/
def lockAt (pg : Page) (i off : Nat) : Option Nat :=
  match pg with
  | .lck => if 0x40 ≤ off ∧ off < 0x140 ∧ off % 16 = 0 then some (16 * i + (off - 0x40) / 16) else none
  | .dieLink =>
    if 0x200 ≤ off ∧ off < 0x240 ∧ off % 16 = 0 then some (lockDie i ((off - 0x200) / 16))
    else if off = 0x240 then some (lockHub i) else none
  | .fls => if 0x100 ≤ off ∧ off < 0x300 ∧ off % 16 = 0 then some (lockFlash ((off - 0x100) / 16)) else none
  | _ => none

/-- Sessions of a region of a kind (R411). -/
def sessionsOf (s : State) (r k : Nat) : Nat := (s.sess.filter (fun x => x.region == r && x.kind == k)).length

/-- The registers of region and block pages that the block computes. -/
def regionLive (s : State) (pg : Page) (i off : Nat) : Option Nat :=
  match pg with
  | .rgn => if off = 0x40 then some (orBits rgnSumBit (pendIn s (regionBase i) (regionBase (i + 1)))) else none
  | .blk => if off = 0x40 then some (orBits blkSumBit (pendIn s (blockBase i) (blockBase i + 0x200000))) else none
  | .brg => if off = 0xC then some (min (s.barges.filter (fun b => b.engine == i)).length 256 + (activeBarges s i).length * 2 ^ 9) else none
  | .vidPixel =>
    if off = 0x40 then some (regionRate s i 0) else if off = 0x44 then some (regionRate s i 1)
    else if off = 0x48 then some (sessionsOf s i 0 + sessionsOf s i 1 * 2 ^ 8) else none
  | .gsu => if off = 0xC then some ((gsuBusy s i).elim 0 (fun c => 1 + 2 * c)) else none
  | _ => (lockAt pg i off).map (lockState s)

/-- The registers of chip and VF pages that the block computes. -/
def chipLive (s : State) (pg : Page) (i off : Nat) : Option Nat :=
  match pg with
  | .chp =>
    if off = 0x50 then some (Config.serial.toNat % 2 ^ 32) else if off = 0x54 then some (Config.serial.toNat / 2 ^ 32)
    else if off = 0x60 then some (chpEvtSum s) else if off = 0x64 then some (lnkSum s)
    else if off = 0x68 then some (mbxSum s % 2 ^ 32) else if off = 0x6C then some (mbxSum s / 2 ^ 32) else none
  | .kpr => if off = 0x4C then some (keeperPending s) else if off = 0x48 then some (Config.freeNat s.free % 1001) else none
  | .mbx => if off = 0x54 then some ((mbxqGet s i).ab.length + (mbxqGet s i).ba.length * 2 ^ 8) else none
  | .dbl => if 0x100 ≤ off ∧ off < 0x170 ∧ off % 16 = 8 then some (dblPend s (pgDbl + off - 8)) else none
  | .prt => prtLive s off
  | .wei => if 0x40 ≤ off ∧ off < 0x840 ∧ off % 16 = 8 then some (creditWord s (pgWei (i / 8) (i % 8) + off - 8)) else none
  | .lnkWei => if 0x40 ≤ off ∧ off < 0x840 ∧ off % 16 = 8 then some (creditWord s (pgLnkWei (i / 8) (i % 8) + off - 8)) else none
  | .fls => (lockAt .fls i off).map (lockState s)
  | .col => if off = 0xC then some (s.cruns.filter (fun r => r.started && !r.reclaim)).length else if off = 0x5C then some s.tags.length else none
  | .aln =>
    if 0x100 ≤ off ∧ off < 0x500 ∧ off % 16 = 8 then some (alnOwner s ((off - 0x100) / 16))
    else if 0x100 ≤ off ∧ off < 0x500 ∧ off % 16 = 12 then some (alnNext s ((off - 0x100) / 16)) else none
  | .scl =>
    if off = 0x40 then some (s.sclTime % 2 ^ 32) else if off = 0x44 then some (s.sclTime / 2 ^ 32 % 2 ^ 32)
    else if off = 0x60 then some s.tts.length else none
  | .pwr => pwrLive s off
  | .err => if 0x80 ≤ off ∧ off < 0xA0 then some (logData s ((off - 0x80) / 4)) else none
  | .partId =>
    let q := partGet s i
    if off = 0xC then some q.st else if off = 0x40 then some (i + q.cells.length * 2 ^ 10)
    else if off = 0x44 then some (b2n q.rt + 2 * b2n q.rb)
    else if 0x80 ≤ off ∧ off < 0xC0 then some (recWord s i ((off - 0x80) / 4)) else none
  | .amb => if off = 0xC8 then some (dblPend s (pgAmb i + 0xC0)) else none
  | .cmp =>
    if 0x114 ≤ off ∧ off < 0x300 ∧ off % 32 = 0x14 then some (cqHeld s i ((off - 0x100) / 32))
    else if 0x10C ≤ off ∧ off < 0x300 ∧ off % 32 = 0xC ∧ activeVersion s < 0x0302 then
      some (setBits (rget s (pgCmp i + off)) 25 16 0) else none
  | _ => none

/-- A computed register. -/
def liveReg (s : State) (pg : Page) (i off : Nat) : Option Nat :=
  match chipLive s pg i off with
  | some v => some v
  | none => match regionLive s pg i off with
    | some v => some v
    | none => cellLive s pg i off

/-- R15 to R17: the value of the register at an aligned address, with no side effect: MBX_POP and write-only fields read 0. -/
def peek (s : State) (a : Nat) : Nat :=
  match pageOf a with
  | none => 0
  | some (pg, i) =>
    let off := a % 0x1000
    if off = 0 then pg.type * 2 ^ 16 + i
    else if off = 4 then 1
    else if off = 0x18 then rget s (a - 8)
    else if 0x20 ≤ off ∧ off < 0x30 then rget s a
    else match liveReg s pg i off with
      | some v => v % 2 ^ 32
      | none => match findReg pg off with
        | some (r, _) => rget s a &&& r.mask (fun k => k != .wo)
        | none => 0

/-! ### Events (R16, R536, R538, R539) -/

/-- What a change of a page's events or mask from `s` to `t` sends. -/
def pendChange (s t : State) (pg : Nat) : State :=
  if pg < 0x20000000 then summarise s t
  else if pagePending t pg && !pagePending s pg then msixSend t ((pg - 0x20000000) / 0x10000 + 1) 16 else t

/-- R536: a write of EVT_CLR; it arms the capture latch when EVT_RAW is then 0. -/
def evtClear (s : State) (pg v : Nat) : State :=
  let t := rset s (pg + 0x10) (rget s (pg + 0x10) &&& (0xFFFFFFFF - v % 2 ^ 32))
  pendChange s (if rget t (pg + 0x10) = 0 then armCapture t pg else t) pg

/-- R539: a write of EVT_FORCE sets the event bits that the page has. -/
def evtForce (s : State) (pg v : Nat) : State :=
  match pageOf pg with
  | none => s
  | some (p, _) => setEvents s pg (v &&& p.evtBits)

/-- A write of EVT_MASK. -/
def evtMask (s : State) (pg v : Nat) : State := pendChange s (rset s (pg + 0x14) v) pg

/-! ### Fields (R16, R540) -/

/-- The RWL fields of a register of a page are locked. -/
def fieldLocked (s : State) (pg : Page) (i : Nat) : Bool :=
  match pg with
  | .cel | .state | .slice => (ownerOf s i).isSome
  | .mbx => dblLocked s
  | _ => configLocked s

/-- A field that is writable only while its queue is DISABLED (R448, R449). -/
def queueOff (s : State) (pg : Page) (i off : Nat) : Bool :=
  let q := (off - 0x100) / 32
  match pg with
  | .sub => sqState s i q == 0
  | .cmp => cqState s i q == 0
  | _ => true

/-- R202, R282: what CEL_SLICE_CFG and CEL_STATE_CFG store for a value out of range; R490: fields that the active version does not have keep
their value. -/
def storedAs (s : State) (pg : Page) (off old v : Nat) : Nat :=
  match pg with
  | .slice => if off = 0x40 ∧ 16 < bits v 4 0 then setBits v 4 0 16 else v
  | .state => if off = 0x40 ∧ 56 < bits v 5 0 then setBits v 5 0 56 else v
  | .prt => if off = 0x4C ∧ activeVersion s < 0x0301 then old else v
  | .cmp => if 0x100 ≤ off ∧ off % 32 = 0xC ∧ activeVersion s < 0x0302 then setBits v 25 16 (bits old 25 16) else v
  | _ => v

/-- The value of a register after a write, field by field. -/
def fieldsWrite (locked off : Bool) (old v : Nat) (fs : List Field) : Nat :=
  fs.foldl (fun x f =>
    let n := bits v f.hi f.lo
    match f.acc with
    | .rw => setBits x f.hi f.lo n
    | .rwl => if locked then x else setBits x f.hi f.lo n
    | .rwd => if off then setBits x f.hi f.lo n else x
    | .w1c => setBits x f.hi f.lo (bits old f.hi f.lo &&& (2 ^ (f.hi + 1 - f.lo) - 1 - n))
    | .w1s => setBits x f.hi f.lo (bits old f.hi f.lo ||| n)
    | .ro => x
    | .wo => x) old

/-- R16, R17, R540: a write of a register under its access codes. -/
def plainWrite (s : State) (pg : Page) (i a v : Nat) : State :=
  let off := a % 0x1000
  match findReg pg off with
  | none => s
  | some (r, _) =>
    let old := rget s a
    let w := storedAs s pg off old v
    let locked := fieldLocked s pg i
    let s1 := rset s a (fieldsWrite locked (queueOff s pg i off) old w r.fields)
    if locked && r.fields.any (fun f => f.acc == .rwl && bits old f.hi f.lo != bits w f.hi f.lo) then lockedWrite s1 else s1

/-! ### 64-bit registers (R14) -/

/-- The low word of the 64-bit register that an offset of a page belongs to. -/
def pairOf (pg : Page) (off : Nat) : Option Nat := pg.pairs.find? (fun l => l == off || l + 4 == off)

/-- The key of a master's latch or staging register. -/
def masterKey (m a : Nat) : Nat := m * 2 ^ 32 + a

/-- The low word that master `m` has staged, else the current one. -/
def stagedLow (s : State) (m a : Nat) : Nat := (tabGet (fun _ => (none : Option Nat)) s.staging (masterKey m a)).getD (rget s a)

/-- Stage a low word, or empty the staging register. -/
def stage (s : State) (m a : Nat) (v : Option Nat) : State :=
  { s with staging := tabPut (fun _ => (none : Option Nat)) s.staging (masterKey m a) v }

/-- R147: a request to load (some address) or clear (none) a slot is held while another is in progress. -/
def mpRequest (s : State) (c : Nat) (addr : Option Nat) (slot : Nat) : State :=
  let x := cellGet s c
  if x.mpLoad.isNone then cellPut s c { x with mpLoad := some (addr, slot) }
  else cellPut s c { x with mpHeld := x.mpHeld ++ [(addr, slot)] }

/-- R109: the write of the high word of CEL_JQ_PUSH by master `m`. -/
def jqPush (s : State) (m c v : Nat) : State :=
  let lo := stagedLow s m (pgJq c + 0x40)
  jigPush (stage s m (pgJq c + 0x40) none) c ⟨lo % 2 ^ 24, v % 2 ^ 16, .reg m⟩

/-- R147, R160: the write of the high word of CEL_MP_LOAD by master `m`. -/
def mpLoadWrite (s : State) (m c v : Nat) : State :=
  let lo := stagedLow s m (pgVector c + 0x48)
  mpRequest (stage s m (pgVector c + 0x48) none) c (some (lo % 2 ^ 24)) (v % 128)

/-- R160: a write of CEL_MP_CLEAR. -/
def mpClearWrite (s : State) (c v : Nat) : State := if v % 128 < 0x40 then s else mpRequest s c none (v % 128)

/-- R147: the load or clear goes on once no issued descriptor of the cell uses the vector engine or the special-function unit. -/
def mpInstallRow (s : State) (c : Nat) : State :=
  let busy := (cellGet s c).run.elim false (fun jr =>
    jr.issued.any (fun r => (opUnits (dOp r.desc)).any (fun u => u == .vector || u == .sfu)))
  if busy then s else mpInstall s c

/-- R394: the write of the high word of SCL_SET by master `m`. -/
def sclSetWrite (s : State) (m v : Nat) : State :=
  let lo := stagedLow s m (pgScl + 0x48)
  sclSet (stage s m (pgScl + 0x48) none) (lo % 2 ^ 32 + v % 2 ^ 32 * 2 ^ 32)

/-- R14: both halves of a 64-bit register are committed in one update. -/
def pairCommit (s : State) (pg : Page) (i a lo hi : Nat) : State :=
  match pg with
  | .perf =>
    let v := lo % 2 ^ 32 + hi % 2 ^ 32 * 2 ^ 32
    let w := if bit (rget s (pgPerf i + 8)) 0 then v else (v + 2 ^ 64 - cyclesOf s.now % 2 ^ 64) % 2 ^ 64
    rset (rset s a w) (a + 4) (w / 2 ^ 32)
  | _ => plainWrite (plainWrite s pg i a lo) pg i (a + 4) hi

/-- R14: a write of one word of a 64-bit register by master `m`. -/
def pairWrite (s : State) (m : Nat) (pg : Page) (i base lo off v : Nat) : State :=
  let a := base + lo
  if off = lo then stage s m a (some (v % 2 ^ 32))
  else match pg with
    | .jq => jqPush s m i v
    | .vector => if lo = 0x48 then mpLoadWrite s m i v else s
    | .scl => if lo = 0x48 then sclSetWrite s m v else s
    | _ => pairCommit (stage s m a none) pg i a (stagedLow s m a) v

/-! ### Registers whose writes are commands -/

/-- A write of CEL_CTRL: RESUME acts, ENABLE and REQUIRE_BOUND are stored. -/
def celCtrl (s : State) (c v : Nat) : State :=
  let s1 := plainWrite s .cel c (pgCel c + 8) v
  after (if bit v 1 then celResume s1 c else s1)

/-- A write of the performance page's CTRL: CEL_CYCLES stops at FREEZE and goes on from there. -/
def perfCtrl (s : State) (c v : Nat) : State :=
  let w := celCycles s c
  pairCommit (rset s (pgPerf c + 8) (v % 2)) .perf c (pgPerf c + 0x48) (w % 2 ^ 32) (w / 2 ^ 32)

/-- A write of PRT_CMD. -/
def prtCmdWrite (s : State) (v : Nat) : State :=
  match v % 4 with
  | 1 => prtCreate s
  | 2 => prtStop s 3
  | 3 => prtStop s 2
  | _ => s

/-- R471: a master writes only its own doorbell group; DBL_LOCK is the Keeper's. -/
def dblPageWrite (s : State) (m off v : Nat) : State :=
  if off = 0x40 then (if m = mKeeper ∧ bit v 0 then dblLock s else s)
  else if dblGroup m = some (pgDbl + off / 16 * 16) ∧ off % 16 = 0 then dblWrite s m false v
  else if dblGroup m = some (pgDbl + off / 16 * 16) ∧ off % 16 = 4 then dblWrite s m true v
  else s

/-- A write to the channel registers of channel `c` by a bound master, at their offsets of R470. -/
def chanWrite (s : State) (m c off v : Nat) : State :=
  if off = 0x44 then mbxCtl s m c v
  else if off = 0x4C then mbxPush s m c v
  else if off = 0x58 then rset s (pgMbx c + 0x58) v
  else if 0x80 ≤ off ∧ off < 0xC0 then mbxWord s m c ((off - 0x80) / 4) v
  else s

/-- R465: MBX_BIND is written by the boot ROM and the Keeper only; a locked one counts the write (R540). -/
def bindWrite (s : State) (m c v : Nat) : State :=
  if m = mKeeper then mbxBind s c v
  else if dblLocked s ∧ rget s (pgMbx c + 0x40) ≠ v % 2 ^ 32 then lockedWrite s else s

/-- The channel that a VF is bound to (R465). -/
def vfChannel (s : State) (p : Nat) : Option Nat := (List.range 60).find? (fun c => mbxBound s (mVf p) c)

/-- R470: a write to a VF's assigned mailbox page. -/
def ambWrite (s : State) (p off v : Nat) : State :=
  if off = 0xC0 then dblWrite s (mVf p) false v
  else if off = 0xC4 then dblWrite s (mVf p) true v
  else match vfChannel s p with
    | none => s
    | some c => mbxAccess s (mVf p) c (fun t => if off = 0x40 then bindWrite t (mVf p) c v else chanWrite t (mVf p) c off v)

/-- A write to an event register of a page, by its offset. -/
def headerWrite (s : State) (pg off v : Nat) : Option State :=
  if off = 0x14 then some (evtMask s pg v)
  else if off = 0x18 then some (evtClear s pg v)
  else if off = 0x1C then some (evtForce s pg v)
  else none

/-- A write to a register of a chip page that acts. -/
def chipWrite (s : State) (m : Nat) (pg : Page) (i off v : Nat) : Option State :=
  match pg with
  | .ver => if off = 0x44 then some (verRequest s v) else none
  | .cfg =>
    if off = 0x40 then some (cfgCmd s v) else if off = 0x54 then some (cfgAccept s v) else if off = 0x70 then some (imgCmd s v)
    else if 0x100 ≤ off ∧ off < 0x500 then some (cfgWord s ((off - 0x100) / 4) v) else none
  | .dbl => some (dblPageWrite s m off v)
  | .prt => if off = 0x44 then some (prtCmdWrite s v) else none
  | .hbm => if off = 0x48 then some (if bit v 0 then hbmCommit s i else s) else none
  | .fls => if off = 0x40 then some (if bit v 0 then flsCommit s else s) else none
  | .lnk =>
    if off = 8 then some (lnkCtrl s i v) else if off = 0x60 then some (if bit v 0 then lnkCommit s i else s) else none
  | .scl => if off = 8 then some (sclCtrl s v) else none
  | .pwr => if off = 0x68 then some (jcmdWrite s v) else if off = 0x74 then some (gateWrite s v) else none
  | .err =>
    if off = 8 then some (if bit v 0 ∧ m = mHost then forceFatal s else s) else if off = 0x48 then some (errReset s v) else none
  | _ => none

/-- A write to a register of a cell or VF page that acts. -/
def unitWrite (s : State) (pg : Page) (i off v : Nat) : Option State :=
  match pg with
  | .cel => if off = 8 then some (celCtrl s i v) else none
  | .vector => if off = 0x54 then some (mpClearWrite s i v) else none
  | .perf => if off = 8 then some (perfCtrl s i v) else none
  | .sub =>
    if 0x40 ≤ off ∧ off < 0x80 then some (sqDoorbell s i ((off - 0x40) / 4) v)
    else if 0x100 ≤ off ∧ off < 0x300 ∧ off % 32 = 8 then some (sqCtrl s i ((off - 0x100) / 32) v []) else none
  | .cmp =>
    if 0x40 ≤ off ∧ off < 0x80 then some (cqDoorbell s i ((off - 0x40) / 4) v)
    else if 0x100 ≤ off ∧ off < 0x300 ∧ off % 32 = 8 then some (cqCtrl s i ((off - 0x100) / 32) v)
    else if 0x100 ≤ off ∧ off < 0x300 ∧ off % 32 = 12 then
      some (cqIrq (plainWrite s .cmp i (pgCmp i + off) v) i ((off - 0x100) / 32)) else none
  | .amb => some (ambWrite s i off v)
  | _ => none

/-- R13 to R18: the write of an aligned word that the page accepts. -/
def pageWrite (s : State) (m a v : Nat) (pg : Page) (i : Nat) : State :=
  let off := a % 0x1000
  let base := a - off
  match headerWrite s base off v with
  | some t => t
  | none => match chipWrite s m pg i off v with
    | some t => t
    | none => match unitWrite s pg i off v with
      | some t => t
      | none => match pairOf pg off with
        | some lo => pairWrite s m pg i base lo off v
        | none => plainWrite s pg i a v

/-- A write to a page of PF BAR0 that answers. -/
def pfPageWrite (s : State) (m a v : Nat) : State :=
  match pageOf a with
  | none => s
  | some (.mbx, c) =>
    if a % 0x1000 = 0x40 then bindWrite s m c v
    else mbxAccess s m c (fun t => match headerWrite t (pgMbx c) (a % 0x1000) v with
      | some u => u
      | none => chanWrite t m c (a % 0x1000) v)
  | some (pg, i) => pageWrite s m a v pg i

/-! ### Accesses (R13, R419, R447, R477, R534, R535) -/

/-- R13, R535: an access of another width or alignment to a VF page is aborted and captured there. -/
def vfAbort (s : State) (m a : Nat) (write : Bool) (be v : Nat) : State :=
  let s1 := capture s (a / 0x1000 * 0x1000) (a % 0x10000) (m + b2n write * 2 ^ 16 + be % 16 * 2 ^ 17) (if write then v else 0) (0xFE + 2 ^ 8)
  { s1 with resp := .abort }

/-- An access by master `m`: aborted, or `f`. `whole`: an aligned 32-bit access. -/
def access (s : State) (m a : Nat) (write whole : Bool) (be v : Nat) (f : State → State) : State :=
  let whole' := whole && decide (a % 4 = 0)
  if s.cold then s
  else if a < 0x20000000 then
    let k := accessKind s a whole'
    if k ≠ 0 then abortAccess s m a write be v k else f s
  else if 0x24000000 ≤ a then s
  else if devState s = dvBoot then { s with resp := .abort }
  else if 0x1000 ≤ a % 0x10000 ∧ (partGet s ((a - 0x20000000) / 0x10000)).st = 0 then { s with resp := .abort }
  else if (pageOf a).isNone then (if write then s else { s with resp := .value 0 })
  else if !whole' then vfAbort s m a write be v
  else f s

/-- R13 to R18: a write by master `m`, of `v` with byte enables `be`. -/
def regWrite (s : State) (m a v be : Nat) (whole : Bool) : State :=
  access s m a true whole be v (fun t =>
    if devState t = dvBoot then t
    else if a < 0x20000000 then pfPageWrite t m a v
    else match pageOf a with
      | none => t
      | some (pg, i) => pageWrite t m a v pg i)

/-- R470: a read of a VF's assigned mailbox page. -/
def ambRead (s : State) (p off : Nat) : State :=
  let a := pgAmb p + off
  if off < 0x40 ∨ 0xC0 ≤ off then { s with resp := .value (peek s a) }
  else match vfChannel s p with
    | none => { s with resp := .value (if off = 0x40 then 0xFFFFFFFF else 0) }
    | some c => mbxAccess s (mVf p) c (fun t => if off = 0x50 then mbxPop t (mVf p) c else { t with resp := .value (peek t (pgMbx c + off)) })

/-- R14: the read of a register by master `m`: a low word latches its high word for that master. -/
def wordRead (s : State) (m a : Nat) (pg : Page) : State :=
  let off := a % 0x1000
  match pairOf pg off with
  | some lo =>
    let k := masterKey m (a - off + lo)
    if off = lo then { s with latch := tabPut (fun _ => (0 : Nat)) s.latch k (peek s (a + 4) + 1), resp := .value (peek s a) }
    else
      let w := tabGet (fun _ => (0 : Nat)) s.latch k
      { s with latch := tabPut (fun _ => (0 : Nat)) s.latch k 0, resp := .value (if w = 0 then peek s a else w - 1) }
  | none => { s with resp := .value (peek s a) }

/-- R471: a master reads its own doorbell group, and the host PF every one. -/
def dblRead (s : State) (m a : Nat) : State :=
  let off := a % 0x1000
  if off < 0x100 ∨ m = mHost ∨ dblGroup m = some (pgDbl + off / 16 * 16) then { s with resp := .value (peek s a) }
  else { s with resp := .value 0 }

/-- A read of a page of PF BAR0 that answers. -/
def pfPageRead (s : State) (m a : Nat) (pg : Page) (i : Nat) : State :=
  match pg with
  | .mbx =>
    if a % 0x1000 ≤ 0x40 then { s with resp := .value (peek s a) }
    else mbxAccess s m i (fun t => if a % 0x1000 = 0x50 then mbxPop t m i else { t with resp := .value (peek t a) })
  | .dbl => dblRead s m a
  | .amb => ambRead s i (a % 0x1000)
  | _ => wordRead s m a pg

/-- R13, R14, R17: a read by master `m`. -/
def regRead (s : State) (m a be : Nat) (whole : Bool) : State :=
  access s m a false whole be 0 (fun t => match pageOf a with
    | none => { t with resp := .value 0 }
    | some (pg, i) => pfPageRead t m a pg i)

end Sys2Proof.Machine
end

