-- ==== Sys2Proof/Machine/Dump.lean ====
section
/-!
DEFINITION. Machine/Dump.lean: the crash dump (R522 to R524) and its copy to the journal (R525).
Log entries that code here: 85 (DEDUCED, unsafe), 104 (DEDUCED, unsafe), 105 (DEDUCED, unsafe), 124 (DEDUCED, unsafe).
-/

namespace Sys2Proof.Machine

/-! ### Sections 1 and 2: queues and in-flight records (R523) -/

/-- Records that section 2 holds. -/
def maxRecords : Nat := 5242880

/-- The completions of SQ `q` of partition `p` that were not written, in recording order. -/
def heldOf (s : State) (p q : Nat) : List Comp := (cqGet s p (sqCq s p q)).held.filter (fun c => c.sq == q)

/-- The records of one group, in ascending partition, SQ and recording order. -/
def groupRecords (s : State) (failed : Bool) : List (Nat × Nat × Comp) :=
  (List.range 1024).flatMap (fun p => (List.range 16).flatMap (fun q =>
    ((heldOf s p q).filter (fun c => (c.status == stFailedDevice) == failed)).map (fun c => (p, q, c))))

/-- Every completion not written: those of another status than FAILED_DEVICE first. -/
def allRecords (s : State) : List (Nat × Nat × Comp) := groupRecords s false ++ groupRecords s true

/-- The 32 bytes of an in-flight record: PHASE 0, the partition in QUEUE [14:4]. -/
def flightBytes (r : Nat × Nat × Comp) : List Byte := compBytes { r.2.2 with sq := r.2.1 + r.1 * 16 } false

/-- Section 2, up to a number of records. -/
def dumpFlight (s : State) (n : Nat) : List Byte := ((allRecords s).take n).flatMap flightBytes

/-- The records lost to the capacity of section 2. -/
def lostRecords (s : State) : List (Nat × Nat × Comp) := (allRecords s).drop maxRecords

/-- Those of an SQ. -/
def lostOf (lost : List (Nat × Nat × Comp)) (p q : Nat) : List Comp := (lost.filter (fun r => r.1 == p && r.2.1 == q)).map (·.2.2)

/-- The entries of an SQ with neither a written completion nor a record (R523). -/
def uncoveredOf (s : State) (lost : List (Nat × Nat × Comp)) (p q : Nat) : Nat :=
  ((sqGet s p q).vis.map (·.2)).sum + (lostOf lost p q).length

/-- Section 1: the record of one SQ. -/
def sqRecord (s : State) (lost : List (Nat × Nat × Comp)) (p q : Nat) : List Byte :=
  leBytes 2 p ++ leBytes 1 q ++
  leBytes 1 (b2n (sqState s p q == 1) + 2 * b2n ((lostOf lost p q).any (fun c => c.status != stFailedDevice))) ++
  leBytes 4 (rbits s (sqReg p q 0x10) 11 0) ++ leBytes 4 (rget s (sqTail p q)) ++ leBytes 4 (rget s (sqReg p q 0x14)) ++
  leBytes 4 ((heldOf s p q).length - (lostOf lost p q).length) ++ leBytes 4 (uncoveredOf s lost p q) ++ List.replicate 8 0#8

/-- The SQs of every partition, in order. -/
def everySq : List (Nat × Nat) := (List.range 1024).flatMap (fun p => (List.range 16).map (fun q => (p, q)))

/-- Section 1. -/
def dumpQueues (s : State) : List Byte :=
  let lost := lostRecords s
  everySq.flatMap (fun x => sqRecord s lost x.1 x.2)

/-! ### Section 3: unit tables (R524) -/

/-- A list of records in `n` slots of `k` bytes; idle slots are zero. -/
def slotTable (n k : Nat) (f : Nat → Option (List Byte)) : List Byte :=
  (List.range n).flatMap (fun i => (f i).getD (List.replicate k 0#8))

/-- The record of a barge. -/
def bargeRecord (x : StopRun) (b : Barge) : List Byte :=
  (b.desc.take 56 ++ List.replicate (56 - (b.desc.take 56).length) 0#8) ++ leBytes 2 b.key ++ leBytes 2 b.part ++ leBytes 2 b.landed ++
  leBytes 1 (b.cut.getD x.status) ++ leBytes 1 1

/-- The record of a fabric tag slot: its VC is 0 REQ or 3 URG, its time the scene time of its request. -/
def tagRecord (s : State) (x : StopRun) (t : Tag) : List Byte :=
  leBytes 2 t.node ++ leBytes 2 t.part ++ leBytes 1 t.gen ++ leBytes 1 (if t.urgent then 3 else 0) ++ leBytes 1 t.group ++
  leBytes 1 x.status ++ leBytes 8 (t.sent.elim 0 (fun n => s.sclTime - (s.now - n)))

/-- The record of a jig. -/
def jigRecord (x : StopRun) (j : Nat × Nat × Jig) : List Byte :=
  leBytes 4 (j.2.2.start % 2 ^ 24) ++ leBytes 2 j.2.2.id ++ leBytes 1 j.2.1 ++ leBytes 1 x.status

/-- Section 3. -/
def dumpUnits (s : State) (x : StopRun) : List Byte :=
  slotTable 8192 64 (fun i => ((x.barges.filter (fun b => b.engine == i / 256))[i % 256]?).map (bargeRecord x)) ++
  slotTable 65536 16 (fun i => (x.tags.find? (fun t => t.slot == i)).map (tagRecord s x)) ++
  slotTable 16384 8 (fun i => (x.jigs.find? (fun j => j.1 == i / 16 && j.2.1 == i % 16)).map (jigRecord x))

/-! ### Sections 4 to 6: error log, trace tails, snapshots (R523, R526) -/

/-- Section 4. -/
def dumpLog (s : State) : List Byte := s.errLog.flatMap ErrRec.bytes

/-- A record of a trace tail. -/
def traceRecord (t : TraceRec) : List Byte :=
  leBytes 4 t.issued ++ leBytes 4 t.done ++ leBytes 1 t.op ++ leBytes 1 t.status ++ leBytes 2 t.tag ++ leBytes 2 t.jig ++ leBytes 2 t.idx

/-- Section 5. -/
def dumpTraces (s : State) : List Byte :=
  (List.range 1024).flatMap (fun c =>
    let b := (traceGet s c).flatMap traceRecord
    b.take 4096 ++ List.replicate (4096 - b.length) 0#8)

/-- Every page of PF BAR0: chip, region, block and cell pages, each kind in ascending offset. -/
def everyPage : List Nat :=
  ((List.range 0x4000).map (· * 0x1000) ++
   (List.range 4).flatMap (fun r => (List.range 0x200).map (fun k => regionBase r + k * 0x1000)) ++
   (List.range 64).flatMap (fun g => (List.range 5).map (fun k => blockBase g + k * 0x1000)) ++
   (List.range 1024).flatMap (fun c => (List.range 9).map (fun k => cellBase c + k * 0x1000))).filter (fun a => (pageOf a).isSome)

/-- A page that no snapshot can read: of a gated region or a FAULTED cell. -/
def unreadable (s : State) (a : Nat) : Bool :=
  (decide (0x4000000 ≤ a) && regionDark s (a / 0x4000000 - 1)) ||
  (pageLevel a == 0 && (cellGet s ((a / 0x4000000 - 1) * 256 + (a % 0x4000000 / 0x200000 - 1) * 16 + (a % 0x200000 - 0x40000) / 0x10000)).mode == .faulted)

/-- The snapshot of a page. -/
def snapshot (s : State) (a : Nat) : List Byte :=
  let bad := unreadable s a
  leBytes 8 a ++ leBytes 4 (if bad then 0 else 4096) ++ leBytes 1 (b2n bad) ++ leBytes 3 0 ++
  (if bad then [] else (List.range 1024).flatMap (fun i => leBytes 4 (peek s (a + 4 * i))))

/-- Section 6. -/
def dumpPages (s : State) : List Byte := everyPage.flatMap (snapshot s)

/-! ### The header (R523) -/

/-- Offset and capacity of section `i` (R522). -/
def sectionAt (i : Nat) : Nat × Nat :=
  match i with
  | 0 => (0, 0x100000)
  | 1 => (0x100000, 0x100000)
  | 2 => (0x200000, 0xA000000)
  | 3 => (0xA200000, 0xE00000)
  | 4 => (0xB000000, 0x100000)
  | 5 => (0xB100000, 0x400000)
  | _ => (0xB500000, 0x4B00000)

/-- The sections 1 to 6 of a dump, or those a stop leaves to the journal. -/
def dumpSection (s : State) (x : StopRun) (i n : Nat) : List Byte :=
  match i with
  | 1 => dumpQueues s
  | 2 => dumpFlight s n
  | 3 => dumpUnits s x
  | 4 => dumpLog s
  | 5 => dumpTraces s
  | 6 => dumpPages s
  | _ => []

/-- Bytes 0 to 4,091 of the header, for sections given as (number, bytes). -/
def dumpHead (s : State) (x : StopRun) (only : Bool) (secs : List (Nat × List Byte)) : List Byte :=
  let recs := allRecords s
  let lost := recs.drop maxRecords
  let dir := fun (i : Nat) =>
    let b := ((secs.find? (fun y => y.1 == i)).map (·.2)).getD []
    leBytes 4 (sectionAt i).1 ++ leBytes 4 (sectionAt i).2 ++ leBytes 4 b.length ++ leBytes 4 (crc32c b)
  let h := leBytes 4 0x44554D50 ++ leBytes 1 1 ++ leBytes 1 x.cause ++ leBytes 1 x.level ++
    leBytes 1 (b2n (!recs.isEmpty) + 2 * b2n (decide (maxRecords < recs.length)) + 4 * b2n x.lost + 8 * b2n only) ++
    leBytes 8 x.time ++ leBytes 4 x.inst ++ leBytes 4 (rget s (pgDmp + 0x48)) ++ leBytes 4 (rget s (pgCfg + 0x4C)) ++
    leBytes 4 (rget s (pgCfg + 0x50)) ++ leBytes 1 x.was ++ leBytes 3 0 ++ leBytes 4 x.items ++ leBytes 4 x.written ++
    leBytes 4 (min recs.length maxRecords) ++ leBytes 4 ((everySq.map (fun e => uncoveredOf s lost e.1 e.2)).sum) ++ List.replicate 12 0#8 ++
    (List.range 7).flatMap dir
  h ++ List.replicate (4092 - h.length) 0#8

/-- The header. -/
def dumpHeader (s : State) (x : StopRun) (only : Bool) (secs : List (Nat × List Byte)) : List Byte :=
  let h := dumpHead s x only secs
  h ++ leBytes 4 (crc32c h)

/-! ### Writing the dump (R518, R522, R525) -/

/-- The dump goes to the journal only: before the stacks are trained, with stack 0 at 105 °C, after a power stop. -/
def journalOnly (s : State) (x : StopRun) : Bool := x.jnlOnly || x.cause == 7 || stackHeat s 0 == 2

/-- The sections, in the order of their journal records, and the most records of section 2 (R525). -/
def planOf525 (s : State) (x : StopRun) : List Nat × Nat :=
  if !s.trained then ([4], maxRecords)
  else if x.cause = 7 then ([4, 2], 65536)
  else ([4, 2, 1, 3, 5, 6], maxRecords)

/-- The completions that were not written are in the dump. -/
def heldDumped (s : State) : State := { s with cqs := s.cqs.map (fun e => (e.1, { e.2 with held := [] })) }

/-- R522: the Keeper writes the sections, then the header, and the device enters DUMPED; a dump for the journal only is not written here. -/
def dumpWrite (s : State) : State :=
  match stopAt s 3 with
  | none => s
  | some x =>
    let s1 := rset (rset { s with stop := some { x with stage := 4 } } (pgDmp + 0x48) (rget s (pgDmp + 0x48) + 1)) (pgDmp + 0x4C) 0
    if journalOnly s x then rsetBits s1 (pgDmp + 0xC) 1 0 3
    else
      let secs := [1, 2, 3, 4, 5, 6].map (fun i => (i, dumpSection s1 x i maxRecords))
      let s2 := secs.foldl (fun t y => wr t .hbm (dumpBase + (sectionAt y.1).1) y.2) s1
      let s3 := wr s2 .hbm dumpBase (dumpHeader s1 x false secs)
      enterState (raise (rsetBits (heldDumped s3) (pgDmp + 0xC) 1 0 2) pgDmp 1) dvDumped

/-- A section as the copy of the dump takes it from the granule: the used bytes of the directory. -/
def sectionRead (s : State) (i : Nat) : List Byte :=
  rd s .hbm (dumpBase + (sectionAt i).1) (rdN s .hbm (dumpBase + 64 + 16 * i + 8) 4)

/-- R525: queue the records of the copy; those that find no space are not planned. -/
def copyQueue (hdr : List Byte) : List (Nat × List Byte) → State → State
  | [], s => s
  | (i, b) :: t, s => match recQueue s (.dump i) 1 (hdr ++ b) with
    | (s1, false) => s1
    | (s1, true) => copyQueue hdr t (rsetBits s1 (pgDmp + 0x4C) 15 8 (rbits s1 (pgDmp + 0x4C) 15 8 + 1))

/-- R525: the Keeper copies the dump to the journal. -/
def dumpCopy (s : State) : State :=
  match stopAt s 4 with
  | none => s
  | some x =>
    if bit (rget s (pgDmp + 0xC)) 2 || rbits s (pgDmp + 0x4C) 15 8 != 0 then s
    else
      let only := journalOnly s x
      let plan := planOf525 s x
      let secs := plan.1.map (fun i => (i, if only then dumpSection s x i plan.2 else sectionRead s i))
      let hdr := if only then dumpHeader s x true secs else rd s .hbm dumpBase 4096
      let s1 := rsetBits (rset (rset s (pgDmp + 0x50) s.jnl.seq) (pgDmp + 0x54) (s.jnl.seq / 2 ^ 32)) (pgDmp + 0xC) 2 2 1
      let s2 := copyQueue hdr secs (if only then heldDumped s1 else s1)
      if rbits s2 (pgDmp + 0x4C) 15 8 = 0 then dumpCopied s2 else s2

/-- R431: a Function Level Reset of partition `p` is running; the function writes no completion during it. -/
def flrRuns (s : State) (p : Nat) : Bool := match (partGet s p).rst with
  | some r => r.cause == 1
  | none => false

/-- R453, R520: a completion is written while the PCIe link is up; those written after a stop's walk are counted for the dump. -/
def completionWrite (s : State) (p q fails : Nat) : State :=
  if !s.pcieUp || s.cold || flrRuns s p then s
  else
    let t := compWrite s p q fails
    match t.stop with
    | none => t
    | some x =>
      if 2 ≤ x.stage ∧ (cqGet t p q).held.length < (cqGet s p q).held.length then { t with stop := some { x with written := x.written + 1 } } else t

end Sys2Proof.Machine
end

