-- ==== Sys2Proof/Machine/Pins.lean ====
section
/-!
DEFINITION. Machine/Pins.lean: the I3C sideband (R562, R563), the JTAG port (R564), MOD_FAULT_N (R565), the row of register
accesses.
Log entries that code here: 111 (DEDUCED, unsafe), 125 (DEDUCED, unsafe), 133 (DESIGN CHOICE, unsafe).
-/

namespace Sys2Proof.Machine

/-- P54V is in range (R562, R564). -/
def inputGood (s : State) : Bool := s.power.live && s.power.inSince.isSome

/-! ### I3C (R562, R563) -/

/-- The target answers: P54V in range, the bus up, its dynamic address assigned. -/
def i3cReady (s : State) : Bool := inputGood s && !s.i3c.down && s.i3c.addr.isSome

/-- R562: the dynamic address, by ENTDAA (`static` none) or by SETDASA from the static address 0x58 + SLOT_ID[2:0]; a bus
that assigns it is up. -/
def i3cAssign (s : State) (static : Option Nat) (addr : Nat) : State :=
  let named := static.elim true (fun a => a == 0x58 + rbits s (pgChp + 0x58) 2 0)
  if inputGood s && named then { s with i3c := { s.i3c with addr := some addr, down := false } } else s

/-- The status and data of a command. -/
def i3cDone (s : State) (status data : Nat) : State := { s with i3c := { s.i3c with status := status, data := data } }

/-- R563: the outcome of an access that the block made for the BMC: `old` is what the last access of another master returned. -/
def i3cOutcome (s : State) (old : Resp) (read : Bool) : State :=
  let s1 := { s with resp := old }
  match s.resp with
  | .value v => i3cDone s1 0 (if read then v else s.i3c.data)
  | .refused st => i3cDone s1 (if st = stDomainOff then 2 else 1) s.i3c.data
  | .none => i3cDone s1 0 s.i3c.data
  | _ => i3cDone s1 1 s.i3c.data

/-- R563: the BMC may write this offset: a channel page bound to it, its doorbell group. -/
def i3cMayWrite (s : State) (a : Nat) : Bool :=
  match pageOf a with
  | some (.mbx, c) => mbxBound s mBmc c
  | some (.dbl, _) => decide (0x160 ≤ a % 0x1000 ∧ a % 0x1000 < 0x170)
  | _ => false

/-- R563: a private transfer's access to PF BAR0; a region that answers DOMAIN_OFF returns status 2. -/
def i3cAccess (s : State) (a : Nat) (w : Option Nat) : State :=
  let k := accessKind s a (decide (a % 4 = 0))
  let old := s.resp
  if k ≠ 0 then
    i3cDone { abortAccess s mBmc a w.isSome 15 (w.getD 0) k with resp := old } (if k = 3 then 2 else 1) s.i3c.data
  else match w with
    | none => i3cOutcome (regRead { s with resp := .none } mBmc a 15 true) old true
    | some v =>
      if i3cMayWrite s a then i3cOutcome (regWrite { s with resp := .none } mBmc a v 15 true) old false
      else i3cDone (capture s (a / 0x1000 * 0x1000) a (mBmc + 2 ^ 16 + 15 * 2 ^ 17) v 0xFE) 1 s.i3c.data

/-- R563: a private write: command 1 reads, command 2 writes; any other length or command is ignored. -/
def i3cWrite (s : State) (b : List Byte) : State :=
  if !i3cReady s then s
  else if s.cold then i3cDone s 2 s.i3c.data
  else if b.length = 5 ∧ byteAt b 0 = 1 then i3cAccess s (fld b 1 4) none
  else if b.length = 9 ∧ byteAt b 0 = 2 then i3cAccess s (fld b 1 4) (some (fld b 5 4))
  else s

/-- R563: a private read returns the status of the last command and the data of the last read; in COLD, DOMAIN_OFF. -/
def i3cRead (s : State) : State :=
  if !i3cReady s then s
  else { s with resp := .bytes (leBytes 1 (if s.cold then 2 else s.i3c.status) ++ leBytes 4 s.i3c.data) }

/-- R562: the in-band interrupt is raised while DBL_PEND of receiver group 6 is non-zero. -/
def ibi (s : State) : Bool := !s.cold && dblPend s (pgDbl + 0x160) != 0

/-! ### JTAG (R564) -/

/-- R564: an instruction is loaded; an unknown code is BYPASS. -/
def jtagLoad (s : State) (i : JInstr) : State :=
  if inputGood s then { s with jtag := if i = .other then .bypass else i } else s

/-- R564: TRST_N, or five TCK cycles with TMS high: the port returns to IDCODE (IEEE 1149.1). -/
def jtagReset (s : State) : State := if inputGood s then { s with jtag := .idcode } else s

/-- R564: the instruction as it acts: EXTEST, CLAMP and HIGHZ act as BYPASS while PERST_N is deasserted. -/
def jtagActive (s : State) : JInstr :=
  match s.jtag with
  | .extest => if s.perst then .extest else .bypass
  | .clamp => if s.perst then .clamp else .bypass
  | .highz => if s.perst then .highz else .bypass
  | i => i

/-- R564: what IDCODE reads. -/
def idcode : Nat := 0x1494022B

/-! ### MOD_FAULT_N (R565) -/

/-- MOD_FAULT_N is asserted: FAULTED, DUMPED, or the Keeper in FATAL_MODE. -/
def modFault (s : State) : Bool :=
  !s.cold && (devState s == dvFaulted || devState s == dvDumped || rbits s (pgKpr + 0xC) 1 0 == 2)

end Sys2Proof.Machine
end

