-- ==== Sys2Proof/Machine/Tick.lean ====
section
/-!
DEFINITION. Machine/Tick.lean: what the passing of time does beside the weirs' credits (R292): the scene clock and the counters of
waiting (R77, R295, R338, R341, R342, R352, R383, R449, R528, R551).
Log entries that code here: 1 (DESIGN CHOICE, unsafe), 17 (DESIGN CHOICE, unsafe), 47 (DEDUCED, unsafe), 134 (DESIGN CHOICE, unsafe).
-/

namespace Sys2Proof.Machine

/-- R341: cycles with a request waiting at a Lock, by direction. -/
def lockWaitTick (s : State) (n : Nat) : State :=
  let ls := distinct (s.barges.flatMap (fun b => (b.units.filter (fun v => !v.granted)).flatMap (fun v => (unitPath s b v.u).map (·.1))))
  ls.foldl (fun t l =>
    let rs := lockReqs s l
    let t1 := if rs.any (fun r => !r.dirIn) then bumpSat t (lockReg l + 8) (cyclesOf n) else t
    if rs.any (·.dirIn) then bumpSat t1 (lockReg l + 12) (cyclesOf n) else t1) s

/-- R338: cycles with a barge waiting at a full engine, or at a cell's own limit. -/
def intakeTick (s : State) (n : Nat) : State :=
  let full := distinct ((s.bargeWait.filter (fun b => decide (256 ≤ engineLoad s b.engine))).map (·.engine))
  let s1 := full.foldl (fun t e => bumpSat t (pgEngine e + 0x40) (cyclesOf n)) s
  let cells := distinct ((s.bargeWait.filter (originFull s)).filterMap (fun b => match b.origin with
    | .cell c _ => some c
    | .stream c _ => some c
    | _ => none))
  cells.foldl (fun t c => perfBump t c 0x44 (cyclesOf n)) s1

/-- R77, R147: cycles with a push or a micro-program load held by the towpath. -/
def pushTick (s : State) (n : Nat) : State :=
  s.cells.foldl (fun t e => if e.2.held.isEmpty && e.2.mpHeld.isEmpty then t else bumpSat t (pgJq e.1 + 0x48) (cyclesOf n)) s

/-- R338: cycles in which a request waits for one of a stack's 2,048 tags. -/
def tagTick (s : State) (n : Nat) : State :=
  s.hbmq.foldl (fun t e =>
    if 2048 < e.2.urgent.length + (e.2.wait.map (·.2)).sum then bumpSat t (pgHbm e.1 + 0x60) (cyclesOf n) else t) s

/-- R551: cycles in which the arrays held a running descriptor. -/
def arrayTick (s : State) (n : Nat) : State :=
  s.cells.foldl (fun t e =>
    if e.2.run.elim false (fun jr => jr.issued.any (fun r => r.phase != .queued && (opUnits (dOp r.desc)).contains .arrays)) then
      perfBump t e.1 0x54 (cyclesOf n) else t) s

/-- R528: the wait of requests at the fence of a region. -/
def fenceTick (s : State) (n : Nat) : State :=
  let at' := fun (l : Nat) => decide (1024 ≤ l ∧ l < 1056) && lockBarred s l
  if s.barges.any (fun b => b.units.any (fun v => !v.granted && (unitPath s b v.u).any (fun x => at' x.1))) then
    bumpSat s (pgErr + 0x68) n else s

/-- `n` ns pass (R3, R292): only the clock of the input and the bank runs in COLD. -/
def tick (s : State) (n : Nat) : State :=
  if s.cold then { s with now := s.now + n }
  else
    let s1 := noticeStallTick (cqStallTick (stallTick (creditTick s n) n) n) n
    let s2 := ringStallTick (lnkStallTick s1 n) n
    let s3 := fenceTick (arrayTick (tagTick (pushTick (intakeTick (lockWaitTick s2 n) n) n) n) n) n
    let s4 := sclTick s3 n
    { s4 with now := s4.now + n }

end Sys2Proof.Machine
end

