-- ==== Sys2Proof/Machine/Awake.lean ====
section
/-!
DEFINITION. Machine/Awake.lean: what bounds the effect of every command (R474, R560, R564): in COLD the module does nothing; and the
queue of commands, the clock, the reset pin and COLD, the test port and the fuses change only with the commands that say so.
Log entries that code here: 7 (DESIGN CHOICE, unsafe).
-/

namespace Sys2Proof.Machine

/-- The state `t` that a command gives, with what it has no part in as it was in `s`. -/
def within (s t : State) : State :=
  { t with pending := s.pending, now := s.now, cold := s.cold, perst := s.perst, jtag := s.jtag, fuses := s.fuses }

/-- R474: a command that has an effect outside COLD only. -/
def awake (s : State) (f : State → State) : State := if s.cold then s else within s (f s)

/-- A command that also works in COLD: the input and the bank, the sideband (R497, R562). -/
def always (s : State) (f : State → State) : State := if s.cold then f s else within s (f s)

end Sys2Proof.Machine
end

