-- ==== Sys2Proof/Machine/BargeCommands.lean ====
section
/-!
DEFINITION. Machine/BargeCommands.lean: the meanings of the commands of barges and Locks.
-/

namespace Sys2Proof.Machine

/-- BARGE_ACCEPT (R323). -/
def execBargeAccept (e : Fin 32) (s : State) : Host.Outcome State Fault Refusal :=
  .next (awake s (fun s => after (bargeAccept s e)))

/-- BARGE_UNIT_START (R327). -/
def execBargeUnitStart (e : Fin 32) (s : State) : Host.Outcome State Fault Refusal :=
  .next (awake s (fun s => after (unitStart s e)))

/-- LOCK_COMMIT (R334). -/
def execLockCommit (bid : Nat) (u : Nat) (s : State) : Host.Outcome State Fault Refusal :=
  .next (awake s (fun s => lockCommit s bid u))

/-- LOCK_WINDOW_END (R334). -/
def execLockWindowEnd (l : Nat) (s : State) : Host.Outcome State Fault Refusal :=
  .next (awake s (fun s => lockWindowEnd s l))

/-- LOCK_TURNAROUND_END (R334). -/
def execLockTurnaroundEnd (l : Nat) (s : State) : Host.Outcome State Fault Refusal :=
  .next (awake s (fun s => lockTurned s l))

/-- LOCK_AGING (R334). -/
def execLockAging (bid : Nat) (u : Nat) (s : State) : Host.Outcome State Fault Refusal :=
  .next (awake s (fun s => lockAge s bid u))

/-- URGENT_BEAT (R335). -/
def execUrgentBeat (l : Nat) (inward : Bool) (s : State) : Host.Outcome State Fault Refusal :=
  .next (awake s (fun s => urgentBeat s l inward))

/-- BARGE_UNIT_LAND (R327). -/
def execBargeUnitLand (bid : Nat) (dma : List Byte) (fail : Bool) (ecc : Ecc) (s : State) : Host.Outcome State Fault Refusal :=
  .next (awake s (fun s => after (hostUnitLand (eccIn s ecc) bid dma fail)))

end Sys2Proof.Machine
end

