-- ==== Sys2Proof/Machine/BootCommands.lean ====
section
/-!
DEFINITION. Machine/BootCommands.lean: the meanings of the commands of boot, versions and configuration.
-/

namespace Sys2Proof.Machine

/-- PERST_N_DEASSERT (R558). -/
def execPerstNDeassert (slot : Byte) (s : State) : Host.Outcome State Fault Refusal :=
  .next (perstRelease s slot.toNat)

/-- PERST_N_ASSERT (R560). -/
def execPerstNAssert (s : State) : Host.Outcome State Fault Refusal :=
  .next (perstAssert s)

/-- BOOT_SEQUENCE (R476). -/
def execBootSequence (f : Fuses) (d2dBad : Nat) (modules : List Nat) (hbmBad : Nat) (s : State) : Host.Outcome State Fault Refusal :=
  .next (if s.cold then s else { within s (bootRun s f d2dBad modules hbmBad) with fuses := (bootRun s f d2dBad modules hbmBad).fuses })

/-- CHIP_WARM_RESET (R474). -/
def execChipWarmReset (s : State) : Host.Outcome State Fault Refusal :=
  .next (awake s (fun s => warmReset s))

/-- VER_REQUEST (R488). -/
def execVerRequest (m : Half) (v : Word) (s : State) : Host.Outcome State Fault Refusal :=
  .next (awake s (fun s => pfWrite s m.toNat (pgVer + 0x44) v.toNat (fun t => verRequest t v.toNat)))

/-- CFG_REC_WRITE (R492). -/
def execCfgRecWrite (m : Half) (w : Fin 256) (v : Word) (s : State) : Host.Outcome State Fault Refusal :=
  .next (awake s (fun s => pfWrite s m.toNat (pgCfg + 0x100 + 4 * w) v.toNat (fun t => cfgWord t w v.toNat)))

/-- CFG_COMMIT (R493). -/
def execCfgCommit (m : Half) (s : State) : Host.Outcome State Fault Refusal :=
  .next (awake s (fun s => pfWrite s m.toNat (pgCfg + 0x40) 1 (fun t => cfgCommit t)))

/-- CFG_START (R494). -/
def execCfgStart (m : Half) (s : State) : Host.Outcome State Fault Refusal :=
  .next (awake s (fun s => pfWrite s m.toNat (pgCfg + 0x40) 2 (fun t => cfgStart t)))

/-- CFG_CLEAR (R492). -/
def execCfgClear (m : Half) (s : State) : Host.Outcome State Fault Refusal :=
  .next (awake s (fun s => pfWrite s m.toNat (pgCfg + 0x40) 3 (fun t => cfgClear t)))

/-- CFG_ACCEPT (R483). -/
def execCfgAccept (m : Half) (v : Word) (s : State) : Host.Outcome State Fault Refusal :=
  .next (awake s (fun s => pfWrite s m.toNat (pgCfg + 0x54) v.toNat (fun t => cfgAccept t v.toNat)))

/-- ACCEPT_COMPLETE (R483). -/
def execAcceptComplete (s : State) : Host.Outcome State Fault Refusal :=
  .next (awake s (fun s => acceptDone s))

/-- IMG_LOAD (R484). -/
def execImgLoad (m : Half) (s : State) : Host.Outcome State Fault Refusal :=
  .next (awake s (fun s => pfWrite s m.toNat (pgCfg + 0x70) 1 (fun t => imgLoad t false)))

/-- IMG_LOAD_STORE (R484). -/
def execImgLoadStore (m : Half) (s : State) : Host.Outcome State Fault Refusal :=
  .next (awake s (fun s => pfWrite s m.toNat (pgCfg + 0x70) 2 (fun t => imgLoad t true)))

/-- STATUS_BLOCK_WRITE (R487). -/
def execStatusBlockWrite (bme : Bool) (s : State) : Host.Outcome State Fault Refusal :=
  .next (awake s (fun s => blockWrite s bme))

/-- KPR_HEARTBEAT (R542). -/
def execKprHeartbeat (s : State) : Host.Outcome State Fault Refusal :=
  .next (awake s (fun s => heartbeat s))

end Sys2Proof.Machine
end

