-- ==== Sys2Proof/Machine/CellCommands.lean ====
section
/-!
DEFINITION. Machine/CellCommands.lean: the meanings of the commands of the cells: jigs, descriptors that wait, the streams, micro-programs.
-/

namespace Sys2Proof.Machine

/-- CEL_JQ_PUSH (R109). -/
def execCelJqPush (m : Half) (c : Fin 1024) (v : Word) (s : State) : Host.Outcome State Fault Refusal :=
  .next (awake s (fun s => pfWrite s m.toNat (pgJq c + 0x44) v.toNat (fun t => jqPush t m.toNat c v.toNat)))

/-- TOWPATH_JIG_DISPATCH (R77). -/
def execTowpathJigDispatch (c : Fin 1024) (src : Pusher) (start : BitVec 24) (id : Half) (s : State) : Host.Outcome State Fault Refusal :=
  .next (awake s (fun s => jigPush s c ⟨start.toNat, id.toNat, src⟩))

/-- JQ_PUSH_ADMIT (R77). -/
def execJqPushAdmit (c : Fin 1024) (s : State) : Host.Outcome State Fault Refusal :=
  .next (awake s (fun s => jigAdmit s c))

/-- JIG_START (R78). -/
def execJigStart (c : Fin 1024) (s : State) : Host.Outcome State Fault Refusal :=
  .next (awake s (fun s => after (jigStart s c)))

/-- DESCRIPTOR_FETCH (R76). -/
def execDescriptorFetch (c : Fin 1024) (ecc : Ecc) (s : State) : Host.Outcome State Fault Refusal :=
  .next (awake s (fun s => after (fetchOne (eccIn s ecc) c)))

/-- GSU_GRANT (R247). -/
def execGsuGrant (b : Fin 64) (ce : Bool) (ue : Bool) (ecc : Ecc) (s : State) : Host.Outcome State Fault Refusal :=
  .next (awake s (fun s => gsuRow s b ce ue ecc))

/-- FENCE_COMPLETE (R100). -/
def execFenceComplete (c : Fin 1024) (s : State) : Host.Outcome State Fault Refusal :=
  .next (awake s (fun s => fenceRow s c))

/-- TTWAIT_COMPLETE (R400). -/
def execTtwaitComplete (c : Fin 1024) (s : State) : Host.Outcome State Fault Refusal :=
  .next (awake s (fun s => after (ttwaitCheck s c)))

/-- STREAM_RESTART (R310). -/
def execStreamRestart (c : Fin 1024) (ecc : Ecc) (s : State) : Host.Outcome State Fault Refusal :=
  .next (awake s (fun s => after (streamRestart (eccIn s ecc) c)))

/-- LAYER_FENCE_DRAIN (R310). -/
def execLayerFenceDrain (c : Fin 1024) (s : State) : Host.Outcome State Fault Refusal :=
  .next (awake s (fun s => after (fenceDrain s c)))

/-- LATE_WEIGHTS_TIMEOUT (R310). -/
def execLateWeightsTimeout (c : Fin 1024) (s : State) : Host.Outcome State Fault Refusal :=
  .next (awake s (fun s => after (fenceLate s c)))

/-- STREAM_ENTRY_REQUEST (R308). -/
def execStreamEntryRequest (c : Fin 1024) (ecc : Ecc) (s : State) : Host.Outcome State Fault Refusal :=
  .next (awake s (fun s => after (streamRequest (eccIn s ecc) c)))

/-- STREAM_ENTRY_LANDED (R306). -/
def execStreamEntryLanded (c : Fin 1024) (s : State) : Host.Outcome State Fault Refusal :=
  .next (awake s (fun s => after (streamLanded s c)))

/-- DESCRIPTOR_COMPLETE (R88). -/
def execDescriptorComplete (c : Fin 1024) (idx : Nat) (s : State) : Host.Outcome State Fault Refusal :=
  .next (awake s (fun s => descComplete s c idx))

/-- WAIT_TIMEOUT (R82). -/
def execWaitTimeout (c : Fin 1024) (s : State) : Host.Outcome State Fault Refusal :=
  .next (awake s (fun s => waitTimeout s c))

/-- DESC_OVERRUN (R85). -/
def execDescOverrun (c : Fin 1024) (s : State) : Host.Outcome State Fault Refusal :=
  .next (awake s (fun s => descOverrun s c))

/-- MCAST_STREAM_START (R69). -/
def execMcastStreamStart (b : Fin 64) (k : Fin 8) (ecc : Ecc) (s : State) : Host.Outcome State Fault Refusal :=
  .next (awake s (fun s => mcastRow s b k ecc))

/-- CEL_RESUME (R106). -/
def execCelResume (m : Half) (c : Fin 1024) (v : Word) (s : State) : Host.Outcome State Fault Refusal :=
  .next (awake s (fun s => pfWrite s m.toNat (pgCel c + 8) (v.toNat ||| 2) (fun t => celCtrl t c (v.toNat ||| 2))))

/-- CEL_SEM_WRITE (R81). -/
def execCelSemWrite (m : Half) (c : Fin 1024) (n : Fin 64) (v : Word) (s : State) : Host.Outcome State Fault Refusal :=
  .next (awake s (fun s => pfWrite s m.toNat (semAddr c n) v.toNat (fun t => plainWrite t .cel c (semAddr c n) v.toNat)))

/-- CEL_MP_LOAD (R147). -/
def execCelMpLoad (m : Half) (c : Fin 1024) (v : Word) (s : State) : Host.Outcome State Fault Refusal :=
  .next (awake s (fun s => pfWrite s m.toNat (pgVector c + 0x4C) v.toNat (fun t => mpLoadWrite t m.toNat c v.toNat)))

/-- MP_INSTALL (R147). -/
def execMpInstall (c : Fin 1024) (s : State) : Host.Outcome State Fault Refusal :=
  .next (awake s (fun s => mpInstallRow s c))

/-- CEL_MP_CLEAR (R160). -/
def execCelMpClear (m : Half) (c : Fin 1024) (v : Word) (s : State) : Host.Outcome State Fault Refusal :=
  .next (awake s (fun s => pfWrite s m.toNat (pgVector c + 0x54) v.toNat (fun t => mpClearWrite t c v.toNat)))

/-- CELL_PARITY_ERROR (R107). -/
def execCellParityError (c : Fin 1024) (lane : Bool) (s : State) : Host.Outcome State Fault Refusal :=
  .next (awake s (fun s => after (parityError s c lane)))

end Sys2Proof.Machine
end

