-- ==== Sys2Proof/Machine/CollectiveCommands.lean ====
section
/-!
DEFINITION. Machine/CollectiveCommands.lean: the meanings of the commands of collectives.
-/

namespace Sys2Proof.Machine

/-- COL_ABORT (R376). -/
def execColAbort (g : Fin 16) (s : State) : Host.Outcome State Fault Refusal :=
  .next (awake s (fun s => colAbort s g))

/-- COL_OPEN (R367). -/
def execColOpen (p : Fin 1024) (q : Fin 16) (ecc : Ecc) (s : State) : Host.Outcome State Fault Refusal :=
  .next (awake s (fun s => colOpen (eccIn s ecc) p q))

/-- COL_RUN (R368). -/
def execColRun (p : Fin 1024) (q : Fin 16) (s : State) : Host.Outcome State Fault Refusal :=
  .next (awake s (fun s => colRun s p q))

/-- COL_RUN_START (R369). -/
def execColRunStart (p : Fin 1024) (grp : Nat) (ecc : Ecc) (s : State) : Host.Outcome State Fault Refusal :=
  .next (awake s (fun s => runStart (eccIn s ecc) p grp))

/-- COL_DATA (R372). -/
def execColData (g : Fin 16) (ecc : Ecc) (s : State) : Host.Outcome State Fault Refusal :=
  .next (awake s (fun s => colData (eccIn s ecc) g))

/-- COL_PIECE_TIMEOUT (R376). -/
def execColPieceTimeout (p : Fin 1024) (grp : Nat) (s : State) : Host.Outcome State Fault Refusal :=
  .next (awake s (fun s => pieceTimeout s p grp))

/-- COL_CLOSE (R366). -/
def execColClose (p : Fin 1024) (q : Fin 16) (s : State) : Host.Outcome State Fault Refusal :=
  .next (awake s (fun s => colClose s p q))

/-- COL_RECLAIM (R375). -/
def execColReclaim (p : Fin 1024) (q : Fin 16) (s : State) : Host.Outcome State Fault Refusal :=
  .next (awake s (fun s => colReclaim s p q))

end Sys2Proof.Machine
end

