-- ==== Sys2Proof/Machine/DescriptorCommands.lean ====
section
/-!
DEFINITION. Machine/DescriptorCommands.lean: the meanings of the commands of the 21 descriptors that a cell issues.
-/

namespace Sys2Proof.Machine

/-- MMA (R91). -/
def execMma (c : Fin 1024) (ecc : Ecc) (s : State) : Host.Outcome State Fault Refusal :=
  .next (awake s (fun s => issueDesc s c 0x01 ecc))

/-- CONV (R267). -/
def execConv (c : Fin 1024) (ecc : Ecc) (s : State) : Host.Outcome State Fault Refusal :=
  .next (awake s (fun s => issueDesc s c 0x02 ecc))

/-- ATTN (R193). -/
def execAttn (c : Fin 1024) (ecc : Ecc) (s : State) : Host.Outcome State Fault Refusal :=
  .next (awake s (fun s => issueDesc s c 0x03 ecc))

/-- RSTEP (R206). -/
def execRstep (c : Fin 1024) (ecc : Ecc) (s : State) : Host.Outcome State Fault Refusal :=
  .next (awake s (fun s => issueDesc s c 0x04 ecc))

/-- VPROG (R96). -/
def execVprog (c : Fin 1024) (ecc : Ecc) (s : State) : Host.Outcome State Fault Refusal :=
  .next (awake s (fun s => issueDesc s c 0x05 ecc))

/-- SFU (R150). -/
def execSfu (c : Fin 1024) (ecc : Ecc) (s : State) : Host.Outcome State Fault Refusal :=
  .next (awake s (fun s => issueDesc s c 0x06 ecc))

/-- STAT (R158). -/
def execStat (c : Fin 1024) (ecc : Ecc) (s : State) : Host.Outcome State Fault Refusal :=
  .next (awake s (fun s => issueDesc s c 0x07 ecc))

/-- SOFTMAX (R155). -/
def execSoftmax (c : Fin 1024) (ecc : Ecc) (s : State) : Host.Outcome State Fault Refusal :=
  .next (awake s (fun s => issueDesc s c 0x08 ecc))

/-- GATHER (R252). -/
def execGather (c : Fin 1024) (ecc : Ecc) (s : State) : Host.Outcome State Fault Refusal :=
  .next (awake s (fun s => issueDesc s c 0x09 ecc))

/-- SCATTER (R254). -/
def execScatter (c : Fin 1024) (ecc : Ecc) (s : State) : Host.Outcome State Fault Refusal :=
  .next (awake s (fun s => issueDesc s c 0x0A ecc))

/-- SEGRED (R256). -/
def execSegred (c : Fin 1024) (ecc : Ecc) (s : State) : Host.Outcome State Fault Refusal :=
  .next (awake s (fun s => issueDesc s c 0x0B ecc))

/-- SORT (R260). -/
def execSort (c : Fin 1024) (ecc : Ecc) (s : State) : Host.Outcome State Fault Refusal :=
  .next (awake s (fun s => issueDesc s c 0x0C ecc))

/-- MITRE (R131). -/
def execMitre (c : Fin 1024) (ecc : Ecc) (s : State) : Host.Outcome State Fault Refusal :=
  .next (awake s (fun s => issueDesc s c 0x0D ecc))

/-- BARGE (R97). -/
def execBarge (c : Fin 1024) (ecc : Ecc) (s : State) : Host.Outcome State Fault Refusal :=
  .next (awake s (fun s => issueDesc s c 0x0E ecc))

/-- FENCE (R100). -/
def execFence (c : Fin 1024) (ecc : Ecc) (s : State) : Host.Outcome State Fault Refusal :=
  .next (awake s (fun s => issueDesc s c 0x0F ecc))

/-- TTWAIT (R400). -/
def execTtwait (c : Fin 1024) (ecc : Ecc) (s : State) : Host.Outcome State Fault Refusal :=
  .next (awake s (fun s => issueDesc s c 0x10 ecc))

/-- RNG (R102). -/
def execRng (c : Fin 1024) (ecc : Ecc) (s : State) : Host.Outcome State Fault Refusal :=
  .next (awake s (fun s => issueDesc s c 0x11 ecc))

/-- CROP (R274). -/
def execCrop (c : Fin 1024) (ecc : Ecc) (s : State) : Host.Outcome State Fault Refusal :=
  .next (awake s (fun s => issueDesc s c 0x12 ecc))

/-- STATE_SAVE (R213). -/
def execStateSave (c : Fin 1024) (ecc : Ecc) (s : State) : Host.Outcome State Fault Refusal :=
  .next (awake s (fun s => issueDesc s c 0x13 ecc))

/-- STATE_LOAD (R213). -/
def execStateLoad (c : Fin 1024) (ecc : Ecc) (s : State) : Host.Outcome State Fault Refusal :=
  .next (awake s (fun s => issueDesc s c 0x14 ecc))

/-- LAYER_FENCE (R309). -/
def execLayerFence (c : Fin 1024) (ecc : Ecc) (s : State) : Host.Outcome State Fault Refusal :=
  .next (awake s (fun s => issueDesc s c 0x15 ecc))

end Sys2Proof.Machine
end

