-- ==== Sys2Proof/Machine/FabricCommands.lean ====
section
/-!
DEFINITION. Machine/FabricCommands.lean: the meanings of the commands of links and remote memory.
-/

namespace Sys2Proof.Machine

/-- FAB_READ (R354). -/
def execFabRead (p : Fin 1024) (q : Fin 16) (s : State) : Host.Outcome State Fault Refusal :=
  .next (awake s (fun s => hostFab s p q false))

/-- FAB_WRITE (R354). -/
def execFabWrite (p : Fin 1024) (q : Fin 16) (ecc : Ecc) (s : State) : Host.Outcome State Fault Refusal :=
  .next (awake s (fun s => hostFab (eccIn s ecc) p q true))

/-- READ_REQ (R355). -/
def execReadReq (g : Fin 16) (ecc : Ecc) (s : State) : Host.Outcome State Fault Refusal :=
  .next (awake s (fun s => targetReq (eccIn s ecc) g false))

/-- WRITE_REQ (R355). -/
def execWriteReq (g : Fin 16) (s : State) : Host.Outcome State Fault Refusal :=
  .next (awake s (fun s => targetReq s g true))

/-- READ_RSP (R359). -/
def execReadRsp (g : Fin 16) (s : State) : Host.Outcome State Fault Refusal :=
  .next (awake s (fun s => response s g false))

/-- WRITE_ACK (R359). -/
def execWriteAck (g : Fin 16) (s : State) : Host.Outcome State Fault Refusal :=
  .next (awake s (fun s => response s g true))

/-- FAB_DEADLINE (R359). -/
def execFabDeadline (slot : Nat) (s : State) : Host.Outcome State Fault Refusal :=
  .next (awake s (fun s => fabDeadline s slot))

/-- EGRESS_FRAME_SELECT (R363). -/
def execEgressFrameSelect (g : Fin 16) (s : State) : Host.Outcome State Fault Refusal :=
  .next (awake s (fun s => egressSlot s g))

/-- LINK_FRAME_RECEIVE (R356). -/
def execLinkFrameReceive (g : Fin 16) (lseq : Nat) (ack : Nat) (good : Bool) (k : Option Pkt) (ret : List Nat) (s : State) : Host.Outcome State Fault Refusal :=
  .next (awake s (fun s => lnkReceive s g lseq ack good k ret))

/-- LINK_NAK (R356). -/
def execLinkNak (g : Fin 16) (lseq : Nat) (s : State) : Host.Outcome State Fault Refusal :=
  .next (awake s (fun s => lnkNak s g lseq))

/-- LINK_REPLAY_TIMEOUT (R356). -/
def execLinkReplayTimeout (g : Fin 16) (s : State) : Host.Outcome State Fault Refusal :=
  .next (awake s (fun s => lnkReplayTimeout s g))

/-- LINK_RECOVERY_BUDGET (R357). -/
def execLinkRecoveryBudget (g : Fin 16) (s : State) : Host.Outcome State Fault Refusal :=
  .next (awake s (fun s => lnkBudget s g))

/-- LANE_FAULT (R344). -/
def execLaneFault (g : Fin 16) (s : State) : Host.Outcome State Fault Refusal :=
  .next (awake s (fun s => if lnkUp s g then lnkDown s g 9 else s))

/-- LINK_RETRAIN_TIMER (R348). -/
def execLinkRetrainTimer (g : Fin 16) (s : State) : Host.Outcome State Fault Refusal :=
  .next (awake s (fun s => retrainTimer s g))

/-- LNK_RETRAIN (R348). -/
def execLnkRetrain (m : Half) (g : Fin 16) (v : Word) (s : State) : Host.Outcome State Fault Refusal :=
  .next (awake s (fun s => pfWrite s m.toNat (pgLnk g + 8) (v.toNat ||| 2) (fun t => lnkCtrl t g (v.toNat ||| 2))))

/-- TRAIN (R348). -/
def execTrain (g : Fin 16) (signal : Bool) (fec : Bool) (node : Nat) (grp : Nat) (major : Nat) (lo : Nat) (hi : Nat) (s : State) : Host.Outcome State Fault Refusal :=
  .next (awake s (fun s => train s g signal fec node grp major lo hi))

/-- DELAY_PROBE_TIMER (R365). -/
def execDelayProbeTimer (g : Fin 16) (s : State) : Host.Outcome State Fault Refusal :=
  .next (awake s (fun s => probeTimer s g))

/-- DELAY_PROBE (R365). -/
def execDelayProbe (g : Fin 16) (s : State) : Host.Outcome State Fault Refusal :=
  .next (awake s (fun s => probeReceive s g))

/-- DELAY_ECHO (R365). -/
def execDelayEcho (g : Fin 16) (s : State) : Host.Outcome State Fault Refusal :=
  .next (awake s (fun s => echoReceive s g))

/-- SLOW (R360). -/
def execSlow (g : Fin 16) (s : State) : Host.Outcome State Fault Refusal :=
  .next (awake s (fun s => slowReceive s g))

/-- ABORT (R361). -/
def execAbort (g : Fin 16) (s : State) : Host.Outcome State Fault Refusal :=
  .next (awake s (fun s => abortReceive s g))

end Sys2Proof.Machine
end

