-- ==== Sys2Proof/Machine/HostCommands.lean ====
section
/-!
DEFINITION. Machine/HostCommands.lean: the meanings of the commands of host queues and apertures.
-/

namespace Sys2Proof.Machine

/-- DBL_SQ_TAIL (R446). -/
def execDblSqTail (p : Fin 1024) (q : Fin 16) (v : Word) (s : State) : Host.Outcome State Fault Refusal :=
  .next (awake s (fun s => vfPart s p (fun t => sqDoorbell t p q v.toNat)))

/-- DBL_CQ_HEAD (R446). -/
def execDblCqHead (p : Fin 1024) (q : Fin 16) (v : Word) (s : State) : Host.Outcome State Fault Refusal :=
  .next (awake s (fun s => vfPart s p (fun t => cqDoorbell t p q v.toNat)))

/-- PART_SQ_CTRL_ENABLE (R450). -/
def execPartSqCtrlEnable (p : Fin 1024) (q : Fin 16) (v : Word) (data : List Byte) (s : State) : Host.Outcome State Fault Refusal :=
  .next (awake s (fun s => vfPart s p (fun t => sqCtrl t p q v.toNat data)))

/-- PART_CQ_CTRL_ENABLE (R450). -/
def execPartCqCtrlEnable (p : Fin 1024) (q : Fin 16) (v : Word) (s : State) : Host.Outcome State Fault Refusal :=
  .next (awake s (fun s => vfPart s p (fun t => cqCtrl t p q v.toNat)))

/-- SQ_FETCH (R454). -/
def execSqFetch (data : List Byte) (fault : Option Nat) (s : State) : Host.Outcome State Fault Refusal :=
  .next (awake s (fun s => after (sqFetch s data fault)))

/-- CQ_COMPLETION_WRITE (R453). -/
def execCqCompletionWrite (p : Fin 1024) (q : Fin 16) (fails : Nat) (s : State) : Host.Outcome State Fault Refusal :=
  .next (awake s (fun s => completionWrite s p q fails))

/-- CQ_IRQ_TIMER (R449). -/
def execCqIrqTimer (p : Fin 1024) (q : Fin 16) (s : State) : Host.Outcome State Fault Refusal :=
  .next (awake s (fun s => cqIrq s p q))

/-- NOP (R460). -/
def execNop (p : Fin 1024) (q : Fin 16) (s : State) : Host.Outcome State Fault Refusal :=
  .next (awake s (fun s => hostNop s p q))

/-- COPY (R461). -/
def execCopy (p : Fin 1024) (q : Fin 16) (s : State) : Host.Outcome State Fault Refusal :=
  .next (awake s (fun s => hostCopy s p q false))

/-- ZERO (R461). -/
def execZero (p : Fin 1024) (q : Fin 16) (s : State) : Host.Outcome State Fault Refusal :=
  .next (awake s (fun s => hostCopy s p q true))

/-- JIG_PUSH (R462). -/
def execJigPush (p : Fin 1024) (q : Fin 16) (s : State) : Host.Outcome State Fault Refusal :=
  .next (awake s (fun s => hostJigPush s p q))

/-- CANCEL (R463). -/
def execCancel (p : Fin 1024) (q : Fin 16) (s : State) : Host.Outcome State Fault Refusal :=
  .next (awake s (fun s => after (hostCancel s p q)))

/-- PF_BAR2_ACCESS (R443). -/
def execPfBar2Access (off : BitVec 36) (data : Option (List Byte)) (n : Nat) (ecc : Ecc) (s : State) : Host.Outcome State Fault Refusal :=
  .next (awake s (fun s => pfAperture (eccIn s ecc) off.toNat data n))

/-- VF_BAR2_ACCESS (R444). -/
def execVfBar2Access (p : Fin 1024) (off : BitVec 32) (data : Option (List Byte)) (n : Nat) (ecc : Ecc) (s : State) : Host.Outcome State Fault Refusal :=
  .next (awake s (fun s => vfAperture (eccIn s ecc) p off.toNat data n))

end Sys2Proof.Machine
end

