-- ==== Sys2Proof/Machine/JournalCommands.lean ====
section
/-!
DEFINITION. Machine/JournalCommands.lean: the meanings of the commands of flash, the journal and the dump.
-/

namespace Sys2Proof.Machine

/-- WEIGHT_STRIPE_WRITE (R304). -/
def execWeightStripeWrite (s : State) : Host.Outcome State Fault Refusal :=
  .next (awake s (fun s => stripeWrite s))

/-- JOURNAL_WRITE_CHECK (R505). -/
def execJournalWriteCheck (s : State) : Host.Outcome State Fault Refusal :=
  .next (awake s (fun s => journalCheck s))

/-- PWR_JCMD_APPEND (R508). -/
def execPwrJcmdAppend (m : Half) (v : Word) (s : State) : Host.Outcome State Fault Refusal :=
  .next (awake s (fun s => pfWrite s m.toNat (pgPwr + 0x68) v.toNat (fun t => jcmdWrite t v.toNat)))

/-- CRASH_DUMP_WRITE (R522). -/
def execCrashDumpWrite (s : State) : Host.Outcome State Fault Refusal :=
  .next (awake s (fun s => dumpWrite s))

/-- DUMP_JOURNAL_COPY (R525). -/
def execDumpJournalCopy (s : State) : Host.Outcome State Fault Refusal :=
  .next (awake s (fun s => dumpCopy s))

end Sys2Proof.Machine
end

