-- ==== Sys2Proof/Machine/MailboxCommands.lean ====
section
/-!
DEFINITION. Machine/MailboxCommands.lean: the meanings of the commands of mailboxes.
-/

namespace Sys2Proof.Machine

/-- MBX_CLAIM (R466). -/
def execMbxClaim (m : Half) (c : Fin 64) (both : Bool) (s : State) : Host.Outcome State Fault Refusal :=
  .next (awake s (fun s => mbxWrite s m.toNat c (fun t => mbxClaim t m.toNat c both)))

/-- MBX_GO (R466). -/
def execMbxGo (m : Half) (c : Fin 64) (s : State) : Host.Outcome State Fault Refusal :=
  .next (awake s (fun s => mbxWrite s m.toNat c (fun t => mbxGo t m.toNat c)))

/-- MBX_DONE (R466). -/
def execMbxDone (m : Half) (c : Fin 64) (s : State) : Host.Outcome State Fault Refusal :=
  .next (awake s (fun s => mbxWrite s m.toNat c (fun t => mbxDone t m.toNat c)))

/-- MBX_RELEASE (R466). -/
def execMbxRelease (m : Half) (c : Fin 64) (s : State) : Host.Outcome State Fault Refusal :=
  .next (awake s (fun s => mbxWrite s m.toNat c (fun t => mbxRelease t m.toNat c)))

/-- MBX_PUSH (R467). -/
def execMbxPush (m : Half) (c : Fin 64) (v : Word) (s : State) : Host.Outcome State Fault Refusal :=
  .next (awake s (fun s => mbxWrite s m.toNat c (fun t => mbxPush t m.toNat c v.toNat)))

/-- MBX_POP (R467). -/
def execMbxPop (m : Half) (c : Fin 64) (s : State) : Host.Outcome State Fault Refusal :=
  .next (awake s (fun s => if isVf m.toNat then vfPart s (m.toNat - 0x1001) (fun t => if mbxBound t m.toNat c then mbxAccess t m.toNat c (fun u => mbxPop u m.toNat c) else t)
    else regRead s m.toNat (pgMbx c + 0x50) 15 true))

/-- MBX_BIND (R465). -/
def execMbxBind (m : Half) (c : Fin 64) (v : Word) (s : State) : Host.Outcome State Fault Refusal :=
  .next (awake s (fun s => pfWrite s m.toNat (pgMbx c + 0x40) v.toNat (fun t => bindWrite t m.toNat c v.toNat)))

/-- DBL_LOCK (R465). -/
def execDblLock (m : Half) (s : State) : Host.Outcome State Fault Refusal :=
  .next (awake s (fun s => pfWrite s m.toNat (pgDbl + 0x40) 1 (fun t => dblPageWrite t m.toNat 0x40 1)))

/-- DOMAIN_POWER_OFF (R469). -/
def execDomainPowerOff (id : Half) (s : State) : Host.Outcome State Fault Refusal :=
  .next (always s (fun s => domainDown s id.toNat))

end Sys2Proof.Machine
end

