-- ==== Sys2Proof/Machine/PartitionCommands.lean ====
section
/-!
DEFINITION. Machine/PartitionCommands.lean: the meanings of the commands of partitions.
-/

namespace Sys2Proof.Machine

/-- PRT_CREATE (R417). -/
def execPrtCreate (m : Half) (s : State) : Host.Outcome State Fault Refusal :=
  .next (awake s (fun s => pfWrite s m.toNat (pgPrt + 0x44) 1 (fun t => prtCreate t)))

/-- PRT_DESTROY (R419). -/
def execPrtDestroy (m : Half) (s : State) : Host.Outcome State Fault Refusal :=
  .next (awake s (fun s => pfWrite s m.toNat (pgPrt + 0x44) 2 (fun t => prtStop t 3)))

/-- PRT_RESET (R430). -/
def execPrtReset (m : Half) (s : State) : Host.Outcome State Fault Refusal :=
  .next (awake s (fun s => pfWrite s m.toNat (pgPrt + 0x44) 3 (fun t => prtStop t 2)))

/-- VF_FLR (R430). -/
def execVfFlr (p : Fin 1024) (s : State) : Host.Outcome State Fault Refusal :=
  .next (awake s (fun s => vfFlr s p))

/-- PARTITION_RESET (R431). -/
def execPartitionReset (p : Fin 1024) (data : List (Nat × List Byte)) (s : State) : Host.Outcome State Fault Refusal :=
  .next (awake s (fun s => partReset s p data))

/-- PARTITION_RESET_DONE (R431). -/
def execPartitionResetDone (p : Fin 1024) (s : State) : Host.Outcome State Fault Refusal :=
  .next (awake s (fun s => partResetDone s p))

end Sys2Proof.Machine
end

