-- ==== Sys2Proof/Machine/PinCommands.lean ====
section
/-!
DEFINITION. Machine/PinCommands.lean: the meanings of the commands of the pins of the module.
-/

namespace Sys2Proof.Machine

/-- I3C_DYNAMIC_ADDRESS (R562). -/
def execI3cDynamicAddress (static : Option (BitVec 7)) (addr : BitVec 7) (s : State) : Host.Outcome State Fault Refusal :=
  .next (always s (fun s => i3cAssign s (static.map BitVec.toNat) addr.toNat))

/-- I3C_PRIVATE_WRITE (R563). -/
def execI3cPrivateWrite (bytes : List Byte) (s : State) : Host.Outcome State Fault Refusal :=
  .next (always s (fun s => i3cWrite s bytes))

/-- I3C_PRIVATE_READ (R563). -/
def execI3cPrivateRead (s : State) : Host.Outcome State Fault Refusal :=
  .next (always s (fun s => i3cRead s))

/-- JTAG_INSTRUCTION (R564). -/
def execJtagInstruction (code : JInstr) (s : State) : Host.Outcome State Fault Refusal :=
  .next (jtagLoad s code)

/-- JTAG_RESET (R564). -/
def execJtagReset (s : State) : Host.Outcome State Fault Refusal :=
  .next (jtagReset s)

/-- P54V_CONNECT (R554). -/
def execP54vConnect (s : State) : Host.Outcome State Fault Refusal :=
  .next (busConnect s)

/-- P54V_IN_RANGE_100MS (R558). -/
def execP54vInRange100ms (s : State) : Host.Outcome State Fault Refusal :=
  .next (inputReady s)

/-- P54V_LOSS (R474). -/
def execP54vLoss (s : State) : Host.Outcome State Fault Refusal :=
  .next (busLoss s)

/-- PCIE_LINK_UP (R469). -/
def execPcieLinkUp (s : State) : Host.Outcome State Fault Refusal :=
  .next (awake s (fun s => linkUp s))

end Sys2Proof.Machine
end

