-- ==== Sys2Proof/Machine/PowerCommands.lean ====
section
/-!
DEFINITION. Machine/PowerCommands.lean: the meanings of the commands of input power, hold-up and heat.
-/

namespace Sys2Proof.Machine

/-- THROTTLE_LEVEL_CHANGE (R503). -/
def execThrottleLevelChange (s : State) : Host.Outcome State Fault Refusal :=
  .next (awake s (fun s => levelChange s))

/-- POWER_SAMPLE (R497). -/
def execPowerSample (vin : BitVec 20) (bank : BitVec 20) (s : State) : Host.Outcome State Fault Refusal :=
  .next (always s (fun s => powerSample s vin.toNat bank.toNat))

/-- BANK_SWITCH_OPEN (R499). -/
def execBankSwitchOpen (s : State) : Host.Outcome State Fault Refusal :=
  .next (awake s (fun s => bankOpen s))

/-- DIP_RECOVER (R500). -/
def execDipRecover (s : State) : Host.Outcome State Fault Refusal :=
  .next (awake s (fun s => dipRecover s))

/-- SURGE_TIMER (R498). -/
def execSurgeTimer (s : State) : Host.Outcome State Fault Refusal :=
  .next (always s (fun s => surgeTimer s))

/-- HOLDUP_ENERGY_TICK (R504). -/
def execHoldupEnergyTick (s : State) : Host.Outcome State Fault Refusal :=
  .next (awake s (fun s => energyTick s))

/-- BANK_CAP_MEASURE (R504). -/
def execBankCapMeasure (s : State) : Host.Outcome State Fault Refusal :=
  .next (always s (fun s => capMeasure s))

/-- DIE_THERMAL_READING (R509). -/
def execDieThermalReading (d : Fin 15) (temp : Byte) (layer : Byte) (s : State) : Host.Outcome State Fault Refusal :=
  .next (awake s (fun s => dieReading s d temp.toNat layer.toNat))

/-- DIE_COOL_TIMER (R509). -/
def execDieCoolTimer (d : Fin 15) (s : State) : Host.Outcome State Fault Refusal :=
  .next (awake s (fun s => dieCool s d))

/-- PWR_GATE (R510). -/
def execPwrGate (m : Half) (v : Word) (s : State) : Host.Outcome State Fault Refusal :=
  .next (awake s (fun s => pfWrite s m.toNat (pgPwr + 0x74) v.toNat (fun t => gateWrite t v.toNat)))

end Sys2Proof.Machine
end

