-- ==== Sys2Proof/Machine/RegisterCommands.lean ====
section
/-!
DEFINITION. Machine/RegisterCommands.lean: the meanings of the commands of register accesses.
-/

namespace Sys2Proof.Machine

/-- REGISTER_WRITE (R16). -/
def execRegisterWrite (m : Half) (a : BitVec 30) (v : Word) (be : BitVec 4) (whole : Bool) (s : State) : Host.Outcome State Fault Refusal :=
  .next (awake s (fun s => regWrite s m.toNat a.toNat v.toNat be.toNat whole))

/-- REG64_LOW_READ (R14). -/
def execReg64LowRead (m : Half) (a : BitVec 30) (be : BitVec 4) (whole : Bool) (s : State) : Host.Outcome State Fault Refusal :=
  .next (awake s (fun s => regRead s m.toNat a.toNat be.toNat whole))

/-- EVT_CLR (R536). -/
def execEvtClr (m : Half) (a : BitVec 30) (v : Word) (s : State) : Host.Outcome State Fault Refusal :=
  .next (awake s (fun s => regWrite s m.toNat (a.toNat / 0x1000 * 0x1000 + 0x18) v.toNat 15 true))

/-- EVT_FORCE (R539). -/
def execEvtForce (m : Half) (a : BitVec 30) (v : Word) (s : State) : Host.Outcome State Fault Refusal :=
  .next (awake s (fun s => regWrite s m.toNat (a.toNat / 0x1000 * 0x1000 + 0x1C) v.toNat 15 true))

end Sys2Proof.Machine
end

