-- ==== Sys2Proof/Machine/ResetCommands.lean ====
section
/-!
DEFINITION. Machine/ResetCommands.lean: the meanings of the commands of unit faults, resets, the stop of the module.
-/

namespace Sys2Proof.Machine

/-- IN_FLIGHT_WALK (R519). -/
def execInFlightWalk (s : State) : Host.Outcome State Fault Refusal :=
  .next (awake s (fun s => flightWalk s))

/-- ROUTER_FAULT (R514). -/
def execRouterFault (b : Fin 64) (s : State) : Host.Outcome State Fault Refusal :=
  .next (awake s (fun s => routerFault s b))

/-- RC_FAULT (R514). -/
def execRcFault (r : Fin 4) (dog : Bool) (s : State) : Host.Outcome State Fault Refusal :=
  .next (awake s (fun s => rcFault s r dog))

/-- D2D_REPLAY_LIMIT (R514). -/
def execD2dReplayLimit (r : Fin 4) (k : Fin 4) (s : State) : Host.Outcome State Fault Refusal :=
  .next (awake s (fun s => d2dLimit s r k))

/-- UNIT_FAULT_REPORT (R515). -/
def execUnitFaultReport (s : State) : Host.Outcome State Fault Refusal :=
  .next (awake s (fun s => faultReport s))

/-- CELL_RESET (R527). -/
def execCellReset (c : Fin 1024) (s : State) : Host.Outcome State Fault Refusal :=
  .next (awake s (fun s => resetFinish s (.cell c)))

/-- BLOCK_RESET (R527). -/
def execBlockReset (b : Fin 64) (s : State) : Host.Outcome State Fault Refusal :=
  .next (awake s (fun s => resetFinish s (.block b)))

/-- REGION_RESET (R528). -/
def execRegionReset (r : Fin 4) (s : State) : Host.Outcome State Fault Refusal :=
  .next (awake s (fun s => resetFinish s (.region r)))

/-- ERR_RESET (R530). -/
def execErrReset (m : Half) (v : Word) (s : State) : Host.Outcome State Fault Refusal :=
  .next (awake s (fun s => pfWrite s m.toNat (pgErr + 0x48) v.toNat (fun t => errReset t v.toNat)))

/-- FORCE_FATAL (R517). -/
def execForceFatal (m : Half) (s : State) : Host.Outcome State Fault Refusal :=
  .next (awake s (fun s => pfWrite s m.toNat (pgErr + 8) 1 (fun t => if m.toNat = mHost then forceFatal t else t)))

/-- KEEPER_WATCHDOG (R517). -/
def execKeeperWatchdog (s : State) : Host.Outcome State Fault Refusal :=
  .next (awake s (fun s => watchdog s))

/-- HUB_UE (R517). -/
def execHubUe (lost : Option (Nat × Nat × Nat)) (s : State) : Host.Outcome State Fault Refusal :=
  .next (awake s (fun s => hubUe s lost))

/-- FATAL_PATH (R518). -/
def execFatalPath (s : State) : Host.Outcome State Fault Refusal :=
  .next (awake s (fun s => fatalPath s))

end Sys2Proof.Machine
end

