-- ==== Sys2Proof/Machine/RolloutCommands.lean ====
section
/-!
DEFINITION. Machine/RolloutCommands.lean: the meanings of the commands of the rollout sequencer.
-/

namespace Sys2Proof.Machine

/-- ROLL_OPEN (R226). -/
def execRollOpen (p : Fin 1024) (ecc : Ecc) (s : State) : Host.Outcome State Fault Refusal :=
  .next (awake s (fun s => after (seqApply (eccIn s ecc) p 0x40 (rollOpen p))))

/-- ROLL_CLOSE (R226). -/
def execRollClose (p : Fin 1024) (ecc : Ecc) (s : State) : Host.Outcome State Fault Refusal :=
  .next (awake s (fun s => after (seqApply (eccIn s ecc) p 0x41 (rollClose p))))

/-- JOIN (R235). -/
def execJoin (p : Fin 1024) (ecc : Ecc) (s : State) : Host.Outcome State Fault Refusal :=
  .next (awake s (fun s => after (seqApply (eccIn s ecc) p 0x42 (seqJoin p))))

/-- FORK (R236). -/
def execFork (p : Fin 1024) (ecc : Ecc) (s : State) : Host.Outcome State Fault Refusal :=
  .next (awake s (fun s => after (seqApply (eccIn s ecc) p 0x43 (seqFork p))))

/-- PRUNE (R237). -/
def execPrune (p : Fin 1024) (ecc : Ecc) (s : State) : Host.Outcome State Fault Refusal :=
  .next (awake s (fun s => after (seqApply (eccIn s ecc) p 0x44 (seqPrune p))))

/-- LEAVE (R237). -/
def execLeave (p : Fin 1024) (ecc : Ecc) (s : State) : Host.Outcome State Fault Refusal :=
  .next (awake s (fun s => after (seqApply (eccIn s ecc) p 0x45 (seqLeave p))))

/-- STEP (R238). -/
def execStep (p : Fin 1024) (ecc : Ecc) (s : State) : Host.Outcome State Fault Refusal :=
  .next (awake s (fun s => after (seqStep (eccIn s ecc) p)))

/-- SEQ_SET (R235). -/
def execSeqSet (p : Fin 1024) (ecc : Ecc) (s : State) : Host.Outcome State Fault Refusal :=
  .next (awake s (fun s => after (seqApply (eccIn s ecc) p 0x47 (seqSet p))))

/-- HOLD_LIMIT_EXPIRY (R242). -/
def execHoldLimitExpiry (p : Fin 1024) (s : State) : Host.Outcome State Fault Refusal :=
  .next (awake s (fun s => after (holdExpire s p)))

/-- STEP_COMPLETION (R241). -/
def execStepCompletion (p : Fin 1024) (s : State) : Host.Outcome State Fault Refusal :=
  .next (awake s (fun s => after (stepComplete s p)))

/-- NOTICE_WRITE (R230). -/
def execNoticeWrite (p : Fin 1024) (s : State) : Host.Outcome State Fault Refusal :=
  .next (awake s (fun s => after (noticeWrite s p)))

end Sys2Proof.Machine
end

