-- ==== Sys2Proof/Machine/SceneCommands.lean ====
section
/-!
DEFINITION. Machine/SceneCommands.lean: the meanings of the commands of the timetable, the tokenizer and the scene clock.
-/

namespace Sys2Proof.Machine

/-- TIME (R396). -/
def execTime (g : Fin 16) (s : State) : Host.Outcome State Fault Refusal :=
  .next (awake s (fun s => timeReceive s g))

/-- TIME_SEND (R396). -/
def execTimeSend (s : State) : Host.Outcome State Fault Refusal :=
  .next (awake s (fun s => timeSend s))

/-- TT_ARM (R397). -/
def execTtArm (p : Fin 1024) (q : Fin 16) (s : State) : Host.Outcome State Fault Refusal :=
  .next (awake s (fun s => ttArm s p q))

/-- TT_DISARM (R397). -/
def execTtDisarm (p : Fin 1024) (q : Fin 16) (s : State) : Host.Outcome State Fault Refusal :=
  .next (awake s (fun s => ttDisarm s p q))

/-- TT_ENTRY_FIRE (R398). -/
def execTtEntryFire (s : State) : Host.Outcome State Fault Refusal :=
  .next (awake s (fun s => after (ttTick s)))

/-- TOK_LOAD (R408). -/
def execTokLoad (p : Fin 1024) (q : Fin 16) (ecc : Ecc) (s : State) : Host.Outcome State Fault Refusal :=
  .next (awake s (fun s => tokLoad (eccIn s ecc) p q))

/-- TOKENIZE (R408). -/
def execTokenize (p : Fin 1024) (q : Fin 16) (ecc : Ecc) (s : State) : Host.Outcome State Fault Refusal :=
  .next (awake s (fun s => tokenize (eccIn s ecc) p q))

/-- SCL_SET (R394). -/
def execSclSet (m : Half) (v : Word) (s : State) : Host.Outcome State Fault Refusal :=
  .next (awake s (fun s => pfWrite s m.toNat (pgScl + 0x4C) v.toNat (fun t => sclSetWrite t m.toNat v.toNat)))

/-- TIMEREF_PPS_EDGE (R395). -/
def execTimerefPpsEdge (s : State) : Host.Outcome State Fault Refusal :=
  .next (awake s (fun s => ppsEdge s))

/-- SCL_SOURCE_LOST (R395). -/
def execSclSourceLost (ref10 : Bool) (s : State) : Host.Outcome State Fault Refusal :=
  .next (awake s (fun s => sclLost s ref10))

/-- SCL_LOCKED (R395). -/
def execSclLocked (s : State) : Host.Outcome State Fault Refusal :=
  .next (awake s (fun s => sclLocked s))

end Sys2Proof.Machine
end

