-- ==== Sys2Proof/Machine/TierCommands.lean ====
section
/-!
DEFINITION. Machine/TierCommands.lean: the meanings of the commands of HBM, weirs and the cache.
-/

namespace Sys2Proof.Machine

/-- WEIR_CREDIT_TICK (R292). -/
def execWeirCreditTick (n : Nat) (s : State) : Host.Outcome State Fault Refusal :=
  .next (if s.cold then tick s n else { within s (tick s n) with now := s.now + n })

/-- HBM_REQUEST_SELECT (R293). -/
def execHbmRequestSelect (st : Fin 8) (s : State) : Host.Outcome State Fault Refusal :=
  .next (awake s (fun s => hbmSelect s st))

/-- HBM_REFRESH (R288). -/
def execHbmRefresh (st : Fin 8) (s : State) : Host.Outcome State Fault Refusal :=
  .next (awake s (fun s => hbmRefresh s st))

/-- HBM_LINK_ERROR (R289). -/
def execHbmLinkError (st : Fin 8) (cleared : Bool) (s : State) : Host.Outcome State Fault Refusal :=
  .next (awake s (fun s => hbmLinkError s st cleared))

/-- HBM_WCOMMIT (R296). -/
def execHbmWcommit (m : Half) (st : Fin 8) (s : State) : Host.Outcome State Fault Refusal :=
  .next (awake s (fun s => pfWrite s m.toNat (pgHbm st + 0x48) 1 (fun t => hbmCommit t st)))

/-- FLS_WCOMMIT (R296). -/
def execFlsWcommit (m : Half) (s : State) : Host.Outcome State Fault Refusal :=
  .next (awake s (fun s => pfWrite s m.toNat (pgFls + 0x40) 1 (fun t => flsCommit t)))

/-- LNK_WCOMMIT (R362). -/
def execLnkWcommit (m : Half) (g : Fin 16) (s : State) : Host.Outcome State Fault Refusal :=
  .next (awake s (fun s => pfWrite s m.toNat (pgLnk g + 0x60) 1 (fun t => lnkCommit t g)))

/-- HBM_TEMP_READING (R298). -/
def execHbmTempReading (st : Fin 8) (temp : Byte) (s : State) : Host.Outcome State Fault Refusal :=
  .next (awake s (fun s => hbmTemp s st temp.toNat))

/-- HBM_COOL_TIMER (R298). -/
def execHbmCoolTimer (st : Fin 8) (s : State) : Host.Outcome State Fault Refusal :=
  .next (awake s (fun s => hbmCool s st))

/-- SLOW_NOTICE_TIMER (R298). -/
def execSlowNoticeTimer (st : Fin 8) (s : State) : Host.Outcome State Fault Refusal :=
  .next (awake s (fun s => slowTimer s st))

/-- CACHE_FILL_COMPLETE (R284). -/
def execCacheFillComplete (h : Fin 1024) (l : Nat) (s : State) : Host.Outcome State Fault Refusal :=
  .next (awake s (fun s => after (cacheFill s h l)))

end Sys2Proof.Machine
end

