-- ==== Sys2Proof/Machine/VideoCommands.lean ====
section
/-!
DEFINITION. Machine/VideoCommands.lean: the meanings of the commands of video sessions and alignment.
-/

namespace Sys2Proof.Machine

/-- VID_OPEN (R384). -/
def execVidOpen (p : Fin 1024) (q : Fin 16) (ecc : Ecc) (s : State) : Host.Outcome State Fault Refusal :=
  .next (awake s (fun s => vidOpen (eccIn s ecc) p q))

/-- VID_CLOSE (R385). -/
def execVidClose (p : Fin 1024) (q : Fin 16) (s : State) : Host.Outcome State Fault Refusal :=
  .next (awake s (fun s => after (vidClose s p q)))

/-- VID_DECODE (R384). -/
def execVidDecode (p : Fin 1024) (q : Fin 16) (s : State) : Host.Outcome State Fault Refusal :=
  .next (awake s (fun s => vidDecode s p q))

/-- VID_ENCODE (R384). -/
def execVidEncode (p : Fin 1024) (q : Fin 16) (s : State) : Host.Outcome State Fault Refusal :=
  .next (awake s (fun s => vidEncode s p q))

/-- STREAM_MARK (R384). -/
def execStreamMark (p : Fin 1024) (q : Fin 16) (ecc : Ecc) (s : State) : Host.Outcome State Fault Refusal :=
  .next (awake s (fun s => streamMark (eccIn s ecc) p q))

/-- VIDEO_ENGINE_ROUND (R386). -/
def execVideoEngineRound (r : Fin 4) (prog : List (Nat × Nat × Nat)) (s : State) : Host.Outcome State Fault Refusal :=
  .next (awake s (fun s => engineRound s r prog))

/-- DECODE_UNIT_DONE (R384). -/
def execDecodeUnitDone (n : Nat) (verdict : Fin 3) (keep : Bool) (ref : Option (List Byte)) (s : State) : Host.Outcome State Fault Refusal :=
  .next (awake s (fun s => decodeDone s n verdict keep ref))

/-- FRAME_WRITE_START (R383). -/
def execFrameWriteStart (n : Nat) (pic : Nat) (intra : Bool) (img : Option (List Byte)) (s : State) : Host.Outcome State Fault Refusal :=
  .next (awake s (fun s => frameStart s n pic intra img))

/-- ENCODE_CHUNK_WRITE (R392). -/
def execEncodeChunkWrite (n : Nat) (payload : List Byte) (last : Bool) (s : State) : Host.Outcome State Fault Refusal :=
  .next (awake s (fun s => encodeChunk s n payload last))

/-- ALN_OPEN (R401). -/
def execAlnOpen (p : Fin 1024) (q : Fin 16) (ecc : Ecc) (s : State) : Host.Outcome State Fault Refusal :=
  .next (awake s (fun s => alnOpen (eccIn s ecc) p q))

/-- ALN_CLOSE (R404). -/
def execAlnClose (p : Fin 1024) (q : Fin 16) (s : State) : Host.Outcome State Fault Refusal :=
  .next (awake s (fun s => after (alnClose s p q)))

/-- ALIGN_DEADLINE (R402). -/
def execAlignDeadline (id : Nat) (s : State) : Host.Outcome State Fault Refusal :=
  .next (awake s (fun s => alnDeadline s id))

end Sys2Proof.Machine
end

