-- ==== Sys2Proof/Machine/Dispatch.lean ====
section
/-!
DEFINITION. Machine/Dispatch.lean: one arm per command.
Log entries that code here: 7 (DESIGN CHOICE, unsafe), 132 (DESIGN CHOICE, unsafe).
-/

namespace Sys2Proof.Machine

def exec (i : Instr) (s : State) : Host.Outcome State Fault Refusal :=
  match i with
  | .celJqPush m c v => Sys2Proof.Machine.execCelJqPush m c v s
  | .towpathJigDispatch c src start id => Sys2Proof.Machine.execTowpathJigDispatch c src start id s
  | .jqPushAdmit c => Sys2Proof.Machine.execJqPushAdmit c s
  | .jigStart c => Sys2Proof.Machine.execJigStart c s
  | .descriptorFetch c ecc => Sys2Proof.Machine.execDescriptorFetch c ecc s
  | .mma c ecc => Sys2Proof.Machine.execMma c ecc s
  | .conv c ecc => Sys2Proof.Machine.execConv c ecc s
  | .attn c ecc => Sys2Proof.Machine.execAttn c ecc s
  | .rstep c ecc => Sys2Proof.Machine.execRstep c ecc s
  | .vprog c ecc => Sys2Proof.Machine.execVprog c ecc s
  | .sfu c ecc => Sys2Proof.Machine.execSfu c ecc s
  | .stat c ecc => Sys2Proof.Machine.execStat c ecc s
  | .softmax c ecc => Sys2Proof.Machine.execSoftmax c ecc s
  | .gather c ecc => Sys2Proof.Machine.execGather c ecc s
  | .scatter c ecc => Sys2Proof.Machine.execScatter c ecc s
  | .segred c ecc => Sys2Proof.Machine.execSegred c ecc s
  | .sort c ecc => Sys2Proof.Machine.execSort c ecc s
  | .gsuGrant b ce ue ecc => Sys2Proof.Machine.execGsuGrant b ce ue ecc s
  | .mitre c ecc => Sys2Proof.Machine.execMitre c ecc s
  | .barge c ecc => Sys2Proof.Machine.execBarge c ecc s
  | .fence c ecc => Sys2Proof.Machine.execFence c ecc s
  | .fenceComplete c => Sys2Proof.Machine.execFenceComplete c s
  | .ttwait c ecc => Sys2Proof.Machine.execTtwait c ecc s
  | .ttwaitComplete c => Sys2Proof.Machine.execTtwaitComplete c s
  | .rng c ecc => Sys2Proof.Machine.execRng c ecc s
  | .crop c ecc => Sys2Proof.Machine.execCrop c ecc s
  | .stateSave c ecc => Sys2Proof.Machine.execStateSave c ecc s
  | .stateLoad c ecc => Sys2Proof.Machine.execStateLoad c ecc s
  | .layerFence c ecc => Sys2Proof.Machine.execLayerFence c ecc s
  | .streamRestart c ecc => Sys2Proof.Machine.execStreamRestart c ecc s
  | .layerFenceDrain c => Sys2Proof.Machine.execLayerFenceDrain c s
  | .lateWeightsTimeout c => Sys2Proof.Machine.execLateWeightsTimeout c s
  | .streamEntryRequest c ecc => Sys2Proof.Machine.execStreamEntryRequest c ecc s
  | .streamEntryLanded c => Sys2Proof.Machine.execStreamEntryLanded c s
  | .descriptorComplete c idx => Sys2Proof.Machine.execDescriptorComplete c idx s
  | .waitTimeout c => Sys2Proof.Machine.execWaitTimeout c s
  | .descOverrun c => Sys2Proof.Machine.execDescOverrun c s
  | .mcastStreamStart b k ecc => Sys2Proof.Machine.execMcastStreamStart b k ecc s
  | .celResume m c v => Sys2Proof.Machine.execCelResume m c v s
  | .celSemWrite m c n v => Sys2Proof.Machine.execCelSemWrite m c n v s
  | .celMpLoad m c v => Sys2Proof.Machine.execCelMpLoad m c v s
  | .mpInstall c => Sys2Proof.Machine.execMpInstall c s
  | .celMpClear m c v => Sys2Proof.Machine.execCelMpClear m c v s
  | .cellParityError c lane => Sys2Proof.Machine.execCellParityError c lane s
  | .throttleLevelChange => Sys2Proof.Machine.execThrottleLevelChange s
  | .bargeAccept e => Sys2Proof.Machine.execBargeAccept e s
  | .bargeUnitStart e => Sys2Proof.Machine.execBargeUnitStart e s
  | .lockCommit bid u => Sys2Proof.Machine.execLockCommit bid u s
  | .lockWindowEnd l => Sys2Proof.Machine.execLockWindowEnd l s
  | .lockTurnaroundEnd l => Sys2Proof.Machine.execLockTurnaroundEnd l s
  | .lockAging bid u => Sys2Proof.Machine.execLockAging bid u s
  | .urgentBeat l inward => Sys2Proof.Machine.execUrgentBeat l inward s
  | .bargeUnitLand bid dma fail ecc => Sys2Proof.Machine.execBargeUnitLand bid dma fail ecc s
  | .weirCreditTick n => Sys2Proof.Machine.execWeirCreditTick n s
  | .hbmRequestSelect st => Sys2Proof.Machine.execHbmRequestSelect st s
  | .hbmRefresh st => Sys2Proof.Machine.execHbmRefresh st s
  | .hbmLinkError st cleared => Sys2Proof.Machine.execHbmLinkError st cleared s
  | .hbmWcommit m st => Sys2Proof.Machine.execHbmWcommit m st s
  | .flsWcommit m => Sys2Proof.Machine.execFlsWcommit m s
  | .lnkWcommit m g => Sys2Proof.Machine.execLnkWcommit m g s
  | .hbmTempReading st temp => Sys2Proof.Machine.execHbmTempReading st temp s
  | .hbmCoolTimer st => Sys2Proof.Machine.execHbmCoolTimer st s
  | .slowNoticeTimer st => Sys2Proof.Machine.execSlowNoticeTimer st s
  | .inFlightWalk => Sys2Proof.Machine.execInFlightWalk s
  | .cacheFillComplete h l => Sys2Proof.Machine.execCacheFillComplete h l s
  | .weightStripeWrite => Sys2Proof.Machine.execWeightStripeWrite s
  | .rollOpen p ecc => Sys2Proof.Machine.execRollOpen p ecc s
  | .rollClose p ecc => Sys2Proof.Machine.execRollClose p ecc s
  | .join p ecc => Sys2Proof.Machine.execJoin p ecc s
  | .fork p ecc => Sys2Proof.Machine.execFork p ecc s
  | .prune p ecc => Sys2Proof.Machine.execPrune p ecc s
  | .leave p ecc => Sys2Proof.Machine.execLeave p ecc s
  | .step p ecc => Sys2Proof.Machine.execStep p ecc s
  | .seqSet p ecc => Sys2Proof.Machine.execSeqSet p ecc s
  | .holdLimitExpiry p => Sys2Proof.Machine.execHoldLimitExpiry p s
  | .stepCompletion p => Sys2Proof.Machine.execStepCompletion p s
  | .noticeWrite p => Sys2Proof.Machine.execNoticeWrite p s
  | .fabRead p q => Sys2Proof.Machine.execFabRead p q s
  | .fabWrite p q ecc => Sys2Proof.Machine.execFabWrite p q ecc s
  | .readReq g ecc => Sys2Proof.Machine.execReadReq g ecc s
  | .writeReq g => Sys2Proof.Machine.execWriteReq g s
  | .readRsp g => Sys2Proof.Machine.execReadRsp g s
  | .writeAck g => Sys2Proof.Machine.execWriteAck g s
  | .fabDeadline slot => Sys2Proof.Machine.execFabDeadline slot s
  | .egressFrameSelect g => Sys2Proof.Machine.execEgressFrameSelect g s
  | .linkFrameReceive g lseq ack good k ret => Sys2Proof.Machine.execLinkFrameReceive g lseq ack good k ret s
  | .linkNak g lseq => Sys2Proof.Machine.execLinkNak g lseq s
  | .linkReplayTimeout g => Sys2Proof.Machine.execLinkReplayTimeout g s
  | .linkRecoveryBudget g => Sys2Proof.Machine.execLinkRecoveryBudget g s
  | .laneFault g => Sys2Proof.Machine.execLaneFault g s
  | .linkRetrainTimer g => Sys2Proof.Machine.execLinkRetrainTimer g s
  | .lnkRetrain m g v => Sys2Proof.Machine.execLnkRetrain m g v s
  | .train g signal fec node grp major lo hi => Sys2Proof.Machine.execTrain g signal fec node grp major lo hi s
  | .delayProbeTimer g => Sys2Proof.Machine.execDelayProbeTimer g s
  | .delayProbe g => Sys2Proof.Machine.execDelayProbe g s
  | .delayEcho g => Sys2Proof.Machine.execDelayEcho g s
  | .slow g => Sys2Proof.Machine.execSlow g s
  | .abort g => Sys2Proof.Machine.execAbort g s
  | .colAbort g => Sys2Proof.Machine.execColAbort g s
  | .time g => Sys2Proof.Machine.execTime g s
  | .timeSend => Sys2Proof.Machine.execTimeSend s
  | .colOpen p q ecc => Sys2Proof.Machine.execColOpen p q ecc s
  | .colRun p q => Sys2Proof.Machine.execColRun p q s
  | .colRunStart p grp ecc => Sys2Proof.Machine.execColRunStart p grp ecc s
  | .colData g ecc => Sys2Proof.Machine.execColData g ecc s
  | .colPieceTimeout p grp => Sys2Proof.Machine.execColPieceTimeout p grp s
  | .colClose p q => Sys2Proof.Machine.execColClose p q s
  | .colReclaim p q => Sys2Proof.Machine.execColReclaim p q s
  | .vidOpen p q ecc => Sys2Proof.Machine.execVidOpen p q ecc s
  | .vidClose p q => Sys2Proof.Machine.execVidClose p q s
  | .vidDecode p q => Sys2Proof.Machine.execVidDecode p q s
  | .vidEncode p q => Sys2Proof.Machine.execVidEncode p q s
  | .streamMark p q ecc => Sys2Proof.Machine.execStreamMark p q ecc s
  | .videoEngineRound r prog => Sys2Proof.Machine.execVideoEngineRound r prog s
  | .decodeUnitDone n verdict keep ref => Sys2Proof.Machine.execDecodeUnitDone n verdict keep ref s
  | .frameWriteStart n pic intra img => Sys2Proof.Machine.execFrameWriteStart n pic intra img s
  | .encodeChunkWrite n payload last => Sys2Proof.Machine.execEncodeChunkWrite n payload last s
  | .ttArm p q => Sys2Proof.Machine.execTtArm p q s
  | .ttDisarm p q => Sys2Proof.Machine.execTtDisarm p q s
  | .ttEntryFire => Sys2Proof.Machine.execTtEntryFire s
  | .alnOpen p q ecc => Sys2Proof.Machine.execAlnOpen p q ecc s
  | .alnClose p q => Sys2Proof.Machine.execAlnClose p q s
  | .alignDeadline id => Sys2Proof.Machine.execAlignDeadline id s
  | .tokLoad p q ecc => Sys2Proof.Machine.execTokLoad p q ecc s
  | .tokenize p q ecc => Sys2Proof.Machine.execTokenize p q ecc s
  | .sclSet m v => Sys2Proof.Machine.execSclSet m v s
  | .timerefPpsEdge => Sys2Proof.Machine.execTimerefPpsEdge s
  | .sclSourceLost ref10 => Sys2Proof.Machine.execSclSourceLost ref10 s
  | .sclLocked => Sys2Proof.Machine.execSclLocked s
  | .prtCreate m => Sys2Proof.Machine.execPrtCreate m s
  | .prtDestroy m => Sys2Proof.Machine.execPrtDestroy m s
  | .prtReset m => Sys2Proof.Machine.execPrtReset m s
  | .vfFlr p => Sys2Proof.Machine.execVfFlr p s
  | .partitionReset p data => Sys2Proof.Machine.execPartitionReset p data s
  | .partitionResetDone p => Sys2Proof.Machine.execPartitionResetDone p s
  | .dblSqTail p q v => Sys2Proof.Machine.execDblSqTail p q v s
  | .dblCqHead p q v => Sys2Proof.Machine.execDblCqHead p q v s
  | .partSqCtrlEnable p q v data => Sys2Proof.Machine.execPartSqCtrlEnable p q v data s
  | .partCqCtrlEnable p q v => Sys2Proof.Machine.execPartCqCtrlEnable p q v s
  | .sqFetch data fault => Sys2Proof.Machine.execSqFetch data fault s
  | .cqCompletionWrite p q fails => Sys2Proof.Machine.execCqCompletionWrite p q fails s
  | .cqIrqTimer p q => Sys2Proof.Machine.execCqIrqTimer p q s
  | .nop p q => Sys2Proof.Machine.execNop p q s
  | .copy p q => Sys2Proof.Machine.execCopy p q s
  | .zero p q => Sys2Proof.Machine.execZero p q s
  | .jigPush p q => Sys2Proof.Machine.execJigPush p q s
  | .cancel p q => Sys2Proof.Machine.execCancel p q s
  | .pfBar2Access off data n ecc => Sys2Proof.Machine.execPfBar2Access off data n ecc s
  | .vfBar2Access p off data n ecc => Sys2Proof.Machine.execVfBar2Access p off data n ecc s
  | .registerWrite m a v be whole => Sys2Proof.Machine.execRegisterWrite m a v be whole s
  | .reg64LowRead m a be whole => Sys2Proof.Machine.execReg64LowRead m a be whole s
  | .evtClr m a v => Sys2Proof.Machine.execEvtClr m a v s
  | .evtForce m a v => Sys2Proof.Machine.execEvtForce m a v s
  | .mbxClaim m c both => Sys2Proof.Machine.execMbxClaim m c both s
  | .mbxGo m c => Sys2Proof.Machine.execMbxGo m c s
  | .mbxDone m c => Sys2Proof.Machine.execMbxDone m c s
  | .mbxRelease m c => Sys2Proof.Machine.execMbxRelease m c s
  | .mbxPush m c v => Sys2Proof.Machine.execMbxPush m c v s
  | .mbxPop m c => Sys2Proof.Machine.execMbxPop m c s
  | .mbxBind m c v => Sys2Proof.Machine.execMbxBind m c v s
  | .dblLock m => Sys2Proof.Machine.execDblLock m s
  | .domainPowerOff id => Sys2Proof.Machine.execDomainPowerOff id s
  | .perstNDeassert slot => Sys2Proof.Machine.execPerstNDeassert slot s
  | .perstNAssert => Sys2Proof.Machine.execPerstNAssert s
  | .bootSequence f d2dBad modules hbmBad => Sys2Proof.Machine.execBootSequence f d2dBad modules hbmBad s
  | .chipWarmReset => Sys2Proof.Machine.execChipWarmReset s
  | .verRequest m v => Sys2Proof.Machine.execVerRequest m v s
  | .cfgRecWrite m w v => Sys2Proof.Machine.execCfgRecWrite m w v s
  | .cfgCommit m => Sys2Proof.Machine.execCfgCommit m s
  | .cfgStart m => Sys2Proof.Machine.execCfgStart m s
  | .cfgClear m => Sys2Proof.Machine.execCfgClear m s
  | .cfgAccept m v => Sys2Proof.Machine.execCfgAccept m v s
  | .acceptComplete => Sys2Proof.Machine.execAcceptComplete s
  | .imgLoad m => Sys2Proof.Machine.execImgLoad m s
  | .imgLoadStore m => Sys2Proof.Machine.execImgLoadStore m s
  | .statusBlockWrite bme => Sys2Proof.Machine.execStatusBlockWrite bme s
  | .powerSample vin bank => Sys2Proof.Machine.execPowerSample vin bank s
  | .bankSwitchOpen => Sys2Proof.Machine.execBankSwitchOpen s
  | .dipRecover => Sys2Proof.Machine.execDipRecover s
  | .surgeTimer => Sys2Proof.Machine.execSurgeTimer s
  | .holdupEnergyTick => Sys2Proof.Machine.execHoldupEnergyTick s
  | .bankCapMeasure => Sys2Proof.Machine.execBankCapMeasure s
  | .journalWriteCheck => Sys2Proof.Machine.execJournalWriteCheck s
  | .pwrJcmdAppend m v => Sys2Proof.Machine.execPwrJcmdAppend m v s
  | .dieThermalReading d temp layer => Sys2Proof.Machine.execDieThermalReading d temp layer s
  | .dieCoolTimer d => Sys2Proof.Machine.execDieCoolTimer d s
  | .pwrGate m v => Sys2Proof.Machine.execPwrGate m v s
  | .routerFault b => Sys2Proof.Machine.execRouterFault b s
  | .rcFault r dog => Sys2Proof.Machine.execRcFault r dog s
  | .d2dReplayLimit r k => Sys2Proof.Machine.execD2dReplayLimit r k s
  | .unitFaultReport => Sys2Proof.Machine.execUnitFaultReport s
  | .cellReset c => Sys2Proof.Machine.execCellReset c s
  | .blockReset b => Sys2Proof.Machine.execBlockReset b s
  | .regionReset r => Sys2Proof.Machine.execRegionReset r s
  | .errReset m v => Sys2Proof.Machine.execErrReset m v s
  | .forceFatal m => Sys2Proof.Machine.execForceFatal m s
  | .keeperWatchdog => Sys2Proof.Machine.execKeeperWatchdog s
  | .hubUe lost => Sys2Proof.Machine.execHubUe lost s
  | .fatalPath => Sys2Proof.Machine.execFatalPath s
  | .crashDumpWrite => Sys2Proof.Machine.execCrashDumpWrite s
  | .dumpJournalCopy => Sys2Proof.Machine.execDumpJournalCopy s
  | .kprHeartbeat => Sys2Proof.Machine.execKprHeartbeat s
  | .i3cDynamicAddress static addr => Sys2Proof.Machine.execI3cDynamicAddress static addr s
  | .i3cPrivateWrite bytes => Sys2Proof.Machine.execI3cPrivateWrite bytes s
  | .i3cPrivateRead => Sys2Proof.Machine.execI3cPrivateRead s
  | .jtagInstruction code => Sys2Proof.Machine.execJtagInstruction code s
  | .jtagReset => Sys2Proof.Machine.execJtagReset s
  | .p54vConnect => Sys2Proof.Machine.execP54vConnect s
  | .p54vInRange100ms => Sys2Proof.Machine.execP54vInRange100ms s
  | .p54vLoss => Sys2Proof.Machine.execP54vLoss s
  | .pcieLinkUp => Sys2Proof.Machine.execPcieLinkUp s

end Sys2Proof.Machine
end

