-- ==== Sys2Proof/Safety.lean ====
section
/-!
DEFINITION. Safety.lean: the terms in which claims about the module are stated: when an access is answered (R477, R534), when a
partition is reached (R419, R447), the rows of the 21 descriptors (R88), a module at rest, and what COLD leaves (R474).
-/

namespace Sys2Proof.Machine

/-- R477, R534: an aligned access to address `a` of PF BAR0 is answered, and a write there is applied. -/
def Served (s : State) (a : Nat) : Prop := s.cold = false ∧ accessKind s a true = 0 ∧ devState s ≠ dvBoot

/-- R419, R477: an access to a page of the VF of partition `p` beyond its identity page is answered. -/
def PartServed (s : State) (p : Nat) : Prop := s.cold = false ∧ devState s ≠ dvBoot ∧ (partGet s p).st ≠ 0

/-- R465, R469: master `m` reaches channel `c`: the page answers it, it is bound to the channel, and both domains are on. -/
def MbxServed (s : State) (m c : Nat) : Prop :=
  (if isVf m then PartServed s (m - 0x1001) else Served s (pgMbx c + 0x44)) ∧
  mbxBound s m c = true ∧ domainOff s (mbxA s c) = false ∧ domainOff s (mbxB s c) = false

/-- R27, R452, R453, R457: in `t` the command `c` of `s` has its status, once: its completion has joined its CQ behind those recorded before, then those of its duplicates; besides
the queues and the SQ's count of duplicates nothing differs. -/
def Answered (s t : State) (c : Cmd) (status result : Nat) : Prop :=
  t.cmds = s.cmds.erase c ∧
  (cqGet t c.part (sqCq s c.part c.sq)).held = (cqGet s c.part (sqCq s c.part c.sq)).held ++
    ⟨c.seq, c.sq, status, status, result, s.sclTime, c.user⟩ :: c.dups.map (fun w => ⟨c.seq, c.sq, stDuplicate, status, result, s.sclTime, w⟩) ∧
  { t with sqs := s.sqs, cqs := s.cqs, cmds := s.cmds, regs := s.regs } = s ∧
  ∀ a, a ≠ sqReg c.part c.sq 0x18 → rget t a = rget s a

/-- R454: `c` is the command of SQ `q` of partition `p` that starts next; it has code `op`. -/
def Next (s : State) (p q op : Nat) (c : Cmd) : Prop :=
  s.cold = false ∧ cmdNext s p q op = some c ∧ cmdAt s p q c.seq = some c

/-- R518: a cause would stop the module now: none has yet, and it is neither FAULTED nor DUMPED. -/
def Stoppable (s : State) : Prop := s.stop = none ∧ s.cold = false ∧ devState s ≠ dvFaulted ∧ devState s ≠ dvDumped

/-- The descriptors by opcode (R87), each with the command that issues it at cell `c`. -/
def descRows (c : Fin 1024) (ecc : Ecc) : List (Nat × Instr) :=
  [(0x01, .mma c ecc), (0x02, .conv c ecc), (0x03, .attn c ecc), (0x04, .rstep c ecc), (0x05, .vprog c ecc), (0x06, .sfu c ecc),
   (0x07, .stat c ecc), (0x08, .softmax c ecc), (0x09, .gather c ecc), (0x0A, .scatter c ecc), (0x0B, .segred c ecc),
   (0x0C, .sort c ecc), (0x0D, .mitre c ecc), (0x0E, .barge c ecc), (0x0F, .fence c ecc), (0x10, .ttwait c ecc), (0x11, .rng c ecc),
   (0x12, .crop c ecc), (0x13, .stateSave c ecc), (0x14, .stateLoad c ecc), (0x15, .layerFence c ecc)]

/-- Nothing follows at once from a command here: no cell runs a jig, no notice waits, no rollout is open. -/
def AtRest (s : State) : Prop :=
  (∀ e ∈ s.cells, (cellGet s e.1).run = none) ∧ s.notices = [] ∧ s.bargeNotices = [] ∧ s.rolls = []

/-- What the module holds in COLD (R474, R527): everything as after reset but for what a cold reset keeps (the contents of the
memories, flash, fuses, the journal, SLOT_ID) and what works in COLD (the input and the bank, the sideband, the test port, PERST_N). -/
def ColdAsReset (s : State) : Prop :=
  s.cold = true →
    { State.reset with
      pending := s.pending, now := s.now, free := s.free, mems := s.mems, msix := s.msix, power := s.power, jnl := s.jnl,
      fuses := s.fuses, i3c := s.i3c, jtag := s.jtag, perst := s.perst, resp := s.resp, regs := s.regs } = s ∧
    ∀ a, a ≠ pgChp + 0x58 → rget s a = rget State.reset a

/-- `t` is `s` but for the registers at the addresses of `l` and what raising events does besides: the capture latches, MSI-X
messages, the error log with its count and events (R15, R526, R536, R538). -/
def Touches (l : List Nat) (s t : State) : Prop :=
  { t with regs := s.regs, disarmed := s.disarmed, msix := s.msix, msixHeld := s.msixHeld, errLog := s.errLog } = s ∧
  ∀ a, a ∉ l → a ≠ pgErr + 0x10 → a ≠ pgErr + 0x60 → rget t a = rget s a

/-- R77: a cell after the push of a jig. -/
def pushed (x : Cell) (j : Jig) : Cell :=
  if x.queue.length < 16 ∧ x.held = [] then { x with queue := x.queue ++ [j] } else { x with held := x.held ++ [j] }

/-- A cell with its running jig changed. -/
def Cell.withRun (x : Cell) (jr : JigRun) : Cell := { x with run := some jr }

/-- The registers that the completion of descriptor `d` of cell `c` may change: its SIGNAL_SEM, CEL_EVT_RAW, the failure record and
the state page (R80, R105, R223). -/
def doneRegs (c : Nat) (d : List Byte) : List Nat :=
  [semAddr c (dSignal d), pgCel c + 0x10, pgCelErr c + 0x10, pgCelErr c + 0x20, pgCelErr c + 0x24, pgCelErr c + 0x28,
   pgCelErr c + 0x2C, pgCelErr c + 0x40, pgState c + 0x10, pgState c + 0x54]

/-- R79, R80, R88, R104: in `u` descriptor `r` of the jig `jr` that cell `c` runs in `s` has completed with a status, and besides
that only the registers of `more`, the trace tail and the cell's stream engine differ. -/
def Completed (s u : State) (c : Nat) (jr : JigRun) (r : RunDesc) (status : Nat) (more : List Nat) : Prop :=
  (∃ jr' : JigRun, cellGet u c = (cellGet s c).withRun jr' ∧ jr'.jig = jr.jig ∧ jr'.fetched = jr.fetched ∧ jr'.nextIssue = jr.nextIssue ∧
    jr'.issued.map (fun q => q.idx) = (jr.issued.map (fun q => q.idx)).filter (fun k => k != r.idx) ∧
    jr'.failed = jr.failed + b2n (status != 0) ∧ jr'.trap = (jr.trap || (status != 0 && dTrap r.desc))) ∧
  (∀ e, e ≠ c → cellGet u e = cellGet s e) ∧
  (dSignal r.desc < 64 → rget u (semAddr c (dSignal r.desc)) =
    if rget s (semAddr c (dSignal r.desc)) < 65535 then rget s (semAddr c (dSignal r.desc)) + 1 else rget s (semAddr c (dSignal r.desc))) ∧
  Touches (doneRegs c r.desc ++ more) s { u with cells := s.cells, traces := s.traces, streams := s.streams }

end Sys2Proof.Machine
end

