-- ==== Sys2Proof/Certificates/Slice0/Obligations.lean ====
section
/-!
DEFINITION. Certificates/Slice0/Obligations.lean: the statements for the provers. A docstring names the rules of spec/ that a statement is read from; "log" names the rows of
notes/assumptions with the choices of the model that it rests on.
-/

open Sys2Proof Sys2Proof.Machine

/-! ### The block as a whole -/

/-- A step runs the command at the front of the queue, over the queue's rest. -/
def Obligations.StepRunsFrontCommand : Prop :=
  ∀ (s : State) (c : Instr) (rest : List Instr), step { s with pending := c :: rest } = exec c { s with pending := rest }

/-- Every command answers a next state: none faults, none is refused. No command changes the queue: the queue's rest stands after every step. Time passes with
WEIR_CREDIT_TICK only, and by its count. The model's choices: log 1, 7. -/
def Obligations.CommandsAnswerAndKeepTheQueue : Prop :=
  (∀ (i : Instr) (s : State), ∃ t, exec i s = .next t) ∧
  (∀ (s t : State) (c : Instr) (rest : List Instr), s.pending = c :: rest → step s = .next t → t.pending = rest) ∧
  (∀ (i : Instr) (s t : State), exec i s = .next t → t.now = s.now + (match i with
    | .weirCreditTick n => n
    | _ => 0))

/-- With no command waiting the block idles, and in a module at rest nothing follows from a command: the model's choice (log 1). -/
def Obligations.IdleAndRest : Prop :=
  (∀ s : State, s.pending = [] → step s = .next s) ∧
  (∀ s : State, AtRest s → after s = s)

/-- The module after reset (R19, R312, R474): COLD, every register at its reset value, every byte zero, no command waiting. The model's choices: log 11, 12, 13. -/
def Obligations.ResetState : Prop :=
  devState State.reset = dvCold ∧ State.reset.perst = true ∧ State.reset.pending = [] ∧
  (∀ a, rget State.reset a = (regRst a).toNat) ∧ (∀ sp a, memsRead State.reset.mems sp a 1 = [0#8]) ∧ State.reset.cells = [] ∧ State.reset.cmds = []

/-- The commands that have an effect in COLD: the input and the bank, PERST_N, the sideband, the test port, time (R474, R497, R562, R564). The model's choices: log 7,
10. -/
def Obligations.ColdIsStill : Prop :=
  ∀ (i : Instr) (s : State), s.cold = true → (match i with
    | .perstNDeassert _ | .perstNAssert | .jtagInstruction _ | .jtagReset | .p54vConnect | .p54vInRange100ms | .p54vLoss
    | .powerSample _ _ | .surgeTimer | .bankCapMeasure | .domainPowerOff _ | .i3cDynamicAddress _ _ | .i3cPrivateWrite _ | .i3cPrivateRead
    | .weirCreditTick _ => True
    | _ => exec i s = .next s)

/-- COLD is left only with PERST_N deasserted, by its deassertion or by the input settling, and entered only by PERST_N or the loss of P54V. PERST_N, the test port's
instruction and the fuses change with their own commands only. The model's choices: log 7, 10. -/
def Obligations.ColdAndPinsChangeByTheirCommands : Prop :=
  (∀ (i : Instr) (s t : State), exec i s = .next t →
    (s.cold = true → t.cold = false → t.perst = false ∧ ((∃ b, i = .perstNDeassert b) ∨ i = .p54vInRange100ms)) ∧
    (s.cold = false → t.cold = true → i = .perstNAssert ∨ i = .p54vLoss)) ∧
  (∀ (i : Instr) (s t : State), exec i s = .next t →
    (t.perst ≠ s.perst → (∃ b, i = .perstNDeassert b) ∨ i = .perstNAssert) ∧
    (t.jtag ≠ s.jtag → (∃ x, i = .jtagInstruction x) ∨ i = .jtagReset ∨ i = .p54vLoss) ∧
    (t.fuses ≠ s.fuses → ∃ f d m h, i = .bootSequence f d m h))

/-- After reset the module holds what COLD leaves. The model's choices: log 11. -/
def Obligations.ResetIsColdAsReset : Prop := ColdAsReset State.reset

/-- Every step keeps what COLD leaves. The model's choices: log 11, 107. -/
def Obligations.EveryStepKeepsColdAsReset : Prop := ∀ s t : State, ColdAsReset s → step s = .next t → ColdAsReset t

/-! ### Cells and their descriptors -/

/-- R77, R109: a pushed jig enters a queue that holds fewer than 16, else it waits in the towpath; the oldest that waits enters once an entry is free. Nothing else
changes, but for the staging register that CEL_JQ_PUSH empties. The model's choices: log 127, 128. -/
def Obligations.JigsArePushed : Prop :=
  ∀ (s : State) (c : Fin 1024), s.cold = false →
    (∀ (src : Pusher) (start : BitVec 24) (id : Half),
      exec (.towpathJigDispatch c src start id) s = .next (cellPut s c (pushed (cellGet s c) ⟨start.toNat, id.toNat, src⟩))) ∧
    (∀ (m : Half) (v : Word), Served s (pgJq c + 0x44) → exec (.celJqPush m c v) s = .next
      (cellPut (stage s m.toNat (pgJq c + 0x40) none) c
        (pushed (cellGet s c) ⟨stagedLow s m.toNat (pgJq c + 0x40) % 2 ^ 24, v.toNat % 2 ^ 16, .reg m.toNat⟩))) ∧
    (∀ (j : Jig) (l : List Jig), (cellGet s c).held = j :: l → (cellGet s c).queue.length < 16 →
      exec (.jqPushAdmit c) s = .next (cellPut s c { cellGet s c with queue := (cellGet s c).queue ++ [j], held := l }))

/-- R76, R78, R79: The next jig of an idle cell starts with its first descriptor fetched; a jig that does not start on a 64-byte boundary of the scratchpad ends at once,
with BAD_JIG: its notice carries FAILED_OPERAND and CEL_JQ_LAST and CEL_JQ_DONE record it. The model's choices: log 18, 26. -/
def Obligations.JigsStart : Prop :=
  ∀ (s : State) (c : Fin 1024) (j : Jig) (l : List Jig), s.cold = false → (cellGet s c).mode = .normal → (cellGet s c).run = none →
    (cellGet s c).queue = j :: l →
    (j.start % 64 = 0 → j.start + 64 ≤ scratchBytes s c → s.stop = none → firstBad s.mems .slice (sliceA c j.start) 64 = none →
      firstFail (headerChecks (requireBound s c) (crd s .slice c j.start 64)) = none →
      exec (.jigStart c) s = .next (within s (after (cellPut s c ((cellGet s c).withRun
        ⟨j, [crd s .slice c j.start 64], 1, 0, 0, dLast (crd s .slice c j.start 64), [], 0, none, s.now, none, false, false, none, []⟩))))) ∧
    (¬ (j.start % 64 = 0 ∧ j.start + 64 ≤ scratchBytes s c) → ∃ u, exec (.jigStart c) s = .next (within s (after u)) ∧
      cellGet u c = { cellGet s c with queue := l } ∧ (∀ e, e ≠ c.val → cellGet u e = cellGet s e) ∧
      u.notices = s.notices ++ [⟨c, j.pusher, j.id, 0, stFailedOperand⟩] ∧
      rget u (pgJq c + 0x50) = (stFailedOperand + j.id * 2 ^ 16) % 2 ^ 32 ∧ rget u (pgJq c + 0x4C) = (rget s (pgJq c + 0x4C) + 1) % 2 ^ 32 ∧
      Touches ([pgJq c + 0x50, pgJq c + 0x4C, pgCel c + 0x10] ++ [0x10, 0x20, 0x24, 0x28, 0x2C, 0x40].map (pgCelErr c + ·)) s
        { u with cells := s.cells, notices := s.notices })

/-- R76: a cell fetches its next descriptor, up to four ahead of issue; past the 16,384th or the scratchpad the jig stops. The model's choices: log 9, 26. -/
def Obligations.DescriptorsAreFetched : Prop :=
  ∀ (s : State) (c : Fin 1024) (ecc : Ecc) (jr : JigRun), s.cold = false →
    let s0 := eccIn s ecc
    (cellGet s0 c).run = some jr → (cellGet s0 c).mode = .normal → s0.stop = none → jr.sawLast = false → jr.stop = 0 → jr.trap = false →
    jr.halt = false → jr.fetched.length < 4 →
    (16384 ≤ jr.nextFetch → exec (.descriptorFetch c ecc) s = .next (within s (after (setJr s0 c { jr with stop := rNoLast })))) ∧
    (jr.nextFetch < 16384 → scratchBytes s0 c < jr.jig.start + 64 * jr.nextFetch + 64 →
      exec (.descriptorFetch c ecc) s = .next (within s (after (setJr s0 c { jr with stop := rBadJig })))) ∧
    (jr.nextFetch < 16384 → jr.jig.start + 64 * jr.nextFetch + 64 ≤ scratchBytes s0 c →
      firstBad s0.mems .slice (sliceA c (jr.jig.start + 64 * jr.nextFetch)) 64 = none →
      exec (.descriptorFetch c ecc) s = .next (within s (after (setJr s0 c { jr with
        fetched := jr.fetched ++ [crd s0 .slice c (jr.jig.start + 64 * jr.nextFetch) 64], nextFetch := jr.nextFetch + 1,
        sawLast := dLast (crd s0 .slice c (jr.jig.start + 64 * jr.nextFetch) 64) }))))

/-- R80, R87, R88, R104: a descriptor of any opcode that is next to issue and that nothing holds issues: it joins the issued descriptors with its bytes and its index,
the next one moves up, its WAIT_SEM is decremented; memory is not yet written. The model's choices: log 9, 18, 35. -/
def Obligations.DescriptorsIssue : Prop :=
  ∀ (s : State) (c : Fin 1024) (ecc : Ecc) (op : Nat) (i : Instr) (jr : JigRun) (d : List Byte), s.cold = false →
    (op, i) ∈ descRows c ecc →
    let s0 := eccIn s ecc
    nextOp s0 c op = some (jr, d) →
    issueTest s0 c jr d (planOf s0 c jr d) (dtChecks jr d (planOf s0 c jr d).results) = .go →
    ∃ (u : State) (r : RunDesc), exec i s = .next (within s (after u)) ∧
      r.idx = jr.nextIssue ∧ r.addr = jr.jig.start + 64 * jr.nextIssue ∧ r.desc = d ∧ r.phase = .queued ∧ r.issued = s0.now ∧ r.undo = [] ∧
      cellGet u c = (cellGet s0 c).withRun { jr with
        issued := jr.issued ++ [r], fetched := jr.fetched.drop 1, nextIssue := jr.nextIssue + 1, prev := some (d, 0), waitSince := s0.now,
        lockSince := none } ∧
      (∀ e, e ≠ c.val → cellGet u e = cellGet s0 e) ∧
      (dWait d < 64 → rget u (semAddr c (dWait d)) = rget s0 (semAddr c (dWait d)) - 1) ∧
      Touches [semAddr c (dWait d), pgPerf c + 0x50, pgState c + 0x48] s0 { u with cells := s0.cells, traces := s0.traces }

/-- R104, R105: a descriptor of any opcode that breaks a check fails at issue: it completes without having issued, its WAIT_SEM and the memories stand, and it counts as
failed in its jig. The model's choices: log 9, 35. -/
def Obligations.DescriptorsFailAtIssue : Prop :=
  ∀ (s : State) (c : Fin 1024) (ecc : Ecc) (op : Nat) (i : Instr) (jr : JigRun) (d : List Byte) (r det : Nat), s.cold = false →
    (op, i) ∈ descRows c ecc →
    let s0 := eccIn s ecc
    nextOp s0 c op = some (jr, d) → interlocked jr d = false →
    issueTest s0 c jr d (planOf s0 c jr d) (dtChecks jr d (planOf s0 c jr d).results) = .fail r det →
    ∃ (u : State) (jr' : JigRun), exec i s = .next (within s (after u)) ∧ cellGet u c = (cellGet s0 c).withRun jr' ∧
      jr'.issued = jr.issued ∧ jr'.fetched = jr.fetched.drop 1 ∧ jr'.nextIssue = jr.nextIssue + 1 ∧ jr'.failed = jr.failed + 1 ∧
      (∀ e, e ≠ c.val → cellGet u e = cellGet s0 e) ∧
      Touches (doneRegs c d) s0 { u with cells := s0.cells, traces := s0.traces, streams := s0.streams }

/-- R88, R91, R96, R98, R122, R150, R158, R193, R206, R248, R258, R267: The descriptors that may start run, one after another; one whose operands read clean computes the
results of its opcode over them and writes them at once, and is then run with their status; one whose producer failed, or whose operands hold an uncorrectable error,
writes nothing. SORT puts its keys in order and loses none. The model's choices: log 3, 18, 40, 41. -/
def Obligations.DescriptorsCompute : Prop :=
  (∀ (s : State) (c n : Nat) (r : RunDesc), startable s c = some r → pump c (n + 1) s = pump c n (runDesc s c r)) ∧
  (∀ (s : State) (c : Nat) (r : RunDesc), producerStatus s c r = 0 →
    let d := r.desc
    let row := fun (p : Plan) (f : State → RunOut) =>
      (∀ t, readEcc s c p.reads = (t, true) → runDesc s c r = putRun c r.idx (f t)) ∧
      (∀ t, readEcc s c p.reads = (t, false) → runDesc s c r = putRun c r.idx (ranFail t [] rEccUncorr 0 p.results))
    (dOp d = 0x01 → (mmaOps d).bSrc < 2 → row (mmaRunPlan r) (fun t => mmaFinish t c c (mmaOps d).bAddr (mmaOps d).bPitch (r.aux == 1) d)) ∧
    (dOp d = 0x02 → row (convPlan s c d) (fun t => convRun t c d)) ∧
    (dOp d = 0x03 → atGroup d = false → row (attnPlan s c d) (fun t => attnRun t c d)) ∧
    (dOp d = 0x04 → row (rstepPlan s c d) (fun t => rstepRun t c d)) ∧
    (dOp d = 0x05 → row (vprogPlan s c d) (fun t => vprogRun t c d)) ∧
    (dOp d = 0x06 → row (sfuPlan s c d) (fun t => sfuRun t c d)) ∧
    (dOp d = 0x07 → row (statPlan d) (fun t => statRun t c d)) ∧
    (dOp d = 0x08 → row (softmaxPlan d) (fun t => softmaxRun t c d)) ∧
    (dOp d = 0x11 → row (rngPlan d) (fun t => rngRun t c d)) ∧
    (dOp d = 0x12 → row (cropPlan d) (fun t => cropRun t c d)) ∧
    (dOp d = 0x13 → row (movePlan s c d) (fun t => saveRun t c d)) ∧
    (dOp d = 0x14 → row (movePlan s c d) (fun t => loadRun t c d)) ∧
    (dOp d = 0x0E → runDesc s c r = putRun c r.idx (bargeRun s c r.idx d)) ∧
    (dOp d = 0x0F → runDesc s c r = putRun c r.idx (fcRun s c d)) ∧
    (dOp d = 0x10 → runDesc s c r = putRun c r.idx (ttwaitRun s d)) ∧
    (dOp d = 0x15 → runDesc s c r = putRun c r.idx (fenceRun s c d))) ∧
  (∀ (s : State) (c : Nat) (r : RunDesc), producerStatus s c r ≠ 0 → runDesc s c r = putRun c r.idx ⟨s, [], producerStatus s c r, 0, 0, [], .ran⟩) ∧
  (∀ (o : RunOut) (c idx : Nat) (jr : JigRun), (cellGet o.st c).run = some jr → o.scramble = [] →
    let t := putRun c idx o
    t.mems = o.writes.foldl (fun m w => memsWrite m w.1 w.2.1 w.2.2) o.st.mems ∧ t.regs = o.st.regs ∧ (∀ e, e ≠ c → cellGet t e = cellGet o.st e) ∧
    ∃ jr', (cellGet t c).run = some jr' ∧ jr'.issued.map (fun q => q.idx) = jr.issued.map (fun q => q.idx) ∧
      (∀ q ∈ jr'.issued, q.idx = idx → q.phase = o.phase ∧ q.status = o.status ∧ q.reason = o.reason ∧ q.detail = o.detail) ∧ (∀ q, q.idx ≠ idx → (q ∈ jr'.issued ↔ q ∈ jr.issued))) ∧
  (∀ (down : Bool) (keys : List (Int × Nat × Nat)),
    let l := sortBy (fun (a b : Int × Nat × Nat) => if down then decide (b.1 ≤ a.1) else decide (a.1 ≤ b.1)) keys
    l.Perm keys ∧ l.Pairwise (fun a b => if down then b.1 ≤ a.1 else a.1 ≤ b.1))

/-- R79, R80, R82, R88, R100, R310, R400: How issued descriptors end: each leaves its jig with its status, and signals. A descriptor that ran completes with the status
it ran to; a FENCE OK, once its units are done; a TTWAIT OK or with TIMEOUT; a LAYER_FENCE with FAILED_LATE_WEIGHTS at its limit; a FENCE or a descriptor at its
WAIT_SEM with TIMEOUT when it has waited too long. The model's choices: log 18, 31. -/
def Obligations.DescriptorsComplete : Prop :=
  ∀ (s : State) (c : Fin 1024) (jr : JigRun) (r : RunDesc), s.cold = false → (cellGet s c).run = some jr → issuedAt s c r.idx = some r →
    (completable jr.issued r = true → (cellGet s c).mode = .normal →
      ∃ u, exec (.descriptorComplete c r.idx) s = .next (within s (after u)) ∧ Completed s u c jr r r.status []) ∧
    (waitingAt s c 0x0F = some r → fcLocal s c r = true → fcBarrier r.desc = false →
      ∃ u, exec (.fenceComplete c) s = .next (within s (after u)) ∧ Completed s u c jr r stOk []) ∧
    (∀ st, waitingAt s c 0x10 = some r → ttwaitEnds s r.desc = some st →
      ∃ u, exec (.ttwaitComplete c) s = .next (within s (after u)) ∧ Completed s u c jr r st []) ∧
    (fenceAt s c = some r → r.aux = 2 → lateLimit s c r.desc ≤ cyclesOf (s.now - r.since) →
      ∃ u, exec (.lateWeightsTimeout c) s = .next (within s (after u)) ∧
        Completed s u c jr r stFailedLateWeights [pgSlice c + 0x10, pgSlice c + 0x54, pgSlice c + 0x58, pgSlice c + 0x5C]) ∧
    (waitedTooLong s c = some r → dOp r.desc = 0x0F → fcBarrier r.desc = false →
      ∃ u, exec (.waitTimeout c) s = .next (within s (after u)) ∧ Completed s u c jr r stTimeout [])

/-- R305 to R308, R310: The stream engine of a cell. A LAYER_FENCE with RESTART whose cell has no stream barge in flight and whose table is good starts the stream: F is
at its beginning, nothing requested, nothing landed, and the fence drains. At the drain point F is the fence's entry, and the fence waits while its weights have
neither landed nor failed. The engine requests its next entry within the prefetch distance. An entry lands when all its bytes and lines are written, and the next one
moves. The model's choices: log 9, 48, 49. -/
def Obligations.StreamsAdvance : Prop :=
  ∀ (s : State) (c : Fin 1024) (ecc : Ecc), s.cold = false →
    let s0 := eccIn s ecc
    let mine := fun (b : Barge) => match b.origin with
      | .stream x _ => x == c.val
      | _ => false
    (∀ (r : RunDesc) (es : List (List Byte)), fenceAt s0 c = some r → r.aux = 0 → lfRestart r.desc = true → s0.barges.any mine = false →
      s0.bargeWait.any mine = false →
      firstBad s0.mems .slice (sliceA c (rbits s0 (pgSlice c + 0x44) 23 0)) (32 + 32 * fld (crd s0 .slice c (rbits s0 (pgSlice c + 0x44) 23 0) 32) 8 2) = none →
      streamTable s0 c = .ok es → lfEntry r.desc < es.length →
      exec (.streamRestart c ecc) s = .next (within s (after (fenceStage
        (strmPut s0 c ⟨1, 0, rbits s0 (pgSlice c + 0x48) 3 0, es, 0, 0, [], [], false, none, (strmGet s0 c).bad⟩) c r.idx 1)))) ∧
    (∀ (r : RunDesc) (jr : JigRun), fenceAt s c = some r → (cellGet s c).run = some jr → r.aux = 1 →
      (∀ q ∈ jr.issued, r.idx ≤ q.idx) → (strmGet s c).fail = none → (strmGet s c).landed ≤ lfEntry r.desc →
      exec (.layerFenceDrain c) s = .next (within s (after (fenceStage
        (strmPut s c { strmGet s c with f1 := lfEntry r.desc + 1 }) c r.idx 2)))) ∧
    ((strmGet s0 c).st = 1 → (strmGet s0 c).req < (strmGet s0 c).ents.length → (strmGet s0 c).req < (strmGet s0 c).f1 + (strmGet s0 c).dist →
      (strmGet s0 c).fail = none → seKind ((strmGet s0 c).ents.getD (strmGet s0 c).req []) ≠ 9 →
      exec (.streamEntryRequest c ecc) s = .next (within s (after (streamMove
        (strmPut s0 c { strmGet s0 c with req := (strmGet s0 c).req + 1 }) c)))) ∧
    ((strmGet s c).moving = true → (strmGet s c).lines = [] → s.barges.any mine = false → s.bargeWait.any mine = false → (strmGet s c).fail = none →
      exec (.streamEntryLanded c) s = .next (within s (after (streamMove (fenceCheck
        (strmPut s c { strmGet s c with landed := (strmGet s c).landed + 1, moving := false }) c) c))))

/-- R247, R69: Units shared by the cells of a block. The GSU grants its next waiting descriptor, in rotation after the one granted last, and runs it; the router starts a
multicast stream once every cell that remains in the mask has issued: the group is free again and its MMAs compute with the leader's B. The model's choices: log 9,
18, 36. -/
def Obligations.BlockUnitsServe : Prop :=
  ∀ (s : State) (b : Fin 64) (ecc : Ecc), s.cold = false →
    let s0 := eccIn s ecc
    (∀ (i : Nat) (r : RunDesc), gsuBusy s0 b = none → gsuNext s0 b = some i → gsuDesc s0 (16 * b + i) .waiting = some r →
      (dOp r.desc = 0x09 ∨ dOp r.desc = 0x0A) →
      let s1 := bumpSat { s0 with gsuLast := tabPut (fun _ => 15) s0.gsuLast b i } (pgGsu b + 0x40) (cyclesOf (s0.now - r.since))
      exec (.gsuGrant b false false ecc) s = .next (within s (after (putRun (16 * b + i) r.idx
        (withReads s1 (16 * b + i) (gsPlan s1 (16 * b + i) r.desc) (fun t => gsRun t (16 * b + i) r.desc)))))) ∧
    (∀ (k : Fin 8) (l : Nat) (ld : RunDesc) (s1 : State), (mcGet s0 (b * 8 + k)).leader = some l → mcDesc s0 (b * 8 + k) l .waiting = some ld →
      mcBusy s0 (b * 8 + k) = false →
      (∀ i ∈ maskBits 16 (mcGet s0 (b * 8 + k)).mask, (mcGet s0 (b * 8 + k)).members.contains (b * 16 + i) = true) →
      readEcc s0 l (mmaRunPlan ld).reads = (s1, true) →
      exec (.mcastStreamStart b k ecc) s = .next (within s (after ((mcGet s0 (b * 8 + k)).members.foldl (fun t c =>
        match mcDesc t (b * 8 + k) c .waiting with
        | none => t
        | some r => putRun c r.idx (withReads t c (if c = l then ⟨[], [], [], [], [], [], mmaOut r⟩ else mmaRunPlan r)
            (fun u => mmaFinish u c l (mmaOps ld.desc).bAddr (mmaOps ld.desc).bPitch (r.aux == 1) r.desc)))
        (mcPut s1 (b * 8 + k) ⟨0, none, [], some l⟩)))))

/-- R107: a parity error stops its cell: the cell is FAULTED, its array or vector page and its error page raise their events, and the fault is on its way to the Keeper.
The model's choices: log 7. -/
def Obligations.ParityFaultsTheCell : Prop :=
  ∀ (s : State) (c : Fin 1024) (lane : Bool), s.cold = false → (cellGet s c).mode ≠ .faulted →
    ∃ u, exec (.cellParityError c lane) s = .next (within s (after u)) ∧
      cellGet u c = { cellGet s c with mode := .faulted } ∧ (∀ e, e ≠ c.val → cellGet u e = cellGet s e) ∧
      u.faults = s.faults ++ [⟨.cell c, 0, s.sclTime⟩] ∧
      (rget u ((if lane then pgVector c else pgArrays c) + 0x10)).testBit 12 = true ∧ (rget u (pgCelErr c + 0x10)).testBit 1 = true ∧
      Touches [(if lane then pgVector c else pgArrays c) + 0x10, pgCelErr c + 0x10] s { u with cells := s.cells, faults := s.faults }

/-- R85, R424: The first descriptor of a cell that still runs 2^BOUND cycles after its issue is recorded once: CEL_OVERRUNS counts it and OVERRUN is raised; where a
partition owns the cell its page counts it too. The model's choices: log 16. -/
def Obligations.OverrunsAreRecordedOnce : Prop :=
  ∀ (s : State) (c : Fin 1024) (jr : JigRun) (r : RunDesc), s.cold = false → (cellGet s c).run = some jr → jr.issued.find? (overruns s) = some r →
    (∀ p, ownerOf s c = some p → p < 1024) →
    ∃ t, exec (.descOverrun c) s = .next t ∧
      cellGet t c = (cellGet s c).withRun { jr with issued := jr.issued.map (fun q => if q.idx = r.idx then { q with overrun := true } else q) } ∧
      (∀ e, e ≠ c.val → cellGet t e = cellGet s e) ∧
      rget t (pgCel c + 0x4C) = min (rget s (pgCel c + 0x4C) + 1) 0xFFFFFFFF ∧ (rget t (pgCel c + 0x10)).testBit 2 = true ∧
      (ownerOf s c = none → Touches [pgCel c + 0x4C, pgCel c + 0x10] s { t with cells := s.cells }) ∧
      (∀ p, ownerOf s c = some p → rget t (pgPartId p + 0x48) = min (rget s (pgPartId p + 0x48) + 1) 0xFFFFFFFF ∧
        Touches [pgCel c + 0x4C, pgCel c + 0x10, pgPartId p + 0x10, pgPartId p + 0x48, pgPartId p + 0x4C, pgPartId p + 0x50, pgPrt + 0x10] s
          { t with cells := s.cells })

/-- R81, R106, R147, R160: What software writes to a cell. A semaphore takes the low 16 bits written. RESUME takes a TRAPPED cell back to work. A micro-program load or
clear begins when none is in progress and is held otherwise. R147, R148, R160: Once no descriptor of the cell uses the vector engine or the special-function unit, a
clear empties its slot, a good image is installed and CEL_MP_STATUS shows no reason, and a bad one is refused with its reason and an event; the oldest held request
follows. The model's choices: log 28, 128. -/
def Obligations.CellWritesActAndMicroProgramsInstall : Prop :=
  (∀ (s : State) (c : Fin 1024) (m : Half) (v : Word), s.cold = false →
    (∀ n : Fin 64, Served s (semAddr c n) → exec (.celSemWrite m c n v) s = .next
      (rset s (semAddr c n) (setBits (rget s (semAddr c n)) 15 0 (v.toNat % 2 ^ 16)))) ∧
    (Served s (pgCel c + 8) → (cellGet s c).mode = .trapped → ∃ u, exec (.celResume m c v) s = .next (within s (after u)) ∧
      cellGet u c = { cellGet s c with mode := .normal } ∧ (∀ e, e ≠ c.val → cellGet u e = cellGet s e) ∧
      bits (rget u (pgCel c + 8)) 0 0 = bits v.toNat 0 0 ∧
      bits (rget u (pgCel c + 8)) 2 2 = (if (ownerOf s c).isSome then bits (rget s (pgCel c + 8)) 2 2 else bits v.toNat 2 2) ∧
      Touches [pgCel c + 8, pgChp + 0x10, pgChp + 0x74] s { u with cells := s.cells }) ∧
    (Served s (pgVector c + 0x4C) → exec (.celMpLoad m c v) s = .next (mpRequest (stage s m.toNat (pgVector c + 0x48) none) c
      (some (stagedLow s m.toNat (pgVector c + 0x48) % 2 ^ 24)) (v.toNat % 128))) ∧
    (Served s (pgVector c + 0x54) → 0x40 ≤ v.toNat % 128 → (cellGet s c).mpLoad = none →
      exec (.celMpClear m c v) s = .next (cellPut s c { cellGet s c with mpLoad := some (none, v.toNat % 128) })) ∧
    (Served s (pgVector c + 0x54) → 0x40 ≤ v.toNat % 128 → (cellGet s c).mpLoad ≠ none →
      exec (.celMpClear m c v) s = .next (cellPut s c { cellGet s c with mpHeld := (cellGet s c).mpHeld ++ [(none, v.toNat % 128)] }))) ∧
  (∀ (s : State) (c : Fin 1024) (slot : Nat), s.cold = false →
    (∀ jr, (cellGet s c).run = some jr → ∀ r ∈ jr.issued, (opUnits (dOp r.desc)).any (fun u => u == .vector || u == .sfu) = false) →
    ((cellGet s c).mpLoad = some (none, slot) → exec (.mpInstall c) s = .next (cellPut s c { cellGet s c with
      mp := tabPut (fun _ => []) (cellGet s c).mp slot [], mpLoad := (cellGet s c).mpHeld.head?, mpHeld := (cellGet s c).mpHeld.drop 1 })) ∧
    (∀ a img, (cellGet s c).mpLoad = some (some a, slot) → a % 64 = 0 → a + 224 ≤ scratchBytes s c →
      a + fld (crd s .slice c a 16) 8 4 ≤ scratchBytes s c → firstBad s.mems .slice (sliceA c a) (fld (crd s .slice c a 16) 8 4) = none →
      img = crd s .slice c a (min (fld (crd s .slice c a 16) 8 4) 4832) →
      (mpReject slot img = 0 → exec (.mpInstall c) s = .next (rset (cellPut s c { cellGet s c with
        mp := tabPut (fun _ => []) (cellGet s c).mp slot img, mpLoad := (cellGet s c).mpHeld.head?, mpHeld := (cellGet s c).mpHeld.drop 1 })
        (pgVector c + 0x50) (slot % 128 * 2 ^ 16))) ∧
      (mpReject slot img ≠ 0 → exec (.mpInstall c) s = .next (raise (rset (cellPut s c { cellGet s c with
        mpLoad := (cellGet s c).mpHeld.head?, mpHeld := (cellGet s c).mpHeld.drop 1 })
        (pgVector c + 0x50) (mpReject slot img * 2 ^ 8 + slot % 128 * 2 ^ 16)) (pgVector c) 0x400))))

/-! ### The input, the sideband, the test port -/

/-- R474, R497, R501, R554, R558, R560: P54V and the link. A live busbar powers the module; once P54V has settled with PERST_N deasserted it leaves COLD with everything
else as it was; the loss of P54V is a cold reset that keeps flash and fuses and loses HBM and the SRAM; the PCIe link comes up. The model's choices: log 10, 107. -/
def Obligations.InputPowersTheModule : Prop :=
  ∀ s : State,
    (s.power.live = false → exec .p54vConnect s = .next { s with power := { powerInit with live := true } }) ∧
    (s.cold = true → s.perst = false → inputSettled s = true → exec .p54vInRange100ms s = .next { s with cold := false }) ∧
    (s.power.live = true → ∃ t, exec .p54vLoss s = .next t ∧ t.cold = true ∧ t.power = powerInit ∧ t.regs = [] ∧ t.cells = [] ∧ t.parts = [] ∧
      t.mems.hbm = [] ∧ t.mems.slice = [] ∧ t.mems.bench = [] ∧ t.mems.acc = [] ∧ t.mems.tier = s.mems.tier ∧ t.mems.slc = s.mems.slc ∧
      t.mems.host = s.mems.host ∧ t.fuses = s.fuses ∧ t.perst = s.perst ∧ t.jtag = .idcode ∧ t.pcieUp = false ∧ t.pending = s.pending) ∧
    (s.cold = false → exec .pcieLinkUp s = .next { s with pcieUp := true })

/-- R562, R563, R564: With P54V in range the sideband takes its dynamic address and the test port its instruction, in COLD too; a private read returns the status and
data of the last command; in COLD every command has status 2; a refused access has status 1, or 2 where the region is off. The model's choices: log 7, 125, 133. -/
def Obligations.SidebandAnswers : Prop :=
  ∀ s : State, inputGood s = true →
    (∀ (st : Option (BitVec 7)) (a : BitVec 7), (∀ x, st = some x → x.toNat = 0x58 + rbits s (pgChp + 0x58) 2 0) →
      exec (.i3cDynamicAddress st a) s = .next { s with i3c := { s.i3c with addr := some a.toNat, down := false } }) ∧
    (∀ i, exec (.jtagInstruction i) s = .next { s with jtag := if i = .other then .bypass else i }) ∧
    exec .jtagReset s = .next { s with jtag := .idcode } ∧
    (s.i3c.down = false → s.i3c.addr.isSome = true →
      exec .i3cPrivateRead s = .next { s with resp := .bytes (leBytes 1 (if s.cold then 2 else s.i3c.status) ++ leBytes 4 s.i3c.data) } ∧
      (∀ b, s.cold = true → exec (.i3cPrivateWrite b) s = .next { s with i3c := { s.i3c with status := 2 } }) ∧
      (∀ b, s.cold = false → b.length = 5 → byteAt b 0 = 1 → accessKind s (fld b 1 4) (decide (fld b 1 4 % 4 = 0)) ≠ 0 →
        ∃ t, exec (.i3cPrivateWrite b) s = .next t ∧ t.resp = s.resp ∧
          t.i3c = { s.i3c with status := if accessKind s (fld b 1 4) (decide (fld b 1 4 % 4 = 0)) = 3 then 2 else 1 } ∧ t.mems = s.mems ∧
          t.cells = s.cells))

/-- R497, R498, R499, R501, R504: Samples of the input and the bank, in mV. In COLD a sample only renews the readings; else a dip below 44 V is counted and raised; above
64 V the input switch opens at once, and after more than 10 ms above 59 V; the bank then feeds the power stop. The usable energy is ½ × C × (V² − 40²), and C is
measured from the charge between 50 V and 54 V. The model's choices: log 119, 120. -/
def Obligations.InputIsWatched : Prop :=
  ∀ s : State,
    (∀ v b : BitVec 20, s.power.live = true → s.cold = true → exec (.powerSample v b) s = .next { s with power := powerRead s v.toNat b.toNat }) ∧
    (∀ v b : BitVec 20, s.power.live = true → s.cold = false → 38000 ≤ v.toNat → v.toNat < 44000 → s.power.dip = none → s.power.over59 = none →
      ∃ u, exec (.powerSample v b) s = .next (within s (inputCheck u)) ∧ u.power = powerRead s v.toNat b.toNat ∧ u.power.dip = some s.now ∧
        rget u (pgPwr + 0x4C) = min (rget s (pgPwr + 0x4C) + 1) 0xFFFFFFFF ∧ (rget u (pgPwr + 0x10)).testBit 0 = true ∧
        Touches [pgPwr + 0x40, pgPwr + 0x4C, pgPwr + 0x10, pgPwr + 0xC] s { u with power := s.power }) ∧
    (s.power.over59.elim false (fun t => decide (10000000 < s.now - t)) = true → s.cold = true →
      exec .surgeTimer s = .next { s with power := { s.power with inputOpen := true } }) ∧
    (s.power.over59.elim false (fun t => decide (10000000 < s.now - t)) = true → s.cold = false → inputStatus s ≠ 3 →
      ∃ t, exec .surgeTimer s = .next t ∧ t.power = { s.power with inputOpen := true, bankOpen := false } ∧
        rbits t (pgPwr + 0xC) 1 0 = 3 ∧ (s.stop = none → devState s ≠ dvFaulted → devState s ≠ dvDumped → t.stop.isSome = true)) ∧
    (s.cold = false → keeperRuns s = true → exec .holdupEnergyTick s = .next (rsetBits s (pgPwr + 0x48) 15 0
      (min (s.power.cap * (s.power.bank * s.power.bank - 1600000000) / 2000000000) 65535))) ∧
    (∀ t, s.power.chargeAt = some t → 54000 ≤ s.power.bank →
      let u := { s with power := { s.power with cap := min ((s.now - t) / 2000) 65535, chargeAt := none } }
      (s.cold = true → exec .bankCapMeasure s = .next u) ∧ (s.cold = false → exec .bankCapMeasure s = .next (within s (inputCheck u))))

/-- R499, R500, R503: Throttling. The lowest request is the level in force. The bank switch opens 2 ms into a dip, or at 48.9 V: the power request is 4 and the stacks
are derated; 10 ms at 44 V or above take it back to 16. The model's choices: log 7, 119. -/
def Obligations.ThrottleFollowsTheInput : Prop :=
  ∀ s : State, s.cold = false →
    (∃ t, exec .throttleLevelChange s = .next t ∧
      t.throttle = min (rbits s (pgPwr + 0x5C) 12 8) (rbits s (pgPwr + 0x5C) 20 16) ∧
      rbits t (pgPwr + 0x5C) 4 0 = min (rbits s (pgPwr + 0x5C) 12 8) (rbits s (pgPwr + 0x5C) 20 16) ∧
      Touches [pgPwr + 0x5C] s { t with throttle := s.throttle }) ∧
    (∀ t, s.power.dip = some t → s.power.bankOpen = false → inputStatus s ≠ 3 → (2000000 ≤ s.now - t ∨ s.power.bank ≤ 48900) →
      ∃ u, exec .bankSwitchOpen s = .next u ∧ u.power = { s.power with bankOpen := true } ∧ rbits u (pgPwr + 0x5C) 12 8 = 4 ∧
        rbits u (pgPwr + 0xC) 1 0 = 2 ∧ (∀ st, st < 8 → rbits u (pgHbm st + 0x44) 12 0 = 2048) ∧ u.mems = s.mems ∧ u.cells = s.cells) ∧
    (∀ t, s.power.okSince = some t → 10000000 ≤ s.now - t → rbits s (pgPwr + 0x5C) 12 8 ≠ 16 → inputStatus s ≠ 3 →
      ∃ u, exec .dipRecover s = .next u ∧ rbits u (pgPwr + 0x5C) 12 8 = 16 ∧ rbits u (pgPwr + 0xC) 1 0 = 0 ∧
        (rget u (pgPwr + 0x10)).testBit 2 = true ∧ u.power = s.power ∧ u.mems = s.mems ∧ u.cells = s.cells)

/-- R509, R510: a compute die at a higher step requests its throttle level, at 115 °C the module stops; a die 5 °C below its step for 10 ms goes one step down; a region
that nothing uses is gated. The model's choices: log 121, 122, 126. -/
def Obligations.HeatIsWatched : Prop :=
  ∀ s : State, s.cold = false →
    (∀ (d : Fin 15) (temp layer : Byte), keeperRuns s = true → d.val < 4 → heatStep s d < dieStep temp.toNat → temp.toNat < 115 →
      ∃ t, exec (.dieThermalReading d temp layer) s = .next t ∧ heatStep t d = dieStep temp.toNat ∧
        rbits t (pgPwr + 0x80 + 4 * d) 7 0 = temp.toNat ∧ rbits t (pgPwr + 0x5C) 20 16 ≤ dieLevel (dieStep temp.toNat) ∧ t.mems = s.mems ∧ t.cells = s.cells) ∧
    (∀ (d : Fin 15) (t0 : Nat), d.val < 4 → heatStep s d ≠ 0 → coolAt s d = some t0 → 10000000 ≤ s.now - t0 →
      ∃ t, exec (.dieCoolTimer d) s = .next t ∧ heatStep t d = heatStep s d - 1 ∧ (rget t (pgPwr + 0x10)).testBit 8 = true ∧ t.mems = s.mems ∧ t.cells = s.cells) ∧
    (∀ (m : Half) (v : Word), Served s (pgPwr + 0x74) → bits (rget s (pgPwr + 0x74)) 3 1 = 0 → bits v.toNat 3 1 = 2 → gateOk s 2 = true →
      ∃ t, exec (.pwrGate m v) s = .next t ∧ regionDark t 2 = true ∧ t.mems = s.mems ∧ t.cells = s.cells)

/-! ### HBM, the weirs, the cache, flash windows -/

/-- R3, R292, R394: `n` ns pass: the clock and the scene clock advance, the active weirs gain credit, and nothing else than counters of waiting changes. The model's
choices: log 1, 45, 93. -/
def Obligations.TimePasses : Prop :=
  ∀ (s : State) (n : Nat), s.cold = false → s.scl.slew = 0 →
    ∃ t, exec (.weirCreditTick n) s = .next t ∧ t.now = s.now + n ∧ t.sclTime = (s.sclTime + n) % 2 ^ 64 ∧
      t.credit = ((activeWeirs s).foldl (fun x w => creditPut x w.1 (creditAfter w.2.1 (rbits s w.2.2.1 12 0) w.2.2.2 n (creditGet x w.1))) s).credit ∧
      t.mems = s.mems ∧ t.cells = s.cells ∧ t.barges = s.barges ∧ t.locks = s.locks ∧ t.links = s.links ∧ t.hbmq = s.hbmq ∧ t.parts = s.parts

/-- R288, R293: a request slot of a stack goes to a refresh that is due, then to the oldest urgent request, then to a request that its weir's credit pays, then to any
other, round robin by partition; an urgent request may take the credit negative by URGENT × 256 B. The model's choices: log 46. -/
def Obligations.HbmSlotsAreGiven : Prop :=
  ∀ (s : State) (st : Fin 8), s.cold = false →
    let q := hbmqGet s st
    let paid := fun p : Nat => decide (p < 1024) && decide ((256 * 2 ^ 24 : Int) ≤ creditGet s (weiAddr st p))
    let less := fun p : Nat => tabPut (fun _ => 0) q.wait p (tabGet (fun _ => 0) q.wait p - 1)
    exec (.hbmRefresh st) s = .next (hbmqPut s st { q with refresh := q.refresh + 1 }) ∧
    (q.refresh ≠ 0 → exec (.hbmRequestSelect st) s = .next (hbmqPut s st { q with refresh := q.refresh - 1 })) ∧
    (q.refresh = 0 → ∀ p l, q.urgent = p :: l →
      exec (.hbmRequestSelect st) s = .next (creditPut (hbmqPut s st { q with urgent := l }) (weiAddr st p)
        (max (creditGet s (weiAddr st p) - 256 * 2 ^ 24)
          (min (creditGet s (weiAddr st p)) (-(wUrgent (rget s (weiAddr st p + 4)) * 256 * 2 ^ 24 : Nat)))))) ∧
    (q.refresh = 0 → q.urgent = [] → ∀ p, rrAfter ((q.wait.map (·.1)).filter paid) q.lastG = some p →
      exec (.hbmRequestSelect st) s = .next (creditPut (hbmqPut s st { q with wait := less p, lastG := p }) (weiAddr st p)
        (creditGet s (weiAddr st p) - 256 * 2 ^ 24))) ∧
    (q.refresh = 0 → q.urgent = [] → (q.wait.map (·.1)).filter paid = [] → ∀ p, rrAfter (q.wait.map (·.1)) q.lastB = some p →
      exec (.hbmRequestSelect st) s = .next (hbmqPut s st { q with wait := less p, lastB := p }))

/-- R296, R316, R302, R362: a commit of weirs whose sum is in bounds makes the staged values the active ones and reports OK; one that oversubscribes changes no active
value and reports OVERSUBSCRIBED. The same for the weirs of a stack, of flash, of a lane group. The model's choices: log 124. -/
def Obligations.CommitsTakeEffectWhole : Prop :=
  ∀ (s : State) (m : Half),
    (∀ st : Fin 8, Served s (pgHbm st + 0x48) →
      let staged := (List.range 1024).map (fun p => rget s (weiAddr st p))
      ∃ t, exec (.hbmWcommit m st) s = .next t ∧ bits (rget t (pgHbm st + 0x4C)) 7 0 = weirVerdict staged true ∧
        (∀ p, p < 1024 → rget t (weiAddr st p + 4) = if weirVerdict staged true = stOk then rget s (weiAddr st p) else rget s (weiAddr st p + 4)) ∧
        (rget t (pgHbm st + 0x10)).testBit 9 = true ∧ t.mems = s.mems ∧ t.cells = s.cells) ∧
    (Served s (pgFls + 0x40) →
      let staged := (List.range 1024).map (fun p => rget s (flsAddr p + 8))
      ∃ t, exec (.flsWcommit m) s = .next t ∧ bits (rget t (pgFls + 0x44)) 7 0 = weirVerdict staged false ∧
        (∀ p, p < 1024 → rget t (flsAddr p + 12) = if weirVerdict staged false = stOk then rget s (flsAddr p + 8) else rget s (flsAddr p + 12)) ∧
        (weirVerdict staged false ≠ stOk → t.wins = s.wins) ∧
        (rget t (pgFls + 0x10)).testBit 2 = true ∧ t.mems = s.mems ∧ t.cells = s.cells) ∧
    (∀ g : Fin 16, Served s (pgLnk g + 0x60) →
      let staged := (List.range 1024).map (fun p => rget s (lnkAddr g p))
      ∃ t, exec (.lnkWcommit m g) s = .next t ∧ bits (rget t (pgLnk g + 0x64)) 7 0 = weirVerdict staged true ∧
        (∀ p, p < 1024 → rget t (lnkAddr g p + 4) = if weirVerdict staged true = stOk then rget s (lnkAddr g p) else rget s (lnkAddr g p + 4)) ∧
        (rget t (pgLnk g + 0x10)).testBit 9 = true ∧ t.mems = s.mems ∧ t.cells = s.cells)

/-- R289, R298, R299, R360: a parity error of a stack's link that the retry clears is counted, any other stops the module. A stack read at 95 °C or above becomes HOT, is
derated, and its peers are told, again each ms; at 105 °C the module stops; read at 90 °C or below for 10 ms it is NORMAL again. The model's choices: log 9, 50. -/
def Obligations.StacksAreWatched : Prop :=
  ∀ (s : State) (st : Fin 8), s.cold = false →
    (∃ t, exec (.hbmLinkError st true) s = .next t ∧ rget t (pgHbm st + 0x5C) = min (rget s (pgHbm st + 0x5C) + 1) 0xFFFFFFFF ∧
      (rget t (pgHbm st + 0x10)).testBit 6 = true ∧ Touches [pgHbm st + 0x5C, pgHbm st + 0x10] s t) ∧
    (s.stop = none → devState s ≠ dvFaulted → devState s ≠ dvDumped →
      ∃ t, exec (.hbmLinkError st false) s = .next t ∧ t.stop.isSome = true ∧ (rget t (pgHbm st + 0x10)).testBit 7 = true) ∧
    (∀ temp : Byte, keeperRuns s = true → stackHeat s st = 0 → 95 ≤ temp.toNat → temp.toNat < 105 →
      ∃ x, exec (.hbmTempReading st temp) s = .next (within s (slowNow x st temp.toNat)) ∧ stackHeat x st = 1 ∧ rbits x (pgHbm st + 0xC) 3 3 = 1 ∧
        rbits x (pgHbm st + 0x40) 7 0 = temp.toNat ∧ rbits x (pgHbm st + 0x44) 12 0 = 2048 ∧ (rget x (pgHbm st + 0x10)).testBit 0 = true ∧
        x.mems = s.mems ∧ x.cells = s.cells) ∧
    (∀ temp : Byte, keeperRuns s = true → stackHeat s st < 2 → 105 ≤ temp.toNat → s.stop = none → devState s ≠ dvFaulted → devState s ≠ dvDumped →
      ∃ t, exec (.hbmTempReading st temp) s = .next t ∧ stackHeat t st = 2 ∧ t.stop.isSome = true ∧ (rget t (pgHbm st + 0x10)).testBit 2 = true) ∧
    (∀ t0, stackHeat s st = 1 → coolAt s (16 + st) = some t0 → 10000000 ≤ s.now - t0 →
      ∃ t, exec (.hbmCoolTimer st) s = .next t ∧ stackHeat t st = 0 ∧ rbits t (pgHbm st + 0xC) 3 3 = 0 ∧ (rget t (pgHbm st + 0x10)).testBit 1 = true ∧
        t.mems = s.mems ∧ t.cells = s.cells) ∧
    (stackHeat s st = 1 → s.stop = none → (∀ e ∈ s.power.slowAt, e.1 = st.val → 1000000 ≤ s.now - e.2) →
      exec (.slowNoticeTimer st) s = .next (within s (slowNow s st (rbits s (pgHbm st + 0x40) 7 0))))

/-- R284: a line fill returns: it becomes the most recent of the 16 ways of its set, unless a write met it; the fill is over. The model's choices: log 43. -/
def Obligations.FillsReturn : Prop :=
  ∀ (s : State) (h : Fin 1024) (l p st : Nat) (f : Fill), s.cold = false → AtRest s → s.fills.find? (fun f => f.home == h.val && f.line == l) = some f →
    ownerOf s h = some p → lineHome s p l = some (h.val, st) → (∀ e ∈ s.streams, e.2.lines.contains l = false) →
    (f.good = true → exec (.cacheFillComplete h l) s = .next { s with
      fills := s.fills.erase f
      cache := tabPut (fun _ => []) s.cache (setKey h st) ((l :: (tabGet (fun _ => []) s.cache (setKey h st)).filter (· != l)).take 16) }) ∧
    (f.good = false → exec (.cacheFillComplete h l) s = .next { s with fills := s.fills.erase f })

/-! ### Barges and Locks -/

/-- R323, R324: The engine takes the oldest barge offered whose originator is within its limit: in flight from then on, its cell's transfer port free; or it is rejected.
R327, R334: a unit starts when its engine's turn is its barge's, with its request waiting at the Locks of its path; it commits when every one of them is the unit's
to take, and then each has its beats in its window and nothing else in the module changes. The model's choices: log 51, 52, 62. -/
def Obligations.BargesAreAcceptedAndGranted : Prop :=
  (∀ (s : State) (e : Fin 32) (b : Barge), s.cold = false → nextOffer s e = some b →
    let s1 := { s with bargeWait := s.bargeWait.filter (fun x => x.bid != b.bid) }
    (∀ c i, bargeReject s1 b = none → b.origin = .cell c i → exec (.bargeAccept e) s =
      .next (within s (after (updIssued { s1 with barges := s.barges ++ [b] } c i (fun r => { r with phase := .barged }))))) ∧
    (bargeReject s1 b = none → (∀ c i, b.origin ≠ .cell c i) → exec (.bargeAccept e) s = .next (within s (after { s1 with barges := s.barges ++ [b] }))) ∧
    (∀ st d, bargeReject s1 b = some (st, d) → exec (.bargeAccept e) s = .next (within s (after (bargeFinish s1 b st d))))) ∧
  (∀ (s : State), s.cold = false →
    (∀ (e : Fin 32) (b : Barge), nextUnit s e = some b → AtRest s → exec (.bargeUnitStart e) s = .next { s with
      barges := s.barges.map (fun x => if x.bid = b.bid then
        { b with next := b.next + 1, units := b.units ++ [⟨b.next, s.now, (unitPath s b b.next).isEmpty, false⟩] } else x)
      engineLast := tabPut (fun _ => 0) s.engineLast e (b.bid + 1) }) ∧
    (∀ (bid u : Nat) (b : Barge), s.barges.find? (fun b => b.bid == bid) = some b → b.units.any (fun v => v.u == u && !v.granted) = true →
      (unitPath s b u).all (fun n => !lockBarred s n.1) = true → pathOffers s bid u (unitPath s b u) = true →
      ∃ t, exec (.lockCommit bid u) s = .next t ∧ { t with barges := s.barges, locks := s.locks } = s ∧
        t.barges = s.barges.map (fun x => if x.bid = bid then { b with units := b.units.map (fun v => if v.u = u then { v with granted := true } else v) } else x) ∧
        ∀ l, (lockGet t l).beats = (lockGet s l).beats + (((unitPath s b u).filter (fun n => n.1 == l)).map (fun n => n.2.2)).sum ∧
          (lockGet t l).dirIn = (lockGet s l).dirIn ∧ (lockGet t l).turning = (lockGet s l).turning))

/-- R334, R335, R341: a window that ends renews, or, where the other direction waits, the Lock turns, and then that direction has a window of 0 beats and the turns of
the Lock are counted; a request not granted within 256 cycles is aged; an urgent beat takes its place in the window, or turns the Lock and back. The model's choices:
log 54. -/
def Obligations.LocksTurn : Prop :=
  ∀ (s : State) (l : Nat), s.cold = false →
    (windowEnds s l = true → (headReq s l (!(lockGet s l).dirIn)).isSome = true →
      exec (.lockWindowEnd l) s = .next (lockPut s l { lockGet s l with turning := true })) ∧
    (windowEnds s l = true → headReq s l (!(lockGet s l).dirIn) = none →
      exec (.lockWindowEnd l) s = .next (lockPut s l { lockGet s l with beats := 0, urgent := 0, openAt := s.now, headAt := s.now })) ∧
    ((lockGet s l).turning = true → ∃ t, exec (.lockTurnaroundEnd l) s = .next t ∧ lockGet t l = ⟨!(lockGet s l).dirIn, 0, 0, s.now, s.now, false⟩ ∧
      rget t (lockReg l + 4) = min (rget s (lockReg l + 4) + 1) 0xFFFFFFFF ∧ (∀ k, k ≠ l → lockGet t k = lockGet s k) ∧
      (∀ a, a ≠ lockReg l + 4 → rget t a = rget s a) ∧ t.mems = s.mems ∧ t.barges = s.barges) ∧
    ((lockGet s l).urgent < 16 → exec (.urgentBeat l (lockGet s l).dirIn) s =
      .next (lockPut s l { lockGet s l with beats := (lockGet s l).beats + 1, urgent := (lockGet s l).urgent + 1 })) ∧
    exec (.urgentBeat l (!(lockGet s l).dirIn)) s = .next (bumpSat s (lockReg l + 4) 2) ∧
    (∀ (bid u : Nat) (b : Barge), s.barges.find? (fun b => b.bid == bid) = some b → exec (.lockAging bid u) s = .next { s with
      barges := s.barges.map (fun x => if x.bid = b.bid then { b with units := b.units.map (fun v =>
        if v.u = u ∧ v.granted = false ∧ 256 ≤ cyclesOf (s.now - v.since) then { v with aged := true } else v) } else x) })

/-- R98, R327, R328, R461: a granted unit lands: its bytes are in the destination, the engine's byte count rises, the next unit is the one to land; a zero fill lands
zeros in a bench; a source that cannot be read, or host memory that fails, ends the barge with FAILED_MEMORY. The model's choices: log 9, 52, 53. -/
def Obligations.UnitsLand : Prop :=
  ∀ (s x : State) (bid : Nat) (dma : List Byte) (ecc : Ecc) (b : Barge) (v : UnitRun), s.cold = false → eccIn s ecc = x →
    x.barges.find? (fun b => b.bid == bid) = some b → b.units.find? (fun v => v.u == b.landed) = some v → v.granted = true → b.cut = none →
    (∀ s1 ws, unitData x b v.u dma = (s1, some ws) → b.landed + 1 ≠ b.count → exec (.bargeUnitLand bid dma false ecc) s =
      .next (within s (after (bargePut (bumpWrap64 (b.dsts.foldl (fun t e => ws.foldl (fun y w => endWrite y b.part e w.1 w.2) t) s1) (pgEngine b.engine + 0x50)
        (ws.foldl (fun n w => n + w.2.length) 0)) { b with landed := b.landed + 1, units := b.units.filter (fun y => y.u != v.u) })))) ∧
    (∀ d, b.zero = true → b.skew = none → b.dsts = [.bench d] → b.landed + 1 ≠ b.count → AtRest x →
      ∃ t, exec (.bargeUnitLand bid dma false ecc) s = .next t ∧
        t.mems = memsWrite x.mems .bench (benchA d (b.unit v.u).1) (List.replicate (b.unit v.u).2 0#8) ∧ t.cells = x.cells ∧
        t.barges = x.barges.map (fun y => if y.bid = b.bid then { b with landed := b.landed + 1, units := b.units.filter (fun z => z.u != v.u) } else y)) ∧
    (∀ s1, unitData x b v.u dma = (s1, none) →
      exec (.bargeUnitLand bid dma false ecc) s = .next (within s (after (bargeFinish (raise s1 (pgEngine b.engine) 4) b stFailedMemory 0)))) ∧
    (b.src = .host → exec (.bargeUnitLand bid dma true ecc) s =
      .next (within s (after (bargeFinish (raise x (pgEngine b.engine) 4) b stFailedMemory dHqHostDma))))

/-! ### Faults, resets, the stop of the module, the journal and the dump -/

/-- R514, R515: a router that fails stops routing, a region controller that fails is marked so, and the fault is on its way to the Keeper with its time; the Keeper
counts it and begins the reset of the unit, or of the next wider one where the unit failed again within the window after its own reset. The model's choices: log 101,
106. -/
def Obligations.UnitFaultsAreReported : Prop :=
  ∀ s : State, s.cold = false →
    (∀ b : Fin 64, ∃ t, exec (.routerFault b) s = .next t ∧ rbits t (pgBlk b + 0xC) 0 0 = 0 ∧ t.faults = s.faults ++ [⟨.block b, 1, s.sclTime⟩] ∧
      (rget t (pgRouter b + 0x10)).testBit 0 = true ∧ t.mems = s.mems ∧ t.cells = s.cells) ∧
    (∀ (r : Fin 4) (dog : Bool), ∃ t, exec (.rcFault r dog) s = .next t ∧ rbits t (pgRgn r + 0xC) 1 0 = 2 ∧
      t.faults = s.faults ++ [⟨.region r, if dog then 6 else 5, s.sclTime⟩] ∧ (rget t (pgRgn r + 0x10)).testBit 0 = true ∧ t.mems = s.mems ∧ t.cells = s.cells) ∧
    (∀ f rest, s.faults = f :: rest →
      ∃ u, Touches [pgErr + 0x10, pgErr + 0x50 + 4 * (f.unit.scope - 1)] { s with faults := rest } u ∧ (rget u (pgErr + 0x10)).testBit 0 = true ∧
        (escalates u f.unit = false → exec .unitFaultReport s = .next (within s (after (resetBegin u f.unit false)))) ∧
        (∀ w, escalates u f.unit = true → f.unit.wider = some w → ∃ v, exec .unitFaultReport s = .next (within s (after (resetBegin v w false))) ∧
          Touches [pgErr + 0x10, pgErr + 0x5C, w.page + 0x10, w.page + 0x20, w.page + 0x24, w.page + 0x28, w.page + 0x2C, w.page + 0x40] u v))

/-- R527, R528, R529: a reset that has drained completes: every cell of its scope is as after reset, with its semaphores at 0, its jigs are told to have been cancelled,
the reset is over, and the fence of a region opens. The model's choices: log 99, 100, 103. -/
def Obligations.ResetsComplete : Prop :=
  ∀ s : State, s.cold = false →
    (∀ (c : Fin 1024) (x : UReset), s.uresets.find? (fun y => y.unit == .cell c) = some x → resetDrained s (.cell c) = true →
      ∃ u, exec (.cellReset c) s = .next (within s (after u)) ∧ (∀ e, cellGet u e = if e = c.val then cellInit else cellGet s e) ∧
        u.uresets = s.uresets.filter (fun y => y.unit != .cell c) ∧ (∀ n, n < 64 → rget u (semAddr c n) = 0)) ∧
    (∀ (b : Fin 64) (x : UReset), s.uresets.find? (fun y => y.unit == .block b) = some x → resetDrained s (.block b) = true →
      ∃ u, exec (.blockReset b) s = .next (within s (after u)) ∧ (∀ e, cellGet u e = if e / 16 = b.val then cellInit else cellGet s e) ∧
        u.uresets = s.uresets.filter (fun y => y.unit != .block b)) ∧
    (∀ (r : Fin 4) (x : UReset), s.uresets.find? (fun y => y.unit == .region r) = some x → resetDrained s (.region r) = true →
      ∃ u, exec (.regionReset r) s = .next (within s (after u)) ∧ (∀ e, cellGet u e = if e / 256 = r.val then cellInit else cellGet s e) ∧
        u.uresets = s.uresets.filter (fun y => y.unit != .region r) ∧ regionDark u r = false)

/-- R530: a reset commanded while none is, of a unit that exists and is powered, begins with BUSY set; else it is refused with DENIED or DOMAIN_OFF. The model's choices:
log 100. -/
def Obligations.ResetCommandsBegin : Prop :=
  ∀ (s : State) (m : Half) (v : Word), Served s (pgErr + 0x48) →
    let t := bits v.toNat 25 16
    let go := bit (rget s (pgErr + 0x4C)) 8 = false ∧ (devState s = dvConfigured ∨ devState s = dvRunning) ∧ s.stop = none
    (go → v.toNat % 4 = 1 → bit (rget s (pgPwr + 0x74)) (t / 256) = false →
      exec (.errReset m v) s = .next (within s (after (resetBegin (rset s (pgErr + 0x4C) 0x100) (.cell t) true)))) ∧
    (go → v.toNat % 4 = 2 → t < 64 → bit (rget s (pgPwr + 0x74)) (t / 16) = false →
      exec (.errReset m v) s = .next (within s (after (resetBegin (rset s (pgErr + 0x4C) 0x100) (.block t) true)))) ∧
    (go → v.toNat % 4 = 3 → t < 4 → bit (rget s (pgPwr + 0x74)) t = false →
      exec (.errReset m v) s = .next (within s (after (resetBegin (rset s (pgErr + 0x4C) 0x100) (.region t) true)))) ∧
    (v.toNat % 4 ≠ 0 → bit (rget s (pgErr + 0x4C)) 8 = true ∨ s.stop.isSome = true →
      ∃ u, exec (.errReset m v) s = .next u ∧ rbits u (pgErr + 0x4C) 7 0 = stDenied ∧ (rget u (pgErr + 0x10)).testBit 5 = true ∧ u.cells = s.cells ∧ u.uresets = s.uresets) ∧
    (go → v.toNat % 4 = 3 → t < 4 → bit (rget s (pgPwr + 0x74)) t = true →
      ∃ u, exec (.errReset m v) s = .next u ∧ rbits u (pgErr + 0x4C) 7 0 = stDomainOff ∧ u.cells = s.cells ∧ u.uresets = s.uresets)

/-- R514, R517, R518: The fatal causes: a forced one, the watchdog, an uncorrectable error of the hub, a link between dies past its replays. The first stops the module.
R299, R475, R518, R519: The stages of a stop: every barge is cut and the peers are told; the Keeper's walk gives every item without a status the stop's, so that none
is left; the links go dark and the device is FAULTED. The model's choices: log 74, 102, 104. -/
def Obligations.StopsBeginAndRun : Prop :=
  (∀ s : State, Stoppable s →
    (∀ m : Half, Served s (pgErr + 8) → m.toNat = mHost → devState s = dvConfigured ∨ devState s = dvRunning →
      ∃ t x, exec (.forceFatal m) s = .next t ∧ t.stop = some x ∧ (x.cause, x.level, x.inst, x.status, x.stage) = (8, 3, 0, stFailedDevice, 0) ∧
        t.mems = s.mems ∧ t.cells = s.cells) ∧
    (keeperRuns s = true → ∃ t x, exec .keeperWatchdog s = .next t ∧ t.stop = some x ∧ (x.cause, x.level, x.inst, x.status, x.stage) = (3, 3, 0, stFailedDevice, 0) ∧
      rbits t (pgKpr + 0xC) 1 0 = 2 ∧ rget t (pgKpr + 0x44) = min (rget s (pgKpr + 0x44) + 1) 0xFFFFFFFF) ∧
    (∀ lost, ∃ t x, exec (.hubUe lost) s = .next t ∧ t.stop = some x ∧ (x.cause, x.level, x.inst, x.status, x.stage) = (4, 3, 0, stFailedDevice, 0) ∧
      x.lost = lost.isSome) ∧
    (∀ r k : Fin 4, ∃ t x, exec (.d2dReplayLimit r k) s = .next t ∧ t.stop = some x ∧
      (x.cause, x.level, x.inst, x.status, x.stage) = (2, 2, 4 * r.val + k.val, stFailedDevice, 0) ∧ rget t (pgDie r + 0x40 + 16 * k) = 0)) ∧
  (∀ (s : State) (x : StopRun), s.cold = false → s.stop = some x →
    (x.stage = 0 → s.trained = true → ∃ t, exec .fatalPath s = .next t ∧ t.stop = some { x with stage := 1 }) ∧
    (x.stage = 1 → ∃ t, exec .inFlightWalk s = .next t ∧ (∃ y, t.stop = some y ∧ y.stage = 2 ∧ y.cause = x.cause ∧ y.barges = s.barges ∧ y.tags = s.tags) ∧
      (∀ e ∈ t.cells, e.2.run = none ∧ e.2.queue = [] ∧ e.2.held = [] ∧ e.2.mpHeld = []) ∧ t.bargeWait = [] ∧ t.tags = [] ∧ t.fabs = [] ∧ t.cruns = [] ∧ t.tts = [] ∧
      t.rolls = [] ∧ t.uresets = [] ∧ t.faults = [] ∧ t.notices = [] ∧ t.jnl.work = [] ∧ (∀ y ∈ t.sess, y.cmds = [] ∧ y.cur = none)) ∧
    (x.stage = 2 → ∃ t, exec .fatalPath s = .next t ∧ devState t = dvFaulted ∧ t.stop = some { x with stage := 3 }))

/-- R304, R505, R508: Flash writes. A stripe inside an active window is DENIED; below the reserve a write is deferred; else the stripe is copied from the journal to the
tier, and a record's or image's next unit goes to the SLC area. An APPEND is refused while another runs or the module stops, and fails on a misaligned source. The
model's choices: log 123, 124. -/
def Obligations.FlashWritesKeepTheReserve : Prop :=
  ∀ s : State, s.cold = false →
    (∀ w rest seq u, s.jnl.work = w :: rest → w.what = .stripe seq → s.jnl.updates.find? (fun u => u.seq == seq) = some u →
      (inWindow s (u.first + u.done) = true → exec .weightStripeWrite s = .next (within s (updateEnd { s with jnl := { s.jnl with work := rest } } u stDenied))) ∧
      (inWindow s (u.first + u.done) = false → reserveOk s = false → exec .weightStripeWrite s = .next (within s (deferWrite s w))) ∧
      (inWindow s (u.first + u.done) = false → reserveOk s = true → (u.done + 1) % 64 ≠ 0 → u.done + 1 ≠ u.count → u.cmd = false →
        ∃ t, exec .weightStripeWrite s = .next t ∧
          t.mems = memsWrite s.mems .tier ((u.first + u.done) * 65536) (memsRead s.mems .slc (u.data + 65536 * u.done) 65536) ∧ t.cells = s.cells)) ∧
    (∀ w rest, devState s ≠ dvBoot → s.jnl.work = w :: rest → (∀ q, w.what ≠ .stripe q) → (∀ q, w.what ≠ .dump q) →
      (reserveOk s = false → exec .journalWriteCheck s = .next (within s (deferWrite s w))) ∧
      (reserveOk s = true → w.done + 0x100000 < w.bytes.length → ∃ t, exec .journalWriteCheck s = .next t ∧
        t.mems = memsWrite s.mems .slc (w.addr + w.done) ((w.bytes.drop w.done).take 0x100000) ∧
        t.jnl = { s.jnl with deferred := false, work := { w with done := w.done + 0x100000 } :: rest } ∧ t.cells = s.cells)) ∧
    (∀ (m : Half) (v : Word), Served s (pgPwr + 0x68) → bit v.toNat 0 = true →
      (bit (rget s (pgPwr + 0x6C)) 8 = true ∨ s.stop.isSome = true → ∃ t, exec (.pwrJcmdAppend m v) s = .next t ∧ Touches [pgPwr + 0x10] s t ∧
        (rget t (pgPwr + 0x10)).testBit 12 = true) ∧
      (bit (rget s (pgPwr + 0x6C)) 8 = false → s.stop = none → dvHeld ≤ devState s → devState s ≤ dvRunning → jsrc s % 4096 ≠ 0 →
        ∃ t, exec (.pwrJcmdAppend m v) s = .next t ∧ rbits t (pgPwr + 0x6C) 9 0 = stFailedOperand ∧ (rget t (pgPwr + 0x10)).testBit 11 = true ∧ t.mems = s.mems ∧
          t.jnl = s.jnl))

/-- R518, R522, R525: In FAULTED the Keeper writes the sections of the dump at their places and the header last, the dumps are counted and the device is DUMPED; a dump
for the journal only is left to the copy. The copy notes the first SEQ of its records. The model's choices: log 105, 124. -/
def Obligations.DumpsAreWrittenAndCopied : Prop :=
  ∀ (s : State) (x : StopRun), s.cold = false → s.stop = some x →
    (x.stage = 3 → journalOnly s x = false → ∃ s1 t, exec .crashDumpWrite s = .next t ∧ devState t = dvDumped ∧ t.stop = some { x with stage := 4 } ∧
      rget t (pgDmp + 0x48) = (rget s (pgDmp + 0x48) + 1) % 2 ^ 32 ∧ rbits t (pgDmp + 0xC) 1 0 = 2 ∧
      (∀ a, a ≠ pgDmp + 0x48 → a ≠ pgDmp + 0x4C → rget s1 a = rget s a) ∧
      t.mems = memsWrite ([1, 2, 3, 4, 5, 6].foldl (fun y i => memsWrite y .hbm (dumpBase + (sectionAt i).1) (dumpSection s1 x i maxRecords)) s.mems)
        .hbm dumpBase (dumpHeader s1 x false ([1, 2, 3, 4, 5, 6].map (fun i => (i, dumpSection s1 x i maxRecords))))) ∧
    (x.stage = 3 → journalOnly s x = true → ∃ t, exec .crashDumpWrite s = .next t ∧ rbits t (pgDmp + 0xC) 1 0 = 3 ∧ t.stop = some { x with stage := 4 } ∧ t.mems = s.mems) ∧
    (x.stage = 4 → journalOnly s x = false → bit (rget s (pgDmp + 0xC)) 2 = false → rbits s (pgDmp + 0x4C) 15 8 = 0 → 
      ∃ u, rget u (pgDmp + 0x50) = s.jnl.seq % 2 ^ 32 ∧ rget u (pgDmp + 0x54) = s.jnl.seq / 2 ^ 32 % 2 ^ 32 ∧ rbits u (pgDmp + 0xC) 2 2 = 1 ∧ u.jnl = s.jnl ∧
        (let v := copyQueue (rd s .hbm dumpBase 4096) ((planOf525 s x).1.map (fun i => (i, sectionRead s i))) u
         exec .dumpJournalCopy s = .next (within s (if rbits v (pgDmp + 0x4C) 15 8 = 0 then dumpCopied v else v))))

/-! ### Registers, mailboxes and domains -/

/-- R13, R16, R17, R540: An aligned write to a register with no effect of its own changes each of its fields by the field's access code: RO and WO fields stand, RW
fields take the bits written, locked fields stand, W1C fields lose and W1S fields gain the bits written; a write that would change a locked field is counted. Every
other register stands. The model's choices: log 13. -/
def Obligations.RegisterFieldsFollowTheirCodes : Prop :=
  ∀ (s : State) (m : Half) (a : BitVec 30) (v : Word) (be : BitVec 4) (pg : Page) (i : Nat) (r : Reg) (k : Nat),
    Served s a.toNat → a.toNat % 4 = 0 → pageOf a.toNat = some (pg, i) → pg ≠ .mbx → findReg pg (a.toNat % 0x1000) = some (r, k) → pairOf pg (a.toNat % 0x1000) = none →
    headerWrite s (a.toNat - a.toNat % 0x1000) (a.toNat % 0x1000) v.toNat = none →
    chipWrite s m.toNat pg i (a.toNat % 0x1000) v.toNat = none → unitWrite s pg i (a.toNat % 0x1000) v.toNat = none →
    ∃ t, exec (.registerWrite m a v be true) s = .next t ∧
      (∀ f ∈ r.fields, rbits t a.toNat f.hi f.lo =
        let old := rbits s a.toNat f.hi f.lo
        let new := bits (storedAs s pg (a.toNat % 0x1000) (rget s a.toNat) v.toNat) f.hi f.lo
        match f.acc with
        | .ro | .wo => old
        | .rw => new
        | .rwl => if fieldLocked s pg i then old else new
        | .rwd => if queueOff s pg i (a.toNat % 0x1000) then new else old
        | .w1c => old &&& (2 ^ (f.hi + 1 - f.lo) - 1 - new)
        | .w1s => old ||| new) ∧
      (∀ b, b ≠ a.toNat → b ≠ pgChp + 0x10 → b ≠ pgChp + 0x74 → b ≠ pgErr + 0x10 → b ≠ pgErr + 0x60 → rget t b = rget s b) ∧
      t.mems = s.mems ∧ t.cells = s.cells ∧ t.cmds = s.cmds

/-- R13, R14, R15, R534, R536: An access that is not an aligned 32-bit one is aborted; EVT_CLR clears the events written and EVT_FORCE sets those the page has; a read of
a 64-bit register's low word latches its high word, which the same master then reads whatever has changed. The model's choices: log 14, 113. -/
def Obligations.AccessesAct : Prop :=
  ∀ (s : State) (m : Half) (a : BitVec 30) (pg : Page) (i : Nat), Served s a.toNat → a.toNat % 4 = 0 → pageOf a.toNat = some (pg, i) → pg ≠ .mbx →
    (∀ v be, ∃ t, exec (.registerWrite m a v be false) s = .next t ∧ t.resp = .abort ∧
      (let p := a.toNat / 0x1000 * 0x1000
       Touches [p + 0x20, p + 0x24, p + 0x28, p + 0x2C, pgChp + 0x70, pgChp + 0x10] s { t with resp := s.resp })) ∧
    (∀ v, ∃ t, exec (.evtClr m a v) s = .next t ∧
      rget t (a.toNat / 0x1000 * 0x1000 + 0x10) = rget s (a.toNat / 0x1000 * 0x1000 + 0x10) &&& (0xFFFFFFFF - v.toNat) ∧
      (∀ b, b ≠ a.toNat / 0x1000 * 0x1000 + 0x10 → rget t b = rget s b) ∧ t.mems = s.mems ∧ t.cells = s.cells) ∧
    (∀ v, ∃ t, exec (.evtForce m a v) s = .next t ∧
      rget t (a.toNat / 0x1000 * 0x1000 + 0x10) = (rget s (a.toNat / 0x1000 * 0x1000 + 0x10) ||| (v.toNat &&& pg.evtBits)) % 2 ^ 32 ∧
      (∀ b, b ≠ a.toNat / 0x1000 * 0x1000 + 0x10 → rget t b = rget s b) ∧ t.mems = s.mems ∧ t.cells = s.cells) ∧
    (∀ be, pg ≠ .dbl → pg ≠ .amb → pairOf pg (a.toNat % 0x1000) = some (a.toNat % 0x1000) → ∃ t, exec (.reg64LowRead m a be true) s = .next t ∧ t.resp = .value (peek s a.toNat) ∧ t.regs = s.regs ∧
      t.mems = s.mems ∧ ∀ u : State, u.latch = t.latch → Served u a.toNat → ∃ w, exec (.reg64LowRead m (a + 4#30) be true) u = .next w ∧ w.resp = .value (peek s (a.toNat + 4)))

/-- R464, R466, R468: a bound master claims an idle channel and holds it, sends with GO, which rings the other master, gives back with RELEASE; the receiver ends with
DONE, which counts the message. Of two claims in one cycle the lower identity is granted. An action out of its state sets BUSY_WRITE and changes nothing else. The
model's choices: log 7, 110. -/
def Obligations.ChannelsPassMessages : Prop :=
  ∀ (s : State) (m : Half) (c : Fin 64), c.val < 60 → MbxServed s m.toNat c →
    (mbxState s c = 0 → ∃ t, exec (.mbxClaim m c false) s = .next t ∧ Touches [pgMbx c + 0xC] s t ∧ mbxState t c = 1 ∧ mbxHolds t m.toNat c = true ∧ rbits t (pgMbx c + 0xC) 3 3 = 0) ∧
    (mbxState s c = 0 → ∃ t, exec (.mbxClaim m c true) s = .next t ∧ Touches [pgMbx c + 0xC, pgMbx c + 0x10] s t ∧ mbxState t c = 1 ∧
      mbxHolds t (min (mbxA s c) (mbxB s c)) c = true ∧ (rget t (pgMbx c + 0x10)).testBit 2 = true) ∧
    (mbxState s c = 1 → mbxHolds s m.toNat c = true → ∃ t, exec (.mbxGo m c) s = .next t ∧ mbxState t c = 2 ∧ mbxHolds t m.toNat c = true ∧ (rget t (pgMbx c + 0x10)).testBit 0 = true ∧
      (∀ g, dblGroup (mbxOther s m.toNat c) = some g → (rget t g).testBit (c % 32) = true) ∧ t.mems = s.mems ∧ t.cells = s.cells) ∧
    (mbxState s c = 1 → mbxHolds s m.toNat c = true → ∃ t, exec (.mbxRelease m c) s = .next t ∧ Touches [pgMbx c + 0xC] s t ∧ mbxState t c = 0) ∧
    (mbxState s c = 2 → mbxHolds s m.toNat c = false → ∃ t, exec (.mbxDone m c) s = .next t ∧ mbxState t c = 0 ∧ rget t (pgMbx c + 0x48) = (rget s (pgMbx c + 0x48) + 1) % 2 ^ 32 ∧
      (rget t (pgMbx c + 0x10)).testBit 1 = true ∧ (∀ g, dblGroup (mbxOther s m.toNat c) = some g → (rget t g).testBit (c % 32) = true) ∧ t.mems = s.mems ∧ t.cells = s.cells) ∧
    (mbxState s c ≠ 0 → ∃ t, exec (.mbxClaim m c false) s = .next t ∧ Touches [pgMbx c + 0x10] s t ∧ (rget t (pgMbx c + 0x10)).testBit 3 = true)

/-- R467, R468: On channels 60 to 63 a push appends to the queue of its direction, ringing the other master where the queue was empty; a full queue takes no word and
counts an overflow; a pop takes and returns the oldest word towards the master, or 0 with UNDERFLOW. -/
def Obligations.QueuesPassWords : Prop :=
  ∀ (s : State) (m : Half) (c : Fin 64), 60 ≤ c.val → MbxServed s m.toNat c →
    let isA := mbxA s c == m.toNat
    let out := if isA then (mbxqGet s c).ab else (mbxqGet s c).ba
    let inn := if isA then (mbxqGet s c).ba else (mbxqGet s c).ab
    (∀ v : Word, out.length < 32 → ∃ t, exec (.mbxPush m c v) s = .next t ∧
      mbxqGet t c = (if isA then { mbxqGet s c with ab := out ++ [v.toNat] } else { mbxqGet s c with ba := out ++ [v.toNat] }) ∧
      (rget t (pgMbx c + 0x10)).testBit 0 = true ∧ (out = [] → ∀ g, dblGroup (mbxOther s m.toNat c) = some g → (rget t g).testBit (c % 32) = true) ∧ t.mems = s.mems ∧ t.cells = s.cells) ∧
    (∀ v : Word, 32 ≤ out.length → ∃ t, exec (.mbxPush m c v) s = .next t ∧ Touches [pgMbx c + 0x58, pgMbx c + 0x10] s t ∧ (rget t (pgMbx c + 0x10)).testBit 6 = true ∧
      rget t (pgMbx c + 0x58) = min (rget s (pgMbx c + 0x58) + 1) 0xFFFFFFFF) ∧
    (∀ v l, inn = v :: l → ∃ t, exec (.mbxPop m c) s = .next t ∧ t.resp = .value v ∧
      mbxqGet t c = (if isA then { mbxqGet s c with ba := l } else { mbxqGet s c with ab := l }) ∧ (rget t (pgMbx c + 0x10)).testBit 1 = true) ∧
    (inn = [] → ∃ t, exec (.mbxPop m c) s = .next t ∧ t.resp = .value 0 ∧ (rget t (pgMbx c + 0x10)).testBit 7 = true ∧ Touches [pgMbx c + 0x10] s { t with resp := s.resp })

/-- R465, R469, R540: The Keeper binds a channel to a valid pair until DBL_LOCK; an invalid pair is refused, and a locked change is counted. A domain that powers off
takes every channel bound to it to IDLE and empties the queues towards it. The model's choices: log 110, 111. -/
def Obligations.BindingsAndDomains : Prop :=
  (∀ (s : State) (m : Half) (c : Fin 64) (v : Word), Served s (pgMbx c + 0x40) → m.toNat = mKeeper →
    (dblLocked s = false → bindOk s c v.toNat = true → ∃ t, exec (.mbxBind m c v) s = .next t ∧ rget t (pgMbx c + 0x40) = v.toNat ∧ Touches [pgMbx c + 0x40] s t) ∧
    (dblLocked s = false → bindOk s c v.toNat = false → ∃ t, exec (.mbxBind m c v) s = .next t ∧ Touches [pgMbx c + 0x10] s t ∧ (rget t (pgMbx c + 0x10)).testBit 8 = true) ∧
    (dblLocked s = true → v.toNat ≠ rget s (pgMbx c + 0x40) → ∃ t, exec (.mbxBind m c v) s = .next t ∧ Touches [pgChp + 0x74, pgChp + 0x10] s t ∧
      rget t (pgChp + 0x74) = min (rget s (pgChp + 0x74) + 1) 0xFFFFFFFF)) ∧
  (∀ (s : State) (m : Half), Served s (pgDbl + 0x40) → m.toNat = mKeeper → ∃ t, exec (.dblLock m) s = .next t ∧ dblLocked t = true ∧ Touches [pgDbl + 0x40] s t) ∧
  (∀ (s : State) (id : Half), s.cold = false → (domainOff s id.toNat = true ∨ id.toNat = mHost ∨ id.toNat = mBmc) →
    ∃ t, exec (.domainPowerOff id) s = .next t ∧ domainOff t id.toNat = true ∧
      (∀ c, c < 60 → mbxBound s id.toNat c = true → mbxState t c = 0 ∧ (mbxState s c ≠ 0 → rbits t (pgMbx c + 0xC) 3 3 = 1)) ∧
      (∀ c, 60 ≤ c → c < 64 → mbxBound s id.toNat c = true → (if mbxA s c = id.toNat then (mbxqGet t c).ba else (mbxqGet t c).ab) = []) ∧ t.mems = s.mems ∧ t.cells = s.cells)

/-! ### Partitions -/

/-- R420: a PRT command written while PRT_STATUS.BUSY is 1, or in another state than CONFIGURED or RUNNING, starts nothing, leaves PRT_CMD_STATUS unchanged and raises
CMD_REFUSED. An accepted DESTROY or RESET of an ACTIVE partition sets BUSY, so that one runs at a time. -/
def Obligations.PrtCommandsAreRefused : Prop :=
  ∀ (s : State) (m : Half), Served s (pgPrt + 0x44) →
    (bit (rget s (pgPrt + 0xC)) 0 = true ∨ (devState s ≠ dvConfigured ∧ devState s ≠ dvRunning) → ∀ c ∈ [Instr.prtCreate m, .prtDestroy m, .prtReset m],
      ∃ t, exec c s = .next t ∧ Touches [pgPrt + 0x10] s t ∧ (rget t (pgPrt + 0x10)).testBit 1 = true ∧ rget t (pgPrt + 0x48) = rget s (pgPrt + 0x48)) ∧
    (prtTurn s = true → (partGet s (rbits s (pgPrt + 0x40) 9 0)).st = 2 → ∀ c ∈ [Instr.prtDestroy m, .prtReset m],
      ∃ t, exec c s = .next t ∧ bit (rget t (pgPrt + 0xC)) 0 = true)

/-- R416, R417, R419, R430: a PRT command accepted in its turn (R420): a CREATE that fails its checks changes nothing but its status; one that passes makes the partition
of the staged values with its granules, and its cells join it enabled; DESTROY, RESET and a Function Level Reset start the reset of an ACTIVE partition. R431, R433,
R435, R450: The reset of a partition ends all that it has: no item, group, collective, pin of it stays; it completes once its barges have landed, with every cell as
after reset, its record and the count of its resets; a destroyed partition is NONE. The model's choices: log 82, 108, 109. -/
def Obligations.PartitionsAreMadeStoppedAndReset : Prop :=
  ((∀ (s : State) (m : Half), Served s (pgPrt + 0x44) →
    let p := rbits s (pgPrt + 0x40) 9 0
    (prtTurn s = true → ∀ st d, createFail s p (stagedPart s) (rbits s (pgPrt + 0x50) 16 8) = some (st, d) →
      ∃ t, exec (.prtCreate m) s = .next t ∧ rget t (pgPrt + 0x48) = (st + d * 2 ^ 8) % 2 ^ 32 ∧ t.parts = s.parts ∧ t.cells = s.cells ∧ t.mems = s.mems) ∧
    (prtTurn s = true → createFail s p (stagedPart s) (rbits s (pgPrt + 0x50) 16 8) = none →
      ∃ t, exec (.prtCreate m) s = .next t ∧ rget t (pgPrt + 0x48) = stOk ∧
        partGet t p = { stagedPart s with gran := (stagedPart s).stk.map (fun st => (freeGrans s st).take (rbits s (pgPrt + 0x50) 16 8)) } ∧
        (∀ x, x ≠ p → partGet t x = partGet s x) ∧ (∀ c ∈ stagedCells s, rget t (pgCel c + 0x40) = p ∧ rbits t (pgCel c + 8) 0 0 = 1) ∧ t.cells = s.cells) ∧
    (prtTurn s = true → (partGet s p).st = 2 → ∀ x ∈ [(Instr.prtDestroy m, 4, 3), (.prtReset m, 3, 2)],
      ∃ t, exec x.1 s = .next t ∧ rget t (pgPrt + 0xC) = 1 ∧
        partGet t p = { partGet s p with st := x.2.1, rst := some ⟨x.2.2, s.sclTime, s.now, false, false, List.replicate 9 0⟩ } ∧ t.cells = s.cells ∧ t.mems = s.mems) ∧
    (prtTurn s = true → (partGet s p).st = 0 → ∀ c ∈ [Instr.prtDestroy m, .prtReset m],
      ∃ t, exec c s = .next t ∧ rget t (pgPrt + 0x48) = stFailedOperand + dPtState * 2 ^ 8 ∧ t.parts = s.parts ∧ t.cells = s.cells)) ∧
  (∀ (s : State) (p : Fin 1024), s.cold = false → s.stop = none → (partGet s p).st = 2 → ∃ t, exec (.vfFlr p) s = .next t ∧
    partGet t p = { partGet s p with st := 3, rst := some ⟨1, s.sclTime, s.now, false, false, List.replicate 9 0⟩ } ∧ t.cells = s.cells ∧ t.mems = s.mems)) ∧
  (∀ (s : State) (p : Fin 1024) (r : ResetRun), s.cold = false → s.stop = none → (partGet s p).rst = some r →
    (∀ data, r.stopped = false → ∃ u, exec (.partitionReset p data) s = .next (within s (after u)) ∧ (partGet u p).pins = [] ∧ (∀ x, (partGet u p).rst = some x → x.stopped = true) ∧
      (∀ g ∈ u.cgroups, g.part ≠ p) ∧ (∀ x ∈ u.cruns, x.part ≠ p)) ∧
    (r.stopped = true → s.barges.any (fun b => b.part == p) = false → (partGet s p).cells.all (cellDrained s) = true → (∀ c ∈ (partGet s p).cells, c < 1024) →
      ∃ s2 u, exec (.partitionResetDone p) s = .next (within s (after u)) ∧
        ((partGet s p).st ≠ 4 → partGet u p =
          { partGet s p with st := 2, resets := (partGet s p).resets + 1, rst := none, rrec := resetRecord s2 (partGet s p) r (r.hot || hotStack s2 p) }) ∧
        ((partGet s p).st = 4 → partGet u p = partNone) ∧
        (∀ e, cellGet u e = if e ∈ (partGet s p).cells then cellInit else cellGet s e)))

/-! ### The host's queues, commands and windows -/

/-- R445, R446, R448 to R450, R453: Doorbells, enables and completions of the queues of a partition: a TAIL makes the entries before it visible, a HEAD frees those
before it, a value out of range changes nothing; an enabled queue starts empty, a disabled one is DISABLED; the oldest recorded completion is written at TAIL when
the queue has room. R454, R456: An entry fetched from the next queue in turn whose number is ahead of the window, with a header the active version has, is accepted
once: it waits for its unit, its number is the highest seen. The model's choices: log 82, 85. -/
def Obligations.QueuesTurnAndEntriesAreFetched : Prop :=
  (∀ (s : State) (p : Fin 1024) (q : Fin 16), s.cold = false →
    (∀ v : Word, PartServed s p → sqState s p q = 1 → v.toNat < sqSize s p q → sqSize s p q ≤ 4096 → rget s (sqTail p q) < sqSize s p q → v.toNat ≠ rget s (sqTail p q) →
      ∃ t, exec (.dblSqTail p q v) s = .next t ∧ rget t (sqTail p q) = v.toNat ∧
        (sqGet t p q).vis = (sqGet s p q).vis ++ [(s.bell, (v.toNat + sqSize s p q - rget s (sqTail p q)) % sqSize s p q)] ∧ t.bell = s.bell + 1 ∧ t.mems = s.mems ∧ t.cmds = s.cmds) ∧
    (∀ v : Word, PartServed s p → sqState s p q ≠ 1 ∨ sqSize s p q ≤ v.toNat → ∃ t, exec (.dblSqTail p q v) s = .next t ∧ Touches [pgVfEvt p + 0x10] s t ∧
      (rget t (pgVfEvt p + 0x10)).testBit 2 = true) ∧
    (∀ v : Word, PartServed s p → cqState s p q = 1 → v.toNat < cqSize s p q →
      (v.toNat + cqSize s p q - rget s (cqHead p q) % cqSize s p q) % cqSize s p q ≤ cqUnread s p q →
      ∃ t, exec (.dblCqHead p q v) s = .next t ∧ rget t (cqHead p q) = v.toNat ∧ (cqGet t p q).held = (cqGet s p q).held ∧
        (cqGet t p q).times = (cqGet s p q).times.drop ((v.toNat + cqSize s p q - rget s (cqHead p q) % cqSize s p q) % cqSize s p q) ∧ t.mems = s.mems) ∧
    (∀ (v : Word) data, PartServed s p → sqState s p q = 0 → bit v.toNat 0 = true → 6 ≤ bits v.toNat 7 4 → bits v.toNat 7 4 ≤ 12 → rget s (sqReg p q 0) % 4096 = 0 →
      ∃ t, exec (.partSqCtrlEnable p q v data) s = .next t ∧ sqState t p q = 1 ∧ sqGet t p q = ⟨[], [], []⟩ ∧ rget t (sqTail p q) = 0 ∧ sqSize t p q = 2 ^ bits v.toNat 7 4 ∧
        rget t (sqReg p q 0x14) = (rget s (sqReg p q 0xC) + 0xFFFFFFFF) % 2 ^ 32 ∧ t.mems = s.mems) ∧
    (∀ (v : Word), PartServed s p → cqState s p q = 0 → bit v.toNat 0 = true → 6 ≤ bits v.toNat 7 4 → rget s (cqReg p q 0) % 4096 = 0 →
      ∃ t, exec (.partCqCtrlEnable p q v) s = .next t ∧ cqState t p q = 1 ∧ (cqGet t p q).held = (cqGet s p q).held ∧ (cqGet t p q).phase = true ∧ rget t (cqHead p q) = 0 ∧ t.mems = s.mems) ∧
    (∀ (v : Word) data, PartServed s p → bit v.toNat 0 = false → (∃ t, exec (.partSqCtrlEnable p q v data) s = .next t ∧ sqState t p q = 0 ∧ (sqGet t p q).vis = []) ∧
      ∃ t, exec (.partCqCtrlEnable p q v) s = .next t ∧ cqState t p q = 0 ∧ cqGet t p q = cqGet s p q) ∧
    (∀ c l fails, s.pcieUp = true → flrRuns s p = false → s.stop = none → (cqGet s p q).held = c :: l → cqRoom s p q = true → rbits s (cqReg p q 0x10) 15 0 < cqSize s p q → fails < 2 →
      ∃ t, exec (.cqCompletionWrite p q fails) s = .next t ∧
        t.mems = memsWrite s.mems .host (rget64 s (cqReg p q 0) + 32 * rbits s (cqReg p q 0x10) 15 0) (compBytes c (cqGet s p q).phase) ∧ (cqGet t p q).held = l ∧
        (cqGet t p q).phase = (if rbits s (cqReg p q 0x10) 15 0 + 1 = cqSize s p q then !(cqGet s p q).phase else (cqGet s p q).phase) ∧
        rbits t (cqReg p q 0x10) 15 0 = (if rbits s (cqReg p q 0x10) 15 0 + 1 = cqSize s p q then 0 else rbits s (cqReg p q 0x10) 15 0 + 1)) ∧
    ((cqCountDue s p q || cqTimeDue s p q) = true → (cqGet s p q).irq = false → devState s = dvConfigured ∨ devState s = dvRunning →
      ∃ t, exec (.cqIrqTimer p q) s = .next t ∧ t.msix = s.msix ++ [(p.val + 1, q.val)] ∧ (cqGet t p q).irq = true ∧ t.regs = s.regs)) ∧
  (∀ (s : State) (data : List Byte) (p q b : Nat) (rest : List (Nat × Nat)), s.cold = false → running s = true → nextTurn s = some ((p, q), rest) → (sqGet s p q).vis = [(b, 1)] →
    (sqGet s p q).cancels = [] → p < 1024 → q < 16 →
    let e := entryOf data 0
    let ahead := (fld e 4 4 + 2 ^ 32 - rget s (sqReg p q 0x14)) % 2 ^ 32
    1 ≤ ahead → ahead < 2 ^ 31 → headerFail s e = 0 →
    ∃ u, exec (.sqFetch data none) s = .next (within s (after u)) ∧ u.cmds = s.cmds ++ [⟨p, q, fld e 4 4, fld e 8 8, e, b, false, [], 0, []⟩] ∧ (sqGet u p q).vis = [] ∧
      (fld e 4 4, none) ∈ (sqGet u p q).seen ∧ rget u (sqReg p q 0x14) = fld e 4 4 ∧ u.lastTurn = p ∧ u.cells = s.cells ∧ u.mems = s.mems)

/-- R459 to R463: NOP completes; an operand that is not the command's own fails; COPY and ZERO offer one barge with key 1,025; JIG_PUSH pushes a jig to every cell it
names; a CANCEL that finds no command waiting completes with 0. The model's choices: log 83. -/
def Obligations.HostCommandsAct : Prop :=
  ∀ (s : State) (p : Fin 1024) (q : Fin 16) (c : Cmd),
    (Next s p q 0x00 c → operandsOk c [] = true → ∃ t, exec (.nop p q) s = .next t ∧ Answered s t c stOk 0) ∧
    (Next s p q 0x00 c → operandsOk c [] = false → ∃ t, exec (.nop p q) s = .next t ∧ Answered s t c stFailedOperand dHqField) ∧
    (Next s p q 0x01 c → operandsOk c [(16, 6), (24, 4), (32, 16)] = true → opf c 24 4 ≠ 0 → opf c 16 1 = 8 → opf c 17 1 = 4 →
      ∃ t b, exec (.copy p q) s = .next t ∧ t.bargeWait = s.bargeWait ++ [b] ∧ t.bargeSeq = s.bargeSeq + 1 ∧ t.cmds = (cmdStart s c).cmds ∧ t.mems = s.mems ∧
        (b.bid, b.origin, b.key, b.src, b.dsts, b.srcAddr, b.dstAddr, b.len, b.zero) = (s.bargeSeq, .cmd p c.sq c.seq, 1025, .host, [.hbm], opf c 32 8, opf c 40 8, opf c 24 4, false)) ∧
    (Next s p q 0x02 c → operandsOk c [(17, 1), (20, 2), (24, 4), (40, 8)] = true → opf c 24 4 ≠ 0 → opf c 17 1 = 4 →
      ∃ t b, exec (.zero p q) s = .next t ∧ t.bargeWait = s.bargeWait ++ [b] ∧ t.bargeSeq = s.bargeSeq + 1 ∧ t.cmds = (cmdStart s c).cmds ∧ t.mems = s.mems ∧
        (b.bid, b.origin, b.key, b.dsts, b.dstAddr, b.len, b.zero) = (s.bargeSeq, .cmd p c.sq c.seq, 1025, [.hbm], opf c 40 8, opf c 24 4, true)) ∧
    (Next s p q 0x03 c → operandsOk c [(16, 10)] = true → opf c 18 2 ≠ 0 → opf c 20 4 % 64 = 0 → opf c 16 2 + opf c 18 2 ≤ (partGet s p).cells.length → (partGet s p).cells.Nodup →
      ∃ t, exec (.jigPush p q) s = .next t ∧ (∀ x, cellGet t x = if x ∈ ((partGet s p).cells.drop (opf c 16 2)).take (opf c 18 2)
        then pushed (cellGet s x) ⟨opf c 20 4, opf c 24 2, .cmd p c.sq c.seq⟩ else cellGet s x) ∧
        t.cmds = (cmdUpd s c (fun x => { x with started := true, left := opf c 18 2 })).cmds ∧ t.mems = s.mems ∧ t.regs = s.regs) ∧
    (Next s p q 0x04 c → operandsOk c [(16, 1), (20, 8)] = true → opf c 16 1 < 16 →
      (∀ x ∈ sqCmds s p (opf c 16 1), x.started = true ∨ (x.sq = c.sq ∧ x.seq = c.seq) ∨
        (opf c 24 4 + 2 ^ 32 - opf c 20 4) % 2 ^ 32 < (x.seq + 2 ^ 32 - opf c 20 4) % 2 ^ 32) →
      ∃ u, exec (.cancel p q) s = .next (within s (after u)) ∧ Answered s u c stOk 0)

/-- R443, R444: a write through an enabled window of PF BAR2 or through the aperture of a partition to SRAM stores its bytes; one through a window that is not enabled is
aborted; an aperture access outside the partition is aborted with its event; a read of clean scratch answers its bytes. The model's choices: log 9, 44, 88. -/
def Obligations.WindowsReachMemory : Prop :=
  ∀ (s x : State) (off : BitVec 36) (ecc : Ecc), s.cold = false → eccIn s ecc = x → x.cold = false → devState x ≠ dvBoot →
    let r := rget x (pgChp + 0x100 + 4 * (off.toNat / 0x100000000))
    let a := bits r 11 2 * 0x40000000 + off.toNat % 0x100000000
    (∀ b n, bit r 0 = true → bit r 1 = true → a + b.length ≤ 0x400000000 → regionDark x (a / 0x100000000) = false →
      ∃ t, exec (.pfBar2Access off (some b) n ecc) s = .next t ∧ t.mems = memsWrite x.mems .slice a b ∧ t.regs = x.regs ∧ t.resp = .none ∧ t.cells = x.cells) ∧
    (∀ b n, bit r 0 = false → ∃ t, exec (.pfBar2Access off b n ecc) s = .next t ∧ t.resp = .abort ∧ t.mems = x.mems ∧ t.regs = x.regs) ∧
    (∀ n, bit r 0 = true → bit r 1 = true → a + n ≤ 0x400000000 → regionDark x (a / 0x100000000) = false → firstBad x.mems .slice a n = none → firstNever x.mems .slice a n = none →
      a % 0x1000000 + n ≤ scratchBytes x (a / 0x1000000) → ∃ t, exec (.pfBar2Access off none n ecc) s = .next t ∧ t.resp = .bytes (memsRead x.mems .slice a n) ∧ t.mems = x.mems ∧ t.regs = x.regs) ∧
    (∀ (p : Fin 1024) (o : BitVec 32) b n c, PartServed x p → bit (rget x (pgApCtl p + 0x40)) 0 = true →
      let y := rget x (pgApCtl p + 0x40) / 2 ^ 28 * 2 ^ 28 + rget x (pgApCtl p + 0x44) * 2 ^ 32 + o.toNat
      ((partGet x p).cells[y / 0x1000000]? = some c → y % 0x1000000 + b.length ≤ scratchBytes x c →
        ∃ t, exec (.vfBar2Access p o (some b) n ecc) s = .next t ∧ t.mems = memsWrite x.mems .slice (sliceA c (y % 0x1000000)) b ∧ t.resp = .none ∧ t.regs = x.regs) ∧
      ((partGet x p).cells[y / 0x1000000]? = none →
        ∃ t, exec (.vfBar2Access p o (some b) n ecc) s = .next t ∧ t.resp = .abort ∧ t.mems = x.mems ∧ (rget t (pgVfEvt p + 0x10)).testBit 3 = true))

/-! ### Links, frames and remote memory -/

/-- R348, R349, R357, R365: An enabled group that is DOWN trains on RETRAIN or 100 ms after it went down; a peer that matches takes it UP at the highest common minor,
and a probe goes out; a lane that fails, an episode of 20 µs and a failed training take it DOWN with their cause, and what used it fails; the delay is half of what
the four times of an echo leave. The model's choices: log 64, 72, 73, 74. -/
def Obligations.LinksTrainAndGoDown : Prop :=
  ∀ (s : State) (g : Fin 16), s.cold = false →
    (lnkState s g = 0 → devState s = dvConfigured ∨ devState s = dvRunning → s.stop = none → optHot s g = false → ownNode s ≠ 0x7FFF → regionDark s (g / 4) = false →
      (∀ m v, Served s (pgLnk g + 8) → bit v.toNat 0 = true → ∃ t, exec (.lnkRetrain m g v) s = .next t ∧ lnkState t g = 1 ∧ lnkEnabled t g = true ∧ t.links = s.links ∧
        Touches [pgLnk g + 8, pgLnk g + 0xC] s t) ∧
      (lnkEnabled s g = true → 100000000 ≤ s.now - (lnkGet s g).downAt → ∃ t, exec (.linkRetrainTimer g) s = .next t ∧ lnkState t g = 1 ∧ t.links = s.links ∧ Touches [pgLnk g + 0xC] s t)) ∧
    (∀ node grp lo hi, lnkState s g = 1 → node < 2 ^ 15 → grp < 256 → rbits s (pgLnk g + 0x40) 14 0 = 0x7FFF ∨ rbits s (pgLnk g + 0x40) 14 0 = node →
      rbits s (pgLnk g + 0x40) 23 16 = 0xFF ∨ rbits s (pgLnk g + 0x40) 23 16 = grp → lo ≤ 3 → lo ≤ hi →
      ∃ t k, exec (.train g true true node grp 2 lo hi) s = .next t ∧ lnkState t g = 2 ∧ lnkMinor t g = min hi 3 ∧ lnkPeer t g = node ∧ (rget t (pgLnk g + 0x10)).testBit 0 = true ∧
        lnkGet t g = { linkInit with q := [⟨k, 1024, 0, none⟩], downAt := (lnkGet s g).downAt, probe := ((lnkGet s g).probe + 1) % 65536, probeAt := s.now } ∧
        (k.ty, k.dst, k.tag) = (pkProbe, node, ((lnkGet s g).probe + 1) % 65536) ∧ t.mems = s.mems ∧ t.cells = s.cells) ∧
    (∀ fec node grp major lo hi, lnkState s g = 1 → exec (.train g false fec node grp major lo hi) s = .next (within s (lnkDown s g 3)) ∧
      exec (.train g true false node grp major lo hi) s = .next (within s (lnkDown s g 4))) ∧
    (lnkUp s g = true → exec (.laneFault g) s = .next (within s (lnkDown s g 9))) ∧
    (∀ e, (lnkGet s g).epi = some e → 20000 ≤ s.now - e.start → exec (.linkRecoveryBudget g) s = .next (within s (lnkDown s g 8))) ∧
    (∀ cause, cause < 16 → lnkState s g ≠ 0 → ∃ u, lnkDown s g cause = (let v := fabCut u (fun t => t.group == g.val) (fun f => f.group == g.val) stFailedLink 0
        runsFail v (fun r => (grpAt v r.part r.grp).elim false (fun c => c.uses v g)) stFailedLink 0 true) ∧
      lnkState u g = 0 ∧ rbits u (pgLnk g + 0xC) 7 4 = cause ∧ rget u (pgLnk g + 0x4C) = min (rget s (pgLnk g + 0x4C) + 1) 0xFFFFFFFF ∧
      (rget u (pgLnk g + 0x10)).testBit 1 = true ∧ (lnkGet u g).q = [] ∧ (lnkGet u g).unacked = [] ∧ (lnkGet u g).epi = none ∧ (lnkGet u g).downAt = s.now ∧
      u.mems = s.mems ∧ u.tags = s.tags ∧ u.cmds = s.cmds) ∧
    (lnkUp s g = true → 1000000 ≤ s.now - (lnkGet s g).probeAt → ∃ t k, exec (.delayProbeTimer g) s = .next t ∧ (lnkGet t g).q = (lnkGet s g).q ++ [⟨k, 1024, 0, none⟩] ∧
      (lnkGet t g).probe = ((lnkGet s g).probe + 1) % 65536 ∧ (k.ty, k.dst, k.tag) = (pkProbe, lnkPeer s g, ((lnkGet s g).probe + 1) % 65536) ∧ t.regs = s.regs ∧ t.mems = s.mems) ∧
    (∀ k t2 a u, rxTake s g (fun k => k.ty == pkProbe) = some ((k, t2, a), u) → lnkUp s g = true → ∃ t e, exec (.delayProbe g) s = .next t ∧
      (lnkGet t g).q = (lnkGet s g).q ++ [⟨e, 1024, 0, none⟩] ∧ (e.ty, e.dst, e.tag, e.pay) = (pkEcho, k.src, k.tag % 65536, k.pay.take 8 ++ leBytes 8 t2 ++ leBytes 16 0) ∧
      t.regs = s.regs ∧ t.mems = s.mems) ∧
    (∀ k t4 a u, rxTake s g (fun k => k.ty == pkEcho) = some ((k, t4, a), u) → k.tag = (lnkGet s g).probe → a - (lnkGet s g).probeAt ≤ 100000 →
      ∃ t, exec (.delayEcho g) s = .next t ∧ rget t (pgLnk g + 0x50) = ofSigned 24 ((((t4 : Int) - fld k.pay 0 8) - ((fld k.pay 16 8 : Int) - fld k.pay 8 8)) / 2) % 2 ^ 32 ∧
        (∀ b, b ≠ pgLnk g + 0x50 → rget t b = rget s b) ∧ t.mems = s.mems)

/-- R350, R352, R356, R357, R362, R363: An UP group's frame slot sends a control frame, else the next replay, else a packet its VC has credits for, which is kept until
it is acknowledged and charged to its partition when guaranteed. A bad CRC is NAKed once; the frame expected is accepted and acknowledged; a control frame returns
credits; a NAK, or 2 µs without acknowledgement, replays what is left and opens or lengthens the episode; a 17th replay takes the group down. The model's choices:
log 64, 66, 67, 68. -/
def Obligations.FramesAreRetried : Prop :=
  ∀ (s : State) (g : Fin 16), s.cold = false → lnkUp s g = true →
    let x := lnkGet s g
    (∀ h l, x.ctrl = h :: l → exec (.egressFrameSelect g) s = .next (within s (colPumpAll (lnkPut s g { x with ctrl := l })))) ∧
    (∀ f l, x.ctrl = [] → x.replay = f :: l → exec (.egressFrameSelect g) s = .next (within s (colPumpAll (lnkPut s g { x with
      replay := l, unacked := x.unacked.map (fun u => if u.lseq = f.lseq then { u with sentAt := s.now } else u) })))) ∧
    (∀ e k, x.ctrl = [] → x.replay = [] → egressPick s g = some (e, k) → e ∈ x.q ∧ sendable x e = true ∧ (k = 5 → paidFor s g e = true) ∧
      ∃ u, exec (.egressFrameSelect g) s = .next (within s (colPumpAll u)) ∧ (lnkGet u g).unacked = x.unacked ++ [⟨x.nextSeq, s.now, { e with pkt := stampOut s e.pkt }⟩] ∧
        (lnkGet u g).nextSeq = (x.nextSeq + 1) % 256 ∧ (lnkGet u g).q = qRemove e x.q ∧ (lnkGet u g).credits = x.credits.set e.pkt.vc (x.credits.getD e.pkt.vc 0 - e.pkt.need) ∧
        u.credit = (linkCharge s g e k).credit ∧ u.regs = s.regs ∧ u.mems = s.mems ∧ u.cmds = s.cmds) ∧
    (∀ lseq ack k ret, x.nakked = false → exec (.linkFrameReceive g lseq ack false k ret) s = .next (within s (lnkPut s g { x with nakked := true, ctrl := x.ctrl ++ [(1, x.expect)] }))) ∧
    (∀ ack ret (p : Pkt), let u := lnkAck s g ack
      let y := lnkGet u g
      knownType p.ty = true → exec (.linkFrameReceive g y.expect ack true (some p) ret) s = .next (within s (lnkPut u g { y with
        expect := (y.expect + 1) % 256, nakked := false, ctrl := y.ctrl ++ [(0, y.expect)], rx := y.rx ++ [(p, sceneNow s, s.now)] }))) ∧
    (∀ lseq ack (p : Pkt) ret, let u := lnkAck s g ack
      let y := lnkGet u g
      y.expect < 256 → lseq ≠ y.expect → lseq < 256 → (y.expect + 256 - lseq) % 256 < 128 →
      exec (.linkFrameReceive g lseq ack true (some p) ret) s = .next (within s (lnkPut u g { y with ctrl := y.ctrl ++ [(0, (y.expect + 255) % 256)] }))) ∧
    (∀ lseq ack ret, ret.length = 4 → (lnkGet (lnkAck s g ack) g).credits.length = 4 → ∃ t, exec (.linkFrameReceive g lseq ack true none ret) s = .next t ∧
      (lnkGet t g).credits = (lnkGet (lnkAck s g ack) g).credits.zipWith (· + ·) ret ∧ t.regs = (lnkAck s g ack).regs) ∧
    (∀ lseq, let rest := x.unacked.filter (fun f => decide (128 ≤ ((lseq + 255) % 256 + 256 - f.lseq) % 256))
      x.epi = none → rest ≠ [] → ∃ t, exec (.linkNak g lseq) s = .next t ∧ (lnkGet t g).replay = rest ∧ (lnkGet t g).unacked = rest.map (fun u => { u with sentAt := s.now }) ∧
        (lnkGet t g).epi = some ⟨s.now, rest.map (·.lseq), 1⟩ ∧ lnkState t g = 3 ∧ rget t (pgLnk g + 0x48) = min (rget s (pgLnk g + 0x48) + 1) 0xFFFFFFFF ∧
        (rget t (pgLnk g + 0x10)).testBit 2 = true ∧ t.mems = s.mems ∧ t.tags = s.tags) ∧
    (∀ f l, x.unacked = f :: l → 2000 ≤ s.now - f.sentAt → (∀ e, x.epi = some e → e.replays < 16) → ∃ t, exec (.linkReplayTimeout g) s = .next t ∧ (lnkGet t g).replay = x.unacked ∧
      (lnkGet t g).unacked = x.unacked.map (fun u => { u with sentAt := s.now }) ∧
      (lnkGet t g).epi = some (x.epi.elim ⟨s.now, x.unacked.map (·.lseq), 1⟩ (fun e => { e with replays := e.replays + 1 })) ∧ lnkState t g = 3 ∧
      rget t (pgLnk g + 0x48) = min (rget s (pgLnk g + 0x48) + 1) 0xFFFFFFFF ∧ (rget t (pgLnk g + 0x10)).testBit 2 = true ∧ t.mems = s.mems ∧ t.tags = s.tags) ∧
    (∀ f l e, x.unacked = f :: l → 2000 ≤ s.now - f.sentAt → x.epi = some e → 16 ≤ e.replays → exec (.linkReplayTimeout g) s = .next (within s (lnkDown s g 7)))

/-- R353 to R355, R358 to R361: a FAB command to a node no link leads to, or outside its partition's memory, fails; one that is accepted is cut into pieces that cross no
4,096 B boundary, and those that may go are sent. A target answers a request once, DENIED or with its effect; a response gives its live tag its outcome, a late one
is counted and changes nothing else; a deadline that passes is TIMEOUT, or held in RECOVERY; SLOW lengthens what is in flight with its sender, ABORT fails it. The
model's choices: log 63, 65, 70, 71, 75. -/
def Obligations.RemoteMemoryIsReached : Prop :=
  ∀ (s : State), s.cold = false →
    (∀ (x : State) (p : Fin 1024) (q : Fin 16) (c : Cmd) (write : Bool) (ecc : Ecc) (i : Instr), (write = false ∧ i = .fabRead p q ∧ x = s) ∨ (write = true ∧ i = .fabWrite p q ecc ∧ x = eccIn s ecc) →
      Next x p q (if write then 0x51 else 0x50) c →
      (routeTo x (opf c 16 2) = none → ∃ t, exec i s = .next (within s t) ∧ Answered x t c stFailedOperand dFbNoRoute) ∧
      (∀ g, routeTo x (opf c 16 2) = some g → operandsOk c [(16, 7), (24, 4), (32, 16)] = true → bits (opf c 22 1) 7 1 = 0 → opf c 24 4 ≠ 0 → opf c 24 4 ≤ 16777216 → opf c 18 2 < 1024 →
        (partGet x p).quota ≠ 0 → (bit (opf c 22 1) 0 = true → 2 ≤ lnkMinor x g ∧ wUrgent (rget x (lnkAddr g p + 4)) ≠ 0) →
        (hphys x p (opf c 32 8) (opf c 24 4) = none → ∃ t, exec i s = .next (within s t) ∧ Answered x t c stDenied 0) ∧
        (hphys x p (opf c 32 8) (opf c 24 4) ≠ none → exec i s = .next (within s (fabPump { cmdStart x c with
          fabs := x.fabs ++ [⟨p, q, c.seq, write, bit (opf c 22 1) 0, g, opf c 16 2, opf c 18 2, opf c 20 2, opf c 24 4, opf c 32 8, opf c 40 8, 0, 0, none⟩] }))))) ∧
    (∀ (f : FabRun) (i : Nat), 0 < f.len → i < f.count → 0 < (f.piece i).2 ∧ (f.piece i).2 ≤ 4096 ∧ (f.piece i).1 + (f.piece i).2 ≤ f.len ∧
      (f.rem + (f.piece i).1) / 4096 = f.rem / 4096 + i ∧ (f.rem + (f.piece i).1 + (f.piece i).2 - 1) / 4096 = f.rem / 4096 + i ∧
      (i + 1 < f.count → (f.piece (i + 1)).1 = (f.piece i).1 + (f.piece i).2) ∧ (i + 1 = f.count → (f.piece i).1 + (f.piece i).2 = f.len)) ∧
    (∀ (g : Fin 16) (ecc : Ecc) k u, rxTake (eccIn s ecc) g (fun k => k.ty == pkReadReq) = some (k, u) → (lnkGet u g).blocked = false →
      (targetDenies u k.1 = true → exec (.readReq g ecc) s = .next (within s (lnkQueue u g ⟨rspPkt u k.1 pkReadRsp stDenied [], k.1.dpart, 2, none⟩))) ∧
      (∀ w bs, targetDenies u k.1 = false → hget u k.1.dpart k.1.addr k.1.len true = (w, 0, bs) →
        exec (.readReq g ecc) s = .next (within s (lnkQueue w g ⟨rspPkt w k.1 pkReadRsp stOk bs, k.1.dpart, 2, none⟩)))) ∧
    (∀ (g : Fin 16) k u, rxTake s g (fun k => k.ty == pkWriteReq) = some (k, u) → (lnkGet u g).blocked = false →
      (targetDenies u k.1 = true → exec (.writeReq g) s = .next (within s (lnkQueue u g ⟨rspPkt u k.1 pkWriteAck stDenied [], k.1.dpart, 2, none⟩))) ∧
      (targetDenies u k.1 = false → let w := hputD u k.1.dpart k.1.addr k.1.pay
        exec (.writeReq g) s = .next (within s (lnkQueue w g ⟨rspPkt w k.1 pkWriteAck stOk [], k.1.dpart, 2, none⟩)))) ∧
    (∀ (g : Fin 16) (write : Bool) k u, rxTake s g (fun k => k.ty == (if write then pkWriteAck else pkReadRsp)) = some (k, u) →
      (∀ t, u.tags.find? (fun t => t.slot == k.1.tag % 65536 && t.gen == bits k.1.tag 23 16) = some t →
        exec (if write then .writeAck g else .readRsp g) s =
          .next (within s (fabPump (tagOutcome (if k.1.status = stOk ∧ write = false then hputD u t.part t.addr (k.1.pay.take t.len) else u) t k.1.status 0)))) ∧
      (u.tags.find? (fun t => t.slot == k.1.tag % 65536 && t.gen == bits k.1.tag 23 16) = none → ∃ t, exec (if write then .writeAck g else .readRsp g) s = .next t ∧
        rget t (pgLnk g + 0x54) = min (rget s (pgLnk g + 0x54) + 1) 0xFFFFFFFF ∧ (rget t (pgLnk g + 0x10)).testBit 5 = true ∧ t.mems = s.mems ∧ t.tags = s.tags ∧ t.fabs = s.fabs ∧
        t.cmds = s.cmds)) ∧
    (∀ slot t at', s.tags.find? (fun t => t.slot == slot) = some t → t.sent = some at' → at' + colTimeout s + t.ext ≤ s.now →
      (lnkState s t.group ≠ 3 → exec (.fabDeadline slot) s = .next (within s (fabPump (tagOutcome s t stTimeout 0)))) ∧
      (lnkState s t.group = 3 → ∃ u, exec (.fabDeadline slot) s = .next u ∧ u.tags = s.tags.map (fun x => if x.slot = slot then { x with held := true } else x) ∧ u.regs = s.regs ∧
        u.mems = s.mems ∧ u.cmds = s.cmds)) ∧
    (∀ (g : Fin 16) k u, rxTake s g (fun k => k.ty == pkSlow) = some (k, u) → ∃ t, exec (.slow g) s = .next t ∧
      t.tags = s.tags.map (fun x => if x.node = k.1.src ∧ x.ext < 64000000 then { x with ext := slowExt x.ext } else x) ∧ t.mems = s.mems ∧ t.cmds = s.cmds ∧
      (rget t (pgLnk g + 0x10)).testBit 6 = true ∧ rget t (pgLnk g + 0x5C) = min (rget s (pgLnk g + 0x5C) + 1) 0xFFFFFFFF) ∧
    (∀ (g : Fin 16) k u, rxTake s g (fun k => k.ty == pkAbort) = some (k, u) → ∃ w,
      exec (.abort g) s = (let all := byteAt k.1.pay 1 == 0
        let v := fabCut w (fun t => t.node == k.1.src && (all || t.dpart == fld k.1.pay 2 2)) (fun f => f.node == k.1.src && (all || f.dpart == fld k.1.pay 2 2)) stFailedLink dFbRemoteAbort
        .next (within s (fabPump (runsFail v (fun r => (grpAt v r.part r.grp).elim false (fun c =>
          c.members.any (fun m => m.1 == k.1.src && (all || m.2 == fld k.1.pay 2 2)))) stFailedLink dFbRemoteAbort true)))) ∧
      rbits w (pgCol + 0x54) 14 0 = k.1.src % 2 ^ 15 ∧ rbits w (pgCol + 0x54) 23 16 = byteAt k.1.pay 0 ∧ (rget w (pgLnk g + 0x10)).testBit 7 = true ∧ (rget w (pgCol + 0x10)).testBit 2 = true ∧
      (byteAt k.1.pay 1 = 0 → (lnkGet w g).blocked = true) ∧ w.tags = s.tags ∧ w.mems = s.mems)

/-! ### Collectives -/

/-- R366 to R370, R372, R373, R375, R376: COL_OPEN opens the group of a good record whose links are up; COL_RUN and COL_RECLAIM are accepted in their turn; a group's
runs start in ascending RUN_SEQ, one at a time, none past a reclaim; a piece goes to its run, is forwarded when it is relayed, and is discarded when its run has
ended; a piece with other fields fails the run; a timer that passes and a COL_ABORT fail it; the slices of a buffer cover it without overlap. The model's choices:
log 64, 76, 77, 78, 79, 80, 81. -/
def Obligations.CollectivesRun : Prop :=
  ∀ s : State, s.cold = false →
    (∀ (p : Fin 1024) (q : Fin 16) (ecc : Ecc) c s1 h s2 b, Next (eccIn s ecc) p q 0x52 c → operandsOk c [(16, 2), (24, 8)] = true → opf c 16 2 ≤ 255 → opf c 24 8 % 64 = 0 →
      hget (eccIn s ecc) p (opf c 24 8) 32 true = (s1, 0, h) → fld h 6 2 ≤ 2560 → hget s1 p (opf c 24 8) (32 + 4 * fld h 6 2) true = (s2, 0, b) →
      let g := clGroup p (opf c 16 2) b
      (clRecordOk s2 b = false → exec (.colOpen p q ecc) s = .next (within s (cmdFail s2 c dClRecord))) ∧
      (clRecordOk s2 b = true → (g.areas = 0 ∨ hphys s2 p g.areaBase (g.areas * g.areaBytes) ≠ none) → grpAt s2 p (opf c 16 2) = none →
        (clTopologyOk s2 g = true → exec (.colOpen p q ecc) s = .next (within s (cmdDone { s2 with cgroups := s2.cgroups ++ [g] } c stOk 0))) ∧
        (clTopologyOk s2 g = false → exec (.colOpen p q ecc) s = .next (within s (cmdFail s2 c dClTopology))))) ∧
    (∀ (p : Fin 1024) (q : Fin 16) c, Next s p q 0x53 c → colTurn s p c = true →
      (grpAt s p (opf c 16 2) = none → ∃ t, exec (.colRun p q) s = .next (within s t) ∧ Answered s t c stFailedOperand dClGroup) ∧
      (∀ g, grpAt s p (opf c 16 2) = some g → colFieldsOk s p c = true →
        let r := colAccepted p c false (runGap s p g c) s.now
        let m := g.rank (ownNode s)
        hphys s p r.src r.srcBytes ≠ none → (r.flag 2 = true ∨ (hphys s p r.dst (r.dstBytes g m) ≠ none ∧ spansMeet (r.src, r.srcBytes) (r.dst, r.dstBytes g m) = false)) →
        ∃ t, exec (.colRun p q) s = .next t ∧ t.cruns = s.cruns ++ [r] ∧ t.cmds = (cmdStart s c).cmds ∧ t.mems = s.mems ∧ t.regs = s.regs)) ∧
    (∀ (p : Fin 1024) (grp : Nat) (ecc : Ecc) r c, running (eccIn s ecc) = true → runNext (eccIn s ecc) p grp = some r → grpAt (eccIn s ecc) p grp = some c →
      let x := eccIn s ecc
      let r1 := { r with started := true, since := if r.gap then r.since else x.now }
      (areaBad c r ≠ 0 → exec (.colRunStart p grp ecc) s = .next (within s (runFail x r stFailedOperand (areaBad c r) true))) ∧
      (areaBad c r = 0 → r.flag 0 = false → exec (.colRunStart p grp ecc) s = .next (within s (colPump (crunPut x r1) p grp))) ∧
      (areaBad c r = 0 → r.flag 0 = true → exec (.colRunStart p grp ecc) s = .next (within s (colPump (pushStep (crunPut x r1) r1 0) p grp)))) ∧
    (∀ p grp r, runNext s p grp = some r → runAt s p grp = none ∧ r ∈ s.cruns ∧ r.reclaim = false ∧ r.part = p ∧ r.grp = grp ∧
      ∃ c, grpAt s p grp = some c ∧ (∀ v, c.lastSeq = some v → r.seqNo = v + 1) ∧ (c.lastSeq = none → ∀ r' ∈ runsReady s p grp, r.seqNo ≤ r'.seqNo)) ∧
    (∀ (g : Fin 16) (ecc : Ecc) k u, rxTake (eccIn s ecc) g (fun k => k.ty == pkColData && colMeets (eccIn s ecc) k) = some (k, u) →
      (k.1.relay = true → k.1.dst ≠ ownNode u → exec (.colData g ecc) s = .next (within s (colRelay u g k.1))) ∧
      ((k.1.relay = false ∨ k.1.dst = ownNode u) → runAt u k.1.dpart k.1.group = none → exec (.colData g ecc) s = .next (within s u)) ∧
      (∀ r c, (k.1.relay = false ∨ k.1.dst = ownNode u) → runAt u k.1.dpart k.1.group = some r → grpAt u k.1.dpart k.1.group = some c →
        (k.1.tag ≠ r.seqNo → exec (.colData g ecc) s = .next (within s u)) ∧
        (k.1.tag = r.seqNo → k.1.par ≠ [] → r.checked.contains k.1.src = false → k.1.par ≠ r.par →
          exec (.colData g ecc) s = .next (within s (runFail u { r with checked := k.1.src :: r.checked.filter (· != k.1.src) } stFailedOperand dClMismatch true))) ∧
        (k.1.tag = r.seqNo → k.1.par = [] → exec (.colData g ecc) s = .next (within s (colPiece (crunPut u r) c r k.1))))) ∧
    (∀ (p : Fin 1024) (grp : Nat) r, s.cruns.find? (fun r => r.part == p.val && r.grp == grp && !r.reclaim && (r.started || r.gap)) = some r →
      (r.started = false ∨ r.op = 3 ∨ r.pend = []) → r.since + colTimeout s + r.ext ≤ s.now → exec (.colPieceTimeout p grp) s = .next (within s (runFail s r stTimeout 0 true))) ∧
    (∀ (p : Fin 1024) (q : Fin 16) c, Next s p q 0x54 c → operandsOk c [(16, 2)] = true → grpAt s p (opf c 16 2) ≠ none →
      (∀ r ∈ s.cruns, ¬(r.part = p ∧ r.grp = opf c 16 2)) →
      ∃ u t, exec (.colClose p q) s = .next (within s t) ∧ Answered u t c stOk 0 ∧ u.cgroups = s.cgroups.filter (fun x => !(x.part == p.val && x.id == opf c 16 2)) ∧ t.cgroups = u.cgroups ∧
        u.cmds = s.cmds ∧ u.cqs = s.cqs ∧ u.regs = s.regs ∧ u.mems = s.mems ∧ u.cruns = s.cruns) ∧
    (∀ (p : Fin 1024) (q : Fin 16) c g, Next s p q 0x55 c → colTurn s p c = true → grpAt s p (opf c 16 2) = some g → operandsOk c [(16, 4)] = true →
      (g.areas ≤ opf c 18 2 → ∃ t, exec (.colReclaim p q) s = .next (within s t) ∧ Answered s t c stFailedOperand dClArea) ∧
      (opf c 18 2 < g.areas → exec (.colReclaim p q) s = .next (within s (colReclaims p g.id 4096 { cmdStart s c with cruns := s.cruns ++ [colAccepted p c true false s.now] })))) ∧
    (∀ (g : Fin 16) k u, rxTake s g (fun k => k.ty == pkColAbort) = some (k, u) →
      (k.1.relay = true → k.1.dst ≠ ownNode u → exec (.colAbort g) s = .next (within s (colRelay u g k.1))) ∧
      ((k.1.relay = false ∨ k.1.dst = ownNode u) → exec (.colAbort g) s = .next (within s
        (runsFail (raise u pgCol 4) (fun r => r.part == k.1.dpart && r.grp == k.1.group && r.seqNo == k.1.tag) stFailedLink dClPeerFailed false)))) ∧
    (∀ count n e, 0 < n → e < count → sliceOf count n e < n ∧ sliceLo count n (sliceOf count n e) ≤ e ∧ e < sliceLo count n (sliceOf count n e + 1) ∧
      sliceLo count n 0 = 0 ∧ sliceLo count n n = count ∧ ∀ j, j < n → sliceLo count n j ≤ e → e < sliceLo count n (j + 1) → j = sliceOf count n e)

/-! ### The scene clock, the timetable, the tokenizer -/

/-- R394 to R396: SCL_SET steps the clock of no source, forward and with an empty timetable only, else it waits for the next edge or is refused; an edge and a TIME
message measure the error, which the first lock steps and every later one slews; loss and lock follow from the time since the source was heard and since the error
fell under 20 ns; a master sends TIME on every UP group but its source's. R397 to R399, R407, R408: TT_ARM takes a free slot for an entry with an unused tag,
TT_DISARM ends the entry of its tag; the due entries fire in the order of their slots; a repeated entry advances and pushes its jig to its cells; TOK_LOAD binds a
dictionary that obeys its layout; TOKENIZE takes the longest entry at each place. The model's choices: log 93, 94, 95, 96, 97. -/
def Obligations.SceneClockTimetableAndTokenizer : Prop :=
  (∀ s : State, s.cold = false →
    (∀ (m : Half) (v : Word), Served s (pgScl + 0x4C) →
      let x := stage s m.toNat (pgScl + 0x48) none
      let n := stagedLow s m.toNat (pgScl + 0x48) % 2 ^ 32 + v.toNat * 2 ^ 32
      (sclSrc s = 0 → s.tts = [] → s.sclTime ≤ n → ∃ t, exec (.sclSet m v) s = .next t ∧ t.sclTime = n ∧ t.scl.slew = 0 ∧ (rget t (pgScl + 0x10)).testBit 2 = true ∧ Touches [pgScl + 0x10] { x with sclTime := n, scl := { x.scl with slew := 0 } } t) ∧
      ((sclSrc s = 3 ∨ s.tts ≠ [] ∨ n < s.sclTime) → ∃ t, exec (.sclSet m v) s = .next t ∧ t.sclTime = s.sclTime ∧ t.scl = s.scl ∧ (rget t (pgScl + 0x10)).testBit 3 = true ∧ Touches [pgScl + 0x10] x t) ∧
      ((sclSrc s = 1 ∨ sclSrc s = 2) → s.tts = [] → s.sclTime ≤ n → ∃ t, exec (.sclSet m v) s = .next t ∧ t.sclTime = s.sclTime ∧ t.scl = { s.scl with setAt := some n } ∧ t.regs = s.regs)) ∧
    ((sclSrc s = 1 ∨ sclSrc s = 2) →
      (∀ v, s.scl.setAt = some v → exec .timerefPpsEdge s = .next (within s (sclStep { s with scl := { s.scl with setAt := none, heard := s.now } } v))) ∧
      (s.scl.setAt = none → exec .timerefPpsEdge s = .next (within s (sclError s (ppsError s.sclTime (rbits s (pgScl + 0x50) 29 0)))))) ∧
    (∀ (t phase : Nat), phase < 1000000000 → ((t : Int) + ppsError t phase - phase) % 1000000000 = 0 ∧ (ppsError t phase).natAbs ≤ 500000000) ∧
    (∀ (g : Fin 16) k a b u, rxTake s g (fun k => k.ty == pkTime) = some ((k, a, b), u) → sclSrc s = 3 → sclGroup s = g →
      exec (.time g) s = .next (within s (sclError (rset u (pgScl + 0x5C) ((byteAt k.pay 8 + 1) % 256)) ((fld k.pay 0 8 : Int) + (rbits u (pgLnk g + 0x50) 23 0 : Int) - (a : Int))))) ∧
    (∀ (x : State) (e : Int), let t := sclError x e
      rget t (pgScl + 0x54) = ofSigned 32 e % 2 ^ 32 ∧ t.scl.first = false ∧ t.scl.heard = x.now ∧ t.tts = x.tts ∧ t.mems = x.mems ∧
      (x.scl.first = false ∨ e ≤ 0 ∨ x.tts ≠ [] → t.sclTime = x.sclTime ∧ t.scl.slew = e) ∧ (x.scl.first = true → 0 < e → x.tts = [] → t.sclTime = x.sclTime + e.toNat ∧ t.scl.slew = 0) ∧
      (20 ≤ e.natAbs → t.scl.good = none) ∧ (e.natAbs < 20 → x.scl.good = none → t.scl.good = some x.now) ∧
      sclLock t = (if sclLock x = 0 ∨ sclLock x = 3 then 1 else sclLock x)) ∧
    (∀ ref10, sclLock s ≠ 0 → sclLock s ≠ 3 →
      (sclSrc s = 3 ∧ (10000000 ≤ s.now - s.scl.heard ∨ lnkUp s (sclGroup s) = false)) ∨ ((sclSrc s = 1 ∨ sclSrc s = 2) ∧ 1500000000 ≤ s.now - s.scl.heard) ∨ (sclSrc s = 2 ∧ ref10 = true) →
      ∃ t, exec (.sclSourceLost ref10) s = .next t ∧ sclLock t = 3 ∧ t.scl = { s.scl with good := none, slew := 0 } ∧ t.sclTime = s.sclTime ∧ (rget t (pgScl + 0x10)).testBit 1 = true ∧ t.mems = s.mems) ∧
    (∀ a, s.scl.good = some a → sclLock s = 1 → 1000000000 ≤ s.now - a → ∃ t, exec .sclLocked s = .next t ∧ sclLock t = 2 ∧ (rget t (pgScl + 0x10)).testBit 0 = true ∧
      Touches [pgScl + 0xC, pgScl + 0x10] s t) ∧
    (bit (rget s (pgScl + 8)) 6 = true → s.scl.sentAt + 1000000 ≤ s.now → ∃ t, exec .timeSend s = .next t ∧ t.scl = { s.scl with sentAt := s.now } ∧ t.regs = s.regs ∧ t.mems = s.mems ∧
      ∀ g : Fin 16, (lnkUp s g = true → (sclSrc s = 3 ∧ sclGroup s = g) ∨ ∃ k, (lnkGet t g).q = (lnkGet s g).q ++ [⟨k, 1024, 0, none⟩] ∧ k.ty = pkTime ∧ k.dst = lnkPeer s g) ∧
        ((lnkUp s g = false ∨ (sclSrc s = 3 ∧ sclGroup s = g)) → lnkGet t g = lnkGet s g))) ∧
  (∀ (s : State) (p : Fin 1024) (q : Fin 16) (c : Cmd), s.cold = false →
    (Next s p q 0x65 c → ttArmBad s p c = none →
      ((∃ e ∈ s.tts, e.part = p ∧ e.tag = fld c.entry 52 4) → ∃ t, exec (.ttArm p q) s = .next t ∧ Answered s t c stFailedOperand dTtTag) ∧
      ((∀ e ∈ s.tts, e.part = p → e.tag ≠ fld c.entry 52 4) → (ttRoom s p = false → ∃ t, exec (.ttArm p q) s = .next t ∧ Answered s t c stFailedOperand dTtFull) ∧
        (ttRoom s p = true → ∃ t e, exec (.ttArm p q) s = .next t ∧ t.tts = s.tts ++ [e] ∧ e.slot < 1024 ∧ (∀ x ∈ s.tts, x.slot ≠ e.slot) ∧
          (e.uid, e.part, e.sq, e.seq, e.entry, e.at', e.fires) = (s.ttUid, p.val, c.sq, c.seq, c.entry, fld c.entry 24 8, 0) ∧ e.late = (e.trig != 2 && ttDue s e) ∧
          t.cmds = (cmdStart s c).cmds ∧ t.regs = s.regs ∧ t.mems = s.mems))) ∧
    (Next s p q 0x66 c → operandsOk c [(16, 4)] = true →
      (∀ e, s.tts.find? (fun e => e.part == p.val && e.tag == opf c 16 4) = some e → exec (.ttDisarm p q) s = .next (within s (cmdDone (ttEnd s e stOk) c stOk 0))) ∧
      (s.tts.find? (fun e => e.part == p.val && e.tag == opf c 16 4) = none → ∃ t, exec (.ttDisarm p q) s = .next t ∧ Answered s t c stFailedOperand dTtTag)) ∧
    (running s = true → exec .ttEntryFire s = .next (within s (after ((ttOrder (s.tts.filter (ttDue s))).foldl (fun t e => ttFire t e.uid) s)))) ∧
    (∀ l : List TEnt, (ttOrder l).Pairwise (fun a b => a.slot ≤ b.slot) ∧ ∀ e, e ∈ ttOrder l ↔ e ∈ l ∧ e.slot < 1024) ∧
    (∀ e, s.tts.find? (fun x => x.uid == e.uid) = some e → e.trig ≠ 2 → e.action = 0 → e.repeat' ≠ 0 → (partGet s e.part).cells.Nodup →
      let cells := ((partGet s e.part).cells.drop (fld e.entry 40 2)).take (fld e.entry 42 2)
      let t := ttFire s e.uid
      (∀ x, cellGet t x = if x ∈ cells then pushed (cellGet s x) ⟨fld e.entry 44 4, fld e.entry 48 2, .tt e.slot⟩ else cellGet s x) ∧
      t.toccs = s.toccs ++ [⟨e.slot, e.uid, fld e.entry 48 2, cells, false⟩] ∧ rget t (pgScl + 0x64) = min (rget s (pgScl + 0x64) + 1) 0xFFFFFFFF ∧
      t.tts.map (fun x => (x.uid, x.at', x.fires)) = s.tts.map (fun x => if x.uid = e.uid then (e.uid, e.at' + e.repeat', e.fires + 1) else (x.uid, x.at', x.fires)) ∧ t.mems = s.mems) ∧
    (∀ (ecc : Ecc) s1 h s2 b, Next (eccIn s ecc) p q 0x69 c → operandsOk c [(16, 1), (24, 8)] = true → opf c 16 1 ≤ 15 → hget (eccIn s ecc) p (opf c 24 8) 64 true = (s1, 0, h) →
      hget s1 p (opf c 24 8) (fld h 28 4) true = (s2, 0, b) →
      (tkOk b = true → exec (.tokLoad p q ecc) s = .next (within s (cmdDone { s2 with dicts := tabPut (fun _ => 2 ^ 64) s2.dicts (p * 16 + opf c 16 1) (opf c 24 8) } c stOk 0))) ∧
      (tkOk b = false → exec (.tokLoad p q ecc) s = .next (within s (cmdFail s2 c dTkDict)))) ∧
    (∀ (ecc : Ecc) s1 input s2 b, Next (eccIn s ecc) p q 0x6A c → operandsOk c [(16, 1), (24, 4), (32, 20)] = true → opf c 16 1 ≤ 15 →
      let a := tabGet (fun _ => 2 ^ 64) (eccIn s ecc).dicts (p * 16 + opf c 16 1)
      (a = 2 ^ 64 → exec (.tokenize p q ecc) s = .next (within s (cmdFail (eccIn s ecc) c dTkDict))) ∧
      (a ≠ 2 ^ 64 → hget (eccIn s ecc) p (opf c 32 8) (opf c 24 4) true = (s1, 0, input) → hget s1 p a (fld (hpeek s1 p a 64) 28 4) true = (s2, 0, b) →
        hphys s2 p (opf c 40 8) (4 * opf c 48 4) ≠ none →
        let r := tkRun (tkEntries b) (fld b 12 4) (opf c 48 4) input ([], 0, 0)
        exec (.tokenize p q ecc) s = .next (within s (cmdDone (bumpSat (hputD (freeBelow 4 s2).2 p (opf c 40 8) (r.1.flatMap (leBytes 4))) (pgVidEnt (freeBelow 4 s2).1 + 0x44) r.2.2) c stOk
          (r.1.length + r.2.1 * 2 ^ 32))))) ∧
    (∀ es b, (∀ e, tkLongest es b = some e → e ∈ es ∧ e.1.isPrefixOf b = true ∧ ∀ x ∈ es, x.1.isPrefixOf b = true → x.1.length ≤ e.1.length) ∧
      (tkLongest es b = none → ∀ x ∈ es, x.1 ≠ [] → x.1.isPrefixOf b = false)))

/-! ### Video and alignment -/

/-- R380, R381, R383 to R386, R392: VID_OPEN opens a session of a good record within the limits; a unit or a picture joins the session's commands; STREAM_MARK moves its
line, never back; an engine round completes whole block rows of the frame in writing; a frame starts where RELEASED allows it; a decoded unit ends its command; a
chunk goes to the ring where it has room; VID_CLOSE closes the session. R401 to R404: ALN_OPEN opens a group of a good record; a member contributes its complete
frame nearest the tick within tolerance, the lower number among equals; a set is released with its deadline at the latest, counted, and the next tick is pending;
ALN_CLOSE ends the group. The model's choices: log 89, 90, 91, 92. -/
def Obligations.SessionsRunAndSetsAreAligned : Prop :=
  (∀ s : State, s.cold = false →
    (∀ (p : Fin 1024) (q : Fin 16) (ecc : Ecc) c s1 b, Next (eccIn s ecc) p q 0x60 c → operandsOk c [(16, 2), (24, 8)] = true → opf c 16 2 ≤ 1023 → opf c 24 8 % 64 = 0 →
      hget (eccIn s ecc) p (opf c 24 8) 256 true = (s1, 0, b) →
      let x : Sess := ⟨opf c 16 2, p, b.take 128, opf c 24 8, vidRegion s1 b, 0, 0, [], [], [], none, none, 0, 0, 0, false, 0, [], none, [], false⟩
      (vidRecordOk (b.take 128) = false → exec (.vidOpen p q ecc) s = .next (within s (cmdFail s1 c dVdRecord))) ∧
      (vidRecordOk (b.take 128) = true → vidAreasOk s1 p b = true → sessAt s1 (opf c 16 2) ≠ none → exec (.vidOpen p q ecc) s = .next (within s (cmdFail s1 c dVdStream))) ∧
      (vidRecordOk (b.take 128) = true → vidAreasOk s1 p b = true → sessAt s1 (opf c 16 2) = none →
        (vidOver s1 p b = true → exec (.vidOpen p q ecc) s = .next (within s (cmdDone s1 c stOversubscribed 0))) ∧
        (vidOver s1 p b = false → exec (.vidOpen p q ecc) s =
          .next (within s (cmdDone (vidStatus { s1 with sess := s1.sess ++ [x] } x) c stOk (if x.kind = 2 then 0 else x.region)))))) ∧
    (∀ (p : Fin 1024) (q : Fin 16) c x, Next s p q 0x61 c → operandsOk c [(16, 2)] = true → sessAt s (opf c 16 2) = some x →
      (x.part = p → exec (.vidClose p q) s = .next (within s (after (cmdDone (sessClose s x stCancelledHost) c stOk 0)))) ∧
      (x.part ≠ p → exec (.vidClose p q) s = .next (within s (after (cmdDone s c stDenied 0))))) ∧
    (∀ (p : Fin 1024) (q : Fin 16) c x s1 b, Next s p q 0x62 c → operandsOk c [(16, 3), (24, 4), (32, 16)] = true → opf c 18 1 ≤ 1 → 1 ≤ opf c 24 4 → opf c 24 4 ≤ 268435456 →
      sessAt s (opf c 16 2) = some x → x.part = p → x.kind = 0 → hget s p (opf c 32 8) (opf c 24 4) true = (s1, 0, b) →
      exec (.vidDecode p q) s = .next (within s (cmdStart (sessPut s1 { x with cmds := x.cmds ++ [(c.sq, c.seq)] }) c))) ∧
    (∀ (p : Fin 1024) (q : Fin 16) c x s1 b, Next s p q 0x63 c → operandsOk c [(16, 5), (32, 16)] = true → opf c 18 1 ≤ 7 →
      (if bit (opf c 18 1) 1 then opf c 19 1 < byteAt x.record 97 else opf c 19 1 = 0) → opf c 20 1 < 2 ^ byteAt x.record 97 →
      sessAt s (opf c 16 2) = some x → x.part = p → x.kind = 1 → hget s p (opf c 32 8) (3 * x.height * x.pitch / 2) true = (s1, 0, b) →
      exec (.vidEncode p q) s = .next (within s (cmdStart (sessPut s1 { x with cmds := x.cmds ++ [(c.sq, c.seq)] }) c))) ∧
    (∀ (p : Fin 1024) (q : Fin 16) (ecc : Ecc) c x, Next (eccIn s ecc) p q 0x64 c → sessAt (eccIn s ecc) (opf c 16 2) = some x → x.part = p → x.kind = 2 →
      operandsOk c [(16, 3), (20, 20)] = true → opf c 18 1 ≤ 1 → opf c 20 4 ≤ x.height →
      let cap := (x.cur.map (·.1)).getD (opf c 32 8)
      let y := { x with l := opf c 20 4, cur := some (cap, 0, []) }
      let s2 := vidStatus (sessPut (if x.cur.isNone then vidRecord (eccIn s ecc) x cap 0 else eccIn s ecc) y) y
      ((opf c 24 8 ≠ x.f ∨ opf c 20 4 < x.l) → exec (.streamMark p q ecc) s = .next (within s (cmdFail (eccIn s ecc) c dVdMark))) ∧
      (opf c 24 8 = x.f → x.l ≤ opf c 20 4 → bit (opf c 18 1) 0 = false → exec (.streamMark p q ecc) s = .next (within s (cmdDone s2 c stOk 0))) ∧
      (opf c 24 8 = x.f → x.l ≤ opf c 20 4 → bit (opf c 18 1) 0 = true →
        exec (.streamMark p q ecc) s = .next (within s (cmdDone (vidFrameDone s2 y cap) c stOk 0)))) ∧
    (∀ (r : Fin 4) n l us x cap fl img, running s = true → sessAt s n = some x → x.region = r → x.kind ≠ 2 → x.cur = some (cap, fl, img) → x.l < min (l / 8 * 8) (x.height - 8) →
      let y := { x with l := min (l / 8 * 8) (x.height - 8) }
      exec (.videoEngineRound r [(n, l, us)]) s = .next (within s (vidStatus (sessPut (vidLines (bumpSat s (pgVidEnt r + 0x40) us) x img x.l y.l) y) y))) ∧
    (∀ n (verdict : Fin 3) keep ref x c, running s = true → sessAt s n = some x → x.kind = 0 → x.cur = none → x.unit s = some c →
      let y := { x with cmds := x.cmds.drop 1, outs := 0, ref := ref.or x.ref, held := if bit (opf c 18 1) 0 then [] else if keep then x.held ++ [opf c 40 8] else x.held }
      exec (.decodeUnitDone n verdict keep ref) s = .next (within s (if verdict = 0 then cmdDone (sessPut s y) c stOk (x.outs + (x.f - x.outs) % 2 ^ 32 * 2 ^ 32)
        else cmdFail (sessPut s y) c (if verdict = 1 then dVdSyntax else dVdUnsupported)))) ∧
    (∀ n pic intra img x c, running s = true → sessAt s n = some x → x.kind = 0 → x.cur = none → x.conceal = false → x.unit s = some c → x.f < x.released s + x.frames →
      let cap := x.held.getD pic (opf c 40 8)
      let y := { x with held := x.held.eraseIdx pic, conceal := false }
      exec (.frameWriteStart n pic intra (some img)) s = .next (within s (vidRecord (sessPut s { y with cur := some (cap, 2 * b2n intra, img), l := 0 }) y cap (2 * b2n intra)))) ∧
    (∀ n payload x c cap flags img, running s = true → sessAt s n = some x → x.kind = 1 → x.unit s = some c → x.cur = some (cap, flags, img) →
      let size := 32 + roundUp payload.length 32
      let pos := x.bsWritten % max x.bsBytes 1
      (pos + size ≤ x.bsBytes → x.bsBytes < x.bsWritten - x.consumed s + size → exec (.encodeChunkWrite n payload false) s = .next (within s (sessPut s { x with full := true }))) ∧
      (pos + size ≤ x.bsBytes → x.bsWritten - x.consumed s + size ≤ x.bsBytes →
        let y := { x with bsWritten := x.bsWritten + size, chunks := x.chunks + 1, bytes := x.bytes + payload.length, full := false }
        exec (.encodeChunkWrite n payload false) s = .next (within s (vidStatus (sessPut (hputD s x.part (x.bsBase + pos)
          (chunkBytes x cap (chunkFlags x cap flags payload.length false) payload)) y) y))))) ∧
  (∀ s : State, s.cold = false →
    (∀ (p : Fin 1024) (q : Fin 16) (ecc : Ecc) c s1 b, Next (eccIn s ecc) p q 0x67 c → operandsOk c [(16, 2), (24, 8)] = true → opf c 16 2 ≤ 63 →
      hget (eccIn s ecc) p (opf c 24 8) 128 true = (s1, 0, b) →
      let k := if sceneNow s1 < fld b 8 8 then 0 else (sceneNow s1 - fld b 8 8) / fld b 16 8 + 1
      (alnRecordOk s1 p b = false → exec (.alnOpen p q ecc) s = .next (within s (cmdFail s1 c dAlRecord))) ∧
      (alnRecordOk s1 p b = true → hphys s1 p (fld b 32 8) (256 * fld b 40 4) ≠ none → alnAt s1 (opf c 16 2) ≠ none → exec (.alnOpen p q ecc) s = .next (within s (cmdFail s1 c dAlGroup))) ∧
      (alnRecordOk s1 p b = true → hphys s1 p (fld b 32 8) (256 * fld b 40 4) ≠ none → alnAt s1 (opf c 16 2) = none →
        exec (.alnOpen p q ecc) s = .next (within s (cmdDone { s1 with aligns := s1.aligns ++ [⟨opf c 16 2, p, b, k, k, []⟩] } c stOk 0)))) ∧
    (∀ (p : Fin 1024) (q : Fin 16) c, Next s p q 0x68 c → operandsOk c [(16, 2)] = true →
      (∀ g, alnAt s (opf c 16 2) = some g → g.part = p → exec (.alnClose p q) s = .next (within s (after (cmdDone (alnShut s g stCancelledHost) c stOk 0)))) ∧
      (alnAt s (opf c 16 2) = none → exec (.alnClose p q) s = .next (within s (after (cmdFail s c dAlGroup))))) ∧
    (∀ id g, alnAt s id = some g → g.tick g.k + g.window ≤ sceneNow s → exec (.alignDeadline id) s = .next (within s (alnRelease s id))) ∧
    (∀ id g, alnAt s id = some g → id < 64 → let t := alnRelease s id
      alnAt t id = some { g with k := g.k + 1 } ∧ rget t (alnReg id 0) = min (rget s (alnReg id 0) + 1) 0xFFFFFFFF ∧ (rget t (pgAln + 0x10)).testBit 0 = true ∧
      ((∃ j, j < g.n ∧ memberFrame s g (g.tick g.k) (g.members.getD j 0) = none) → (rget t (pgAln + 0x10)).testBit 1 = true ∧
        rget t (alnReg id 4) = min (rget s (alnReg id 4) + 1) 0xFFFFFFFF)) ∧
    (∀ g t m f cap, memberFrame s g t m = some (f, cap) → ∃ x, sessAt s m = some x ∧ (f, cap) ∈ x.caps ∧ timeDist cap t ≤ g.tol ∧
      ∀ f' cap', (f', cap') ∈ x.caps → timeDist cap' t ≤ g.tol → timeDist cap t ≤ timeDist cap' t ∧ (timeDist cap' t = timeDist cap t → f ≤ f')))

/-! ### The rollout sequencer -/

/-- R226, R230, R232, R233, R235 to R238, R241, R242, R246: The sequencer applies, of the commands of a partition that wait, the one fetched earliest, while no step is
in flight (in stage 8, only what was visible before it began); reserved operand bits fail it with SQ_FIELD; a command that succeeds records its result, one that
fails records its status and leaves the sequence table as it was; ROLL_CLOSE needs an empty table; dead and live identifiers are refused; SEQ_SET writes a priority;
a STEP dispatches its batch to every cell of the partition or holds it; a held step whose limit passes times out; a step completes with the status of its lowest cell
that failed; a notice is written once the ring has room. The model's choices: log 55, 56, 57, 58, 59, 60. -/
def Obligations.RolloutsRun : Prop :=
  ∀ s : State, s.cold = false →
    (∀ (x : State) (p : Nat) c, seqNext x p = some c → c ∈ x.cmds ∧ c.part = p ∧ isSeqCmd c = true ∧ c.started = false ∧
      (∀ d ∈ x.cmds, d.part = p → isSeqCmd d = true → d.started = false → c.bell ≤ d.bell) ∧ unfetchedBefore x p c.bell = false ∧
      ∀ r, rollGet x p = some r → r.step = none ∧ r.nq = [] ∧ ∀ b, r.stage8 = some b → c.bell < b ∧ cmdOp c ≠ 0x46) ∧
    (∀ (p : Fin 1024) (ecc : Ecc) c, seqNext (eccIn s ecc) p = some c →
      let x := eccIn s ecc
      (∀ row ∈ [(0x40, Instr.rollOpen p ecc, rollOpen p), (0x41, Instr.rollClose p ecc, rollClose p), (0x42, Instr.join p ecc, seqJoin p), (0x43, Instr.fork p ecc, seqFork p),
          (0x44, Instr.prune p ecc, seqPrune p), (0x45, Instr.leave p ecc, seqLeave p), (0x47, Instr.seqSet p ecc, seqSet p)], cmdOp c = row.1 →
        (seqOperandsOk c = false → exec row.2.1 s = .next (within s (after (seqApplied (cmdFail x c dSqField) p)))) ∧
        (seqOperandsOk c = true →
          (∀ v y, (row.2.2 c).exec x = (.ok v, y) → exec row.2.1 s = .next (within s (after (cmdDone (seqApplied y p) c stOk v)))) ∧
          (∀ st det y, (row.2.2 c).exec x = (.error (st, det), y) →
            exec row.2.1 s = .next (within s (after (cmdDone (seqApplied (if det = movedMark then rollPut y p (rollGet x p) else seqUndo x y p) p) c st (det % movedMark))))))) ∧
      (∀ r, rollGet x p = some r → seqOperandsOk c = true →
        (cmdOp c = 0x41 → r.seqs = [] → exec (.rollClose p ecc) s = .next (within s (after (cmdDone (seqApplied (rollPut x p none) p) c stOk 0)))) ∧
        (cmdOp c = 0x42 → opf c 20 1 ≤ 15 → (bit (opf c 21 1) 1 = true ∨ opf c 24 4 = 0) → seqRange r (opf c 16 4) = true → (r.seqAt (opf c 16 4)).isSome = true →
          exec (.join p ecc) s = .next (within s (after (cmdDone (seqApplied (seqUndo x x p) p) c stFailedOperand dSqSeqLive)))) ∧
        (cmdOp c = 0x42 → opf c 20 1 ≤ 15 → opf c 21 1 ≤ 1 → opf c 24 4 = 0 → seqRange r (opf c 16 4) = true → r.seqAt (opf c 16 4) = none → r.seqs.length < r.maxLive → r.kv = none →
          exec (.join p ecc) s = .next (within s (after (cmdDone (seqApplied (rollPut x p (some (r.seqPut (opf c 16 4)
            ⟨0, opf c 20 1, bit (opf c 21 1) 0, false, false, false, true, .fresh, r.steps, r.stamp + 1, 0⟩))) p) c stOk 0)))) ∧
        (cmdOp c = 0x44 → seqRange r (opf c 16 4) = true → r.seqAt (opf c 16 4) = none →
          exec (.prune p ecc) s = .next (within s (after (cmdDone (seqApplied (seqUndo x x p) p) c stFailedOperand dSqSeqDead)))) ∧
        (cmdOp c = 0x45 → seqRange r (opf c 16 4) = true → r.seqAt (opf c 16 4) = none →
          exec (.leave p ecc) s = .next (within s (after (cmdDone (seqApplied (seqUndo x x p) p) c stFailedOperand dSqSeqDead)))) ∧
        (cmdOp c = 0x47 → opf c 20 1 ≤ 15 → seqRange r (opf c 16 4) = true → (r.seqAt (opf c 16 4)).isSome = true → bit (opf c 21 1) 1 = false → bit (opf c 21 1) 2 = true →
          exec (.seqSet p ecc) s = .next (within s (after (cmdDone (seqApplied (rollPut x p (some (r.seqUpd (opf c 16 4) (fun z => { z with prio := opf c 20 1 })))) p) c stOk 0)))))) ∧
    (∀ (x y : State) (p : Nat), rollGet (seqUndo x y p) p = rollGet x p ∧ (seqUndo x y p).cmds = y.cmds ∧ (seqUndo x y p).mems.hbm = x.mems.hbm ∧
      (seqUndo x y p).regs = y.regs ∧ (seqUndo x y p).cells = y.cells) ∧
    (∀ (p : Fin 1024) (ecc : Ecc) c r, seqNext (eccIn s ecc) p = some c → cmdOp c = 0x46 → rollGet (eccIn s ecc) p = some r → seqOperandsOk c = true →
      (opf c 16 1 ≤ 15 ∨ opf c 16 1 = 0xFF) → opf c 18 2 ≤ 4096 →
      let n := r.steps + 1
      ∀ b batch k y, (stepReserve p n (opf c 16 1) (if opf c 18 2 = 0 then 4096 else opf c 18 2)).exec (eccIn s ecc) = (.ok (b, batch, k), y) →
      ∀ z, (stepPrepare p n batch).exec y = (.ok (), z) →
        let w := seqApplied (writeBatch z p n b batch) p
        (batch = [] → exec (.step p ecc) s = .next (within s (after (stage8Begin (cmdDone w c stOk (stepResult n 0 k)) p)))) ∧
        (batch ≠ [] →
          let h := cmdStart (rollUpd w p (fun y => { y with step := some ⟨c.sq, c.seq, n, batch, k, some w.now, [], []⟩ })) c
          exec (.step p ecc) s = .next (within s (after (if bit (opf c 17 1) 0 then h else dispatch h p))))) ∧
    (∀ (x : State) (p : Nat) r st, rollGet x p = some r → r.step = some st → (partGet x p).cells.Nodup →
      ∃ r', rollGet (dispatch x p) p = some r' ∧ r'.steps = r.steps + 1 ∧ r'.step = some { st with heldAt := none, cells := (partGet x p).cells, got := [] } ∧
        (∀ c ∈ (partGet x p).cells, cellGet (dispatch x p) c = pushed (cellGet x c) ⟨fld r.record 56 4, st.number % 65536, .seqr p⟩) ∧
        (∀ c, c ∉ (partGet x p).cells → cellGet (dispatch x p) c = cellGet x c) ∧ (dispatch x p).regs = x.regs ∧ (dispatch x p).mems = x.mems) ∧
    (∀ (p : Fin 1024) r st t, rollGet s p = some r → r.step = some st → st.heldAt = some t →
      (fld r.record 6 2 * 1000 ≤ s.now - t →
        exec (.holdLimitExpiry p) s = .next (within s (after (stage8Begin (complete s p st.sq st.seq stTimeout (stepResult st.number 0 st.parked)) p)))) ∧
      (s.now - t < fld r.record 6 2 * 1000 → exec (.holdLimitExpiry p) s = .next (within s (after s)))) ∧
    (∀ (p : Fin 1024) r st, rollGet s p = some r → r.step = some st → st.heldAt = none → (∀ c ∈ st.cells, ∃ g ∈ st.got, g.1 = c) →
      exec (.stepCompletion p) s = .next (within s (after ((stepSettle p (stepStatus st.got) st.batch).exec (stage8Begin
        (complete (rollPut { s with stepping := s.stepping.erase p } p (some { r with last := stepStatus st.got })) p st.sq st.seq (stepStatus st.got)
          (stepResult st.number st.batch.length st.parked)) p)).2))) ∧
    (∀ got, (∀ g ∈ got, g.2 = 0) → stepStatus got = stOk) ∧
    (∀ got, (∃ g ∈ got, g.2 ≠ 0) → ∃ g ∈ got, g.2 ≠ 0 ∧ stepStatus got = g.2 ∧ ∀ h ∈ got, h.2 ≠ 0 → g.1 ≤ h.1) ∧
    (∀ (p : Fin 1024) r q kind st n l, rollGet s p = some r → r.nq = (q, kind, st, n) :: l →
      (noticeRoom s p r = true → exec (.noticeWrite p) s = .next (within s (after (writeStatus (rollPut
        (hputD s p (fld r.record 40 8 + 16 * (r.head % r.notices)) (leBytes 4 q ++ leBytes 1 kind ++ leBytes 1 st ++ leBytes 2 0 ++ leBytes 8 n))
        p (some { r with nq := l, head := (r.head + 1) % 2 ^ 32 })) p)))) ∧
      (noticeRoom s p r = false → exec (.noticeWrite p) s = .next (within s (after s)))) ∧
    (∀ r b, let x := candidates r b
      (∀ e, e ∈ x.2 ↔ e ∈ r.seqs ∧ e.2.idle = false ∧ e.2.broken = false ∧ bucketOf e.2.len = x.1) ∧ x.2.Pairwise (fun a b => stepOrder a b = true))

/-! ### Boot, versions, configuration, images, memories -/

/-- R474, R476, R487, R527, R542, R558, R559, R560: PERST_N deasserted samples SLOT_ID and, once P54V has settled, begins BOOT; asserted, it returns the module to COLD
with all but the memories and what the input and sideband hold reset; a chip warm reset returns it to BOOT with the listed registers kept; the boot sequence ends in
HELD with the reasons of what failed; the heartbeat counts while the Keeper runs; the status block is written on a change and every 100 ms. The model's choices: log
10, 107, 114, 115, 118. -/
def Obligations.BootReachesHeld : Prop :=
  ∀ s : State,
    (∀ slot : Byte, ∃ t, exec (.perstNDeassert slot) s = .next t ∧ rget t (pgChp + 0x58) = slot.toNat ∧ t.perst = false ∧ (t.cold = true ↔ s.cold = true ∧ inputSettled s = false) ∧
      (∀ a, a ≠ pgChp + 0x58 → rget t a = rget s a) ∧ { t with regs := s.regs, perst := s.perst, cold := s.cold } = s) ∧
    (∃ t, exec .perstNAssert s = .next t ∧ t.cold = true ∧ t.perst = true ∧ (∀ a, rget t a = rget State.reset a) ∧ t.mems = s.mems ∧ t.fuses = s.fuses ∧ t.power = s.power ∧
      t.jnl = journalCut s.jnl ∧ t.pcieUp = false ∧ t.cells = [] ∧ t.cmds = [] ∧ t.rolls = [] ∧ t.parts = [] ∧ t.links = [] ∧ t.sclTime = 0) ∧
    (s.cold = false → ∃ t, exec .chipWarmReset s = .next t ∧ t.cold = false ∧ devState t = dvBoot ∧ t.sclTime = s.sclTime ∧ t.mems = s.mems ∧ t.cells = [] ∧ t.cmds = [] ∧ t.parts = [] ∧
      ∀ a, a ≠ pgDmp + 0xC → rget t a = if warmKeeps a then rget s a else rget State.reset a) ∧
    (∀ f d2d mods hbm, s.cold = false → devState s = dvBoot → s.stop = none → ∃ t, exec (.bootSequence f d2d mods hbm) s = .next t ∧ t.cold = false ∧ t.fuses = f ∧ devState t = dvHeld ∧
      t.kImg = slotImage { s with fuses := f } 1 ∧ t.uImg = slotImage { s with fuses := f } 2 ∧
      (reasons t).testBit 0 = true ∧ (d2d % 2 ^ 16 ≠ 0 → (reasons t).testBit 9 = true) ∧ (hbm % 2 ^ 8 ≠ 0 → (reasons t).testBit 10 = true) ∧
      (t.kImg = none ∨ t.uImg = none → (reasons t).testBit 8 = true) ∧ (t.kImg ≠ none → t.power.vin < 44000 ∨ 59000 < t.power.vin ∨ t.power.cap < 15198 → (reasons t).testBit 11 = true)) ∧
    (s.cold = false → keeperRuns s = true → ∃ t, exec .kprHeartbeat s = .next t ∧ rget t (pgKpr + 0x40) = (rget s (pgKpr + 0x40) + 1) % 2 ^ 32 ∧ Touches [pgKpr + 0x40] s t) ∧
    (keeperRuns s = false → exec .kprHeartbeat s = .next s) ∧
    (s.cold = false → devState s ≠ dvBoot → rget64 s (pgCfg + 0x60) ≠ 0 → s.pcieUp = true → s.sblk.1.take 4 ≠ blockKey s ∨ 100000000 ≤ s.now - s.sblk.2 →
      ∃ t, exec (.statusBlockWrite true) s = .next t ∧ t.mems = memsWrite s.mems .host (rget64 s (pgCfg + 0x60) / 64 * 64) (statusBlock s (s.sblk.1.getD 4 0 + 1)) ∧
        t.sblk = (blockKey s ++ [s.sblk.1.getD 4 0 + 1], s.now) ∧ t.regs = s.regs)

/-- R492: a 32-bit word of the record window, at offset 0x100 + 4w of the CFG page, is written in HELD and sets its bit in CFG_WRITTEN; CLEAR zeroes the window and
CFG_WRITTEN; a window write outside HELD is ignored and raises CFG_LOCKED. Nothing else changes. -/
def Obligations.RecordWindowIsWritten : Prop :=
  ∀ (s : State) (m : Half), Served s (pgCfg + 0x40) →
    (∀ (w : Fin 256) (v : Word), devState s = dvHeld → ∃ t, exec (.cfgRecWrite m w v) s = .next t ∧ rget t (pgCfg + 0x100 + 4 * w) = v.toNat ∧
      (rget t (pgCfg + 0x80 + 4 * (w / 32))).testBit (w % 32) = true ∧ Touches [pgCfg + 0x100 + 4 * w, pgCfg + 0x80 + 4 * (w / 32)] s t) ∧
    (∀ (w : Fin 256) (v : Word), devState s ≠ dvHeld → ∃ t, exec (.cfgRecWrite m w v) s = .next t ∧ (rget t (pgCfg + 0x10)).testBit 2 = true ∧ Touches [pgCfg + 0x10] s t) ∧
    (devState s = dvHeld → ∃ t, exec (.cfgClear m) s = .next t ∧ (∀ a, (pgCfg + 0x100 ≤ a ∧ a < pgCfg + 0x500) ∨ (pgCfg + 0x80 ≤ a ∧ a < pgCfg + 0xA0) → rget t a = rget State.reset a) ∧
      (∀ a, ¬ (pgCfg + 0x100 ≤ a ∧ a < pgCfg + 0x500) → ¬ (pgCfg + 0x80 ≤ a ∧ a < pgCfg + 0xA0) → rget t a = rget s a) ∧ { t with regs := s.regs } = s)

/-- R488, R493, R494: VER_REQUEST sets VER_ACTIVE to the highest defined version that both sides support, or VALID is 0; COMMIT holds a record that passes every check
and clears NO_CONFIG, or sets the reason of the first check that fails and reports it; where no reason is left the record is applied and the device is CONFIGURED;
START enters RUNNING from CONFIGURED alone. R480, R483, R484: CFG_ACCEPT takes the pairing's own value while UNTESTED_PAIR is set, any other write is refused; the
record it queues, once written, clears UNTESTED_PAIR; an image that does not verify leaves the running one and reports its result; one that does becomes the running
image of its kind, discards a held record and sets NO_CONFIG; LOAD_STORE queues the image for slot A. The model's choices: log 115, 116, 117, 118, 131. -/
def Obligations.ConfigurationRunsAndImagesAreTaken : Prop :=
  (∀ (s : State) (m : Half), Served s (pgCfg + 0x40) →
    (∀ v : Word, configLocked s = false → ∃ t, exec (.verRequest m v) s = .next t ∧ rget t (pgVer + 0x44) = v.toNat % 65536 ∧ rget t (pgVer + 0x48) = negotiate s.kImg (v.toNat % 65536) ∧
      (negotiate s.kImg (v.toNat % 65536) = 0 → (rget t (pgVer + 0x10)).testBit 0 = true) ∧ Touches [pgVer + 0x44, pgVer + 0x48, pgVer + 0x10] s t) ∧
    (∀ (i : Img) req, let hi := fld i.hdr 20 2
      let lo := fld i.hdr 18 2
      (negotiate (some i) req = 0 ∧ (∀ v ∈ versions, v ≤ req → v ≤ hi → v < lo)) ∨
        ∃ v ∈ versions, negotiate (some i) req = v + 2 ^ 16 ∧ v ≤ req ∧ v ≤ hi ∧ lo ≤ v ∧ ∀ w ∈ versions, w ≤ req → w ≤ hi → w ≤ v) ∧
    (devState s ≠ dvHeld → ∃ t, exec (.cfgCommit m) s = .next t ∧ (rget t (pgCfg + 0x10)).testBit 1 = true ∧ Touches [pgCfg + 0x10] s t) ∧
    (devState s = dvHeld → (rget s (pgCfg + 0xC)).testBit 0 = false → s.stop = none →
      let r := windowRecord s
      ∀ c d, commitCheck s r = (c, d) →
      (c = 0 → reasons s &&& 0xFC0 ≠ 0 → ∃ t, exec (.cfgCommit m) s = .next t ∧ t.heldRec = some r ∧ reasons t = reasons s &&& 0xFC0 ∧ rget t (pgCfg + 0x44) = 0 ∧ devState t = dvHeld ∧
        (rget t (pgCfg + 0x10)).testBit 0 = true ∧ Touches [pgCfg + 0x48, pgCfg + 0x44, pgCfg + 0x10] s { t with heldRec := s.heldRec }) ∧
      (c = 0 → reasons s &&& 0xFC0 = 0 → ∃ t, exec (.cfgCommit m) s = .next t ∧ devState t = dvConfigured ∧ rget t (pgCfg + 0x4C) = fld r 12 4 ∧ t.msixHeld = [] ∧ t.cells = s.cells ∧ t.mems = s.mems) ∧
      (c ∈ [hIncomplete, hCrc, hInconsistent, hStale, hVerNone] → ∃ t, exec (.cfgCommit m) s = .next t ∧ reasons t = (reasons s &&& 0xFC1) ||| c ∧
        rget t (pgCfg + 0x44) = (c.log2 + 1 + d * 2 ^ 8) % 2 ^ 32 ∧ (rget t (pgCfg + 0x10)).testBit 0 = true ∧ rget t (pgCfg + 0x4C) = rget s (pgCfg + 0x4C) ∧
        Touches [pgCfg + 0x48, pgCfg + 0x44, pgCfg + 0x10] s t)) ∧
    (∀ r, (commitCheck s r).1 = 0 ↔ unwritten s (List.range 76) = none ∧ fld r 0 4 = 0x43464752 ∧ fld r 4 2 = 1 ∧ fld r 8 4 = 304 ∧ fld r 28 4 = crc32c (r.take 28 ++ r.drop 32) ∧
      rget s (pgCfg + 0x4C) < fld r 12 4 ∧ (∀ x ∈ recFields s r, x.2 = true) ∧ bit (rget s (pgVer + 0x48)) 16 = true) ∧
    (devState s = dvConfigured → s.stop = none → ∃ t, exec (.cfgStart m) s = .next t ∧ devState t = dvRunning ∧ Touches [pgChp + 0x40, pgChp + 0xC, pgChp + 0x10] s t) ∧
    (devState s ≠ dvConfigured → ∃ t, exec (.cfgStart m) s = .next t ∧ (rget t (pgCfg + 0x10)).testBit 1 = true ∧ Touches [pgCfg + 0x10] s t)) ∧
  (∀ (s : State) (m : Half), Served s (pgCfg + 0x40) →
    (∀ v : Word, bit (reasons s) 6 = false ∨ v.toNat ≠ rget s (pgCfg + 0x50) → ∃ t, exec (.cfgAccept m v) s = .next t ∧ (rget t (pgCfg + 0x10)).testBit 5 = true ∧ Touches [pgCfg + 0x10] s t) ∧
    (∀ v : Word, bit (reasons s) 6 = true → v.toNat = rget s (pgCfg + 0x50) → rget s (pgCfg + 0x58) ≠ 1 →
      ∀ u a, logPlace (recSlot (padded (pairBytes s ++ leBytes 4 (rget s (pgCfg + 0x50)))).length) s.jnl.recs.length s = (u, some a) →
        ∃ t, exec (.cfgAccept m v) s = .next t ∧ rget t (pgCfg + 0x58) = 1 ∧ ∃ w ∈ t.jnl.work, w.what = .accept ∧ w.addr = a) ∧
    (rget s (pgCfg + 0x58) = 1 → (∀ w ∈ s.jnl.work, w.what ≠ .accept) → reasons s &&& 0xFBF ≠ 0 → ∃ t, exec .acceptComplete s = .next t ∧ rget t (pgCfg + 0x58) = 2 ∧
      reasons t = reasons s &&& 0xFBF ∧ (rget t (pgCfg + 0x10)).testBit 4 = true ∧ Touches [pgCfg + 0x58, pgCfg + 0x48, pgCfg + 0x10] s t) ∧
    (rget s (pgCfg + 0x58) = 1 → (∀ w ∈ s.jnl.work, w.what ≠ .accept) → reasons s &&& 0xFBF = 0 → devState s = dvHeld → s.stop = none → ∀ r, s.heldRec = some r →
      ∃ t, exec .acceptComplete s = .next t ∧ devState t = dvConfigured ∧ rget t (pgCfg + 0x4C) = fld r 12 4 ∧ t.msixHeld = []) ∧
    (∀ i ∈ [(false, Instr.imgLoad m), (true, Instr.imgLoadStore m)],
      (devState s ≠ dvHeld → ∃ t, exec i.2 s = .next t ∧ (rget t (pgCfg + 0x10)).testBit 1 = true ∧ Touches [pgCfg + 0x10] s t) ∧
      (devState s = dvHeld → (rget s (pgCfg + 0xC)).testBit 0 = false → s.stop = none → ∀ u b, hbmImage s (rget64 s (pgCfg + 0x68)) = (u, b) →
        (imgVerify s.fuses [1, 2] b ≠ 0 → ∃ t, exec i.2 s = .next t ∧ rget t (pgCfg + 0x74) = imgVerify s.fuses [1, 2] b ∧ t.kImg = s.kImg ∧ t.uImg = s.uImg ∧ t.heldRec = s.heldRec ∧
          (rget t (pgCfg + 0x10)).testBit 3 = true ∧ Touches [pgCfg + 0x74, pgCfg + 0x10] (within s u) t) ∧
        (imgVerify s.fuses [1, 2] b = 0 → ∃ t, exec i.2 s = .next t ∧ t.heldRec = none ∧ (reasons t).testBit 0 = true ∧ (rget t (pgCfg + 0x10)).testBit 3 = true ∧
          (byteAt b 4 = 1 → t.kImg = some ⟨2, b.take 512⟩ ∧ t.uImg = s.uImg) ∧ (byteAt b 4 ≠ 1 → t.uImg = some ⟨2, b.take 512⟩ ∧ t.kImg = s.kImg) ∧
          (i.1 = true → ∃ w ∈ t.jnl.work, w.what = .image (byteAt b 4) ∧ w.addr = (byteAt b 4 - 1) * 0x8000000 ∧ w.bytes = b)))) ∧
    (∀ f kinds b, imgVerify f kinds b = 0 ↔ 512 ≤ b.length ∧ imgFormat b = true ∧ imgLength b ≤ b.length ∧ byteAt b 4 ∈ kinds ∧ imgKey f b = true ∧ f.epoch ≤ fld b 24 4 ∧ imgSigned b = true))

/-- Memories are kept in one canonical form by every write; a write reads back, and every byte of a 32-byte unit that it does not touch, and of every other memory, reads
as before; so does a byte beside the written ones in a unit that no mark covers (R290, R315). The model's choices: log 12. -/
def Obligations.MemoriesReadBack : Prop :=
  ∀ (m : Mems) (sp : Space) (a : Nat) (bs : List Byte), 
    (memsWf m = true → memsWf (memsWrite m sp a bs) = true) ∧
    memsRead (memsWrite m sp a bs) sp a bs.length = bs ∧
    (∀ b, b / 32 < a / 32 ∨ (a + bs.length - 1) / 32 < b / 32 → memsRead (memsWrite m sp a bs) sp b 1 = memsRead m sp b 1) ∧
    (∀ b, b < a ∨ a + bs.length ≤ b → (∀ k ∈ m.marks, ¬ (k.sp = sp ∧ k.lo ≤ b / 32 ∧ b / 32 < k.hi)) → memsRead (memsWrite m sp a bs) sp b 1 = memsRead m sp b 1) ∧
    (∀ sq, sq ≠ sp → ∀ b n, memsRead (memsWrite m sp a bs) sq b n = memsRead m sq b n)
end

