-- ==== Sys2Proof/Laws/State.lean ====
section
/-!
SUPPORT. Laws/State.lean: what the plain updates of State leave alone, one lemma per field and update, each true by rfl.
-/

namespace Sys2Proof.Machine

variable (s t : State)

/-! ### rset -/

@[simp] theorem rset_pending (a v : Nat) : (rset s a v).pending = s.pending := rfl
@[simp] theorem rset_now (a v : Nat) : (rset s a v).now = s.now := rfl
@[simp] theorem rset_free (a v : Nat) : (rset s a v).free = s.free := rfl
@[simp] theorem rset_mems (a v : Nat) : (rset s a v).mems = s.mems := rfl
@[simp] theorem rset_disarmed (a v : Nat) : (rset s a v).disarmed = s.disarmed := rfl
@[simp] theorem rset_msix (a v : Nat) : (rset s a v).msix = s.msix := rfl
@[simp] theorem rset_cells (a v : Nat) : (rset s a v).cells = s.cells := rfl
@[simp] theorem rset_mcast (a v : Nat) : (rset s a v).mcast = s.mcast := rfl
@[simp] theorem rset_barriers (a v : Nat) : (rset s a v).barriers = s.barriers := rfl
@[simp] theorem rset_splits (a v : Nat) : (rset s a v).splits = s.splits := rfl
@[simp] theorem rset_parts (a v : Nat) : (rset s a v).parts = s.parts := rfl
@[simp] theorem rset_cache (a v : Nat) : (rset s a v).cache = s.cache := rfl
@[simp] theorem rset_fills (a v : Nat) : (rset s a v).fills = s.fills := rfl
@[simp] theorem rset_hbmq (a v : Nat) : (rset s a v).hbmq = s.hbmq := rfl
@[simp] theorem rset_wins (a v : Nat) : (rset s a v).wins = s.wins := rfl
@[simp] theorem rset_credit (a v : Nat) : (rset s a v).credit = s.credit := rfl
@[simp] theorem rset_bargeSeq (a v : Nat) : (rset s a v).bargeSeq = s.bargeSeq := rfl
@[simp] theorem rset_bargeWait (a v : Nat) : (rset s a v).bargeWait = s.bargeWait := rfl
@[simp] theorem rset_barges (a v : Nat) : (rset s a v).barges = s.barges := rfl
@[simp] theorem rset_engineLast (a v : Nat) : (rset s a v).engineLast = s.engineLast := rfl
@[simp] theorem rset_locks (a v : Nat) : (rset s a v).locks = s.locks := rfl
@[simp] theorem rset_bargeNotices (a v : Nat) : (rset s a v).bargeNotices = s.bargeNotices := rfl
@[simp] theorem rset_gsuLast (a v : Nat) : (rset s a v).gsuLast = s.gsuLast := rfl
@[simp] theorem rset_stepping (a v : Nat) : (rset s a v).stepping = s.stepping := rfl
@[simp] theorem rset_throttle (a v : Nat) : (rset s a v).throttle = s.throttle := rfl
@[simp] theorem rset_notices (a v : Nat) : (rset s a v).notices = s.notices := rfl
@[simp] theorem rset_faults (a v : Nat) : (rset s a v).faults = s.faults := rfl
@[simp] theorem rset_sclTime (a v : Nat) : (rset s a v).sclTime = s.sclTime := rfl
@[simp] theorem rset_dark (a v : Nat) : (rset s a v).dark = s.dark := rfl
@[simp] theorem rset_resp (a v : Nat) : (rset s a v).resp = s.resp := rfl
@[simp] theorem rset_latch (a v : Nat) : (rset s a v).latch = s.latch := rfl
@[simp] theorem rset_staging (a v : Nat) : (rset s a v).staging = s.staging := rfl
@[simp] theorem rset_cold (a v : Nat) : (rset s a v).cold = s.cold := rfl
@[simp] theorem rset_sqs (a v : Nat) : (rset s a v).sqs = s.sqs := rfl
@[simp] theorem rset_cqs (a v : Nat) : (rset s a v).cqs = s.cqs := rfl
@[simp] theorem rset_cmds (a v : Nat) : (rset s a v).cmds = s.cmds := rfl
@[simp] theorem rset_bell (a v : Nat) : (rset s a v).bell = s.bell := rfl
@[simp] theorem rset_turn (a v : Nat) : (rset s a v).turn = s.turn := rfl
@[simp] theorem rset_lastTurn (a v : Nat) : (rset s a v).lastTurn = s.lastTurn := rfl
@[simp] theorem rset_rolls (a v : Nat) : (rset s a v).rolls = s.rolls := rfl
@[simp] theorem rset_streams (a v : Nat) : (rset s a v).streams = s.streams := rfl
@[simp] theorem rset_links (a v : Nat) : (rset s a v).links = s.links := rfl
@[simp] theorem rset_tags (a v : Nat) : (rset s a v).tags = s.tags := rfl
@[simp] theorem rset_gens (a v : Nat) : (rset s a v).gens = s.gens := rfl
@[simp] theorem rset_fabs (a v : Nat) : (rset s a v).fabs = s.fabs := rfl
@[simp] theorem rset_cgroups (a v : Nat) : (rset s a v).cgroups = s.cgroups := rfl
@[simp] theorem rset_cruns (a v : Nat) : (rset s a v).cruns = s.cruns := rfl
@[simp] theorem rset_sess (a v : Nat) : (rset s a v).sess = s.sess := rfl
@[simp] theorem rset_aligns (a v : Nat) : (rset s a v).aligns = s.aligns := rfl
@[simp] theorem rset_tts (a v : Nat) : (rset s a v).tts = s.tts := rfl
@[simp] theorem rset_toccs (a v : Nat) : (rset s a v).toccs = s.toccs := rfl
@[simp] theorem rset_ttUid (a v : Nat) : (rset s a v).ttUid = s.ttUid := rfl
@[simp] theorem rset_dicts (a v : Nat) : (rset s a v).dicts = s.dicts := rfl
@[simp] theorem rset_scl (a v : Nat) : (rset s a v).scl = s.scl := rfl
@[simp] theorem rset_stop (a v : Nat) : (rset s a v).stop = s.stop := rfl
@[simp] theorem rset_errLog (a v : Nat) : (rset s a v).errLog = s.errLog := rfl
@[simp] theorem rset_traces (a v : Nat) : (rset s a v).traces = s.traces := rfl
@[simp] theorem rset_uresets (a v : Nat) : (rset s a v).uresets = s.uresets := rfl
@[simp] theorem rset_lastReset (a v : Nat) : (rset s a v).lastReset = s.lastReset := rfl
@[simp] theorem rset_prtCmd (a v : Nat) : (rset s a v).prtCmd = s.prtCmd := rfl
@[simp] theorem rset_mbxq (a v : Nat) : (rset s a v).mbxq = s.mbxq := rfl
@[simp] theorem rset_power (a v : Nat) : (rset s a v).power = s.power := rfl
@[simp] theorem rset_jnl (a v : Nat) : (rset s a v).jnl = s.jnl := rfl
@[simp] theorem rset_kImg (a v : Nat) : (rset s a v).kImg = s.kImg := rfl
@[simp] theorem rset_uImg (a v : Nat) : (rset s a v).uImg = s.uImg := rfl
@[simp] theorem rset_heldRec (a v : Nat) : (rset s a v).heldRec = s.heldRec := rfl
@[simp] theorem rset_fuses (a v : Nat) : (rset s a v).fuses = s.fuses := rfl
@[simp] theorem rset_trained (a v : Nat) : (rset s a v).trained = s.trained := rfl
@[simp] theorem rset_sblk (a v : Nat) : (rset s a v).sblk = s.sblk := rfl
@[simp] theorem rset_i3c (a v : Nat) : (rset s a v).i3c = s.i3c := rfl
@[simp] theorem rset_jtag (a v : Nat) : (rset s a v).jtag = s.jtag := rfl
@[simp] theorem rset_perst (a v : Nat) : (rset s a v).perst = s.perst := rfl
@[simp] theorem rset_pcieUp (a v : Nat) : (rset s a v).pcieUp = s.pcieUp := rfl
@[simp] theorem rset_msixHeld (a v : Nat) : (rset s a v).msixHeld = s.msixHeld := rfl

/-! ### wr -/

@[simp] theorem wr_pending (sp : Space) (a : Nat) (b : List Byte) : (wr s sp a b).pending = s.pending := rfl
@[simp] theorem wr_now (sp : Space) (a : Nat) (b : List Byte) : (wr s sp a b).now = s.now := rfl
@[simp] theorem wr_free (sp : Space) (a : Nat) (b : List Byte) : (wr s sp a b).free = s.free := rfl
@[simp] theorem wr_regs (sp : Space) (a : Nat) (b : List Byte) : (wr s sp a b).regs = s.regs := rfl
@[simp] theorem wr_disarmed (sp : Space) (a : Nat) (b : List Byte) : (wr s sp a b).disarmed = s.disarmed := rfl
@[simp] theorem wr_msix (sp : Space) (a : Nat) (b : List Byte) : (wr s sp a b).msix = s.msix := rfl
@[simp] theorem wr_cells (sp : Space) (a : Nat) (b : List Byte) : (wr s sp a b).cells = s.cells := rfl
@[simp] theorem wr_mcast (sp : Space) (a : Nat) (b : List Byte) : (wr s sp a b).mcast = s.mcast := rfl
@[simp] theorem wr_barriers (sp : Space) (a : Nat) (b : List Byte) : (wr s sp a b).barriers = s.barriers := rfl
@[simp] theorem wr_splits (sp : Space) (a : Nat) (b : List Byte) : (wr s sp a b).splits = s.splits := rfl
@[simp] theorem wr_parts (sp : Space) (a : Nat) (b : List Byte) : (wr s sp a b).parts = s.parts := rfl
@[simp] theorem wr_cache (sp : Space) (a : Nat) (b : List Byte) : (wr s sp a b).cache = s.cache := rfl
@[simp] theorem wr_fills (sp : Space) (a : Nat) (b : List Byte) : (wr s sp a b).fills = s.fills := rfl
@[simp] theorem wr_hbmq (sp : Space) (a : Nat) (b : List Byte) : (wr s sp a b).hbmq = s.hbmq := rfl
@[simp] theorem wr_wins (sp : Space) (a : Nat) (b : List Byte) : (wr s sp a b).wins = s.wins := rfl
@[simp] theorem wr_credit (sp : Space) (a : Nat) (b : List Byte) : (wr s sp a b).credit = s.credit := rfl
@[simp] theorem wr_bargeSeq (sp : Space) (a : Nat) (b : List Byte) : (wr s sp a b).bargeSeq = s.bargeSeq := rfl
@[simp] theorem wr_bargeWait (sp : Space) (a : Nat) (b : List Byte) : (wr s sp a b).bargeWait = s.bargeWait := rfl
@[simp] theorem wr_barges (sp : Space) (a : Nat) (b : List Byte) : (wr s sp a b).barges = s.barges := rfl
@[simp] theorem wr_engineLast (sp : Space) (a : Nat) (b : List Byte) : (wr s sp a b).engineLast = s.engineLast := rfl
@[simp] theorem wr_locks (sp : Space) (a : Nat) (b : List Byte) : (wr s sp a b).locks = s.locks := rfl
@[simp] theorem wr_bargeNotices (sp : Space) (a : Nat) (b : List Byte) : (wr s sp a b).bargeNotices = s.bargeNotices := rfl
@[simp] theorem wr_gsuLast (sp : Space) (a : Nat) (b : List Byte) : (wr s sp a b).gsuLast = s.gsuLast := rfl
@[simp] theorem wr_stepping (sp : Space) (a : Nat) (b : List Byte) : (wr s sp a b).stepping = s.stepping := rfl
@[simp] theorem wr_throttle (sp : Space) (a : Nat) (b : List Byte) : (wr s sp a b).throttle = s.throttle := rfl
@[simp] theorem wr_notices (sp : Space) (a : Nat) (b : List Byte) : (wr s sp a b).notices = s.notices := rfl
@[simp] theorem wr_faults (sp : Space) (a : Nat) (b : List Byte) : (wr s sp a b).faults = s.faults := rfl
@[simp] theorem wr_sclTime (sp : Space) (a : Nat) (b : List Byte) : (wr s sp a b).sclTime = s.sclTime := rfl
@[simp] theorem wr_dark (sp : Space) (a : Nat) (b : List Byte) : (wr s sp a b).dark = s.dark := rfl
@[simp] theorem wr_resp (sp : Space) (a : Nat) (b : List Byte) : (wr s sp a b).resp = s.resp := rfl
@[simp] theorem wr_latch (sp : Space) (a : Nat) (b : List Byte) : (wr s sp a b).latch = s.latch := rfl
@[simp] theorem wr_staging (sp : Space) (a : Nat) (b : List Byte) : (wr s sp a b).staging = s.staging := rfl
@[simp] theorem wr_cold (sp : Space) (a : Nat) (b : List Byte) : (wr s sp a b).cold = s.cold := rfl
@[simp] theorem wr_sqs (sp : Space) (a : Nat) (b : List Byte) : (wr s sp a b).sqs = s.sqs := rfl
@[simp] theorem wr_cqs (sp : Space) (a : Nat) (b : List Byte) : (wr s sp a b).cqs = s.cqs := rfl
@[simp] theorem wr_cmds (sp : Space) (a : Nat) (b : List Byte) : (wr s sp a b).cmds = s.cmds := rfl
@[simp] theorem wr_bell (sp : Space) (a : Nat) (b : List Byte) : (wr s sp a b).bell = s.bell := rfl
@[simp] theorem wr_turn (sp : Space) (a : Nat) (b : List Byte) : (wr s sp a b).turn = s.turn := rfl
@[simp] theorem wr_lastTurn (sp : Space) (a : Nat) (b : List Byte) : (wr s sp a b).lastTurn = s.lastTurn := rfl
@[simp] theorem wr_rolls (sp : Space) (a : Nat) (b : List Byte) : (wr s sp a b).rolls = s.rolls := rfl
@[simp] theorem wr_streams (sp : Space) (a : Nat) (b : List Byte) : (wr s sp a b).streams = s.streams := rfl
@[simp] theorem wr_links (sp : Space) (a : Nat) (b : List Byte) : (wr s sp a b).links = s.links := rfl
@[simp] theorem wr_tags (sp : Space) (a : Nat) (b : List Byte) : (wr s sp a b).tags = s.tags := rfl
@[simp] theorem wr_gens (sp : Space) (a : Nat) (b : List Byte) : (wr s sp a b).gens = s.gens := rfl
@[simp] theorem wr_fabs (sp : Space) (a : Nat) (b : List Byte) : (wr s sp a b).fabs = s.fabs := rfl
@[simp] theorem wr_cgroups (sp : Space) (a : Nat) (b : List Byte) : (wr s sp a b).cgroups = s.cgroups := rfl
@[simp] theorem wr_cruns (sp : Space) (a : Nat) (b : List Byte) : (wr s sp a b).cruns = s.cruns := rfl
@[simp] theorem wr_sess (sp : Space) (a : Nat) (b : List Byte) : (wr s sp a b).sess = s.sess := rfl
@[simp] theorem wr_aligns (sp : Space) (a : Nat) (b : List Byte) : (wr s sp a b).aligns = s.aligns := rfl
@[simp] theorem wr_tts (sp : Space) (a : Nat) (b : List Byte) : (wr s sp a b).tts = s.tts := rfl
@[simp] theorem wr_toccs (sp : Space) (a : Nat) (b : List Byte) : (wr s sp a b).toccs = s.toccs := rfl
@[simp] theorem wr_ttUid (sp : Space) (a : Nat) (b : List Byte) : (wr s sp a b).ttUid = s.ttUid := rfl
@[simp] theorem wr_dicts (sp : Space) (a : Nat) (b : List Byte) : (wr s sp a b).dicts = s.dicts := rfl
@[simp] theorem wr_scl (sp : Space) (a : Nat) (b : List Byte) : (wr s sp a b).scl = s.scl := rfl
@[simp] theorem wr_stop (sp : Space) (a : Nat) (b : List Byte) : (wr s sp a b).stop = s.stop := rfl
@[simp] theorem wr_errLog (sp : Space) (a : Nat) (b : List Byte) : (wr s sp a b).errLog = s.errLog := rfl
@[simp] theorem wr_traces (sp : Space) (a : Nat) (b : List Byte) : (wr s sp a b).traces = s.traces := rfl
@[simp] theorem wr_uresets (sp : Space) (a : Nat) (b : List Byte) : (wr s sp a b).uresets = s.uresets := rfl
@[simp] theorem wr_lastReset (sp : Space) (a : Nat) (b : List Byte) : (wr s sp a b).lastReset = s.lastReset := rfl
@[simp] theorem wr_prtCmd (sp : Space) (a : Nat) (b : List Byte) : (wr s sp a b).prtCmd = s.prtCmd := rfl
@[simp] theorem wr_mbxq (sp : Space) (a : Nat) (b : List Byte) : (wr s sp a b).mbxq = s.mbxq := rfl
@[simp] theorem wr_power (sp : Space) (a : Nat) (b : List Byte) : (wr s sp a b).power = s.power := rfl
@[simp] theorem wr_jnl (sp : Space) (a : Nat) (b : List Byte) : (wr s sp a b).jnl = s.jnl := rfl
@[simp] theorem wr_kImg (sp : Space) (a : Nat) (b : List Byte) : (wr s sp a b).kImg = s.kImg := rfl
@[simp] theorem wr_uImg (sp : Space) (a : Nat) (b : List Byte) : (wr s sp a b).uImg = s.uImg := rfl
@[simp] theorem wr_heldRec (sp : Space) (a : Nat) (b : List Byte) : (wr s sp a b).heldRec = s.heldRec := rfl
@[simp] theorem wr_fuses (sp : Space) (a : Nat) (b : List Byte) : (wr s sp a b).fuses = s.fuses := rfl
@[simp] theorem wr_trained (sp : Space) (a : Nat) (b : List Byte) : (wr s sp a b).trained = s.trained := rfl
@[simp] theorem wr_sblk (sp : Space) (a : Nat) (b : List Byte) : (wr s sp a b).sblk = s.sblk := rfl
@[simp] theorem wr_i3c (sp : Space) (a : Nat) (b : List Byte) : (wr s sp a b).i3c = s.i3c := rfl
@[simp] theorem wr_jtag (sp : Space) (a : Nat) (b : List Byte) : (wr s sp a b).jtag = s.jtag := rfl
@[simp] theorem wr_perst (sp : Space) (a : Nat) (b : List Byte) : (wr s sp a b).perst = s.perst := rfl
@[simp] theorem wr_pcieUp (sp : Space) (a : Nat) (b : List Byte) : (wr s sp a b).pcieUp = s.pcieUp := rfl
@[simp] theorem wr_msixHeld (sp : Space) (a : Nat) (b : List Byte) : (wr s sp a b).msixHeld = s.msixHeld := rfl

/-! ### cellPut -/

@[simp] theorem cellPut_pending (c : Nat) (x : Cell) : (cellPut s c x).pending = s.pending := rfl
@[simp] theorem cellPut_now (c : Nat) (x : Cell) : (cellPut s c x).now = s.now := rfl
@[simp] theorem cellPut_free (c : Nat) (x : Cell) : (cellPut s c x).free = s.free := rfl
@[simp] theorem cellPut_mems (c : Nat) (x : Cell) : (cellPut s c x).mems = s.mems := rfl
@[simp] theorem cellPut_regs (c : Nat) (x : Cell) : (cellPut s c x).regs = s.regs := rfl
@[simp] theorem cellPut_disarmed (c : Nat) (x : Cell) : (cellPut s c x).disarmed = s.disarmed := rfl
@[simp] theorem cellPut_msix (c : Nat) (x : Cell) : (cellPut s c x).msix = s.msix := rfl
@[simp] theorem cellPut_mcast (c : Nat) (x : Cell) : (cellPut s c x).mcast = s.mcast := rfl
@[simp] theorem cellPut_barriers (c : Nat) (x : Cell) : (cellPut s c x).barriers = s.barriers := rfl
@[simp] theorem cellPut_splits (c : Nat) (x : Cell) : (cellPut s c x).splits = s.splits := rfl
@[simp] theorem cellPut_parts (c : Nat) (x : Cell) : (cellPut s c x).parts = s.parts := rfl
@[simp] theorem cellPut_cache (c : Nat) (x : Cell) : (cellPut s c x).cache = s.cache := rfl
@[simp] theorem cellPut_fills (c : Nat) (x : Cell) : (cellPut s c x).fills = s.fills := rfl
@[simp] theorem cellPut_hbmq (c : Nat) (x : Cell) : (cellPut s c x).hbmq = s.hbmq := rfl
@[simp] theorem cellPut_wins (c : Nat) (x : Cell) : (cellPut s c x).wins = s.wins := rfl
@[simp] theorem cellPut_credit (c : Nat) (x : Cell) : (cellPut s c x).credit = s.credit := rfl
@[simp] theorem cellPut_bargeSeq (c : Nat) (x : Cell) : (cellPut s c x).bargeSeq = s.bargeSeq := rfl
@[simp] theorem cellPut_bargeWait (c : Nat) (x : Cell) : (cellPut s c x).bargeWait = s.bargeWait := rfl
@[simp] theorem cellPut_barges (c : Nat) (x : Cell) : (cellPut s c x).barges = s.barges := rfl
@[simp] theorem cellPut_engineLast (c : Nat) (x : Cell) : (cellPut s c x).engineLast = s.engineLast := rfl
@[simp] theorem cellPut_locks (c : Nat) (x : Cell) : (cellPut s c x).locks = s.locks := rfl
@[simp] theorem cellPut_bargeNotices (c : Nat) (x : Cell) : (cellPut s c x).bargeNotices = s.bargeNotices := rfl
@[simp] theorem cellPut_gsuLast (c : Nat) (x : Cell) : (cellPut s c x).gsuLast = s.gsuLast := rfl
@[simp] theorem cellPut_stepping (c : Nat) (x : Cell) : (cellPut s c x).stepping = s.stepping := rfl
@[simp] theorem cellPut_throttle (c : Nat) (x : Cell) : (cellPut s c x).throttle = s.throttle := rfl
@[simp] theorem cellPut_notices (c : Nat) (x : Cell) : (cellPut s c x).notices = s.notices := rfl
@[simp] theorem cellPut_faults (c : Nat) (x : Cell) : (cellPut s c x).faults = s.faults := rfl
@[simp] theorem cellPut_sclTime (c : Nat) (x : Cell) : (cellPut s c x).sclTime = s.sclTime := rfl
@[simp] theorem cellPut_dark (c : Nat) (x : Cell) : (cellPut s c x).dark = s.dark := rfl
@[simp] theorem cellPut_resp (c : Nat) (x : Cell) : (cellPut s c x).resp = s.resp := rfl
@[simp] theorem cellPut_latch (c : Nat) (x : Cell) : (cellPut s c x).latch = s.latch := rfl
@[simp] theorem cellPut_staging (c : Nat) (x : Cell) : (cellPut s c x).staging = s.staging := rfl
@[simp] theorem cellPut_cold (c : Nat) (x : Cell) : (cellPut s c x).cold = s.cold := rfl
@[simp] theorem cellPut_sqs (c : Nat) (x : Cell) : (cellPut s c x).sqs = s.sqs := rfl
@[simp] theorem cellPut_cqs (c : Nat) (x : Cell) : (cellPut s c x).cqs = s.cqs := rfl
@[simp] theorem cellPut_cmds (c : Nat) (x : Cell) : (cellPut s c x).cmds = s.cmds := rfl
@[simp] theorem cellPut_bell (c : Nat) (x : Cell) : (cellPut s c x).bell = s.bell := rfl
@[simp] theorem cellPut_turn (c : Nat) (x : Cell) : (cellPut s c x).turn = s.turn := rfl
@[simp] theorem cellPut_lastTurn (c : Nat) (x : Cell) : (cellPut s c x).lastTurn = s.lastTurn := rfl
@[simp] theorem cellPut_rolls (c : Nat) (x : Cell) : (cellPut s c x).rolls = s.rolls := rfl
@[simp] theorem cellPut_streams (c : Nat) (x : Cell) : (cellPut s c x).streams = s.streams := rfl
@[simp] theorem cellPut_links (c : Nat) (x : Cell) : (cellPut s c x).links = s.links := rfl
@[simp] theorem cellPut_tags (c : Nat) (x : Cell) : (cellPut s c x).tags = s.tags := rfl
@[simp] theorem cellPut_gens (c : Nat) (x : Cell) : (cellPut s c x).gens = s.gens := rfl
@[simp] theorem cellPut_fabs (c : Nat) (x : Cell) : (cellPut s c x).fabs = s.fabs := rfl
@[simp] theorem cellPut_cgroups (c : Nat) (x : Cell) : (cellPut s c x).cgroups = s.cgroups := rfl
@[simp] theorem cellPut_cruns (c : Nat) (x : Cell) : (cellPut s c x).cruns = s.cruns := rfl
@[simp] theorem cellPut_sess (c : Nat) (x : Cell) : (cellPut s c x).sess = s.sess := rfl
@[simp] theorem cellPut_aligns (c : Nat) (x : Cell) : (cellPut s c x).aligns = s.aligns := rfl
@[simp] theorem cellPut_tts (c : Nat) (x : Cell) : (cellPut s c x).tts = s.tts := rfl
@[simp] theorem cellPut_toccs (c : Nat) (x : Cell) : (cellPut s c x).toccs = s.toccs := rfl
@[simp] theorem cellPut_ttUid (c : Nat) (x : Cell) : (cellPut s c x).ttUid = s.ttUid := rfl
@[simp] theorem cellPut_dicts (c : Nat) (x : Cell) : (cellPut s c x).dicts = s.dicts := rfl
@[simp] theorem cellPut_scl (c : Nat) (x : Cell) : (cellPut s c x).scl = s.scl := rfl
@[simp] theorem cellPut_stop (c : Nat) (x : Cell) : (cellPut s c x).stop = s.stop := rfl
@[simp] theorem cellPut_errLog (c : Nat) (x : Cell) : (cellPut s c x).errLog = s.errLog := rfl
@[simp] theorem cellPut_traces (c : Nat) (x : Cell) : (cellPut s c x).traces = s.traces := rfl
@[simp] theorem cellPut_uresets (c : Nat) (x : Cell) : (cellPut s c x).uresets = s.uresets := rfl
@[simp] theorem cellPut_lastReset (c : Nat) (x : Cell) : (cellPut s c x).lastReset = s.lastReset := rfl
@[simp] theorem cellPut_prtCmd (c : Nat) (x : Cell) : (cellPut s c x).prtCmd = s.prtCmd := rfl
@[simp] theorem cellPut_mbxq (c : Nat) (x : Cell) : (cellPut s c x).mbxq = s.mbxq := rfl
@[simp] theorem cellPut_power (c : Nat) (x : Cell) : (cellPut s c x).power = s.power := rfl
@[simp] theorem cellPut_jnl (c : Nat) (x : Cell) : (cellPut s c x).jnl = s.jnl := rfl
@[simp] theorem cellPut_kImg (c : Nat) (x : Cell) : (cellPut s c x).kImg = s.kImg := rfl
@[simp] theorem cellPut_uImg (c : Nat) (x : Cell) : (cellPut s c x).uImg = s.uImg := rfl
@[simp] theorem cellPut_heldRec (c : Nat) (x : Cell) : (cellPut s c x).heldRec = s.heldRec := rfl
@[simp] theorem cellPut_fuses (c : Nat) (x : Cell) : (cellPut s c x).fuses = s.fuses := rfl
@[simp] theorem cellPut_trained (c : Nat) (x : Cell) : (cellPut s c x).trained = s.trained := rfl
@[simp] theorem cellPut_sblk (c : Nat) (x : Cell) : (cellPut s c x).sblk = s.sblk := rfl
@[simp] theorem cellPut_i3c (c : Nat) (x : Cell) : (cellPut s c x).i3c = s.i3c := rfl
@[simp] theorem cellPut_jtag (c : Nat) (x : Cell) : (cellPut s c x).jtag = s.jtag := rfl
@[simp] theorem cellPut_perst (c : Nat) (x : Cell) : (cellPut s c x).perst = s.perst := rfl
@[simp] theorem cellPut_pcieUp (c : Nat) (x : Cell) : (cellPut s c x).pcieUp = s.pcieUp := rfl
@[simp] theorem cellPut_msixHeld (c : Nat) (x : Cell) : (cellPut s c x).msixHeld = s.msixHeld := rfl

/-! ### partPut -/

@[simp] theorem partPut_pending (p : Nat) (x : Part) : (partPut s p x).pending = s.pending := rfl
@[simp] theorem partPut_now (p : Nat) (x : Part) : (partPut s p x).now = s.now := rfl
@[simp] theorem partPut_free (p : Nat) (x : Part) : (partPut s p x).free = s.free := rfl
@[simp] theorem partPut_mems (p : Nat) (x : Part) : (partPut s p x).mems = s.mems := rfl
@[simp] theorem partPut_regs (p : Nat) (x : Part) : (partPut s p x).regs = s.regs := rfl
@[simp] theorem partPut_disarmed (p : Nat) (x : Part) : (partPut s p x).disarmed = s.disarmed := rfl
@[simp] theorem partPut_msix (p : Nat) (x : Part) : (partPut s p x).msix = s.msix := rfl
@[simp] theorem partPut_cells (p : Nat) (x : Part) : (partPut s p x).cells = s.cells := rfl
@[simp] theorem partPut_mcast (p : Nat) (x : Part) : (partPut s p x).mcast = s.mcast := rfl
@[simp] theorem partPut_barriers (p : Nat) (x : Part) : (partPut s p x).barriers = s.barriers := rfl
@[simp] theorem partPut_splits (p : Nat) (x : Part) : (partPut s p x).splits = s.splits := rfl
@[simp] theorem partPut_cache (p : Nat) (x : Part) : (partPut s p x).cache = s.cache := rfl
@[simp] theorem partPut_fills (p : Nat) (x : Part) : (partPut s p x).fills = s.fills := rfl
@[simp] theorem partPut_hbmq (p : Nat) (x : Part) : (partPut s p x).hbmq = s.hbmq := rfl
@[simp] theorem partPut_wins (p : Nat) (x : Part) : (partPut s p x).wins = s.wins := rfl
@[simp] theorem partPut_credit (p : Nat) (x : Part) : (partPut s p x).credit = s.credit := rfl
@[simp] theorem partPut_bargeSeq (p : Nat) (x : Part) : (partPut s p x).bargeSeq = s.bargeSeq := rfl
@[simp] theorem partPut_bargeWait (p : Nat) (x : Part) : (partPut s p x).bargeWait = s.bargeWait := rfl
@[simp] theorem partPut_barges (p : Nat) (x : Part) : (partPut s p x).barges = s.barges := rfl
@[simp] theorem partPut_engineLast (p : Nat) (x : Part) : (partPut s p x).engineLast = s.engineLast := rfl
@[simp] theorem partPut_locks (p : Nat) (x : Part) : (partPut s p x).locks = s.locks := rfl
@[simp] theorem partPut_bargeNotices (p : Nat) (x : Part) : (partPut s p x).bargeNotices = s.bargeNotices := rfl
@[simp] theorem partPut_gsuLast (p : Nat) (x : Part) : (partPut s p x).gsuLast = s.gsuLast := rfl
@[simp] theorem partPut_stepping (p : Nat) (x : Part) : (partPut s p x).stepping = s.stepping := rfl
@[simp] theorem partPut_throttle (p : Nat) (x : Part) : (partPut s p x).throttle = s.throttle := rfl
@[simp] theorem partPut_notices (p : Nat) (x : Part) : (partPut s p x).notices = s.notices := rfl
@[simp] theorem partPut_faults (p : Nat) (x : Part) : (partPut s p x).faults = s.faults := rfl
@[simp] theorem partPut_sclTime (p : Nat) (x : Part) : (partPut s p x).sclTime = s.sclTime := rfl
@[simp] theorem partPut_dark (p : Nat) (x : Part) : (partPut s p x).dark = s.dark := rfl
@[simp] theorem partPut_resp (p : Nat) (x : Part) : (partPut s p x).resp = s.resp := rfl
@[simp] theorem partPut_latch (p : Nat) (x : Part) : (partPut s p x).latch = s.latch := rfl
@[simp] theorem partPut_staging (p : Nat) (x : Part) : (partPut s p x).staging = s.staging := rfl
@[simp] theorem partPut_cold (p : Nat) (x : Part) : (partPut s p x).cold = s.cold := rfl
@[simp] theorem partPut_sqs (p : Nat) (x : Part) : (partPut s p x).sqs = s.sqs := rfl
@[simp] theorem partPut_cqs (p : Nat) (x : Part) : (partPut s p x).cqs = s.cqs := rfl
@[simp] theorem partPut_cmds (p : Nat) (x : Part) : (partPut s p x).cmds = s.cmds := rfl
@[simp] theorem partPut_bell (p : Nat) (x : Part) : (partPut s p x).bell = s.bell := rfl
@[simp] theorem partPut_turn (p : Nat) (x : Part) : (partPut s p x).turn = s.turn := rfl
@[simp] theorem partPut_lastTurn (p : Nat) (x : Part) : (partPut s p x).lastTurn = s.lastTurn := rfl
@[simp] theorem partPut_rolls (p : Nat) (x : Part) : (partPut s p x).rolls = s.rolls := rfl
@[simp] theorem partPut_streams (p : Nat) (x : Part) : (partPut s p x).streams = s.streams := rfl
@[simp] theorem partPut_links (p : Nat) (x : Part) : (partPut s p x).links = s.links := rfl
@[simp] theorem partPut_tags (p : Nat) (x : Part) : (partPut s p x).tags = s.tags := rfl
@[simp] theorem partPut_gens (p : Nat) (x : Part) : (partPut s p x).gens = s.gens := rfl
@[simp] theorem partPut_fabs (p : Nat) (x : Part) : (partPut s p x).fabs = s.fabs := rfl
@[simp] theorem partPut_cgroups (p : Nat) (x : Part) : (partPut s p x).cgroups = s.cgroups := rfl
@[simp] theorem partPut_cruns (p : Nat) (x : Part) : (partPut s p x).cruns = s.cruns := rfl
@[simp] theorem partPut_sess (p : Nat) (x : Part) : (partPut s p x).sess = s.sess := rfl
@[simp] theorem partPut_aligns (p : Nat) (x : Part) : (partPut s p x).aligns = s.aligns := rfl
@[simp] theorem partPut_tts (p : Nat) (x : Part) : (partPut s p x).tts = s.tts := rfl
@[simp] theorem partPut_toccs (p : Nat) (x : Part) : (partPut s p x).toccs = s.toccs := rfl
@[simp] theorem partPut_ttUid (p : Nat) (x : Part) : (partPut s p x).ttUid = s.ttUid := rfl
@[simp] theorem partPut_dicts (p : Nat) (x : Part) : (partPut s p x).dicts = s.dicts := rfl
@[simp] theorem partPut_scl (p : Nat) (x : Part) : (partPut s p x).scl = s.scl := rfl
@[simp] theorem partPut_stop (p : Nat) (x : Part) : (partPut s p x).stop = s.stop := rfl
@[simp] theorem partPut_errLog (p : Nat) (x : Part) : (partPut s p x).errLog = s.errLog := rfl
@[simp] theorem partPut_traces (p : Nat) (x : Part) : (partPut s p x).traces = s.traces := rfl
@[simp] theorem partPut_uresets (p : Nat) (x : Part) : (partPut s p x).uresets = s.uresets := rfl
@[simp] theorem partPut_lastReset (p : Nat) (x : Part) : (partPut s p x).lastReset = s.lastReset := rfl
@[simp] theorem partPut_prtCmd (p : Nat) (x : Part) : (partPut s p x).prtCmd = s.prtCmd := rfl
@[simp] theorem partPut_mbxq (p : Nat) (x : Part) : (partPut s p x).mbxq = s.mbxq := rfl
@[simp] theorem partPut_power (p : Nat) (x : Part) : (partPut s p x).power = s.power := rfl
@[simp] theorem partPut_jnl (p : Nat) (x : Part) : (partPut s p x).jnl = s.jnl := rfl
@[simp] theorem partPut_kImg (p : Nat) (x : Part) : (partPut s p x).kImg = s.kImg := rfl
@[simp] theorem partPut_uImg (p : Nat) (x : Part) : (partPut s p x).uImg = s.uImg := rfl
@[simp] theorem partPut_heldRec (p : Nat) (x : Part) : (partPut s p x).heldRec = s.heldRec := rfl
@[simp] theorem partPut_fuses (p : Nat) (x : Part) : (partPut s p x).fuses = s.fuses := rfl
@[simp] theorem partPut_trained (p : Nat) (x : Part) : (partPut s p x).trained = s.trained := rfl
@[simp] theorem partPut_sblk (p : Nat) (x : Part) : (partPut s p x).sblk = s.sblk := rfl
@[simp] theorem partPut_i3c (p : Nat) (x : Part) : (partPut s p x).i3c = s.i3c := rfl
@[simp] theorem partPut_jtag (p : Nat) (x : Part) : (partPut s p x).jtag = s.jtag := rfl
@[simp] theorem partPut_perst (p : Nat) (x : Part) : (partPut s p x).perst = s.perst := rfl
@[simp] theorem partPut_pcieUp (p : Nat) (x : Part) : (partPut s p x).pcieUp = s.pcieUp := rfl
@[simp] theorem partPut_msixHeld (p : Nat) (x : Part) : (partPut s p x).msixHeld = s.msixHeld := rfl

/-! ### armCapture -/

@[simp] theorem armCapture_pending (pg : Nat) : (armCapture s pg).pending = s.pending := rfl
@[simp] theorem armCapture_now (pg : Nat) : (armCapture s pg).now = s.now := rfl
@[simp] theorem armCapture_free (pg : Nat) : (armCapture s pg).free = s.free := rfl
@[simp] theorem armCapture_mems (pg : Nat) : (armCapture s pg).mems = s.mems := rfl
@[simp] theorem armCapture_regs (pg : Nat) : (armCapture s pg).regs = s.regs := rfl
@[simp] theorem armCapture_msix (pg : Nat) : (armCapture s pg).msix = s.msix := rfl
@[simp] theorem armCapture_cells (pg : Nat) : (armCapture s pg).cells = s.cells := rfl
@[simp] theorem armCapture_mcast (pg : Nat) : (armCapture s pg).mcast = s.mcast := rfl
@[simp] theorem armCapture_barriers (pg : Nat) : (armCapture s pg).barriers = s.barriers := rfl
@[simp] theorem armCapture_splits (pg : Nat) : (armCapture s pg).splits = s.splits := rfl
@[simp] theorem armCapture_parts (pg : Nat) : (armCapture s pg).parts = s.parts := rfl
@[simp] theorem armCapture_cache (pg : Nat) : (armCapture s pg).cache = s.cache := rfl
@[simp] theorem armCapture_fills (pg : Nat) : (armCapture s pg).fills = s.fills := rfl
@[simp] theorem armCapture_hbmq (pg : Nat) : (armCapture s pg).hbmq = s.hbmq := rfl
@[simp] theorem armCapture_wins (pg : Nat) : (armCapture s pg).wins = s.wins := rfl
@[simp] theorem armCapture_credit (pg : Nat) : (armCapture s pg).credit = s.credit := rfl
@[simp] theorem armCapture_bargeSeq (pg : Nat) : (armCapture s pg).bargeSeq = s.bargeSeq := rfl
@[simp] theorem armCapture_bargeWait (pg : Nat) : (armCapture s pg).bargeWait = s.bargeWait := rfl
@[simp] theorem armCapture_barges (pg : Nat) : (armCapture s pg).barges = s.barges := rfl
@[simp] theorem armCapture_engineLast (pg : Nat) : (armCapture s pg).engineLast = s.engineLast := rfl
@[simp] theorem armCapture_locks (pg : Nat) : (armCapture s pg).locks = s.locks := rfl
@[simp] theorem armCapture_bargeNotices (pg : Nat) : (armCapture s pg).bargeNotices = s.bargeNotices := rfl
@[simp] theorem armCapture_gsuLast (pg : Nat) : (armCapture s pg).gsuLast = s.gsuLast := rfl
@[simp] theorem armCapture_stepping (pg : Nat) : (armCapture s pg).stepping = s.stepping := rfl
@[simp] theorem armCapture_throttle (pg : Nat) : (armCapture s pg).throttle = s.throttle := rfl
@[simp] theorem armCapture_notices (pg : Nat) : (armCapture s pg).notices = s.notices := rfl
@[simp] theorem armCapture_faults (pg : Nat) : (armCapture s pg).faults = s.faults := rfl
@[simp] theorem armCapture_sclTime (pg : Nat) : (armCapture s pg).sclTime = s.sclTime := rfl
@[simp] theorem armCapture_dark (pg : Nat) : (armCapture s pg).dark = s.dark := rfl
@[simp] theorem armCapture_resp (pg : Nat) : (armCapture s pg).resp = s.resp := rfl
@[simp] theorem armCapture_latch (pg : Nat) : (armCapture s pg).latch = s.latch := rfl
@[simp] theorem armCapture_staging (pg : Nat) : (armCapture s pg).staging = s.staging := rfl
@[simp] theorem armCapture_cold (pg : Nat) : (armCapture s pg).cold = s.cold := rfl
@[simp] theorem armCapture_sqs (pg : Nat) : (armCapture s pg).sqs = s.sqs := rfl
@[simp] theorem armCapture_cqs (pg : Nat) : (armCapture s pg).cqs = s.cqs := rfl
@[simp] theorem armCapture_cmds (pg : Nat) : (armCapture s pg).cmds = s.cmds := rfl
@[simp] theorem armCapture_bell (pg : Nat) : (armCapture s pg).bell = s.bell := rfl
@[simp] theorem armCapture_turn (pg : Nat) : (armCapture s pg).turn = s.turn := rfl
@[simp] theorem armCapture_lastTurn (pg : Nat) : (armCapture s pg).lastTurn = s.lastTurn := rfl
@[simp] theorem armCapture_rolls (pg : Nat) : (armCapture s pg).rolls = s.rolls := rfl
@[simp] theorem armCapture_streams (pg : Nat) : (armCapture s pg).streams = s.streams := rfl
@[simp] theorem armCapture_links (pg : Nat) : (armCapture s pg).links = s.links := rfl
@[simp] theorem armCapture_tags (pg : Nat) : (armCapture s pg).tags = s.tags := rfl
@[simp] theorem armCapture_gens (pg : Nat) : (armCapture s pg).gens = s.gens := rfl
@[simp] theorem armCapture_fabs (pg : Nat) : (armCapture s pg).fabs = s.fabs := rfl
@[simp] theorem armCapture_cgroups (pg : Nat) : (armCapture s pg).cgroups = s.cgroups := rfl
@[simp] theorem armCapture_cruns (pg : Nat) : (armCapture s pg).cruns = s.cruns := rfl
@[simp] theorem armCapture_sess (pg : Nat) : (armCapture s pg).sess = s.sess := rfl
@[simp] theorem armCapture_aligns (pg : Nat) : (armCapture s pg).aligns = s.aligns := rfl
@[simp] theorem armCapture_tts (pg : Nat) : (armCapture s pg).tts = s.tts := rfl
@[simp] theorem armCapture_toccs (pg : Nat) : (armCapture s pg).toccs = s.toccs := rfl
@[simp] theorem armCapture_ttUid (pg : Nat) : (armCapture s pg).ttUid = s.ttUid := rfl
@[simp] theorem armCapture_dicts (pg : Nat) : (armCapture s pg).dicts = s.dicts := rfl
@[simp] theorem armCapture_scl (pg : Nat) : (armCapture s pg).scl = s.scl := rfl
@[simp] theorem armCapture_stop (pg : Nat) : (armCapture s pg).stop = s.stop := rfl
@[simp] theorem armCapture_errLog (pg : Nat) : (armCapture s pg).errLog = s.errLog := rfl
@[simp] theorem armCapture_traces (pg : Nat) : (armCapture s pg).traces = s.traces := rfl
@[simp] theorem armCapture_uresets (pg : Nat) : (armCapture s pg).uresets = s.uresets := rfl
@[simp] theorem armCapture_lastReset (pg : Nat) : (armCapture s pg).lastReset = s.lastReset := rfl
@[simp] theorem armCapture_prtCmd (pg : Nat) : (armCapture s pg).prtCmd = s.prtCmd := rfl
@[simp] theorem armCapture_mbxq (pg : Nat) : (armCapture s pg).mbxq = s.mbxq := rfl
@[simp] theorem armCapture_power (pg : Nat) : (armCapture s pg).power = s.power := rfl
@[simp] theorem armCapture_jnl (pg : Nat) : (armCapture s pg).jnl = s.jnl := rfl
@[simp] theorem armCapture_kImg (pg : Nat) : (armCapture s pg).kImg = s.kImg := rfl
@[simp] theorem armCapture_uImg (pg : Nat) : (armCapture s pg).uImg = s.uImg := rfl
@[simp] theorem armCapture_heldRec (pg : Nat) : (armCapture s pg).heldRec = s.heldRec := rfl
@[simp] theorem armCapture_fuses (pg : Nat) : (armCapture s pg).fuses = s.fuses := rfl
@[simp] theorem armCapture_trained (pg : Nat) : (armCapture s pg).trained = s.trained := rfl
@[simp] theorem armCapture_sblk (pg : Nat) : (armCapture s pg).sblk = s.sblk := rfl
@[simp] theorem armCapture_i3c (pg : Nat) : (armCapture s pg).i3c = s.i3c := rfl
@[simp] theorem armCapture_jtag (pg : Nat) : (armCapture s pg).jtag = s.jtag := rfl
@[simp] theorem armCapture_perst (pg : Nat) : (armCapture s pg).perst = s.perst := rfl
@[simp] theorem armCapture_pcieUp (pg : Nat) : (armCapture s pg).pcieUp = s.pcieUp := rfl
@[simp] theorem armCapture_msixHeld (pg : Nat) : (armCapture s pg).msixHeld = s.msixHeld := rfl

/-! ### regsClear -/

@[simp] theorem regsClear_pending (lo hi : Nat) : (regsClear s lo hi).pending = s.pending := rfl
@[simp] theorem regsClear_now (lo hi : Nat) : (regsClear s lo hi).now = s.now := rfl
@[simp] theorem regsClear_free (lo hi : Nat) : (regsClear s lo hi).free = s.free := rfl
@[simp] theorem regsClear_mems (lo hi : Nat) : (regsClear s lo hi).mems = s.mems := rfl
@[simp] theorem regsClear_msix (lo hi : Nat) : (regsClear s lo hi).msix = s.msix := rfl
@[simp] theorem regsClear_cells (lo hi : Nat) : (regsClear s lo hi).cells = s.cells := rfl
@[simp] theorem regsClear_mcast (lo hi : Nat) : (regsClear s lo hi).mcast = s.mcast := rfl
@[simp] theorem regsClear_barriers (lo hi : Nat) : (regsClear s lo hi).barriers = s.barriers := rfl
@[simp] theorem regsClear_splits (lo hi : Nat) : (regsClear s lo hi).splits = s.splits := rfl
@[simp] theorem regsClear_parts (lo hi : Nat) : (regsClear s lo hi).parts = s.parts := rfl
@[simp] theorem regsClear_cache (lo hi : Nat) : (regsClear s lo hi).cache = s.cache := rfl
@[simp] theorem regsClear_fills (lo hi : Nat) : (regsClear s lo hi).fills = s.fills := rfl
@[simp] theorem regsClear_hbmq (lo hi : Nat) : (regsClear s lo hi).hbmq = s.hbmq := rfl
@[simp] theorem regsClear_wins (lo hi : Nat) : (regsClear s lo hi).wins = s.wins := rfl
@[simp] theorem regsClear_credit (lo hi : Nat) : (regsClear s lo hi).credit = s.credit := rfl
@[simp] theorem regsClear_bargeSeq (lo hi : Nat) : (regsClear s lo hi).bargeSeq = s.bargeSeq := rfl
@[simp] theorem regsClear_bargeWait (lo hi : Nat) : (regsClear s lo hi).bargeWait = s.bargeWait := rfl
@[simp] theorem regsClear_barges (lo hi : Nat) : (regsClear s lo hi).barges = s.barges := rfl
@[simp] theorem regsClear_engineLast (lo hi : Nat) : (regsClear s lo hi).engineLast = s.engineLast := rfl
@[simp] theorem regsClear_locks (lo hi : Nat) : (regsClear s lo hi).locks = s.locks := rfl
@[simp] theorem regsClear_bargeNotices (lo hi : Nat) : (regsClear s lo hi).bargeNotices = s.bargeNotices := rfl
@[simp] theorem regsClear_gsuLast (lo hi : Nat) : (regsClear s lo hi).gsuLast = s.gsuLast := rfl
@[simp] theorem regsClear_stepping (lo hi : Nat) : (regsClear s lo hi).stepping = s.stepping := rfl
@[simp] theorem regsClear_throttle (lo hi : Nat) : (regsClear s lo hi).throttle = s.throttle := rfl
@[simp] theorem regsClear_notices (lo hi : Nat) : (regsClear s lo hi).notices = s.notices := rfl
@[simp] theorem regsClear_faults (lo hi : Nat) : (regsClear s lo hi).faults = s.faults := rfl
@[simp] theorem regsClear_sclTime (lo hi : Nat) : (regsClear s lo hi).sclTime = s.sclTime := rfl
@[simp] theorem regsClear_dark (lo hi : Nat) : (regsClear s lo hi).dark = s.dark := rfl
@[simp] theorem regsClear_resp (lo hi : Nat) : (regsClear s lo hi).resp = s.resp := rfl
@[simp] theorem regsClear_latch (lo hi : Nat) : (regsClear s lo hi).latch = s.latch := rfl
@[simp] theorem regsClear_staging (lo hi : Nat) : (regsClear s lo hi).staging = s.staging := rfl
@[simp] theorem regsClear_cold (lo hi : Nat) : (regsClear s lo hi).cold = s.cold := rfl
@[simp] theorem regsClear_sqs (lo hi : Nat) : (regsClear s lo hi).sqs = s.sqs := rfl
@[simp] theorem regsClear_cqs (lo hi : Nat) : (regsClear s lo hi).cqs = s.cqs := rfl
@[simp] theorem regsClear_cmds (lo hi : Nat) : (regsClear s lo hi).cmds = s.cmds := rfl
@[simp] theorem regsClear_bell (lo hi : Nat) : (regsClear s lo hi).bell = s.bell := rfl
@[simp] theorem regsClear_turn (lo hi : Nat) : (regsClear s lo hi).turn = s.turn := rfl
@[simp] theorem regsClear_lastTurn (lo hi : Nat) : (regsClear s lo hi).lastTurn = s.lastTurn := rfl
@[simp] theorem regsClear_rolls (lo hi : Nat) : (regsClear s lo hi).rolls = s.rolls := rfl
@[simp] theorem regsClear_streams (lo hi : Nat) : (regsClear s lo hi).streams = s.streams := rfl
@[simp] theorem regsClear_links (lo hi : Nat) : (regsClear s lo hi).links = s.links := rfl
@[simp] theorem regsClear_tags (lo hi : Nat) : (regsClear s lo hi).tags = s.tags := rfl
@[simp] theorem regsClear_gens (lo hi : Nat) : (regsClear s lo hi).gens = s.gens := rfl
@[simp] theorem regsClear_fabs (lo hi : Nat) : (regsClear s lo hi).fabs = s.fabs := rfl
@[simp] theorem regsClear_cgroups (lo hi : Nat) : (regsClear s lo hi).cgroups = s.cgroups := rfl
@[simp] theorem regsClear_cruns (lo hi : Nat) : (regsClear s lo hi).cruns = s.cruns := rfl
@[simp] theorem regsClear_sess (lo hi : Nat) : (regsClear s lo hi).sess = s.sess := rfl
@[simp] theorem regsClear_aligns (lo hi : Nat) : (regsClear s lo hi).aligns = s.aligns := rfl
@[simp] theorem regsClear_tts (lo hi : Nat) : (regsClear s lo hi).tts = s.tts := rfl
@[simp] theorem regsClear_toccs (lo hi : Nat) : (regsClear s lo hi).toccs = s.toccs := rfl
@[simp] theorem regsClear_ttUid (lo hi : Nat) : (regsClear s lo hi).ttUid = s.ttUid := rfl
@[simp] theorem regsClear_dicts (lo hi : Nat) : (regsClear s lo hi).dicts = s.dicts := rfl
@[simp] theorem regsClear_scl (lo hi : Nat) : (regsClear s lo hi).scl = s.scl := rfl
@[simp] theorem regsClear_stop (lo hi : Nat) : (regsClear s lo hi).stop = s.stop := rfl
@[simp] theorem regsClear_errLog (lo hi : Nat) : (regsClear s lo hi).errLog = s.errLog := rfl
@[simp] theorem regsClear_traces (lo hi : Nat) : (regsClear s lo hi).traces = s.traces := rfl
@[simp] theorem regsClear_uresets (lo hi : Nat) : (regsClear s lo hi).uresets = s.uresets := rfl
@[simp] theorem regsClear_lastReset (lo hi : Nat) : (regsClear s lo hi).lastReset = s.lastReset := rfl
@[simp] theorem regsClear_prtCmd (lo hi : Nat) : (regsClear s lo hi).prtCmd = s.prtCmd := rfl
@[simp] theorem regsClear_mbxq (lo hi : Nat) : (regsClear s lo hi).mbxq = s.mbxq := rfl
@[simp] theorem regsClear_power (lo hi : Nat) : (regsClear s lo hi).power = s.power := rfl
@[simp] theorem regsClear_jnl (lo hi : Nat) : (regsClear s lo hi).jnl = s.jnl := rfl
@[simp] theorem regsClear_kImg (lo hi : Nat) : (regsClear s lo hi).kImg = s.kImg := rfl
@[simp] theorem regsClear_uImg (lo hi : Nat) : (regsClear s lo hi).uImg = s.uImg := rfl
@[simp] theorem regsClear_heldRec (lo hi : Nat) : (regsClear s lo hi).heldRec = s.heldRec := rfl
@[simp] theorem regsClear_fuses (lo hi : Nat) : (regsClear s lo hi).fuses = s.fuses := rfl
@[simp] theorem regsClear_trained (lo hi : Nat) : (regsClear s lo hi).trained = s.trained := rfl
@[simp] theorem regsClear_sblk (lo hi : Nat) : (regsClear s lo hi).sblk = s.sblk := rfl
@[simp] theorem regsClear_i3c (lo hi : Nat) : (regsClear s lo hi).i3c = s.i3c := rfl
@[simp] theorem regsClear_jtag (lo hi : Nat) : (regsClear s lo hi).jtag = s.jtag := rfl
@[simp] theorem regsClear_perst (lo hi : Nat) : (regsClear s lo hi).perst = s.perst := rfl
@[simp] theorem regsClear_pcieUp (lo hi : Nat) : (regsClear s lo hi).pcieUp = s.pcieUp := rfl
@[simp] theorem regsClear_msixHeld (lo hi : Nat) : (regsClear s lo hi).msixHeld = s.msixHeld := rfl

/-! ### setJr -/

@[simp] theorem setJr_pending (c : Nat) (x : JigRun) : (setJr s c x).pending = s.pending := rfl
@[simp] theorem setJr_now (c : Nat) (x : JigRun) : (setJr s c x).now = s.now := rfl
@[simp] theorem setJr_free (c : Nat) (x : JigRun) : (setJr s c x).free = s.free := rfl
@[simp] theorem setJr_mems (c : Nat) (x : JigRun) : (setJr s c x).mems = s.mems := rfl
@[simp] theorem setJr_regs (c : Nat) (x : JigRun) : (setJr s c x).regs = s.regs := rfl
@[simp] theorem setJr_disarmed (c : Nat) (x : JigRun) : (setJr s c x).disarmed = s.disarmed := rfl
@[simp] theorem setJr_msix (c : Nat) (x : JigRun) : (setJr s c x).msix = s.msix := rfl
@[simp] theorem setJr_mcast (c : Nat) (x : JigRun) : (setJr s c x).mcast = s.mcast := rfl
@[simp] theorem setJr_barriers (c : Nat) (x : JigRun) : (setJr s c x).barriers = s.barriers := rfl
@[simp] theorem setJr_splits (c : Nat) (x : JigRun) : (setJr s c x).splits = s.splits := rfl
@[simp] theorem setJr_parts (c : Nat) (x : JigRun) : (setJr s c x).parts = s.parts := rfl
@[simp] theorem setJr_cache (c : Nat) (x : JigRun) : (setJr s c x).cache = s.cache := rfl
@[simp] theorem setJr_fills (c : Nat) (x : JigRun) : (setJr s c x).fills = s.fills := rfl
@[simp] theorem setJr_hbmq (c : Nat) (x : JigRun) : (setJr s c x).hbmq = s.hbmq := rfl
@[simp] theorem setJr_wins (c : Nat) (x : JigRun) : (setJr s c x).wins = s.wins := rfl
@[simp] theorem setJr_credit (c : Nat) (x : JigRun) : (setJr s c x).credit = s.credit := rfl
@[simp] theorem setJr_bargeSeq (c : Nat) (x : JigRun) : (setJr s c x).bargeSeq = s.bargeSeq := rfl
@[simp] theorem setJr_bargeWait (c : Nat) (x : JigRun) : (setJr s c x).bargeWait = s.bargeWait := rfl
@[simp] theorem setJr_barges (c : Nat) (x : JigRun) : (setJr s c x).barges = s.barges := rfl
@[simp] theorem setJr_engineLast (c : Nat) (x : JigRun) : (setJr s c x).engineLast = s.engineLast := rfl
@[simp] theorem setJr_locks (c : Nat) (x : JigRun) : (setJr s c x).locks = s.locks := rfl
@[simp] theorem setJr_bargeNotices (c : Nat) (x : JigRun) : (setJr s c x).bargeNotices = s.bargeNotices := rfl
@[simp] theorem setJr_gsuLast (c : Nat) (x : JigRun) : (setJr s c x).gsuLast = s.gsuLast := rfl
@[simp] theorem setJr_stepping (c : Nat) (x : JigRun) : (setJr s c x).stepping = s.stepping := rfl
@[simp] theorem setJr_throttle (c : Nat) (x : JigRun) : (setJr s c x).throttle = s.throttle := rfl
@[simp] theorem setJr_notices (c : Nat) (x : JigRun) : (setJr s c x).notices = s.notices := rfl
@[simp] theorem setJr_faults (c : Nat) (x : JigRun) : (setJr s c x).faults = s.faults := rfl
@[simp] theorem setJr_sclTime (c : Nat) (x : JigRun) : (setJr s c x).sclTime = s.sclTime := rfl
@[simp] theorem setJr_dark (c : Nat) (x : JigRun) : (setJr s c x).dark = s.dark := rfl
@[simp] theorem setJr_resp (c : Nat) (x : JigRun) : (setJr s c x).resp = s.resp := rfl
@[simp] theorem setJr_latch (c : Nat) (x : JigRun) : (setJr s c x).latch = s.latch := rfl
@[simp] theorem setJr_staging (c : Nat) (x : JigRun) : (setJr s c x).staging = s.staging := rfl
@[simp] theorem setJr_cold (c : Nat) (x : JigRun) : (setJr s c x).cold = s.cold := rfl
@[simp] theorem setJr_sqs (c : Nat) (x : JigRun) : (setJr s c x).sqs = s.sqs := rfl
@[simp] theorem setJr_cqs (c : Nat) (x : JigRun) : (setJr s c x).cqs = s.cqs := rfl
@[simp] theorem setJr_cmds (c : Nat) (x : JigRun) : (setJr s c x).cmds = s.cmds := rfl
@[simp] theorem setJr_bell (c : Nat) (x : JigRun) : (setJr s c x).bell = s.bell := rfl
@[simp] theorem setJr_turn (c : Nat) (x : JigRun) : (setJr s c x).turn = s.turn := rfl
@[simp] theorem setJr_lastTurn (c : Nat) (x : JigRun) : (setJr s c x).lastTurn = s.lastTurn := rfl
@[simp] theorem setJr_rolls (c : Nat) (x : JigRun) : (setJr s c x).rolls = s.rolls := rfl
@[simp] theorem setJr_streams (c : Nat) (x : JigRun) : (setJr s c x).streams = s.streams := rfl
@[simp] theorem setJr_links (c : Nat) (x : JigRun) : (setJr s c x).links = s.links := rfl
@[simp] theorem setJr_tags (c : Nat) (x : JigRun) : (setJr s c x).tags = s.tags := rfl
@[simp] theorem setJr_gens (c : Nat) (x : JigRun) : (setJr s c x).gens = s.gens := rfl
@[simp] theorem setJr_fabs (c : Nat) (x : JigRun) : (setJr s c x).fabs = s.fabs := rfl
@[simp] theorem setJr_cgroups (c : Nat) (x : JigRun) : (setJr s c x).cgroups = s.cgroups := rfl
@[simp] theorem setJr_cruns (c : Nat) (x : JigRun) : (setJr s c x).cruns = s.cruns := rfl
@[simp] theorem setJr_sess (c : Nat) (x : JigRun) : (setJr s c x).sess = s.sess := rfl
@[simp] theorem setJr_aligns (c : Nat) (x : JigRun) : (setJr s c x).aligns = s.aligns := rfl
@[simp] theorem setJr_tts (c : Nat) (x : JigRun) : (setJr s c x).tts = s.tts := rfl
@[simp] theorem setJr_toccs (c : Nat) (x : JigRun) : (setJr s c x).toccs = s.toccs := rfl
@[simp] theorem setJr_ttUid (c : Nat) (x : JigRun) : (setJr s c x).ttUid = s.ttUid := rfl
@[simp] theorem setJr_dicts (c : Nat) (x : JigRun) : (setJr s c x).dicts = s.dicts := rfl
@[simp] theorem setJr_scl (c : Nat) (x : JigRun) : (setJr s c x).scl = s.scl := rfl
@[simp] theorem setJr_stop (c : Nat) (x : JigRun) : (setJr s c x).stop = s.stop := rfl
@[simp] theorem setJr_errLog (c : Nat) (x : JigRun) : (setJr s c x).errLog = s.errLog := rfl
@[simp] theorem setJr_traces (c : Nat) (x : JigRun) : (setJr s c x).traces = s.traces := rfl
@[simp] theorem setJr_uresets (c : Nat) (x : JigRun) : (setJr s c x).uresets = s.uresets := rfl
@[simp] theorem setJr_lastReset (c : Nat) (x : JigRun) : (setJr s c x).lastReset = s.lastReset := rfl
@[simp] theorem setJr_prtCmd (c : Nat) (x : JigRun) : (setJr s c x).prtCmd = s.prtCmd := rfl
@[simp] theorem setJr_mbxq (c : Nat) (x : JigRun) : (setJr s c x).mbxq = s.mbxq := rfl
@[simp] theorem setJr_power (c : Nat) (x : JigRun) : (setJr s c x).power = s.power := rfl
@[simp] theorem setJr_jnl (c : Nat) (x : JigRun) : (setJr s c x).jnl = s.jnl := rfl
@[simp] theorem setJr_kImg (c : Nat) (x : JigRun) : (setJr s c x).kImg = s.kImg := rfl
@[simp] theorem setJr_uImg (c : Nat) (x : JigRun) : (setJr s c x).uImg = s.uImg := rfl
@[simp] theorem setJr_heldRec (c : Nat) (x : JigRun) : (setJr s c x).heldRec = s.heldRec := rfl
@[simp] theorem setJr_fuses (c : Nat) (x : JigRun) : (setJr s c x).fuses = s.fuses := rfl
@[simp] theorem setJr_trained (c : Nat) (x : JigRun) : (setJr s c x).trained = s.trained := rfl
@[simp] theorem setJr_sblk (c : Nat) (x : JigRun) : (setJr s c x).sblk = s.sblk := rfl
@[simp] theorem setJr_i3c (c : Nat) (x : JigRun) : (setJr s c x).i3c = s.i3c := rfl
@[simp] theorem setJr_jtag (c : Nat) (x : JigRun) : (setJr s c x).jtag = s.jtag := rfl
@[simp] theorem setJr_perst (c : Nat) (x : JigRun) : (setJr s c x).perst = s.perst := rfl
@[simp] theorem setJr_pcieUp (c : Nat) (x : JigRun) : (setJr s c x).pcieUp = s.pcieUp := rfl
@[simp] theorem setJr_msixHeld (c : Nat) (x : JigRun) : (setJr s c x).msixHeld = s.msixHeld := rfl

/-! ### strmPut -/

@[simp] theorem strmPut_pending (c : Nat) (x : Strm) : (strmPut s c x).pending = s.pending := rfl
@[simp] theorem strmPut_now (c : Nat) (x : Strm) : (strmPut s c x).now = s.now := rfl
@[simp] theorem strmPut_free (c : Nat) (x : Strm) : (strmPut s c x).free = s.free := rfl
@[simp] theorem strmPut_mems (c : Nat) (x : Strm) : (strmPut s c x).mems = s.mems := rfl
@[simp] theorem strmPut_regs (c : Nat) (x : Strm) : (strmPut s c x).regs = s.regs := rfl
@[simp] theorem strmPut_disarmed (c : Nat) (x : Strm) : (strmPut s c x).disarmed = s.disarmed := rfl
@[simp] theorem strmPut_msix (c : Nat) (x : Strm) : (strmPut s c x).msix = s.msix := rfl
@[simp] theorem strmPut_cells (c : Nat) (x : Strm) : (strmPut s c x).cells = s.cells := rfl
@[simp] theorem strmPut_mcast (c : Nat) (x : Strm) : (strmPut s c x).mcast = s.mcast := rfl
@[simp] theorem strmPut_barriers (c : Nat) (x : Strm) : (strmPut s c x).barriers = s.barriers := rfl
@[simp] theorem strmPut_splits (c : Nat) (x : Strm) : (strmPut s c x).splits = s.splits := rfl
@[simp] theorem strmPut_parts (c : Nat) (x : Strm) : (strmPut s c x).parts = s.parts := rfl
@[simp] theorem strmPut_cache (c : Nat) (x : Strm) : (strmPut s c x).cache = s.cache := rfl
@[simp] theorem strmPut_fills (c : Nat) (x : Strm) : (strmPut s c x).fills = s.fills := rfl
@[simp] theorem strmPut_hbmq (c : Nat) (x : Strm) : (strmPut s c x).hbmq = s.hbmq := rfl
@[simp] theorem strmPut_wins (c : Nat) (x : Strm) : (strmPut s c x).wins = s.wins := rfl
@[simp] theorem strmPut_credit (c : Nat) (x : Strm) : (strmPut s c x).credit = s.credit := rfl
@[simp] theorem strmPut_bargeSeq (c : Nat) (x : Strm) : (strmPut s c x).bargeSeq = s.bargeSeq := rfl
@[simp] theorem strmPut_bargeWait (c : Nat) (x : Strm) : (strmPut s c x).bargeWait = s.bargeWait := rfl
@[simp] theorem strmPut_barges (c : Nat) (x : Strm) : (strmPut s c x).barges = s.barges := rfl
@[simp] theorem strmPut_engineLast (c : Nat) (x : Strm) : (strmPut s c x).engineLast = s.engineLast := rfl
@[simp] theorem strmPut_locks (c : Nat) (x : Strm) : (strmPut s c x).locks = s.locks := rfl
@[simp] theorem strmPut_bargeNotices (c : Nat) (x : Strm) : (strmPut s c x).bargeNotices = s.bargeNotices := rfl
@[simp] theorem strmPut_gsuLast (c : Nat) (x : Strm) : (strmPut s c x).gsuLast = s.gsuLast := rfl
@[simp] theorem strmPut_stepping (c : Nat) (x : Strm) : (strmPut s c x).stepping = s.stepping := rfl
@[simp] theorem strmPut_throttle (c : Nat) (x : Strm) : (strmPut s c x).throttle = s.throttle := rfl
@[simp] theorem strmPut_notices (c : Nat) (x : Strm) : (strmPut s c x).notices = s.notices := rfl
@[simp] theorem strmPut_faults (c : Nat) (x : Strm) : (strmPut s c x).faults = s.faults := rfl
@[simp] theorem strmPut_sclTime (c : Nat) (x : Strm) : (strmPut s c x).sclTime = s.sclTime := rfl
@[simp] theorem strmPut_dark (c : Nat) (x : Strm) : (strmPut s c x).dark = s.dark := rfl
@[simp] theorem strmPut_resp (c : Nat) (x : Strm) : (strmPut s c x).resp = s.resp := rfl
@[simp] theorem strmPut_latch (c : Nat) (x : Strm) : (strmPut s c x).latch = s.latch := rfl
@[simp] theorem strmPut_staging (c : Nat) (x : Strm) : (strmPut s c x).staging = s.staging := rfl
@[simp] theorem strmPut_cold (c : Nat) (x : Strm) : (strmPut s c x).cold = s.cold := rfl
@[simp] theorem strmPut_sqs (c : Nat) (x : Strm) : (strmPut s c x).sqs = s.sqs := rfl
@[simp] theorem strmPut_cqs (c : Nat) (x : Strm) : (strmPut s c x).cqs = s.cqs := rfl
@[simp] theorem strmPut_cmds (c : Nat) (x : Strm) : (strmPut s c x).cmds = s.cmds := rfl
@[simp] theorem strmPut_bell (c : Nat) (x : Strm) : (strmPut s c x).bell = s.bell := rfl
@[simp] theorem strmPut_turn (c : Nat) (x : Strm) : (strmPut s c x).turn = s.turn := rfl
@[simp] theorem strmPut_lastTurn (c : Nat) (x : Strm) : (strmPut s c x).lastTurn = s.lastTurn := rfl
@[simp] theorem strmPut_rolls (c : Nat) (x : Strm) : (strmPut s c x).rolls = s.rolls := rfl
@[simp] theorem strmPut_links (c : Nat) (x : Strm) : (strmPut s c x).links = s.links := rfl
@[simp] theorem strmPut_tags (c : Nat) (x : Strm) : (strmPut s c x).tags = s.tags := rfl
@[simp] theorem strmPut_gens (c : Nat) (x : Strm) : (strmPut s c x).gens = s.gens := rfl
@[simp] theorem strmPut_fabs (c : Nat) (x : Strm) : (strmPut s c x).fabs = s.fabs := rfl
@[simp] theorem strmPut_cgroups (c : Nat) (x : Strm) : (strmPut s c x).cgroups = s.cgroups := rfl
@[simp] theorem strmPut_cruns (c : Nat) (x : Strm) : (strmPut s c x).cruns = s.cruns := rfl
@[simp] theorem strmPut_sess (c : Nat) (x : Strm) : (strmPut s c x).sess = s.sess := rfl
@[simp] theorem strmPut_aligns (c : Nat) (x : Strm) : (strmPut s c x).aligns = s.aligns := rfl
@[simp] theorem strmPut_tts (c : Nat) (x : Strm) : (strmPut s c x).tts = s.tts := rfl
@[simp] theorem strmPut_toccs (c : Nat) (x : Strm) : (strmPut s c x).toccs = s.toccs := rfl
@[simp] theorem strmPut_ttUid (c : Nat) (x : Strm) : (strmPut s c x).ttUid = s.ttUid := rfl
@[simp] theorem strmPut_dicts (c : Nat) (x : Strm) : (strmPut s c x).dicts = s.dicts := rfl
@[simp] theorem strmPut_scl (c : Nat) (x : Strm) : (strmPut s c x).scl = s.scl := rfl
@[simp] theorem strmPut_stop (c : Nat) (x : Strm) : (strmPut s c x).stop = s.stop := rfl
@[simp] theorem strmPut_errLog (c : Nat) (x : Strm) : (strmPut s c x).errLog = s.errLog := rfl
@[simp] theorem strmPut_traces (c : Nat) (x : Strm) : (strmPut s c x).traces = s.traces := rfl
@[simp] theorem strmPut_uresets (c : Nat) (x : Strm) : (strmPut s c x).uresets = s.uresets := rfl
@[simp] theorem strmPut_lastReset (c : Nat) (x : Strm) : (strmPut s c x).lastReset = s.lastReset := rfl
@[simp] theorem strmPut_prtCmd (c : Nat) (x : Strm) : (strmPut s c x).prtCmd = s.prtCmd := rfl
@[simp] theorem strmPut_mbxq (c : Nat) (x : Strm) : (strmPut s c x).mbxq = s.mbxq := rfl
@[simp] theorem strmPut_power (c : Nat) (x : Strm) : (strmPut s c x).power = s.power := rfl
@[simp] theorem strmPut_jnl (c : Nat) (x : Strm) : (strmPut s c x).jnl = s.jnl := rfl
@[simp] theorem strmPut_kImg (c : Nat) (x : Strm) : (strmPut s c x).kImg = s.kImg := rfl
@[simp] theorem strmPut_uImg (c : Nat) (x : Strm) : (strmPut s c x).uImg = s.uImg := rfl
@[simp] theorem strmPut_heldRec (c : Nat) (x : Strm) : (strmPut s c x).heldRec = s.heldRec := rfl
@[simp] theorem strmPut_fuses (c : Nat) (x : Strm) : (strmPut s c x).fuses = s.fuses := rfl
@[simp] theorem strmPut_trained (c : Nat) (x : Strm) : (strmPut s c x).trained = s.trained := rfl
@[simp] theorem strmPut_sblk (c : Nat) (x : Strm) : (strmPut s c x).sblk = s.sblk := rfl
@[simp] theorem strmPut_i3c (c : Nat) (x : Strm) : (strmPut s c x).i3c = s.i3c := rfl
@[simp] theorem strmPut_jtag (c : Nat) (x : Strm) : (strmPut s c x).jtag = s.jtag := rfl
@[simp] theorem strmPut_perst (c : Nat) (x : Strm) : (strmPut s c x).perst = s.perst := rfl
@[simp] theorem strmPut_pcieUp (c : Nat) (x : Strm) : (strmPut s c x).pcieUp = s.pcieUp := rfl
@[simp] theorem strmPut_msixHeld (c : Nat) (x : Strm) : (strmPut s c x).msixHeld = s.msixHeld := rfl

/-! ### lnkPut -/

@[simp] theorem lnkPut_pending (g : Nat) (x : Link) : (lnkPut s g x).pending = s.pending := rfl
@[simp] theorem lnkPut_now (g : Nat) (x : Link) : (lnkPut s g x).now = s.now := rfl
@[simp] theorem lnkPut_free (g : Nat) (x : Link) : (lnkPut s g x).free = s.free := rfl
@[simp] theorem lnkPut_mems (g : Nat) (x : Link) : (lnkPut s g x).mems = s.mems := rfl
@[simp] theorem lnkPut_regs (g : Nat) (x : Link) : (lnkPut s g x).regs = s.regs := rfl
@[simp] theorem lnkPut_disarmed (g : Nat) (x : Link) : (lnkPut s g x).disarmed = s.disarmed := rfl
@[simp] theorem lnkPut_msix (g : Nat) (x : Link) : (lnkPut s g x).msix = s.msix := rfl
@[simp] theorem lnkPut_cells (g : Nat) (x : Link) : (lnkPut s g x).cells = s.cells := rfl
@[simp] theorem lnkPut_mcast (g : Nat) (x : Link) : (lnkPut s g x).mcast = s.mcast := rfl
@[simp] theorem lnkPut_barriers (g : Nat) (x : Link) : (lnkPut s g x).barriers = s.barriers := rfl
@[simp] theorem lnkPut_splits (g : Nat) (x : Link) : (lnkPut s g x).splits = s.splits := rfl
@[simp] theorem lnkPut_parts (g : Nat) (x : Link) : (lnkPut s g x).parts = s.parts := rfl
@[simp] theorem lnkPut_cache (g : Nat) (x : Link) : (lnkPut s g x).cache = s.cache := rfl
@[simp] theorem lnkPut_fills (g : Nat) (x : Link) : (lnkPut s g x).fills = s.fills := rfl
@[simp] theorem lnkPut_hbmq (g : Nat) (x : Link) : (lnkPut s g x).hbmq = s.hbmq := rfl
@[simp] theorem lnkPut_wins (g : Nat) (x : Link) : (lnkPut s g x).wins = s.wins := rfl
@[simp] theorem lnkPut_credit (g : Nat) (x : Link) : (lnkPut s g x).credit = s.credit := rfl
@[simp] theorem lnkPut_bargeSeq (g : Nat) (x : Link) : (lnkPut s g x).bargeSeq = s.bargeSeq := rfl
@[simp] theorem lnkPut_bargeWait (g : Nat) (x : Link) : (lnkPut s g x).bargeWait = s.bargeWait := rfl
@[simp] theorem lnkPut_barges (g : Nat) (x : Link) : (lnkPut s g x).barges = s.barges := rfl
@[simp] theorem lnkPut_engineLast (g : Nat) (x : Link) : (lnkPut s g x).engineLast = s.engineLast := rfl
@[simp] theorem lnkPut_locks (g : Nat) (x : Link) : (lnkPut s g x).locks = s.locks := rfl
@[simp] theorem lnkPut_bargeNotices (g : Nat) (x : Link) : (lnkPut s g x).bargeNotices = s.bargeNotices := rfl
@[simp] theorem lnkPut_gsuLast (g : Nat) (x : Link) : (lnkPut s g x).gsuLast = s.gsuLast := rfl
@[simp] theorem lnkPut_stepping (g : Nat) (x : Link) : (lnkPut s g x).stepping = s.stepping := rfl
@[simp] theorem lnkPut_throttle (g : Nat) (x : Link) : (lnkPut s g x).throttle = s.throttle := rfl
@[simp] theorem lnkPut_notices (g : Nat) (x : Link) : (lnkPut s g x).notices = s.notices := rfl
@[simp] theorem lnkPut_faults (g : Nat) (x : Link) : (lnkPut s g x).faults = s.faults := rfl
@[simp] theorem lnkPut_sclTime (g : Nat) (x : Link) : (lnkPut s g x).sclTime = s.sclTime := rfl
@[simp] theorem lnkPut_dark (g : Nat) (x : Link) : (lnkPut s g x).dark = s.dark := rfl
@[simp] theorem lnkPut_resp (g : Nat) (x : Link) : (lnkPut s g x).resp = s.resp := rfl
@[simp] theorem lnkPut_latch (g : Nat) (x : Link) : (lnkPut s g x).latch = s.latch := rfl
@[simp] theorem lnkPut_staging (g : Nat) (x : Link) : (lnkPut s g x).staging = s.staging := rfl
@[simp] theorem lnkPut_cold (g : Nat) (x : Link) : (lnkPut s g x).cold = s.cold := rfl
@[simp] theorem lnkPut_sqs (g : Nat) (x : Link) : (lnkPut s g x).sqs = s.sqs := rfl
@[simp] theorem lnkPut_cqs (g : Nat) (x : Link) : (lnkPut s g x).cqs = s.cqs := rfl
@[simp] theorem lnkPut_cmds (g : Nat) (x : Link) : (lnkPut s g x).cmds = s.cmds := rfl
@[simp] theorem lnkPut_bell (g : Nat) (x : Link) : (lnkPut s g x).bell = s.bell := rfl
@[simp] theorem lnkPut_turn (g : Nat) (x : Link) : (lnkPut s g x).turn = s.turn := rfl
@[simp] theorem lnkPut_lastTurn (g : Nat) (x : Link) : (lnkPut s g x).lastTurn = s.lastTurn := rfl
@[simp] theorem lnkPut_rolls (g : Nat) (x : Link) : (lnkPut s g x).rolls = s.rolls := rfl
@[simp] theorem lnkPut_streams (g : Nat) (x : Link) : (lnkPut s g x).streams = s.streams := rfl
@[simp] theorem lnkPut_tags (g : Nat) (x : Link) : (lnkPut s g x).tags = s.tags := rfl
@[simp] theorem lnkPut_gens (g : Nat) (x : Link) : (lnkPut s g x).gens = s.gens := rfl
@[simp] theorem lnkPut_fabs (g : Nat) (x : Link) : (lnkPut s g x).fabs = s.fabs := rfl
@[simp] theorem lnkPut_cgroups (g : Nat) (x : Link) : (lnkPut s g x).cgroups = s.cgroups := rfl
@[simp] theorem lnkPut_cruns (g : Nat) (x : Link) : (lnkPut s g x).cruns = s.cruns := rfl
@[simp] theorem lnkPut_sess (g : Nat) (x : Link) : (lnkPut s g x).sess = s.sess := rfl
@[simp] theorem lnkPut_aligns (g : Nat) (x : Link) : (lnkPut s g x).aligns = s.aligns := rfl
@[simp] theorem lnkPut_tts (g : Nat) (x : Link) : (lnkPut s g x).tts = s.tts := rfl
@[simp] theorem lnkPut_toccs (g : Nat) (x : Link) : (lnkPut s g x).toccs = s.toccs := rfl
@[simp] theorem lnkPut_ttUid (g : Nat) (x : Link) : (lnkPut s g x).ttUid = s.ttUid := rfl
@[simp] theorem lnkPut_dicts (g : Nat) (x : Link) : (lnkPut s g x).dicts = s.dicts := rfl
@[simp] theorem lnkPut_scl (g : Nat) (x : Link) : (lnkPut s g x).scl = s.scl := rfl
@[simp] theorem lnkPut_stop (g : Nat) (x : Link) : (lnkPut s g x).stop = s.stop := rfl
@[simp] theorem lnkPut_errLog (g : Nat) (x : Link) : (lnkPut s g x).errLog = s.errLog := rfl
@[simp] theorem lnkPut_traces (g : Nat) (x : Link) : (lnkPut s g x).traces = s.traces := rfl
@[simp] theorem lnkPut_uresets (g : Nat) (x : Link) : (lnkPut s g x).uresets = s.uresets := rfl
@[simp] theorem lnkPut_lastReset (g : Nat) (x : Link) : (lnkPut s g x).lastReset = s.lastReset := rfl
@[simp] theorem lnkPut_prtCmd (g : Nat) (x : Link) : (lnkPut s g x).prtCmd = s.prtCmd := rfl
@[simp] theorem lnkPut_mbxq (g : Nat) (x : Link) : (lnkPut s g x).mbxq = s.mbxq := rfl
@[simp] theorem lnkPut_power (g : Nat) (x : Link) : (lnkPut s g x).power = s.power := rfl
@[simp] theorem lnkPut_jnl (g : Nat) (x : Link) : (lnkPut s g x).jnl = s.jnl := rfl
@[simp] theorem lnkPut_kImg (g : Nat) (x : Link) : (lnkPut s g x).kImg = s.kImg := rfl
@[simp] theorem lnkPut_uImg (g : Nat) (x : Link) : (lnkPut s g x).uImg = s.uImg := rfl
@[simp] theorem lnkPut_heldRec (g : Nat) (x : Link) : (lnkPut s g x).heldRec = s.heldRec := rfl
@[simp] theorem lnkPut_fuses (g : Nat) (x : Link) : (lnkPut s g x).fuses = s.fuses := rfl
@[simp] theorem lnkPut_trained (g : Nat) (x : Link) : (lnkPut s g x).trained = s.trained := rfl
@[simp] theorem lnkPut_sblk (g : Nat) (x : Link) : (lnkPut s g x).sblk = s.sblk := rfl
@[simp] theorem lnkPut_i3c (g : Nat) (x : Link) : (lnkPut s g x).i3c = s.i3c := rfl
@[simp] theorem lnkPut_jtag (g : Nat) (x : Link) : (lnkPut s g x).jtag = s.jtag := rfl
@[simp] theorem lnkPut_perst (g : Nat) (x : Link) : (lnkPut s g x).perst = s.perst := rfl
@[simp] theorem lnkPut_pcieUp (g : Nat) (x : Link) : (lnkPut s g x).pcieUp = s.pcieUp := rfl
@[simp] theorem lnkPut_msixHeld (g : Nat) (x : Link) : (lnkPut s g x).msixHeld = s.msixHeld := rfl

/-! ### sessPut -/

@[simp] theorem sessPut_pending (x : Sess) : (sessPut s x).pending = s.pending := rfl
@[simp] theorem sessPut_now (x : Sess) : (sessPut s x).now = s.now := rfl
@[simp] theorem sessPut_free (x : Sess) : (sessPut s x).free = s.free := rfl
@[simp] theorem sessPut_mems (x : Sess) : (sessPut s x).mems = s.mems := rfl
@[simp] theorem sessPut_regs (x : Sess) : (sessPut s x).regs = s.regs := rfl
@[simp] theorem sessPut_disarmed (x : Sess) : (sessPut s x).disarmed = s.disarmed := rfl
@[simp] theorem sessPut_msix (x : Sess) : (sessPut s x).msix = s.msix := rfl
@[simp] theorem sessPut_cells (x : Sess) : (sessPut s x).cells = s.cells := rfl
@[simp] theorem sessPut_mcast (x : Sess) : (sessPut s x).mcast = s.mcast := rfl
@[simp] theorem sessPut_barriers (x : Sess) : (sessPut s x).barriers = s.barriers := rfl
@[simp] theorem sessPut_splits (x : Sess) : (sessPut s x).splits = s.splits := rfl
@[simp] theorem sessPut_parts (x : Sess) : (sessPut s x).parts = s.parts := rfl
@[simp] theorem sessPut_cache (x : Sess) : (sessPut s x).cache = s.cache := rfl
@[simp] theorem sessPut_fills (x : Sess) : (sessPut s x).fills = s.fills := rfl
@[simp] theorem sessPut_hbmq (x : Sess) : (sessPut s x).hbmq = s.hbmq := rfl
@[simp] theorem sessPut_wins (x : Sess) : (sessPut s x).wins = s.wins := rfl
@[simp] theorem sessPut_credit (x : Sess) : (sessPut s x).credit = s.credit := rfl
@[simp] theorem sessPut_bargeSeq (x : Sess) : (sessPut s x).bargeSeq = s.bargeSeq := rfl
@[simp] theorem sessPut_bargeWait (x : Sess) : (sessPut s x).bargeWait = s.bargeWait := rfl
@[simp] theorem sessPut_barges (x : Sess) : (sessPut s x).barges = s.barges := rfl
@[simp] theorem sessPut_engineLast (x : Sess) : (sessPut s x).engineLast = s.engineLast := rfl
@[simp] theorem sessPut_locks (x : Sess) : (sessPut s x).locks = s.locks := rfl
@[simp] theorem sessPut_bargeNotices (x : Sess) : (sessPut s x).bargeNotices = s.bargeNotices := rfl
@[simp] theorem sessPut_gsuLast (x : Sess) : (sessPut s x).gsuLast = s.gsuLast := rfl
@[simp] theorem sessPut_stepping (x : Sess) : (sessPut s x).stepping = s.stepping := rfl
@[simp] theorem sessPut_throttle (x : Sess) : (sessPut s x).throttle = s.throttle := rfl
@[simp] theorem sessPut_notices (x : Sess) : (sessPut s x).notices = s.notices := rfl
@[simp] theorem sessPut_faults (x : Sess) : (sessPut s x).faults = s.faults := rfl
@[simp] theorem sessPut_sclTime (x : Sess) : (sessPut s x).sclTime = s.sclTime := rfl
@[simp] theorem sessPut_dark (x : Sess) : (sessPut s x).dark = s.dark := rfl
@[simp] theorem sessPut_resp (x : Sess) : (sessPut s x).resp = s.resp := rfl
@[simp] theorem sessPut_latch (x : Sess) : (sessPut s x).latch = s.latch := rfl
@[simp] theorem sessPut_staging (x : Sess) : (sessPut s x).staging = s.staging := rfl
@[simp] theorem sessPut_cold (x : Sess) : (sessPut s x).cold = s.cold := rfl
@[simp] theorem sessPut_sqs (x : Sess) : (sessPut s x).sqs = s.sqs := rfl
@[simp] theorem sessPut_cqs (x : Sess) : (sessPut s x).cqs = s.cqs := rfl
@[simp] theorem sessPut_cmds (x : Sess) : (sessPut s x).cmds = s.cmds := rfl
@[simp] theorem sessPut_bell (x : Sess) : (sessPut s x).bell = s.bell := rfl
@[simp] theorem sessPut_turn (x : Sess) : (sessPut s x).turn = s.turn := rfl
@[simp] theorem sessPut_lastTurn (x : Sess) : (sessPut s x).lastTurn = s.lastTurn := rfl
@[simp] theorem sessPut_rolls (x : Sess) : (sessPut s x).rolls = s.rolls := rfl
@[simp] theorem sessPut_streams (x : Sess) : (sessPut s x).streams = s.streams := rfl
@[simp] theorem sessPut_links (x : Sess) : (sessPut s x).links = s.links := rfl
@[simp] theorem sessPut_tags (x : Sess) : (sessPut s x).tags = s.tags := rfl
@[simp] theorem sessPut_gens (x : Sess) : (sessPut s x).gens = s.gens := rfl
@[simp] theorem sessPut_fabs (x : Sess) : (sessPut s x).fabs = s.fabs := rfl
@[simp] theorem sessPut_cgroups (x : Sess) : (sessPut s x).cgroups = s.cgroups := rfl
@[simp] theorem sessPut_cruns (x : Sess) : (sessPut s x).cruns = s.cruns := rfl
@[simp] theorem sessPut_aligns (x : Sess) : (sessPut s x).aligns = s.aligns := rfl
@[simp] theorem sessPut_tts (x : Sess) : (sessPut s x).tts = s.tts := rfl
@[simp] theorem sessPut_toccs (x : Sess) : (sessPut s x).toccs = s.toccs := rfl
@[simp] theorem sessPut_ttUid (x : Sess) : (sessPut s x).ttUid = s.ttUid := rfl
@[simp] theorem sessPut_dicts (x : Sess) : (sessPut s x).dicts = s.dicts := rfl
@[simp] theorem sessPut_scl (x : Sess) : (sessPut s x).scl = s.scl := rfl
@[simp] theorem sessPut_stop (x : Sess) : (sessPut s x).stop = s.stop := rfl
@[simp] theorem sessPut_errLog (x : Sess) : (sessPut s x).errLog = s.errLog := rfl
@[simp] theorem sessPut_traces (x : Sess) : (sessPut s x).traces = s.traces := rfl
@[simp] theorem sessPut_uresets (x : Sess) : (sessPut s x).uresets = s.uresets := rfl
@[simp] theorem sessPut_lastReset (x : Sess) : (sessPut s x).lastReset = s.lastReset := rfl
@[simp] theorem sessPut_prtCmd (x : Sess) : (sessPut s x).prtCmd = s.prtCmd := rfl
@[simp] theorem sessPut_mbxq (x : Sess) : (sessPut s x).mbxq = s.mbxq := rfl
@[simp] theorem sessPut_power (x : Sess) : (sessPut s x).power = s.power := rfl
@[simp] theorem sessPut_jnl (x : Sess) : (sessPut s x).jnl = s.jnl := rfl
@[simp] theorem sessPut_kImg (x : Sess) : (sessPut s x).kImg = s.kImg := rfl
@[simp] theorem sessPut_uImg (x : Sess) : (sessPut s x).uImg = s.uImg := rfl
@[simp] theorem sessPut_heldRec (x : Sess) : (sessPut s x).heldRec = s.heldRec := rfl
@[simp] theorem sessPut_fuses (x : Sess) : (sessPut s x).fuses = s.fuses := rfl
@[simp] theorem sessPut_trained (x : Sess) : (sessPut s x).trained = s.trained := rfl
@[simp] theorem sessPut_sblk (x : Sess) : (sessPut s x).sblk = s.sblk := rfl
@[simp] theorem sessPut_i3c (x : Sess) : (sessPut s x).i3c = s.i3c := rfl
@[simp] theorem sessPut_jtag (x : Sess) : (sessPut s x).jtag = s.jtag := rfl
@[simp] theorem sessPut_perst (x : Sess) : (sessPut s x).perst = s.perst := rfl
@[simp] theorem sessPut_pcieUp (x : Sess) : (sessPut s x).pcieUp = s.pcieUp := rfl
@[simp] theorem sessPut_msixHeld (x : Sess) : (sessPut s x).msixHeld = s.msixHeld := rfl

/-! ### lockPut -/

@[simp] theorem lockPut_pending (l : Nat) (x : Lock) : (lockPut s l x).pending = s.pending := rfl
@[simp] theorem lockPut_now (l : Nat) (x : Lock) : (lockPut s l x).now = s.now := rfl
@[simp] theorem lockPut_free (l : Nat) (x : Lock) : (lockPut s l x).free = s.free := rfl
@[simp] theorem lockPut_mems (l : Nat) (x : Lock) : (lockPut s l x).mems = s.mems := rfl
@[simp] theorem lockPut_regs (l : Nat) (x : Lock) : (lockPut s l x).regs = s.regs := rfl
@[simp] theorem lockPut_disarmed (l : Nat) (x : Lock) : (lockPut s l x).disarmed = s.disarmed := rfl
@[simp] theorem lockPut_msix (l : Nat) (x : Lock) : (lockPut s l x).msix = s.msix := rfl
@[simp] theorem lockPut_cells (l : Nat) (x : Lock) : (lockPut s l x).cells = s.cells := rfl
@[simp] theorem lockPut_mcast (l : Nat) (x : Lock) : (lockPut s l x).mcast = s.mcast := rfl
@[simp] theorem lockPut_barriers (l : Nat) (x : Lock) : (lockPut s l x).barriers = s.barriers := rfl
@[simp] theorem lockPut_splits (l : Nat) (x : Lock) : (lockPut s l x).splits = s.splits := rfl
@[simp] theorem lockPut_parts (l : Nat) (x : Lock) : (lockPut s l x).parts = s.parts := rfl
@[simp] theorem lockPut_cache (l : Nat) (x : Lock) : (lockPut s l x).cache = s.cache := rfl
@[simp] theorem lockPut_fills (l : Nat) (x : Lock) : (lockPut s l x).fills = s.fills := rfl
@[simp] theorem lockPut_hbmq (l : Nat) (x : Lock) : (lockPut s l x).hbmq = s.hbmq := rfl
@[simp] theorem lockPut_wins (l : Nat) (x : Lock) : (lockPut s l x).wins = s.wins := rfl
@[simp] theorem lockPut_credit (l : Nat) (x : Lock) : (lockPut s l x).credit = s.credit := rfl
@[simp] theorem lockPut_bargeSeq (l : Nat) (x : Lock) : (lockPut s l x).bargeSeq = s.bargeSeq := rfl
@[simp] theorem lockPut_bargeWait (l : Nat) (x : Lock) : (lockPut s l x).bargeWait = s.bargeWait := rfl
@[simp] theorem lockPut_barges (l : Nat) (x : Lock) : (lockPut s l x).barges = s.barges := rfl
@[simp] theorem lockPut_engineLast (l : Nat) (x : Lock) : (lockPut s l x).engineLast = s.engineLast := rfl
@[simp] theorem lockPut_bargeNotices (l : Nat) (x : Lock) : (lockPut s l x).bargeNotices = s.bargeNotices := rfl
@[simp] theorem lockPut_gsuLast (l : Nat) (x : Lock) : (lockPut s l x).gsuLast = s.gsuLast := rfl
@[simp] theorem lockPut_stepping (l : Nat) (x : Lock) : (lockPut s l x).stepping = s.stepping := rfl
@[simp] theorem lockPut_throttle (l : Nat) (x : Lock) : (lockPut s l x).throttle = s.throttle := rfl
@[simp] theorem lockPut_notices (l : Nat) (x : Lock) : (lockPut s l x).notices = s.notices := rfl
@[simp] theorem lockPut_faults (l : Nat) (x : Lock) : (lockPut s l x).faults = s.faults := rfl
@[simp] theorem lockPut_sclTime (l : Nat) (x : Lock) : (lockPut s l x).sclTime = s.sclTime := rfl
@[simp] theorem lockPut_dark (l : Nat) (x : Lock) : (lockPut s l x).dark = s.dark := rfl
@[simp] theorem lockPut_resp (l : Nat) (x : Lock) : (lockPut s l x).resp = s.resp := rfl
@[simp] theorem lockPut_latch (l : Nat) (x : Lock) : (lockPut s l x).latch = s.latch := rfl
@[simp] theorem lockPut_staging (l : Nat) (x : Lock) : (lockPut s l x).staging = s.staging := rfl
@[simp] theorem lockPut_cold (l : Nat) (x : Lock) : (lockPut s l x).cold = s.cold := rfl
@[simp] theorem lockPut_sqs (l : Nat) (x : Lock) : (lockPut s l x).sqs = s.sqs := rfl
@[simp] theorem lockPut_cqs (l : Nat) (x : Lock) : (lockPut s l x).cqs = s.cqs := rfl
@[simp] theorem lockPut_cmds (l : Nat) (x : Lock) : (lockPut s l x).cmds = s.cmds := rfl
@[simp] theorem lockPut_bell (l : Nat) (x : Lock) : (lockPut s l x).bell = s.bell := rfl
@[simp] theorem lockPut_turn (l : Nat) (x : Lock) : (lockPut s l x).turn = s.turn := rfl
@[simp] theorem lockPut_lastTurn (l : Nat) (x : Lock) : (lockPut s l x).lastTurn = s.lastTurn := rfl
@[simp] theorem lockPut_rolls (l : Nat) (x : Lock) : (lockPut s l x).rolls = s.rolls := rfl
@[simp] theorem lockPut_streams (l : Nat) (x : Lock) : (lockPut s l x).streams = s.streams := rfl
@[simp] theorem lockPut_links (l : Nat) (x : Lock) : (lockPut s l x).links = s.links := rfl
@[simp] theorem lockPut_tags (l : Nat) (x : Lock) : (lockPut s l x).tags = s.tags := rfl
@[simp] theorem lockPut_gens (l : Nat) (x : Lock) : (lockPut s l x).gens = s.gens := rfl
@[simp] theorem lockPut_fabs (l : Nat) (x : Lock) : (lockPut s l x).fabs = s.fabs := rfl
@[simp] theorem lockPut_cgroups (l : Nat) (x : Lock) : (lockPut s l x).cgroups = s.cgroups := rfl
@[simp] theorem lockPut_cruns (l : Nat) (x : Lock) : (lockPut s l x).cruns = s.cruns := rfl
@[simp] theorem lockPut_sess (l : Nat) (x : Lock) : (lockPut s l x).sess = s.sess := rfl
@[simp] theorem lockPut_aligns (l : Nat) (x : Lock) : (lockPut s l x).aligns = s.aligns := rfl
@[simp] theorem lockPut_tts (l : Nat) (x : Lock) : (lockPut s l x).tts = s.tts := rfl
@[simp] theorem lockPut_toccs (l : Nat) (x : Lock) : (lockPut s l x).toccs = s.toccs := rfl
@[simp] theorem lockPut_ttUid (l : Nat) (x : Lock) : (lockPut s l x).ttUid = s.ttUid := rfl
@[simp] theorem lockPut_dicts (l : Nat) (x : Lock) : (lockPut s l x).dicts = s.dicts := rfl
@[simp] theorem lockPut_scl (l : Nat) (x : Lock) : (lockPut s l x).scl = s.scl := rfl
@[simp] theorem lockPut_stop (l : Nat) (x : Lock) : (lockPut s l x).stop = s.stop := rfl
@[simp] theorem lockPut_errLog (l : Nat) (x : Lock) : (lockPut s l x).errLog = s.errLog := rfl
@[simp] theorem lockPut_traces (l : Nat) (x : Lock) : (lockPut s l x).traces = s.traces := rfl
@[simp] theorem lockPut_uresets (l : Nat) (x : Lock) : (lockPut s l x).uresets = s.uresets := rfl
@[simp] theorem lockPut_lastReset (l : Nat) (x : Lock) : (lockPut s l x).lastReset = s.lastReset := rfl
@[simp] theorem lockPut_prtCmd (l : Nat) (x : Lock) : (lockPut s l x).prtCmd = s.prtCmd := rfl
@[simp] theorem lockPut_mbxq (l : Nat) (x : Lock) : (lockPut s l x).mbxq = s.mbxq := rfl
@[simp] theorem lockPut_power (l : Nat) (x : Lock) : (lockPut s l x).power = s.power := rfl
@[simp] theorem lockPut_jnl (l : Nat) (x : Lock) : (lockPut s l x).jnl = s.jnl := rfl
@[simp] theorem lockPut_kImg (l : Nat) (x : Lock) : (lockPut s l x).kImg = s.kImg := rfl
@[simp] theorem lockPut_uImg (l : Nat) (x : Lock) : (lockPut s l x).uImg = s.uImg := rfl
@[simp] theorem lockPut_heldRec (l : Nat) (x : Lock) : (lockPut s l x).heldRec = s.heldRec := rfl
@[simp] theorem lockPut_fuses (l : Nat) (x : Lock) : (lockPut s l x).fuses = s.fuses := rfl
@[simp] theorem lockPut_trained (l : Nat) (x : Lock) : (lockPut s l x).trained = s.trained := rfl
@[simp] theorem lockPut_sblk (l : Nat) (x : Lock) : (lockPut s l x).sblk = s.sblk := rfl
@[simp] theorem lockPut_i3c (l : Nat) (x : Lock) : (lockPut s l x).i3c = s.i3c := rfl
@[simp] theorem lockPut_jtag (l : Nat) (x : Lock) : (lockPut s l x).jtag = s.jtag := rfl
@[simp] theorem lockPut_perst (l : Nat) (x : Lock) : (lockPut s l x).perst = s.perst := rfl
@[simp] theorem lockPut_pcieUp (l : Nat) (x : Lock) : (lockPut s l x).pcieUp = s.pcieUp := rfl
@[simp] theorem lockPut_msixHeld (l : Nat) (x : Lock) : (lockPut s l x).msixHeld = s.msixHeld := rfl

/-! ### bargePut -/

@[simp] theorem bargePut_pending (b : Barge) : (bargePut s b).pending = s.pending := rfl
@[simp] theorem bargePut_now (b : Barge) : (bargePut s b).now = s.now := rfl
@[simp] theorem bargePut_free (b : Barge) : (bargePut s b).free = s.free := rfl
@[simp] theorem bargePut_mems (b : Barge) : (bargePut s b).mems = s.mems := rfl
@[simp] theorem bargePut_regs (b : Barge) : (bargePut s b).regs = s.regs := rfl
@[simp] theorem bargePut_disarmed (b : Barge) : (bargePut s b).disarmed = s.disarmed := rfl
@[simp] theorem bargePut_msix (b : Barge) : (bargePut s b).msix = s.msix := rfl
@[simp] theorem bargePut_cells (b : Barge) : (bargePut s b).cells = s.cells := rfl
@[simp] theorem bargePut_mcast (b : Barge) : (bargePut s b).mcast = s.mcast := rfl
@[simp] theorem bargePut_barriers (b : Barge) : (bargePut s b).barriers = s.barriers := rfl
@[simp] theorem bargePut_splits (b : Barge) : (bargePut s b).splits = s.splits := rfl
@[simp] theorem bargePut_parts (b : Barge) : (bargePut s b).parts = s.parts := rfl
@[simp] theorem bargePut_cache (b : Barge) : (bargePut s b).cache = s.cache := rfl
@[simp] theorem bargePut_fills (b : Barge) : (bargePut s b).fills = s.fills := rfl
@[simp] theorem bargePut_hbmq (b : Barge) : (bargePut s b).hbmq = s.hbmq := rfl
@[simp] theorem bargePut_wins (b : Barge) : (bargePut s b).wins = s.wins := rfl
@[simp] theorem bargePut_credit (b : Barge) : (bargePut s b).credit = s.credit := rfl
@[simp] theorem bargePut_bargeSeq (b : Barge) : (bargePut s b).bargeSeq = s.bargeSeq := rfl
@[simp] theorem bargePut_bargeWait (b : Barge) : (bargePut s b).bargeWait = s.bargeWait := rfl
@[simp] theorem bargePut_engineLast (b : Barge) : (bargePut s b).engineLast = s.engineLast := rfl
@[simp] theorem bargePut_locks (b : Barge) : (bargePut s b).locks = s.locks := rfl
@[simp] theorem bargePut_bargeNotices (b : Barge) : (bargePut s b).bargeNotices = s.bargeNotices := rfl
@[simp] theorem bargePut_gsuLast (b : Barge) : (bargePut s b).gsuLast = s.gsuLast := rfl
@[simp] theorem bargePut_stepping (b : Barge) : (bargePut s b).stepping = s.stepping := rfl
@[simp] theorem bargePut_throttle (b : Barge) : (bargePut s b).throttle = s.throttle := rfl
@[simp] theorem bargePut_notices (b : Barge) : (bargePut s b).notices = s.notices := rfl
@[simp] theorem bargePut_faults (b : Barge) : (bargePut s b).faults = s.faults := rfl
@[simp] theorem bargePut_sclTime (b : Barge) : (bargePut s b).sclTime = s.sclTime := rfl
@[simp] theorem bargePut_dark (b : Barge) : (bargePut s b).dark = s.dark := rfl
@[simp] theorem bargePut_resp (b : Barge) : (bargePut s b).resp = s.resp := rfl
@[simp] theorem bargePut_latch (b : Barge) : (bargePut s b).latch = s.latch := rfl
@[simp] theorem bargePut_staging (b : Barge) : (bargePut s b).staging = s.staging := rfl
@[simp] theorem bargePut_cold (b : Barge) : (bargePut s b).cold = s.cold := rfl
@[simp] theorem bargePut_sqs (b : Barge) : (bargePut s b).sqs = s.sqs := rfl
@[simp] theorem bargePut_cqs (b : Barge) : (bargePut s b).cqs = s.cqs := rfl
@[simp] theorem bargePut_cmds (b : Barge) : (bargePut s b).cmds = s.cmds := rfl
@[simp] theorem bargePut_bell (b : Barge) : (bargePut s b).bell = s.bell := rfl
@[simp] theorem bargePut_turn (b : Barge) : (bargePut s b).turn = s.turn := rfl
@[simp] theorem bargePut_lastTurn (b : Barge) : (bargePut s b).lastTurn = s.lastTurn := rfl
@[simp] theorem bargePut_rolls (b : Barge) : (bargePut s b).rolls = s.rolls := rfl
@[simp] theorem bargePut_streams (b : Barge) : (bargePut s b).streams = s.streams := rfl
@[simp] theorem bargePut_links (b : Barge) : (bargePut s b).links = s.links := rfl
@[simp] theorem bargePut_tags (b : Barge) : (bargePut s b).tags = s.tags := rfl
@[simp] theorem bargePut_gens (b : Barge) : (bargePut s b).gens = s.gens := rfl
@[simp] theorem bargePut_fabs (b : Barge) : (bargePut s b).fabs = s.fabs := rfl
@[simp] theorem bargePut_cgroups (b : Barge) : (bargePut s b).cgroups = s.cgroups := rfl
@[simp] theorem bargePut_cruns (b : Barge) : (bargePut s b).cruns = s.cruns := rfl
@[simp] theorem bargePut_sess (b : Barge) : (bargePut s b).sess = s.sess := rfl
@[simp] theorem bargePut_aligns (b : Barge) : (bargePut s b).aligns = s.aligns := rfl
@[simp] theorem bargePut_tts (b : Barge) : (bargePut s b).tts = s.tts := rfl
@[simp] theorem bargePut_toccs (b : Barge) : (bargePut s b).toccs = s.toccs := rfl
@[simp] theorem bargePut_ttUid (b : Barge) : (bargePut s b).ttUid = s.ttUid := rfl
@[simp] theorem bargePut_dicts (b : Barge) : (bargePut s b).dicts = s.dicts := rfl
@[simp] theorem bargePut_scl (b : Barge) : (bargePut s b).scl = s.scl := rfl
@[simp] theorem bargePut_stop (b : Barge) : (bargePut s b).stop = s.stop := rfl
@[simp] theorem bargePut_errLog (b : Barge) : (bargePut s b).errLog = s.errLog := rfl
@[simp] theorem bargePut_traces (b : Barge) : (bargePut s b).traces = s.traces := rfl
@[simp] theorem bargePut_uresets (b : Barge) : (bargePut s b).uresets = s.uresets := rfl
@[simp] theorem bargePut_lastReset (b : Barge) : (bargePut s b).lastReset = s.lastReset := rfl
@[simp] theorem bargePut_prtCmd (b : Barge) : (bargePut s b).prtCmd = s.prtCmd := rfl
@[simp] theorem bargePut_mbxq (b : Barge) : (bargePut s b).mbxq = s.mbxq := rfl
@[simp] theorem bargePut_power (b : Barge) : (bargePut s b).power = s.power := rfl
@[simp] theorem bargePut_jnl (b : Barge) : (bargePut s b).jnl = s.jnl := rfl
@[simp] theorem bargePut_kImg (b : Barge) : (bargePut s b).kImg = s.kImg := rfl
@[simp] theorem bargePut_uImg (b : Barge) : (bargePut s b).uImg = s.uImg := rfl
@[simp] theorem bargePut_heldRec (b : Barge) : (bargePut s b).heldRec = s.heldRec := rfl
@[simp] theorem bargePut_fuses (b : Barge) : (bargePut s b).fuses = s.fuses := rfl
@[simp] theorem bargePut_trained (b : Barge) : (bargePut s b).trained = s.trained := rfl
@[simp] theorem bargePut_sblk (b : Barge) : (bargePut s b).sblk = s.sblk := rfl
@[simp] theorem bargePut_i3c (b : Barge) : (bargePut s b).i3c = s.i3c := rfl
@[simp] theorem bargePut_jtag (b : Barge) : (bargePut s b).jtag = s.jtag := rfl
@[simp] theorem bargePut_perst (b : Barge) : (bargePut s b).perst = s.perst := rfl
@[simp] theorem bargePut_pcieUp (b : Barge) : (bargePut s b).pcieUp = s.pcieUp := rfl
@[simp] theorem bargePut_msixHeld (b : Barge) : (bargePut s b).msixHeld = s.msixHeld := rfl

/-! ### hbmqPut -/

@[simp] theorem hbmqPut_pending (k : Nat) (x : HbmQ) : (hbmqPut s k x).pending = s.pending := rfl
@[simp] theorem hbmqPut_now (k : Nat) (x : HbmQ) : (hbmqPut s k x).now = s.now := rfl
@[simp] theorem hbmqPut_free (k : Nat) (x : HbmQ) : (hbmqPut s k x).free = s.free := rfl
@[simp] theorem hbmqPut_mems (k : Nat) (x : HbmQ) : (hbmqPut s k x).mems = s.mems := rfl
@[simp] theorem hbmqPut_regs (k : Nat) (x : HbmQ) : (hbmqPut s k x).regs = s.regs := rfl
@[simp] theorem hbmqPut_disarmed (k : Nat) (x : HbmQ) : (hbmqPut s k x).disarmed = s.disarmed := rfl
@[simp] theorem hbmqPut_msix (k : Nat) (x : HbmQ) : (hbmqPut s k x).msix = s.msix := rfl
@[simp] theorem hbmqPut_cells (k : Nat) (x : HbmQ) : (hbmqPut s k x).cells = s.cells := rfl
@[simp] theorem hbmqPut_mcast (k : Nat) (x : HbmQ) : (hbmqPut s k x).mcast = s.mcast := rfl
@[simp] theorem hbmqPut_barriers (k : Nat) (x : HbmQ) : (hbmqPut s k x).barriers = s.barriers := rfl
@[simp] theorem hbmqPut_splits (k : Nat) (x : HbmQ) : (hbmqPut s k x).splits = s.splits := rfl
@[simp] theorem hbmqPut_parts (k : Nat) (x : HbmQ) : (hbmqPut s k x).parts = s.parts := rfl
@[simp] theorem hbmqPut_cache (k : Nat) (x : HbmQ) : (hbmqPut s k x).cache = s.cache := rfl
@[simp] theorem hbmqPut_fills (k : Nat) (x : HbmQ) : (hbmqPut s k x).fills = s.fills := rfl
@[simp] theorem hbmqPut_wins (k : Nat) (x : HbmQ) : (hbmqPut s k x).wins = s.wins := rfl
@[simp] theorem hbmqPut_credit (k : Nat) (x : HbmQ) : (hbmqPut s k x).credit = s.credit := rfl
@[simp] theorem hbmqPut_bargeSeq (k : Nat) (x : HbmQ) : (hbmqPut s k x).bargeSeq = s.bargeSeq := rfl
@[simp] theorem hbmqPut_bargeWait (k : Nat) (x : HbmQ) : (hbmqPut s k x).bargeWait = s.bargeWait := rfl
@[simp] theorem hbmqPut_barges (k : Nat) (x : HbmQ) : (hbmqPut s k x).barges = s.barges := rfl
@[simp] theorem hbmqPut_engineLast (k : Nat) (x : HbmQ) : (hbmqPut s k x).engineLast = s.engineLast := rfl
@[simp] theorem hbmqPut_locks (k : Nat) (x : HbmQ) : (hbmqPut s k x).locks = s.locks := rfl
@[simp] theorem hbmqPut_bargeNotices (k : Nat) (x : HbmQ) : (hbmqPut s k x).bargeNotices = s.bargeNotices := rfl
@[simp] theorem hbmqPut_gsuLast (k : Nat) (x : HbmQ) : (hbmqPut s k x).gsuLast = s.gsuLast := rfl
@[simp] theorem hbmqPut_stepping (k : Nat) (x : HbmQ) : (hbmqPut s k x).stepping = s.stepping := rfl
@[simp] theorem hbmqPut_throttle (k : Nat) (x : HbmQ) : (hbmqPut s k x).throttle = s.throttle := rfl
@[simp] theorem hbmqPut_notices (k : Nat) (x : HbmQ) : (hbmqPut s k x).notices = s.notices := rfl
@[simp] theorem hbmqPut_faults (k : Nat) (x : HbmQ) : (hbmqPut s k x).faults = s.faults := rfl
@[simp] theorem hbmqPut_sclTime (k : Nat) (x : HbmQ) : (hbmqPut s k x).sclTime = s.sclTime := rfl
@[simp] theorem hbmqPut_dark (k : Nat) (x : HbmQ) : (hbmqPut s k x).dark = s.dark := rfl
@[simp] theorem hbmqPut_resp (k : Nat) (x : HbmQ) : (hbmqPut s k x).resp = s.resp := rfl
@[simp] theorem hbmqPut_latch (k : Nat) (x : HbmQ) : (hbmqPut s k x).latch = s.latch := rfl
@[simp] theorem hbmqPut_staging (k : Nat) (x : HbmQ) : (hbmqPut s k x).staging = s.staging := rfl
@[simp] theorem hbmqPut_cold (k : Nat) (x : HbmQ) : (hbmqPut s k x).cold = s.cold := rfl
@[simp] theorem hbmqPut_sqs (k : Nat) (x : HbmQ) : (hbmqPut s k x).sqs = s.sqs := rfl
@[simp] theorem hbmqPut_cqs (k : Nat) (x : HbmQ) : (hbmqPut s k x).cqs = s.cqs := rfl
@[simp] theorem hbmqPut_cmds (k : Nat) (x : HbmQ) : (hbmqPut s k x).cmds = s.cmds := rfl
@[simp] theorem hbmqPut_bell (k : Nat) (x : HbmQ) : (hbmqPut s k x).bell = s.bell := rfl
@[simp] theorem hbmqPut_turn (k : Nat) (x : HbmQ) : (hbmqPut s k x).turn = s.turn := rfl
@[simp] theorem hbmqPut_lastTurn (k : Nat) (x : HbmQ) : (hbmqPut s k x).lastTurn = s.lastTurn := rfl
@[simp] theorem hbmqPut_rolls (k : Nat) (x : HbmQ) : (hbmqPut s k x).rolls = s.rolls := rfl
@[simp] theorem hbmqPut_streams (k : Nat) (x : HbmQ) : (hbmqPut s k x).streams = s.streams := rfl
@[simp] theorem hbmqPut_links (k : Nat) (x : HbmQ) : (hbmqPut s k x).links = s.links := rfl
@[simp] theorem hbmqPut_tags (k : Nat) (x : HbmQ) : (hbmqPut s k x).tags = s.tags := rfl
@[simp] theorem hbmqPut_gens (k : Nat) (x : HbmQ) : (hbmqPut s k x).gens = s.gens := rfl
@[simp] theorem hbmqPut_fabs (k : Nat) (x : HbmQ) : (hbmqPut s k x).fabs = s.fabs := rfl
@[simp] theorem hbmqPut_cgroups (k : Nat) (x : HbmQ) : (hbmqPut s k x).cgroups = s.cgroups := rfl
@[simp] theorem hbmqPut_cruns (k : Nat) (x : HbmQ) : (hbmqPut s k x).cruns = s.cruns := rfl
@[simp] theorem hbmqPut_sess (k : Nat) (x : HbmQ) : (hbmqPut s k x).sess = s.sess := rfl
@[simp] theorem hbmqPut_aligns (k : Nat) (x : HbmQ) : (hbmqPut s k x).aligns = s.aligns := rfl
@[simp] theorem hbmqPut_tts (k : Nat) (x : HbmQ) : (hbmqPut s k x).tts = s.tts := rfl
@[simp] theorem hbmqPut_toccs (k : Nat) (x : HbmQ) : (hbmqPut s k x).toccs = s.toccs := rfl
@[simp] theorem hbmqPut_ttUid (k : Nat) (x : HbmQ) : (hbmqPut s k x).ttUid = s.ttUid := rfl
@[simp] theorem hbmqPut_dicts (k : Nat) (x : HbmQ) : (hbmqPut s k x).dicts = s.dicts := rfl
@[simp] theorem hbmqPut_scl (k : Nat) (x : HbmQ) : (hbmqPut s k x).scl = s.scl := rfl
@[simp] theorem hbmqPut_stop (k : Nat) (x : HbmQ) : (hbmqPut s k x).stop = s.stop := rfl
@[simp] theorem hbmqPut_errLog (k : Nat) (x : HbmQ) : (hbmqPut s k x).errLog = s.errLog := rfl
@[simp] theorem hbmqPut_traces (k : Nat) (x : HbmQ) : (hbmqPut s k x).traces = s.traces := rfl
@[simp] theorem hbmqPut_uresets (k : Nat) (x : HbmQ) : (hbmqPut s k x).uresets = s.uresets := rfl
@[simp] theorem hbmqPut_lastReset (k : Nat) (x : HbmQ) : (hbmqPut s k x).lastReset = s.lastReset := rfl
@[simp] theorem hbmqPut_prtCmd (k : Nat) (x : HbmQ) : (hbmqPut s k x).prtCmd = s.prtCmd := rfl
@[simp] theorem hbmqPut_mbxq (k : Nat) (x : HbmQ) : (hbmqPut s k x).mbxq = s.mbxq := rfl
@[simp] theorem hbmqPut_power (k : Nat) (x : HbmQ) : (hbmqPut s k x).power = s.power := rfl
@[simp] theorem hbmqPut_jnl (k : Nat) (x : HbmQ) : (hbmqPut s k x).jnl = s.jnl := rfl
@[simp] theorem hbmqPut_kImg (k : Nat) (x : HbmQ) : (hbmqPut s k x).kImg = s.kImg := rfl
@[simp] theorem hbmqPut_uImg (k : Nat) (x : HbmQ) : (hbmqPut s k x).uImg = s.uImg := rfl
@[simp] theorem hbmqPut_heldRec (k : Nat) (x : HbmQ) : (hbmqPut s k x).heldRec = s.heldRec := rfl
@[simp] theorem hbmqPut_fuses (k : Nat) (x : HbmQ) : (hbmqPut s k x).fuses = s.fuses := rfl
@[simp] theorem hbmqPut_trained (k : Nat) (x : HbmQ) : (hbmqPut s k x).trained = s.trained := rfl
@[simp] theorem hbmqPut_sblk (k : Nat) (x : HbmQ) : (hbmqPut s k x).sblk = s.sblk := rfl
@[simp] theorem hbmqPut_i3c (k : Nat) (x : HbmQ) : (hbmqPut s k x).i3c = s.i3c := rfl
@[simp] theorem hbmqPut_jtag (k : Nat) (x : HbmQ) : (hbmqPut s k x).jtag = s.jtag := rfl
@[simp] theorem hbmqPut_perst (k : Nat) (x : HbmQ) : (hbmqPut s k x).perst = s.perst := rfl
@[simp] theorem hbmqPut_pcieUp (k : Nat) (x : HbmQ) : (hbmqPut s k x).pcieUp = s.pcieUp := rfl
@[simp] theorem hbmqPut_msixHeld (k : Nat) (x : HbmQ) : (hbmqPut s k x).msixHeld = s.msixHeld := rfl

/-! ### rollPut -/

@[simp] theorem rollPut_pending (p : Nat) (x : Option Roll) : (rollPut s p x).pending = s.pending := rfl
@[simp] theorem rollPut_now (p : Nat) (x : Option Roll) : (rollPut s p x).now = s.now := rfl
@[simp] theorem rollPut_free (p : Nat) (x : Option Roll) : (rollPut s p x).free = s.free := rfl
@[simp] theorem rollPut_mems (p : Nat) (x : Option Roll) : (rollPut s p x).mems = s.mems := rfl
@[simp] theorem rollPut_regs (p : Nat) (x : Option Roll) : (rollPut s p x).regs = s.regs := rfl
@[simp] theorem rollPut_disarmed (p : Nat) (x : Option Roll) : (rollPut s p x).disarmed = s.disarmed := rfl
@[simp] theorem rollPut_msix (p : Nat) (x : Option Roll) : (rollPut s p x).msix = s.msix := rfl
@[simp] theorem rollPut_cells (p : Nat) (x : Option Roll) : (rollPut s p x).cells = s.cells := rfl
@[simp] theorem rollPut_mcast (p : Nat) (x : Option Roll) : (rollPut s p x).mcast = s.mcast := rfl
@[simp] theorem rollPut_barriers (p : Nat) (x : Option Roll) : (rollPut s p x).barriers = s.barriers := rfl
@[simp] theorem rollPut_splits (p : Nat) (x : Option Roll) : (rollPut s p x).splits = s.splits := rfl
@[simp] theorem rollPut_parts (p : Nat) (x : Option Roll) : (rollPut s p x).parts = s.parts := rfl
@[simp] theorem rollPut_cache (p : Nat) (x : Option Roll) : (rollPut s p x).cache = s.cache := rfl
@[simp] theorem rollPut_fills (p : Nat) (x : Option Roll) : (rollPut s p x).fills = s.fills := rfl
@[simp] theorem rollPut_hbmq (p : Nat) (x : Option Roll) : (rollPut s p x).hbmq = s.hbmq := rfl
@[simp] theorem rollPut_wins (p : Nat) (x : Option Roll) : (rollPut s p x).wins = s.wins := rfl
@[simp] theorem rollPut_credit (p : Nat) (x : Option Roll) : (rollPut s p x).credit = s.credit := rfl
@[simp] theorem rollPut_bargeSeq (p : Nat) (x : Option Roll) : (rollPut s p x).bargeSeq = s.bargeSeq := rfl
@[simp] theorem rollPut_bargeWait (p : Nat) (x : Option Roll) : (rollPut s p x).bargeWait = s.bargeWait := rfl
@[simp] theorem rollPut_barges (p : Nat) (x : Option Roll) : (rollPut s p x).barges = s.barges := rfl
@[simp] theorem rollPut_engineLast (p : Nat) (x : Option Roll) : (rollPut s p x).engineLast = s.engineLast := rfl
@[simp] theorem rollPut_locks (p : Nat) (x : Option Roll) : (rollPut s p x).locks = s.locks := rfl
@[simp] theorem rollPut_bargeNotices (p : Nat) (x : Option Roll) : (rollPut s p x).bargeNotices = s.bargeNotices := rfl
@[simp] theorem rollPut_gsuLast (p : Nat) (x : Option Roll) : (rollPut s p x).gsuLast = s.gsuLast := rfl
@[simp] theorem rollPut_stepping (p : Nat) (x : Option Roll) : (rollPut s p x).stepping = s.stepping := rfl
@[simp] theorem rollPut_throttle (p : Nat) (x : Option Roll) : (rollPut s p x).throttle = s.throttle := rfl
@[simp] theorem rollPut_notices (p : Nat) (x : Option Roll) : (rollPut s p x).notices = s.notices := rfl
@[simp] theorem rollPut_faults (p : Nat) (x : Option Roll) : (rollPut s p x).faults = s.faults := rfl
@[simp] theorem rollPut_sclTime (p : Nat) (x : Option Roll) : (rollPut s p x).sclTime = s.sclTime := rfl
@[simp] theorem rollPut_dark (p : Nat) (x : Option Roll) : (rollPut s p x).dark = s.dark := rfl
@[simp] theorem rollPut_resp (p : Nat) (x : Option Roll) : (rollPut s p x).resp = s.resp := rfl
@[simp] theorem rollPut_latch (p : Nat) (x : Option Roll) : (rollPut s p x).latch = s.latch := rfl
@[simp] theorem rollPut_staging (p : Nat) (x : Option Roll) : (rollPut s p x).staging = s.staging := rfl
@[simp] theorem rollPut_cold (p : Nat) (x : Option Roll) : (rollPut s p x).cold = s.cold := rfl
@[simp] theorem rollPut_sqs (p : Nat) (x : Option Roll) : (rollPut s p x).sqs = s.sqs := rfl
@[simp] theorem rollPut_cqs (p : Nat) (x : Option Roll) : (rollPut s p x).cqs = s.cqs := rfl
@[simp] theorem rollPut_cmds (p : Nat) (x : Option Roll) : (rollPut s p x).cmds = s.cmds := rfl
@[simp] theorem rollPut_bell (p : Nat) (x : Option Roll) : (rollPut s p x).bell = s.bell := rfl
@[simp] theorem rollPut_turn (p : Nat) (x : Option Roll) : (rollPut s p x).turn = s.turn := rfl
@[simp] theorem rollPut_lastTurn (p : Nat) (x : Option Roll) : (rollPut s p x).lastTurn = s.lastTurn := rfl
@[simp] theorem rollPut_streams (p : Nat) (x : Option Roll) : (rollPut s p x).streams = s.streams := rfl
@[simp] theorem rollPut_links (p : Nat) (x : Option Roll) : (rollPut s p x).links = s.links := rfl
@[simp] theorem rollPut_tags (p : Nat) (x : Option Roll) : (rollPut s p x).tags = s.tags := rfl
@[simp] theorem rollPut_gens (p : Nat) (x : Option Roll) : (rollPut s p x).gens = s.gens := rfl
@[simp] theorem rollPut_fabs (p : Nat) (x : Option Roll) : (rollPut s p x).fabs = s.fabs := rfl
@[simp] theorem rollPut_cgroups (p : Nat) (x : Option Roll) : (rollPut s p x).cgroups = s.cgroups := rfl
@[simp] theorem rollPut_cruns (p : Nat) (x : Option Roll) : (rollPut s p x).cruns = s.cruns := rfl
@[simp] theorem rollPut_sess (p : Nat) (x : Option Roll) : (rollPut s p x).sess = s.sess := rfl
@[simp] theorem rollPut_aligns (p : Nat) (x : Option Roll) : (rollPut s p x).aligns = s.aligns := rfl
@[simp] theorem rollPut_tts (p : Nat) (x : Option Roll) : (rollPut s p x).tts = s.tts := rfl
@[simp] theorem rollPut_toccs (p : Nat) (x : Option Roll) : (rollPut s p x).toccs = s.toccs := rfl
@[simp] theorem rollPut_ttUid (p : Nat) (x : Option Roll) : (rollPut s p x).ttUid = s.ttUid := rfl
@[simp] theorem rollPut_dicts (p : Nat) (x : Option Roll) : (rollPut s p x).dicts = s.dicts := rfl
@[simp] theorem rollPut_scl (p : Nat) (x : Option Roll) : (rollPut s p x).scl = s.scl := rfl
@[simp] theorem rollPut_stop (p : Nat) (x : Option Roll) : (rollPut s p x).stop = s.stop := rfl
@[simp] theorem rollPut_errLog (p : Nat) (x : Option Roll) : (rollPut s p x).errLog = s.errLog := rfl
@[simp] theorem rollPut_traces (p : Nat) (x : Option Roll) : (rollPut s p x).traces = s.traces := rfl
@[simp] theorem rollPut_uresets (p : Nat) (x : Option Roll) : (rollPut s p x).uresets = s.uresets := rfl
@[simp] theorem rollPut_lastReset (p : Nat) (x : Option Roll) : (rollPut s p x).lastReset = s.lastReset := rfl
@[simp] theorem rollPut_prtCmd (p : Nat) (x : Option Roll) : (rollPut s p x).prtCmd = s.prtCmd := rfl
@[simp] theorem rollPut_mbxq (p : Nat) (x : Option Roll) : (rollPut s p x).mbxq = s.mbxq := rfl
@[simp] theorem rollPut_power (p : Nat) (x : Option Roll) : (rollPut s p x).power = s.power := rfl
@[simp] theorem rollPut_jnl (p : Nat) (x : Option Roll) : (rollPut s p x).jnl = s.jnl := rfl
@[simp] theorem rollPut_kImg (p : Nat) (x : Option Roll) : (rollPut s p x).kImg = s.kImg := rfl
@[simp] theorem rollPut_uImg (p : Nat) (x : Option Roll) : (rollPut s p x).uImg = s.uImg := rfl
@[simp] theorem rollPut_heldRec (p : Nat) (x : Option Roll) : (rollPut s p x).heldRec = s.heldRec := rfl
@[simp] theorem rollPut_fuses (p : Nat) (x : Option Roll) : (rollPut s p x).fuses = s.fuses := rfl
@[simp] theorem rollPut_trained (p : Nat) (x : Option Roll) : (rollPut s p x).trained = s.trained := rfl
@[simp] theorem rollPut_sblk (p : Nat) (x : Option Roll) : (rollPut s p x).sblk = s.sblk := rfl
@[simp] theorem rollPut_i3c (p : Nat) (x : Option Roll) : (rollPut s p x).i3c = s.i3c := rfl
@[simp] theorem rollPut_jtag (p : Nat) (x : Option Roll) : (rollPut s p x).jtag = s.jtag := rfl
@[simp] theorem rollPut_perst (p : Nat) (x : Option Roll) : (rollPut s p x).perst = s.perst := rfl
@[simp] theorem rollPut_pcieUp (p : Nat) (x : Option Roll) : (rollPut s p x).pcieUp = s.pcieUp := rfl
@[simp] theorem rollPut_msixHeld (p : Nat) (x : Option Roll) : (rollPut s p x).msixHeld = s.msixHeld := rfl

/-! ### sqPut -/

@[simp] theorem sqPut_pending (p q : Nat) (x : Sq) : (sqPut s p q x).pending = s.pending := rfl
@[simp] theorem sqPut_now (p q : Nat) (x : Sq) : (sqPut s p q x).now = s.now := rfl
@[simp] theorem sqPut_free (p q : Nat) (x : Sq) : (sqPut s p q x).free = s.free := rfl
@[simp] theorem sqPut_mems (p q : Nat) (x : Sq) : (sqPut s p q x).mems = s.mems := rfl
@[simp] theorem sqPut_regs (p q : Nat) (x : Sq) : (sqPut s p q x).regs = s.regs := rfl
@[simp] theorem sqPut_disarmed (p q : Nat) (x : Sq) : (sqPut s p q x).disarmed = s.disarmed := rfl
@[simp] theorem sqPut_msix (p q : Nat) (x : Sq) : (sqPut s p q x).msix = s.msix := rfl
@[simp] theorem sqPut_cells (p q : Nat) (x : Sq) : (sqPut s p q x).cells = s.cells := rfl
@[simp] theorem sqPut_mcast (p q : Nat) (x : Sq) : (sqPut s p q x).mcast = s.mcast := rfl
@[simp] theorem sqPut_barriers (p q : Nat) (x : Sq) : (sqPut s p q x).barriers = s.barriers := rfl
@[simp] theorem sqPut_splits (p q : Nat) (x : Sq) : (sqPut s p q x).splits = s.splits := rfl
@[simp] theorem sqPut_parts (p q : Nat) (x : Sq) : (sqPut s p q x).parts = s.parts := rfl
@[simp] theorem sqPut_cache (p q : Nat) (x : Sq) : (sqPut s p q x).cache = s.cache := rfl
@[simp] theorem sqPut_fills (p q : Nat) (x : Sq) : (sqPut s p q x).fills = s.fills := rfl
@[simp] theorem sqPut_hbmq (p q : Nat) (x : Sq) : (sqPut s p q x).hbmq = s.hbmq := rfl
@[simp] theorem sqPut_wins (p q : Nat) (x : Sq) : (sqPut s p q x).wins = s.wins := rfl
@[simp] theorem sqPut_credit (p q : Nat) (x : Sq) : (sqPut s p q x).credit = s.credit := rfl
@[simp] theorem sqPut_bargeSeq (p q : Nat) (x : Sq) : (sqPut s p q x).bargeSeq = s.bargeSeq := rfl
@[simp] theorem sqPut_bargeWait (p q : Nat) (x : Sq) : (sqPut s p q x).bargeWait = s.bargeWait := rfl
@[simp] theorem sqPut_barges (p q : Nat) (x : Sq) : (sqPut s p q x).barges = s.barges := rfl
@[simp] theorem sqPut_engineLast (p q : Nat) (x : Sq) : (sqPut s p q x).engineLast = s.engineLast := rfl
@[simp] theorem sqPut_locks (p q : Nat) (x : Sq) : (sqPut s p q x).locks = s.locks := rfl
@[simp] theorem sqPut_bargeNotices (p q : Nat) (x : Sq) : (sqPut s p q x).bargeNotices = s.bargeNotices := rfl
@[simp] theorem sqPut_gsuLast (p q : Nat) (x : Sq) : (sqPut s p q x).gsuLast = s.gsuLast := rfl
@[simp] theorem sqPut_stepping (p q : Nat) (x : Sq) : (sqPut s p q x).stepping = s.stepping := rfl
@[simp] theorem sqPut_throttle (p q : Nat) (x : Sq) : (sqPut s p q x).throttle = s.throttle := rfl
@[simp] theorem sqPut_notices (p q : Nat) (x : Sq) : (sqPut s p q x).notices = s.notices := rfl
@[simp] theorem sqPut_faults (p q : Nat) (x : Sq) : (sqPut s p q x).faults = s.faults := rfl
@[simp] theorem sqPut_sclTime (p q : Nat) (x : Sq) : (sqPut s p q x).sclTime = s.sclTime := rfl
@[simp] theorem sqPut_dark (p q : Nat) (x : Sq) : (sqPut s p q x).dark = s.dark := rfl
@[simp] theorem sqPut_resp (p q : Nat) (x : Sq) : (sqPut s p q x).resp = s.resp := rfl
@[simp] theorem sqPut_latch (p q : Nat) (x : Sq) : (sqPut s p q x).latch = s.latch := rfl
@[simp] theorem sqPut_staging (p q : Nat) (x : Sq) : (sqPut s p q x).staging = s.staging := rfl
@[simp] theorem sqPut_cold (p q : Nat) (x : Sq) : (sqPut s p q x).cold = s.cold := rfl
@[simp] theorem sqPut_cqs (p q : Nat) (x : Sq) : (sqPut s p q x).cqs = s.cqs := rfl
@[simp] theorem sqPut_cmds (p q : Nat) (x : Sq) : (sqPut s p q x).cmds = s.cmds := rfl
@[simp] theorem sqPut_bell (p q : Nat) (x : Sq) : (sqPut s p q x).bell = s.bell := rfl
@[simp] theorem sqPut_turn (p q : Nat) (x : Sq) : (sqPut s p q x).turn = s.turn := rfl
@[simp] theorem sqPut_lastTurn (p q : Nat) (x : Sq) : (sqPut s p q x).lastTurn = s.lastTurn := rfl
@[simp] theorem sqPut_rolls (p q : Nat) (x : Sq) : (sqPut s p q x).rolls = s.rolls := rfl
@[simp] theorem sqPut_streams (p q : Nat) (x : Sq) : (sqPut s p q x).streams = s.streams := rfl
@[simp] theorem sqPut_links (p q : Nat) (x : Sq) : (sqPut s p q x).links = s.links := rfl
@[simp] theorem sqPut_tags (p q : Nat) (x : Sq) : (sqPut s p q x).tags = s.tags := rfl
@[simp] theorem sqPut_gens (p q : Nat) (x : Sq) : (sqPut s p q x).gens = s.gens := rfl
@[simp] theorem sqPut_fabs (p q : Nat) (x : Sq) : (sqPut s p q x).fabs = s.fabs := rfl
@[simp] theorem sqPut_cgroups (p q : Nat) (x : Sq) : (sqPut s p q x).cgroups = s.cgroups := rfl
@[simp] theorem sqPut_cruns (p q : Nat) (x : Sq) : (sqPut s p q x).cruns = s.cruns := rfl
@[simp] theorem sqPut_sess (p q : Nat) (x : Sq) : (sqPut s p q x).sess = s.sess := rfl
@[simp] theorem sqPut_aligns (p q : Nat) (x : Sq) : (sqPut s p q x).aligns = s.aligns := rfl
@[simp] theorem sqPut_tts (p q : Nat) (x : Sq) : (sqPut s p q x).tts = s.tts := rfl
@[simp] theorem sqPut_toccs (p q : Nat) (x : Sq) : (sqPut s p q x).toccs = s.toccs := rfl
@[simp] theorem sqPut_ttUid (p q : Nat) (x : Sq) : (sqPut s p q x).ttUid = s.ttUid := rfl
@[simp] theorem sqPut_dicts (p q : Nat) (x : Sq) : (sqPut s p q x).dicts = s.dicts := rfl
@[simp] theorem sqPut_scl (p q : Nat) (x : Sq) : (sqPut s p q x).scl = s.scl := rfl
@[simp] theorem sqPut_stop (p q : Nat) (x : Sq) : (sqPut s p q x).stop = s.stop := rfl
@[simp] theorem sqPut_errLog (p q : Nat) (x : Sq) : (sqPut s p q x).errLog = s.errLog := rfl
@[simp] theorem sqPut_traces (p q : Nat) (x : Sq) : (sqPut s p q x).traces = s.traces := rfl
@[simp] theorem sqPut_uresets (p q : Nat) (x : Sq) : (sqPut s p q x).uresets = s.uresets := rfl
@[simp] theorem sqPut_lastReset (p q : Nat) (x : Sq) : (sqPut s p q x).lastReset = s.lastReset := rfl
@[simp] theorem sqPut_prtCmd (p q : Nat) (x : Sq) : (sqPut s p q x).prtCmd = s.prtCmd := rfl
@[simp] theorem sqPut_mbxq (p q : Nat) (x : Sq) : (sqPut s p q x).mbxq = s.mbxq := rfl
@[simp] theorem sqPut_power (p q : Nat) (x : Sq) : (sqPut s p q x).power = s.power := rfl
@[simp] theorem sqPut_jnl (p q : Nat) (x : Sq) : (sqPut s p q x).jnl = s.jnl := rfl
@[simp] theorem sqPut_kImg (p q : Nat) (x : Sq) : (sqPut s p q x).kImg = s.kImg := rfl
@[simp] theorem sqPut_uImg (p q : Nat) (x : Sq) : (sqPut s p q x).uImg = s.uImg := rfl
@[simp] theorem sqPut_heldRec (p q : Nat) (x : Sq) : (sqPut s p q x).heldRec = s.heldRec := rfl
@[simp] theorem sqPut_fuses (p q : Nat) (x : Sq) : (sqPut s p q x).fuses = s.fuses := rfl
@[simp] theorem sqPut_trained (p q : Nat) (x : Sq) : (sqPut s p q x).trained = s.trained := rfl
@[simp] theorem sqPut_sblk (p q : Nat) (x : Sq) : (sqPut s p q x).sblk = s.sblk := rfl
@[simp] theorem sqPut_i3c (p q : Nat) (x : Sq) : (sqPut s p q x).i3c = s.i3c := rfl
@[simp] theorem sqPut_jtag (p q : Nat) (x : Sq) : (sqPut s p q x).jtag = s.jtag := rfl
@[simp] theorem sqPut_perst (p q : Nat) (x : Sq) : (sqPut s p q x).perst = s.perst := rfl
@[simp] theorem sqPut_pcieUp (p q : Nat) (x : Sq) : (sqPut s p q x).pcieUp = s.pcieUp := rfl
@[simp] theorem sqPut_msixHeld (p q : Nat) (x : Sq) : (sqPut s p q x).msixHeld = s.msixHeld := rfl

/-! ### cqPut -/

@[simp] theorem cqPut_pending (p q : Nat) (x : Cq) : (cqPut s p q x).pending = s.pending := rfl
@[simp] theorem cqPut_now (p q : Nat) (x : Cq) : (cqPut s p q x).now = s.now := rfl
@[simp] theorem cqPut_free (p q : Nat) (x : Cq) : (cqPut s p q x).free = s.free := rfl
@[simp] theorem cqPut_mems (p q : Nat) (x : Cq) : (cqPut s p q x).mems = s.mems := rfl
@[simp] theorem cqPut_regs (p q : Nat) (x : Cq) : (cqPut s p q x).regs = s.regs := rfl
@[simp] theorem cqPut_disarmed (p q : Nat) (x : Cq) : (cqPut s p q x).disarmed = s.disarmed := rfl
@[simp] theorem cqPut_msix (p q : Nat) (x : Cq) : (cqPut s p q x).msix = s.msix := rfl
@[simp] theorem cqPut_cells (p q : Nat) (x : Cq) : (cqPut s p q x).cells = s.cells := rfl
@[simp] theorem cqPut_mcast (p q : Nat) (x : Cq) : (cqPut s p q x).mcast = s.mcast := rfl
@[simp] theorem cqPut_barriers (p q : Nat) (x : Cq) : (cqPut s p q x).barriers = s.barriers := rfl
@[simp] theorem cqPut_splits (p q : Nat) (x : Cq) : (cqPut s p q x).splits = s.splits := rfl
@[simp] theorem cqPut_parts (p q : Nat) (x : Cq) : (cqPut s p q x).parts = s.parts := rfl
@[simp] theorem cqPut_cache (p q : Nat) (x : Cq) : (cqPut s p q x).cache = s.cache := rfl
@[simp] theorem cqPut_fills (p q : Nat) (x : Cq) : (cqPut s p q x).fills = s.fills := rfl
@[simp] theorem cqPut_hbmq (p q : Nat) (x : Cq) : (cqPut s p q x).hbmq = s.hbmq := rfl
@[simp] theorem cqPut_wins (p q : Nat) (x : Cq) : (cqPut s p q x).wins = s.wins := rfl
@[simp] theorem cqPut_credit (p q : Nat) (x : Cq) : (cqPut s p q x).credit = s.credit := rfl
@[simp] theorem cqPut_bargeSeq (p q : Nat) (x : Cq) : (cqPut s p q x).bargeSeq = s.bargeSeq := rfl
@[simp] theorem cqPut_bargeWait (p q : Nat) (x : Cq) : (cqPut s p q x).bargeWait = s.bargeWait := rfl
@[simp] theorem cqPut_barges (p q : Nat) (x : Cq) : (cqPut s p q x).barges = s.barges := rfl
@[simp] theorem cqPut_engineLast (p q : Nat) (x : Cq) : (cqPut s p q x).engineLast = s.engineLast := rfl
@[simp] theorem cqPut_locks (p q : Nat) (x : Cq) : (cqPut s p q x).locks = s.locks := rfl
@[simp] theorem cqPut_bargeNotices (p q : Nat) (x : Cq) : (cqPut s p q x).bargeNotices = s.bargeNotices := rfl
@[simp] theorem cqPut_gsuLast (p q : Nat) (x : Cq) : (cqPut s p q x).gsuLast = s.gsuLast := rfl
@[simp] theorem cqPut_stepping (p q : Nat) (x : Cq) : (cqPut s p q x).stepping = s.stepping := rfl
@[simp] theorem cqPut_throttle (p q : Nat) (x : Cq) : (cqPut s p q x).throttle = s.throttle := rfl
@[simp] theorem cqPut_notices (p q : Nat) (x : Cq) : (cqPut s p q x).notices = s.notices := rfl
@[simp] theorem cqPut_faults (p q : Nat) (x : Cq) : (cqPut s p q x).faults = s.faults := rfl
@[simp] theorem cqPut_sclTime (p q : Nat) (x : Cq) : (cqPut s p q x).sclTime = s.sclTime := rfl
@[simp] theorem cqPut_dark (p q : Nat) (x : Cq) : (cqPut s p q x).dark = s.dark := rfl
@[simp] theorem cqPut_resp (p q : Nat) (x : Cq) : (cqPut s p q x).resp = s.resp := rfl
@[simp] theorem cqPut_latch (p q : Nat) (x : Cq) : (cqPut s p q x).latch = s.latch := rfl
@[simp] theorem cqPut_staging (p q : Nat) (x : Cq) : (cqPut s p q x).staging = s.staging := rfl
@[simp] theorem cqPut_cold (p q : Nat) (x : Cq) : (cqPut s p q x).cold = s.cold := rfl
@[simp] theorem cqPut_sqs (p q : Nat) (x : Cq) : (cqPut s p q x).sqs = s.sqs := rfl
@[simp] theorem cqPut_cmds (p q : Nat) (x : Cq) : (cqPut s p q x).cmds = s.cmds := rfl
@[simp] theorem cqPut_bell (p q : Nat) (x : Cq) : (cqPut s p q x).bell = s.bell := rfl
@[simp] theorem cqPut_turn (p q : Nat) (x : Cq) : (cqPut s p q x).turn = s.turn := rfl
@[simp] theorem cqPut_lastTurn (p q : Nat) (x : Cq) : (cqPut s p q x).lastTurn = s.lastTurn := rfl
@[simp] theorem cqPut_rolls (p q : Nat) (x : Cq) : (cqPut s p q x).rolls = s.rolls := rfl
@[simp] theorem cqPut_streams (p q : Nat) (x : Cq) : (cqPut s p q x).streams = s.streams := rfl
@[simp] theorem cqPut_links (p q : Nat) (x : Cq) : (cqPut s p q x).links = s.links := rfl
@[simp] theorem cqPut_tags (p q : Nat) (x : Cq) : (cqPut s p q x).tags = s.tags := rfl
@[simp] theorem cqPut_gens (p q : Nat) (x : Cq) : (cqPut s p q x).gens = s.gens := rfl
@[simp] theorem cqPut_fabs (p q : Nat) (x : Cq) : (cqPut s p q x).fabs = s.fabs := rfl
@[simp] theorem cqPut_cgroups (p q : Nat) (x : Cq) : (cqPut s p q x).cgroups = s.cgroups := rfl
@[simp] theorem cqPut_cruns (p q : Nat) (x : Cq) : (cqPut s p q x).cruns = s.cruns := rfl
@[simp] theorem cqPut_sess (p q : Nat) (x : Cq) : (cqPut s p q x).sess = s.sess := rfl
@[simp] theorem cqPut_aligns (p q : Nat) (x : Cq) : (cqPut s p q x).aligns = s.aligns := rfl
@[simp] theorem cqPut_tts (p q : Nat) (x : Cq) : (cqPut s p q x).tts = s.tts := rfl
@[simp] theorem cqPut_toccs (p q : Nat) (x : Cq) : (cqPut s p q x).toccs = s.toccs := rfl
@[simp] theorem cqPut_ttUid (p q : Nat) (x : Cq) : (cqPut s p q x).ttUid = s.ttUid := rfl
@[simp] theorem cqPut_dicts (p q : Nat) (x : Cq) : (cqPut s p q x).dicts = s.dicts := rfl
@[simp] theorem cqPut_scl (p q : Nat) (x : Cq) : (cqPut s p q x).scl = s.scl := rfl
@[simp] theorem cqPut_stop (p q : Nat) (x : Cq) : (cqPut s p q x).stop = s.stop := rfl
@[simp] theorem cqPut_errLog (p q : Nat) (x : Cq) : (cqPut s p q x).errLog = s.errLog := rfl
@[simp] theorem cqPut_traces (p q : Nat) (x : Cq) : (cqPut s p q x).traces = s.traces := rfl
@[simp] theorem cqPut_uresets (p q : Nat) (x : Cq) : (cqPut s p q x).uresets = s.uresets := rfl
@[simp] theorem cqPut_lastReset (p q : Nat) (x : Cq) : (cqPut s p q x).lastReset = s.lastReset := rfl
@[simp] theorem cqPut_prtCmd (p q : Nat) (x : Cq) : (cqPut s p q x).prtCmd = s.prtCmd := rfl
@[simp] theorem cqPut_mbxq (p q : Nat) (x : Cq) : (cqPut s p q x).mbxq = s.mbxq := rfl
@[simp] theorem cqPut_power (p q : Nat) (x : Cq) : (cqPut s p q x).power = s.power := rfl
@[simp] theorem cqPut_jnl (p q : Nat) (x : Cq) : (cqPut s p q x).jnl = s.jnl := rfl
@[simp] theorem cqPut_kImg (p q : Nat) (x : Cq) : (cqPut s p q x).kImg = s.kImg := rfl
@[simp] theorem cqPut_uImg (p q : Nat) (x : Cq) : (cqPut s p q x).uImg = s.uImg := rfl
@[simp] theorem cqPut_heldRec (p q : Nat) (x : Cq) : (cqPut s p q x).heldRec = s.heldRec := rfl
@[simp] theorem cqPut_fuses (p q : Nat) (x : Cq) : (cqPut s p q x).fuses = s.fuses := rfl
@[simp] theorem cqPut_trained (p q : Nat) (x : Cq) : (cqPut s p q x).trained = s.trained := rfl
@[simp] theorem cqPut_sblk (p q : Nat) (x : Cq) : (cqPut s p q x).sblk = s.sblk := rfl
@[simp] theorem cqPut_i3c (p q : Nat) (x : Cq) : (cqPut s p q x).i3c = s.i3c := rfl
@[simp] theorem cqPut_jtag (p q : Nat) (x : Cq) : (cqPut s p q x).jtag = s.jtag := rfl
@[simp] theorem cqPut_perst (p q : Nat) (x : Cq) : (cqPut s p q x).perst = s.perst := rfl
@[simp] theorem cqPut_pcieUp (p q : Nat) (x : Cq) : (cqPut s p q x).pcieUp = s.pcieUp := rfl
@[simp] theorem cqPut_msixHeld (p q : Nat) (x : Cq) : (cqPut s p q x).msixHeld = s.msixHeld := rfl

/-! ### mbxqPut -/

@[simp] theorem mbxqPut_pending (c : Nat) (x : MbxQ) : (mbxqPut s c x).pending = s.pending := rfl
@[simp] theorem mbxqPut_now (c : Nat) (x : MbxQ) : (mbxqPut s c x).now = s.now := rfl
@[simp] theorem mbxqPut_free (c : Nat) (x : MbxQ) : (mbxqPut s c x).free = s.free := rfl
@[simp] theorem mbxqPut_mems (c : Nat) (x : MbxQ) : (mbxqPut s c x).mems = s.mems := rfl
@[simp] theorem mbxqPut_regs (c : Nat) (x : MbxQ) : (mbxqPut s c x).regs = s.regs := rfl
@[simp] theorem mbxqPut_disarmed (c : Nat) (x : MbxQ) : (mbxqPut s c x).disarmed = s.disarmed := rfl
@[simp] theorem mbxqPut_msix (c : Nat) (x : MbxQ) : (mbxqPut s c x).msix = s.msix := rfl
@[simp] theorem mbxqPut_cells (c : Nat) (x : MbxQ) : (mbxqPut s c x).cells = s.cells := rfl
@[simp] theorem mbxqPut_mcast (c : Nat) (x : MbxQ) : (mbxqPut s c x).mcast = s.mcast := rfl
@[simp] theorem mbxqPut_barriers (c : Nat) (x : MbxQ) : (mbxqPut s c x).barriers = s.barriers := rfl
@[simp] theorem mbxqPut_splits (c : Nat) (x : MbxQ) : (mbxqPut s c x).splits = s.splits := rfl
@[simp] theorem mbxqPut_parts (c : Nat) (x : MbxQ) : (mbxqPut s c x).parts = s.parts := rfl
@[simp] theorem mbxqPut_cache (c : Nat) (x : MbxQ) : (mbxqPut s c x).cache = s.cache := rfl
@[simp] theorem mbxqPut_fills (c : Nat) (x : MbxQ) : (mbxqPut s c x).fills = s.fills := rfl
@[simp] theorem mbxqPut_hbmq (c : Nat) (x : MbxQ) : (mbxqPut s c x).hbmq = s.hbmq := rfl
@[simp] theorem mbxqPut_wins (c : Nat) (x : MbxQ) : (mbxqPut s c x).wins = s.wins := rfl
@[simp] theorem mbxqPut_credit (c : Nat) (x : MbxQ) : (mbxqPut s c x).credit = s.credit := rfl
@[simp] theorem mbxqPut_bargeSeq (c : Nat) (x : MbxQ) : (mbxqPut s c x).bargeSeq = s.bargeSeq := rfl
@[simp] theorem mbxqPut_bargeWait (c : Nat) (x : MbxQ) : (mbxqPut s c x).bargeWait = s.bargeWait := rfl
@[simp] theorem mbxqPut_barges (c : Nat) (x : MbxQ) : (mbxqPut s c x).barges = s.barges := rfl
@[simp] theorem mbxqPut_engineLast (c : Nat) (x : MbxQ) : (mbxqPut s c x).engineLast = s.engineLast := rfl
@[simp] theorem mbxqPut_locks (c : Nat) (x : MbxQ) : (mbxqPut s c x).locks = s.locks := rfl
@[simp] theorem mbxqPut_bargeNotices (c : Nat) (x : MbxQ) : (mbxqPut s c x).bargeNotices = s.bargeNotices := rfl
@[simp] theorem mbxqPut_gsuLast (c : Nat) (x : MbxQ) : (mbxqPut s c x).gsuLast = s.gsuLast := rfl
@[simp] theorem mbxqPut_stepping (c : Nat) (x : MbxQ) : (mbxqPut s c x).stepping = s.stepping := rfl
@[simp] theorem mbxqPut_throttle (c : Nat) (x : MbxQ) : (mbxqPut s c x).throttle = s.throttle := rfl
@[simp] theorem mbxqPut_notices (c : Nat) (x : MbxQ) : (mbxqPut s c x).notices = s.notices := rfl
@[simp] theorem mbxqPut_faults (c : Nat) (x : MbxQ) : (mbxqPut s c x).faults = s.faults := rfl
@[simp] theorem mbxqPut_sclTime (c : Nat) (x : MbxQ) : (mbxqPut s c x).sclTime = s.sclTime := rfl
@[simp] theorem mbxqPut_dark (c : Nat) (x : MbxQ) : (mbxqPut s c x).dark = s.dark := rfl
@[simp] theorem mbxqPut_resp (c : Nat) (x : MbxQ) : (mbxqPut s c x).resp = s.resp := rfl
@[simp] theorem mbxqPut_latch (c : Nat) (x : MbxQ) : (mbxqPut s c x).latch = s.latch := rfl
@[simp] theorem mbxqPut_staging (c : Nat) (x : MbxQ) : (mbxqPut s c x).staging = s.staging := rfl
@[simp] theorem mbxqPut_cold (c : Nat) (x : MbxQ) : (mbxqPut s c x).cold = s.cold := rfl
@[simp] theorem mbxqPut_sqs (c : Nat) (x : MbxQ) : (mbxqPut s c x).sqs = s.sqs := rfl
@[simp] theorem mbxqPut_cqs (c : Nat) (x : MbxQ) : (mbxqPut s c x).cqs = s.cqs := rfl
@[simp] theorem mbxqPut_cmds (c : Nat) (x : MbxQ) : (mbxqPut s c x).cmds = s.cmds := rfl
@[simp] theorem mbxqPut_bell (c : Nat) (x : MbxQ) : (mbxqPut s c x).bell = s.bell := rfl
@[simp] theorem mbxqPut_turn (c : Nat) (x : MbxQ) : (mbxqPut s c x).turn = s.turn := rfl
@[simp] theorem mbxqPut_lastTurn (c : Nat) (x : MbxQ) : (mbxqPut s c x).lastTurn = s.lastTurn := rfl
@[simp] theorem mbxqPut_rolls (c : Nat) (x : MbxQ) : (mbxqPut s c x).rolls = s.rolls := rfl
@[simp] theorem mbxqPut_streams (c : Nat) (x : MbxQ) : (mbxqPut s c x).streams = s.streams := rfl
@[simp] theorem mbxqPut_links (c : Nat) (x : MbxQ) : (mbxqPut s c x).links = s.links := rfl
@[simp] theorem mbxqPut_tags (c : Nat) (x : MbxQ) : (mbxqPut s c x).tags = s.tags := rfl
@[simp] theorem mbxqPut_gens (c : Nat) (x : MbxQ) : (mbxqPut s c x).gens = s.gens := rfl
@[simp] theorem mbxqPut_fabs (c : Nat) (x : MbxQ) : (mbxqPut s c x).fabs = s.fabs := rfl
@[simp] theorem mbxqPut_cgroups (c : Nat) (x : MbxQ) : (mbxqPut s c x).cgroups = s.cgroups := rfl
@[simp] theorem mbxqPut_cruns (c : Nat) (x : MbxQ) : (mbxqPut s c x).cruns = s.cruns := rfl
@[simp] theorem mbxqPut_sess (c : Nat) (x : MbxQ) : (mbxqPut s c x).sess = s.sess := rfl
@[simp] theorem mbxqPut_aligns (c : Nat) (x : MbxQ) : (mbxqPut s c x).aligns = s.aligns := rfl
@[simp] theorem mbxqPut_tts (c : Nat) (x : MbxQ) : (mbxqPut s c x).tts = s.tts := rfl
@[simp] theorem mbxqPut_toccs (c : Nat) (x : MbxQ) : (mbxqPut s c x).toccs = s.toccs := rfl
@[simp] theorem mbxqPut_ttUid (c : Nat) (x : MbxQ) : (mbxqPut s c x).ttUid = s.ttUid := rfl
@[simp] theorem mbxqPut_dicts (c : Nat) (x : MbxQ) : (mbxqPut s c x).dicts = s.dicts := rfl
@[simp] theorem mbxqPut_scl (c : Nat) (x : MbxQ) : (mbxqPut s c x).scl = s.scl := rfl
@[simp] theorem mbxqPut_stop (c : Nat) (x : MbxQ) : (mbxqPut s c x).stop = s.stop := rfl
@[simp] theorem mbxqPut_errLog (c : Nat) (x : MbxQ) : (mbxqPut s c x).errLog = s.errLog := rfl
@[simp] theorem mbxqPut_traces (c : Nat) (x : MbxQ) : (mbxqPut s c x).traces = s.traces := rfl
@[simp] theorem mbxqPut_uresets (c : Nat) (x : MbxQ) : (mbxqPut s c x).uresets = s.uresets := rfl
@[simp] theorem mbxqPut_lastReset (c : Nat) (x : MbxQ) : (mbxqPut s c x).lastReset = s.lastReset := rfl
@[simp] theorem mbxqPut_prtCmd (c : Nat) (x : MbxQ) : (mbxqPut s c x).prtCmd = s.prtCmd := rfl
@[simp] theorem mbxqPut_power (c : Nat) (x : MbxQ) : (mbxqPut s c x).power = s.power := rfl
@[simp] theorem mbxqPut_jnl (c : Nat) (x : MbxQ) : (mbxqPut s c x).jnl = s.jnl := rfl
@[simp] theorem mbxqPut_kImg (c : Nat) (x : MbxQ) : (mbxqPut s c x).kImg = s.kImg := rfl
@[simp] theorem mbxqPut_uImg (c : Nat) (x : MbxQ) : (mbxqPut s c x).uImg = s.uImg := rfl
@[simp] theorem mbxqPut_heldRec (c : Nat) (x : MbxQ) : (mbxqPut s c x).heldRec = s.heldRec := rfl
@[simp] theorem mbxqPut_fuses (c : Nat) (x : MbxQ) : (mbxqPut s c x).fuses = s.fuses := rfl
@[simp] theorem mbxqPut_trained (c : Nat) (x : MbxQ) : (mbxqPut s c x).trained = s.trained := rfl
@[simp] theorem mbxqPut_sblk (c : Nat) (x : MbxQ) : (mbxqPut s c x).sblk = s.sblk := rfl
@[simp] theorem mbxqPut_i3c (c : Nat) (x : MbxQ) : (mbxqPut s c x).i3c = s.i3c := rfl
@[simp] theorem mbxqPut_jtag (c : Nat) (x : MbxQ) : (mbxqPut s c x).jtag = s.jtag := rfl
@[simp] theorem mbxqPut_perst (c : Nat) (x : MbxQ) : (mbxqPut s c x).perst = s.perst := rfl
@[simp] theorem mbxqPut_pcieUp (c : Nat) (x : MbxQ) : (mbxqPut s c x).pcieUp = s.pcieUp := rfl
@[simp] theorem mbxqPut_msixHeld (c : Nat) (x : MbxQ) : (mbxqPut s c x).msixHeld = s.msixHeld := rfl

/-! ### crunPut -/

@[simp] theorem crunPut_pending (x : CRun) : (crunPut s x).pending = s.pending := rfl
@[simp] theorem crunPut_now (x : CRun) : (crunPut s x).now = s.now := rfl
@[simp] theorem crunPut_free (x : CRun) : (crunPut s x).free = s.free := rfl
@[simp] theorem crunPut_mems (x : CRun) : (crunPut s x).mems = s.mems := rfl
@[simp] theorem crunPut_regs (x : CRun) : (crunPut s x).regs = s.regs := rfl
@[simp] theorem crunPut_disarmed (x : CRun) : (crunPut s x).disarmed = s.disarmed := rfl
@[simp] theorem crunPut_msix (x : CRun) : (crunPut s x).msix = s.msix := rfl
@[simp] theorem crunPut_cells (x : CRun) : (crunPut s x).cells = s.cells := rfl
@[simp] theorem crunPut_mcast (x : CRun) : (crunPut s x).mcast = s.mcast := rfl
@[simp] theorem crunPut_barriers (x : CRun) : (crunPut s x).barriers = s.barriers := rfl
@[simp] theorem crunPut_splits (x : CRun) : (crunPut s x).splits = s.splits := rfl
@[simp] theorem crunPut_parts (x : CRun) : (crunPut s x).parts = s.parts := rfl
@[simp] theorem crunPut_cache (x : CRun) : (crunPut s x).cache = s.cache := rfl
@[simp] theorem crunPut_fills (x : CRun) : (crunPut s x).fills = s.fills := rfl
@[simp] theorem crunPut_hbmq (x : CRun) : (crunPut s x).hbmq = s.hbmq := rfl
@[simp] theorem crunPut_wins (x : CRun) : (crunPut s x).wins = s.wins := rfl
@[simp] theorem crunPut_credit (x : CRun) : (crunPut s x).credit = s.credit := rfl
@[simp] theorem crunPut_bargeSeq (x : CRun) : (crunPut s x).bargeSeq = s.bargeSeq := rfl
@[simp] theorem crunPut_bargeWait (x : CRun) : (crunPut s x).bargeWait = s.bargeWait := rfl
@[simp] theorem crunPut_barges (x : CRun) : (crunPut s x).barges = s.barges := rfl
@[simp] theorem crunPut_engineLast (x : CRun) : (crunPut s x).engineLast = s.engineLast := rfl
@[simp] theorem crunPut_locks (x : CRun) : (crunPut s x).locks = s.locks := rfl
@[simp] theorem crunPut_bargeNotices (x : CRun) : (crunPut s x).bargeNotices = s.bargeNotices := rfl
@[simp] theorem crunPut_gsuLast (x : CRun) : (crunPut s x).gsuLast = s.gsuLast := rfl
@[simp] theorem crunPut_stepping (x : CRun) : (crunPut s x).stepping = s.stepping := rfl
@[simp] theorem crunPut_throttle (x : CRun) : (crunPut s x).throttle = s.throttle := rfl
@[simp] theorem crunPut_notices (x : CRun) : (crunPut s x).notices = s.notices := rfl
@[simp] theorem crunPut_faults (x : CRun) : (crunPut s x).faults = s.faults := rfl
@[simp] theorem crunPut_sclTime (x : CRun) : (crunPut s x).sclTime = s.sclTime := rfl
@[simp] theorem crunPut_dark (x : CRun) : (crunPut s x).dark = s.dark := rfl
@[simp] theorem crunPut_resp (x : CRun) : (crunPut s x).resp = s.resp := rfl
@[simp] theorem crunPut_latch (x : CRun) : (crunPut s x).latch = s.latch := rfl
@[simp] theorem crunPut_staging (x : CRun) : (crunPut s x).staging = s.staging := rfl
@[simp] theorem crunPut_cold (x : CRun) : (crunPut s x).cold = s.cold := rfl
@[simp] theorem crunPut_sqs (x : CRun) : (crunPut s x).sqs = s.sqs := rfl
@[simp] theorem crunPut_cqs (x : CRun) : (crunPut s x).cqs = s.cqs := rfl
@[simp] theorem crunPut_cmds (x : CRun) : (crunPut s x).cmds = s.cmds := rfl
@[simp] theorem crunPut_bell (x : CRun) : (crunPut s x).bell = s.bell := rfl
@[simp] theorem crunPut_turn (x : CRun) : (crunPut s x).turn = s.turn := rfl
@[simp] theorem crunPut_lastTurn (x : CRun) : (crunPut s x).lastTurn = s.lastTurn := rfl
@[simp] theorem crunPut_rolls (x : CRun) : (crunPut s x).rolls = s.rolls := rfl
@[simp] theorem crunPut_streams (x : CRun) : (crunPut s x).streams = s.streams := rfl
@[simp] theorem crunPut_links (x : CRun) : (crunPut s x).links = s.links := rfl
@[simp] theorem crunPut_tags (x : CRun) : (crunPut s x).tags = s.tags := rfl
@[simp] theorem crunPut_gens (x : CRun) : (crunPut s x).gens = s.gens := rfl
@[simp] theorem crunPut_fabs (x : CRun) : (crunPut s x).fabs = s.fabs := rfl
@[simp] theorem crunPut_cgroups (x : CRun) : (crunPut s x).cgroups = s.cgroups := rfl
@[simp] theorem crunPut_sess (x : CRun) : (crunPut s x).sess = s.sess := rfl
@[simp] theorem crunPut_aligns (x : CRun) : (crunPut s x).aligns = s.aligns := rfl
@[simp] theorem crunPut_tts (x : CRun) : (crunPut s x).tts = s.tts := rfl
@[simp] theorem crunPut_toccs (x : CRun) : (crunPut s x).toccs = s.toccs := rfl
@[simp] theorem crunPut_ttUid (x : CRun) : (crunPut s x).ttUid = s.ttUid := rfl
@[simp] theorem crunPut_dicts (x : CRun) : (crunPut s x).dicts = s.dicts := rfl
@[simp] theorem crunPut_scl (x : CRun) : (crunPut s x).scl = s.scl := rfl
@[simp] theorem crunPut_stop (x : CRun) : (crunPut s x).stop = s.stop := rfl
@[simp] theorem crunPut_errLog (x : CRun) : (crunPut s x).errLog = s.errLog := rfl
@[simp] theorem crunPut_traces (x : CRun) : (crunPut s x).traces = s.traces := rfl
@[simp] theorem crunPut_uresets (x : CRun) : (crunPut s x).uresets = s.uresets := rfl
@[simp] theorem crunPut_lastReset (x : CRun) : (crunPut s x).lastReset = s.lastReset := rfl
@[simp] theorem crunPut_prtCmd (x : CRun) : (crunPut s x).prtCmd = s.prtCmd := rfl
@[simp] theorem crunPut_mbxq (x : CRun) : (crunPut s x).mbxq = s.mbxq := rfl
@[simp] theorem crunPut_power (x : CRun) : (crunPut s x).power = s.power := rfl
@[simp] theorem crunPut_jnl (x : CRun) : (crunPut s x).jnl = s.jnl := rfl
@[simp] theorem crunPut_kImg (x : CRun) : (crunPut s x).kImg = s.kImg := rfl
@[simp] theorem crunPut_uImg (x : CRun) : (crunPut s x).uImg = s.uImg := rfl
@[simp] theorem crunPut_heldRec (x : CRun) : (crunPut s x).heldRec = s.heldRec := rfl
@[simp] theorem crunPut_fuses (x : CRun) : (crunPut s x).fuses = s.fuses := rfl
@[simp] theorem crunPut_trained (x : CRun) : (crunPut s x).trained = s.trained := rfl
@[simp] theorem crunPut_sblk (x : CRun) : (crunPut s x).sblk = s.sblk := rfl
@[simp] theorem crunPut_i3c (x : CRun) : (crunPut s x).i3c = s.i3c := rfl
@[simp] theorem crunPut_jtag (x : CRun) : (crunPut s x).jtag = s.jtag := rfl
@[simp] theorem crunPut_perst (x : CRun) : (crunPut s x).perst = s.perst := rfl
@[simp] theorem crunPut_pcieUp (x : CRun) : (crunPut s x).pcieUp = s.pcieUp := rfl
@[simp] theorem crunPut_msixHeld (x : CRun) : (crunPut s x).msixHeld = s.msixHeld := rfl

/-! ### creditPut -/

@[simp] theorem creditPut_pending (a : Nat) (x : Int) : (creditPut s a x).pending = s.pending := rfl
@[simp] theorem creditPut_now (a : Nat) (x : Int) : (creditPut s a x).now = s.now := rfl
@[simp] theorem creditPut_free (a : Nat) (x : Int) : (creditPut s a x).free = s.free := rfl
@[simp] theorem creditPut_mems (a : Nat) (x : Int) : (creditPut s a x).mems = s.mems := rfl
@[simp] theorem creditPut_regs (a : Nat) (x : Int) : (creditPut s a x).regs = s.regs := rfl
@[simp] theorem creditPut_disarmed (a : Nat) (x : Int) : (creditPut s a x).disarmed = s.disarmed := rfl
@[simp] theorem creditPut_msix (a : Nat) (x : Int) : (creditPut s a x).msix = s.msix := rfl
@[simp] theorem creditPut_cells (a : Nat) (x : Int) : (creditPut s a x).cells = s.cells := rfl
@[simp] theorem creditPut_mcast (a : Nat) (x : Int) : (creditPut s a x).mcast = s.mcast := rfl
@[simp] theorem creditPut_barriers (a : Nat) (x : Int) : (creditPut s a x).barriers = s.barriers := rfl
@[simp] theorem creditPut_splits (a : Nat) (x : Int) : (creditPut s a x).splits = s.splits := rfl
@[simp] theorem creditPut_parts (a : Nat) (x : Int) : (creditPut s a x).parts = s.parts := rfl
@[simp] theorem creditPut_cache (a : Nat) (x : Int) : (creditPut s a x).cache = s.cache := rfl
@[simp] theorem creditPut_fills (a : Nat) (x : Int) : (creditPut s a x).fills = s.fills := rfl
@[simp] theorem creditPut_hbmq (a : Nat) (x : Int) : (creditPut s a x).hbmq = s.hbmq := rfl
@[simp] theorem creditPut_wins (a : Nat) (x : Int) : (creditPut s a x).wins = s.wins := rfl
@[simp] theorem creditPut_bargeSeq (a : Nat) (x : Int) : (creditPut s a x).bargeSeq = s.bargeSeq := rfl
@[simp] theorem creditPut_bargeWait (a : Nat) (x : Int) : (creditPut s a x).bargeWait = s.bargeWait := rfl
@[simp] theorem creditPut_barges (a : Nat) (x : Int) : (creditPut s a x).barges = s.barges := rfl
@[simp] theorem creditPut_engineLast (a : Nat) (x : Int) : (creditPut s a x).engineLast = s.engineLast := rfl
@[simp] theorem creditPut_locks (a : Nat) (x : Int) : (creditPut s a x).locks = s.locks := rfl
@[simp] theorem creditPut_bargeNotices (a : Nat) (x : Int) : (creditPut s a x).bargeNotices = s.bargeNotices := rfl
@[simp] theorem creditPut_gsuLast (a : Nat) (x : Int) : (creditPut s a x).gsuLast = s.gsuLast := rfl
@[simp] theorem creditPut_stepping (a : Nat) (x : Int) : (creditPut s a x).stepping = s.stepping := rfl
@[simp] theorem creditPut_throttle (a : Nat) (x : Int) : (creditPut s a x).throttle = s.throttle := rfl
@[simp] theorem creditPut_notices (a : Nat) (x : Int) : (creditPut s a x).notices = s.notices := rfl
@[simp] theorem creditPut_faults (a : Nat) (x : Int) : (creditPut s a x).faults = s.faults := rfl
@[simp] theorem creditPut_sclTime (a : Nat) (x : Int) : (creditPut s a x).sclTime = s.sclTime := rfl
@[simp] theorem creditPut_dark (a : Nat) (x : Int) : (creditPut s a x).dark = s.dark := rfl
@[simp] theorem creditPut_resp (a : Nat) (x : Int) : (creditPut s a x).resp = s.resp := rfl
@[simp] theorem creditPut_latch (a : Nat) (x : Int) : (creditPut s a x).latch = s.latch := rfl
@[simp] theorem creditPut_staging (a : Nat) (x : Int) : (creditPut s a x).staging = s.staging := rfl
@[simp] theorem creditPut_cold (a : Nat) (x : Int) : (creditPut s a x).cold = s.cold := rfl
@[simp] theorem creditPut_sqs (a : Nat) (x : Int) : (creditPut s a x).sqs = s.sqs := rfl
@[simp] theorem creditPut_cqs (a : Nat) (x : Int) : (creditPut s a x).cqs = s.cqs := rfl
@[simp] theorem creditPut_cmds (a : Nat) (x : Int) : (creditPut s a x).cmds = s.cmds := rfl
@[simp] theorem creditPut_bell (a : Nat) (x : Int) : (creditPut s a x).bell = s.bell := rfl
@[simp] theorem creditPut_turn (a : Nat) (x : Int) : (creditPut s a x).turn = s.turn := rfl
@[simp] theorem creditPut_lastTurn (a : Nat) (x : Int) : (creditPut s a x).lastTurn = s.lastTurn := rfl
@[simp] theorem creditPut_rolls (a : Nat) (x : Int) : (creditPut s a x).rolls = s.rolls := rfl
@[simp] theorem creditPut_streams (a : Nat) (x : Int) : (creditPut s a x).streams = s.streams := rfl
@[simp] theorem creditPut_links (a : Nat) (x : Int) : (creditPut s a x).links = s.links := rfl
@[simp] theorem creditPut_tags (a : Nat) (x : Int) : (creditPut s a x).tags = s.tags := rfl
@[simp] theorem creditPut_gens (a : Nat) (x : Int) : (creditPut s a x).gens = s.gens := rfl
@[simp] theorem creditPut_fabs (a : Nat) (x : Int) : (creditPut s a x).fabs = s.fabs := rfl
@[simp] theorem creditPut_cgroups (a : Nat) (x : Int) : (creditPut s a x).cgroups = s.cgroups := rfl
@[simp] theorem creditPut_cruns (a : Nat) (x : Int) : (creditPut s a x).cruns = s.cruns := rfl
@[simp] theorem creditPut_sess (a : Nat) (x : Int) : (creditPut s a x).sess = s.sess := rfl
@[simp] theorem creditPut_aligns (a : Nat) (x : Int) : (creditPut s a x).aligns = s.aligns := rfl
@[simp] theorem creditPut_tts (a : Nat) (x : Int) : (creditPut s a x).tts = s.tts := rfl
@[simp] theorem creditPut_toccs (a : Nat) (x : Int) : (creditPut s a x).toccs = s.toccs := rfl
@[simp] theorem creditPut_ttUid (a : Nat) (x : Int) : (creditPut s a x).ttUid = s.ttUid := rfl
@[simp] theorem creditPut_dicts (a : Nat) (x : Int) : (creditPut s a x).dicts = s.dicts := rfl
@[simp] theorem creditPut_scl (a : Nat) (x : Int) : (creditPut s a x).scl = s.scl := rfl
@[simp] theorem creditPut_stop (a : Nat) (x : Int) : (creditPut s a x).stop = s.stop := rfl
@[simp] theorem creditPut_errLog (a : Nat) (x : Int) : (creditPut s a x).errLog = s.errLog := rfl
@[simp] theorem creditPut_traces (a : Nat) (x : Int) : (creditPut s a x).traces = s.traces := rfl
@[simp] theorem creditPut_uresets (a : Nat) (x : Int) : (creditPut s a x).uresets = s.uresets := rfl
@[simp] theorem creditPut_lastReset (a : Nat) (x : Int) : (creditPut s a x).lastReset = s.lastReset := rfl
@[simp] theorem creditPut_prtCmd (a : Nat) (x : Int) : (creditPut s a x).prtCmd = s.prtCmd := rfl
@[simp] theorem creditPut_mbxq (a : Nat) (x : Int) : (creditPut s a x).mbxq = s.mbxq := rfl
@[simp] theorem creditPut_power (a : Nat) (x : Int) : (creditPut s a x).power = s.power := rfl
@[simp] theorem creditPut_jnl (a : Nat) (x : Int) : (creditPut s a x).jnl = s.jnl := rfl
@[simp] theorem creditPut_kImg (a : Nat) (x : Int) : (creditPut s a x).kImg = s.kImg := rfl
@[simp] theorem creditPut_uImg (a : Nat) (x : Int) : (creditPut s a x).uImg = s.uImg := rfl
@[simp] theorem creditPut_heldRec (a : Nat) (x : Int) : (creditPut s a x).heldRec = s.heldRec := rfl
@[simp] theorem creditPut_fuses (a : Nat) (x : Int) : (creditPut s a x).fuses = s.fuses := rfl
@[simp] theorem creditPut_trained (a : Nat) (x : Int) : (creditPut s a x).trained = s.trained := rfl
@[simp] theorem creditPut_sblk (a : Nat) (x : Int) : (creditPut s a x).sblk = s.sblk := rfl
@[simp] theorem creditPut_i3c (a : Nat) (x : Int) : (creditPut s a x).i3c = s.i3c := rfl
@[simp] theorem creditPut_jtag (a : Nat) (x : Int) : (creditPut s a x).jtag = s.jtag := rfl
@[simp] theorem creditPut_perst (a : Nat) (x : Int) : (creditPut s a x).perst = s.perst := rfl
@[simp] theorem creditPut_pcieUp (a : Nat) (x : Int) : (creditPut s a x).pcieUp = s.pcieUp := rfl
@[simp] theorem creditPut_msixHeld (a : Nat) (x : Int) : (creditPut s a x).msixHeld = s.msixHeld := rfl

/-! ### within -/

@[simp] theorem within_pending : (within s t).pending = s.pending := rfl
@[simp] theorem within_now : (within s t).now = s.now := rfl
@[simp] theorem within_free : (within s t).free = t.free := rfl
@[simp] theorem within_mems : (within s t).mems = t.mems := rfl
@[simp] theorem within_regs : (within s t).regs = t.regs := rfl
@[simp] theorem within_disarmed : (within s t).disarmed = t.disarmed := rfl
@[simp] theorem within_msix : (within s t).msix = t.msix := rfl
@[simp] theorem within_cells : (within s t).cells = t.cells := rfl
@[simp] theorem within_mcast : (within s t).mcast = t.mcast := rfl
@[simp] theorem within_barriers : (within s t).barriers = t.barriers := rfl
@[simp] theorem within_splits : (within s t).splits = t.splits := rfl
@[simp] theorem within_parts : (within s t).parts = t.parts := rfl
@[simp] theorem within_cache : (within s t).cache = t.cache := rfl
@[simp] theorem within_fills : (within s t).fills = t.fills := rfl
@[simp] theorem within_hbmq : (within s t).hbmq = t.hbmq := rfl
@[simp] theorem within_wins : (within s t).wins = t.wins := rfl
@[simp] theorem within_credit : (within s t).credit = t.credit := rfl
@[simp] theorem within_bargeSeq : (within s t).bargeSeq = t.bargeSeq := rfl
@[simp] theorem within_bargeWait : (within s t).bargeWait = t.bargeWait := rfl
@[simp] theorem within_barges : (within s t).barges = t.barges := rfl
@[simp] theorem within_engineLast : (within s t).engineLast = t.engineLast := rfl
@[simp] theorem within_locks : (within s t).locks = t.locks := rfl
@[simp] theorem within_bargeNotices : (within s t).bargeNotices = t.bargeNotices := rfl
@[simp] theorem within_gsuLast : (within s t).gsuLast = t.gsuLast := rfl
@[simp] theorem within_stepping : (within s t).stepping = t.stepping := rfl
@[simp] theorem within_throttle : (within s t).throttle = t.throttle := rfl
@[simp] theorem within_notices : (within s t).notices = t.notices := rfl
@[simp] theorem within_faults : (within s t).faults = t.faults := rfl
@[simp] theorem within_sclTime : (within s t).sclTime = t.sclTime := rfl
@[simp] theorem within_dark : (within s t).dark = t.dark := rfl
@[simp] theorem within_resp : (within s t).resp = t.resp := rfl
@[simp] theorem within_latch : (within s t).latch = t.latch := rfl
@[simp] theorem within_staging : (within s t).staging = t.staging := rfl
@[simp] theorem within_cold : (within s t).cold = s.cold := rfl
@[simp] theorem within_sqs : (within s t).sqs = t.sqs := rfl
@[simp] theorem within_cqs : (within s t).cqs = t.cqs := rfl
@[simp] theorem within_cmds : (within s t).cmds = t.cmds := rfl
@[simp] theorem within_bell : (within s t).bell = t.bell := rfl
@[simp] theorem within_turn : (within s t).turn = t.turn := rfl
@[simp] theorem within_lastTurn : (within s t).lastTurn = t.lastTurn := rfl
@[simp] theorem within_rolls : (within s t).rolls = t.rolls := rfl
@[simp] theorem within_streams : (within s t).streams = t.streams := rfl
@[simp] theorem within_links : (within s t).links = t.links := rfl
@[simp] theorem within_tags : (within s t).tags = t.tags := rfl
@[simp] theorem within_gens : (within s t).gens = t.gens := rfl
@[simp] theorem within_fabs : (within s t).fabs = t.fabs := rfl
@[simp] theorem within_cgroups : (within s t).cgroups = t.cgroups := rfl
@[simp] theorem within_cruns : (within s t).cruns = t.cruns := rfl
@[simp] theorem within_sess : (within s t).sess = t.sess := rfl
@[simp] theorem within_aligns : (within s t).aligns = t.aligns := rfl
@[simp] theorem within_tts : (within s t).tts = t.tts := rfl
@[simp] theorem within_toccs : (within s t).toccs = t.toccs := rfl
@[simp] theorem within_ttUid : (within s t).ttUid = t.ttUid := rfl
@[simp] theorem within_dicts : (within s t).dicts = t.dicts := rfl
@[simp] theorem within_scl : (within s t).scl = t.scl := rfl
@[simp] theorem within_stop : (within s t).stop = t.stop := rfl
@[simp] theorem within_errLog : (within s t).errLog = t.errLog := rfl
@[simp] theorem within_traces : (within s t).traces = t.traces := rfl
@[simp] theorem within_uresets : (within s t).uresets = t.uresets := rfl
@[simp] theorem within_lastReset : (within s t).lastReset = t.lastReset := rfl
@[simp] theorem within_prtCmd : (within s t).prtCmd = t.prtCmd := rfl
@[simp] theorem within_mbxq : (within s t).mbxq = t.mbxq := rfl
@[simp] theorem within_power : (within s t).power = t.power := rfl
@[simp] theorem within_jnl : (within s t).jnl = t.jnl := rfl
@[simp] theorem within_kImg : (within s t).kImg = t.kImg := rfl
@[simp] theorem within_uImg : (within s t).uImg = t.uImg := rfl
@[simp] theorem within_heldRec : (within s t).heldRec = t.heldRec := rfl
@[simp] theorem within_fuses : (within s t).fuses = s.fuses := rfl
@[simp] theorem within_trained : (within s t).trained = t.trained := rfl
@[simp] theorem within_sblk : (within s t).sblk = t.sblk := rfl
@[simp] theorem within_i3c : (within s t).i3c = t.i3c := rfl
@[simp] theorem within_jtag : (within s t).jtag = s.jtag := rfl
@[simp] theorem within_perst : (within s t).perst = s.perst := rfl
@[simp] theorem within_pcieUp : (within s t).pcieUp = t.pcieUp := rfl
@[simp] theorem within_msixHeld : (within s t).msixHeld = t.msixHeld := rfl

end Sys2Proof.Machine
end

