-- ==== Sys2Proof/Laws/Ops.lean ====
section
/-!
SUPPORT. Laws/Ops.lean: the laws of the operations of Machine/Ops.lean: sparse tables, memories and their canonical form, registers,
events, captures, semaphores.
-/

namespace Sys2Proof.Machine

/-! ### Sparse tables -/

section Tab
variable {α : Type} (d : Nat → α)

theorem tabGet_tabDrop_same (k : Nat) : ∀ l : List (Nat × α), tabGet d (tabDrop k l) k = d k
  | [] => rfl
  | (i, v) :: t => by
    by_cases h : i = k
    · have : tabDrop k ((i, v) :: t) = tabDrop k t := by simp [tabDrop, h]
      rw [this]; exact tabGet_tabDrop_same k t
    · have : tabDrop k ((i, v) :: t) = (i, v) :: tabDrop k t := by simp [tabDrop, h]
      rw [this]; simp only [tabGet, if_neg h]; exact tabGet_tabDrop_same k t

theorem tabGet_tabDrop_ne {j k : Nat} (h : j ≠ k) : ∀ l : List (Nat × α), tabGet d (tabDrop k l) j = tabGet d l j
  | [] => rfl
  | (i, v) :: t => by
    by_cases hi : i = k
    · have e : tabDrop k ((i, v) :: t) = tabDrop k t := by simp [tabDrop, hi]
      have hj : i ≠ j := fun e => h (e.symm.trans hi)
      rw [e, tabGet_tabDrop_ne h t]; simp [tabGet, hj]
    · have e : tabDrop k ((i, v) :: t) = (i, v) :: tabDrop k t := by simp [tabDrop, hi]
      rw [e]; simp only [tabGet]; rw [tabGet_tabDrop_ne h t]

variable [DecidableEq α]

@[simp] theorem tabGet_tabPut_same (k : Nat) (v : α) : ∀ l : List (Nat × α), tabGet d (tabPut d l k v) k = v
  | [] => by by_cases h : v = d k <;> simp [tabPut, tabGet, h]
  | (i, w) :: t => by
    unfold tabPut
    by_cases h1 : k < i
    · rw [if_pos h1]
      by_cases hv : v = d k
      · rw [if_pos hv]
        have : i ≠ k := by omega
        simp only [tabGet, if_neg this]; rw [tabGet_tabDrop_same, hv]
      · rw [if_neg hv]; simp [tabGet]
    · rw [if_neg h1]
      by_cases h2 : k = i
      · rw [if_pos h2]
        by_cases hv : v = d k
        · rw [if_pos hv, tabGet_tabDrop_same, hv]
        · rw [if_neg hv]; simp [tabGet]
      · rw [if_neg h2]
        have : i ≠ k := fun e => h2 e.symm
        simp only [tabGet, if_neg this]; exact tabGet_tabPut_same k v t

theorem tabGet_tabPut_ne {j k : Nat} (v : α) (h : j ≠ k) : ∀ l : List (Nat × α), tabGet d (tabPut d l k v) j = tabGet d l j
  | [] => by by_cases hv : v = d k <;> simp [tabPut, tabGet, hv, h.symm]
  | (i, w) :: t => by
    unfold tabPut
    by_cases h1 : k < i
    · rw [if_pos h1]
      by_cases hv : v = d k
      · rw [if_pos hv]; simp only [tabGet]; rw [tabGet_tabDrop_ne d h]
      · rw [if_neg hv]; simp [tabGet, h.symm]
    · rw [if_neg h1]
      by_cases h2 : k = i
      · rw [if_pos h2]
        have : i ≠ j := fun e => h (e.symm.trans h2.symm)
        by_cases hv : v = d k
        · rw [if_pos hv, tabGet_tabDrop_ne d h]; simp [tabGet, this]
        · rw [if_neg hv]; simp [tabGet, this, h.symm]
      · rw [if_neg h2]; simp only [tabGet]; rw [tabGet_tabPut_ne v h t]

/-- Storing again at a key whose stored value is not the default. -/
theorem tabPut_tabPut (k : Nat) (v w : α) (hv : v ≠ d k) : ∀ l : List (Nat × α), tabPut d (tabPut d l k v) k w = tabPut d l k w
  | [] => by
    have e : tabPut d [] k v = [(k, v)] := by unfold tabPut; rw [if_neg hv]
    rw [e]
    by_cases hw : w = d k <;> simp [tabPut, tabDrop, hw]
  | (i, x) :: t => by
    by_cases h1 : k < i
    · have e : tabPut d ((i, x) :: t) k v = (k, v) :: (i, x) :: t := by
        rw [tabPut.eq_2, if_pos h1, if_neg hv]
      have hi : i ≠ k := by omega
      rw [e]
      by_cases hw : w = d k
      · simp [tabPut, tabDrop, hw, h1, hi]
      · simp [tabPut, hw, h1]
    · by_cases h2 : k = i
      · subst h2
        have e : tabPut d ((k, x) :: t) k v = (k, v) :: t := by
          rw [tabPut.eq_2, if_neg h1, if_pos rfl, if_neg hv]
        rw [e]
        by_cases hw : w = d k
        · simp [tabPut, tabDrop, hw]
        · simp [tabPut, hw]
      · have e : ∀ (u : α) (q : List (Nat × α)), tabPut d ((i, x) :: q) k u = (i, x) :: tabPut d q k u := by
          intro u q; rw [tabPut.eq_2, if_neg h1, if_neg h2]
        rw [e v t, e w (tabPut d t k v), e w t, tabPut_tabPut k v w hv t]

theorem tabGet_tabPut (l : List (Nat × α)) (j k : Nat) (v : α) :
    tabGet d (tabPut d l k v) j = if j = k then v else tabGet d l j := by
  by_cases h : j = k
  · subst h; simp
  · rw [if_neg h, tabGet_tabPut_ne d v h]

omit [DecidableEq α] in
theorem tabGet_tabClear (lo hi j : Nat) : ∀ l : List (Nat × α),
    tabGet d (tabClear lo hi l) j = if lo ≤ j ∧ j < hi then d j else tabGet d l j
  | [] => by simp [tabClear, tabGet]
  | (i, v) :: t => by
    have ih := tabGet_tabClear lo hi j t
    by_cases hi' : i < lo ∨ hi ≤ i
    · have e : tabClear lo hi ((i, v) :: t) = (i, v) :: tabClear lo hi t := by
        simp only [tabClear, List.filter_cons]; simp [hi']
      rw [e]; simp only [tabGet]
      by_cases hj : i = j
      · have : ¬(lo ≤ j ∧ j < hi) := by omega
        simp [hj, this]
      · simp only [if_neg hj]; exact ih
    · have e : tabClear lo hi ((i, v) :: t) = tabClear lo hi t := by
        simp only [tabClear, List.filter_cons]; simp [hi']
      rw [e, ih]
      by_cases hj : i = j
      · have : lo ≤ j ∧ j < hi := by omega
        simp [this]
      · simp [tabGet, hj]

/-! Canonical form. -/

theorem tabWfFrom_mono {a b : Nat} (h : a ≤ b) : ∀ l : List (Nat × α), tabWfFrom d b l = true → tabWfFrom d a l = true
  | [], _ => rfl
  | (i, v) :: t, hw => by
    simp only [tabWfFrom, Bool.and_eq_true, decide_eq_true_eq] at hw ⊢
    exact ⟨⟨by omega, hw.1.2⟩, hw.2⟩

theorem tabWfFrom_filter (p : Nat × α → Bool) : ∀ (l : List (Nat × α)) (a : Nat), tabWfFrom d a l = true → tabWfFrom d a (l.filter p) = true
  | [], _, _ => rfl
  | (i, v) :: t, a, hw => by
    simp only [tabWfFrom, Bool.and_eq_true, decide_eq_true_eq] at hw
    have ih := tabWfFrom_filter p t (i + 1) hw.2
    rw [List.filter_cons]
    split
    · simp only [tabWfFrom, Bool.and_eq_true, decide_eq_true_eq]; exact ⟨hw.1, ih⟩
    · exact tabWfFrom_mono d (by omega) _ ih

theorem tabWfFrom_put (k : Nat) (v : α) : ∀ (l : List (Nat × α)) (a : Nat), a ≤ k → tabWfFrom d a l = true →
    tabWfFrom d a (tabPut d l k v) = true
  | [], a, hk, _ => by
    by_cases hv : v = d k <;> simp [tabPut, tabWfFrom, hv, hk]
  | (i, w) :: t, a, hk, hw => by
    have hw' := hw
    simp only [tabWfFrom, Bool.and_eq_true, decide_eq_true_eq] at hw
    unfold tabPut
    by_cases h1 : k < i
    · rw [if_pos h1]
      by_cases hv : v = d k
      · rw [if_pos hv]
        simp only [tabWfFrom, Bool.and_eq_true, decide_eq_true_eq]
        exact ⟨hw.1, tabWfFrom_filter d _ t _ hw.2⟩
      · rw [if_neg hv]
        simp only [tabWfFrom, Bool.and_eq_true, decide_eq_true_eq]
        exact ⟨⟨hk, hv⟩, ⟨by omega, hw.1.2⟩, hw.2⟩
    · rw [if_neg h1]
      by_cases h2 : k = i
      · subst h2
        rw [if_pos rfl]
        by_cases hv : v = d k
        · rw [if_pos hv]; exact tabWfFrom_mono d (by omega) _ (tabWfFrom_filter d _ t _ hw.2)
        · rw [if_neg hv]
          simp only [tabWfFrom, Bool.and_eq_true, decide_eq_true_eq]
          exact ⟨⟨hk, hv⟩, hw.2⟩
      · rw [if_neg h2]
        simp only [tabWfFrom, Bool.and_eq_true, decide_eq_true_eq]
        exact ⟨hw.1, tabWfFrom_put k v t (i + 1) (by omega) hw.2⟩

/-- Storing keeps the canonical form. -/
theorem tabPut_wf (l : List (Nat × α)) (k : Nat) (v : α) (h : tabWf d l = true) : tabWf d (tabPut d l k v) = true :=
  tabWfFrom_put d k v l 0 (Nat.zero_le _) h

/-- Clearing a range keeps the canonical form. -/
theorem tabClear_wf (lo hi : Nat) (l : List (Nat × α)) (h : tabWf d l = true) : tabWf d (tabClear lo hi l) = true :=
  tabWfFrom_filter d _ l 0 h

end Tab

/-! ### Memories -/

theorem memGet_memPut (m : List Host.Cell) (a b : Nat) (v : Byte) :
    memGet (memPut m a v) b = if b = a then v else memGet m b := tabGet_tabPut memDefault m b a v

theorem memPut_wf (m : List Host.Cell) (a : Nat) (v : Byte) (h : Memory.wf m = true) : Memory.wf (memPut m a v) = true :=
  tabPut_wf memDefault m a v h

theorem memWrite_wf : ∀ (bs : List Byte) (m : List Host.Cell) (a : Nat), Memory.wf m = true → Memory.wf (memWrite m a bs) = true
  | [], _, _, h => h
  | b :: t, m, a, h => memWrite_wf t (memPut m a b) (a + 1) (memPut_wf m a b h)

/-- One byte after a write of consecutive bytes: the byte written there, or the byte that stood there. -/
theorem memGet_memWrite : ∀ (bs : List Byte) (m : List Host.Cell) (a b : Nat),
    memGet (memWrite m a bs) b = if a ≤ b ∧ b < a + bs.length then bs.getD (b - a) 0#8 else memGet m b
  | [], m, a, b => by
    have : ¬(a ≤ b ∧ b < a) := by omega
    simp [memWrite, this]
  | x :: t, m, a, b => by
    rw [memWrite, memGet_memWrite t, memGet_memPut]
    by_cases h1 : b = a
    · subst h1
      have : ¬(b + 1 ≤ b ∧ b < b + 1 + t.length) := by omega
      rw [if_neg this]; simp
    · by_cases h2 : a + 1 ≤ b ∧ b < a + 1 + t.length
      · have h3 : a ≤ b ∧ b < a + (x :: t).length := by simp; omega
        have h4 : b - a = (b - (a + 1)) + 1 := by omega
        rw [if_pos h2, if_pos h3, h4]; simp
      · have h3 : ¬(a ≤ b ∧ b < a + (x :: t).length) := by simp; omega
        rw [if_neg h2, if_neg h3, if_neg h1]

theorem zeroIfMarked_wf (ms : List Mark) (sp : Space) (u : Nat) (m : List Host.Cell) (h : Memory.wf m = true) :
    Memory.wf (zeroIfMarked ms sp u m) = true := by
  unfold zeroIfMarked; split
  · exact tabClear_wf _ _ _ _ h
  · exact h

theorem memOf_wf (m : Mems) (sp : Space) (h : memsWf m = true) : Memory.wf (memOf m sp) = true := by
  simp only [memsWf, Bool.and_eq_true] at h
  obtain ⟨⟨⟨⟨⟨⟨h1, h2⟩, h3⟩, h4⟩, h5⟩, h6⟩, h7⟩ := h
  cases sp <;> assumption

theorem setMem_wf (m : Mems) (sp : Space) (x : List Host.Cell) (ms : List Mark) (h : memsWf m = true) (hx : Memory.wf x = true) :
    memsWf { setMem m sp x with marks := ms } = true := by
  simp only [memsWf, Bool.and_eq_true] at h ⊢
  obtain ⟨⟨⟨⟨⟨⟨h1, h2⟩, h3⟩, h4⟩, h5⟩, h6⟩, h7⟩ := h
  cases sp <;> simp [setMem, *]

/-- A write keeps every memory in canonical form. -/
theorem memsWrite_wf (m : Mems) (sp : Space) (a : Nat) (bs : List Byte) (h : memsWf m = true) : memsWf (memsWrite m sp a bs) = true := by
  unfold memsWrite; split
  · exact h
  · exact setMem_wf _ _ _ _ h (memWrite_wf _ _ _ (zeroIfMarked_wf _ _ _ _ (zeroIfMarked_wf _ _ _ _ (memOf_wf m sp h))))

/-- Zeroing keeps every memory in canonical form. -/
theorem memsZero_wf (m : Mems) (sp : Space) (a n : Nat) (h : memsWf m = true) : memsWf (memsZero m sp a n) = true := by
  unfold memsZero; split
  · exact h
  · exact setMem_wf _ _ _ _ h (tabClear_wf _ _ _ _ (zeroIfMarked_wf _ _ _ _ (zeroIfMarked_wf _ _ _ _ (memOf_wf m sp h))))

/-- A scrub keeps every memory in canonical form. -/
theorem memsScrub_wf (m : Mems) (sp : Space) (a n : Nat) (po : Bool) (h : memsWf m = true) : memsWf (memsScrub m sp a n po) = true :=
  setMem_wf _ _ _ _ h (tabClear_wf _ _ _ _ (memOf_wf m sp h))

/-- Marking errors keeps every memory in canonical form. -/
theorem memsStrike_wf (m : Mems) (us : List (Space × Nat)) (h : memsWf m = true) : memsWf (memsStrike m us) = true := h

/-- Every memory of the state after reset is in canonical form. -/
theorem reset_memsWf : memsWf State.reset.mems = true := rfl

theorem wr_wf (s : State) (sp : Space) (a : Nat) (bs : List Byte) (h : memsWf s.mems = true) : memsWf (wr s sp a bs).mems = true :=
  memsWrite_wf _ _ _ _ h

/-! ### Registers -/

theorem rget_rset (s : State) (a b v : Nat) : rget (rset s a v) b = if b = a then v % 2 ^ 32 else rget s b := by
  unfold rget rset
  simp only [tabGet_tabPut]
  split <;> simp [*]

@[simp] theorem rget_rset_same (s : State) (a v : Nat) : rget (rset s a v) a = v % 2 ^ 32 := by simp [rget_rset]

theorem rget_rset_ne (s : State) {a b : Nat} (v : Nat) (h : b ≠ a) : rget (rset s a v) b = rget s b := by simp [rget_rset, h]

theorem rget_lt (s : State) (a : Nat) : rget s a < 2 ^ 32 := (tabGet regRst s.regs a).isLt

/-- Registers depend on the register table alone. -/
theorem rget_congr {s t : State} (h : s.regs = t.regs) (a : Nat) : rget s a = rget t a := by unfold rget; rw [h]

/-- After reset every register holds its reset value (R19). -/
theorem rget_reset (a : Nat) : rget State.reset a = (regRst a).toNat := rfl

/-! ### Cells -/

@[simp] theorem cellGet_cellPut_same (s : State) (c : Nat) (x : Cell) : cellGet (cellPut s c x) c = x := by
  simp [cellGet, cellPut]

theorem cellGet_cellPut_ne (s : State) {c e : Nat} (x : Cell) (h : e ≠ c) : cellGet (cellPut s c x) e = cellGet s e := by
  simp [cellGet, cellPut, tabGet_tabPut, h]

@[simp] theorem cellGet_setJr_same (s : State) (c : Nat) (jr : JigRun) : cellGet (setJr s c jr) c = { cellGet s c with run := some jr } := by
  simp [setJr]

theorem cellGet_congr {s t : State} (h : s.cells = t.cells) (c : Nat) : cellGet s c = cellGet t c := by unfold cellGet; rw [h]

/-! ### Events and captures -/

theorem msixSend_frame (s : State) (fn v : Nat) : ∃ m h, msixSend s fn v = { s with msix := m, msixHeld := h } := by
  unfold msixSend
  dsimp only
  split
  · exact ⟨_, s.msixHeld, rfl⟩
  · split
    · exact ⟨s.msix, s.msixHeld, rfl⟩
    · exact ⟨s.msix, _, rfl⟩

theorem setEvents_frame (s : State) (pg e : Nat) :
    ∃ m h, setEvents s pg e = { rset s (pg + 0x10) (rget s (pg + 0x10) ||| e) with msix := m, msixHeld := h } := by
  unfold setEvents summarise
  dsimp only
  split
  · split
    · exact msixSend_frame _ _ _
    · exact ⟨s.msix, s.msixHeld, rfl⟩
  · split
    · exact msixSend_frame _ _ _
    · exact ⟨s.msix, s.msixHeld, rfl⟩

theorem logErr_frame (s : State) (pg e sc : Nat) :
    ∃ r l m h, logErr s pg e sc = { s with regs := r, errLog := l, msix := m, msixHeld := h } := by
  unfold logErr
  dsimp only
  split
  · obtain ⟨m, h, e⟩ := setEvents_frame _ _ _
    rw [e]; exact ⟨_, _, _, _, rfl⟩
  · exact ⟨_, _, s.msix, s.msixHeld, rfl⟩

theorem foldl_logErr_frame (pg : Nat) (ev : Nat) : ∀ (l : List Nat) (s : State),
    ∃ r e m h, l.foldl (fun t b => if ev.testBit b then logErr t pg b 0 else t) s = { s with regs := r, errLog := e, msix := m, msixHeld := h }
  | [], s => ⟨s.regs, s.errLog, s.msix, s.msixHeld, rfl⟩
  | b :: t, s => by
    simp only [List.foldl_cons]
    split
    · obtain ⟨r, e, m, h, eq⟩ := logErr_frame s pg b 0
      obtain ⟨r', e', m', h', eq'⟩ := foldl_logErr_frame pg ev t (logErr s pg b 0)
      rw [eq', eq]; exact ⟨_, _, _, _, rfl⟩
    · exact foldl_logErr_frame pg ev t s

/-- Raising events writes event registers, the error log and messages only. -/
theorem raise_frame (s : State) (pg ev : Nat) :
    ∃ r e m h, raise s pg ev = { s with regs := r, errLog := e, msix := m, msixHeld := h } := by
  unfold raise
  obtain ⟨m, h, e1⟩ := setEvents_frame s pg ev
  obtain ⟨r', e', m', h', e2⟩ := foldl_logErr_frame pg ev (logged pg) (setEvents s pg ev)
  rw [e2, e1]; exact ⟨_, _, _, _, rfl⟩

theorem rget_setEvents (s : State) (pg ev a : Nat) :
    rget (setEvents s pg ev) a = if a = pg + 0x10 then (rget s (pg + 0x10) ||| ev) % 2 ^ 32 else rget s a := by
  obtain ⟨m, h, e⟩ := setEvents_frame s pg ev
  rw [e, ← rget_rset]; rfl

theorem rget_logErr_ne (s : State) (pg e sc : Nat) {a : Nat} (h1 : a ≠ pgErr + 0x60) (h2 : a ≠ pgErr + 0x10) :
    rget (logErr s pg e sc) a = rget s a := by
  unfold logErr
  dsimp only
  split
  · rw [rget_setEvents, if_neg h2]
    exact (rget_congr (by rfl) a).trans (rget_rset_ne _ _ h1)
  · exact rget_rset_ne _ _ h1

theorem rget_foldl_logErr_ne (pg ev : Nat) {a : Nat} (h1 : a ≠ pgErr + 0x60) (h2 : a ≠ pgErr + 0x10) : ∀ (l : List Nat) (s : State),
    rget (l.foldl (fun t b => if ev.testBit b then logErr t pg b 0 else t) s) a = rget s a
  | [], _ => rfl
  | b :: t, s => by
    simp only [List.foldl_cons]
    rw [rget_foldl_logErr_ne pg ev h1 h2 t]
    split
    · exact rget_logErr_ne s pg b 0 h1 h2
    · rfl

/-- Registers other than the page's EVT_RAW and the error log's own are unchanged by raising events. -/
theorem rget_raise_ne (s : State) (pg ev : Nat) {a : Nat} (h : a ≠ pg + 0x10) (h1 : a ≠ pgErr + 0x60) (h2 : a ≠ pgErr + 0x10) :
    rget (raise s pg ev) a = rget s a := by
  unfold raise
  rw [rget_foldl_logErr_ne pg ev h1 h2, rget_setEvents, if_neg h]

/-- EVT_RAW after raising events of a page other than ERR's. -/
theorem rget_raise_evt (s : State) (pg ev : Nat) (h1 : pg + 0x10 ≠ pgErr + 0x60) (h2 : pg ≠ pgErr) :
    rget (raise s pg ev) (pg + 0x10) = (rget s (pg + 0x10) ||| ev) % 2 ^ 32 := by
  unfold raise
  rw [rget_foldl_logErr_ne pg ev h1 (by omega), rget_setEvents, if_pos rfl]

theorem capture_frame (s : State) (pg c0 c1 c2 c3 : Nat) :
    ∃ r d, capture s pg c0 c1 c2 c3 = { s with regs := r, disarmed := d } := by
  unfold capture
  dsimp only
  split
  · exact ⟨s.regs, s.disarmed, rfl⟩
  · exact ⟨_, _, rfl⟩

end Sys2Proof.Machine
end

