-- ==== Sys2Proof/Laws/Frames.lean ====
section
/-!
SUPPORT. Laws/Frames.lean: what counters, fields, events and captures leave alone, one lemma per operation and field.
-/

namespace Sys2Proof.Machine

variable (s : State)

/-! ### bumpSat -/

@[simp] theorem bumpSat_pending (a n : Nat) : (bumpSat s a n).pending = s.pending := rfl
@[simp] theorem bumpSat_now (a n : Nat) : (bumpSat s a n).now = s.now := rfl
@[simp] theorem bumpSat_free (a n : Nat) : (bumpSat s a n).free = s.free := rfl
@[simp] theorem bumpSat_mems (a n : Nat) : (bumpSat s a n).mems = s.mems := rfl
@[simp] theorem bumpSat_disarmed (a n : Nat) : (bumpSat s a n).disarmed = s.disarmed := rfl
@[simp] theorem bumpSat_msix (a n : Nat) : (bumpSat s a n).msix = s.msix := rfl
@[simp] theorem bumpSat_cells (a n : Nat) : (bumpSat s a n).cells = s.cells := rfl
@[simp] theorem bumpSat_mcast (a n : Nat) : (bumpSat s a n).mcast = s.mcast := rfl
@[simp] theorem bumpSat_barriers (a n : Nat) : (bumpSat s a n).barriers = s.barriers := rfl
@[simp] theorem bumpSat_splits (a n : Nat) : (bumpSat s a n).splits = s.splits := rfl
@[simp] theorem bumpSat_parts (a n : Nat) : (bumpSat s a n).parts = s.parts := rfl
@[simp] theorem bumpSat_cache (a n : Nat) : (bumpSat s a n).cache = s.cache := rfl
@[simp] theorem bumpSat_fills (a n : Nat) : (bumpSat s a n).fills = s.fills := rfl
@[simp] theorem bumpSat_hbmq (a n : Nat) : (bumpSat s a n).hbmq = s.hbmq := rfl
@[simp] theorem bumpSat_wins (a n : Nat) : (bumpSat s a n).wins = s.wins := rfl
@[simp] theorem bumpSat_credit (a n : Nat) : (bumpSat s a n).credit = s.credit := rfl
@[simp] theorem bumpSat_bargeSeq (a n : Nat) : (bumpSat s a n).bargeSeq = s.bargeSeq := rfl
@[simp] theorem bumpSat_bargeWait (a n : Nat) : (bumpSat s a n).bargeWait = s.bargeWait := rfl
@[simp] theorem bumpSat_barges (a n : Nat) : (bumpSat s a n).barges = s.barges := rfl
@[simp] theorem bumpSat_engineLast (a n : Nat) : (bumpSat s a n).engineLast = s.engineLast := rfl
@[simp] theorem bumpSat_locks (a n : Nat) : (bumpSat s a n).locks = s.locks := rfl
@[simp] theorem bumpSat_bargeNotices (a n : Nat) : (bumpSat s a n).bargeNotices = s.bargeNotices := rfl
@[simp] theorem bumpSat_gsuLast (a n : Nat) : (bumpSat s a n).gsuLast = s.gsuLast := rfl
@[simp] theorem bumpSat_stepping (a n : Nat) : (bumpSat s a n).stepping = s.stepping := rfl
@[simp] theorem bumpSat_throttle (a n : Nat) : (bumpSat s a n).throttle = s.throttle := rfl
@[simp] theorem bumpSat_notices (a n : Nat) : (bumpSat s a n).notices = s.notices := rfl
@[simp] theorem bumpSat_faults (a n : Nat) : (bumpSat s a n).faults = s.faults := rfl
@[simp] theorem bumpSat_sclTime (a n : Nat) : (bumpSat s a n).sclTime = s.sclTime := rfl
@[simp] theorem bumpSat_dark (a n : Nat) : (bumpSat s a n).dark = s.dark := rfl
@[simp] theorem bumpSat_resp (a n : Nat) : (bumpSat s a n).resp = s.resp := rfl
@[simp] theorem bumpSat_latch (a n : Nat) : (bumpSat s a n).latch = s.latch := rfl
@[simp] theorem bumpSat_staging (a n : Nat) : (bumpSat s a n).staging = s.staging := rfl
@[simp] theorem bumpSat_cold (a n : Nat) : (bumpSat s a n).cold = s.cold := rfl
@[simp] theorem bumpSat_sqs (a n : Nat) : (bumpSat s a n).sqs = s.sqs := rfl
@[simp] theorem bumpSat_cqs (a n : Nat) : (bumpSat s a n).cqs = s.cqs := rfl
@[simp] theorem bumpSat_cmds (a n : Nat) : (bumpSat s a n).cmds = s.cmds := rfl
@[simp] theorem bumpSat_bell (a n : Nat) : (bumpSat s a n).bell = s.bell := rfl
@[simp] theorem bumpSat_turn (a n : Nat) : (bumpSat s a n).turn = s.turn := rfl
@[simp] theorem bumpSat_lastTurn (a n : Nat) : (bumpSat s a n).lastTurn = s.lastTurn := rfl
@[simp] theorem bumpSat_rolls (a n : Nat) : (bumpSat s a n).rolls = s.rolls := rfl
@[simp] theorem bumpSat_streams (a n : Nat) : (bumpSat s a n).streams = s.streams := rfl
@[simp] theorem bumpSat_links (a n : Nat) : (bumpSat s a n).links = s.links := rfl
@[simp] theorem bumpSat_tags (a n : Nat) : (bumpSat s a n).tags = s.tags := rfl
@[simp] theorem bumpSat_gens (a n : Nat) : (bumpSat s a n).gens = s.gens := rfl
@[simp] theorem bumpSat_fabs (a n : Nat) : (bumpSat s a n).fabs = s.fabs := rfl
@[simp] theorem bumpSat_cgroups (a n : Nat) : (bumpSat s a n).cgroups = s.cgroups := rfl
@[simp] theorem bumpSat_cruns (a n : Nat) : (bumpSat s a n).cruns = s.cruns := rfl
@[simp] theorem bumpSat_sess (a n : Nat) : (bumpSat s a n).sess = s.sess := rfl
@[simp] theorem bumpSat_aligns (a n : Nat) : (bumpSat s a n).aligns = s.aligns := rfl
@[simp] theorem bumpSat_tts (a n : Nat) : (bumpSat s a n).tts = s.tts := rfl
@[simp] theorem bumpSat_toccs (a n : Nat) : (bumpSat s a n).toccs = s.toccs := rfl
@[simp] theorem bumpSat_ttUid (a n : Nat) : (bumpSat s a n).ttUid = s.ttUid := rfl
@[simp] theorem bumpSat_dicts (a n : Nat) : (bumpSat s a n).dicts = s.dicts := rfl
@[simp] theorem bumpSat_scl (a n : Nat) : (bumpSat s a n).scl = s.scl := rfl
@[simp] theorem bumpSat_stop (a n : Nat) : (bumpSat s a n).stop = s.stop := rfl
@[simp] theorem bumpSat_errLog (a n : Nat) : (bumpSat s a n).errLog = s.errLog := rfl
@[simp] theorem bumpSat_traces (a n : Nat) : (bumpSat s a n).traces = s.traces := rfl
@[simp] theorem bumpSat_uresets (a n : Nat) : (bumpSat s a n).uresets = s.uresets := rfl
@[simp] theorem bumpSat_lastReset (a n : Nat) : (bumpSat s a n).lastReset = s.lastReset := rfl
@[simp] theorem bumpSat_prtCmd (a n : Nat) : (bumpSat s a n).prtCmd = s.prtCmd := rfl
@[simp] theorem bumpSat_mbxq (a n : Nat) : (bumpSat s a n).mbxq = s.mbxq := rfl
@[simp] theorem bumpSat_power (a n : Nat) : (bumpSat s a n).power = s.power := rfl
@[simp] theorem bumpSat_jnl (a n : Nat) : (bumpSat s a n).jnl = s.jnl := rfl
@[simp] theorem bumpSat_kImg (a n : Nat) : (bumpSat s a n).kImg = s.kImg := rfl
@[simp] theorem bumpSat_uImg (a n : Nat) : (bumpSat s a n).uImg = s.uImg := rfl
@[simp] theorem bumpSat_heldRec (a n : Nat) : (bumpSat s a n).heldRec = s.heldRec := rfl
@[simp] theorem bumpSat_fuses (a n : Nat) : (bumpSat s a n).fuses = s.fuses := rfl
@[simp] theorem bumpSat_trained (a n : Nat) : (bumpSat s a n).trained = s.trained := rfl
@[simp] theorem bumpSat_sblk (a n : Nat) : (bumpSat s a n).sblk = s.sblk := rfl
@[simp] theorem bumpSat_i3c (a n : Nat) : (bumpSat s a n).i3c = s.i3c := rfl
@[simp] theorem bumpSat_jtag (a n : Nat) : (bumpSat s a n).jtag = s.jtag := rfl
@[simp] theorem bumpSat_perst (a n : Nat) : (bumpSat s a n).perst = s.perst := rfl
@[simp] theorem bumpSat_pcieUp (a n : Nat) : (bumpSat s a n).pcieUp = s.pcieUp := rfl
@[simp] theorem bumpSat_msixHeld (a n : Nat) : (bumpSat s a n).msixHeld = s.msixHeld := rfl

/-! ### bumpWrap -/

@[simp] theorem bumpWrap_pending (a n : Nat) : (bumpWrap s a n).pending = s.pending := rfl
@[simp] theorem bumpWrap_now (a n : Nat) : (bumpWrap s a n).now = s.now := rfl
@[simp] theorem bumpWrap_free (a n : Nat) : (bumpWrap s a n).free = s.free := rfl
@[simp] theorem bumpWrap_mems (a n : Nat) : (bumpWrap s a n).mems = s.mems := rfl
@[simp] theorem bumpWrap_disarmed (a n : Nat) : (bumpWrap s a n).disarmed = s.disarmed := rfl
@[simp] theorem bumpWrap_msix (a n : Nat) : (bumpWrap s a n).msix = s.msix := rfl
@[simp] theorem bumpWrap_cells (a n : Nat) : (bumpWrap s a n).cells = s.cells := rfl
@[simp] theorem bumpWrap_mcast (a n : Nat) : (bumpWrap s a n).mcast = s.mcast := rfl
@[simp] theorem bumpWrap_barriers (a n : Nat) : (bumpWrap s a n).barriers = s.barriers := rfl
@[simp] theorem bumpWrap_splits (a n : Nat) : (bumpWrap s a n).splits = s.splits := rfl
@[simp] theorem bumpWrap_parts (a n : Nat) : (bumpWrap s a n).parts = s.parts := rfl
@[simp] theorem bumpWrap_cache (a n : Nat) : (bumpWrap s a n).cache = s.cache := rfl
@[simp] theorem bumpWrap_fills (a n : Nat) : (bumpWrap s a n).fills = s.fills := rfl
@[simp] theorem bumpWrap_hbmq (a n : Nat) : (bumpWrap s a n).hbmq = s.hbmq := rfl
@[simp] theorem bumpWrap_wins (a n : Nat) : (bumpWrap s a n).wins = s.wins := rfl
@[simp] theorem bumpWrap_credit (a n : Nat) : (bumpWrap s a n).credit = s.credit := rfl
@[simp] theorem bumpWrap_bargeSeq (a n : Nat) : (bumpWrap s a n).bargeSeq = s.bargeSeq := rfl
@[simp] theorem bumpWrap_bargeWait (a n : Nat) : (bumpWrap s a n).bargeWait = s.bargeWait := rfl
@[simp] theorem bumpWrap_barges (a n : Nat) : (bumpWrap s a n).barges = s.barges := rfl
@[simp] theorem bumpWrap_engineLast (a n : Nat) : (bumpWrap s a n).engineLast = s.engineLast := rfl
@[simp] theorem bumpWrap_locks (a n : Nat) : (bumpWrap s a n).locks = s.locks := rfl
@[simp] theorem bumpWrap_bargeNotices (a n : Nat) : (bumpWrap s a n).bargeNotices = s.bargeNotices := rfl
@[simp] theorem bumpWrap_gsuLast (a n : Nat) : (bumpWrap s a n).gsuLast = s.gsuLast := rfl
@[simp] theorem bumpWrap_stepping (a n : Nat) : (bumpWrap s a n).stepping = s.stepping := rfl
@[simp] theorem bumpWrap_throttle (a n : Nat) : (bumpWrap s a n).throttle = s.throttle := rfl
@[simp] theorem bumpWrap_notices (a n : Nat) : (bumpWrap s a n).notices = s.notices := rfl
@[simp] theorem bumpWrap_faults (a n : Nat) : (bumpWrap s a n).faults = s.faults := rfl
@[simp] theorem bumpWrap_sclTime (a n : Nat) : (bumpWrap s a n).sclTime = s.sclTime := rfl
@[simp] theorem bumpWrap_dark (a n : Nat) : (bumpWrap s a n).dark = s.dark := rfl
@[simp] theorem bumpWrap_resp (a n : Nat) : (bumpWrap s a n).resp = s.resp := rfl
@[simp] theorem bumpWrap_latch (a n : Nat) : (bumpWrap s a n).latch = s.latch := rfl
@[simp] theorem bumpWrap_staging (a n : Nat) : (bumpWrap s a n).staging = s.staging := rfl
@[simp] theorem bumpWrap_cold (a n : Nat) : (bumpWrap s a n).cold = s.cold := rfl
@[simp] theorem bumpWrap_sqs (a n : Nat) : (bumpWrap s a n).sqs = s.sqs := rfl
@[simp] theorem bumpWrap_cqs (a n : Nat) : (bumpWrap s a n).cqs = s.cqs := rfl
@[simp] theorem bumpWrap_cmds (a n : Nat) : (bumpWrap s a n).cmds = s.cmds := rfl
@[simp] theorem bumpWrap_bell (a n : Nat) : (bumpWrap s a n).bell = s.bell := rfl
@[simp] theorem bumpWrap_turn (a n : Nat) : (bumpWrap s a n).turn = s.turn := rfl
@[simp] theorem bumpWrap_lastTurn (a n : Nat) : (bumpWrap s a n).lastTurn = s.lastTurn := rfl
@[simp] theorem bumpWrap_rolls (a n : Nat) : (bumpWrap s a n).rolls = s.rolls := rfl
@[simp] theorem bumpWrap_streams (a n : Nat) : (bumpWrap s a n).streams = s.streams := rfl
@[simp] theorem bumpWrap_links (a n : Nat) : (bumpWrap s a n).links = s.links := rfl
@[simp] theorem bumpWrap_tags (a n : Nat) : (bumpWrap s a n).tags = s.tags := rfl
@[simp] theorem bumpWrap_gens (a n : Nat) : (bumpWrap s a n).gens = s.gens := rfl
@[simp] theorem bumpWrap_fabs (a n : Nat) : (bumpWrap s a n).fabs = s.fabs := rfl
@[simp] theorem bumpWrap_cgroups (a n : Nat) : (bumpWrap s a n).cgroups = s.cgroups := rfl
@[simp] theorem bumpWrap_cruns (a n : Nat) : (bumpWrap s a n).cruns = s.cruns := rfl
@[simp] theorem bumpWrap_sess (a n : Nat) : (bumpWrap s a n).sess = s.sess := rfl
@[simp] theorem bumpWrap_aligns (a n : Nat) : (bumpWrap s a n).aligns = s.aligns := rfl
@[simp] theorem bumpWrap_tts (a n : Nat) : (bumpWrap s a n).tts = s.tts := rfl
@[simp] theorem bumpWrap_toccs (a n : Nat) : (bumpWrap s a n).toccs = s.toccs := rfl
@[simp] theorem bumpWrap_ttUid (a n : Nat) : (bumpWrap s a n).ttUid = s.ttUid := rfl
@[simp] theorem bumpWrap_dicts (a n : Nat) : (bumpWrap s a n).dicts = s.dicts := rfl
@[simp] theorem bumpWrap_scl (a n : Nat) : (bumpWrap s a n).scl = s.scl := rfl
@[simp] theorem bumpWrap_stop (a n : Nat) : (bumpWrap s a n).stop = s.stop := rfl
@[simp] theorem bumpWrap_errLog (a n : Nat) : (bumpWrap s a n).errLog = s.errLog := rfl
@[simp] theorem bumpWrap_traces (a n : Nat) : (bumpWrap s a n).traces = s.traces := rfl
@[simp] theorem bumpWrap_uresets (a n : Nat) : (bumpWrap s a n).uresets = s.uresets := rfl
@[simp] theorem bumpWrap_lastReset (a n : Nat) : (bumpWrap s a n).lastReset = s.lastReset := rfl
@[simp] theorem bumpWrap_prtCmd (a n : Nat) : (bumpWrap s a n).prtCmd = s.prtCmd := rfl
@[simp] theorem bumpWrap_mbxq (a n : Nat) : (bumpWrap s a n).mbxq = s.mbxq := rfl
@[simp] theorem bumpWrap_power (a n : Nat) : (bumpWrap s a n).power = s.power := rfl
@[simp] theorem bumpWrap_jnl (a n : Nat) : (bumpWrap s a n).jnl = s.jnl := rfl
@[simp] theorem bumpWrap_kImg (a n : Nat) : (bumpWrap s a n).kImg = s.kImg := rfl
@[simp] theorem bumpWrap_uImg (a n : Nat) : (bumpWrap s a n).uImg = s.uImg := rfl
@[simp] theorem bumpWrap_heldRec (a n : Nat) : (bumpWrap s a n).heldRec = s.heldRec := rfl
@[simp] theorem bumpWrap_fuses (a n : Nat) : (bumpWrap s a n).fuses = s.fuses := rfl
@[simp] theorem bumpWrap_trained (a n : Nat) : (bumpWrap s a n).trained = s.trained := rfl
@[simp] theorem bumpWrap_sblk (a n : Nat) : (bumpWrap s a n).sblk = s.sblk := rfl
@[simp] theorem bumpWrap_i3c (a n : Nat) : (bumpWrap s a n).i3c = s.i3c := rfl
@[simp] theorem bumpWrap_jtag (a n : Nat) : (bumpWrap s a n).jtag = s.jtag := rfl
@[simp] theorem bumpWrap_perst (a n : Nat) : (bumpWrap s a n).perst = s.perst := rfl
@[simp] theorem bumpWrap_pcieUp (a n : Nat) : (bumpWrap s a n).pcieUp = s.pcieUp := rfl
@[simp] theorem bumpWrap_msixHeld (a n : Nat) : (bumpWrap s a n).msixHeld = s.msixHeld := rfl

/-! ### rsetBits -/

@[simp] theorem rsetBits_pending (a hi lo v : Nat) : (rsetBits s a hi lo v).pending = s.pending := rfl
@[simp] theorem rsetBits_now (a hi lo v : Nat) : (rsetBits s a hi lo v).now = s.now := rfl
@[simp] theorem rsetBits_free (a hi lo v : Nat) : (rsetBits s a hi lo v).free = s.free := rfl
@[simp] theorem rsetBits_mems (a hi lo v : Nat) : (rsetBits s a hi lo v).mems = s.mems := rfl
@[simp] theorem rsetBits_disarmed (a hi lo v : Nat) : (rsetBits s a hi lo v).disarmed = s.disarmed := rfl
@[simp] theorem rsetBits_msix (a hi lo v : Nat) : (rsetBits s a hi lo v).msix = s.msix := rfl
@[simp] theorem rsetBits_cells (a hi lo v : Nat) : (rsetBits s a hi lo v).cells = s.cells := rfl
@[simp] theorem rsetBits_mcast (a hi lo v : Nat) : (rsetBits s a hi lo v).mcast = s.mcast := rfl
@[simp] theorem rsetBits_barriers (a hi lo v : Nat) : (rsetBits s a hi lo v).barriers = s.barriers := rfl
@[simp] theorem rsetBits_splits (a hi lo v : Nat) : (rsetBits s a hi lo v).splits = s.splits := rfl
@[simp] theorem rsetBits_parts (a hi lo v : Nat) : (rsetBits s a hi lo v).parts = s.parts := rfl
@[simp] theorem rsetBits_cache (a hi lo v : Nat) : (rsetBits s a hi lo v).cache = s.cache := rfl
@[simp] theorem rsetBits_fills (a hi lo v : Nat) : (rsetBits s a hi lo v).fills = s.fills := rfl
@[simp] theorem rsetBits_hbmq (a hi lo v : Nat) : (rsetBits s a hi lo v).hbmq = s.hbmq := rfl
@[simp] theorem rsetBits_wins (a hi lo v : Nat) : (rsetBits s a hi lo v).wins = s.wins := rfl
@[simp] theorem rsetBits_credit (a hi lo v : Nat) : (rsetBits s a hi lo v).credit = s.credit := rfl
@[simp] theorem rsetBits_bargeSeq (a hi lo v : Nat) : (rsetBits s a hi lo v).bargeSeq = s.bargeSeq := rfl
@[simp] theorem rsetBits_bargeWait (a hi lo v : Nat) : (rsetBits s a hi lo v).bargeWait = s.bargeWait := rfl
@[simp] theorem rsetBits_barges (a hi lo v : Nat) : (rsetBits s a hi lo v).barges = s.barges := rfl
@[simp] theorem rsetBits_engineLast (a hi lo v : Nat) : (rsetBits s a hi lo v).engineLast = s.engineLast := rfl
@[simp] theorem rsetBits_locks (a hi lo v : Nat) : (rsetBits s a hi lo v).locks = s.locks := rfl
@[simp] theorem rsetBits_bargeNotices (a hi lo v : Nat) : (rsetBits s a hi lo v).bargeNotices = s.bargeNotices := rfl
@[simp] theorem rsetBits_gsuLast (a hi lo v : Nat) : (rsetBits s a hi lo v).gsuLast = s.gsuLast := rfl
@[simp] theorem rsetBits_stepping (a hi lo v : Nat) : (rsetBits s a hi lo v).stepping = s.stepping := rfl
@[simp] theorem rsetBits_throttle (a hi lo v : Nat) : (rsetBits s a hi lo v).throttle = s.throttle := rfl
@[simp] theorem rsetBits_notices (a hi lo v : Nat) : (rsetBits s a hi lo v).notices = s.notices := rfl
@[simp] theorem rsetBits_faults (a hi lo v : Nat) : (rsetBits s a hi lo v).faults = s.faults := rfl
@[simp] theorem rsetBits_sclTime (a hi lo v : Nat) : (rsetBits s a hi lo v).sclTime = s.sclTime := rfl
@[simp] theorem rsetBits_dark (a hi lo v : Nat) : (rsetBits s a hi lo v).dark = s.dark := rfl
@[simp] theorem rsetBits_resp (a hi lo v : Nat) : (rsetBits s a hi lo v).resp = s.resp := rfl
@[simp] theorem rsetBits_latch (a hi lo v : Nat) : (rsetBits s a hi lo v).latch = s.latch := rfl
@[simp] theorem rsetBits_staging (a hi lo v : Nat) : (rsetBits s a hi lo v).staging = s.staging := rfl
@[simp] theorem rsetBits_cold (a hi lo v : Nat) : (rsetBits s a hi lo v).cold = s.cold := rfl
@[simp] theorem rsetBits_sqs (a hi lo v : Nat) : (rsetBits s a hi lo v).sqs = s.sqs := rfl
@[simp] theorem rsetBits_cqs (a hi lo v : Nat) : (rsetBits s a hi lo v).cqs = s.cqs := rfl
@[simp] theorem rsetBits_cmds (a hi lo v : Nat) : (rsetBits s a hi lo v).cmds = s.cmds := rfl
@[simp] theorem rsetBits_bell (a hi lo v : Nat) : (rsetBits s a hi lo v).bell = s.bell := rfl
@[simp] theorem rsetBits_turn (a hi lo v : Nat) : (rsetBits s a hi lo v).turn = s.turn := rfl
@[simp] theorem rsetBits_lastTurn (a hi lo v : Nat) : (rsetBits s a hi lo v).lastTurn = s.lastTurn := rfl
@[simp] theorem rsetBits_rolls (a hi lo v : Nat) : (rsetBits s a hi lo v).rolls = s.rolls := rfl
@[simp] theorem rsetBits_streams (a hi lo v : Nat) : (rsetBits s a hi lo v).streams = s.streams := rfl
@[simp] theorem rsetBits_links (a hi lo v : Nat) : (rsetBits s a hi lo v).links = s.links := rfl
@[simp] theorem rsetBits_tags (a hi lo v : Nat) : (rsetBits s a hi lo v).tags = s.tags := rfl
@[simp] theorem rsetBits_gens (a hi lo v : Nat) : (rsetBits s a hi lo v).gens = s.gens := rfl
@[simp] theorem rsetBits_fabs (a hi lo v : Nat) : (rsetBits s a hi lo v).fabs = s.fabs := rfl
@[simp] theorem rsetBits_cgroups (a hi lo v : Nat) : (rsetBits s a hi lo v).cgroups = s.cgroups := rfl
@[simp] theorem rsetBits_cruns (a hi lo v : Nat) : (rsetBits s a hi lo v).cruns = s.cruns := rfl
@[simp] theorem rsetBits_sess (a hi lo v : Nat) : (rsetBits s a hi lo v).sess = s.sess := rfl
@[simp] theorem rsetBits_aligns (a hi lo v : Nat) : (rsetBits s a hi lo v).aligns = s.aligns := rfl
@[simp] theorem rsetBits_tts (a hi lo v : Nat) : (rsetBits s a hi lo v).tts = s.tts := rfl
@[simp] theorem rsetBits_toccs (a hi lo v : Nat) : (rsetBits s a hi lo v).toccs = s.toccs := rfl
@[simp] theorem rsetBits_ttUid (a hi lo v : Nat) : (rsetBits s a hi lo v).ttUid = s.ttUid := rfl
@[simp] theorem rsetBits_dicts (a hi lo v : Nat) : (rsetBits s a hi lo v).dicts = s.dicts := rfl
@[simp] theorem rsetBits_scl (a hi lo v : Nat) : (rsetBits s a hi lo v).scl = s.scl := rfl
@[simp] theorem rsetBits_stop (a hi lo v : Nat) : (rsetBits s a hi lo v).stop = s.stop := rfl
@[simp] theorem rsetBits_errLog (a hi lo v : Nat) : (rsetBits s a hi lo v).errLog = s.errLog := rfl
@[simp] theorem rsetBits_traces (a hi lo v : Nat) : (rsetBits s a hi lo v).traces = s.traces := rfl
@[simp] theorem rsetBits_uresets (a hi lo v : Nat) : (rsetBits s a hi lo v).uresets = s.uresets := rfl
@[simp] theorem rsetBits_lastReset (a hi lo v : Nat) : (rsetBits s a hi lo v).lastReset = s.lastReset := rfl
@[simp] theorem rsetBits_prtCmd (a hi lo v : Nat) : (rsetBits s a hi lo v).prtCmd = s.prtCmd := rfl
@[simp] theorem rsetBits_mbxq (a hi lo v : Nat) : (rsetBits s a hi lo v).mbxq = s.mbxq := rfl
@[simp] theorem rsetBits_power (a hi lo v : Nat) : (rsetBits s a hi lo v).power = s.power := rfl
@[simp] theorem rsetBits_jnl (a hi lo v : Nat) : (rsetBits s a hi lo v).jnl = s.jnl := rfl
@[simp] theorem rsetBits_kImg (a hi lo v : Nat) : (rsetBits s a hi lo v).kImg = s.kImg := rfl
@[simp] theorem rsetBits_uImg (a hi lo v : Nat) : (rsetBits s a hi lo v).uImg = s.uImg := rfl
@[simp] theorem rsetBits_heldRec (a hi lo v : Nat) : (rsetBits s a hi lo v).heldRec = s.heldRec := rfl
@[simp] theorem rsetBits_fuses (a hi lo v : Nat) : (rsetBits s a hi lo v).fuses = s.fuses := rfl
@[simp] theorem rsetBits_trained (a hi lo v : Nat) : (rsetBits s a hi lo v).trained = s.trained := rfl
@[simp] theorem rsetBits_sblk (a hi lo v : Nat) : (rsetBits s a hi lo v).sblk = s.sblk := rfl
@[simp] theorem rsetBits_i3c (a hi lo v : Nat) : (rsetBits s a hi lo v).i3c = s.i3c := rfl
@[simp] theorem rsetBits_jtag (a hi lo v : Nat) : (rsetBits s a hi lo v).jtag = s.jtag := rfl
@[simp] theorem rsetBits_perst (a hi lo v : Nat) : (rsetBits s a hi lo v).perst = s.perst := rfl
@[simp] theorem rsetBits_pcieUp (a hi lo v : Nat) : (rsetBits s a hi lo v).pcieUp = s.pcieUp := rfl
@[simp] theorem rsetBits_msixHeld (a hi lo v : Nat) : (rsetBits s a hi lo v).msixHeld = s.msixHeld := rfl

/-! ### semDec -/

@[simp] theorem semDec_pending (c n : Nat) : (semDec s c n).pending = s.pending := rfl
@[simp] theorem semDec_now (c n : Nat) : (semDec s c n).now = s.now := rfl
@[simp] theorem semDec_free (c n : Nat) : (semDec s c n).free = s.free := rfl
@[simp] theorem semDec_mems (c n : Nat) : (semDec s c n).mems = s.mems := rfl
@[simp] theorem semDec_disarmed (c n : Nat) : (semDec s c n).disarmed = s.disarmed := rfl
@[simp] theorem semDec_msix (c n : Nat) : (semDec s c n).msix = s.msix := rfl
@[simp] theorem semDec_cells (c n : Nat) : (semDec s c n).cells = s.cells := rfl
@[simp] theorem semDec_mcast (c n : Nat) : (semDec s c n).mcast = s.mcast := rfl
@[simp] theorem semDec_barriers (c n : Nat) : (semDec s c n).barriers = s.barriers := rfl
@[simp] theorem semDec_splits (c n : Nat) : (semDec s c n).splits = s.splits := rfl
@[simp] theorem semDec_parts (c n : Nat) : (semDec s c n).parts = s.parts := rfl
@[simp] theorem semDec_cache (c n : Nat) : (semDec s c n).cache = s.cache := rfl
@[simp] theorem semDec_fills (c n : Nat) : (semDec s c n).fills = s.fills := rfl
@[simp] theorem semDec_hbmq (c n : Nat) : (semDec s c n).hbmq = s.hbmq := rfl
@[simp] theorem semDec_wins (c n : Nat) : (semDec s c n).wins = s.wins := rfl
@[simp] theorem semDec_credit (c n : Nat) : (semDec s c n).credit = s.credit := rfl
@[simp] theorem semDec_bargeSeq (c n : Nat) : (semDec s c n).bargeSeq = s.bargeSeq := rfl
@[simp] theorem semDec_bargeWait (c n : Nat) : (semDec s c n).bargeWait = s.bargeWait := rfl
@[simp] theorem semDec_barges (c n : Nat) : (semDec s c n).barges = s.barges := rfl
@[simp] theorem semDec_engineLast (c n : Nat) : (semDec s c n).engineLast = s.engineLast := rfl
@[simp] theorem semDec_locks (c n : Nat) : (semDec s c n).locks = s.locks := rfl
@[simp] theorem semDec_bargeNotices (c n : Nat) : (semDec s c n).bargeNotices = s.bargeNotices := rfl
@[simp] theorem semDec_gsuLast (c n : Nat) : (semDec s c n).gsuLast = s.gsuLast := rfl
@[simp] theorem semDec_stepping (c n : Nat) : (semDec s c n).stepping = s.stepping := rfl
@[simp] theorem semDec_throttle (c n : Nat) : (semDec s c n).throttle = s.throttle := rfl
@[simp] theorem semDec_notices (c n : Nat) : (semDec s c n).notices = s.notices := rfl
@[simp] theorem semDec_faults (c n : Nat) : (semDec s c n).faults = s.faults := rfl
@[simp] theorem semDec_sclTime (c n : Nat) : (semDec s c n).sclTime = s.sclTime := rfl
@[simp] theorem semDec_dark (c n : Nat) : (semDec s c n).dark = s.dark := rfl
@[simp] theorem semDec_resp (c n : Nat) : (semDec s c n).resp = s.resp := rfl
@[simp] theorem semDec_latch (c n : Nat) : (semDec s c n).latch = s.latch := rfl
@[simp] theorem semDec_staging (c n : Nat) : (semDec s c n).staging = s.staging := rfl
@[simp] theorem semDec_cold (c n : Nat) : (semDec s c n).cold = s.cold := rfl
@[simp] theorem semDec_sqs (c n : Nat) : (semDec s c n).sqs = s.sqs := rfl
@[simp] theorem semDec_cqs (c n : Nat) : (semDec s c n).cqs = s.cqs := rfl
@[simp] theorem semDec_cmds (c n : Nat) : (semDec s c n).cmds = s.cmds := rfl
@[simp] theorem semDec_bell (c n : Nat) : (semDec s c n).bell = s.bell := rfl
@[simp] theorem semDec_turn (c n : Nat) : (semDec s c n).turn = s.turn := rfl
@[simp] theorem semDec_lastTurn (c n : Nat) : (semDec s c n).lastTurn = s.lastTurn := rfl
@[simp] theorem semDec_rolls (c n : Nat) : (semDec s c n).rolls = s.rolls := rfl
@[simp] theorem semDec_streams (c n : Nat) : (semDec s c n).streams = s.streams := rfl
@[simp] theorem semDec_links (c n : Nat) : (semDec s c n).links = s.links := rfl
@[simp] theorem semDec_tags (c n : Nat) : (semDec s c n).tags = s.tags := rfl
@[simp] theorem semDec_gens (c n : Nat) : (semDec s c n).gens = s.gens := rfl
@[simp] theorem semDec_fabs (c n : Nat) : (semDec s c n).fabs = s.fabs := rfl
@[simp] theorem semDec_cgroups (c n : Nat) : (semDec s c n).cgroups = s.cgroups := rfl
@[simp] theorem semDec_cruns (c n : Nat) : (semDec s c n).cruns = s.cruns := rfl
@[simp] theorem semDec_sess (c n : Nat) : (semDec s c n).sess = s.sess := rfl
@[simp] theorem semDec_aligns (c n : Nat) : (semDec s c n).aligns = s.aligns := rfl
@[simp] theorem semDec_tts (c n : Nat) : (semDec s c n).tts = s.tts := rfl
@[simp] theorem semDec_toccs (c n : Nat) : (semDec s c n).toccs = s.toccs := rfl
@[simp] theorem semDec_ttUid (c n : Nat) : (semDec s c n).ttUid = s.ttUid := rfl
@[simp] theorem semDec_dicts (c n : Nat) : (semDec s c n).dicts = s.dicts := rfl
@[simp] theorem semDec_scl (c n : Nat) : (semDec s c n).scl = s.scl := rfl
@[simp] theorem semDec_stop (c n : Nat) : (semDec s c n).stop = s.stop := rfl
@[simp] theorem semDec_errLog (c n : Nat) : (semDec s c n).errLog = s.errLog := rfl
@[simp] theorem semDec_traces (c n : Nat) : (semDec s c n).traces = s.traces := rfl
@[simp] theorem semDec_uresets (c n : Nat) : (semDec s c n).uresets = s.uresets := rfl
@[simp] theorem semDec_lastReset (c n : Nat) : (semDec s c n).lastReset = s.lastReset := rfl
@[simp] theorem semDec_prtCmd (c n : Nat) : (semDec s c n).prtCmd = s.prtCmd := rfl
@[simp] theorem semDec_mbxq (c n : Nat) : (semDec s c n).mbxq = s.mbxq := rfl
@[simp] theorem semDec_power (c n : Nat) : (semDec s c n).power = s.power := rfl
@[simp] theorem semDec_jnl (c n : Nat) : (semDec s c n).jnl = s.jnl := rfl
@[simp] theorem semDec_kImg (c n : Nat) : (semDec s c n).kImg = s.kImg := rfl
@[simp] theorem semDec_uImg (c n : Nat) : (semDec s c n).uImg = s.uImg := rfl
@[simp] theorem semDec_heldRec (c n : Nat) : (semDec s c n).heldRec = s.heldRec := rfl
@[simp] theorem semDec_fuses (c n : Nat) : (semDec s c n).fuses = s.fuses := rfl
@[simp] theorem semDec_trained (c n : Nat) : (semDec s c n).trained = s.trained := rfl
@[simp] theorem semDec_sblk (c n : Nat) : (semDec s c n).sblk = s.sblk := rfl
@[simp] theorem semDec_i3c (c n : Nat) : (semDec s c n).i3c = s.i3c := rfl
@[simp] theorem semDec_jtag (c n : Nat) : (semDec s c n).jtag = s.jtag := rfl
@[simp] theorem semDec_perst (c n : Nat) : (semDec s c n).perst = s.perst := rfl
@[simp] theorem semDec_pcieUp (c n : Nat) : (semDec s c n).pcieUp = s.pcieUp := rfl
@[simp] theorem semDec_msixHeld (c n : Nat) : (semDec s c n).msixHeld = s.msixHeld := rfl

/-! ### msixSend -/

@[simp] theorem msixSend_pending (fn v : Nat) : (msixSend s fn v).pending = s.pending := by obtain ⟨_, _, e⟩ := msixSend_frame s fn v; rw [e]
@[simp] theorem msixSend_now (fn v : Nat) : (msixSend s fn v).now = s.now := by obtain ⟨_, _, e⟩ := msixSend_frame s fn v; rw [e]
@[simp] theorem msixSend_free (fn v : Nat) : (msixSend s fn v).free = s.free := by obtain ⟨_, _, e⟩ := msixSend_frame s fn v; rw [e]
@[simp] theorem msixSend_mems (fn v : Nat) : (msixSend s fn v).mems = s.mems := by obtain ⟨_, _, e⟩ := msixSend_frame s fn v; rw [e]
@[simp] theorem msixSend_regs (fn v : Nat) : (msixSend s fn v).regs = s.regs := by obtain ⟨_, _, e⟩ := msixSend_frame s fn v; rw [e]
@[simp] theorem msixSend_disarmed (fn v : Nat) : (msixSend s fn v).disarmed = s.disarmed := by obtain ⟨_, _, e⟩ := msixSend_frame s fn v; rw [e]
@[simp] theorem msixSend_cells (fn v : Nat) : (msixSend s fn v).cells = s.cells := by obtain ⟨_, _, e⟩ := msixSend_frame s fn v; rw [e]
@[simp] theorem msixSend_mcast (fn v : Nat) : (msixSend s fn v).mcast = s.mcast := by obtain ⟨_, _, e⟩ := msixSend_frame s fn v; rw [e]
@[simp] theorem msixSend_barriers (fn v : Nat) : (msixSend s fn v).barriers = s.barriers := by obtain ⟨_, _, e⟩ := msixSend_frame s fn v; rw [e]
@[simp] theorem msixSend_splits (fn v : Nat) : (msixSend s fn v).splits = s.splits := by obtain ⟨_, _, e⟩ := msixSend_frame s fn v; rw [e]
@[simp] theorem msixSend_parts (fn v : Nat) : (msixSend s fn v).parts = s.parts := by obtain ⟨_, _, e⟩ := msixSend_frame s fn v; rw [e]
@[simp] theorem msixSend_cache (fn v : Nat) : (msixSend s fn v).cache = s.cache := by obtain ⟨_, _, e⟩ := msixSend_frame s fn v; rw [e]
@[simp] theorem msixSend_fills (fn v : Nat) : (msixSend s fn v).fills = s.fills := by obtain ⟨_, _, e⟩ := msixSend_frame s fn v; rw [e]
@[simp] theorem msixSend_hbmq (fn v : Nat) : (msixSend s fn v).hbmq = s.hbmq := by obtain ⟨_, _, e⟩ := msixSend_frame s fn v; rw [e]
@[simp] theorem msixSend_wins (fn v : Nat) : (msixSend s fn v).wins = s.wins := by obtain ⟨_, _, e⟩ := msixSend_frame s fn v; rw [e]
@[simp] theorem msixSend_credit (fn v : Nat) : (msixSend s fn v).credit = s.credit := by obtain ⟨_, _, e⟩ := msixSend_frame s fn v; rw [e]
@[simp] theorem msixSend_bargeSeq (fn v : Nat) : (msixSend s fn v).bargeSeq = s.bargeSeq := by obtain ⟨_, _, e⟩ := msixSend_frame s fn v; rw [e]
@[simp] theorem msixSend_bargeWait (fn v : Nat) : (msixSend s fn v).bargeWait = s.bargeWait := by obtain ⟨_, _, e⟩ := msixSend_frame s fn v; rw [e]
@[simp] theorem msixSend_barges (fn v : Nat) : (msixSend s fn v).barges = s.barges := by obtain ⟨_, _, e⟩ := msixSend_frame s fn v; rw [e]
@[simp] theorem msixSend_engineLast (fn v : Nat) : (msixSend s fn v).engineLast = s.engineLast := by obtain ⟨_, _, e⟩ := msixSend_frame s fn v; rw [e]
@[simp] theorem msixSend_locks (fn v : Nat) : (msixSend s fn v).locks = s.locks := by obtain ⟨_, _, e⟩ := msixSend_frame s fn v; rw [e]
@[simp] theorem msixSend_bargeNotices (fn v : Nat) : (msixSend s fn v).bargeNotices = s.bargeNotices := by obtain ⟨_, _, e⟩ := msixSend_frame s fn v; rw [e]
@[simp] theorem msixSend_gsuLast (fn v : Nat) : (msixSend s fn v).gsuLast = s.gsuLast := by obtain ⟨_, _, e⟩ := msixSend_frame s fn v; rw [e]
@[simp] theorem msixSend_stepping (fn v : Nat) : (msixSend s fn v).stepping = s.stepping := by obtain ⟨_, _, e⟩ := msixSend_frame s fn v; rw [e]
@[simp] theorem msixSend_throttle (fn v : Nat) : (msixSend s fn v).throttle = s.throttle := by obtain ⟨_, _, e⟩ := msixSend_frame s fn v; rw [e]
@[simp] theorem msixSend_notices (fn v : Nat) : (msixSend s fn v).notices = s.notices := by obtain ⟨_, _, e⟩ := msixSend_frame s fn v; rw [e]
@[simp] theorem msixSend_faults (fn v : Nat) : (msixSend s fn v).faults = s.faults := by obtain ⟨_, _, e⟩ := msixSend_frame s fn v; rw [e]
@[simp] theorem msixSend_sclTime (fn v : Nat) : (msixSend s fn v).sclTime = s.sclTime := by obtain ⟨_, _, e⟩ := msixSend_frame s fn v; rw [e]
@[simp] theorem msixSend_dark (fn v : Nat) : (msixSend s fn v).dark = s.dark := by obtain ⟨_, _, e⟩ := msixSend_frame s fn v; rw [e]
@[simp] theorem msixSend_resp (fn v : Nat) : (msixSend s fn v).resp = s.resp := by obtain ⟨_, _, e⟩ := msixSend_frame s fn v; rw [e]
@[simp] theorem msixSend_latch (fn v : Nat) : (msixSend s fn v).latch = s.latch := by obtain ⟨_, _, e⟩ := msixSend_frame s fn v; rw [e]
@[simp] theorem msixSend_staging (fn v : Nat) : (msixSend s fn v).staging = s.staging := by obtain ⟨_, _, e⟩ := msixSend_frame s fn v; rw [e]
@[simp] theorem msixSend_cold (fn v : Nat) : (msixSend s fn v).cold = s.cold := by obtain ⟨_, _, e⟩ := msixSend_frame s fn v; rw [e]
@[simp] theorem msixSend_sqs (fn v : Nat) : (msixSend s fn v).sqs = s.sqs := by obtain ⟨_, _, e⟩ := msixSend_frame s fn v; rw [e]
@[simp] theorem msixSend_cqs (fn v : Nat) : (msixSend s fn v).cqs = s.cqs := by obtain ⟨_, _, e⟩ := msixSend_frame s fn v; rw [e]
@[simp] theorem msixSend_cmds (fn v : Nat) : (msixSend s fn v).cmds = s.cmds := by obtain ⟨_, _, e⟩ := msixSend_frame s fn v; rw [e]
@[simp] theorem msixSend_bell (fn v : Nat) : (msixSend s fn v).bell = s.bell := by obtain ⟨_, _, e⟩ := msixSend_frame s fn v; rw [e]
@[simp] theorem msixSend_turn (fn v : Nat) : (msixSend s fn v).turn = s.turn := by obtain ⟨_, _, e⟩ := msixSend_frame s fn v; rw [e]
@[simp] theorem msixSend_lastTurn (fn v : Nat) : (msixSend s fn v).lastTurn = s.lastTurn := by obtain ⟨_, _, e⟩ := msixSend_frame s fn v; rw [e]
@[simp] theorem msixSend_rolls (fn v : Nat) : (msixSend s fn v).rolls = s.rolls := by obtain ⟨_, _, e⟩ := msixSend_frame s fn v; rw [e]
@[simp] theorem msixSend_streams (fn v : Nat) : (msixSend s fn v).streams = s.streams := by obtain ⟨_, _, e⟩ := msixSend_frame s fn v; rw [e]
@[simp] theorem msixSend_links (fn v : Nat) : (msixSend s fn v).links = s.links := by obtain ⟨_, _, e⟩ := msixSend_frame s fn v; rw [e]
@[simp] theorem msixSend_tags (fn v : Nat) : (msixSend s fn v).tags = s.tags := by obtain ⟨_, _, e⟩ := msixSend_frame s fn v; rw [e]
@[simp] theorem msixSend_gens (fn v : Nat) : (msixSend s fn v).gens = s.gens := by obtain ⟨_, _, e⟩ := msixSend_frame s fn v; rw [e]
@[simp] theorem msixSend_fabs (fn v : Nat) : (msixSend s fn v).fabs = s.fabs := by obtain ⟨_, _, e⟩ := msixSend_frame s fn v; rw [e]
@[simp] theorem msixSend_cgroups (fn v : Nat) : (msixSend s fn v).cgroups = s.cgroups := by obtain ⟨_, _, e⟩ := msixSend_frame s fn v; rw [e]
@[simp] theorem msixSend_cruns (fn v : Nat) : (msixSend s fn v).cruns = s.cruns := by obtain ⟨_, _, e⟩ := msixSend_frame s fn v; rw [e]
@[simp] theorem msixSend_sess (fn v : Nat) : (msixSend s fn v).sess = s.sess := by obtain ⟨_, _, e⟩ := msixSend_frame s fn v; rw [e]
@[simp] theorem msixSend_aligns (fn v : Nat) : (msixSend s fn v).aligns = s.aligns := by obtain ⟨_, _, e⟩ := msixSend_frame s fn v; rw [e]
@[simp] theorem msixSend_tts (fn v : Nat) : (msixSend s fn v).tts = s.tts := by obtain ⟨_, _, e⟩ := msixSend_frame s fn v; rw [e]
@[simp] theorem msixSend_toccs (fn v : Nat) : (msixSend s fn v).toccs = s.toccs := by obtain ⟨_, _, e⟩ := msixSend_frame s fn v; rw [e]
@[simp] theorem msixSend_ttUid (fn v : Nat) : (msixSend s fn v).ttUid = s.ttUid := by obtain ⟨_, _, e⟩ := msixSend_frame s fn v; rw [e]
@[simp] theorem msixSend_dicts (fn v : Nat) : (msixSend s fn v).dicts = s.dicts := by obtain ⟨_, _, e⟩ := msixSend_frame s fn v; rw [e]
@[simp] theorem msixSend_scl (fn v : Nat) : (msixSend s fn v).scl = s.scl := by obtain ⟨_, _, e⟩ := msixSend_frame s fn v; rw [e]
@[simp] theorem msixSend_stop (fn v : Nat) : (msixSend s fn v).stop = s.stop := by obtain ⟨_, _, e⟩ := msixSend_frame s fn v; rw [e]
@[simp] theorem msixSend_errLog (fn v : Nat) : (msixSend s fn v).errLog = s.errLog := by obtain ⟨_, _, e⟩ := msixSend_frame s fn v; rw [e]
@[simp] theorem msixSend_traces (fn v : Nat) : (msixSend s fn v).traces = s.traces := by obtain ⟨_, _, e⟩ := msixSend_frame s fn v; rw [e]
@[simp] theorem msixSend_uresets (fn v : Nat) : (msixSend s fn v).uresets = s.uresets := by obtain ⟨_, _, e⟩ := msixSend_frame s fn v; rw [e]
@[simp] theorem msixSend_lastReset (fn v : Nat) : (msixSend s fn v).lastReset = s.lastReset := by obtain ⟨_, _, e⟩ := msixSend_frame s fn v; rw [e]
@[simp] theorem msixSend_prtCmd (fn v : Nat) : (msixSend s fn v).prtCmd = s.prtCmd := by obtain ⟨_, _, e⟩ := msixSend_frame s fn v; rw [e]
@[simp] theorem msixSend_mbxq (fn v : Nat) : (msixSend s fn v).mbxq = s.mbxq := by obtain ⟨_, _, e⟩ := msixSend_frame s fn v; rw [e]
@[simp] theorem msixSend_power (fn v : Nat) : (msixSend s fn v).power = s.power := by obtain ⟨_, _, e⟩ := msixSend_frame s fn v; rw [e]
@[simp] theorem msixSend_jnl (fn v : Nat) : (msixSend s fn v).jnl = s.jnl := by obtain ⟨_, _, e⟩ := msixSend_frame s fn v; rw [e]
@[simp] theorem msixSend_kImg (fn v : Nat) : (msixSend s fn v).kImg = s.kImg := by obtain ⟨_, _, e⟩ := msixSend_frame s fn v; rw [e]
@[simp] theorem msixSend_uImg (fn v : Nat) : (msixSend s fn v).uImg = s.uImg := by obtain ⟨_, _, e⟩ := msixSend_frame s fn v; rw [e]
@[simp] theorem msixSend_heldRec (fn v : Nat) : (msixSend s fn v).heldRec = s.heldRec := by obtain ⟨_, _, e⟩ := msixSend_frame s fn v; rw [e]
@[simp] theorem msixSend_fuses (fn v : Nat) : (msixSend s fn v).fuses = s.fuses := by obtain ⟨_, _, e⟩ := msixSend_frame s fn v; rw [e]
@[simp] theorem msixSend_trained (fn v : Nat) : (msixSend s fn v).trained = s.trained := by obtain ⟨_, _, e⟩ := msixSend_frame s fn v; rw [e]
@[simp] theorem msixSend_sblk (fn v : Nat) : (msixSend s fn v).sblk = s.sblk := by obtain ⟨_, _, e⟩ := msixSend_frame s fn v; rw [e]
@[simp] theorem msixSend_i3c (fn v : Nat) : (msixSend s fn v).i3c = s.i3c := by obtain ⟨_, _, e⟩ := msixSend_frame s fn v; rw [e]
@[simp] theorem msixSend_jtag (fn v : Nat) : (msixSend s fn v).jtag = s.jtag := by obtain ⟨_, _, e⟩ := msixSend_frame s fn v; rw [e]
@[simp] theorem msixSend_perst (fn v : Nat) : (msixSend s fn v).perst = s.perst := by obtain ⟨_, _, e⟩ := msixSend_frame s fn v; rw [e]
@[simp] theorem msixSend_pcieUp (fn v : Nat) : (msixSend s fn v).pcieUp = s.pcieUp := by obtain ⟨_, _, e⟩ := msixSend_frame s fn v; rw [e]

/-! ### setEvents -/

@[simp] theorem setEvents_pending (pg e : Nat) : (setEvents s pg e).pending = s.pending := by obtain ⟨_, _, h⟩ := setEvents_frame s pg e; rw [h]; rfl
@[simp] theorem setEvents_now (pg e : Nat) : (setEvents s pg e).now = s.now := by obtain ⟨_, _, h⟩ := setEvents_frame s pg e; rw [h]; rfl
@[simp] theorem setEvents_free (pg e : Nat) : (setEvents s pg e).free = s.free := by obtain ⟨_, _, h⟩ := setEvents_frame s pg e; rw [h]; rfl
@[simp] theorem setEvents_mems (pg e : Nat) : (setEvents s pg e).mems = s.mems := by obtain ⟨_, _, h⟩ := setEvents_frame s pg e; rw [h]; rfl
@[simp] theorem setEvents_disarmed (pg e : Nat) : (setEvents s pg e).disarmed = s.disarmed := by obtain ⟨_, _, h⟩ := setEvents_frame s pg e; rw [h]; rfl
@[simp] theorem setEvents_cells (pg e : Nat) : (setEvents s pg e).cells = s.cells := by obtain ⟨_, _, h⟩ := setEvents_frame s pg e; rw [h]; rfl
@[simp] theorem setEvents_mcast (pg e : Nat) : (setEvents s pg e).mcast = s.mcast := by obtain ⟨_, _, h⟩ := setEvents_frame s pg e; rw [h]; rfl
@[simp] theorem setEvents_barriers (pg e : Nat) : (setEvents s pg e).barriers = s.barriers := by obtain ⟨_, _, h⟩ := setEvents_frame s pg e; rw [h]; rfl
@[simp] theorem setEvents_splits (pg e : Nat) : (setEvents s pg e).splits = s.splits := by obtain ⟨_, _, h⟩ := setEvents_frame s pg e; rw [h]; rfl
@[simp] theorem setEvents_parts (pg e : Nat) : (setEvents s pg e).parts = s.parts := by obtain ⟨_, _, h⟩ := setEvents_frame s pg e; rw [h]; rfl
@[simp] theorem setEvents_cache (pg e : Nat) : (setEvents s pg e).cache = s.cache := by obtain ⟨_, _, h⟩ := setEvents_frame s pg e; rw [h]; rfl
@[simp] theorem setEvents_fills (pg e : Nat) : (setEvents s pg e).fills = s.fills := by obtain ⟨_, _, h⟩ := setEvents_frame s pg e; rw [h]; rfl
@[simp] theorem setEvents_hbmq (pg e : Nat) : (setEvents s pg e).hbmq = s.hbmq := by obtain ⟨_, _, h⟩ := setEvents_frame s pg e; rw [h]; rfl
@[simp] theorem setEvents_wins (pg e : Nat) : (setEvents s pg e).wins = s.wins := by obtain ⟨_, _, h⟩ := setEvents_frame s pg e; rw [h]; rfl
@[simp] theorem setEvents_credit (pg e : Nat) : (setEvents s pg e).credit = s.credit := by obtain ⟨_, _, h⟩ := setEvents_frame s pg e; rw [h]; rfl
@[simp] theorem setEvents_bargeSeq (pg e : Nat) : (setEvents s pg e).bargeSeq = s.bargeSeq := by obtain ⟨_, _, h⟩ := setEvents_frame s pg e; rw [h]; rfl
@[simp] theorem setEvents_bargeWait (pg e : Nat) : (setEvents s pg e).bargeWait = s.bargeWait := by obtain ⟨_, _, h⟩ := setEvents_frame s pg e; rw [h]; rfl
@[simp] theorem setEvents_barges (pg e : Nat) : (setEvents s pg e).barges = s.barges := by obtain ⟨_, _, h⟩ := setEvents_frame s pg e; rw [h]; rfl
@[simp] theorem setEvents_engineLast (pg e : Nat) : (setEvents s pg e).engineLast = s.engineLast := by obtain ⟨_, _, h⟩ := setEvents_frame s pg e; rw [h]; rfl
@[simp] theorem setEvents_locks (pg e : Nat) : (setEvents s pg e).locks = s.locks := by obtain ⟨_, _, h⟩ := setEvents_frame s pg e; rw [h]; rfl
@[simp] theorem setEvents_bargeNotices (pg e : Nat) : (setEvents s pg e).bargeNotices = s.bargeNotices := by obtain ⟨_, _, h⟩ := setEvents_frame s pg e; rw [h]; rfl
@[simp] theorem setEvents_gsuLast (pg e : Nat) : (setEvents s pg e).gsuLast = s.gsuLast := by obtain ⟨_, _, h⟩ := setEvents_frame s pg e; rw [h]; rfl
@[simp] theorem setEvents_stepping (pg e : Nat) : (setEvents s pg e).stepping = s.stepping := by obtain ⟨_, _, h⟩ := setEvents_frame s pg e; rw [h]; rfl
@[simp] theorem setEvents_throttle (pg e : Nat) : (setEvents s pg e).throttle = s.throttle := by obtain ⟨_, _, h⟩ := setEvents_frame s pg e; rw [h]; rfl
@[simp] theorem setEvents_notices (pg e : Nat) : (setEvents s pg e).notices = s.notices := by obtain ⟨_, _, h⟩ := setEvents_frame s pg e; rw [h]; rfl
@[simp] theorem setEvents_faults (pg e : Nat) : (setEvents s pg e).faults = s.faults := by obtain ⟨_, _, h⟩ := setEvents_frame s pg e; rw [h]; rfl
@[simp] theorem setEvents_sclTime (pg e : Nat) : (setEvents s pg e).sclTime = s.sclTime := by obtain ⟨_, _, h⟩ := setEvents_frame s pg e; rw [h]; rfl
@[simp] theorem setEvents_dark (pg e : Nat) : (setEvents s pg e).dark = s.dark := by obtain ⟨_, _, h⟩ := setEvents_frame s pg e; rw [h]; rfl
@[simp] theorem setEvents_resp (pg e : Nat) : (setEvents s pg e).resp = s.resp := by obtain ⟨_, _, h⟩ := setEvents_frame s pg e; rw [h]; rfl
@[simp] theorem setEvents_latch (pg e : Nat) : (setEvents s pg e).latch = s.latch := by obtain ⟨_, _, h⟩ := setEvents_frame s pg e; rw [h]; rfl
@[simp] theorem setEvents_staging (pg e : Nat) : (setEvents s pg e).staging = s.staging := by obtain ⟨_, _, h⟩ := setEvents_frame s pg e; rw [h]; rfl
@[simp] theorem setEvents_cold (pg e : Nat) : (setEvents s pg e).cold = s.cold := by obtain ⟨_, _, h⟩ := setEvents_frame s pg e; rw [h]; rfl
@[simp] theorem setEvents_sqs (pg e : Nat) : (setEvents s pg e).sqs = s.sqs := by obtain ⟨_, _, h⟩ := setEvents_frame s pg e; rw [h]; rfl
@[simp] theorem setEvents_cqs (pg e : Nat) : (setEvents s pg e).cqs = s.cqs := by obtain ⟨_, _, h⟩ := setEvents_frame s pg e; rw [h]; rfl
@[simp] theorem setEvents_cmds (pg e : Nat) : (setEvents s pg e).cmds = s.cmds := by obtain ⟨_, _, h⟩ := setEvents_frame s pg e; rw [h]; rfl
@[simp] theorem setEvents_bell (pg e : Nat) : (setEvents s pg e).bell = s.bell := by obtain ⟨_, _, h⟩ := setEvents_frame s pg e; rw [h]; rfl
@[simp] theorem setEvents_turn (pg e : Nat) : (setEvents s pg e).turn = s.turn := by obtain ⟨_, _, h⟩ := setEvents_frame s pg e; rw [h]; rfl
@[simp] theorem setEvents_lastTurn (pg e : Nat) : (setEvents s pg e).lastTurn = s.lastTurn := by obtain ⟨_, _, h⟩ := setEvents_frame s pg e; rw [h]; rfl
@[simp] theorem setEvents_rolls (pg e : Nat) : (setEvents s pg e).rolls = s.rolls := by obtain ⟨_, _, h⟩ := setEvents_frame s pg e; rw [h]; rfl
@[simp] theorem setEvents_streams (pg e : Nat) : (setEvents s pg e).streams = s.streams := by obtain ⟨_, _, h⟩ := setEvents_frame s pg e; rw [h]; rfl
@[simp] theorem setEvents_links (pg e : Nat) : (setEvents s pg e).links = s.links := by obtain ⟨_, _, h⟩ := setEvents_frame s pg e; rw [h]; rfl
@[simp] theorem setEvents_tags (pg e : Nat) : (setEvents s pg e).tags = s.tags := by obtain ⟨_, _, h⟩ := setEvents_frame s pg e; rw [h]; rfl
@[simp] theorem setEvents_gens (pg e : Nat) : (setEvents s pg e).gens = s.gens := by obtain ⟨_, _, h⟩ := setEvents_frame s pg e; rw [h]; rfl
@[simp] theorem setEvents_fabs (pg e : Nat) : (setEvents s pg e).fabs = s.fabs := by obtain ⟨_, _, h⟩ := setEvents_frame s pg e; rw [h]; rfl
@[simp] theorem setEvents_cgroups (pg e : Nat) : (setEvents s pg e).cgroups = s.cgroups := by obtain ⟨_, _, h⟩ := setEvents_frame s pg e; rw [h]; rfl
@[simp] theorem setEvents_cruns (pg e : Nat) : (setEvents s pg e).cruns = s.cruns := by obtain ⟨_, _, h⟩ := setEvents_frame s pg e; rw [h]; rfl
@[simp] theorem setEvents_sess (pg e : Nat) : (setEvents s pg e).sess = s.sess := by obtain ⟨_, _, h⟩ := setEvents_frame s pg e; rw [h]; rfl
@[simp] theorem setEvents_aligns (pg e : Nat) : (setEvents s pg e).aligns = s.aligns := by obtain ⟨_, _, h⟩ := setEvents_frame s pg e; rw [h]; rfl
@[simp] theorem setEvents_tts (pg e : Nat) : (setEvents s pg e).tts = s.tts := by obtain ⟨_, _, h⟩ := setEvents_frame s pg e; rw [h]; rfl
@[simp] theorem setEvents_toccs (pg e : Nat) : (setEvents s pg e).toccs = s.toccs := by obtain ⟨_, _, h⟩ := setEvents_frame s pg e; rw [h]; rfl
@[simp] theorem setEvents_ttUid (pg e : Nat) : (setEvents s pg e).ttUid = s.ttUid := by obtain ⟨_, _, h⟩ := setEvents_frame s pg e; rw [h]; rfl
@[simp] theorem setEvents_dicts (pg e : Nat) : (setEvents s pg e).dicts = s.dicts := by obtain ⟨_, _, h⟩ := setEvents_frame s pg e; rw [h]; rfl
@[simp] theorem setEvents_scl (pg e : Nat) : (setEvents s pg e).scl = s.scl := by obtain ⟨_, _, h⟩ := setEvents_frame s pg e; rw [h]; rfl
@[simp] theorem setEvents_stop (pg e : Nat) : (setEvents s pg e).stop = s.stop := by obtain ⟨_, _, h⟩ := setEvents_frame s pg e; rw [h]; rfl
@[simp] theorem setEvents_errLog (pg e : Nat) : (setEvents s pg e).errLog = s.errLog := by obtain ⟨_, _, h⟩ := setEvents_frame s pg e; rw [h]; rfl
@[simp] theorem setEvents_traces (pg e : Nat) : (setEvents s pg e).traces = s.traces := by obtain ⟨_, _, h⟩ := setEvents_frame s pg e; rw [h]; rfl
@[simp] theorem setEvents_uresets (pg e : Nat) : (setEvents s pg e).uresets = s.uresets := by obtain ⟨_, _, h⟩ := setEvents_frame s pg e; rw [h]; rfl
@[simp] theorem setEvents_lastReset (pg e : Nat) : (setEvents s pg e).lastReset = s.lastReset := by obtain ⟨_, _, h⟩ := setEvents_frame s pg e; rw [h]; rfl
@[simp] theorem setEvents_prtCmd (pg e : Nat) : (setEvents s pg e).prtCmd = s.prtCmd := by obtain ⟨_, _, h⟩ := setEvents_frame s pg e; rw [h]; rfl
@[simp] theorem setEvents_mbxq (pg e : Nat) : (setEvents s pg e).mbxq = s.mbxq := by obtain ⟨_, _, h⟩ := setEvents_frame s pg e; rw [h]; rfl
@[simp] theorem setEvents_power (pg e : Nat) : (setEvents s pg e).power = s.power := by obtain ⟨_, _, h⟩ := setEvents_frame s pg e; rw [h]; rfl
@[simp] theorem setEvents_jnl (pg e : Nat) : (setEvents s pg e).jnl = s.jnl := by obtain ⟨_, _, h⟩ := setEvents_frame s pg e; rw [h]; rfl
@[simp] theorem setEvents_kImg (pg e : Nat) : (setEvents s pg e).kImg = s.kImg := by obtain ⟨_, _, h⟩ := setEvents_frame s pg e; rw [h]; rfl
@[simp] theorem setEvents_uImg (pg e : Nat) : (setEvents s pg e).uImg = s.uImg := by obtain ⟨_, _, h⟩ := setEvents_frame s pg e; rw [h]; rfl
@[simp] theorem setEvents_heldRec (pg e : Nat) : (setEvents s pg e).heldRec = s.heldRec := by obtain ⟨_, _, h⟩ := setEvents_frame s pg e; rw [h]; rfl
@[simp] theorem setEvents_fuses (pg e : Nat) : (setEvents s pg e).fuses = s.fuses := by obtain ⟨_, _, h⟩ := setEvents_frame s pg e; rw [h]; rfl
@[simp] theorem setEvents_trained (pg e : Nat) : (setEvents s pg e).trained = s.trained := by obtain ⟨_, _, h⟩ := setEvents_frame s pg e; rw [h]; rfl
@[simp] theorem setEvents_sblk (pg e : Nat) : (setEvents s pg e).sblk = s.sblk := by obtain ⟨_, _, h⟩ := setEvents_frame s pg e; rw [h]; rfl
@[simp] theorem setEvents_i3c (pg e : Nat) : (setEvents s pg e).i3c = s.i3c := by obtain ⟨_, _, h⟩ := setEvents_frame s pg e; rw [h]; rfl
@[simp] theorem setEvents_jtag (pg e : Nat) : (setEvents s pg e).jtag = s.jtag := by obtain ⟨_, _, h⟩ := setEvents_frame s pg e; rw [h]; rfl
@[simp] theorem setEvents_perst (pg e : Nat) : (setEvents s pg e).perst = s.perst := by obtain ⟨_, _, h⟩ := setEvents_frame s pg e; rw [h]; rfl
@[simp] theorem setEvents_pcieUp (pg e : Nat) : (setEvents s pg e).pcieUp = s.pcieUp := by obtain ⟨_, _, h⟩ := setEvents_frame s pg e; rw [h]; rfl

/-! ### logErr -/

@[simp] theorem logErr_pending (pg e k : Nat) : (logErr s pg e k).pending = s.pending := by obtain ⟨_, _, _, _, h⟩ := logErr_frame s pg e k; rw [h]
@[simp] theorem logErr_now (pg e k : Nat) : (logErr s pg e k).now = s.now := by obtain ⟨_, _, _, _, h⟩ := logErr_frame s pg e k; rw [h]
@[simp] theorem logErr_free (pg e k : Nat) : (logErr s pg e k).free = s.free := by obtain ⟨_, _, _, _, h⟩ := logErr_frame s pg e k; rw [h]
@[simp] theorem logErr_mems (pg e k : Nat) : (logErr s pg e k).mems = s.mems := by obtain ⟨_, _, _, _, h⟩ := logErr_frame s pg e k; rw [h]
@[simp] theorem logErr_disarmed (pg e k : Nat) : (logErr s pg e k).disarmed = s.disarmed := by obtain ⟨_, _, _, _, h⟩ := logErr_frame s pg e k; rw [h]
@[simp] theorem logErr_cells (pg e k : Nat) : (logErr s pg e k).cells = s.cells := by obtain ⟨_, _, _, _, h⟩ := logErr_frame s pg e k; rw [h]
@[simp] theorem logErr_mcast (pg e k : Nat) : (logErr s pg e k).mcast = s.mcast := by obtain ⟨_, _, _, _, h⟩ := logErr_frame s pg e k; rw [h]
@[simp] theorem logErr_barriers (pg e k : Nat) : (logErr s pg e k).barriers = s.barriers := by obtain ⟨_, _, _, _, h⟩ := logErr_frame s pg e k; rw [h]
@[simp] theorem logErr_splits (pg e k : Nat) : (logErr s pg e k).splits = s.splits := by obtain ⟨_, _, _, _, h⟩ := logErr_frame s pg e k; rw [h]
@[simp] theorem logErr_parts (pg e k : Nat) : (logErr s pg e k).parts = s.parts := by obtain ⟨_, _, _, _, h⟩ := logErr_frame s pg e k; rw [h]
@[simp] theorem logErr_cache (pg e k : Nat) : (logErr s pg e k).cache = s.cache := by obtain ⟨_, _, _, _, h⟩ := logErr_frame s pg e k; rw [h]
@[simp] theorem logErr_fills (pg e k : Nat) : (logErr s pg e k).fills = s.fills := by obtain ⟨_, _, _, _, h⟩ := logErr_frame s pg e k; rw [h]
@[simp] theorem logErr_hbmq (pg e k : Nat) : (logErr s pg e k).hbmq = s.hbmq := by obtain ⟨_, _, _, _, h⟩ := logErr_frame s pg e k; rw [h]
@[simp] theorem logErr_wins (pg e k : Nat) : (logErr s pg e k).wins = s.wins := by obtain ⟨_, _, _, _, h⟩ := logErr_frame s pg e k; rw [h]
@[simp] theorem logErr_credit (pg e k : Nat) : (logErr s pg e k).credit = s.credit := by obtain ⟨_, _, _, _, h⟩ := logErr_frame s pg e k; rw [h]
@[simp] theorem logErr_bargeSeq (pg e k : Nat) : (logErr s pg e k).bargeSeq = s.bargeSeq := by obtain ⟨_, _, _, _, h⟩ := logErr_frame s pg e k; rw [h]
@[simp] theorem logErr_bargeWait (pg e k : Nat) : (logErr s pg e k).bargeWait = s.bargeWait := by obtain ⟨_, _, _, _, h⟩ := logErr_frame s pg e k; rw [h]
@[simp] theorem logErr_barges (pg e k : Nat) : (logErr s pg e k).barges = s.barges := by obtain ⟨_, _, _, _, h⟩ := logErr_frame s pg e k; rw [h]
@[simp] theorem logErr_engineLast (pg e k : Nat) : (logErr s pg e k).engineLast = s.engineLast := by obtain ⟨_, _, _, _, h⟩ := logErr_frame s pg e k; rw [h]
@[simp] theorem logErr_locks (pg e k : Nat) : (logErr s pg e k).locks = s.locks := by obtain ⟨_, _, _, _, h⟩ := logErr_frame s pg e k; rw [h]
@[simp] theorem logErr_bargeNotices (pg e k : Nat) : (logErr s pg e k).bargeNotices = s.bargeNotices := by obtain ⟨_, _, _, _, h⟩ := logErr_frame s pg e k; rw [h]
@[simp] theorem logErr_gsuLast (pg e k : Nat) : (logErr s pg e k).gsuLast = s.gsuLast := by obtain ⟨_, _, _, _, h⟩ := logErr_frame s pg e k; rw [h]
@[simp] theorem logErr_stepping (pg e k : Nat) : (logErr s pg e k).stepping = s.stepping := by obtain ⟨_, _, _, _, h⟩ := logErr_frame s pg e k; rw [h]
@[simp] theorem logErr_throttle (pg e k : Nat) : (logErr s pg e k).throttle = s.throttle := by obtain ⟨_, _, _, _, h⟩ := logErr_frame s pg e k; rw [h]
@[simp] theorem logErr_notices (pg e k : Nat) : (logErr s pg e k).notices = s.notices := by obtain ⟨_, _, _, _, h⟩ := logErr_frame s pg e k; rw [h]
@[simp] theorem logErr_faults (pg e k : Nat) : (logErr s pg e k).faults = s.faults := by obtain ⟨_, _, _, _, h⟩ := logErr_frame s pg e k; rw [h]
@[simp] theorem logErr_sclTime (pg e k : Nat) : (logErr s pg e k).sclTime = s.sclTime := by obtain ⟨_, _, _, _, h⟩ := logErr_frame s pg e k; rw [h]
@[simp] theorem logErr_dark (pg e k : Nat) : (logErr s pg e k).dark = s.dark := by obtain ⟨_, _, _, _, h⟩ := logErr_frame s pg e k; rw [h]
@[simp] theorem logErr_resp (pg e k : Nat) : (logErr s pg e k).resp = s.resp := by obtain ⟨_, _, _, _, h⟩ := logErr_frame s pg e k; rw [h]
@[simp] theorem logErr_latch (pg e k : Nat) : (logErr s pg e k).latch = s.latch := by obtain ⟨_, _, _, _, h⟩ := logErr_frame s pg e k; rw [h]
@[simp] theorem logErr_staging (pg e k : Nat) : (logErr s pg e k).staging = s.staging := by obtain ⟨_, _, _, _, h⟩ := logErr_frame s pg e k; rw [h]
@[simp] theorem logErr_cold (pg e k : Nat) : (logErr s pg e k).cold = s.cold := by obtain ⟨_, _, _, _, h⟩ := logErr_frame s pg e k; rw [h]
@[simp] theorem logErr_sqs (pg e k : Nat) : (logErr s pg e k).sqs = s.sqs := by obtain ⟨_, _, _, _, h⟩ := logErr_frame s pg e k; rw [h]
@[simp] theorem logErr_cqs (pg e k : Nat) : (logErr s pg e k).cqs = s.cqs := by obtain ⟨_, _, _, _, h⟩ := logErr_frame s pg e k; rw [h]
@[simp] theorem logErr_cmds (pg e k : Nat) : (logErr s pg e k).cmds = s.cmds := by obtain ⟨_, _, _, _, h⟩ := logErr_frame s pg e k; rw [h]
@[simp] theorem logErr_bell (pg e k : Nat) : (logErr s pg e k).bell = s.bell := by obtain ⟨_, _, _, _, h⟩ := logErr_frame s pg e k; rw [h]
@[simp] theorem logErr_turn (pg e k : Nat) : (logErr s pg e k).turn = s.turn := by obtain ⟨_, _, _, _, h⟩ := logErr_frame s pg e k; rw [h]
@[simp] theorem logErr_lastTurn (pg e k : Nat) : (logErr s pg e k).lastTurn = s.lastTurn := by obtain ⟨_, _, _, _, h⟩ := logErr_frame s pg e k; rw [h]
@[simp] theorem logErr_rolls (pg e k : Nat) : (logErr s pg e k).rolls = s.rolls := by obtain ⟨_, _, _, _, h⟩ := logErr_frame s pg e k; rw [h]
@[simp] theorem logErr_streams (pg e k : Nat) : (logErr s pg e k).streams = s.streams := by obtain ⟨_, _, _, _, h⟩ := logErr_frame s pg e k; rw [h]
@[simp] theorem logErr_links (pg e k : Nat) : (logErr s pg e k).links = s.links := by obtain ⟨_, _, _, _, h⟩ := logErr_frame s pg e k; rw [h]
@[simp] theorem logErr_tags (pg e k : Nat) : (logErr s pg e k).tags = s.tags := by obtain ⟨_, _, _, _, h⟩ := logErr_frame s pg e k; rw [h]
@[simp] theorem logErr_gens (pg e k : Nat) : (logErr s pg e k).gens = s.gens := by obtain ⟨_, _, _, _, h⟩ := logErr_frame s pg e k; rw [h]
@[simp] theorem logErr_fabs (pg e k : Nat) : (logErr s pg e k).fabs = s.fabs := by obtain ⟨_, _, _, _, h⟩ := logErr_frame s pg e k; rw [h]
@[simp] theorem logErr_cgroups (pg e k : Nat) : (logErr s pg e k).cgroups = s.cgroups := by obtain ⟨_, _, _, _, h⟩ := logErr_frame s pg e k; rw [h]
@[simp] theorem logErr_cruns (pg e k : Nat) : (logErr s pg e k).cruns = s.cruns := by obtain ⟨_, _, _, _, h⟩ := logErr_frame s pg e k; rw [h]
@[simp] theorem logErr_sess (pg e k : Nat) : (logErr s pg e k).sess = s.sess := by obtain ⟨_, _, _, _, h⟩ := logErr_frame s pg e k; rw [h]
@[simp] theorem logErr_aligns (pg e k : Nat) : (logErr s pg e k).aligns = s.aligns := by obtain ⟨_, _, _, _, h⟩ := logErr_frame s pg e k; rw [h]
@[simp] theorem logErr_tts (pg e k : Nat) : (logErr s pg e k).tts = s.tts := by obtain ⟨_, _, _, _, h⟩ := logErr_frame s pg e k; rw [h]
@[simp] theorem logErr_toccs (pg e k : Nat) : (logErr s pg e k).toccs = s.toccs := by obtain ⟨_, _, _, _, h⟩ := logErr_frame s pg e k; rw [h]
@[simp] theorem logErr_ttUid (pg e k : Nat) : (logErr s pg e k).ttUid = s.ttUid := by obtain ⟨_, _, _, _, h⟩ := logErr_frame s pg e k; rw [h]
@[simp] theorem logErr_dicts (pg e k : Nat) : (logErr s pg e k).dicts = s.dicts := by obtain ⟨_, _, _, _, h⟩ := logErr_frame s pg e k; rw [h]
@[simp] theorem logErr_scl (pg e k : Nat) : (logErr s pg e k).scl = s.scl := by obtain ⟨_, _, _, _, h⟩ := logErr_frame s pg e k; rw [h]
@[simp] theorem logErr_stop (pg e k : Nat) : (logErr s pg e k).stop = s.stop := by obtain ⟨_, _, _, _, h⟩ := logErr_frame s pg e k; rw [h]
@[simp] theorem logErr_traces (pg e k : Nat) : (logErr s pg e k).traces = s.traces := by obtain ⟨_, _, _, _, h⟩ := logErr_frame s pg e k; rw [h]
@[simp] theorem logErr_uresets (pg e k : Nat) : (logErr s pg e k).uresets = s.uresets := by obtain ⟨_, _, _, _, h⟩ := logErr_frame s pg e k; rw [h]
@[simp] theorem logErr_lastReset (pg e k : Nat) : (logErr s pg e k).lastReset = s.lastReset := by obtain ⟨_, _, _, _, h⟩ := logErr_frame s pg e k; rw [h]
@[simp] theorem logErr_prtCmd (pg e k : Nat) : (logErr s pg e k).prtCmd = s.prtCmd := by obtain ⟨_, _, _, _, h⟩ := logErr_frame s pg e k; rw [h]
@[simp] theorem logErr_mbxq (pg e k : Nat) : (logErr s pg e k).mbxq = s.mbxq := by obtain ⟨_, _, _, _, h⟩ := logErr_frame s pg e k; rw [h]
@[simp] theorem logErr_power (pg e k : Nat) : (logErr s pg e k).power = s.power := by obtain ⟨_, _, _, _, h⟩ := logErr_frame s pg e k; rw [h]
@[simp] theorem logErr_jnl (pg e k : Nat) : (logErr s pg e k).jnl = s.jnl := by obtain ⟨_, _, _, _, h⟩ := logErr_frame s pg e k; rw [h]
@[simp] theorem logErr_kImg (pg e k : Nat) : (logErr s pg e k).kImg = s.kImg := by obtain ⟨_, _, _, _, h⟩ := logErr_frame s pg e k; rw [h]
@[simp] theorem logErr_uImg (pg e k : Nat) : (logErr s pg e k).uImg = s.uImg := by obtain ⟨_, _, _, _, h⟩ := logErr_frame s pg e k; rw [h]
@[simp] theorem logErr_heldRec (pg e k : Nat) : (logErr s pg e k).heldRec = s.heldRec := by obtain ⟨_, _, _, _, h⟩ := logErr_frame s pg e k; rw [h]
@[simp] theorem logErr_fuses (pg e k : Nat) : (logErr s pg e k).fuses = s.fuses := by obtain ⟨_, _, _, _, h⟩ := logErr_frame s pg e k; rw [h]
@[simp] theorem logErr_trained (pg e k : Nat) : (logErr s pg e k).trained = s.trained := by obtain ⟨_, _, _, _, h⟩ := logErr_frame s pg e k; rw [h]
@[simp] theorem logErr_sblk (pg e k : Nat) : (logErr s pg e k).sblk = s.sblk := by obtain ⟨_, _, _, _, h⟩ := logErr_frame s pg e k; rw [h]
@[simp] theorem logErr_i3c (pg e k : Nat) : (logErr s pg e k).i3c = s.i3c := by obtain ⟨_, _, _, _, h⟩ := logErr_frame s pg e k; rw [h]
@[simp] theorem logErr_jtag (pg e k : Nat) : (logErr s pg e k).jtag = s.jtag := by obtain ⟨_, _, _, _, h⟩ := logErr_frame s pg e k; rw [h]
@[simp] theorem logErr_perst (pg e k : Nat) : (logErr s pg e k).perst = s.perst := by obtain ⟨_, _, _, _, h⟩ := logErr_frame s pg e k; rw [h]
@[simp] theorem logErr_pcieUp (pg e k : Nat) : (logErr s pg e k).pcieUp = s.pcieUp := by obtain ⟨_, _, _, _, h⟩ := logErr_frame s pg e k; rw [h]

/-! ### raise -/

@[simp] theorem raise_pending (pg e : Nat) : (raise s pg e).pending = s.pending := by obtain ⟨_, _, _, _, h⟩ := raise_frame s pg e; rw [h]
@[simp] theorem raise_now (pg e : Nat) : (raise s pg e).now = s.now := by obtain ⟨_, _, _, _, h⟩ := raise_frame s pg e; rw [h]
@[simp] theorem raise_free (pg e : Nat) : (raise s pg e).free = s.free := by obtain ⟨_, _, _, _, h⟩ := raise_frame s pg e; rw [h]
@[simp] theorem raise_mems (pg e : Nat) : (raise s pg e).mems = s.mems := by obtain ⟨_, _, _, _, h⟩ := raise_frame s pg e; rw [h]
@[simp] theorem raise_disarmed (pg e : Nat) : (raise s pg e).disarmed = s.disarmed := by obtain ⟨_, _, _, _, h⟩ := raise_frame s pg e; rw [h]
@[simp] theorem raise_cells (pg e : Nat) : (raise s pg e).cells = s.cells := by obtain ⟨_, _, _, _, h⟩ := raise_frame s pg e; rw [h]
@[simp] theorem raise_mcast (pg e : Nat) : (raise s pg e).mcast = s.mcast := by obtain ⟨_, _, _, _, h⟩ := raise_frame s pg e; rw [h]
@[simp] theorem raise_barriers (pg e : Nat) : (raise s pg e).barriers = s.barriers := by obtain ⟨_, _, _, _, h⟩ := raise_frame s pg e; rw [h]
@[simp] theorem raise_splits (pg e : Nat) : (raise s pg e).splits = s.splits := by obtain ⟨_, _, _, _, h⟩ := raise_frame s pg e; rw [h]
@[simp] theorem raise_parts (pg e : Nat) : (raise s pg e).parts = s.parts := by obtain ⟨_, _, _, _, h⟩ := raise_frame s pg e; rw [h]
@[simp] theorem raise_cache (pg e : Nat) : (raise s pg e).cache = s.cache := by obtain ⟨_, _, _, _, h⟩ := raise_frame s pg e; rw [h]
@[simp] theorem raise_fills (pg e : Nat) : (raise s pg e).fills = s.fills := by obtain ⟨_, _, _, _, h⟩ := raise_frame s pg e; rw [h]
@[simp] theorem raise_hbmq (pg e : Nat) : (raise s pg e).hbmq = s.hbmq := by obtain ⟨_, _, _, _, h⟩ := raise_frame s pg e; rw [h]
@[simp] theorem raise_wins (pg e : Nat) : (raise s pg e).wins = s.wins := by obtain ⟨_, _, _, _, h⟩ := raise_frame s pg e; rw [h]
@[simp] theorem raise_credit (pg e : Nat) : (raise s pg e).credit = s.credit := by obtain ⟨_, _, _, _, h⟩ := raise_frame s pg e; rw [h]
@[simp] theorem raise_bargeSeq (pg e : Nat) : (raise s pg e).bargeSeq = s.bargeSeq := by obtain ⟨_, _, _, _, h⟩ := raise_frame s pg e; rw [h]
@[simp] theorem raise_bargeWait (pg e : Nat) : (raise s pg e).bargeWait = s.bargeWait := by obtain ⟨_, _, _, _, h⟩ := raise_frame s pg e; rw [h]
@[simp] theorem raise_barges (pg e : Nat) : (raise s pg e).barges = s.barges := by obtain ⟨_, _, _, _, h⟩ := raise_frame s pg e; rw [h]
@[simp] theorem raise_engineLast (pg e : Nat) : (raise s pg e).engineLast = s.engineLast := by obtain ⟨_, _, _, _, h⟩ := raise_frame s pg e; rw [h]
@[simp] theorem raise_locks (pg e : Nat) : (raise s pg e).locks = s.locks := by obtain ⟨_, _, _, _, h⟩ := raise_frame s pg e; rw [h]
@[simp] theorem raise_bargeNotices (pg e : Nat) : (raise s pg e).bargeNotices = s.bargeNotices := by obtain ⟨_, _, _, _, h⟩ := raise_frame s pg e; rw [h]
@[simp] theorem raise_gsuLast (pg e : Nat) : (raise s pg e).gsuLast = s.gsuLast := by obtain ⟨_, _, _, _, h⟩ := raise_frame s pg e; rw [h]
@[simp] theorem raise_stepping (pg e : Nat) : (raise s pg e).stepping = s.stepping := by obtain ⟨_, _, _, _, h⟩ := raise_frame s pg e; rw [h]
@[simp] theorem raise_throttle (pg e : Nat) : (raise s pg e).throttle = s.throttle := by obtain ⟨_, _, _, _, h⟩ := raise_frame s pg e; rw [h]
@[simp] theorem raise_notices (pg e : Nat) : (raise s pg e).notices = s.notices := by obtain ⟨_, _, _, _, h⟩ := raise_frame s pg e; rw [h]
@[simp] theorem raise_faults (pg e : Nat) : (raise s pg e).faults = s.faults := by obtain ⟨_, _, _, _, h⟩ := raise_frame s pg e; rw [h]
@[simp] theorem raise_sclTime (pg e : Nat) : (raise s pg e).sclTime = s.sclTime := by obtain ⟨_, _, _, _, h⟩ := raise_frame s pg e; rw [h]
@[simp] theorem raise_dark (pg e : Nat) : (raise s pg e).dark = s.dark := by obtain ⟨_, _, _, _, h⟩ := raise_frame s pg e; rw [h]
@[simp] theorem raise_resp (pg e : Nat) : (raise s pg e).resp = s.resp := by obtain ⟨_, _, _, _, h⟩ := raise_frame s pg e; rw [h]
@[simp] theorem raise_latch (pg e : Nat) : (raise s pg e).latch = s.latch := by obtain ⟨_, _, _, _, h⟩ := raise_frame s pg e; rw [h]
@[simp] theorem raise_staging (pg e : Nat) : (raise s pg e).staging = s.staging := by obtain ⟨_, _, _, _, h⟩ := raise_frame s pg e; rw [h]
@[simp] theorem raise_cold (pg e : Nat) : (raise s pg e).cold = s.cold := by obtain ⟨_, _, _, _, h⟩ := raise_frame s pg e; rw [h]
@[simp] theorem raise_sqs (pg e : Nat) : (raise s pg e).sqs = s.sqs := by obtain ⟨_, _, _, _, h⟩ := raise_frame s pg e; rw [h]
@[simp] theorem raise_cqs (pg e : Nat) : (raise s pg e).cqs = s.cqs := by obtain ⟨_, _, _, _, h⟩ := raise_frame s pg e; rw [h]
@[simp] theorem raise_cmds (pg e : Nat) : (raise s pg e).cmds = s.cmds := by obtain ⟨_, _, _, _, h⟩ := raise_frame s pg e; rw [h]
@[simp] theorem raise_bell (pg e : Nat) : (raise s pg e).bell = s.bell := by obtain ⟨_, _, _, _, h⟩ := raise_frame s pg e; rw [h]
@[simp] theorem raise_turn (pg e : Nat) : (raise s pg e).turn = s.turn := by obtain ⟨_, _, _, _, h⟩ := raise_frame s pg e; rw [h]
@[simp] theorem raise_lastTurn (pg e : Nat) : (raise s pg e).lastTurn = s.lastTurn := by obtain ⟨_, _, _, _, h⟩ := raise_frame s pg e; rw [h]
@[simp] theorem raise_rolls (pg e : Nat) : (raise s pg e).rolls = s.rolls := by obtain ⟨_, _, _, _, h⟩ := raise_frame s pg e; rw [h]
@[simp] theorem raise_streams (pg e : Nat) : (raise s pg e).streams = s.streams := by obtain ⟨_, _, _, _, h⟩ := raise_frame s pg e; rw [h]
@[simp] theorem raise_links (pg e : Nat) : (raise s pg e).links = s.links := by obtain ⟨_, _, _, _, h⟩ := raise_frame s pg e; rw [h]
@[simp] theorem raise_tags (pg e : Nat) : (raise s pg e).tags = s.tags := by obtain ⟨_, _, _, _, h⟩ := raise_frame s pg e; rw [h]
@[simp] theorem raise_gens (pg e : Nat) : (raise s pg e).gens = s.gens := by obtain ⟨_, _, _, _, h⟩ := raise_frame s pg e; rw [h]
@[simp] theorem raise_fabs (pg e : Nat) : (raise s pg e).fabs = s.fabs := by obtain ⟨_, _, _, _, h⟩ := raise_frame s pg e; rw [h]
@[simp] theorem raise_cgroups (pg e : Nat) : (raise s pg e).cgroups = s.cgroups := by obtain ⟨_, _, _, _, h⟩ := raise_frame s pg e; rw [h]
@[simp] theorem raise_cruns (pg e : Nat) : (raise s pg e).cruns = s.cruns := by obtain ⟨_, _, _, _, h⟩ := raise_frame s pg e; rw [h]
@[simp] theorem raise_sess (pg e : Nat) : (raise s pg e).sess = s.sess := by obtain ⟨_, _, _, _, h⟩ := raise_frame s pg e; rw [h]
@[simp] theorem raise_aligns (pg e : Nat) : (raise s pg e).aligns = s.aligns := by obtain ⟨_, _, _, _, h⟩ := raise_frame s pg e; rw [h]
@[simp] theorem raise_tts (pg e : Nat) : (raise s pg e).tts = s.tts := by obtain ⟨_, _, _, _, h⟩ := raise_frame s pg e; rw [h]
@[simp] theorem raise_toccs (pg e : Nat) : (raise s pg e).toccs = s.toccs := by obtain ⟨_, _, _, _, h⟩ := raise_frame s pg e; rw [h]
@[simp] theorem raise_ttUid (pg e : Nat) : (raise s pg e).ttUid = s.ttUid := by obtain ⟨_, _, _, _, h⟩ := raise_frame s pg e; rw [h]
@[simp] theorem raise_dicts (pg e : Nat) : (raise s pg e).dicts = s.dicts := by obtain ⟨_, _, _, _, h⟩ := raise_frame s pg e; rw [h]
@[simp] theorem raise_scl (pg e : Nat) : (raise s pg e).scl = s.scl := by obtain ⟨_, _, _, _, h⟩ := raise_frame s pg e; rw [h]
@[simp] theorem raise_stop (pg e : Nat) : (raise s pg e).stop = s.stop := by obtain ⟨_, _, _, _, h⟩ := raise_frame s pg e; rw [h]
@[simp] theorem raise_traces (pg e : Nat) : (raise s pg e).traces = s.traces := by obtain ⟨_, _, _, _, h⟩ := raise_frame s pg e; rw [h]
@[simp] theorem raise_uresets (pg e : Nat) : (raise s pg e).uresets = s.uresets := by obtain ⟨_, _, _, _, h⟩ := raise_frame s pg e; rw [h]
@[simp] theorem raise_lastReset (pg e : Nat) : (raise s pg e).lastReset = s.lastReset := by obtain ⟨_, _, _, _, h⟩ := raise_frame s pg e; rw [h]
@[simp] theorem raise_prtCmd (pg e : Nat) : (raise s pg e).prtCmd = s.prtCmd := by obtain ⟨_, _, _, _, h⟩ := raise_frame s pg e; rw [h]
@[simp] theorem raise_mbxq (pg e : Nat) : (raise s pg e).mbxq = s.mbxq := by obtain ⟨_, _, _, _, h⟩ := raise_frame s pg e; rw [h]
@[simp] theorem raise_power (pg e : Nat) : (raise s pg e).power = s.power := by obtain ⟨_, _, _, _, h⟩ := raise_frame s pg e; rw [h]
@[simp] theorem raise_jnl (pg e : Nat) : (raise s pg e).jnl = s.jnl := by obtain ⟨_, _, _, _, h⟩ := raise_frame s pg e; rw [h]
@[simp] theorem raise_kImg (pg e : Nat) : (raise s pg e).kImg = s.kImg := by obtain ⟨_, _, _, _, h⟩ := raise_frame s pg e; rw [h]
@[simp] theorem raise_uImg (pg e : Nat) : (raise s pg e).uImg = s.uImg := by obtain ⟨_, _, _, _, h⟩ := raise_frame s pg e; rw [h]
@[simp] theorem raise_heldRec (pg e : Nat) : (raise s pg e).heldRec = s.heldRec := by obtain ⟨_, _, _, _, h⟩ := raise_frame s pg e; rw [h]
@[simp] theorem raise_fuses (pg e : Nat) : (raise s pg e).fuses = s.fuses := by obtain ⟨_, _, _, _, h⟩ := raise_frame s pg e; rw [h]
@[simp] theorem raise_trained (pg e : Nat) : (raise s pg e).trained = s.trained := by obtain ⟨_, _, _, _, h⟩ := raise_frame s pg e; rw [h]
@[simp] theorem raise_sblk (pg e : Nat) : (raise s pg e).sblk = s.sblk := by obtain ⟨_, _, _, _, h⟩ := raise_frame s pg e; rw [h]
@[simp] theorem raise_i3c (pg e : Nat) : (raise s pg e).i3c = s.i3c := by obtain ⟨_, _, _, _, h⟩ := raise_frame s pg e; rw [h]
@[simp] theorem raise_jtag (pg e : Nat) : (raise s pg e).jtag = s.jtag := by obtain ⟨_, _, _, _, h⟩ := raise_frame s pg e; rw [h]
@[simp] theorem raise_perst (pg e : Nat) : (raise s pg e).perst = s.perst := by obtain ⟨_, _, _, _, h⟩ := raise_frame s pg e; rw [h]
@[simp] theorem raise_pcieUp (pg e : Nat) : (raise s pg e).pcieUp = s.pcieUp := by obtain ⟨_, _, _, _, h⟩ := raise_frame s pg e; rw [h]

/-! ### capture -/

@[simp] theorem capture_pending (pg a b c d : Nat) : (capture s pg a b c d).pending = s.pending := by obtain ⟨_, _, h⟩ := capture_frame s pg a b c d; rw [h]
@[simp] theorem capture_now (pg a b c d : Nat) : (capture s pg a b c d).now = s.now := by obtain ⟨_, _, h⟩ := capture_frame s pg a b c d; rw [h]
@[simp] theorem capture_free (pg a b c d : Nat) : (capture s pg a b c d).free = s.free := by obtain ⟨_, _, h⟩ := capture_frame s pg a b c d; rw [h]
@[simp] theorem capture_mems (pg a b c d : Nat) : (capture s pg a b c d).mems = s.mems := by obtain ⟨_, _, h⟩ := capture_frame s pg a b c d; rw [h]
@[simp] theorem capture_msix (pg a b c d : Nat) : (capture s pg a b c d).msix = s.msix := by obtain ⟨_, _, h⟩ := capture_frame s pg a b c d; rw [h]
@[simp] theorem capture_cells (pg a b c d : Nat) : (capture s pg a b c d).cells = s.cells := by obtain ⟨_, _, h⟩ := capture_frame s pg a b c d; rw [h]
@[simp] theorem capture_mcast (pg a b c d : Nat) : (capture s pg a b c d).mcast = s.mcast := by obtain ⟨_, _, h⟩ := capture_frame s pg a b c d; rw [h]
@[simp] theorem capture_barriers (pg a b c d : Nat) : (capture s pg a b c d).barriers = s.barriers := by obtain ⟨_, _, h⟩ := capture_frame s pg a b c d; rw [h]
@[simp] theorem capture_splits (pg a b c d : Nat) : (capture s pg a b c d).splits = s.splits := by obtain ⟨_, _, h⟩ := capture_frame s pg a b c d; rw [h]
@[simp] theorem capture_parts (pg a b c d : Nat) : (capture s pg a b c d).parts = s.parts := by obtain ⟨_, _, h⟩ := capture_frame s pg a b c d; rw [h]
@[simp] theorem capture_cache (pg a b c d : Nat) : (capture s pg a b c d).cache = s.cache := by obtain ⟨_, _, h⟩ := capture_frame s pg a b c d; rw [h]
@[simp] theorem capture_fills (pg a b c d : Nat) : (capture s pg a b c d).fills = s.fills := by obtain ⟨_, _, h⟩ := capture_frame s pg a b c d; rw [h]
@[simp] theorem capture_hbmq (pg a b c d : Nat) : (capture s pg a b c d).hbmq = s.hbmq := by obtain ⟨_, _, h⟩ := capture_frame s pg a b c d; rw [h]
@[simp] theorem capture_wins (pg a b c d : Nat) : (capture s pg a b c d).wins = s.wins := by obtain ⟨_, _, h⟩ := capture_frame s pg a b c d; rw [h]
@[simp] theorem capture_credit (pg a b c d : Nat) : (capture s pg a b c d).credit = s.credit := by obtain ⟨_, _, h⟩ := capture_frame s pg a b c d; rw [h]
@[simp] theorem capture_bargeSeq (pg a b c d : Nat) : (capture s pg a b c d).bargeSeq = s.bargeSeq := by obtain ⟨_, _, h⟩ := capture_frame s pg a b c d; rw [h]
@[simp] theorem capture_bargeWait (pg a b c d : Nat) : (capture s pg a b c d).bargeWait = s.bargeWait := by obtain ⟨_, _, h⟩ := capture_frame s pg a b c d; rw [h]
@[simp] theorem capture_barges (pg a b c d : Nat) : (capture s pg a b c d).barges = s.barges := by obtain ⟨_, _, h⟩ := capture_frame s pg a b c d; rw [h]
@[simp] theorem capture_engineLast (pg a b c d : Nat) : (capture s pg a b c d).engineLast = s.engineLast := by obtain ⟨_, _, h⟩ := capture_frame s pg a b c d; rw [h]
@[simp] theorem capture_locks (pg a b c d : Nat) : (capture s pg a b c d).locks = s.locks := by obtain ⟨_, _, h⟩ := capture_frame s pg a b c d; rw [h]
@[simp] theorem capture_bargeNotices (pg a b c d : Nat) : (capture s pg a b c d).bargeNotices = s.bargeNotices := by obtain ⟨_, _, h⟩ := capture_frame s pg a b c d; rw [h]
@[simp] theorem capture_gsuLast (pg a b c d : Nat) : (capture s pg a b c d).gsuLast = s.gsuLast := by obtain ⟨_, _, h⟩ := capture_frame s pg a b c d; rw [h]
@[simp] theorem capture_stepping (pg a b c d : Nat) : (capture s pg a b c d).stepping = s.stepping := by obtain ⟨_, _, h⟩ := capture_frame s pg a b c d; rw [h]
@[simp] theorem capture_throttle (pg a b c d : Nat) : (capture s pg a b c d).throttle = s.throttle := by obtain ⟨_, _, h⟩ := capture_frame s pg a b c d; rw [h]
@[simp] theorem capture_notices (pg a b c d : Nat) : (capture s pg a b c d).notices = s.notices := by obtain ⟨_, _, h⟩ := capture_frame s pg a b c d; rw [h]
@[simp] theorem capture_faults (pg a b c d : Nat) : (capture s pg a b c d).faults = s.faults := by obtain ⟨_, _, h⟩ := capture_frame s pg a b c d; rw [h]
@[simp] theorem capture_sclTime (pg a b c d : Nat) : (capture s pg a b c d).sclTime = s.sclTime := by obtain ⟨_, _, h⟩ := capture_frame s pg a b c d; rw [h]
@[simp] theorem capture_dark (pg a b c d : Nat) : (capture s pg a b c d).dark = s.dark := by obtain ⟨_, _, h⟩ := capture_frame s pg a b c d; rw [h]
@[simp] theorem capture_resp (pg a b c d : Nat) : (capture s pg a b c d).resp = s.resp := by obtain ⟨_, _, h⟩ := capture_frame s pg a b c d; rw [h]
@[simp] theorem capture_latch (pg a b c d : Nat) : (capture s pg a b c d).latch = s.latch := by obtain ⟨_, _, h⟩ := capture_frame s pg a b c d; rw [h]
@[simp] theorem capture_staging (pg a b c d : Nat) : (capture s pg a b c d).staging = s.staging := by obtain ⟨_, _, h⟩ := capture_frame s pg a b c d; rw [h]
@[simp] theorem capture_cold (pg a b c d : Nat) : (capture s pg a b c d).cold = s.cold := by obtain ⟨_, _, h⟩ := capture_frame s pg a b c d; rw [h]
@[simp] theorem capture_sqs (pg a b c d : Nat) : (capture s pg a b c d).sqs = s.sqs := by obtain ⟨_, _, h⟩ := capture_frame s pg a b c d; rw [h]
@[simp] theorem capture_cqs (pg a b c d : Nat) : (capture s pg a b c d).cqs = s.cqs := by obtain ⟨_, _, h⟩ := capture_frame s pg a b c d; rw [h]
@[simp] theorem capture_cmds (pg a b c d : Nat) : (capture s pg a b c d).cmds = s.cmds := by obtain ⟨_, _, h⟩ := capture_frame s pg a b c d; rw [h]
@[simp] theorem capture_bell (pg a b c d : Nat) : (capture s pg a b c d).bell = s.bell := by obtain ⟨_, _, h⟩ := capture_frame s pg a b c d; rw [h]
@[simp] theorem capture_turn (pg a b c d : Nat) : (capture s pg a b c d).turn = s.turn := by obtain ⟨_, _, h⟩ := capture_frame s pg a b c d; rw [h]
@[simp] theorem capture_lastTurn (pg a b c d : Nat) : (capture s pg a b c d).lastTurn = s.lastTurn := by obtain ⟨_, _, h⟩ := capture_frame s pg a b c d; rw [h]
@[simp] theorem capture_rolls (pg a b c d : Nat) : (capture s pg a b c d).rolls = s.rolls := by obtain ⟨_, _, h⟩ := capture_frame s pg a b c d; rw [h]
@[simp] theorem capture_streams (pg a b c d : Nat) : (capture s pg a b c d).streams = s.streams := by obtain ⟨_, _, h⟩ := capture_frame s pg a b c d; rw [h]
@[simp] theorem capture_links (pg a b c d : Nat) : (capture s pg a b c d).links = s.links := by obtain ⟨_, _, h⟩ := capture_frame s pg a b c d; rw [h]
@[simp] theorem capture_tags (pg a b c d : Nat) : (capture s pg a b c d).tags = s.tags := by obtain ⟨_, _, h⟩ := capture_frame s pg a b c d; rw [h]
@[simp] theorem capture_gens (pg a b c d : Nat) : (capture s pg a b c d).gens = s.gens := by obtain ⟨_, _, h⟩ := capture_frame s pg a b c d; rw [h]
@[simp] theorem capture_fabs (pg a b c d : Nat) : (capture s pg a b c d).fabs = s.fabs := by obtain ⟨_, _, h⟩ := capture_frame s pg a b c d; rw [h]
@[simp] theorem capture_cgroups (pg a b c d : Nat) : (capture s pg a b c d).cgroups = s.cgroups := by obtain ⟨_, _, h⟩ := capture_frame s pg a b c d; rw [h]
@[simp] theorem capture_cruns (pg a b c d : Nat) : (capture s pg a b c d).cruns = s.cruns := by obtain ⟨_, _, h⟩ := capture_frame s pg a b c d; rw [h]
@[simp] theorem capture_sess (pg a b c d : Nat) : (capture s pg a b c d).sess = s.sess := by obtain ⟨_, _, h⟩ := capture_frame s pg a b c d; rw [h]
@[simp] theorem capture_aligns (pg a b c d : Nat) : (capture s pg a b c d).aligns = s.aligns := by obtain ⟨_, _, h⟩ := capture_frame s pg a b c d; rw [h]
@[simp] theorem capture_tts (pg a b c d : Nat) : (capture s pg a b c d).tts = s.tts := by obtain ⟨_, _, h⟩ := capture_frame s pg a b c d; rw [h]
@[simp] theorem capture_toccs (pg a b c d : Nat) : (capture s pg a b c d).toccs = s.toccs := by obtain ⟨_, _, h⟩ := capture_frame s pg a b c d; rw [h]
@[simp] theorem capture_ttUid (pg a b c d : Nat) : (capture s pg a b c d).ttUid = s.ttUid := by obtain ⟨_, _, h⟩ := capture_frame s pg a b c d; rw [h]
@[simp] theorem capture_dicts (pg a b c d : Nat) : (capture s pg a b c d).dicts = s.dicts := by obtain ⟨_, _, h⟩ := capture_frame s pg a b c d; rw [h]
@[simp] theorem capture_scl (pg a b c d : Nat) : (capture s pg a b c d).scl = s.scl := by obtain ⟨_, _, h⟩ := capture_frame s pg a b c d; rw [h]
@[simp] theorem capture_stop (pg a b c d : Nat) : (capture s pg a b c d).stop = s.stop := by obtain ⟨_, _, h⟩ := capture_frame s pg a b c d; rw [h]
@[simp] theorem capture_errLog (pg a b c d : Nat) : (capture s pg a b c d).errLog = s.errLog := by obtain ⟨_, _, h⟩ := capture_frame s pg a b c d; rw [h]
@[simp] theorem capture_traces (pg a b c d : Nat) : (capture s pg a b c d).traces = s.traces := by obtain ⟨_, _, h⟩ := capture_frame s pg a b c d; rw [h]
@[simp] theorem capture_uresets (pg a b c d : Nat) : (capture s pg a b c d).uresets = s.uresets := by obtain ⟨_, _, h⟩ := capture_frame s pg a b c d; rw [h]
@[simp] theorem capture_lastReset (pg a b c d : Nat) : (capture s pg a b c d).lastReset = s.lastReset := by obtain ⟨_, _, h⟩ := capture_frame s pg a b c d; rw [h]
@[simp] theorem capture_prtCmd (pg a b c d : Nat) : (capture s pg a b c d).prtCmd = s.prtCmd := by obtain ⟨_, _, h⟩ := capture_frame s pg a b c d; rw [h]
@[simp] theorem capture_mbxq (pg a b c d : Nat) : (capture s pg a b c d).mbxq = s.mbxq := by obtain ⟨_, _, h⟩ := capture_frame s pg a b c d; rw [h]
@[simp] theorem capture_power (pg a b c d : Nat) : (capture s pg a b c d).power = s.power := by obtain ⟨_, _, h⟩ := capture_frame s pg a b c d; rw [h]
@[simp] theorem capture_jnl (pg a b c d : Nat) : (capture s pg a b c d).jnl = s.jnl := by obtain ⟨_, _, h⟩ := capture_frame s pg a b c d; rw [h]
@[simp] theorem capture_kImg (pg a b c d : Nat) : (capture s pg a b c d).kImg = s.kImg := by obtain ⟨_, _, h⟩ := capture_frame s pg a b c d; rw [h]
@[simp] theorem capture_uImg (pg a b c d : Nat) : (capture s pg a b c d).uImg = s.uImg := by obtain ⟨_, _, h⟩ := capture_frame s pg a b c d; rw [h]
@[simp] theorem capture_heldRec (pg a b c d : Nat) : (capture s pg a b c d).heldRec = s.heldRec := by obtain ⟨_, _, h⟩ := capture_frame s pg a b c d; rw [h]
@[simp] theorem capture_fuses (pg a b c d : Nat) : (capture s pg a b c d).fuses = s.fuses := by obtain ⟨_, _, h⟩ := capture_frame s pg a b c d; rw [h]
@[simp] theorem capture_trained (pg a b c d : Nat) : (capture s pg a b c d).trained = s.trained := by obtain ⟨_, _, h⟩ := capture_frame s pg a b c d; rw [h]
@[simp] theorem capture_sblk (pg a b c d : Nat) : (capture s pg a b c d).sblk = s.sblk := by obtain ⟨_, _, h⟩ := capture_frame s pg a b c d; rw [h]
@[simp] theorem capture_i3c (pg a b c d : Nat) : (capture s pg a b c d).i3c = s.i3c := by obtain ⟨_, _, h⟩ := capture_frame s pg a b c d; rw [h]
@[simp] theorem capture_jtag (pg a b c d : Nat) : (capture s pg a b c d).jtag = s.jtag := by obtain ⟨_, _, h⟩ := capture_frame s pg a b c d; rw [h]
@[simp] theorem capture_perst (pg a b c d : Nat) : (capture s pg a b c d).perst = s.perst := by obtain ⟨_, _, h⟩ := capture_frame s pg a b c d; rw [h]
@[simp] theorem capture_pcieUp (pg a b c d : Nat) : (capture s pg a b c d).pcieUp = s.pcieUp := by obtain ⟨_, _, h⟩ := capture_frame s pg a b c d; rw [h]
@[simp] theorem capture_msixHeld (pg a b c d : Nat) : (capture s pg a b c d).msixHeld = s.msixHeld := by obtain ⟨_, _, h⟩ := capture_frame s pg a b c d; rw [h]

end Sys2Proof.Machine
end

