-- ==== Sys2Proof/Laws/Awake.lean ====
section
/-!
SUPPORT. Laws/Awake.lean: what bounds every command: COLD, served accesses, the VF pages.
-/

namespace Sys2Proof.Machine

theorem awake_on {s : State} (h : s.cold = false) (f : State → State) : awake s f = within s (f s) := by simp [awake, h]

theorem awake_cold {s : State} (h : s.cold = true) (f : State → State) : awake s f = s := by simp [awake, h]

theorem always_on {s : State} (h : s.cold = false) (f : State → State) : always s f = within s (f s) := by simp [always, h]

theorem always_cold {s : State} (h : s.cold = true) (f : State → State) : always s f = f s := by simp [always, h]

/-- A change that leaves alone what `within` keeps is kept whole. -/
theorem within_eq {s t : State} (h1 : t.pending = s.pending) (h2 : t.now = s.now) (h3 : t.cold = s.cold) (h4 : t.perst = s.perst)
    (h5 : t.jtag = s.jtag) (h6 : t.fuses = s.fuses) : within s t = t := by
  unfold within; rw [← h1, ← h2, ← h3, ← h4, ← h5, ← h6]

/-- A served write is applied. -/
theorem pfWrite_served {s : State} {a : Nat} (h : Served s a) (m d : Nat) (f : State → State) : pfWrite s m a d f = f s := by
  obtain ⟨h1, h2, h3⟩ := h
  simp [pfWrite, h1, h2, h3]

/-- An access to a VF page that is answered. -/
theorem vfPart_served {s : State} {p : Nat} (h : PartServed s p) (f : State → State) : vfPart s p f = f s := by
  obtain ⟨h1, h2, h3⟩ := h
  simp [vfPart, vfWrite, h1, h2, h3]

/-- Registers, memories and the rest depend on the state that `within` takes. -/
@[simp] theorem rget_within (s t : State) (a : Nat) : rget (within s t) a = rget t a := rfl

@[simp] theorem cellGet_within (s t : State) (c : Nat) : cellGet (within s t) c = cellGet t c := rfl

end Sys2Proof.Machine
end

