-- ==== Sys2Proof/Laws/Touches.lean ====
section
/-!
SUPPORT. Laws/Touches.lean: what the shared operations on registers, events and captures may change, as one relation that chains.
-/

namespace Sys2Proof.Machine

theorem touches_refl (l : List Nat) (s : State) : Touches l s s := ⟨rfl, fun _ _ _ _ => rfl⟩

theorem touches_trans {l : List Nat} {s t u : State} (h : Touches l s t) (k : Touches l t u) : Touches l s u := by
  obtain ⟨h1, h2⟩ := h
  obtain ⟨k1, k2⟩ := k
  refine ⟨?_, fun a h0 h3 h4 => (k2 a h0 h3 h4).trans (h2 a h0 h3 h4)⟩
  rw [← h1]
  rw [← k1] at h1 ⊢

theorem touches_mono {l m : List Nat} {s t : State} (h : Touches l s t) (hl : ∀ a, a ∈ l → a ∈ m) : Touches m s t :=
  ⟨h.1, fun a ha => h.2 a (fun x => ha (hl a x))⟩

theorem touches_rset {l : List Nat} (s : State) {a : Nat} (v : Nat) (h : a ∈ l) : Touches l s (rset s a v) :=
  ⟨rfl, fun _ hb _ _ => rget_rset_ne s v (fun e => hb (e ▸ h))⟩

theorem touches_bumpSat {l : List Nat} (s : State) {a : Nat} (n : Nat) (h : a ∈ l) : Touches l s (bumpSat s a n) := touches_rset s _ h

theorem touches_bumpWrap {l : List Nat} (s : State) {a : Nat} (n : Nat) (h : a ∈ l) : Touches l s (bumpWrap s a n) := touches_rset s _ h

theorem touches_rsetBits {l : List Nat} (s : State) {a : Nat} (hi lo v : Nat) (h : a ∈ l) : Touches l s (rsetBits s a hi lo v) :=
  touches_rset s _ h

theorem touches_raise {l : List Nat} (s : State) {pg : Nat} (e : Nat) (h : pg + 0x10 ∈ l) : Touches l s (raise s pg e) := by
  refine ⟨?_, fun a ha h1 h2 => rget_raise_ne s pg e (fun x => ha (x ▸ h)) h2 h1⟩
  obtain ⟨r, m, k, g, e⟩ := raise_frame s pg e
  rw [e]

theorem touches_capture {l : List Nat} (s : State) {pg : Nat} (c0 c1 c2 c3 : Nat) (h0 : pg + 0x20 ∈ l) (h1 : pg + 0x24 ∈ l)
    (h2 : pg + 0x28 ∈ l) (h3 : pg + 0x2C ∈ l) : Touches l s (capture s pg c0 c1 c2 c3) := by
  unfold capture
  split
  · exact touches_refl l s
  · exact touches_trans (touches_trans (touches_rset s c0 h0) (touches_trans (touches_rset _ c1 h1)
      (touches_trans (touches_rset _ c2 h2) (touches_rset _ c3 h3)))) ⟨rfl, fun _ _ _ _ => rfl⟩

theorem touches_logErr {l : List Nat} (s : State) (pg e sc : Nat) : Touches l s (logErr s pg e sc) := by
  refine ⟨?_, fun a _ h1 h2 => rget_logErr_ne s pg e sc h2 h1⟩
  obtain ⟨r, m, k, g, e⟩ := logErr_frame s pg e sc
  rw [e]

theorem touches_setEvents {l : List Nat} (s : State) {pg : Nat} (e : Nat) (h : pg + 0x10 ∈ l) : Touches l s (setEvents s pg e) := by
  refine ⟨?_, fun a ha _ _ => ?_⟩
  · obtain ⟨r, m, q⟩ := setEvents_frame s pg e; rw [q]; rfl
  · rw [rget_setEvents, if_neg (fun x => ha (by rw [x]; exact h))]

/-- `Touches` between states that differ from `x` and `t` outside the registers. -/
theorem touches_via {l : List Nat} {s u x t : State} (h : Touches l x t) (hx : x.regs = s.regs) (hu : u.regs = t.regs)
    (e : { u with regs := s.regs, disarmed := s.disarmed, msix := s.msix, msixHeld := s.msixHeld, errLog := s.errLog } = s) : Touches l s u :=
  ⟨e, fun a b c d => (rget_congr hu a).trans ((h.2 a b c d).trans (rget_congr hx a))⟩

/-- A raised event is in EVT_RAW (R15), on every page but ERR's. -/
theorem raise_bit (s : State) (pg e i : Nat) (h : e.testBit i = true) (hi : i < 32) (h1 : pg + 0x10 ≠ pgErr + 0x60) (h2 : pg ≠ pgErr) :
    (rget (raise s pg e) (pg + 0x10)).testBit i = true := by
  rw [rget_raise_evt s pg e h1 h2, Nat.testBit_mod_two_pow, Nat.testBit_or, h]
  simp [hi]

/-- `Touches` leaves a field that is not listed there. -/
theorem touches_field {α : Type} {l : List Nat} {s t : State} (h : Touches l s t) (f : State → α)
    (hf : ∀ (x : State) r d m k e, f { x with regs := r, disarmed := d, msix := m, msixHeld := k, errLog := e } = f x) : f t = f s := by
  have := congrArg f h.1
  rw [hf t s.regs s.disarmed s.msix s.msixHeld s.errLog] at this
  exact this

end Sys2Proof.Machine
end

