-- ==== Sys2Proof/Laws/Regs.lean ====
section
/-!
SUPPORT. Laws/Regs.lean: bit fields, and register writes under their access codes (R16, R17, R540).
-/

namespace Sys2Proof.Machine

theorem bits_eq (n hi lo : Nat) : bits n hi lo = n / 2 ^ lo % 2 ^ (hi + 1 - lo) := by unfold bits; rw [Nat.shiftRight_eq_div_pow]

theorem setBits_eq (n hi lo v : Nat) :
    setBits n hi lo v = n / 2 ^ (hi + 1) * 2 ^ (hi + 1) + (v % 2 ^ (hi + 1 - lo)) * 2 ^ lo + n % 2 ^ lo := by
  unfold setBits; rw [Nat.shiftRight_eq_div_pow, Nat.shiftLeft_eq, Nat.shiftLeft_eq]

theorem rget_rsetBits (s : State) (a hi lo v : Nat) : rget (rsetBits s a hi lo v) a = setBits (rget s a) hi lo v % 2 ^ 32 := rget_rset_same _ _ _

theorem rget_rsetBits_ne (s : State) {a b : Nat} (hi lo v : Nat) (h : b ≠ a) : rget (rsetBits s a hi lo v) b = rget s b := rget_rset_ne _ _ h

theorem rbits_congr {s t : State} {a : Nat} (h : rget s a = rget t a) (hi lo : Nat) : rbits s a hi lo = rbits t a hi lo := by
  unfold rbits; rw [h]

theorem rbits_rsetBits_ne (s : State) {a b : Nat} (hi lo v h l : Nat) (n : b ≠ a) : rbits (rsetBits s a hi lo v) b h l = rbits s b h l :=
  rbits_congr (rget_rsetBits_ne s hi lo v n) h l

/-- The field just set. -/
theorem rbits_rsetBits_same (s : State) (a hi lo v : Nat) (h1 : lo ≤ hi) (h2 : hi < 32) :
    rbits (rsetBits s a hi lo v) a hi lo = v % 2 ^ (hi + 1 - lo) := by
  unfold rbits
  rw [rget_rsetBits, bits_eq, setBits_eq]
  have e1 : 2 ^ (hi + 1) = 2 ^ (hi + 1 - lo) * 2 ^ lo := by rw [← pow_add]; congr 1; omega
  have e2 : 2 ^ 32 = 2 ^ (31 - hi) * 2 ^ (hi + 1 - lo) * 2 ^ lo := by rw [mul_assoc, ← e1, ← pow_add]; congr 1; omega
  have p1 : 0 < 2 ^ lo := Nat.two_pow_pos lo
  have hm : rget s a % 2 ^ lo < 2 ^ lo := Nat.mod_lt _ p1
  have e3 : rget s a / 2 ^ (hi + 1) * 2 ^ (hi + 1) + v % 2 ^ (hi + 1 - lo) * 2 ^ lo + rget s a % 2 ^ lo =
      2 ^ lo * (rget s a / 2 ^ (hi + 1) * 2 ^ (hi + 1 - lo) + v % 2 ^ (hi + 1 - lo)) + rget s a % 2 ^ lo := by
    rw [e1]; ring
  rw [e3, e2, show 2 ^ (31 - hi) * 2 ^ (hi + 1 - lo) * 2 ^ lo = 2 ^ lo * (2 ^ (31 - hi) * 2 ^ (hi + 1 - lo)) by ring, Nat.mod_mul]
  rw [Nat.mul_add_mod, Nat.mod_eq_of_lt hm, Nat.add_mul_div_left _ _ p1, Nat.div_eq_of_lt hm, Nat.zero_add,
    Nat.mul_add_div p1, Nat.div_eq_of_lt hm, Nat.add_zero, mul_comm (2 ^ (31 - hi)), Nat.mod_mul_right_mod, Nat.mul_add_mod_self_right, Nat.mod_mod]

theorem bits_or_ne (v k i : Nat) (h : i ≠ k) : bits (v ||| 2 ^ k) i i = bits v i i := by
  have e : ∀ n, bits n i i = (n.testBit i).toNat := by
    intro n
    rw [bits_eq, Nat.testBit_eq_decide_div_mod_eq]
    have : n / 2 ^ i % 2 = 0 ∨ n / 2 ^ i % 2 = 1 := by omega
    rcases this with h | h <;> simp [h]
  rw [e, e, Nat.testBit_or, Nat.testBit_two_pow]
  have : decide (k = i) = false := by simpa using fun x => h x.symm
  rw [this, Bool.or_false]

/-- R16, R17, R540: a write of a register. -/
theorem plainWrite_some {s : State} {pg : Page} {i a v : Nat} {r : Reg} {k : Nat} (h : findReg pg (a % 0x1000) = some (r, k)) :
    plainWrite s pg i a v =
      if (fieldLocked s pg i && r.fields.any (fun f => f.acc == .rwl && bits (rget s a) f.hi f.lo !=
          bits (storedAs s pg (a % 0x1000) (rget s a) v) f.hi f.lo)) = true
      then lockedWrite (rset s a (fieldsWrite (fieldLocked s pg i) (queueOff s pg i (a % 0x1000)) (rget s a)
        (storedAs s pg (a % 0x1000) (rget s a) v) r.fields))
      else rset s a (fieldsWrite (fieldLocked s pg i) (queueOff s pg i (a % 0x1000)) (rget s a)
        (storedAs s pg (a % 0x1000) (rget s a) v) r.fields) := by
  unfold plainWrite; dsimp only; rw [h]

theorem touches_lockedWrite {l : List Nat} (s : State) (h : pgChp + 0x74 ∈ l) (k : pgChp + 0x10 ∈ l) : Touches l s (lockedWrite s) :=
  touches_trans (touches_bumpSat s _ h) (touches_raise _ _ k)

theorem lockedWrite_cells (s : State) : (lockedWrite s).cells = s.cells := by unfold lockedWrite; rw [raise_cells, bumpSat_cells]

theorem semAddr_mod (c n : Nat) (h : n < 64) : semAddr c n % 0x1000 = 0x100 + 4 * n := by
  unfold semAddr pgCel cellBase blockBase regionBase; omega

theorem findReg_sem : ∀ n : Fin 64, (findReg .cel (0x100 + 4 * n)).map (fun x => x.1.fields) = some [⟨15, 0, .rw, 0⟩] := by decide

theorem findReg_celCtrl : (findReg .cel 8).map (fun x => x.1.fields) = some [⟨0, 0, .rw, 0⟩, ⟨1, 1, .wo, 0⟩, ⟨2, 2, .rwl, 0⟩] := by decide

/-- R81: a semaphore takes the low 16 bits written. -/
theorem plainWrite_sem (s : State) (c n v : Nat) (hn : n < 64) :
    plainWrite s .cel c (semAddr c n) v = rset s (semAddr c n) (setBits (rget s (semAddr c n)) 15 0 (v % 2 ^ 16)) := by
  have hf := findReg_sem ⟨n, hn⟩
  cases hx : findReg .cel (0x100 + 4 * n) with
  | none => rw [hx] at hf; cases hf
  | some x =>
    rw [hx] at hf
    obtain ⟨rr, i⟩ := x
    have hf' : rr.fields = [⟨15, 0, .rw, 0⟩] := Option.some.inj hf
    rw [plainWrite_some (by rw [semAddr_mod c n hn]; exact hx), hf']
    have : bits v 15 0 = v % 2 ^ 16 := by unfold bits; simp
    rw [if_neg (by simp)]
    simp only [storedAs, fieldsWrite, List.foldl_cons, List.foldl_nil, this]

theorem celCtrl_mod (c : Nat) : (pgCel c + 8) % 0x1000 = 8 := by unfold pgCel cellBase blockBase regionBase; omega

theorem pgCel_far (c : Nat) : 0x4000000 ≤ pgCel c := by unfold pgCel cellBase blockBase regionBase; omega

/-- R85, R108: what a write leaves in CEL_CTRL: ENABLE as written, REQUIRE_BOUND as written while no partition owns the cell. -/
theorem plainWrite_celCtrl (s : State) (c v : Nat) :
    (plainWrite s .cel c (pgCel c + 8) v).cells = s.cells ∧
    Touches [pgCel c + 8, pgChp + 0x10, pgChp + 0x74] s (plainWrite s .cel c (pgCel c + 8) v) ∧
    bits (rget (plainWrite s .cel c (pgCel c + 8) v) (pgCel c + 8)) 0 0 = bits v 0 0 ∧
    bits (rget (plainWrite s .cel c (pgCel c + 8) v) (pgCel c + 8)) 2 2 =
      (if (ownerOf s c).isSome then bits (rget s (pgCel c + 8)) 2 2 else bits v 2 2) := by
  have hf := findReg_celCtrl
  have far := pgCel_far c
  have e4 : pgErr = 0x800000 := rfl
  have e5 : pgChp = 0 := rfl
  cases hx : findReg .cel 8 with
  | none => rw [hx] at hf; cases hf
  | some x =>
    rw [hx] at hf
    obtain ⟨rr, i⟩ := x
    have hf' : rr.fields = [⟨0, 0, .rw, 0⟩, ⟨1, 1, .wo, 0⟩, ⟨2, 2, .rwl, 0⟩] := Option.some.inj hf
    obtain ⟨w, hw⟩ : ∃ w, fieldsWrite (fieldLocked s .cel c) (queueOff s .cel c 8) (rget s (pgCel c + 8))
        (storedAs s .cel 8 (rget s (pgCel c + 8)) v) rr.fields = w := ⟨_, rfl⟩
    have hp := plainWrite_some (s := s) (pg := .cel) (i := c) (a := pgCel c + 8) (v := v) (r := rr) (k := i) (by rw [celCtrl_mod]; exact hx)
    rw [celCtrl_mod, hw] at hp
    have hl : fieldLocked s .cel c = (ownerOf s c).isSome := rfl
    have lt := rget_lt s (pgCel c + 8)
    have hv : w < 2 ^ 32 ∧ bits w 0 0 = bits v 0 0 ∧
        bits w 2 2 = (if (ownerOf s c).isSome then bits (rget s (pgCel c + 8)) 2 2 else bits v 2 2) := by
      rw [← hw, hf', hl]
      simp only [storedAs, fieldsWrite, List.foldl_cons, List.foldl_nil]
      generalize rget s (pgCel c + 8) = o at lt
      cases (ownerOf s c).isSome
      · simp only [Bool.false_eq_true, if_false, bits_eq, setBits_eq]; omega
      · simp only [if_true, bits_eq, setBits_eq]; omega
    have hr : ∀ t, (t = lockedWrite (rset s (pgCel c + 8) w) ∨ t = rset s (pgCel c + 8) w) → t.cells = s.cells ∧
        Touches [pgCel c + 8, pgChp + 0x10, pgChp + 0x74] s t ∧ rget t (pgCel c + 8) = w := by
      intro t ht
      rcases ht with h | h
      · refine ⟨by rw [h, lockedWrite_cells, rset_cells], ?_, ?_⟩
        · rw [h]; exact touches_trans (touches_rset _ _ (by simp)) (touches_lockedWrite _ (by simp) (by simp))
        · rw [h]
          have q := (touches_lockedWrite (l := [pgChp + 0x10, pgChp + 0x74]) (rset s (pgCel c + 8) w) (by simp) (by simp)).2 (pgCel c + 8)
            (by simp; omega) (by omega) (by omega)
          rw [q, rget_rset_same, Nat.mod_eq_of_lt hv.1]
      · refine ⟨by rw [h, rset_cells], ?_, ?_⟩
        · rw [h]; exact touches_rset _ _ (by simp)
        · rw [h, rget_rset_same, Nat.mod_eq_of_lt hv.1]
    have hs : plainWrite s .cel c (pgCel c + 8) v = lockedWrite (rset s (pgCel c + 8) w) ∨
        plainWrite s .cel c (pgCel c + 8) v = rset s (pgCel c + 8) w := by
      rw [hp]; split
      · exact Or.inl rfl
      · exact Or.inr rfl
    obtain ⟨r1, r2, r3⟩ := hr _ hs
    rw [r3]
    exact ⟨r1, r2, hv.2.1, hv.2.2⟩

end Sys2Proof.Machine
end

