-- ==== Sys2Proof/Laws/Fields.lean ====
section
/-!
SUPPORT. Laws/Fields.lean: what a write leaves in each field of a register (R16).
-/

namespace Sys2Proof.Machine

theorem testBit_bits (n hi lo j : Nat) : (bits n hi lo).testBit j = (decide (j < hi + 1 - lo) && n.testBit (lo + j)) := by
  rw [bits_eq, Nat.testBit_mod_two_pow, Nat.testBit_div_two_pow, Nat.add_comm j lo]

theorem testBit_setBits (n hi lo v j : Nat) (h : lo ≤ hi) :
    (setBits n hi lo v).testBit j = if lo ≤ j ∧ j ≤ hi then v.testBit (j - lo) else n.testBit j := by
  have e : setBits n hi lo v = 2 ^ lo * (2 ^ (hi + 1 - lo) * (n / 2 ^ (hi + 1)) + v % 2 ^ (hi + 1 - lo)) + n % 2 ^ lo := by
    rw [setBits_eq, show 2 ^ (hi + 1) = 2 ^ (hi + 1 - lo) * 2 ^ lo by rw [← pow_add]; congr 1; omega]; ring
  rw [e, Nat.testBit_two_pow_mul_add _ (Nat.mod_lt _ (Nat.two_pow_pos _))]
  by_cases h1 : j < lo
  · rw [if_pos h1, if_neg (by omega), Nat.testBit_mod_two_pow]; simp [h1]
  · rw [if_neg h1, Nat.testBit_two_pow_mul_add _ (Nat.mod_lt _ (Nat.two_pow_pos _))]
    by_cases h2 : j ≤ hi
    · rw [if_pos (by omega), if_pos (by omega), Nat.testBit_mod_two_pow]; simp; omega
    · rw [if_neg (by omega), if_neg (by omega), Nat.testBit_div_two_pow]; congr 1; omega

theorem bits_setBits_same (n hi lo v : Nat) (h : lo ≤ hi) : bits (setBits n hi lo v) hi lo = v % 2 ^ (hi + 1 - lo) := by
  apply Nat.eq_of_testBit_eq; intro j
  rw [testBit_bits, testBit_setBits _ _ _ _ _ h, Nat.testBit_mod_two_pow]
  by_cases q : j < hi + 1 - lo
  · rw [if_pos (by omega)]; simp [q]
  · simp [q]

theorem bits_setBits_ne (n hi lo v h l : Nat) (k : lo ≤ hi) (d : h < lo ∨ hi < l) : bits (setBits n hi lo v) h l = bits n h l := by
  apply Nat.eq_of_testBit_eq; intro j
  rw [testBit_bits, testBit_bits, testBit_setBits _ _ _ _ _ k]
  by_cases q : j < h + 1 - l
  · rw [if_neg (by omega)]
  · simp [q]

theorem setBits_lt32 (n hi lo v : Nat) (h : lo ≤ hi) (h2 : hi < 32) (hn : n < 2 ^ 32) : setBits n hi lo v < 2 ^ 32 := by
  apply Nat.lt_pow_two_of_testBit
  intro j hj
  rw [testBit_setBits _ _ _ _ _ h, if_neg (by omega)]
  exact Nat.testBit_lt_two_pow (lt_of_lt_of_le hn (Nat.pow_le_pow_right (by omega) hj))

/-- The fields of a row: in ascending order, apart, within the word. -/
def fieldsOk : List Field → Bool
  | [] => true
  | f :: l => decide (f.lo ≤ f.hi) && decide (f.hi < 32) && l.all (fun g => decide (f.hi < g.lo)) && fieldsOk l

theorem regs_fieldsOk (p : Page) : (headerRegs ++ pageRegs p).all (fun r => fieldsOk r.fields) = true := by
  cases p <;> decide

theorem findReg_fieldsOk {p : Page} {off : Nat} {r : Reg} {k : Nat} (h : findReg p off = some (r, k)) : fieldsOk r.fields = true := by
  unfold findReg at h
  obtain ⟨x, hx, e⟩ := Option.map_eq_some_iff.mp h
  have hm := List.mem_of_find?_eq_some hx
  have := List.all_eq_true.mp (regs_fieldsOk p) x hm
  have e1 : x = r := congrArg Prod.fst e
  rw [← e1]; exact this

/-- What a write leaves in a field (R16). -/
def fieldAfter (locked off : Bool) (f : Field) (old new : Nat) : Nat :=
  match f.acc with
  | .ro | .wo => old
  | .rw => new
  | .rwl => if locked then old else new
  | .rwd => if off then new else old
  | .w1c => old &&& (2 ^ (f.hi + 1 - f.lo) - 1 - new)
  | .w1s => old ||| new

/-- One field of `fieldsWrite`. -/
def fieldStep (locked off : Bool) (old v x : Nat) (f : Field) : Nat :=
  match f.acc with
  | .rw => setBits x f.hi f.lo (bits v f.hi f.lo)
  | .rwl => if locked then x else setBits x f.hi f.lo (bits v f.hi f.lo)
  | .rwd => if off then setBits x f.hi f.lo (bits v f.hi f.lo) else x
  | .w1c => setBits x f.hi f.lo (bits old f.hi f.lo &&& (2 ^ (f.hi + 1 - f.lo) - 1 - bits v f.hi f.lo))
  | .w1s => setBits x f.hi f.lo (bits old f.hi f.lo ||| bits v f.hi f.lo)
  | .ro => x
  | .wo => x

theorem fieldStep_eq (locked off : Bool) (old v x : Nat) (f : Field) :
    fieldStep locked off old v x f = x ∨ ∃ n, fieldStep locked off old v x f = setBits x f.hi f.lo n := by
  unfold fieldStep
  cases f.acc <;> (try cases locked) <;> (try cases off) <;> first | exact Or.inl rfl | exact Or.inr ⟨_, rfl⟩

theorem bits_lt (n hi lo : Nat) : bits n hi lo < 2 ^ (hi + 1 - lo) := by rw [bits_eq]; exact Nat.mod_lt _ (Nat.two_pow_pos _)

theorem fieldStep_same (locked off : Bool) (old v x : Nat) (f : Field) (h : f.lo ≤ f.hi) (hx : bits x f.hi f.lo = bits old f.hi f.lo) :
    bits (fieldStep locked off old v x f) f.hi f.lo = fieldAfter locked off f (bits old f.hi f.lo) (bits v f.hi f.lo) := by
  have p := Nat.two_pow_pos (f.hi + 1 - f.lo)
  have b1 := bits_lt old f.hi f.lo
  have b2 := bits_lt v f.hi f.lo
  unfold fieldStep fieldAfter
  cases f.acc <;> (try cases locked) <;> (try cases off) <;>
    simp only [bits_setBits_same _ _ _ _ h, hx, if_true, Bool.false_eq_true, if_false, Nat.mod_eq_of_lt b2]
  all_goals first
    | exact Nat.mod_eq_of_lt (lt_of_le_of_lt Nat.and_le_left b1)
    | exact Nat.mod_eq_of_lt (Nat.or_lt_two_pow b1 b2)

theorem fieldStep_ne (locked off : Bool) (old v x : Nat) (f : Field) (h : f.lo ≤ f.hi) (hi lo : Nat) (d : hi < f.lo ∨ f.hi < lo) :
    bits (fieldStep locked off old v x f) hi lo = bits x hi lo := by
  rcases fieldStep_eq locked off old v x f with e | ⟨n, e⟩
  · rw [e]
  · rw [e, bits_setBits_ne _ _ _ _ _ _ h d]

theorem fieldStep_lt (locked off : Bool) (old v x : Nat) (f : Field) (h : f.lo ≤ f.hi) (k : f.hi < 32) (hx : x < 2 ^ 32) :
    fieldStep locked off old v x f < 2 ^ 32 := by
  rcases fieldStep_eq locked off old v x f with e | ⟨n, e⟩
  · rw [e]; exact hx
  · rw [e]; exact setBits_lt32 _ _ _ _ h k hx

theorem fieldsWrite_eq (locked off : Bool) (old v : Nat) (fs : List Field) : fieldsWrite locked off old v fs = fs.foldl (fieldStep locked off old v) old := rfl

theorem fieldStep_fold_ne (locked off : Bool) (old v hi lo : Nat) : ∀ (fs : List Field) (x : Nat), fieldsOk fs = true → (∀ f ∈ fs, hi < f.lo) →
    bits (fs.foldl (fieldStep locked off old v) x) hi lo = bits x hi lo
  | [], _, _, _ => rfl
  | f :: l, x, h, d => by
    simp only [fieldsOk, Bool.and_eq_true, decide_eq_true_eq] at h
    rw [List.foldl_cons, fieldStep_fold_ne locked off old v hi lo l _ h.2 (fun g hg => d g (List.mem_cons_of_mem _ hg)),
      fieldStep_ne _ _ _ _ _ _ h.1.1.1 _ _ (Or.inl (d f List.mem_cons_self))]

theorem fieldStep_fold (locked off : Bool) (old v : Nat) : ∀ (fs : List Field) (x : Nat), fieldsOk fs = true → x < 2 ^ 32 →
    (∀ f ∈ fs, bits x f.hi f.lo = bits old f.hi f.lo) → fs.foldl (fieldStep locked off old v) x < 2 ^ 32 ∧
    ∀ f ∈ fs, bits (fs.foldl (fieldStep locked off old v) x) f.hi f.lo = fieldAfter locked off f (bits old f.hi f.lo) (bits v f.hi f.lo)
  | [], _, _, hx, _ => ⟨hx, fun _ hf => absurd hf List.not_mem_nil⟩
  | f :: l, x, h, hx, e => by
    simp only [fieldsOk, Bool.and_eq_true, decide_eq_true_eq, List.all_eq_true] at h
    obtain ⟨⟨⟨h1, h2⟩, h3⟩, h4⟩ := h
    have ih := fieldStep_fold locked off old v l (fieldStep locked off old v x f) h4 (fieldStep_lt _ _ _ _ _ _ h1 h2 hx) (fun g hg => by
      rw [fieldStep_ne _ _ _ _ _ _ h1 _ _ (Or.inr (h3 g hg)), e g (List.mem_cons_of_mem _ hg)])
    refine ⟨ih.1, fun g hg => ?_⟩
    rw [List.foldl_cons]
    rcases List.mem_cons.mp hg with q | q
    · subst q
      rw [fieldStep_fold_ne locked off old v _ _ l _ h4 h3, fieldStep_same _ _ _ _ _ _ h1 (e g List.mem_cons_self)]
    · exact ih.2 g q

/-- R16: a write changes each field of a row by its access code, and fits the word. -/
theorem fieldsWrite_spec (locked off : Bool) (old v : Nat) (fs : List Field) (h : fieldsOk fs = true) (ho : old < 2 ^ 32) :
    fieldsWrite locked off old v fs < 2 ^ 32 ∧
    ∀ f ∈ fs, bits (fieldsWrite locked off old v fs) f.hi f.lo = fieldAfter locked off f (bits old f.hi f.lo) (bits v f.hi f.lo) :=
  fieldStep_fold locked off old v fs old h ho (fun _ _ => rfl)

end Sys2Proof.Machine
end

