-- ==== Sys2Proof/Laws/Power.lean ====
section
/-!
SUPPORT. Laws/Power.lean: what derating, power stops, throttle requests and the power-off of a domain may change (R297, R469, R498,
R499, R509, R518).
-/

namespace Sys2Proof.Machine

/-- The DERATE registers and event registers of the stacks. -/
def derateRegs : List Nat := (List.range 8).flatMap (fun st => [pgHbm st + 0x44, pgHbm st + 0x10])

theorem touches_derateUpdate (s : State) (st : Nat) : Touches [pgHbm st + 0x44, pgHbm st + 0x10] s (derateUpdate s st) := by
  have k : ∀ v, Touches [pgHbm st + 0x44, pgHbm st + 0x10] s (raise (rset s (pgHbm st + 0x44) v) (pgHbm st) 8) :=
    fun v => touches_trans (touches_rset s v (by simp)) (touches_raise _ _ (by simp))
  unfold derateUpdate
  dsimp only
  by_cases h : rbits s (pgHbm st + 68) 12 0 = if rbits s (pgHbm st + 0xC) 1 0 = 1 ∨ rbits s (pgPwr + 0x5C) 12 8 < 16 then 2048 else 4096
  · rw [if_pos h]; exact touches_refl _ s
  · rw [if_neg h]; exact k _

theorem derateUpdate_value (s : State) (st : Nat) (h : st < 8) (q : rbits s (pgPwr + 0x5C) 12 8 < 16) :
    rbits (derateUpdate s st) (pgHbm st + 0x44) 12 0 = 2048 := by
  unfold derateUpdate
  dsimp only
  rw [if_pos (Or.inr q)]
  split
  · assumption
  · have : rget (raise (rset s (pgHbm st + 0x44) 2048) (pgHbm st) 8) (pgHbm st + 0x44) = 2048 := by
      rw [rget_raise_ne _ _ _ (by unfold pgHbm; omega) (by unfold pgHbm pgErr; omega) (by unfold pgHbm pgErr; omega), rget_rset_same]; rfl
    unfold rbits; rw [this]; rfl

theorem derateAll_aux : ∀ (l : List Nat) (s : State), (∀ i ∈ l, i < 8) →
    Touches derateRegs s (l.foldl derateUpdate s) ∧
    (rbits s (pgPwr + 0x5C) 12 8 < 16 → ∀ st, st < 8 → (st ∈ l ∨ rbits s (pgHbm st + 0x44) 12 0 = 2048) →
      rbits (l.foldl derateUpdate s) (pgHbm st + 0x44) 12 0 = 2048) := by
  intro l
  induction l with
  | nil => intro s _; exact ⟨touches_refl _ s, fun _ st _ h => by rcases h with h | h; cases h; exact h⟩
  | cons i l ih =>
    intro s hl
    have hi := hl i (by simp)
    obtain ⟨a1, a2⟩ := ih (derateUpdate s i) (fun j hj => hl j (by simp [hj]))
    have t := touches_derateUpdate s i
    have e1 : pgHbm i = 0x100000 + i * 0x10000 := rfl
    refine ⟨touches_trans (touches_mono t (fun a ha => ?_)) a1, fun q st hs h => ?_⟩
    · simp only [derateRegs, List.mem_flatMap, List.mem_range]; exact ⟨i, hi, ha⟩
    · have eq : rget (derateUpdate s i) (pgPwr + 0x5C) = rget s (pgPwr + 0x5C) :=
        t.2 _ (by simp [pgPwr, e1]; omega) (by simp [pgPwr, pgErr]) (by simp [pgPwr, pgErr])
      refine a2 (by rw [rbits_congr eq]; exact q) st hs ?_
      by_cases he : st = i
      · right; rw [he]; exact derateUpdate_value s i hi q
      · rcases h with h | h
        · left; simpa [he] using h
        · right
          have e2 : pgHbm st = 0x100000 + st * 0x10000 := rfl
          have : rget (derateUpdate s i) (pgHbm st + 0x44) = rget s (pgHbm st + 0x44) :=
            t.2 _ (by simp [e1, e2]; omega) (by rw [e2]; simp [pgErr]; omega) (by rw [e2]; simp [pgErr]; omega)
          rw [rbits_congr this]; exact h

theorem touches_derateAll (s : State) : Touches derateRegs s (derateAll s) := (derateAll_aux _ s (fun i hi => by simpa using hi)).1

theorem derateAll_value (s : State) (q : rbits s (pgPwr + 0x5C) 12 8 < 16) (st : Nat) (h : st < 8) :
    rbits (derateAll s) (pgHbm st + 0x44) 12 0 = 2048 :=
  (derateAll_aux _ s (fun i hi => by simpa using hi)).2 q st h (Or.inl (by simpa using h))

theorem derateRegs_far {a : Nat} (h : a ∈ derateRegs) : 0x100000 ≤ a ∧ a < 0x180000 := by
  simp only [derateRegs, List.mem_flatMap, List.mem_range] at h
  obtain ⟨i, hi, h⟩ := h
  simp [pgHbm] at h; omega

theorem rget_derateAll (s : State) {a : Nat} (h : a < 0x100000 ∨ 0x180000 ≤ a) (h1 : a ≠ pgErr + 0x10) (h2 : a ≠ pgErr + 0x60) :
    rget (derateAll s) a = rget s a :=
  (touches_derateAll s).2 a (fun x => by have := derateRegs_far x; omega) h1 h2

theorem inputEvents_dip (x : State) (p : Power) (h1 : x.power.dip.isSome = true) (h2 : p.dip.isNone = true) (h3 : x.power.over59 = none) :
    ∃ y, bumpSat (raise (rsetBits x (pgPwr + 0x40) 31 16 (min (rbits x (pgPwr + 0x40) 31 16) x.power.vin)) pgPwr 1) (pgPwr + 0x4C) 1 = y ∧
      (inputEvents x p = y ∨ inputEvents x p = rsetBits y (pgPwr + 0xC) 1 0 1) := by
  refine ⟨_, rfl, ?_⟩
  have e3 : (x.power.over59.isSome && p.over59.isNone && decide (x.power.vin ≤ 64000)) = false := by rw [h3]; rfl
  have e2 : (x.power.dip.isSome && p.dip.isNone) = true := by rw [h1, h2]; rfl
  unfold inputEvents
  dsimp only
  rw [e3, e2]
  simp only [if_true, Bool.false_eq_true, if_false]
  have ed : ∀ z : State, z.power = x.power → (z.power.dip.isNone = true) = False := by
    intro z hz; rw [hz]
    cases hd : x.power.dip with
    | none => rw [hd] at h1; cases h1
    | some _ => simp
  split
  · right; rfl
  · rw [if_neg]
    · left; rfl
    · rintro ⟨_, q⟩
      rw [ed _ (by rw [bumpSat_power, raise_power, rsetBits_power])] at q
      exact q

theorem powerStop_fed {x : State} (h : ¬ (x.cold = true ∨ inputStatus x = 3)) : powerStop x true =
    stopCause { rsetBits (raise x pgPwr 8) (pgPwr + 0xC) 1 0 3 with
      power := { (rsetBits (raise x pgPwr 8) (pgPwr + 0xC) 1 0 3).power with bankOpen := false } } 7 3 0 stFailedDevice false := by
  unfold powerStop; rw [if_neg h]; rfl

theorem stopCause_spec (s : State) (cause level inst status : Nat) (lost : Bool) :
    Touches [pgErr + 0x40, pgErr + 0xC, pgErr + 0x10] s { stopCause s cause level inst status lost with stop := s.stop } ∧
    (s.stop = none → s.cold = false → devState s ≠ dvFaulted → devState s ≠ dvDumped → (stopCause s cause level inst status lost).stop.isSome = true) := by
  obtain ⟨y, hy⟩ : ∃ y, logErr s pgErr 3 0 = y := ⟨_, rfl⟩
  have ty : Touches [pgErr + 0x40, pgErr + 0xC, pgErr + 0x10] s y := by rw [← hy]; exact touches_logErr s pgErr 3 0
  have ys : y.stop = s.stop := touches_field ty State.stop (fun _ _ _ _ _ _ => rfl)
  obtain ⟨rec, hrec⟩ : ∃ rec : StopRun, rec = ⟨cause, level, inst, status, s.sclTime, devState s, 0, 0, 0, lost, false, [], [], []⟩ := ⟨_, rfl⟩
  obtain ⟨z, hz⟩ : ∃ z, rset y (pgErr + 0x40) (cause + level % 4 * 2 ^ 8 + inst % 65536 * 2 ^ 16) = z := ⟨_, rfl⟩
  have tz : Touches [pgErr + 0x40, pgErr + 0xC, pgErr + 0x10] y z := by rw [← hz]; exact touches_rset y _ (by simp)
  obtain ⟨w, hw⟩ : ∃ w, { z with stop := some rec } = w := ⟨_, rfl⟩
  have tw : Touches [pgErr + 0x40, pgErr + 0xC, pgErr + 0x10] w (raise (rsetBits w (pgErr + 0xC) 0 0 1) pgErr 8) :=
    touches_trans (touches_rsetBits w _ _ _ (by simp)) (touches_raise _ _ (by simp))
  have ws : w.stop = some rec := by rw [← hw]
  have key : stopCause s cause level inst status lost = (if s.stop.isSome ∨ s.cold ∨ devState s = dvFaulted ∨ devState s = dvDumped then y
      else if cause = 6 ∨ cause = 7 then w else raise (rsetBits w (pgErr + 0xC) 0 0 1) pgErr 8) := by
    unfold stopCause; dsimp only; rw [hy, hz, ← hw, hrec]
  have sz : z.stop = s.stop := (touches_field tz State.stop (fun _ _ _ _ _ _ => rfl)).trans ys
  have T1 : Touches [pgErr + 0x40, pgErr + 0xC, pgErr + 0x10] s { y with stop := s.stop } := by
    have : ({ y with stop := s.stop } : State) = y := by rw [← ys]
    rw [this]; exact ty
  have T2 : Touches [pgErr + 0x40, pgErr + 0xC, pgErr + 0x10] s { w with stop := s.stop } := by
    have : ({ w with stop := s.stop } : State) = z := by rw [← hw, ← sz]
    rw [this]; exact touches_trans ty tz
  rw [key]
  constructor
  · split
    · exact T1
    · split
      · exact T2
      · have h1 := tw.1
        have r := raise_frame (rsetBits w (pgErr + 0xC) 0 0 1) pgErr 8
        obtain ⟨ra, rm, rk, rg, re⟩ := r
        have t3 : Touches [pgErr + 0x40, pgErr + 0xC, pgErr + 0x10] { w with stop := s.stop } { raise (rsetBits w (pgErr + 0xC) 0 0 1) pgErr 8 with stop := s.stop } :=
          ⟨by rw [re]; rfl, tw.2⟩
        exact touches_trans T2 t3
  · intro h1 h2 h3 h4
    rw [if_neg (by simp [h1, h2, h3, h4])]
    split
    · rw [ws]; rfl
    · rw [raise_stop, rsetBits_stop, ws]; rfl

/-- What the power-off of a domain may change: channels, doorbells, interrupts. -/
def ChannelTouch (s t : State) : Prop :=
  { t with regs := s.regs, disarmed := s.disarmed, msix := s.msix, msixHeld := s.msixHeld, errLog := s.errLog, mbxq := s.mbxq } = s ∧
  ∀ a, 0x60000 ≤ a → a < 0x20000000 → a ≠ pgErr + 0x10 → a ≠ pgErr + 0x60 → rget t a = rget s a

theorem channelTouch_refl (s : State) : ChannelTouch s s := ⟨rfl, fun _ _ _ _ _ => rfl⟩

theorem channelTouch_trans {s t u : State} (h : ChannelTouch s t) (k : ChannelTouch t u) : ChannelTouch s u := by
  obtain ⟨h1, h2⟩ := h
  obtain ⟨k1, k2⟩ := k
  refine ⟨?_, fun a ha hb h3 h4 => (k2 a ha hb h3 h4).trans (h2 a ha hb h3 h4)⟩
  rw [← h1]
  rw [← k1] at h1 ⊢

theorem channelTouch_rset (s : State) {a : Nat} (v : Nat) (h : a < 0x60000 ∨ 0x20000000 ≤ a) : ChannelTouch s (rset s a v) :=
  ⟨rfl, fun _ _ _ _ _ => rget_rset_ne s v (by omega)⟩

theorem channelTouch_msix (s : State) (f v : Nat) : ChannelTouch s (msixSend s f v) := by
  obtain ⟨m, h, e⟩ := msixSend_frame s f v
  rw [e]; exact ⟨rfl, fun _ _ _ _ _ => rfl⟩

theorem channelTouch_raise (s : State) (pg e : Nat) (h : 0x20000000 ≤ pg) : ChannelTouch s (raise s pg e) := by
  refine ⟨?_, fun a ha hb h3 h4 => ?_⟩
  · obtain ⟨r, m, k, g, q⟩ := raise_frame s pg e; rw [q]
  · exact rget_raise_ne s pg e (by omega) h4 h3

theorem dblGroup_range {id a : Nat} (h : dblGroup id = some a) : a < 0x60000 ∨ 0x20000000 ≤ a := by
  unfold dblGroup at h
  split at h
  · left; have := Option.some.inj h; simp only [pgDbl] at this; omega
  · split at h
    · left; have := Option.some.inj h; simp only [pgDbl] at this; omega
    · split at h
      · left; have := Option.some.inj h; simp only [pgDbl] at this; omega
      · split at h
        · left; have := Option.some.inj h; simp only [pgDbl] at this; omega
        · split at h
          · right; have := Option.some.inj h; simp only [pgAmb, vfBase] at this; omega
          · cases h

theorem channelTouch_dblRing (s : State) (id c : Nat) : ChannelTouch s (dblRing s id c) := by
  unfold dblRing
  cases hg : dblGroup id with
  | none => exact channelTouch_refl s
  | some a =>
    have ha := dblGroup_range hg
    dsimp only
    have k := channelTouch_rset s (rget s a ||| 2 ^ (c % 32)) ha
    obtain ⟨t, ht⟩ : ∃ t, rset s a (rget s a ||| 2 ^ (c % 32)) = t := ⟨_, rfl⟩
    rw [ht] at k ⊢
    refine channelTouch_trans k ?_
    unfold dblSignal
    split
    · split
      · exact channelTouch_msix t 0 1
      · split
        · exact channelTouch_raise t _ _ (by unfold pgVfEvt vfBase; omega)
        · exact channelTouch_refl t
    · exact channelTouch_refl t

theorem channelTouch_mbxq (s : State) (c : Nat) (q : MbxQ) : ChannelTouch s (mbxqPut s c q) := ⟨rfl, fun _ _ _ _ _ => rfl⟩

theorem channelTouch_off (s : State) (id c : Nat) (hc : c < 64) : ChannelTouch s (channelOff s id c) := by
  have e : pgMbx c = 0x10000 + c * 0x1000 := rfl
  unfold channelOff
  split
  · exact channelTouch_refl s
  · split
    · split
      · exact channelTouch_refl s
      · exact channelTouch_trans (channelTouch_rset s _ (by omega)) (channelTouch_dblRing _ _ _)
    · dsimp only
      split
      · exact channelTouch_trans (channelTouch_mbxq s _ _) (channelTouch_rset _ _ (by omega))
      · exact channelTouch_trans (channelTouch_mbxq s _ _) (channelTouch_rset _ _ (by omega))

theorem channelTouch_all (s : State) (id : Nat) : ChannelTouch s (channelsOff s id) := by
  have h : ∀ (l : List Nat) (t : State), (∀ c ∈ l, c < 64) → ChannelTouch t (l.foldl (fun t c => channelOff t id c) t) := by
    intro l
    induction l with
    | nil => intro t _; exact channelTouch_refl t
    | cons c l ih => intro t hl; exact channelTouch_trans (channelTouch_off t id c (hl c (by simp))) (ih _ (fun d hd => hl d (by simp [hd])))
  exact h _ s (fun c hc => by simpa using hc)

theorem channelTouch_field {α : Type} {s t : State} (h : ChannelTouch s t) (f : State → α)
    (hf : ∀ (x : State) r d m k e q, f { x with regs := r, disarmed := d, msix := m, msixHeld := k, errLog := e, mbxq := q } = f x) : f t = f s := by
  have := congrArg f h.1
  rw [hf t s.regs s.disarmed s.msix s.msixHeld s.errLog s.mbxq] at this
  exact this

theorem thermalReq_le (s : State) (d : Nat) (h : d < 4) : rbits (thermalReq s) (pgPwr + 0x5C) 20 16 ≤ dieLevel (heatStep s d) := by
  unfold thermalReq
  rw [rbits_rsetBits_same _ _ 20 16 _ (by decide) (by decide)]
  have l : ∀ i, dieLevel (heatStep s i) ≤ 16 := by intro i; unfold dieLevel; split <;> (try split) <;> (try split) <;> omega
  have : (List.range 4).foldl (fun m d => min m (dieLevel (heatStep s d))) 16 =
      min (min (min (min 16 (dieLevel (heatStep s 0))) (dieLevel (heatStep s 1))) (dieLevel (heatStep s 2))) (dieLevel (heatStep s 3)) := rfl
  rw [this]
  have hm := Nat.mod_le (min (min (min (min 16 (dieLevel (heatStep s 0))) (dieLevel (heatStep s 1))) (dieLevel (heatStep s 2))) (dieLevel (heatStep s 3))) (2 ^ (20 + 1 - 16))
  have hd : d = 0 ∨ d = 1 ∨ d = 2 ∨ d = 3 := by omega
  rcases hd with h | h | h | h <;> (subst h; omega)

theorem touches_thermalReq (s : State) : Touches [pgPwr + 0x5C, pgPwr + 0x10] s (thermalReq s) := touches_rsetBits _ _ _ _ (by simp)

end Sys2Proof.Machine
end

