-- ==== Sys2Proof/Laws/Cells.lean ====
section
/-!
SUPPORT. Laws/Cells.lean: what the completion of a descriptor does (R79, R80, R88, R104, R106), once for every way it comes about.
-/

namespace Sys2Proof.Machine

/-- `Touches` up to cells, trace tails and streams chains with `Touches`. -/
theorem touches_cells {l : List Nat} {s a b : State} (h : Touches l s { a with cells := s.cells, traces := s.traces, streams := s.streams })
    (k : Touches l a b) : Touches l s { b with cells := s.cells, traces := s.traces, streams := s.streams } := by
  obtain ⟨h1, h2⟩ := h
  obtain ⟨k1, k2⟩ := k
  refine ⟨Eq.trans ?_ h1, fun x hx h3 h4 => (k2 x hx h3 h4).trans (h2 x hx h3 h4)⟩
  exact congrArg (fun t : State => { t with
    regs := s.regs, disarmed := s.disarmed, msix := s.msix, msixHeld := s.msixHeld, errLog := s.errLog,
    cells := s.cells, traces := s.traces, streams := s.streams }) k1

theorem touches_cells_eq {l : List Nat} {s a b : State} (h : Touches l s { a with cells := s.cells, traces := s.traces, streams := s.streams })
    (e : { b with cells := a.cells, traces := a.traces, streams := a.streams } = a) :
    Touches l s { b with cells := s.cells, traces := s.traces, streams := s.streams } := by
  refine Eq.mp (congrArg _ ?_) h
  exact congrArg (fun t : State => { t with cells := s.cells, traces := s.traces, streams := s.streams }) e.symm

theorem touches_semInc {l : List Nat} (s : State) (c n : Nat) (h : semAddr c n ∈ l) (k : pgCel c + 0x10 ∈ l) : Touches l s (semInc s c n) := by
  unfold semInc
  dsimp only
  split
  · exact touches_rset s _ h
  · exact touches_raise s _ k

@[simp] theorem semInc_cells (s : State) (c n : Nat) : (semInc s c n).cells = s.cells := by
  unfold semInc; dsimp only; split <;> simp

theorem semAddr_bounds (c n : Nat) (h : n < 64) : pgCel c + 0x100 ≤ semAddr c n ∧ semAddr c n < pgCel c + 0x200 := by
  unfold semAddr; omega

theorem pgCel_range (c : Nat) : 0x4000000 ≤ pgCel c := by unfold pgCel cellBase blockBase regionBase; omega

theorem rget_semInc (s : State) (c n : Nat) (h : n < 64) :
    rget (semInc s c n) (semAddr c n) = if rget s (semAddr c n) < 65535 then rget s (semAddr c n) + 1 else rget s (semAddr c n) := by
  have b := semAddr_bounds c n h
  have r := pgCel_range c
  have e : pgErr = 0x800000 := rfl
  unfold semInc
  dsimp only
  split
  · rename_i q; rw [rget_rset_same]; exact Nat.mod_eq_of_lt (by omega)
  · rw [rget_raise_ne _ _ _ (by omega) (by omega) (by omega)]

theorem touches_cellErrRecord {l : List Nat} (s : State) (c c0 c1 c2 c3 : Nat)
    (h : ∀ x ∈ [0x10, 0x20, 0x24, 0x28, 0x2C, 0x40], pgCelErr c + x ∈ l) : Touches l s (cellErrRecord s c c0 c1 c2 c3) :=
  touches_trans (touches_capture s c0 c1 c2 c3 (h _ (by decide)) (h _ (by decide)) (h _ (by decide)) (h _ (by decide)))
    (touches_trans (touches_bumpSat _ _ (h _ (by decide))) (touches_raise _ _ (h _ (by decide))))

@[simp] theorem cellErrRecord_cells (s : State) (c c0 c1 c2 c3 : Nat) : (cellErrRecord s c c0 c1 c2 c3).cells = s.cells := by
  unfold cellErrRecord; simp

theorem touches_recordFail {l : List Nat} (s : State) (c j i a : Nat) (d : List Byte) (st r dt : Nat)
    (h : ∀ x ∈ [0x10, 0x20, 0x24, 0x28, 0x2C, 0x40], pgCelErr c + x ∈ l) (k : pgCel c + 0x10 ∈ l) :
    Touches l s (recordFail s c j i a d st r dt) :=
  touches_trans (touches_raise s _ k) (touches_cellErrRecord _ _ _ _ _ _ h)

@[simp] theorem recordFail_cells (s : State) (c j i a : Nat) (d : List Byte) (st r dt : Nat) : (recordFail s c j i a d st r dt).cells = s.cells := by
  unfold recordFail; simp

theorem touches_stateFailed {l : List Nat} (s : State) (c : Nat) (d : List Byte) (dt : Nat) (h : pgState c + 0x10 ∈ l) (k : pgState c + 0x54 ∈ l) :
    Touches l s (stateFailed s c d dt) := by
  unfold stateFailed
  split
  · exact touches_trans (touches_bumpSat s _ k) (touches_raise _ _ h)
  · exact touches_refl l s

@[simp] theorem stateFailed_cells (s : State) (c : Nat) (d : List Byte) (dt : Nat) : (stateFailed s c d dt).cells = s.cells := by
  unfold stateFailed; split <;> simp

@[simp] theorem tracePut_cells (s : State) (c : Nat) (l : List TraceRec) : (tracePut s c l).cells = s.cells := rfl

theorem traceDone_frame (s : State) (c : Nat) (d : List Byte) (j i st : Nat) : ∃ x, traceDone s c d j i st = { s with traces := x } := by
  unfold traceDone; dsimp only; split <;> exact ⟨_, rfl⟩

/-- `doneRegs` without SIGNAL_SEM. -/
def doneRest (c : Nat) : List Nat :=
  [pgCel c + 0x10, pgCelErr c + 0x10, pgCelErr c + 0x20, pgCelErr c + 0x24, pgCelErr c + 0x28,
   pgCelErr c + 0x2C, pgCelErr c + 0x40, pgState c + 0x10, pgState c + 0x54]

theorem doneRegs_eq (c : Nat) (d : List Byte) : doneRegs c d = semAddr c (dSignal d) :: doneRest c := rfl

theorem sem_not_doneRest (c n : Nat) (h : n < 64) : semAddr c n ∉ doneRest c := by
  have b := semAddr_bounds c n h
  have e1 : pgCelErr c = pgCel c + 0x8000 := rfl
  have e2 : pgState c = pgCel c + 0x5000 := rfl
  simp only [doneRest, List.mem_cons, List.not_mem_nil, or_false]
  omega

theorem sem_not_err (c n : Nat) (h : n < 64) : semAddr c n ≠ pgErr + 0x10 ∧ semAddr c n ≠ pgErr + 0x60 := by
  have b := semAddr_bounds c n h
  have r := pgCel_range c
  have e : pgErr = 0x800000 := rfl
  omega

theorem doneRest_err (c : Nat) : ∀ x ∈ [0x10, 0x20, 0x24, 0x28, 0x2C, 0x40], pgCelErr c + x ∈ doneRest c := by
  intro x hx
  simp only [List.mem_cons, List.not_mem_nil, or_false] at hx
  rcases hx with h | h | h | h | h | h <;> subst h <;> simp [doneRest]

/-- The jig after the end of one of its descriptors. -/
def jigAfter (jr : JigRun) (idx : Nat) (d : List Byte) (status : Nat) : JigRun :=
  if status = stOk then jr
  else { noteBad jr idx status with trap := jr.trap || dTrap d, halt := jr.halt || decide (dOp d = 0x15) }

/-- A completion but for its SIGNAL_SEM. -/
theorem descDone_unfold (s : State) (c : Nat) (jr : JigRun) (idx addr : Nat) (d : List Byte) (status reason detail : Nat) :
    ∃ t : State, descDone s c jr idx addr d status reason detail = (if dSignal d < 64 then semInc t c (dSignal d) else t) ∧
      t.cells = (setJr s c (jigAfter jr idx d status)).cells ∧
      Touches (doneRest c) s { t with cells := s.cells, traces := s.traces, streams := s.streams } := by
  obtain ⟨x, hx⟩ := traceDone_frame s c d jr.jig.id idx status
  by_cases h : status = stOk
  · refine ⟨setJr (traceDone s c d jr.jig.id idx status) c jr, ?_, ?_, ?_⟩
    · unfold descDone; dsimp only; rw [if_pos h]
    · rw [hx, jigAfter, if_pos h]; rfl
    · rw [hx]; exact touches_refl _ _
  · refine ⟨recordFail (stateFailed (setJr (if dOp d = 0x15 then streamAbort (traceDone s c d jr.jig.id idx status) c
        else traceDone s c d jr.jig.id idx status) c { noteBad jr idx status with
        trap := jr.trap || dTrap d, halt := jr.halt || decide (dOp d = 0x15) }) c d detail) c jr.jig.id idx addr d status reason detail, ?_, ?_, ?_⟩
    · unfold descDone; dsimp only; rw [if_neg h]
    · rw [hx, recordFail_cells, stateFailed_cells, jigAfter, if_neg h]; split <;> rfl
    · refine touches_cells ?_ (touches_trans (touches_stateFailed _ c d detail (by simp [doneRest]) (by simp [doneRest]))
        (touches_recordFail _ _ _ _ _ _ _ _ _ (doneRest_err c) (by simp [doneRest])))
      rw [hx]; split <;> exact touches_refl _ _

/-- R80, R104: what a completion does. -/
theorem descDone_spec (s : State) (c : Nat) (jr : JigRun) (idx addr : Nat) (d : List Byte) (status reason detail : Nat) (l : List Nat) :
    let u := descDone s c jr idx addr d status reason detail
    cellGet u c = (cellGet s c).withRun (jigAfter jr idx d status) ∧ (∀ e, e ≠ c → cellGet u e = cellGet s e) ∧
    (dSignal d < 64 → rget u (semAddr c (dSignal d)) =
      if rget s (semAddr c (dSignal d)) < 65535 then rget s (semAddr c (dSignal d)) + 1 else rget s (semAddr c (dSignal d))) ∧
    Touches (doneRegs c d ++ l) s { u with cells := s.cells, traces := s.traces, streams := s.streams } := by
  obtain ⟨t, ht, hc, hf⟩ := descDone_unfold s c jr idx addr d status reason detail
  have hcells : (descDone s c jr idx addr d status reason detail).cells = (setJr s c (jigAfter jr idx d status)).cells := by
    rw [ht, ← hc]; split
    · exact semInc_cells _ _ _
    · rfl
  have hm : ∀ a, a ∈ doneRest c → a ∈ doneRegs c d ++ l := fun a h => by rw [doneRegs_eq]; simp [h]
  refine ⟨?_, ?_, ?_, ?_⟩
  · rw [cellGet_congr hcells, cellGet_setJr_same]; rfl
  · intro e he; rw [cellGet_congr hcells]; exact cellGet_cellPut_ne _ _ he
  · intro hd
    rw [ht, if_pos hd, rget_semInc _ _ _ hd]
    have q := hf.2 (semAddr c (dSignal d)) (sem_not_doneRest _ _ hd) (sem_not_err _ _ hd).1 (sem_not_err _ _ hd).2
    have q' : rget t (semAddr c (dSignal d)) = rget s (semAddr c (dSignal d)) := q
    rw [q']
  · rw [ht]; split
    · exact touches_cells (touches_mono hf hm) (touches_semInc _ _ _ (by rw [doneRegs_eq]; simp) (by rw [doneRegs_eq]; simp [doneRest]))
    · exact touches_mono hf hm

theorem jigAfter_issued (jr : JigRun) (idx : Nat) (d : List Byte) (st : Nat) : (jigAfter jr idx d st).issued = jr.issued := by
  unfold jigAfter; split <;> rfl

theorem jigAfter_fields (jr : JigRun) (idx : Nat) (d : List Byte) (st : Nat) :
    (jigAfter jr idx d st).jig = jr.jig ∧ (jigAfter jr idx d st).fetched = jr.fetched ∧ (jigAfter jr idx d st).nextIssue = jr.nextIssue ∧
    (jigAfter jr idx d st).failed = jr.failed + b2n (st != 0) ∧ (jigAfter jr idx d st).trap = (jr.trap || (st != 0 && dTrap d)) := by
  unfold jigAfter
  have e : stOk = 0 := rfl
  by_cases h : st = 0
  · rw [if_pos (by rw [h, e])]; simp [h, b2n]
  · rw [if_neg (by rw [e]; exact h)]; have hb : (st != 0) = true := by simpa using h
    simp [hb, b2n, noteBad]

theorem map_idx_filter (f : RunDesc → RunDesc) (hf : ∀ q, (f q).idx = q.idx) (k : Nat) : ∀ l : List RunDesc,
    ((l.filter (fun q => q.idx != k)).map f).map (fun q => q.idx) = (l.map (fun q => q.idx)).filter (fun i => i != k)
  | [] => rfl
  | q :: t => by
    have ih := map_idx_filter f hf k t
    simp only [List.filter_cons, List.map_cons]
    split
    · simp only [List.map_cons, hf, ih]
    · exact ih

/-- R88: what the completion of an issued descriptor does. -/
theorem completeIdx_spec (s : State) (c idx : Nat) (jr : JigRun) (r : RunDesc) (l : List Nat) (h : (cellGet s c).run = some jr)
    (hr : jr.issued.find? (fun q => q.idx == idx) = some r) : Completed s (completeIdx s c idx) c jr r r.status l := by
  have hi : r.idx = idx := by simpa using List.find?_some hr
  unfold completeIdx
  rw [h]
  dsimp only
  rw [hr]
  dsimp only
  obtain ⟨h1, h2, h3, h4⟩ := descDone_spec s c { jr with
        issued := (jr.issued.filter (fun q => q.idx != idx)).map (fun q =>
          if q.idx = idx + 1 ∧ dDtOut r.desc = true ∧ dDtIn q.desc = true then { q with dtStatus := r.status } else q)
        prev := match jr.prev with
          | some (p, st) => some (p, if idx + 1 = jr.nextIssue then r.status else st)
          | none => none } idx r.addr r.desc r.status r.reason r.detail l
  refine ⟨⟨_, h1, ?_⟩, h2, h3, h4⟩
  obtain ⟨f1, f2, f3, f4, f5⟩ := jigAfter_fields { jr with
        issued := (jr.issued.filter (fun q => q.idx != idx)).map (fun q =>
          if q.idx = idx + 1 ∧ dDtOut r.desc = true ∧ dDtIn q.desc = true then { q with dtStatus := r.status } else q)
        prev := match jr.prev with
          | some (p, st) => some (p, if idx + 1 = jr.nextIssue then r.status else st)
          | none => none } idx r.desc r.status
  refine ⟨f1, f2, f3, ?_, f4, f5⟩
  rw [jigAfter_issued, hi]
  exact map_idx_filter _ (fun q => by split <;> rfl) idx jr.issued

/-- A completion after a change of registers, or of the running jig's own records. -/
theorem completed_of_touches {s s1 u : State} {c : Nat} {jr jr1 : JigRun} {r r1 : RunDesc} {st : Nat} {l : List Nat}
    (h : Completed s1 u c jr1 r1 st l) (ht : Touches l s { s1 with cells := s.cells, traces := s.traces, streams := s.streams })
    (hn : dSignal r.desc < 64 → semAddr c (dSignal r.desc) ∉ l) (hc : (cellGet s1 c).withRun = (cellGet s c).withRun)
    (he : ∀ e, e ≠ c → cellGet s1 e = cellGet s e)
    (hj : jr1.jig = jr.jig ∧ jr1.fetched = jr.fetched ∧ jr1.nextIssue = jr.nextIssue ∧ jr1.failed = jr.failed ∧ jr1.trap = jr.trap ∧
      jr1.issued.map (fun q => q.idx) = jr.issued.map (fun q => q.idx))
    (hr : r1.idx = r.idx ∧ r1.desc = r.desc) : Completed s u c jr r st l := by
  obtain ⟨⟨j, a1, a2, a3, a4, a5, a6, a7⟩, b, d, f⟩ := h
  obtain ⟨i1, i2, i3, i4, i5, i6⟩ := hj
  obtain ⟨q1, q2⟩ := hr
  rw [q2] at d f a7
  refine ⟨⟨j, a1.trans (congrFun hc j), a2.trans i1, a3.trans i2, a4.trans i3, ?_, ?_, ?_⟩, fun e h => (b e h).trans (he e h), fun hd => ?_, ?_⟩
  · rw [a5, i6, q1]
  · rw [a6, i4]
  · rw [a7, i5]
  · have k : rget s1 (semAddr c (dSignal r.desc)) = rget s (semAddr c (dSignal r.desc)) :=
      ht.2 _ (hn hd) (sem_not_err _ _ hd).1 (sem_not_err _ _ hd).2
    rw [d hd, k]
  · have m : Touches (doneRegs c r.desc ++ l) s { s1 with cells := s.cells, traces := s.traces, streams := s.streams } :=
      touches_mono ht (fun a h => List.mem_append_right _ h)
    obtain ⟨f1, f2⟩ := f
    refine ⟨Eq.trans ?_ m.1, fun x hx h3 h4 => (f2 x hx h3 h4).trans (m.2 x hx h3 h4)⟩
    exact congrArg (fun t : State => { t with
      regs := s.regs, disarmed := s.disarmed, msix := s.msix, msixHeld := s.msixHeld, errLog := s.errLog,
      cells := s.cells, traces := s.traces, streams := s.streams }) f1

theorem updIssued_cells_only (s : State) (c idx : Nat) (f : RunDesc → RunDesc) : { updIssued s c idx f with cells := s.cells } = s := by
  unfold updIssued; split <;> rfl

theorem updIssued_cell (s : State) (c idx : Nat) (f : RunDesc → RunDesc) (jr : JigRun) (h : (cellGet s c).run = some jr) :
    cellGet (updIssued s c idx f) c = (cellGet s c).withRun { jr with issued := jr.issued.map (fun r => if r.idx = idx then f r else r) } := by
  unfold updIssued; rw [h]; exact cellGet_setJr_same _ _ _

theorem updIssued_ne (s : State) (c idx : Nat) (f : RunDesc → RunDesc) (e : Nat) (h : e ≠ c) : cellGet (updIssued s c idx f) e = cellGet s e := by
  unfold updIssued; split
  · rfl
  · exact cellGet_cellPut_ne _ _ h

theorem find_map_idx (f : RunDesc → RunDesc) (hf : ∀ q, (f q).idx = q.idx) (idx : Nat) : ∀ (l : List RunDesc) (r : RunDesc),
    l.find? (fun q => q.idx == idx) = some r →
    (l.map (fun q => if q.idx = idx then f q else q)).find? (fun q => q.idx == idx) = some (f r)
  | [], r, h => by cases h
  | q :: t, r, h => by
    by_cases e : q.idx = idx
    · simp only [List.find?_cons, e, beq_self_eq_true] at h
      cases h
      simp [e, hf]
    · have e' : (q.idx == idx) = false := by simpa using e
      simp only [List.find?_cons, e'] at h
      have ih := find_map_idx f hf idx t r h
      simp only [List.map_cons, if_neg e, List.find?_cons, e', ih]

theorem map_idx_upd (f : RunDesc → RunDesc) (hf : ∀ q, (f q).idx = q.idx) (idx : Nat) (l : List RunDesc) :
    (l.map (fun q => if q.idx = idx then f q else q)).map (fun q => q.idx) = l.map (fun q => q.idx) := by
  induction l with
  | nil => rfl
  | cons q t ih =>
    simp only [List.map_cons, ih]
    split
    · rw [hf]
    · rfl

/-- R79, R82, R88: a waiting or running descriptor ends with a status of its own. -/
theorem endWith_spec (s : State) (c : Nat) (jr : JigRun) (r : RunDesc) (st rs dt : Nat) (l : List Nat) (h : (cellGet s c).run = some jr)
    (hr : jr.issued.find? (fun q => q.idx == r.idx) = some r) (hs : dSignal r.desc < 64 → semAddr c (dSignal r.desc) ∉ l) :
    Completed s (endWith s c r.idx st rs dt) c jr r st l := by
  let f : RunDesc → RunDesc := fun q => { q with phase := .ran, status := st, reason := rs, detail := dt }
  have h1 := updIssued_cell s c r.idx f jr h
  have h2 := find_map_idx f (fun _ => rfl) r.idx _ _ hr
  have h3 := completeIdx_spec (updIssued s c r.idx f) c r.idx _ (f r) l (by rw [h1]; rfl) h2
  refine completed_of_touches h3 ?_ hs ?_ (updIssued_ne _ _ _ _) ⟨rfl, rfl, rfl, rfl, rfl, map_idx_upd f (fun _ => rfl) _ _⟩ ⟨rfl, rfl⟩
  · have := congrArg (fun t : State => { t with traces := s.traces, streams := s.streams }) (updIssued_cells_only s c r.idx f)
    refine Eq.mp (congrArg _ this.symm) (touches_refl _ _)
  · rw [h1]; rfl

theorem find_self {l : List RunDesc} {p : RunDesc → Bool} {r : RunDesc} (h : l.find? p = some r) (hd : (l.map (fun q => q.idx)).Nodup) :
    l.find? (fun q => q.idx == r.idx) = some r := by
  have hm := List.mem_of_find?_eq_some h
  induction l with
  | nil => cases hm
  | cons q t ih =>
    simp only [List.map_cons, List.nodup_cons] at hd
    rcases List.mem_cons.mp hm with e | e
    · subst e; simp
    · have hne : (q.idx == r.idx) = false := by
        have : r.idx ∈ t.map (fun q => q.idx) := List.mem_map.mpr ⟨r, e, rfl⟩
        have hq : q.idx ≠ r.idx := fun x => hd.1 (x ▸ this)
        simpa using hq
      rw [List.find?_cons, hne]
      rw [List.find?_cons] at h
      by_cases hp : p q = true
      · rw [hp] at h; cases h; simp at hne
      · have hp' : p q = false := by simpa using hp
        rw [hp'] at h
        exact ih h hd.2 e

/-! ### Fetch, settling and the end of a jig (R76, R79, R104) -/

/-- A cell may fetch for its running jig. -/
def mayFetch (s : State) (c : Nat) (jr : JigRun) : Prop :=
  (cellGet s c).run = some jr ∧ (cellGet s c).mode = .normal ∧ s.stop = none ∧ jr.sawLast = false ∧ jr.stop = 0 ∧ jr.trap = false ∧
  jr.halt = false ∧ jr.fetched.length < 4

theorem fetchOne_eq {s : State} {c : Nat} {jr : JigRun} (h : mayFetch s c jr) : fetchOne s c =
    if 16384 ≤ jr.nextFetch then setJr s c { jr with stop := rNoLast }
    else if scratchBytes s c < jr.jig.start + 64 * jr.nextFetch + 64 then setJr s c { jr with stop := rBadJig }
    else match firstBad s.mems .slice (sliceA c (jr.jig.start + 64 * jr.nextFetch)) 64 with
      | some u => setJr (noteUe s .slice u) c { jr with stop := rEccUncorr }
      | none => setJr s c { jr with
          fetched := jr.fetched ++ [crd s .slice c (jr.jig.start + 64 * jr.nextFetch) 64], nextFetch := jr.nextFetch + 1,
          sawLast := dLast (crd s .slice c (jr.jig.start + 64 * jr.nextFetch) 64) } := by
  obtain ⟨h1, h2, h3, h4, h5, h6, h7, h8⟩ := h
  have k : ((cellGet s c).mode != .normal || s.stop.isSome || jr.sawLast || jr.stop != 0 || jr.trap || jr.halt ||
      decide (4 ≤ jr.fetched.length)) = false := by
    rw [h2, h3, h4, h5, h6, h7]
    have : decide (4 ≤ jr.fetched.length) = false := by simpa using h8
    rw [this]; rfl
  unfold fetchOne
  rw [h1]
  dsimp only
  rw [k, if_neg Bool.false_ne_true]
  all_goals rfl

theorem fetchOne_stopped {s : State} {c : Nat} {jr : JigRun} (h : (cellGet s c).run = some jr) (hs : jr.stop ≠ 0) : fetchOne s c = s := by
  have k : ((cellGet s c).mode != .normal || s.stop.isSome || jr.sawLast || jr.stop != 0 || jr.trap || jr.halt ||
      decide (4 ≤ jr.fetched.length)) = true := by
    have : (jr.stop != 0) = true := by simpa using hs
    rw [this]; simp
  unfold fetchOne
  rw [h]
  dsimp only
  rw [k, if_pos rfl]

theorem settle_empty (c n : Nat) (s : State) (jr : JigRun) (h : (cellGet s c).run = some jr) (hf : jr.fetched = []) : settle c n s = s := by
  cases n with
  | zero => rfl
  | succ n => unfold settle; rw [h]; dsimp only; rw [hf]; split <;> rfl

theorem settle_good (c n : Nat) (s : State) (jr : JigRun) (d : List Byte) (l : List (List Byte)) (h : (cellGet s c).run = some jr)
    (hf : jr.fetched = d :: l) (hp : passedStatus jr d = 0) (hh : firstFail (headerChecks (requireBound s c) d) = none) : settle c n s = s := by
  cases n with
  | zero => rfl
  | succ n =>
    unfold settle; rw [h]; dsimp only; rw [hf]; dsimp only
    split
    · rfl
    · rw [if_neg (fun k => k hp), hh]

theorem jigMaybeEnd_stay (s : State) (c : Nat) (jr : JigRun) (h : (cellGet s c).run = some jr) (hf : jr.fetched ≠ []) (ht : jr.trap = false)
    (hh : jr.halt = false) : jigMaybeEnd s c = s := by
  have k : jr.fetched.isEmpty = false := by cases e : jr.fetched with
    | nil => exact absurd e hf
    | cons a b => rfl
  have o : jigOver jr = false := by unfold jigOver; rw [ht, hh, k]; simp
  unfold jigMaybeEnd
  rw [h]
  dsimp only
  rw [o, if_neg Bool.false_ne_true]

/-- R78: the start of the next jig of an idle cell, before its first fetch. -/
theorem jigStart_eq {s : State} {c : Nat} {j : Jig} {l : List Jig} (hm : (cellGet s c).mode = .normal) (hr : (cellGet s c).run = none)
    (hq : (cellGet s c).queue = j :: l) : jigStart s c = settleEnd (fetchOne (cellPut s c ((cellGet s c).withRun
      ⟨j, [], 0, 0, if (j.start % 64 == 0 && decide (j.start + 64 ≤ scratchBytes s c)) = true then 0 else rBadJig, false, [], 0, none, s.now,
        none, false, false, none, []⟩)) c) c := by
  unfold jigStart Cell.withRun
  dsimp only
  simp only [hm, hr, hq]

@[simp] theorem withRun_run (x : Cell) (jr : JigRun) : (x.withRun jr).run = some jr := rfl

theorem setJr_withRun (s : State) (c : Nat) (x : Cell) (a b : JigRun) :
    setJr (cellPut s c (x.withRun a)) c b = cellPut s c (x.withRun b) := by
  have h : x.withRun a ≠ cellInit := by intro e; have := congrArg Cell.run e; cases this
  unfold setJr
  rw [cellGet_cellPut_same]
  unfold cellPut
  dsimp only
  rw [tabPut_tabPut _ _ _ _ h]
  rfl

/-- The registers that the end of a jig may change. -/
def endRegs (c : Nat) : List Nat :=
  [pgJq c + 0x50, pgJq c + 0x4C, pgCel c + 0x10] ++ [0x10, 0x20, 0x24, 0x28, 0x2C, 0x40].map (pgCelErr c + ·)

theorem jigResult_eq (s : State) (c : Nat) (jr : JigRun) : jigResult s c jr = raise (bumpWrap (rset
    (if (decide (jr.stop = 0) || jr.trap || jr.halt) = true then s
    else cellErrRecord s c jr.stop (jr.jig.start + 64 * jr.nextFetch) (jr.jig.id + jr.nextFetch * 2 ^ 16) (reasonStatus jr.stop))
    (pgJq c + 0x50) (jigStatus jr + min jr.failed 255 * 2 ^ 8 + jr.jig.id * 2 ^ 16)) (pgJq c + 0x4C) 1) (pgCel c) 1 := rfl

theorem touches_jigResult (s : State) (c : Nat) (jr : JigRun) : Touches (endRegs c) s (jigResult s c jr) := by
  rw [jigResult_eq]
  refine touches_trans (t := if (jr.stop = 0 || jr.trap || jr.halt) = true then s else _) ?_
    (touches_trans (touches_rset _ _ (by simp [endRegs])) (touches_trans (touches_bumpWrap _ _ (by simp [endRegs]))
      (touches_raise _ _ (by simp [endRegs]))))
  split
  · exact touches_refl _ _
  · refine touches_cellErrRecord s c _ _ _ _ (fun x hx => ?_)
    simp only [List.mem_cons, List.not_mem_nil, or_false] at hx
    rcases hx with h | h | h | h | h | h <;> subst h <;> simp [endRegs]

@[simp] theorem jigResult_cells (s : State) (c : Nat) (jr : JigRun) : (jigResult s c jr).cells = s.cells := by
  rw [jigResult_eq]
  rw [raise_cells, bumpWrap_cells, rset_cells]
  split
  · rfl
  · rw [cellErrRecord_cells]

@[simp] theorem jigResult_notices (s : State) (c : Nat) (jr : JigRun) : (jigResult s c jr).notices = s.notices := by
  rw [jigResult_eq]
  rw [raise_notices, bumpWrap_notices, rset_notices]
  split
  · rfl
  · unfold cellErrRecord; rw [raise_notices, bumpSat_notices, capture_notices]

/-- R79, R109: CEL_JQ_LAST and CEL_JQ_DONE after the end of a jig. -/
theorem jigResult_regs (s : State) (c : Nat) (jr : JigRun) :
    rget (jigResult s c jr) (pgJq c + 0x50) = (jigStatus jr + min jr.failed 255 * 2 ^ 8 + jr.jig.id * 2 ^ 16) % 2 ^ 32 ∧
    rget (jigResult s c jr) (pgJq c + 0x4C) = (rget s (pgJq c + 0x4C) + 1) % 2 ^ 32 := by
  have e1 : pgCelErr c = pgCel c + 0x8000 := rfl
  have e2 : pgJq c = pgCel c + 0x1000 := rfl
  have e3 := pgCel_range c
  have e4 : pgErr = 0x800000 := rfl
  rw [jigResult_eq]
  unfold bumpWrap
  constructor
  · rw [rget_raise_ne _ _ _ (by omega) (by omega) (by omega), rget_rset_ne _ _ (by omega), rget_rset_same]
  · rw [rget_raise_ne _ _ _ (by omega) (by omega) (by omega), rget_rset_same, rget_rset_ne _ _ (by omega)]
    congr 2
    split
    · rfl
    · exact (touches_cellErrRecord (l := [0x10, 0x20, 0x24, 0x28, 0x2C, 0x40].map (pgCelErr c + ·)) s c _ _ _ _
        (fun x hx => List.mem_map.mpr ⟨x, hx, rfl⟩)).2 _ (by simp; omega) (by omega) (by omega)

theorem jigMaybeEnd_over {s : State} {c : Nat} {jr : JigRun} (h : (cellGet s c).run = some jr) (ho : jigOver jr = true) :
    jigMaybeEnd s c = jigSkipped (jigLeave (jigResult s c jr) c jr) c jr := by
  unfold jigMaybeEnd; rw [h]; dsimp only; rw [if_pos ho]

theorem jigSkipped_none (s : State) (c : Nat) (jr : JigRun) (ht : jr.trap = false) (hh : jr.halt = false) : jigSkipped s c jr = s := by
  unfold jigSkipped; rw [ht, hh]; simp

theorem jigLeave_regs (s : State) (c : Nat) (jr : JigRun) : (jigLeave s c jr).regs = s.regs := rfl

theorem jigLeave_cells (s : State) (c : Nat) (jr : JigRun) : (jigLeave s c jr).cells = (cellPut s c { cellGet s c with
    run := none, queue := (cellGet s c).queue.drop 1, mode := if jr.trap then .trapped else (cellGet s c).mode }).cells := rfl

theorem jigLeave_notices (s : State) (c : Nat) (jr : JigRun) :
    (jigLeave s c jr).notices = s.notices ++ [⟨c, jr.jig.pusher, jr.jig.id, jr.failed, jigStatus jr⟩] := rfl

theorem jigLeave_rest (s t : State) (c : Nat) (jr : JigRun) :
    ({ jigLeave t c jr with cells := s.cells, notices := s.notices } : State) = { t with cells := s.cells, notices := s.notices } := rfl

theorem touches_jigLeave {l : List Nat} {s t u : State} {c : Nat} {jr : JigRun} (hu : u = jigLeave t c jr) (hT : Touches l s t)
    (hC : t.cells = s.cells) (hN : t.notices = s.notices) : Touches l s { u with cells := s.cells, notices := s.notices } := by
  have e : ({ t with cells := s.cells, notices := s.notices } : State) = t := by rw [← hC, ← hN]
  rw [hu, jigLeave_rest, e]
  exact hT

theorem jigLeave_spec {s t u : State} {c : Nat} {jr : JigRun} (hu : u = jigLeave t c jr) (hC : t.cells = s.cells) (ht : jr.trap = false) :
    cellGet u c = { cellGet s c with run := none, queue := (cellGet s c).queue.drop 1 } ∧ (∀ e, e ≠ c → cellGet u e = cellGet s e) := by
  have hcl : ∀ e, cellGet t e = cellGet s e := cellGet_congr hC
  have hc : u.cells = _ := (congrArg State.cells hu).trans (jigLeave_cells t c jr)
  constructor
  · rw [cellGet_congr hc, cellGet_cellPut_same, hcl, ht, if_neg Bool.false_ne_true]
  · intro e he; rw [cellGet_congr hc, cellGet_cellPut_ne _ _ he, hcl]

/-- R79: the end of a jig without a trap. -/
theorem jigMaybeEnd_spec {s u : State} {c : Nat} {jr : JigRun} (h : (cellGet s c).run = some jr) (ho : jigOver jr = true) (ht : jr.trap = false)
    (hh : jr.halt = false) (hv : u = jigMaybeEnd s c) :
    (cellGet u c = { cellGet s c with run := none, queue := (cellGet s c).queue.drop 1 } ∧ (∀ e, e ≠ c → cellGet u e = cellGet s e)) ∧
    u.notices = s.notices ++ [⟨c, jr.jig.pusher, jr.jig.id, jr.failed, jigStatus jr⟩] ∧
    rget u (pgJq c + 0x50) = (jigStatus jr + min jr.failed 255 * 2 ^ 8 + jr.jig.id * 2 ^ 16) % 2 ^ 32 ∧
    rget u (pgJq c + 0x4C) = (rget s (pgJq c + 0x4C) + 1) % 2 ^ 32 ∧ Touches (endRegs c) s { u with cells := s.cells, notices := s.notices } := by
  have hu : u = jigLeave (jigResult s c jr) c jr := hv.trans ((jigMaybeEnd_over h ho).trans (jigSkipped_none _ _ _ ht hh))
  have hr : u.regs = (jigResult s c jr).regs := (congrArg State.regs hu).trans (jigLeave_regs _ _ _)
  refine ⟨jigLeave_spec hu (jigResult_cells s c jr) ht, ?_, ?_, ?_, touches_jigLeave hu (touches_jigResult s c jr) (jigResult_cells s c jr) (jigResult_notices s c jr)⟩
  · rw [hu, jigLeave_notices, jigResult_notices]
  · rw [rget_congr hr]; exact (jigResult_regs s c jr).1
  · rw [rget_congr hr]; exact (jigResult_regs s c jr).2

end Sys2Proof.Machine
end

