-- ==== Sys2Proof/Laws/Tiers.lean ====
section
/-!
SUPPORT. Laws/Tiers.lean: what follows at rest, weir commits, folds, notices of a hot stack (R284, R296, R298).
-/

namespace Sys2Proof.Machine

theorem foldl_id {α β : Type} (f : α → β → α) (l : List β) (a : α) (h : ∀ b ∈ l, f a b = a) : l.foldl f a = a := by
  induction l with
  | nil => rfl
  | cons b l ih => rw [List.foldl_cons, h b (by simp)]; exact ih (fun c hc => h c (by simp [hc]))

/-- What each step of a fold keeps, the fold keeps. -/
theorem foldl_field {α β γ : Type} (g : α → γ) (f : α → β → α) (h : ∀ a b, g (f a b) = g a) (l : List β) (a : α) : g (l.foldl f a) = g a := by
  induction l generalizing a with
  | nil => rfl
  | cons b l ih => rw [List.foldl_cons, ih, h]

theorem settle_none (c n : Nat) (s : State) (h : (cellGet s c).run = none) : settle c n s = s := by
  cases n with
  | zero => rfl
  | succ n => unfold settle; rw [h]

theorem settleEnd_none (c : Nat) (s : State) (h : (cellGet s c).run = none) : settleEnd s c = s := by
  unfold settleEnd; rw [settle_none c 5 s h]; unfold jigMaybeEnd; rw [h]

theorem quiesce_rest {s : State} (h1 : ∀ e ∈ s.cells, (cellGet s e.1).run = none) : quiesce s = s := by
  unfold quiesce
  refine foldl_id _ _ _ (fun c hc => ?_)
  obtain ⟨e, he, rfl⟩ := List.mem_map.mp hc
  have hr := h1 e he
  have p : ∀ fuel, pump e.1 fuel s = s := by
    intro fuel
    cases fuel with
    | zero => rfl
    | succ n =>
      unfold pump
      have : startable s e.1 = none := by unfold startable; rw [hr]
      rw [this]
  split
  · rw [p, settleEnd_none _ _ hr]
  · rfl

theorem after_rest {s : State} (h : AtRest s) : after s = s := by
  obtain ⟨h1, h2, h3, h4⟩ := h
  unfold after
  show deliver (3 + 1) s = s
  unfold deliver
  dsimp only
  rw [quiesce_rest h1, h2, h3]
  simp only [List.foldl_nil, List.isEmpty_nil, Bool.and_self, if_true]
  have e : ({ s with notices := [], bargeNotices := [] } : State) = s := by rw [← h2, ← h3]
  rw [e, h4]; rfl

/-- A weir commit writes the active values of the group and limits the credits. -/
theorem commit_fold (s : State) (group : Nat → Nat) (so ao : Nat) : ∀ (l : List Nat) (t : State), l.Nodup →
    (∀ p ∈ l, ∀ q ∈ l, p ≠ q → group p + ao ≠ group q + ao) →
    let r := l.foldl (fun t p => creditLimit (rset t (group p + ao) (rget s (group p + so))) (group p) (rget s (group p + so))) t
    (∀ p ∈ l, rget r (group p + ao) = rget s (group p + so)) ∧ (∀ a, (∀ p ∈ l, a ≠ group p + ao) → rget r a = rget t a) ∧
    { r with regs := t.regs, credit := t.credit } = t := by
  intro l
  induction l with
  | nil => intro t _ _; exact ⟨fun p hp => (by cases hp), fun _ _ => rfl, rfl⟩
  | cons i l ih =>
    intro t hn hd
    obtain ⟨u, hu⟩ : ∃ u, creditLimit (rset t (group i + ao) (rget s (group i + so))) (group i) (rget s (group i + so)) = u := ⟨_, rfl⟩
    have hni : i ∉ l := (List.nodup_cons.mp hn).1
    obtain ⟨a1, a2, a3⟩ := ih u (List.nodup_cons.mp hn).2 (fun p hp q hq => hd p (by simp [hp]) q (by simp [hq]))
    have ur : u.regs = (rset t (group i + ao) (rget s (group i + so))).regs := by
      rw [← hu]; unfold creditLimit; split <;> rfl
    have uf : { u with regs := t.regs, credit := t.credit } = t := by
      rw [← hu]; unfold creditLimit; split <;> rfl
    simp only [List.foldl_cons]
    rw [hu]
    refine ⟨fun p hp => ?_, fun a ha => ?_, ?_⟩
    · rcases List.mem_cons.mp hp with e | e
      · subst e
        rw [a2 _ (fun q hq => hd p (by simp) q (by simp [hq]) (fun x => hni (x ▸ hq))), rget_congr ur, rget_rset_same]
        exact Nat.mod_eq_of_lt (rget_lt s _)
      · exact a1 p e
    · rw [a2 a (fun p hp => ha p (by simp [hp])), rget_congr ur, rget_rset_ne _ _ (ha i (by simp))]
    · exact (congrArg (fun z : State => { z with regs := t.regs, credit := t.credit }) a3).trans uf

theorem weirCommit_not {s : State} {group : Nat → Nat} {so ao : Nat} {u : Bool} {l : List Nat} (hl : (List.range 1024).map (fun p => rget s (group p + so)) = l)
    (h : weirVerdict l u ≠ stOk) : weirCommit s group so ao u = (s, weirVerdict l u, l) := by
  unfold weirCommit; dsimp only
  rw [hl]
  obtain ⟨v, hv⟩ : ∃ v, weirVerdict l u = v := ⟨_, rfl⟩
  rw [hv] at h ⊢
  cases v with
  | zero => exact absurd rfl h
  | succ n => rfl

theorem weirCommit_ok {s : State} {group : Nat → Nat} {so ao : Nat} {u : Bool} {l m : List Nat} (hl : (List.range 1024).map (fun p => rget s (group p + so)) = l)
    (hm : List.range 1024 = m) (h : weirVerdict l u = stOk) :
    weirCommit s group so ao u = (m.foldl (fun t p =>
      creditLimit (rset t (group p + ao) (rget s (group p + so))) (group p) (rget s (group p + so))) s, stOk, l) := by
  unfold weirCommit; dsimp only
  rw [hl, hm, h]; rfl

/-- What a weir commit gives, in either outcome. -/
theorem weirCommit_spec (s : State) (group : Nat → Nat) (so ao : Nat) (u : Bool) (hd : ∀ p < 1024, ∀ q < 1024, p ≠ q → group p ≠ group q) :
    let staged := (List.range 1024).map (fun p => rget s (group p + so))
    let r := (weirCommit s group so ao u).1
    (weirCommit s group so ao u).2 = (weirVerdict staged u, staged) ∧
    (∀ p, p < 1024 → rget r (group p + ao) = if weirVerdict staged u = stOk then rget s (group p + so) else rget s (group p + ao)) ∧
    (∀ a, (∀ p < 1024, a ≠ group p + ao) → rget r a = rget s a) ∧ { r with regs := s.regs, credit := s.credit } = s ∧
    (weirVerdict staged u ≠ stOk → r = s) := by
  obtain ⟨m, hm⟩ : ∃ m, List.range 1024 = m := ⟨_, rfl⟩
  have mem : ∀ p, p ∈ m ↔ p < 1024 := fun p => by rw [← hm]; exact List.mem_range
  have nd : m.Nodup := by rw [← hm]; exact List.nodup_range
  obtain ⟨l, hl⟩ : ∃ l, (List.range 1024).map (fun p => rget s (group p + so)) = l := ⟨_, rfl⟩
  dsimp only
  rw [hl]
  by_cases h : weirVerdict l u = stOk
  · obtain ⟨a1, a2, a3⟩ := commit_fold s group so ao m s nd (fun p hp q hq n => by
      have := hd p ((mem p).mp hp) q ((mem q).mp hq) n; omega)
    rw [weirCommit_ok hl hm h]
    refine ⟨Prod.ext h.symm rfl, fun p hp => ?_, fun a ha => ?_, a3, fun n => absurd h n⟩
    · rw [if_pos h]; exact a1 p ((mem p).mpr hp)
    · exact a2 a (fun p hp => ha p ((mem p).mp hp))
  · rw [weirCommit_not hl h]
    exact ⟨rfl, fun p _ => by rw [if_neg h], fun _ _ => rfl, rfl, fun _ => rfl⟩

theorem hbmCommit_eq {s : State} {st : Nat} {w : State × Nat × List Nat} (h : weirCommit s (weiAddr st) 0 4 true = w) : hbmCommit s st =
    raise (rset (rset w.1 (pgHbm st + 0x4C) (w.2.1 + (w.2.2.map wShare).sum * 2 ^ 8)) (pgHbm st + 0x50) (w.2.2.map wUrgent).sum) (pgHbm st) 0x200 := by
  unfold hbmCommit; rw [h]

theorem lnkCommit_eq {s : State} {g : Nat} {w : State × Nat × List Nat} (h : weirCommit s (lnkAddr g) 0 4 true = w) : lnkCommit s g =
    raise (rset (rset w.1 (pgLnk g + 0x64) (w.2.1 + (w.2.2.map wShare).sum * 2 ^ 8)) (pgLnk g + 0x6C) (w.2.2.map wUrgent).sum) (pgLnk g) 0x200 := by
  unfold lnkCommit; rw [h]

theorem flsCommit_eq {s : State} {w : State × Nat × List Nat} (h : weirCommit s flsAddr 8 12 false = w) : ∃ x, flsCommit s =
    raise (rset { w.1 with wins := x } (pgFls + 0x44) (w.2.1 + (w.2.2.map wShare).sum * 2 ^ 8)) pgFls 4 ∧ (w.2.1 ≠ stOk → x = w.1.wins) := by
  unfold flsCommit; rw [h]
  dsimp only
  split
  · exact ⟨_, rfl, fun n => absurd (by assumption) n⟩
  · exact ⟨w.1.wins, rfl, fun _ => rfl⟩

theorem slowTimer_due {s : State} {st : Nat} (hc : s.cold = false) (h : stackHeat s st = 1) (hs : s.stop = none)
    (hd : ∀ e ∈ s.power.slowAt, e.1 = st → 1000000 ≤ s.now - e.2) : slowTimer s st = slowNow s st (rbits s (pgHbm st + 0x40) 7 0) := by
  have due : (s.power.slowAt.find? (fun e => e.1 == st)).elim true (fun e => decide (1000000 ≤ s.now - e.2)) = true := by
    cases hf : s.power.slowAt.find? (fun e => e.1 == st) with
    | none => rfl
    | some e =>
      have := List.find?_some hf
      simpa using hd e (List.mem_of_find?_eq_some hf) (by simpa using this)
  unfold slowTimer; dsimp only
  rw [due, hc, h, hs]; rfl

end Sys2Proof.Machine
end

