-- ==== Sys2Proof/Laws/Stops.lean ====
section
/-!
SUPPORT. Laws/Stops.lean: stops, unit faults, the end of resets, states of the device, sections of the dump (R514 to R528).
-/

namespace Sys2Proof.Machine

theorem stopCause_stop {s : State} (h : Stoppable s) (cause level inst status : Nat) (lost : Bool) :
    (stopCause s cause level inst status lost).stop = some ⟨cause, level, inst, status, s.sclTime, devState s, 0, 0, 0, lost, false, [], [], []⟩ := by
  obtain ⟨h1, h2, h3, h4⟩ := h
  obtain ⟨y, hy⟩ : ∃ y, logErr s pgErr 3 0 = y := ⟨_, rfl⟩
  unfold stopCause; dsimp only; rw [hy, if_neg (by simp [h1, h2, h3, h4])]
  split
  · rfl
  · rw [raise_stop, rsetBits_stop]

theorem raise_err (s : State) (e : Nat) : raise s pgErr e = setEvents s pgErr e := by
  have h : logged pgErr = [] := by decide
  unfold raise; rw [h]; rfl

theorem raise_err_bit (s : State) (e i : Nat) (h : e.testBit i = true) (hi : i < 32) : (rget (raise s pgErr e) (pgErr + 0x10)).testBit i = true := by
  rw [raise_err, rget_setEvents, if_pos rfl, Nat.testBit_mod_two_pow, Nat.testBit_or, h]
  simp [hi]

/-- Stoppable depends on the stop, COLD and the state of the device. -/
theorem stoppable_congr {s t : State} (h : Stoppable s) (h1 : t.stop = s.stop) (h2 : t.cold = s.cold) (h3 : rget t (pgChp + 0x40) = rget s (pgChp + 0x40)) : Stoppable t := by
  obtain ⟨a, b, c, d⟩ := h
  have e : devState t = devState s := by unfold devState; rw [h2, rbits_congr h3]
  exact ⟨h1.trans a, h2.trans b, by rw [e]; exact c, by rw [e]; exact d⟩

theorem stoppable_touches {s t : State} {l : List Nat} (h : Stoppable s) (T : Touches l s t) (n : pgChp + 0x40 ∉ l) : Stoppable t :=
  stoppable_congr h (touches_field T State.stop (fun _ _ _ _ _ _ => rfl)) (touches_field T State.cold (fun _ _ _ _ _ _ => rfl))
    (T.2 _ n (by decide) (by decide))

theorem touches_unitRecord {l : List Nat} (s : State) {pg : Nat} (inst code : Nat) (f : Bool) (h0 : pg + 0x10 ∈ l) (h1 : pg + 0x20 ∈ l) (h2 : pg + 0x24 ∈ l)
    (h3 : pg + 0x28 ∈ l) (h4 : pg + 0x2C ∈ l) (h5 : pg + 0x40 ∈ l) : Touches l s (unitRecord s pg inst code f) := by
  unfold unitRecord
  exact touches_trans (touches_capture s _ _ _ _ h1 h2 h3 h4) (touches_trans (touches_bumpSat _ _ h5) (touches_raise _ _ h0))

/-- The registers of a unit's error page that the record of a fault may change. -/
def recordRegs (pg : Nat) : List Nat := [pg + 0x10, pg + 0x20, pg + 0x24, pg + 0x28, pg + 0x2C, pg + 0x40]

theorem unitFault_spec {s w : State} {u : UnitRef} {inst code : Nat} (hw : unitFault s u inst code = w) :
    w.faults = s.faults ++ [⟨u, code, s.sclTime⟩] ∧ Touches (recordRegs u.page) s { w with faults := s.faults } := by
  obtain ⟨t, ht⟩ : ∃ t, unitRecord s u.page inst code true = t := ⟨_, rfl⟩
  have T : Touches (recordRegs u.page) s t := by
    rw [← ht]; exact touches_unitRecord s inst code true (by simp [recordRegs]) (by simp [recordRegs]) (by simp [recordRegs]) (by simp [recordRegs]) (by simp [recordRegs]) (by simp [recordRegs])
  have e : unitFault s u inst code = { t with faults := t.faults ++ [⟨u, code, t.sclTime⟩] } := by unfold unitFault; rw [ht]
  have f1 : t.faults = s.faults := touches_field T State.faults (fun _ _ _ _ _ _ => rfl)
  have f2 : t.sclTime = s.sclTime := touches_field T State.sclTime (fun _ _ _ _ _ _ => rfl)
  obtain ⟨q, hq⟩ : ∃ q, t.faults ++ [(⟨u, code, t.sclTime⟩ : FaultRec)] = q := ⟨_, rfl⟩
  rw [hq] at e
  rw [← hw, e]
  refine ⟨by rw [← f1, ← f2, hq], ?_⟩
  have : ({ ({ t with faults := q } : State) with faults := s.faults } : State) = t := by rw [← f1]
  rw [this]; exact T

/-- What the reset of a cell clears of the cells' states. -/
theorem cellFinish_frame (s : State) (c : Nat) : (cellFinish s c).cells = (cellPut s c cellInit).cells ∧ (cellFinish s c).uresets = s.uresets ∧
    (cellFinish s c).dark = s.dark ∧ (∀ n, n < 64 → rget (cellFinish s c) (semAddr c n) = 0) := by
  obtain ⟨x, hx⟩ : ∃ x, cacheDrop (strmPut (cellPut s c cellInit) c strmInit) c = x := ⟨_, rfl⟩
  have x1 : x.cells = (cellPut s c cellInit).cells ∧ x.uresets = s.uresets ∧ x.dark = s.dark := by rw [← hx]; exact ⟨rfl, rfl, rfl⟩
  have sem : ∀ (l : List Nat) (t : State), (l.foldl (fun t n => rset t (semAddr c n) 0) t).cells = t.cells ∧
      (l.foldl (fun t n => rset t (semAddr c n) 0) t).uresets = t.uresets ∧ (l.foldl (fun t n => rset t (semAddr c n) 0) t).dark = t.dark ∧
      (∀ n, n ∈ l ∨ rget t (semAddr c n) = 0 → rget (l.foldl (fun t n => rset t (semAddr c n) 0) t) (semAddr c n) = 0) := by
    intro l
    induction l with
    | nil => intro t; exact ⟨rfl, rfl, rfl, fun n h => by rcases h with h | h; cases h; exact h⟩
    | cons i l ih =>
      intro t
      obtain ⟨a1, a2, a3, a4⟩ := ih (rset t (semAddr c i) 0)
      refine ⟨a1, a2, a3, fun n h => a4 n ?_⟩
      by_cases e : n = i
      · right; rw [e, rget_rset_same]; rfl
      · rcases h with h | h
        · left; simpa [e] using h
        · right; rw [rget_rset_ne _ _ (by unfold semAddr; omega)]; exact h
  obtain ⟨b1, b2, b3, b4⟩ := sem (List.range 64) x
  obtain ⟨y, hy⟩ : ∃ y, (List.range 64).foldl (fun t n => rset t (semAddr c n) 0) x = y := ⟨_, rfl⟩
  rw [hy] at b1 b2 b3 b4
  obtain ⟨n, hn⟩ : ∃ n, cellFinish s c = { eccClear (stateClear y c) c with notices := n } := by
    unfold cellFinish semClear; dsimp only; rw [hx, hy]; exact ⟨_, rfl⟩
  have e : (cellFinish s c).cells = y.cells ∧ (cellFinish s c).uresets = y.uresets ∧ (cellFinish s c).dark = y.dark ∧ (cellFinish s c).regs = y.regs := by
    rw [hn]; exact ⟨rfl, rfl, rfl, rfl⟩
  refine ⟨e.1.trans (b1.trans x1.1), e.2.1.trans (b2.trans x1.2.1), e.2.2.1.trans (b3.trans x1.2.2), fun n hn => ?_⟩
  rw [rget_congr e.2.2.2]; exact b4 n (Or.inl (by simpa using hn))

theorem cellFinish_fold : ∀ (l : List Nat) (s : State), (l.foldl cellFinish s).uresets = s.uresets ∧ (l.foldl cellFinish s).dark = s.dark ∧
    ∀ e, cellGet (l.foldl cellFinish s) e = if e ∈ l then cellInit else cellGet s e := by
  intro l
  induction l with
  | nil => intro s; exact ⟨rfl, rfl, fun e => by simp⟩
  | cons c l ih =>
    intro s
    obtain ⟨a1, a2, a3, _⟩ := cellFinish_frame s c
    obtain ⟨t, ht⟩ : ∃ t, cellFinish s c = t := ⟨_, rfl⟩
    rw [ht] at a1 a2 a3
    obtain ⟨b1, b2, b3⟩ := ih t
    rw [List.foldl_cons, ht]
    refine ⟨b1.trans a2, b2.trans a3, fun e => ?_⟩
    rw [b3 e, cellGet_congr a1 e]
    by_cases h : e = c
    · subst h; rw [cellGet_cellPut_same]; simp
    · rw [cellGet_cellPut_ne s _ h]; simp [h]

theorem summarise_frame (s t : State) : ∃ m h, summarise s t = { t with msix := m, msixHeld := h } := by
  unfold summarise; split
  · exact msixSend_frame t 0 0
  · exact ⟨t.msix, t.msixHeld, rfl⟩

theorem fenceOpen_spec {s w : State} {r : Nat} (hw : fenceOpen s r = w) : w.cells = s.cells ∧ w.uresets = s.uresets ∧ w.dark = s.dark.filter (· != r) ∧
    (∀ a, a ≠ pgRgn r + 0xC → a ≠ pgRgn r + 0x10 → a ≠ pgErr + 0x10 → a ≠ pgErr + 0x60 → rget w a = rget s a) := by
  obtain ⟨x, hx⟩ : ∃ x, rset { s with dark := s.dark.filter (· != r) } (pgRgn r + 0xC) 0 = x := ⟨_, rfl⟩
  obtain ⟨m, h, e⟩ := summarise_frame s x
  obtain ⟨y, hy⟩ : ∃ y, summarise s x = y := ⟨_, rfl⟩
  rw [hy] at e
  have hw' : raise y (pgRgn r) 2 = w := by rw [← hw]; unfold fenceOpen; dsimp only; rw [hx, hy]
  have T : Touches [pgRgn r + 0x10] y w := by rw [← hw']; exact touches_raise _ _ (by simp)
  refine ⟨?_, ?_, ?_, fun a h1 h2 h3 h4 => ?_⟩
  · rw [touches_field T State.cells (fun _ _ _ _ _ _ => rfl), e, ← hx]; rfl
  · rw [touches_field T State.uresets (fun _ _ _ _ _ _ => rfl), e, ← hx]; rfl
  · rw [touches_field T State.dark (fun _ _ _ _ _ _ => rfl), e, ← hx]; rfl
  · rw [T.2 a (by simpa using h2) h3 h4, e]
    show rget x a = _
    rw [← hx, rget_rset_ne _ _ h1]; rfl

/-- What the end of a reset does after its cells and its fence (R527). -/
theorem resetFinish_go {s : State} {u : UnitRef} {x : UReset} (h : s.uresets.find? (fun y => y.unit == u) = some x) (hd : resetDrained s u = true) :
    ∃ z, resetFinish s u = after z ∧ ∀ y, scopeOpen (u.cells.foldl cellFinish { s with uresets := s.uresets.filter (fun y => y.unit != u) }) u = y →
      z.cells = y.cells ∧ z.uresets = y.uresets ∧ z.dark = y.dark ∧
      ∀ a, a ≠ u.page + 0x10 → a ≠ pgErr + 0x10 → a ≠ pgErr + 0x60 → a ≠ pgErr + 0x4C → rget z a = rget y a := by
  unfold resetFinish
  rw [h]; dsimp only
  rw [hd, if_neg (by simp)]
  refine ⟨_, rfl, fun y hy => ?_⟩
  rw [hy]
  obtain ⟨w, hw⟩ : ∃ w, raise (raise y u.page 4) pgErr 0x10 = w := ⟨_, rfl⟩
  have T : Touches [u.page + 0x10, pgErr + 0x10] y w := by
    rw [← hw]; exact touches_trans (touches_raise y 4 (by simp)) (touches_raise _ _ (by simp))
  rw [hw]
  obtain ⟨v, hv⟩ : ∃ v, ({ w with lastReset := tabPut (fun _ => 0) (w.lastReset.filter (fun e =>
      !((u.cells.map (fun c => UnitRef.key (.cell c)) ++ u.blocks.map (fun b => UnitRef.key (.block b))).contains e.1))) u.key (w.now + 1) } : State) = v := ⟨_, rfl⟩
  rw [hv]
  obtain ⟨q, hq⟩ : ∃ q, logErr v pgErr 4 u.scope = q := ⟨_, rfl⟩
  have Tq : Touches [] v q := by rw [← hq]; exact touches_logErr v pgErr 4 u.scope
  rw [hq]
  have vf : v.cells = w.cells ∧ v.uresets = w.uresets ∧ v.dark = w.dark ∧ v.regs = w.regs := by rw [← hv]; exact ⟨rfl, rfl, rfl, rfl⟩
  have c1 : q.cells = y.cells := (touches_field Tq State.cells (fun _ _ _ _ _ _ => rfl)).trans (vf.1.trans (touches_field T State.cells (fun _ _ _ _ _ _ => rfl)))
  have c2 : q.uresets = y.uresets := (touches_field Tq State.uresets (fun _ _ _ _ _ _ => rfl)).trans (vf.2.1.trans (touches_field T State.uresets (fun _ _ _ _ _ _ => rfl)))
  have c3 : q.dark = y.dark := (touches_field Tq State.dark (fun _ _ _ _ _ _ => rfl)).trans (vf.2.2.1.trans (touches_field T State.dark (fun _ _ _ _ _ _ => rfl)))
  have c4 : ∀ a, a ≠ u.page + 0x10 → a ≠ pgErr + 0x10 → a ≠ pgErr + 0x60 → rget q a = rget y a := fun a h1 h2 h3 =>
    (Tq.2 a (by simp) h2 h3).trans ((rget_congr vf.2.2.2 a).trans (T.2 a (by simp [h1, h2]) h2 h3))
  split
  · exact ⟨c1, c2, c3, fun a h1 h2 h3 h4 => (rget_rset_ne _ _ h4).trans (c4 a h1 h2 h3)⟩
  · exact ⟨c1, c2, c3, fun a h1 h2 h3 _ => c4 a h1 h2 h3⟩

theorem enterState_spec {s t : State} {v : Nat} (h : enterState s v = t) (hv : v < 8) : rbits t (pgChp + 0x40) 2 0 = v ∧
    Touches [pgChp + 0x40, pgChp + 0xC, pgChp + 0x10] s t := by
  unfold enterState at h
  by_cases hb : rbits s (pgChp + 0x40) 2 0 = v
  · rw [if_pos hb] at h; rw [← h]; exact ⟨hb, touches_refl _ s⟩
  · rw [if_neg hb] at h
    obtain ⟨x, hx⟩ : ∃ x, rset (rset s (pgChp + 0x40) v) (pgChp + 0xC) v = x := ⟨_, rfl⟩
    rw [hx] at h
    have T : Touches [pgChp + 0x10] x t := by rw [← h]; exact touches_raise _ _ (by simp)
    constructor
    · rw [rbits_congr (T.2 _ (by decide) (by decide) (by decide)), ← hx]
      unfold rbits
      rw [rget_rset_ne _ _ (by decide), rget_rset_same, bits_eq]; omega
    · refine touches_trans ?_ (touches_mono T (by simp))
      rw [← hx]; exact touches_trans (touches_rset s v (by simp)) (touches_rset _ v (by simp))

theorem rd_eq (s : State) (sp : Space) (a n : Nat) : rd s sp a n = memsRead s.mems sp a n := rfl
theorem wr_mems (s : State) (sp : Space) (a : Nat) (bs : List Byte) : (wr s sp a bs).mems = memsWrite s.mems sp a bs := rfl

/-- The sections of a dump as they are written (R522). -/
theorem dump_fold (f : Nat → List Byte) : ∀ (l : List Nat) (s : State),
    ((l.map (fun i => (i, f i))).foldl (fun t y => wr t .hbm (dumpBase + (sectionAt y.1).1) y.2) s).mems =
      l.foldl (fun y i => memsWrite y .hbm (dumpBase + (sectionAt i).1) (f i)) s.mems ∧
    ((l.map (fun i => (i, f i))).foldl (fun t y => wr t .hbm (dumpBase + (sectionAt y.1).1) y.2) s).regs = s.regs ∧
    ((l.map (fun i => (i, f i))).foldl (fun t y => wr t .hbm (dumpBase + (sectionAt y.1).1) y.2) s).stop = s.stop := by
  intro l
  induction l with
  | nil => intro s; exact ⟨rfl, rfl, rfl⟩
  | cons i l ih =>
    intro s
    rw [List.map_cons, List.foldl_cons, List.foldl_cons]
    obtain ⟨a, b, c⟩ := ih (wr s .hbm (dumpBase + (sectionAt i).1) (f i))
    exact ⟨a, b, c⟩

theorem hostRecord_misaligned {x : State} (h : jsrc x % 4096 ≠ 0) : hostRecord x = (x, .inl stFailedOperand) := by
  unfold hostRecord; exact if_pos (Or.inl h)

theorem jcmdRun_inl (s : State) (st : Nat) : jcmdRun (s, .inl st) = jcmdDone s st := by unfold jcmdRun; rfl

end Sys2Proof.Machine
end

