-- ==== Sys2Proof/Laws/Channels.lean ====
section
/-!
SUPPORT. Laws/Channels.lean: served accesses, the pages' addresses, channels and doorbells (R13, R464 to R469).
-/

namespace Sys2Proof.Machine

theorem served_lt {s : State} {a : Nat} (h : Served s a) : a < 0x20000000 := by
  obtain ⟨_, h2, _⟩ := h
  unfold accessKind at h2
  split at h2
  · cases h2
  · rename_i q; omega

theorem access_served {s : State} {a : Nat} (h : Served s a) (h4 : a % 4 = 0) (m : Nat) (w : Bool) (be v : Nat) (f : State → State) :
    access s m a w true be v f = f s := by
  have lt := served_lt h
  obtain ⟨h1, h2, h3⟩ := h
  unfold access
  simp [h1, h2, h4, lt]

theorem regWrite_served {s : State} {a : Nat} (h : Served s a) (h4 : a % 4 = 0) (m v be : Nat) :
    regWrite s m a v be true = pfPageWrite s m a v := by
  unfold regWrite
  rw [access_served h h4, if_neg h.2.2, if_pos (served_lt h)]

theorem pfPageWrite_page {s : State} {a : Nat} {pg : Page} {i : Nat} (h : pageOf a = some (pg, i)) (hm : pg ≠ .mbx) (m v : Nat) :
    pfPageWrite s m a v = pageWrite s m a v pg i := by
  unfold pfPageWrite
  rw [h]
  cases pg <;> first | rfl | exact absurd rfl hm

theorem regRead_served {s : State} {a : Nat} {pg : Page} {i : Nat} (h : Served s a) (h4 : a % 4 = 0) (hp : pageOf a = some (pg, i)) (m be : Nat) :
    regRead s m a be true = pfPageRead s m a pg i := by
  unfold regRead
  rw [access_served h h4, hp]

theorem sub_div_same (a b m : Nat) (h : b / 0x1000 = a / 0x1000) (k : m % 0x1000 = 0) : (b - m) / 0x10000 = (a - m) / 0x10000 := by omega

/-- A page's addresses lie in one page. -/
theorem pageOf_same (a x : Nat) (hx : x < 0x1000) : pageOf (a / 0x1000 * 0x1000 + x) = pageOf a := by
  obtain ⟨b, hb⟩ : ∃ b, a / 0x1000 * 0x1000 + x = b := ⟨_, rfl⟩
  rw [hb]
  have e1 : b / 0x1000 = a / 0x1000 := by omega
  have e2 : (b < 0x4000000) = (a < 0x4000000) := propext (by omega)
  have e3 : (b < 0x14000000) = (a < 0x14000000) := propext (by omega)
  have e4 : b / 0x4000000 = a / 0x4000000 := by omega
  have e5 : (b % 0x4000000 < 0x200000) = (a % 0x4000000 < 0x200000) := propext (by omega)
  have e6 : b % 0x4000000 / 0x1000 = a % 0x4000000 / 0x1000 := by omega
  have e7 : (b % 0x4000000 < 0x2200000) = (a % 0x4000000 < 0x2200000) := propext (by omega)
  have e8 : b % 0x4000000 / 0x200000 = a % 0x4000000 / 0x200000 := by omega
  have e9 : b % 0x4000000 % 0x200000 / 0x1000 = a % 0x4000000 % 0x200000 / 0x1000 := by omega
  have f1 : (0x40000 ≤ b % 0x4000000 % 0x200000) = (0x40000 ≤ a % 0x4000000 % 0x200000) := propext (by omega)
  have f2 : (b % 0x4000000 % 0x200000 < 0x140000) = (a % 0x4000000 % 0x200000 < 0x140000) := propext (by omega)
  have f3 : (b % 0x4000000 % 0x200000 - 0x40000) / 0x10000 = (a % 0x4000000 % 0x200000 - 0x40000) / 0x10000 := by omega
  have f4 : (0x20000000 ≤ b) = (0x20000000 ≤ a) := propext (by omega)
  have f5 : (b < 0x24000000) = (a < 0x24000000) := propext (by omega)
  have f6 : (b - 0x20000000) / 0x10000 = (a - 0x20000000) / 0x10000 := sub_div_same _ _ _ e1 rfl
  unfold pageOf
  simp only [e1, e2, e3, e4, e5, e6, e7, e8, e9, f1, f2, f3, f4, f5, f6]

theorem pageOf_base (p x : Nat) (h : p % 0x1000 = 0) (hx : x < 0x1000) : pageOf (p + x) = pageOf p := by
  have := pageOf_same p x hx
  rwa [Nat.div_mul_cancel (Nat.dvd_of_mod_eq_zero h)] at this

theorem served_same {s : State} {a : Nat} (h : Served s a) (x : Nat) (hx : x < 0x1000) : Served s (a / 0x1000 * 0x1000 + x) := by
  refine ⟨h.1, ?_, h.2.2⟩
  have := h.2.1
  unfold accessKind bootPage at *
  have lt := served_lt h
  rw [pageOf_same a x hx]
  obtain ⟨b, hb⟩ : ∃ b, a / 0x1000 * 0x1000 + x = b := ⟨_, rfl⟩
  rw [hb]
  have e1 : (0x20000000 ≤ b) = (0x20000000 ≤ a) := propext (by omega)
  have e2 : (b < 0x3000) = (a < 0x3000) := propext (by omega)
  have e3 : (0x4000000 ≤ b) = (0x4000000 ≤ a) := propext (by omega)
  have e4 : b / 0x4000000 = a / 0x4000000 := by omega
  simp only [e1, e2, e3, e4]
  exact this

theorem accessKind_part {s : State} {a : Nat} (h : accessKind s a true = 0) : accessKind s a false = 1 := by
  unfold accessKind at *
  split at h
  · cases h
  · rename_i h1
    split at h
    · cases h
    · rename_i h2
      split at h
      · cases h
      · rename_i h3
        rw [if_neg h1, if_neg h2, if_neg h3]; rfl

theorem pairs_ok (p : Page) : ∀ l ∈ p.pairs, pairOf p (l + 4) = some l ∧ l < 0xF00 := by cases p <;> decide

theorem summarise_regs (s t : State) : (summarise s t).regs = t.regs ∧ (summarise s t).mems = t.mems ∧ (summarise s t).cells = t.cells := by
  obtain ⟨m, h, e⟩ := summarise_frame s t
  rw [e]; exact ⟨rfl, rfl, rfl⟩

theorem tabGet_put {α : Type} [DecidableEq α] (d : Nat → α) (l : List (Nat × α)) (k : Nat) (v : α) : tabGet d (tabPut d l k v) k = v := by
  first | exact tabGet_tabPut_same d l k v | simp

theorem within_touches {l : List Nat} {s t : State} (T : Touches l s t) : within s t = t :=
  within_eq (touches_field T State.pending (fun _ _ _ _ _ _ => rfl)) (touches_field T State.now (fun _ _ _ _ _ _ => rfl))
    (touches_field T State.cold (fun _ _ _ _ _ _ => rfl)) (touches_field T State.perst (fun _ _ _ _ _ _ => rfl)) (touches_field T State.jtag (fun _ _ _ _ _ _ => rfl))
    (touches_field T State.fuses (fun _ _ _ _ _ _ => rfl))

theorem mbxAccess_served {s : State} {m c : Nat} (h : MbxServed s m c) (f : State → State) : mbxAccess s m c f = f s := by
  obtain ⟨_, h2, h3, h4⟩ := h
  simp [mbxAccess, h2, h3, h4]

theorem mbxWrite_served {s : State} {m c : Nat} (h : MbxServed s m c) (f : State → State) : mbxWrite s m c f = f s := by
  have ha := mbxAccess_served h f
  obtain ⟨h1, h2, _⟩ := h
  unfold mbxWrite
  by_cases hv : isVf m = true
  · rw [if_pos hv] at h1 ⊢
    rw [vfPart_served h1, if_pos h2, ha]
  · rw [if_neg hv] at h1 ⊢
    rw [pfWrite_served h1, ha]

theorem mbxServed_cold {s : State} {m c : Nat} (h : MbxServed s m c) : s.cold = false := by
  obtain ⟨h1, _⟩ := h
  split at h1
  · exact h1.1
  · exact h1.1

theorem dblGroup_cases {id g : Nat} (h : dblGroup id = some g) : (0x50100 ≤ g ∧ g ≤ 0x50160) ∨ (0x1001 ≤ id ∧ id ≤ 0x1400 ∧ g = pgAmb (id - 0x1001) + 0xC0) := by
  unfold dblGroup at h
  split at h
  · left; have := Option.some.inj h; simp only [pgDbl] at this; omega
  · split at h
    · left; have := Option.some.inj h; simp only [pgDbl] at this; omega
    · split at h
      · left; have := Option.some.inj h; simp only [pgDbl] at this; omega
      · split at h
        · left; have := Option.some.inj h; simp only [pgDbl] at this; omega
        · split at h
          · rename_i q; right; exact ⟨q.1, q.2, (Option.some.inj h).symm⟩
          · cases h

/-- What a doorbell changes: its group's word, and the VF's event page. -/
theorem rget_dblSignal (s t : State) (id a : Nat) {b : Nat} (h : ∀ p, b ≠ pgVfEvt p + 0x10) (h1 : b ≠ pgErr + 0x60) (h2 : b ≠ pgErr + 0x10) :
    rget (dblSignal s t id a) b = rget t b := by
  unfold dblSignal
  split
  · split
    · obtain ⟨m, k, e⟩ := msixSend_frame t 0 1; rw [e]; rfl
    · split
      · unfold vfEvt; exact rget_raise_ne _ _ _ (h _) h1 h2
      · rfl
  · rfl

theorem rget_dblRing_ne (s : State) (id c : Nat) {b : Nat} (h0 : ∀ g, dblGroup id = some g → b ≠ g) (h : ∀ p, b ≠ pgVfEvt p + 0x10) (h1 : b ≠ pgErr + 0x60) (h2 : b ≠ pgErr + 0x10) :
    rget (dblRing s id c) b = rget s b := by
  unfold dblRing
  split
  · rfl
  · rename_i g hg
    rw [rget_dblSignal _ _ _ _ h h1 h2, rget_rset_ne _ _ (h0 g hg)]

theorem group_apart {id g : Nat} (h : dblGroup id = some g) : (∀ p, g ≠ pgVfEvt p + 0x10) ∧ g ≠ pgErr + 0x60 ∧ g ≠ pgErr + 0x10 := by
  have e : pgErr = 0x800000 := rfl
  rcases dblGroup_cases h with q | ⟨q1, q2, q3⟩
  · refine ⟨fun p => ?_, by omega, by omega⟩
    unfold pgVfEvt vfBase; omega
  · refine ⟨fun p => ?_, ?_, ?_⟩
    · rw [q3]; unfold pgVfEvt pgAmb vfBase; omega
    · rw [q3, e]; unfold pgAmb vfBase; omega
    · rw [q3, e]; unfold pgAmb vfBase; omega

theorem dblRing_bit (s : State) (id c : Nat) {g : Nat} (h : dblGroup id = some g) : (rget (dblRing s id c) g).testBit (c % 32) = true := by
  obtain ⟨a1, a2, a3⟩ := group_apart h
  unfold dblRing
  rw [h]; dsimp only
  rw [rget_dblSignal _ _ _ _ a1 a2 a3, rget_rset_same, Nat.testBit_mod_two_pow, Nat.testBit_or, Nat.testBit_two_pow_self]
  have : c % 32 < 32 := Nat.mod_lt _ (by decide)
  simp [this]

/-- The registers of the channels stand when a doorbell rings. -/
theorem rget_dblRing_chan (s : State) (id c : Nat) {b : Nat} (h : b < 0x50000) : rget (dblRing s id c) b = rget s b := by
  have e : pgErr = 0x800000 := rfl
  refine rget_dblRing_ne s id c (fun g hg => ?_) (fun p => ?_) (by omega) (by omega)
  · rcases dblGroup_cases hg with q | ⟨q1, q2, q3⟩
    · omega
    · rw [q3]; unfold pgAmb vfBase; omega
  · unfold pgVfEvt vfBase; omega

theorem pgMbx_lt (c : Fin 64) : 0x10000 ≤ pgMbx c ∧ pgMbx c + 0x1000 ≤ 0x50000 := by unfold pgMbx; omega

/-- An event of a channel leaves the doorbell groups. -/
theorem raise_group (s : State) (c : Fin 64) (e : Nat) {id g : Nat} (h : dblGroup id = some g) : rget (raise s (pgMbx c) e) g = rget s g := by
  obtain ⟨_, a2, a3⟩ := group_apart h
  have := pgMbx_lt c
  refine rget_raise_ne _ _ _ ?_ a2 a3
  rcases dblGroup_cases h with q | ⟨q1, q2, q3⟩
  · omega
  · rw [q3]; unfold pgAmb vfBase; omega

theorem raise_chan (s : State) (c : Fin 64) (e : Nat) {b : Nat} (h : b < 0x50000) (n : b ≠ pgMbx c + 0x10) : rget (raise s (pgMbx c) e) b = rget s b := by
  have e : pgErr = 0x800000 := rfl
  exact rget_raise_ne _ _ _ n (by omega) (by omega)

theorem raise_chan_bit (s : State) (c : Fin 64) (e i : Nat) (h : e.testBit i = true) (hi : i < 32) : (rget (raise s (pgMbx c) e) (pgMbx c + 0x10)).testBit i = true := by
  have e : pgErr = 0x800000 := rfl
  have := pgMbx_lt c
  exact raise_bit _ _ _ _ h hi (by omega) (by omega)

theorem chanField (s : State) (c : Fin 64) (e : Nat) (id : Nat) :
    (raise (dblRing s id c) (pgMbx c) e).mems = s.mems ∧ (raise (dblRing s id c) (pgMbx c) e).cells = s.cells := by
  have T := channelTouch_dblRing s id c
  rw [raise_mems, raise_cells]
  exact ⟨channelTouch_field T State.mems (fun _ _ _ _ _ _ _ => rfl), channelTouch_field T State.cells (fun _ _ _ _ _ _ _ => rfl)⟩

theorem mbxA_congr {s t : State} {c : Nat} (h : rget t (pgMbx c + 0x40) = rget s (pgMbx c + 0x40)) : mbxA t c = mbxA s c ∧ mbxB t c = mbxB s c :=
  ⟨rbits_congr h 15 0, rbits_congr h 31 16⟩

theorem mbxHolds_congr {s t : State} {c : Nat} (h : rget t (pgMbx c + 0x40) = rget s (pgMbx c + 0x40)) (k : rbits t (pgMbx c + 0xC) 2 2 = rbits s (pgMbx c + 0xC) 2 2) (m : Nat) :
    mbxHolds t m c = mbxHolds s m c := by
  unfold mbxHolds; rw [k, (mbxA_congr h).1, (mbxA_congr h).2]

theorem bound_cases {s : State} {m c : Nat} (h : mbxBound s m c = true) : mbxA s c = m ∨ (mbxA s c ≠ m ∧ mbxB s c = m) := by
  unfold mbxBound at h
  simp only [Bool.and_eq_true, Bool.or_eq_true, beq_iff_eq] at h
  by_cases q : mbxA s c = m
  · exact Or.inl q
  · exact Or.inr ⟨q, h.2.resolve_left q⟩

theorem rget_bumpSat_val (s : State) (a n : Nat) : rget (bumpSat s a n) a = min (rget s a + n) 0xFFFFFFFF := by
  unfold bumpSat; rw [rget_rset_same]; omega

theorem mbxqGet_put (s : State) (c : Nat) (q : MbxQ) : mbxqGet (mbxqPut s c q) c = q := by unfold mbxqGet mbxqPut; exact tabGet_put _ _ _ _

theorem mbxqGet_put_ne (s : State) {c e : Nat} (q : MbxQ) (h : e ≠ c) : mbxqGet (mbxqPut s c q) e = mbxqGet s e := by
  unfold mbxqGet mbxqPut; exact tabGet_tabPut_ne _ _ h _

theorem mbxqGet_congr {s t : State} (h : t.mbxq = s.mbxq) (c : Nat) : mbxqGet t c = mbxqGet s c := by unfold mbxqGet; rw [h]

theorem dblRing_mbxq (s : State) (id c : Nat) : (dblRing s id c).mbxq = s.mbxq := by
  unfold dblRing
  split
  · rfl
  · unfold dblSignal
    split
    · split
      · obtain ⟨m, k, e⟩ := msixSend_frame (rset s _ _) 0 1; rw [e]; rfl
      · split
        · unfold vfEvt; rw [raise_mbxq]; rfl
        · rfl
    · rfl

theorem pageOf_mbx : ∀ c : Fin 64, pageOf (pgMbx c) = some (.mbx, c.val) := by decide

theorem mbxPop_served {s : State} {m : Half} {c : Fin 64} (h : MbxServed s m.toNat c) :
    (if isVf m.toNat then vfPart s (m.toNat - 0x1001) (fun t => if mbxBound t m.toNat c then mbxAccess t m.toNat c (fun u => mbxPop u m.toNat c) else t)
      else regRead s m.toNat (pgMbx c + 0x50) 15 true) = mbxPop s m.toNat c := by
  have ha := mbxAccess_served h (fun u => mbxPop u m.toNat c)
  have h1 := h.1
  by_cases hv : isVf m.toNat = true
  · rw [if_pos hv] at h1 ⊢
    rw [vfPart_served h1, if_pos h.2.1, ha]
  · rw [if_neg hv] at h1 ⊢
    have e : (pgMbx c + 0x44) / 0x1000 * 0x1000 = pgMbx c := by unfold pgMbx; omega
    have hs : Served s (pgMbx c + 0x50) := by
      have := served_same h1 0x50 (by omega)
      rwa [e] at this
    have hp : pageOf (pgMbx c + 0x50) = some (.mbx, c.val) := by
      rw [pageOf_base _ _ (by unfold pgMbx; omega) (by omega)]
      exact pageOf_mbx c
    have h5 : (pgMbx c + 0x50) % 0x1000 = 0x50 := by unfold pgMbx; omega
    rw [regRead_served hs (by unfold pgMbx; omega) hp]
    unfold pfPageRead
    dsimp only
    rw [h5, if_neg (by omega)]
    simp only [if_true]
    exact ha

/-- What of a channel the power-off of a domain may change. -/
def ChanSame (s t : State) (c : Nat) : Prop :=
  rget t (pgMbx c + 0xC) = rget s (pgMbx c + 0xC) ∧ rget t (pgMbx c + 0x40) = rget s (pgMbx c + 0x40) ∧ mbxqGet t c = mbxqGet s c

theorem channelOff_other (s : State) (id : Nat) {c e : Nat} (hc : c < 64) (_ : e < 64) (h : e ≠ c) : ChanSame s (channelOff s id e) c := by
  have k : ∀ x, x < 0x1000 → pgMbx c + x < 0x50000 := by unfold pgMbx; omega
  have d : ∀ x y, x < 0x1000 → y < 0x1000 → pgMbx c + x ≠ pgMbx e + y := by unfold pgMbx; omega
  have rest : ∀ u : State, (∀ b, b < 0x50000 → b ≠ pgMbx e + 0xC → b ≠ pgMbx e + 0x58 → rget u b = rget s b) → mbxqGet u c = mbxqGet s c → ChanSame s u c :=
    fun u h1 h2 => ⟨h1 _ (k _ (by omega)) (d _ _ (by omega) (by omega)) (d _ _ (by omega) (by omega)), h1 _ (k _ (by omega)) (d _ _ (by omega) (by omega)) (d _ _ (by omega) (by omega)), h2⟩
  unfold channelOff
  split
  · exact ⟨rfl, rfl, rfl⟩
  · split
    · split
      · exact ⟨rfl, rfl, rfl⟩
      · refine rest _ (fun b h1 h2 h3 => ?_) ?_
        · rw [rget_dblRing_chan _ _ _ h1, rget_rset_ne _ _ h2]
        · exact mbxqGet_congr (dblRing_mbxq _ _ _) c
    · dsimp only
      split
      · refine rest _ (fun b h1 h2 h3 => ?_) ?_
        · unfold bumpSat; rw [rget_rset_ne _ _ h3]; rfl
        · exact mbxqGet_put_ne s _ (fun x => h x.symm)
      · refine rest _ (fun b h1 h2 h3 => ?_) ?_
        · unfold bumpSat; rw [rget_rset_ne _ _ h3]; rfl
        · exact mbxqGet_put_ne s _ (fun x => h x.symm)

theorem channelOff_fold (id : Nat) {c : Nat} (hc : c < 64) : ∀ (l : List Nat) (s : State), c ∉ l → (∀ e ∈ l, e < 64) → ChanSame s (l.foldl (fun t e => channelOff t id e) s) c
  | [], _, _, _ => ⟨rfl, rfl, rfl⟩
  | e :: l, s, h, k => by
    have h1 := channelOff_other s id hc (k e List.mem_cons_self) (fun x => h (x ▸ List.mem_cons_self))
    have h2 := channelOff_fold id hc l (channelOff s id e) (fun x => h (List.mem_cons_of_mem _ x)) (fun x y => k x (List.mem_cons_of_mem _ y))
    exact ⟨h2.1.trans h1.1, h2.2.1.trans h1.2.1, h2.2.2.trans h1.2.2⟩

/-- The channel of a domain that powers off (R469). -/
theorem channelOff_same (s : State) (id : Nat) (c : Fin 64) (hb : mbxBound s id c = true) :
    (c.val < 60 → mbxState (channelOff s id c) c = 0 ∧ (mbxState s c ≠ 0 → rbits (channelOff s id c) (pgMbx c + 0xC) 3 3 = 1)) ∧
    (60 ≤ c.val → (if mbxA s c = id then (mbxqGet (channelOff s id c) c).ba else (mbxqGet (channelOff s id c) c).ab) = []) := by
  have lt := pgMbx_lt c
  unfold channelOff
  rw [if_neg (by simp [hb])]
  constructor
  · intro h
    rw [if_pos h]
    split
    · rename_i q; exact ⟨q, fun x => absurd q x⟩
    · rename_i q
      have e : rget (dblRing (rset s (pgMbx c + 0xC) (rbits s (pgMbx c + 0xC) 2 2 * 4 + 8)) (mbxOther s id c) c) (pgMbx c + 0xC) = rbits s (pgMbx c + 0xC) 2 2 * 4 + 8 := by
        rw [rget_dblRing_chan _ _ _ (by omega), rget_rset_same]
        have : rbits s (pgMbx c + 0xC) 2 2 < 2 := by have := bits_lt (rget s (pgMbx c + 0xC)) 2 2; unfold rbits; simpa using this
        omega
      have b2 : rbits s (pgMbx c + 0xC) 2 2 < 2 := by have := bits_lt (rget s (pgMbx c + 0xC)) 2 2; unfold rbits; simpa using this
      unfold mbxState
      constructor
      · unfold rbits at *; rw [e, bits_eq]; omega
      · intro _; unfold rbits at *; rw [e, bits_eq]; omega
  · intro h
    have nh : ¬ c.val < 60 := by omega
    simp only [if_neg nh]
    by_cases q : mbxA s c = id
    · simp only [if_pos q]
      have : mbxqGet (bumpSat (mbxqPut s c { mbxqGet s c with ba := [] }) (pgMbx c + 0x58) (mbxqGet s c).ba.length) c = { mbxqGet s c with ba := [] } := mbxqGet_put s c _
      rw [this]
    · simp only [if_neg q]
      have : mbxqGet (bumpSat (mbxqPut s c { mbxqGet s c with ab := [] }) (pgMbx c + 0x58) (mbxqGet s c).ab.length) c = { mbxqGet s c with ab := [] } := mbxqGet_put s c _
      rw [this]

theorem channelsOff_spec (s : State) (id : Nat) (c : Fin 64) : ∃ u, ChanSame s u c ∧ ChanSame (channelOff u id c) (channelsOff s id) c := by
  have hm : c.val ∈ List.range 64 := by simp
  obtain ⟨l1, l2, hl⟩ := List.append_of_mem hm
  have hn : (l1 ++ c.val :: l2).Nodup := hl ▸ List.nodup_range
  have hx : ∀ e ∈ l1 ++ c.val :: l2, e < 64 := by intro e h; rw [← hl] at h; simpa using h
  rw [List.nodup_append] at hn
  obtain ⟨_, n2, n3⟩ := hn
  have c1 : c.val ∉ l1 := fun h => n3 _ h _ List.mem_cons_self rfl
  have c2 : c.val ∉ l2 := (List.nodup_cons.mp n2).1
  refine ⟨l1.foldl (fun t e => channelOff t id e) s, channelOff_fold id c.isLt l1 s c1 (fun e h => hx e (by simp [h])), ?_⟩
  unfold channelsOff
  rw [hl, List.foldl_append, List.foldl_cons]
  exact channelOff_fold id c.isLt l2 _ c2 (fun e h => hx e (by simp [h]))

end Sys2Proof.Machine
end

