-- ==== Sys2Proof/Laws/Partitions.lean ====
section
/-!
SUPPORT. Laws/Partitions.lean: partitions: PRT commands, the end of a partition's reset (R416 to R436).
-/

namespace Sys2Proof.Machine

theorem touches_msixSend {l : List Nat} (s : State) (f v : Nat) : Touches l s (msixSend s f v) := by
  obtain ⟨m, h, e⟩ := msixSend_frame s f v
  rw [e]; exact ⟨rfl, fun _ _ _ _ => rfl⟩

theorem prtDone_spec {s t : State} {st d : Nat} (h : prtDone s st d = t) :
    rget t (pgPrt + 0x48) = (st + d * 2 ^ 8) % 2 ^ 32 ∧ t.parts = s.parts ∧ t.cells = s.cells ∧ t.mems = s.mems ∧
    (∀ a, a ≠ pgPrt + 0xC → a ≠ pgPrt + 0x48 → a ≠ pgPrt + 0x10 → a ≠ pgErr + 0x10 → a ≠ pgErr + 0x60 → rget t a = rget s a) := by
  obtain ⟨x, hx⟩ : ∃ x, rset (rset { s with prtCmd := none } (pgPrt + 0xC) 0) (pgPrt + 0x48) (st + d * 2 ^ 8) = x := ⟨_, rfl⟩
  have T : Touches [pgPrt + 0x10] x t := by
    rw [← h]; unfold prtDone; dsimp only; rw [hx]
    exact touches_trans (touches_raise x 1 (by simp)) (touches_msixSend _ _ _)
  refine ⟨?_, ?_, ?_, ?_, ?_⟩
  · rw [T.2 _ (by decide) (by decide) (by decide), ← hx, rget_rset_same]
  · rw [touches_field T State.parts (fun _ _ _ _ _ _ => rfl), ← hx]; rfl
  · rw [touches_field T State.cells (fun _ _ _ _ _ _ => rfl), ← hx]; rfl
  · rw [touches_field T State.mems (fun _ _ _ _ _ _ => rfl), ← hx]; rfl
  · intro a h1 h2 h3 h4 h5
    rw [T.2 a (by simpa using h3) h4 h5, ← hx, rget_rset_ne _ _ h2, rget_rset_ne _ _ h1]; exact rget_congr rfl a

theorem partGet_put_same (s : State) (p : Nat) (x : Part) : partGet (partPut s p x) p = x := tabGet_tabPut_same (d := fun _ => partNone) _ _ _

theorem partGet_put_ne (s : State) {p q : Nat} (x : Part) (h : q ≠ p) : partGet (partPut s p x) q = partGet s q := tabGet_tabPut_ne (d := fun _ => partNone) _ h _

theorem partGet_congr {s t : State} (h : t.parts = s.parts) (p : Nat) : partGet t p = partGet s p := by unfold partGet; rw [h]

theorem ungate_parts (s : State) (r : Nat) : (ungate s r).parts = s.parts ∧ (ungate s r).cells = s.cells := by
  unfold ungate
  split
  · dsimp only
    split
    · exact ⟨rfl, rfl⟩
    · obtain ⟨m, h, e⟩ := summarise_frame s { rsetBits s (pgPwr + 0x74) r r 0 with dark := (rsetBits s (pgPwr + 0x74) r r 0).dark.filter (· != r) }
      rw [e]; exact ⟨rfl, rfl⟩
  · exact ⟨rfl, rfl⟩

theorem foldl_ungate (P : Nat → Bool) : ∀ (l : List Nat) (s : State), (l.foldl (fun t r => if P r then ungate t r else t) s).parts = s.parts ∧
    (l.foldl (fun t r => if P r then ungate t r else t) s).cells = s.cells
  | [], _ => ⟨rfl, rfl⟩
  | r :: l, s => by
    obtain ⟨h1, h2⟩ := foldl_ungate P l (if P r then ungate s r else s)
    rw [List.foldl_cons]
    by_cases q : P r = true
    · rw [if_pos q] at h1 h2 ⊢
      obtain ⟨u1, u2⟩ := ungate_parts s r
      exact ⟨h1.trans u1, h2.trans u2⟩
    · rw [if_neg q] at h1 h2 ⊢; exact ⟨h1, h2⟩

theorem granScrub_parts (s : State) (st : Nat) (gs : List Nat) : (granScrub s st gs).parts = s.parts ∧ (granScrub s st gs).cells = s.cells := by
  unfold granScrub
  obtain ⟨m, hm⟩ : ∃ m, gs.foldl (fun m g => memsScrub m .hbm (hbmPhys st g 0) 0x10000000 (bit (rget s (pgHbm st + 8)) 0)) s.mems = m := ⟨_, rfl⟩
  rw [hm]
  exact ⟨rfl, rfl⟩

theorem granScrub_fold : ∀ (l : List (Nat × List Nat)) (s : State), (l.foldl (fun t x => granScrub t x.1 x.2) s).parts = s.parts ∧
    (l.foldl (fun t x => granScrub t x.1 x.2) s).cells = s.cells
  | [], _ => ⟨rfl, rfl⟩
  | x :: l, s => by
    obtain ⟨h1, h2⟩ := granScrub_fold l (granScrub s x.1 x.2)
    obtain ⟨g1, g2⟩ := granScrub_parts s x.1 x.2
    rw [List.foldl_cons]
    exact ⟨h1.trans g1, h2.trans g2⟩

theorem stagedPart_cells (s : State) : (stagedPart s).cells = stagedCells s := by
  unfold stagedPart; dsimp only

theorem semClear_parts (s : State) (c : Nat) : (semClear s c).parts = s.parts ∧ (semClear s c).cells = s.cells := by
  unfold semClear
  exact ⟨foldl_field State.parts (fun t n => rset t (semAddr c n) 0) (fun _ _ => rfl) (List.range 64) s, foldl_field State.cells (fun t n => rset t (semAddr c n) 0) (fun _ _ => rfl) (List.range 64) s⟩

theorem cellScrub_parts (s : State) (c : Nat) : (cellScrub s c).parts = s.parts ∧ (cellScrub s c).cells = s.cells := by
  unfold cellScrub; dsimp only
  obtain ⟨m, hm⟩ : ∃ m, memsScrub (memsScrub (memsScrub s.mems .slice (sliceA c 0) 0x1000000 (bit (rget s (pgSlice c + 0x40)) 5)) .bench (benchA c 0) 0x100000 false) .acc (accA c 0) 0x100000 false = m := ⟨_, rfl⟩
  rw [hm]
  obtain ⟨h1, h2⟩ := semClear_parts (cacheDrop { s with mems := m } c) c
  exact ⟨h1, h2⟩

theorem pgCel_apart {c e : Nat} (h : c ≠ e) (x y : Nat) (hx : x < 0x1000) (hy : y < 0x1000) : pgCel c + x ≠ pgCel e + y := by
  unfold pgCel cellBase blockBase regionBase; omega

/-- The cells that join a partition. -/
theorem cellJoin_fold (p : Nat) (b : Bool) (hp : p < 2 ^ 32) : ∀ (l : List Nat) (s : State),
    (l.foldl (fun t c => cellJoin t p b c) s).parts = s.parts ∧ (l.foldl (fun t c => cellJoin t p b c) s).cells = s.cells ∧
    ∀ c, (c ∈ l ∨ (rget s (pgCel c + 0x40) = p ∧ rbits s (pgCel c + 8) 0 0 = 1)) →
      rget (l.foldl (fun t c => cellJoin t p b c) s) (pgCel c + 0x40) = p ∧ rbits (l.foldl (fun t c => cellJoin t p b c) s) (pgCel c + 8) 0 0 = 1
  | [], _ => ⟨rfl, rfl, fun _ h => h.resolve_left List.not_mem_nil⟩
  | e :: l, s => by
    obtain ⟨h1, h2, h3⟩ := cellJoin_fold p b hp l (cellJoin s p b e)
    refine ⟨h1, h2, fun c h => ?_⟩
    rw [List.foldl_cons]
    refine h3 c ?_
    by_cases q : c = e
    · right
      subst q
      unfold cellJoin
      constructor
      · rw [rget_rset_same, Nat.mod_eq_of_lt hp]
      · rw [rbits_congr (rget_rset_ne _ _ (by omega))]
        unfold rbits
        rw [rget_rset_same, bits_eq, setBits_eq]
        omega
    · rcases h with h | h
      · left; exact (List.mem_cons.mp h).resolve_left q
      · right
        unfold cellJoin
        constructor
        · rw [rget_rset_ne _ _ (pgCel_apart q _ _ (by omega) (by omega)), rget_rset_ne _ _ (pgCel_apart q _ _ (by omega) (by omega))]; exact h.1
        · rw [rbits_congr ((rget_rset_ne _ _ (pgCel_apart q _ _ (by omega) (by omega))).trans (rget_rset_ne _ _ (pgCel_apart q _ _ (by omega) (by omega))))]; exact h.2

theorem createPart_spec {s t : State} {p g : Nat} {q : Part} (h : createPart s p q g = t) (hp : p < 2 ^ 32) :
    partGet t p = { q with gran := q.stk.map (fun st => (freeGrans s st).take g) } ∧ (∀ x, x ≠ p → partGet t x = partGet s x) ∧ t.cells = s.cells ∧
    (∀ c ∈ q.cells, rget t (pgCel c + 0x40) = p ∧ rbits t (pgCel c + 8) 0 0 = 1) := by
  obtain ⟨s1, h1⟩ : ∃ s1, (List.range 4).foldl (fun t r => if (q.cells.map (· / 256) ++ q.stk.map (· / 2)).contains r then ungate t r else t) (vfClear s p) = s1 := ⟨_, rfl⟩
  have f1 : s1.parts = s.parts ∧ s1.cells = s.cells := by
    have := foldl_ungate (fun r => (q.cells.map (· / 256) ++ q.stk.map (· / 2)).contains r) (List.range 4) (vfClear s p)
    rw [h1] at this; exact this
  obtain ⟨q1, hq⟩ : ∃ q1, { q with gran := q.stk.map (fun st => (freeGrans s st).take g) } = q1 := ⟨_, rfl⟩
  obtain ⟨s2, h2⟩ : ∃ s2, (q.stk.zip (q.stk.map (fun st => (freeGrans s st).take g))).foldl (fun t x => granScrub t x.1 x.2) s1 = s2 := ⟨_, rfl⟩
  have f2 : s2.parts = s1.parts ∧ s2.cells = s1.cells := by
    rw [← h2]; exact granScrub_fold _ s1
  obtain ⟨s3, h3⟩ : ∃ s3, q.cells.foldl cellScrub s2 = s3 := ⟨_, rfl⟩
  have f3 : s3.parts = s2.parts ∧ s3.cells = s2.cells := by
    rw [← h3]; exact ⟨foldl_field State.parts _ (fun a b => (cellScrub_parts a b).1) _ _, foldl_field State.cells _ (fun a b => (cellScrub_parts a b).2) _ _⟩
  obtain ⟨s4, h4⟩ : ∃ s4, q.cells.foldl (fun t c => cellJoin t p (q.rt || q.rb) c) s3 = s4 := ⟨_, rfl⟩
  obtain ⟨j1, j2, j3⟩ := cellJoin_fold p (q.rt || q.rb) hp q.cells s3
  rw [h4] at j1 j2 j3
  have e : t = partPut s4 p q1 := by
    rw [← h]; unfold createPart; dsimp only; rw [h1, h2, h3, h4, hq]
  have ps : s4.parts = s.parts := j1.trans (f3.1.trans (f2.1.trans f1.1))
  have cs : s4.cells = s.cells := j2.trans (f3.2.trans (f2.2.trans f1.2))
  refine ⟨by rw [e, partGet_put_same, ← hq], fun x hx => by rw [e, partGet_put_ne _ _ hx, partGet_congr ps], by rw [e]; exact cs, fun c hc => ?_⟩
  rw [e]
  exact j3 c (Or.inl hc)

theorem startReset_active {s : State} {p cause : Nat} (h : (partGet s p).st = 2) :
    startReset s p cause = partPut s p { partGet s p with st := if cause = 3 then 4 else 3, rst := some ⟨cause, sceneNow s, s.now, false, false, List.replicate 9 0⟩ } := by
  unfold startReset; dsimp only; rw [if_pos h]

theorem cellFinish_parts (s : State) (c : Nat) : (cellFinish s c).parts = s.parts := by
  obtain ⟨x, hx⟩ : ∃ x, cacheDrop (strmPut (cellPut s c cellInit) c strmInit) c = x := ⟨_, rfl⟩
  obtain ⟨y, hy⟩ : ∃ y, semClear x c = y := ⟨_, rfl⟩
  obtain ⟨n, hn⟩ : ∃ n, cellFinish s c = { eccClear (stateClear y c) c with notices := n } := by
    unfold cellFinish; dsimp only; rw [hx, hy]; exact ⟨_, rfl⟩
  have e : (cellFinish s c).parts = y.parts := by rw [hn]; rfl
  rw [e, ← hy, (semClear_parts x c).1, ← hx]; rfl

/-- The cells of a partition at the end of its reset (R431, R527). -/
theorem cellFinish_events : ∀ (l : List Nat) (s : State), (l.foldl (fun t c => raise (cellFinish t c) (pgCelErr c) 4) s).parts = s.parts ∧
    ∀ e, cellGet (l.foldl (fun t c => raise (cellFinish t c) (pgCelErr c) 4) s) e = if e ∈ l then cellInit else cellGet s e
  | [], s => ⟨rfl, fun e => by simp⟩
  | c :: l, s => by
    obtain ⟨b1, b2⟩ := cellFinish_events l (raise (cellFinish s c) (pgCelErr c) 4)
    rw [List.foldl_cons]
    refine ⟨by rw [b1, raise_parts, cellFinish_parts], fun e => ?_⟩
    rw [b2 e, cellGet_congr (raise_cells _ _ _) e, cellGet_congr (cellFinish_frame s c).1 e]
    by_cases h : e = c
    · subst h; rw [cellGet_cellPut_same]; simp
    · rw [cellGet_cellPut_ne s _ h]; simp [h]

theorem cqIrq_parts (s : State) (p q : Nat) : (cqIrq s p q).parts = s.parts ∧ (cqIrq s p q).cells = s.cells := by
  unfold cqIrq; dsimp only
  split
  · obtain ⟨m, h, e⟩ := msixSend_frame (cqPut s p q { cqGet s p q with irq := cqCountDue s p q || cqTimeDue s p q }) (p + 1) q
    rw [e]; exact ⟨rfl, rfl⟩
  · exact ⟨rfl, rfl⟩

theorem compWrite_parts (s : State) (p q n : Nat) : (compWrite s p q n).parts = s.parts ∧ (compWrite s p q n).cells = s.cells := by
  cases hh : (cqGet s p q).held with
  | nil => unfold compWrite; dsimp only; rw [hh]; exact ⟨rfl, rfl⟩
  | cons c t =>
    by_cases h1 : (!cqRoom s p q) = true
    · unfold compWrite; dsimp only; rw [hh]; dsimp only; rw [if_pos h1]; exact ⟨rfl, rfl⟩
    · by_cases h2 : 2 ≤ n
      · unfold compWrite; dsimp only; rw [hh]; dsimp only; rw [if_neg h1, if_pos h2]
        simp [vfEvt, cqSetState]
      · obtain ⟨x, hx, e⟩ : ∃ x : State, (x.parts = s.parts ∧ x.cells = s.cells) ∧ compWrite s p q n = cqIrq x p q := by
          unfold compWrite; dsimp only; rw [hh]; dsimp only; rw [if_neg h1, if_neg h2]
          refine ⟨_, ⟨?_, ?_⟩, rfl⟩ <;> simp
        rw [e]
        obtain ⟨g1, g2⟩ := cqIrq_parts x p q
        exact ⟨g1.trans hx.1, g2.trans hx.2⟩

theorem writeAll_parts : ∀ (n : Nat) (s : State) (p q : Nat), (writeAll s p q n).parts = s.parts ∧ (writeAll s p q n).cells = s.cells
  | 0, _, _, _ => ⟨rfl, rfl⟩
  | n + 1, s, p, q => by
    unfold writeAll
    split
    · obtain ⟨h1, h2⟩ := writeAll_parts n (compWrite s p q 0) p q
      obtain ⟨g1, g2⟩ := compWrite_parts s p q 0
      exact ⟨h1.trans g1, h2.trans g2⟩
    · exact ⟨rfl, rfl⟩

theorem queueOff_parts (s : State) (p q : Nat) : (sqSetState (rsetBits (sqPut (cqSetState (rsetBits s (cqReg p q 8) 0 0 0) p q 0) p q ⟨[], [], []⟩) (sqReg p q 8) 0 0 0) p q 0).parts = s.parts ∧
    (sqSetState (rsetBits (sqPut (cqSetState (rsetBits s (cqReg p q 8) 0 0 0) p q 0) p q ⟨[], [], []⟩) (sqReg p q 8) 0 0 0) p q 0).cells = s.cells := by
  simp [sqSetState, cqSetState]

theorem queuesOff_parts (s : State) (p : Nat) : (queuesOff s p).parts = s.parts ∧ (queuesOff s p).cells = s.cells := by
  unfold queuesOff
  generalize List.range 16 = l
  induction l generalizing s with
  | nil => exact ⟨rfl, rfl⟩
  | cons q l ih =>
    rw [List.foldl_cons]; dsimp only
    obtain ⟨g1, g2⟩ := writeAll_parts (cqGet s p q).held.length s p q
    obtain ⟨x, hx⟩ : ∃ x, writeAll s p q (cqGet s p q).held.length = x := ⟨_, rfl⟩
    rw [hx] at g1 g2 ⊢
    obtain ⟨k1, k2⟩ := queueOff_parts x p q
    obtain ⟨y, hy⟩ : ∃ y, sqSetState (rsetBits (sqPut (cqSetState (rsetBits x (cqReg p q 8) 0 0 0) p q 0) p q ⟨[], [], []⟩) (sqReg p q 8) 0 0 0) p q 0 = y := ⟨_, rfl⟩
    rw [hy] at k1 k2 ⊢
    obtain ⟨h1, h2⟩ := ih y
    exact ⟨h1.trans (k1.trans g1), h2.trans (k2.trans g2)⟩

theorem cellsEnable_parts (s : State) (p v : Nat) : (cellsEnable s p v).parts = s.parts ∧ (cellsEnable s p v).cells = s.cells := by
  unfold cellsEnable
  exact ⟨foldl_field State.parts (fun t c => rsetBits t (pgCel c + 8) 0 0 v) (fun _ _ => rfl) (partGet s p).cells s,
    foldl_field State.cells (fun t c => rsetBits t (pgCel c + 8) 0 0 v) (fun _ _ => rfl) (partGet s p).cells s⟩

theorem releasePart_parts (s : State) (p : Nat) : partGet (releasePart s p) p = partNone ∧ (releasePart s p).cells = s.cells := by
  obtain ⟨s1, h1⟩ : ∃ s1, (List.range 8).foldl (fun t st => rset (rset (creditPut t (weiAddr st p) 0) (weiAddr st p) 0) (weiAddr st p + 4) 0) s = s1 := ⟨_, rfl⟩
  have f1 : s1.cells = s.cells := by
    rw [← h1]; exact foldl_field State.cells (fun t st => rset (rset (creditPut t (weiAddr st p) 0) (weiAddr st p) 0) (weiAddr st p + 4) 0) (fun _ _ => rfl) (List.range 8) s
  obtain ⟨s2, h2⟩ : ∃ s2, [0, 4, 8, 12].foldl (fun t o => rset t (flsAddr p + o) 0) (creditPut s1 (flsAddr p) 0) = s2 := ⟨_, rfl⟩
  have f2 : s2.cells = s1.cells := by
    rw [← h2]; exact foldl_field State.cells (fun t o => rset t (flsAddr p + o) 0) (fun _ _ => rfl) [0, 4, 8, 12] (creditPut s1 (flsAddr p) 0)
  obtain ⟨s3, h3⟩ : ∃ s3, (List.range 16).foldl (fun t g => rset (rset (creditPut t (lnkAddr g p) 0) (lnkAddr g p) 0) (lnkAddr g p + 4) 0)
    { s2 with wins := tabPut (fun _ => ((0, 0) : Nat × Nat)) s2.wins p (0, 0) } = s3 := ⟨_, rfl⟩
  have f3 : s3.cells = s2.cells := by
    rw [← h3]; exact foldl_field State.cells (fun t g => rset (rset (creditPut t (lnkAddr g p) 0) (lnkAddr g p) 0) (lnkAddr g p + 4) 0) (fun _ _ => rfl) (List.range 16) _
  obtain ⟨s4, h4⟩ : ∃ s4, (partGet s p).cells.foldl (fun t c => rset (rsetBits t (pgCel c + 8) 0 0 0) (pgCel c + 0x40) 0) s3 = s4 := ⟨_, rfl⟩
  have f4 : s4.cells = s3.cells := by
    rw [← h4]; exact foldl_field State.cells (fun t c => rset (rsetBits t (pgCel c + 8) 0 0 0) (pgCel c + 0x40) 0) (fun _ _ => rfl) (partGet s p).cells s3
  have e : releasePart s p = channelsOff (partPut s4 p partNone) (mVf p) := by
    unfold releasePart; dsimp only; rw [h1, h2, h3, h4]
  rw [e]
  have T := channelTouch_all (partPut s4 p partNone) (mVf p)
  refine ⟨(partGet_congr (channelTouch_field T State.parts (fun _ _ _ _ _ _ _ => rfl)) p).trans (partGet_put_same _ _ _), ?_⟩
  exact (channelTouch_field T State.cells (fun _ _ _ _ _ _ _ => rfl)).trans (f4.trans (f3.trans (f2.trans f1)))

theorem partForget_groups (s : State) (p : Nat) :
    (∀ g ∈ (partForget s p).cgroups, g.part ≠ p) ∧ (∀ x ∈ (partForget s p).cruns, x.part ≠ p) := by
  constructor
  · intro g hg; simpa using (List.mem_filter.mp hg).2
  · intro g hg; simpa using (List.mem_filter.mp hg).2

theorem cancelPart_groups (s : State) (p : Nat) (data : List (Nat × List Byte)) :
    (∀ g ∈ (cancelPart s p data).cgroups, g.part ≠ p) ∧ (∀ x ∈ (cancelPart s p data).cruns, x.part ≠ p) := by
  unfold cancelPart; exact partForget_groups _ p

theorem prtAnswer_parts (s : State) (p : Nat) : (prtAnswer s p).parts = s.parts ∧ (prtAnswer s p).cells = s.cells := by
  unfold prtAnswer
  split
  · split
    · obtain ⟨_, d2, d3, _⟩ := prtDone_spec (s := s) (st := stOk) (d := 0) rfl
      exact ⟨d2, d3⟩
    · exact ⟨rfl, rfl⟩
  · exact ⟨rfl, rfl⟩

/-- The end of a partition's reset (R419, R435). -/
theorem partEnd_spec {s t : State} {p : Nat} {r : ResetRun} {l : List Nat} (h : partEnd s p r l = t) :
    ((partAfter s p r).st ≠ 4 → partGet t p = partAfter s p r) ∧ ((partAfter s p r).st = 4 → partGet t p = partNone) ∧ t.cells = s.cells := by
  obtain ⟨x, hx⟩ : ∃ x, partAfter s p r = x := ⟨_, rfl⟩
  obtain ⟨y, hy⟩ : ∃ y, resetsForget (partPut s p x) l = y := ⟨_, rfl⟩
  obtain ⟨z, hz⟩ : ∃ z, logErr (raise (raise y pgPrt 4) (pgPartId p) 2) pgPrt 2 4 = z := ⟨_, rfl⟩
  have T : Touches [pgPrt + 0x10, pgPartId p + 0x10] y z := by
    rw [← hz]; exact touches_trans (touches_trans (touches_raise _ _ (by simp)) (touches_raise _ _ (by simp))) (touches_logErr _ _ _ _)
  have f1 : z.parts = y.parts := touches_field T State.parts (fun _ _ _ _ _ _ => rfl)
  have f2 : z.cells = y.cells := touches_field T State.cells (fun _ _ _ _ _ _ => rfl)
  have g : partGet z p = x := by
    rw [partGet_congr f1, ← hy]; exact partGet_put_same s p x
  have c : z.cells = s.cells := by rw [f2, ← hy]; rfl
  unfold partEnd at h
  dsimp only at h
  rw [hx, hy, hz] at h
  rw [hx]
  by_cases q : x.st = 4
  · rw [if_pos q] at h
    obtain ⟨r1, r2⟩ := releasePart_parts z p
    rw [h] at r1 r2
    exact ⟨fun k => absurd q k, fun _ => r1, r2.trans c⟩
  · rw [if_neg q] at h
    obtain ⟨r1, r2⟩ := cellsEnable_parts z p 1
    rw [h] at r1 r2
    exact ⟨fun _ => (partGet_congr r1 p).trans g, fun k => absurd k q, r2.trans c⟩

end Sys2Proof.Machine
end

