-- ==== Sys2Proof/Laws/Queues.lean ====
section
/-!
SUPPORT. Laws/Queues.lean: the host's queues and the recording of a command's status (R445 to R457).
-/

namespace Sys2Proof.Machine

theorem sqGet_put (s : State) (p q : Nat) (x : Sq) : sqGet (sqPut s p q x) p q = x := by unfold sqGet sqPut; exact tabGet_put _ _ _ _
theorem cqGet_put (s : State) (p q : Nat) (x : Cq) : cqGet (cqPut s p q x) p q = x := by unfold cqGet cqPut; exact tabGet_put _ _ _ _
theorem sqGet_congr {s t : State} (h : t.sqs = s.sqs) (p q : Nat) : sqGet t p q = sqGet s p q := by unfold sqGet; rw [h]
theorem cqGet_congr {s t : State} (h : t.cqs = s.cqs) (p q : Nat) : cqGet t p q = cqGet s p q := by unfold cqGet; rw [h]

theorem compPush_frame (s : State) (p q : Nat) (c : Comp) : ∃ x, compPush s p q c = { s with cqs := x } := ⟨_, rfl⟩

theorem compPush_held (s : State) (p q : Nat) (c : Comp) : (cqGet (compPush s p q c) p q).held = (cqGet s p q).held ++ [c] := by
  unfold compPush; dsimp only; rw [cqGet_put]

/-- The completions of a command's duplicates. -/
theorem dups_spec (p q a : Nat) (f : Nat → Comp) : ∀ (l : List Nat) (s t : State), l.foldl (fun u w => bumpSat (compPush u p q (f w)) a 1) s = t →
    (cqGet t p q).held = (cqGet s p q).held ++ l.map f ∧ (∃ x y, t = { s with cqs := x, regs := y }) ∧ ∀ b, b ≠ a → rget t b = rget s b
  | [], s, t, h => by subst h; exact ⟨by simp, ⟨s.cqs, s.regs, rfl⟩, fun _ _ => rfl⟩
  | w :: l, s, t, h => by
    rw [List.foldl_cons] at h
    obtain ⟨x, hx⟩ := compPush_frame s p q (f w)
    obtain ⟨y, hy⟩ : ∃ y, bumpSat (compPush s p q (f w)) a 1 = y := ⟨_, rfl⟩
    rw [hy] at h
    obtain ⟨h1, ⟨x', y', h2⟩, h3⟩ := dups_spec p q a f l y t h
    have e : (cqGet y p q).held = (cqGet s p q).held ++ [f w] := by
      rw [← hy, ← compPush_held]; congr 1
    have g : ∃ z, y = { s with cqs := x, regs := z } := by rw [← hy, hx]; exact ⟨_, rfl⟩
    obtain ⟨z, g⟩ := g
    refine ⟨by rw [h1, e]; simp, ⟨x', y', by rw [h2, g]⟩, fun b hb => ?_⟩
    rw [h3 b hb, ← hy]
    show rget (rset _ a _) b = _
    rw [rget_rset_ne _ _ hb, rget_congr (show (compPush s p q (f w)).regs = s.regs by rw [hx])]

/-- R453, R457: recording a status. -/
theorem recordCmd_answered (s : State) (c : Cmd) (st res : Nat) : Answered s (recordCmd s c st res) c st res := by
  obtain ⟨s1, h1⟩ : ∃ s1, sqPut s c.part c.sq { sqGet s c.part c.sq with seen := (sqGet s c.part c.sq).seen.map (fun e => if e.1 = c.seq then (c.seq, some (st, res)) else e) } = s1 := ⟨_, rfl⟩
  obtain ⟨q, hq⟩ : ∃ q, sqCq s c.part c.sq = q := ⟨_, rfl⟩
  obtain ⟨s2, h2⟩ : ∃ s2, compPush s1 c.part q ⟨c.seq, c.sq, st, st, res, s.sclTime, c.user⟩ = s2 := ⟨_, rfl⟩
  obtain ⟨y1, e1⟩ : ∃ y, s1 = { s with sqs := y } := by rw [← h1]; exact ⟨_, rfl⟩
  obtain ⟨y2, e2⟩ : ∃ y, s2 = { s with sqs := y1, cqs := y } := by
    obtain ⟨x, hx⟩ := compPush_frame s1 c.part q ⟨c.seq, c.sq, st, st, res, s.sclTime, c.user⟩
    rw [← h2, hx, e1]; exact ⟨_, rfl⟩
  have k2 : (cqGet s2 c.part q).held = (cqGet s c.part q).held ++ [⟨c.seq, c.sq, st, st, res, s.sclTime, c.user⟩] := by
    rw [← h2, compPush_held, cqGet_congr (show s1.cqs = s.cqs by rw [e1])]
  obtain ⟨s3, h3⟩ : ∃ s3, c.dups.foldl (fun u w => bumpSat (compPush u c.part q ⟨c.seq, c.sq, stDuplicate, st, res, s.sclTime, w⟩) (sqReg c.part c.sq 0x18) 1) s2 = s3 := ⟨_, rfl⟩
  obtain ⟨d1, ⟨x, y, d2⟩, d3⟩ := dups_spec c.part q (sqReg c.part c.sq 0x18) (fun w => ⟨c.seq, c.sq, stDuplicate, st, res, s.sclTime, w⟩) c.dups s2 s3 h3
  have e : recordCmd s c st res = { s3 with cmds := s3.cmds.erase c } := by
    unfold recordCmd; dsimp only; rw [hq, h1, h2, h3]
  rw [e]
  unfold Answered
  rw [hq]
  refine ⟨by show s3.cmds.erase c = _; rw [d2, e2], ?_, by rw [d2, e2], fun a ha => ?_⟩
  · show (cqGet s3 c.part q).held = _
    rw [d1, k2]; simp
  · show rget s3 a = _
    rw [d3 a ha, rget_congr (show s2.regs = s.regs by rw [e2])]

/-- A field of the state that recording a status leaves. -/
theorem Answered.field {s t : State} {c : Cmd} {st res : Nat} (h : Answered s t c st res) {α : Type} (f : State → α)
    (hf : ∀ u a b d e, f { u with sqs := a, cqs := b, cmds := d, regs := e } = f u) : f t = f s := by
  have k := congrArg f h.2.2.1
  rw [hf] at k; exact k

theorem Answered.inside {s t : State} {c : Cmd} {st res : Nat} (h : Answered s t c st res) : Answered s (within s t) c st res := by
  obtain ⟨h1, h2, h3, h4⟩ := h
  refine ⟨h1, h2, ?_, h4⟩
  have k := congrArg (within s) h3
  exact k

/-- R27: a command without a status gets it. -/
theorem cmdDone_answered {s : State} {c : Cmd} (h : cmdAt s c.part c.sq c.seq = some c) (st res : Nat) : Answered s (cmdDone s c st res) c st res := by
  unfold cmdDone complete; rw [h]; exact recordCmd_answered s c st res

theorem Next.tag {s : State} {p q op : Nat} {c : Cmd} (h : Next s p q op c) : c.part = p ∧ c.sq = q := by
  have := List.find?_some h.2.2
  simp only [Bool.and_eq_true, beq_iff_eq] at this
  exact ⟨this.1.1, this.1.2⟩

theorem Next.at {s : State} {p q op : Nat} {c : Cmd} (h : Next s p q op c) : cmdAt s c.part c.sq c.seq = some c := by
  rw [h.tag.1, h.tag.2]; exact h.2.2

theorem jigPush_pushed (s : State) (c : Nat) (j : Jig) : jigPush s c j = cellPut s c (pushed (cellGet s c) j) := by
  unfold jigPush pushed
  by_cases h : (cellGet s c).queue.length < 16 ∧ (cellGet s c).held = []
  · rw [if_pos h]; simp only [h.2, List.isEmpty_nil, and_true]; rw [if_pos h.1]
  · rw [if_neg h]
    rw [if_neg]
    rintro ⟨a, b⟩; exact h ⟨a, by simpa using b⟩

theorem jigPush_fold (j : Jig) : ∀ (l : List Nat) (s t : State), l.Nodup → l.foldl (fun u x => jigPush u x j) s = t →
    (∀ x, cellGet t x = if x ∈ l then pushed (cellGet s x) j else cellGet s x) ∧ t.cmds = s.cmds ∧ t.mems = s.mems ∧ t.regs = s.regs
  | [], s, t, _, h => by subst h; simp
  | c :: l, s, t, hn, h => by
    rw [List.foldl_cons, jigPush_pushed] at h
    obtain ⟨h1, h2, h3, h4⟩ := jigPush_fold j l _ t (List.nodup_cons.mp hn).2 h
    refine ⟨fun x => ?_, h2, h3, h4⟩
    rw [h1 x]
    by_cases q : x = c
    · subst q
      rw [if_neg (List.nodup_cons.mp hn).1, cellGet_cellPut_same, if_pos List.mem_cons_self]
    · rw [cellGet_cellPut_ne _ _ q]; simp [q]

theorem pgSub_val (p : Nat) : pgSub p = 0x20001000 + p * 0x10000 := by unfold pgSub vfBase; omega
theorem pgCmp_val (p : Nat) : pgCmp p = 0x20002000 + p * 0x10000 := by unfold pgCmp vfBase; omega
theorem pgVfEvt_val (p : Nat) : pgVfEvt p = 0x20004000 + p * 0x10000 := by unfold pgVfEvt vfBase; omega

theorem rget_sqSetState (s : State) (p q v : Nat) {a : Nat} (h : a ≠ sqReg p q 0x10) (k : a ≠ pgVfEvt p + 0x40) : rget (sqSetState s p q v) a = rget s a := by
  unfold sqSetState; rw [rget_rset_ne _ _ k, rget_rsetBits_ne _ _ _ _ h]

theorem sqSetState_state (s : State) (p q v : Nat) (_ : q < 16) (hv : v < 4) : sqState (sqSetState s p q v) p q = v := by
  unfold sqState sqSetState
  rw [rbits_congr (rget_rset_ne _ _ (by unfold sqReg; rw [pgSub_val, pgVfEvt_val]; omega)), rbits_rsetBits_same _ _ _ _ _ (by decide) (by decide)]
  omega

theorem rget_cqSetState (s : State) (p q v : Nat) {a : Nat} (h : a ≠ cqReg p q 0x10) (k : a ≠ pgVfEvt p + 0x44) : rget (cqSetState s p q v) a = rget s a := by
  unfold cqSetState; rw [rget_rset_ne _ _ k, rget_rsetBits_ne _ _ _ _ h]

theorem cqSetState_state (s : State) (p q v : Nat) (_ : q < 16) (hv : v < 4) : cqState (cqSetState s p q v) p q = v := by
  unfold cqState cqSetState
  rw [rbits_congr (rget_rset_ne _ _ (by unfold cqReg; rw [pgCmp_val, pgVfEvt_val]; omega)), rbits_rsetBits_same _ _ _ _ _ (by decide) (by decide)]
  omega

theorem vfEvt_touches (s : State) (p e : Nat) : Touches [pgVfEvt p + 0x10] s (vfEvt s p e) := touches_raise _ _ (by simp)

theorem vfEvt_bit (s : State) (p e i : Nat) (h : e.testBit i = true) (hi : i < 32) : (rget (vfEvt s p e) (pgVfEvt p + 0x10)).testBit i = true := by
  have e0 : pgErr = 0x800000 := rfl
  exact raise_bit _ _ _ _ h hi (by rw [pgVfEvt_val]; omega) (by rw [pgVfEvt_val]; omega)

theorem cqIrq_spec {s t : State} {p q : Nat} (h : cqIrq s p q = t) :
    cqGet t p q = { cqGet s p q with irq := cqCountDue s p q || cqTimeDue s p q } ∧ t.regs = s.regs ∧ t.mems = s.mems ∧ t.stop = s.stop ∧ t.cmds = s.cmds := by
  obtain ⟨x, hx⟩ : ∃ x, cqPut s p q { cqGet s p q with irq := cqCountDue s p q || cqTimeDue s p q } = x := ⟨_, rfl⟩
  have hg : cqGet x p q = { cqGet s p q with irq := cqCountDue s p q || cqTimeDue s p q } := by rw [← hx, cqGet_put]
  have hf : x.regs = s.regs ∧ x.mems = s.mems ∧ x.stop = s.stop ∧ x.cmds = s.cmds := by rw [← hx]; simp
  unfold cqIrq at h; dsimp only at h
  rw [hx] at h
  split at h
  · obtain ⟨m, k, e⟩ := msixSend_frame x (p + 1) q
    rw [e] at h
    subst h
    exact ⟨hg, hf.1, hf.2.1, hf.2.2.1, hf.2.2.2⟩
  · subst h; exact ⟨hg, hf.1, hf.2.1, hf.2.2.1, hf.2.2.2⟩

theorem compWrite_ok {s t : State} {p q n : Nat} {c : Comp} {l : List Comp} (h : (cqGet s p q).held = c :: l) (hr : cqRoom s p q = true) (hn : n < 2) (ht : compWrite s p q n = t) :
    t.mems = memsWrite s.mems .host (rget64 s (cqReg p q 0) + 32 * rbits s (cqReg p q 0x10) 15 0) (compBytes c (cqGet s p q).phase) ∧ (cqGet t p q).held = l ∧
    (cqGet t p q).phase = (if rbits s (cqReg p q 0x10) 15 0 + 1 = cqSize s p q then !(cqGet s p q).phase else (cqGet s p q).phase) ∧
    rget t (cqReg p q 0x10) = setBits (rget s (cqReg p q 0x10)) 15 0 (if rbits s (cqReg p q 0x10) 15 0 + 1 = cqSize s p q then 0 else rbits s (cqReg p q 0x10) 15 0 + 1) % 2 ^ 32 ∧
    t.stop = s.stop := by
  unfold compWrite at ht; dsimp only at ht
  rw [h] at ht; dsimp only at ht
  rw [if_neg (by simp [hr]), if_neg (by omega)] at ht
  obtain ⟨tail, htl⟩ : ∃ tail, rbits s (cqReg p q 0x10) 15 0 = tail := ⟨_, rfl⟩
  obtain ⟨ph, hph⟩ : ∃ ph, (cqGet s p q).phase = ph := ⟨_, rfl⟩
  rw [htl, hph] at ht ⊢
  obtain ⟨x, hx⟩ : ∃ x, wr s .host (rget64 s (cqReg p q 0) + 32 * tail) (compBytes c ph) = x := ⟨_, rfl⟩
  obtain ⟨y, hy⟩ : ∃ y, rsetBits x (cqReg p q 0x10) 15 0 (if tail + 1 = cqSize s p q then 0 else tail + 1) = y := ⟨_, rfl⟩
  rw [hx, hy] at ht
  obtain ⟨z, hz⟩ : ∃ z, cqPut y p q { held := l, phase := if tail + 1 = cqSize s p q then !ph else ph, times := (cqGet s p q).times ++ [s.now], irq := (cqGet s p q).irq, waitNs := (cqGet s p q).waitNs } = z := ⟨_, rfl⟩
  rw [hz] at ht
  obtain ⟨i1, i2, i3, i4, _⟩ := cqIrq_spec ht
  have xm : x.mems = memsWrite s.mems .host (rget64 s (cqReg p q 0) + 32 * tail) (compBytes c ph) ∧ x.regs = s.regs ∧ x.stop = s.stop := by rw [← hx]; exact ⟨wr_mems _ _ _ _, wr_regs _ _ _ _, wr_stop _ _ _ _⟩
  have zg : cqGet z p q = { held := l, phase := if tail + 1 = cqSize s p q then !ph else ph, times := (cqGet s p q).times ++ [s.now], irq := (cqGet s p q).irq, waitNs := (cqGet s p q).waitNs } := by
    rw [← hz, cqGet_put]
  refine ⟨?_, by rw [i1, zg], by rw [i1, zg], ?_, ?_⟩
  · rw [i3, ← hz, cqPut_mems, ← hy, rsetBits_mems, xm.1]
  · rw [rget_congr i2, ← hz, rget_congr (cqPut_regs _ _ _ _), ← hy, rget_rsetBits, rget_congr xm.2.1]
  · rw [i4, ← hz, cqPut_stop, ← hy, rsetBits_stop, xm.2.2]

theorem bits_set_11_4 (n v : Nat) (_ : n < 2 ^ 32) : bits (setBits n 11 4 (bits v 11 4) % 2 ^ 32) 7 4 = bits v 7 4 := by
  rw [bits_eq, bits_eq, setBits_eq, bits_eq]; omega

theorem bits_set_7_4 (n v : Nat) (_ : n < 2 ^ 32) : bits (setBits n 7 4 (bits v 7 4) % 2 ^ 32) 7 4 = bits v 7 4 := by
  rw [bits_eq, bits_eq, setBits_eq]; omega

theorem bits_set_0 (n : Nat) (h : n < 2 ^ 32) : bits (setBits n 0 0 1 % 2 ^ 32) 7 4 = bits n 7 4 := by
  rw [bits_eq, bits_eq, setBits_eq]; omega

theorem sqReg_val (p q o : Nat) : sqReg p q o = 0x20001100 + p * 0x10000 + 32 * q + o := by unfold sqReg; rw [pgSub_val]; omega
theorem sqTail_val (p q : Nat) : sqTail p q = 0x20001040 + p * 0x10000 + 4 * q := by unfold sqTail; rw [pgSub_val]; omega
theorem cqReg_val (p q o : Nat) : cqReg p q o = 0x20002100 + p * 0x10000 + 32 * q + o := by unfold cqReg; rw [pgCmp_val]; omega
theorem cqHead_val (p q : Nat) : cqHead p q = 0x20002040 + p * 0x10000 + 4 * q := by unfold cqHead; rw [pgCmp_val]; omega

/-- R448, R450, R456: an SQ is enabled. -/
theorem sqCtrl_on {s t : State} {p q v : Nat} {data : List Byte} (h : sqCtrl s p q v data = t) (hq : q < 16) (h0 : sqState s p q = 0) (hv : bit v 0 = true)
    (h1 : 6 ≤ bits v 7 4) (h2 : bits v 7 4 ≤ 12) (h3 : rget s (sqReg p q 0) % 4096 = 0) :
    sqState t p q = 1 ∧ sqGet t p q = ⟨[], [], []⟩ ∧ rget t (sqTail p q) = 0 ∧ sqSize t p q = 2 ^ bits v 7 4 ∧
    rget t (sqReg p q 0x14) = (rget s (sqReg p q 0xC) + 0xFFFFFFFF) % 2 ^ 32 ∧ t.mems = s.mems := by
  obtain ⟨s1, e1⟩ : ∃ s1, rsetBits s (sqReg p q 8) 11 4 (bits v 11 4) = s1 := ⟨_, rfl⟩
  have r1 : ∀ a, a ≠ sqReg p q 8 → rget s1 a = rget s a := fun a ha => by rw [← e1, rget_rsetBits_ne _ _ _ _ ha]
  have l1 : rbits s1 (sqReg p q 8) 7 4 = bits v 7 4 := by
    unfold rbits; rw [← e1, rget_rsetBits, bits_set_11_4 _ _ (rget_lt s _)]
  obtain ⟨s2, e2⟩ : ∃ s2, rsetBits s1 (sqReg p q 8) 0 0 1 = s2 := ⟨_, rfl⟩
  have l2 : rbits s2 (sqReg p q 8) 7 4 = bits v 7 4 := by
    have : rget s2 (sqReg p q 8) = setBits (rget s1 (sqReg p q 8)) 0 0 1 % 2 ^ 32 := by rw [← e2, rget_rsetBits]
    rw [← l1]; unfold rbits; rw [this]
    exact bits_set_0 _ (rget_lt s1 _)
  have r2 : ∀ a, a ≠ sqReg p q 8 → rget s2 a = rget s a := fun a ha => by rw [← e2, rget_rsetBits_ne _ _ _ _ ha, r1 a ha]
  obtain ⟨s3, e3⟩ : ∃ s3, rset (rset s2 (sqTail p q) 0) (sqReg p q 0x10) 0 = s3 := ⟨_, rfl⟩
  have r3 : ∀ a, a ≠ sqReg p q 0x10 → a ≠ sqTail p q → rget s3 a = rget s2 a := fun a ha hb => by rw [← e3, rget_rset_ne _ _ ha, rget_rset_ne _ _ hb]
  obtain ⟨s4, e4⟩ : ∃ s4, sqPut (rset s3 (sqReg p q 0x14) (rget s3 (sqReg p q 0xC) + 0xFFFFFFFF)) p q ⟨[], [], []⟩ = s4 := ⟨_, rfl⟩
  have r4 : ∀ a, a ≠ sqReg p q 0x14 → rget s4 a = rget s3 a := fun a ha => by
    rw [← e4, rget_congr (sqPut_regs _ _ _ _), rget_rset_ne _ _ ha]
  have e : t = sqSetState s4 p q 1 := by
    rw [← h]; unfold sqCtrl; dsimp only
    rw [if_pos h0, if_pos hv, if_neg (by simp [h0]), e1, l1, if_neg (by rw [r1 _ (by simp only [sqReg_val]; omega)]; omega), e2, e3, e4]
  have rt : ∀ a, a ≠ sqReg p q 0x10 → a ≠ pgVfEvt p + 0x40 → rget t a = rget s4 a := fun a ha hb => by rw [e]; exact rget_sqSetState _ _ _ _ ha hb
  refine ⟨by rw [e]; exact sqSetState_state _ _ _ _ hq (by decide), ?_, ?_, ?_, ?_, ?_⟩
  · have : t.sqs = s4.sqs := by rw [e]; simp [sqSetState]
    rw [sqGet_congr this, ← e4, sqGet_put]
  · rw [rt _ (by simp only [sqReg_val, sqTail_val]; omega) (by simp only [sqTail_val, pgVfEvt_val]; omega), r4 _ (by simp only [sqReg_val, sqTail_val]; omega), ← e3,
      rget_rset_ne _ _ (by simp only [sqReg_val, sqTail_val]; omega), rget_rset_same]; rfl
  · unfold sqSize
    have : rget t (sqReg p q 8) = rget s2 (sqReg p q 8) := by
      rw [rt _ (by simp only [sqReg_val]; omega) (by simp only [sqReg_val, pgVfEvt_val]; omega), r4 _ (by simp only [sqReg_val]; omega),
        r3 _ (by simp only [sqReg_val]; omega) (by simp only [sqReg_val, sqTail_val]; omega)]
    rw [rbits_congr this, l2]
  · rw [rt _ (by simp only [sqReg_val]; omega) (by simp only [sqReg_val, pgVfEvt_val]; omega), ← e4, rget_congr (sqPut_regs _ _ _ _), rget_rset_same,
      r3 _ (by simp only [sqReg_val]; omega) (by simp only [sqReg_val, sqTail_val]; omega), r2 _ (by simp only [sqReg_val]; omega)]
  · rw [e, ← e4, ← e3, ← e2, ← e1]; simp [sqSetState]

/-- R449, R450: a CQ is enabled. -/
theorem cqCtrl_on {s t : State} {p q v : Nat} (h : cqCtrl s p q v = t) (hq : q < 16) (h0 : cqState s p q = 0) (hv : bit v 0 = true)
    (h1 : 6 ≤ bits v 7 4) (h3 : rget s (cqReg p q 0) % 4096 = 0) :
    cqState t p q = 1 ∧ (cqGet t p q).held = (cqGet s p q).held ∧ (cqGet t p q).phase = true ∧ rget t (cqHead p q) = 0 ∧ t.mems = s.mems := by
  obtain ⟨s1, e1⟩ : ∃ s1, rsetBits s (cqReg p q 8) 7 4 (bits v 7 4) = s1 := ⟨_, rfl⟩
  have r1 : ∀ a, a ≠ cqReg p q 8 → rget s1 a = rget s a := fun a ha => by rw [← e1, rget_rsetBits_ne _ _ _ _ ha]
  have l1 : rbits s1 (cqReg p q 8) 7 4 = bits v 7 4 := by
    unfold rbits; rw [← e1, rget_rsetBits, bits_set_7_4 _ _ (rget_lt s _)]
  have c1 : cqGet s1 p q = cqGet s p q := by rw [← e1]; exact cqGet_congr (rsetBits_cqs _ _ _ _ _) p q
  obtain ⟨s2, e2⟩ : ∃ s2, rset (rset (rsetBits s1 (cqReg p q 8) 0 0 1) (cqHead p q) 0) (cqReg p q 0x10) 0 = s2 := ⟨_, rfl⟩
  obtain ⟨s3, e3⟩ : ∃ s3, cqPut s2 p q { cqGet s1 p q with phase := true, times := [], irq := false } = s3 := ⟨_, rfl⟩
  have e : t = cqSetState s3 p q 1 := by
    rw [← h]; unfold cqCtrl; dsimp only
    rw [if_pos h0, if_pos hv, if_neg (by simp [h0]), e1, l1, if_neg (by rw [r1 _ (by simp only [cqReg_val]; omega)]; omega), e2, e3]
  have g : cqGet t p q = { cqGet s p q with phase := true, times := [], irq := false } := by
    have : t.cqs = s3.cqs := by rw [e]; simp [cqSetState]
    rw [cqGet_congr this, ← e3, cqGet_put, c1]
  refine ⟨by rw [e]; exact cqSetState_state _ _ _ _ hq (by decide), by rw [g], by rw [g], ?_, ?_⟩
  · rw [e, rget_cqSetState _ _ _ _ (by simp only [cqReg_val, cqHead_val]; omega) (by simp only [cqHead_val, pgVfEvt_val]; omega), ← e3, rget_congr (cqPut_regs _ _ _ _), ← e2,
      rget_rset_ne _ _ (by simp only [cqReg_val, cqHead_val]; omega), rget_rset_same]; rfl
  · rw [e, ← e3, ← e2, ← e1]; simp [cqSetState]

theorem endVisible_sqs (s : State) (p q st : Nat) (data : List Byte) : (endVisible s p q st data).sqs = (sqPut s p q { sqGet s p q with vis := [] }).sqs := by
  unfold endVisible; dsimp only
  generalize (List.range ((sqGet s p q).vis.map (·.2)).sum) = l
  exact foldl_field State.sqs (fun t i => compPush t p (sqCq t p q) ⟨fld (entryOf data i) 4 4, q, st, st, 0, t.sclTime, fld (entryOf data i) 8 8⟩)
    (fun a b => by obtain ⟨x, hx⟩ := compPush_frame a p (sqCq a p q) ⟨fld (entryOf data b) 4 4, q, st, st, 0, a.sclTime, fld (entryOf data b) 8 8⟩; rw [hx]) l _

theorem sqCtrl_off {s t : State} {p q v : Nat} {data : List Byte} (h : sqCtrl s p q v data = t) (hq : q < 16) (hv : bit v 0 = false) :
    sqState t p q = 0 ∧ (sqGet t p q).vis = [] := by
  obtain ⟨s1, e1⟩ : ∃ s1, (if sqState s p q = 0 then rsetBits s (sqReg p q 8) 11 4 (bits v 11 4) else s) = s1 := ⟨_, rfl⟩
  obtain ⟨s2, e2⟩ : ∃ s2, rsetBits (cancelVisible s1 p q data) (sqReg p q 8) 0 0 0 = s2 := ⟨_, rfl⟩
  have e : t = sqSetState s2 p q 0 := by
    rw [← h]; unfold sqCtrl; dsimp only
    rw [e1, if_neg (by simp [hv]), e2]
  refine ⟨by rw [e]; exact sqSetState_state _ _ _ _ hq (by decide), ?_⟩
  have : t.sqs = (sqPut s1 p q { sqGet s1 p q with vis := [] }).sqs := by
    rw [e, ← e2, ← endVisible_sqs s1 p q stCancelledHost data]; simp [sqSetState, cancelVisible]
  rw [sqGet_congr this, sqGet_put]

theorem cqCtrl_off {s t : State} {p q v : Nat} (h : cqCtrl s p q v = t) (hq : q < 16) (hv : bit v 0 = false) : cqState t p q = 0 ∧ cqGet t p q = cqGet s p q := by
  obtain ⟨s1, e1⟩ : ∃ s1, (if cqState s p q = 0 then rsetBits s (cqReg p q 8) 7 4 (bits v 7 4) else s) = s1 := ⟨_, rfl⟩
  have c1 : s1.cqs = s.cqs := by rw [← e1]; split <;> simp
  have e : t = cqSetState (rsetBits s1 (cqReg p q 8) 0 0 0) p q 0 := by
    rw [← h]; unfold cqCtrl; dsimp only
    rw [e1, if_neg (by simp [hv])]
  refine ⟨by rw [e]; exact cqSetState_state _ _ _ _ hq (by decide), ?_⟩
  have : t.cqs = s.cqs := by rw [e]; simp [cqSetState, c1]
  exact cqGet_congr this p q

/-- R446: a doorbell of an SQ in range. -/
theorem sqDoorbell_ok {s t : State} {p q v : Nat} (h : sqDoorbell s p q v = t) (h1 : sqState s p q = 1) (h2 : v < sqSize s p q) (h3 : sqSize s p q ≤ 4096)
    (h4 : rget s (sqTail p q) < sqSize s p q) (h5 : v ≠ rget s (sqTail p q)) :
    rget t (sqTail p q) = v ∧ (sqGet t p q).vis = (sqGet s p q).vis ++ [(s.bell, (v + sqSize s p q - rget s (sqTail p q)) % sqSize s p q)] ∧ t.bell = s.bell + 1 ∧
    t.mems = s.mems ∧ t.cmds = s.cmds := by
  obtain ⟨n, hn⟩ : ∃ n, sqSize s p q = n := ⟨_, rfl⟩
  obtain ⟨o, ho⟩ : ∃ o, rget s (sqTail p q) = o := ⟨_, rfl⟩
  rw [hn] at h2 h3 h4 ⊢
  rw [ho] at h4 h5 ⊢
  obtain ⟨k, hk⟩ : ∃ k, (v + n - o) % n = k := ⟨_, rfl⟩
  have kne : k ≠ 0 := by
    rw [← hk]
    rcases Nat.lt_or_ge v o with g | g
    · rw [Nat.mod_eq_of_lt (by omega)]; omega
    · rw [show v + n - o = (v - o) + n by omega, Nat.add_mod_right, Nat.mod_eq_of_lt (by omega)]; omega
  obtain ⟨s1, e1⟩ : ∃ s1, rset s (sqTail p q) v = s1 := ⟨_, rfl⟩
  have f1 : s1.sqs = s.sqs ∧ s1.bell = s.bell ∧ s1.mems = s.mems ∧ s1.cmds = s.cmds := by rw [← e1]; simp
  obtain ⟨s2, e2⟩ : ∃ s2, sqPut s1 p q { sqGet s1 p q with vis := (sqGet s1 p q).vis ++ [(s1.bell, k)] } = s2 := ⟨_, rfl⟩
  have e : t = { s2 with bell := s1.bell + 1 } := by
    rw [← h]; unfold sqDoorbell; dsimp only
    rw [hn, if_neg (by omega), ho, Nat.mod_eq_of_lt h4, Nat.mod_eq_of_lt (show v < 4096 by omega), hk, if_neg kne, e1, e2]
  rw [e]
  refine ⟨?_, ?_, by rw [← f1.2.1], ?_, ?_⟩
  · show rget s2 _ = _
    rw [← e2, rget_congr (sqPut_regs _ _ _ _), ← e1, rget_rset_same, Nat.mod_eq_of_lt (by omega)]
  · show (sqGet s2 p q).vis = _
    rw [← e2, sqGet_put]; show (sqGet s1 p q).vis ++ _ = _
    rw [sqGet_congr f1.1, f1.2.1, hk]
  · show s2.mems = _; rw [← e2, sqPut_mems, f1.2.2.1]
  · show s2.cmds = _; rw [← e2, sqPut_cmds, f1.2.2.2]

theorem leNat_lt : ∀ l : List Byte, leNat l < 2 ^ (8 * l.length)
  | [] => by decide
  | b :: t => by
    have := leNat_lt t
    have hb : b.toNat < 256 := b.isLt
    rw [List.length_cons, show 8 * (t.length + 1) = 8 * t.length + 8 by ring, pow_add]
    show b.toNat + 256 * leNat t < _
    omega

theorem fld_lt4 (d : List Byte) (o : Nat) : fld d o 4 < 2 ^ 32 := by
  refine lt_of_lt_of_le (leNat_lt _) (Nat.pow_le_pow_right (by decide) ?_)
  have := List.length_take_le 4 (d.drop o); omega

theorem headerFail_congr {s t : State} (h : rget t (pgVer + 0x48) = rget s (pgVer + 0x48)) (e : List Byte) : headerFail t e = headerFail s e := by
  unfold headerFail activeVersion; rw [rbits_congr h]

/-- R456: a number ahead of the window is accepted. -/
theorem takeEntry_ahead {s t : State} {p q b : Nat} {e : List Byte} (h : takeEntry s p q b e = t) (h1 : 1 ≤ (fld e 4 4 + 2 ^ 32 - rget s (sqReg p q 0x14)) % 2 ^ 32)
    (h2 : (fld e 4 4 + 2 ^ 32 - rget s (sqReg p q 0x14)) % 2 ^ 32 < 2 ^ 31) (hc : (sqGet s p q).cancels = []) (hf : headerFail s e = 0) :
    t.cmds = s.cmds ++ [⟨p, q, fld e 4 4, fld e 8 8, e, b, false, [], 0, []⟩] ∧ (sqGet t p q).vis = (sqGet s p q).vis ∧ (fld e 4 4, none) ∈ (sqGet t p q).seen ∧
    rget t (sqReg p q 0x14) = fld e 4 4 % 2 ^ 32 ∧ t.lastTurn = s.lastTurn ∧ t.cells = s.cells ∧ t.mems = s.mems := by
  obtain ⟨w, hw⟩ : ∃ w, windowCut (fld e 4 4) (rget s (sqReg p q 0xC)) (sqGet s p q).seen = w := ⟨_, rfl⟩
  obtain ⟨x, hx⟩ : ∃ x, sqPut (rset s (sqReg p q 0x14) (fld e 4 4)) p q { sqGet s p q with seen := w } = x := ⟨_, rfl⟩
  have xg : sqGet x p q = { sqGet s p q with seen := w } := by rw [← hx, sqGet_put]
  have xf : x.cmds = s.cmds ∧ x.lastTurn = s.lastTurn ∧ x.cells = s.cells ∧ x.mems = s.mems := by rw [← hx]; simp
  have xr : ∀ a, rget x a = rget (rset s (sqReg p q 0x14) (fld e 4 4)) a := fun a => by rw [← hx]; exact rget_congr (sqPut_regs _ _ _ _) a
  have hf' : headerFail x e = 0 := by
    rw [headerFail_congr _ e]; exact hf
    rw [xr, rget_rset_ne _ _ (by rw [sqReg_val]; unfold pgVer; omega)]
  obtain ⟨y, hy⟩ : ∃ y, sqPut x p q { sqGet x p q with seen := (sqGet x p q).seen ++ [(fld e 4 4, none)] } = y := ⟨_, rfl⟩
  have yg : sqGet y p q = { sqGet s p q with seen := w ++ [(fld e 4 4, none)] } := by rw [← hy, sqGet_put, xg]
  have yf : y.cmds = s.cmds ∧ y.lastTurn = s.lastTurn ∧ y.cells = s.cells ∧ y.mems = s.mems ∧ y.regs = x.regs := by
    rw [← hy]; simp only [sqPut_cmds, sqPut_lastTurn, sqPut_cells, sqPut_mems, sqPut_regs]; exact ⟨xf.1, xf.2.1, xf.2.2.1, xf.2.2.2, trivial⟩
  have e' : t = { y with cmds := y.cmds ++ [⟨p, q, fld e 4 4, fld e 8 8, e, b, false, [], 0, []⟩] } := by
    rw [← h]; unfold takeEntry; dsimp only
    rw [if_pos ⟨h1, h2⟩, hw, hx]
    unfold acceptEntry; dsimp only
    rw [if_neg (by rw [xg]; simp [hc]), if_pos hf', hy]
  rw [e']
  refine ⟨by show y.cmds ++ _ = _; rw [yf.1], ?_, ?_, ?_, yf.2.1, yf.2.2.1, yf.2.2.2.1⟩
  · show (sqGet y p q).vis = _; rw [yg]
  · show _ ∈ (sqGet y p q).seen; rw [yg]; simp
  · show rget y _ = _; rw [rget_congr yf.2.2.2.2, xr, rget_rset_same]

end Sys2Proof.Machine
end

