-- ==== Sys2Proof/Laws/Links.lean ====
section
/-!
SUPPORT. Laws/Links.lean: lane groups, frames and remote memory: what training, going down, replays, a frame slot and the notices do (R348 to R363).
-/

namespace Sys2Proof.Machine

theorem lnkGet_put (s : State) (g : Nat) (x : Link) : lnkGet (lnkPut s g x) g = x := by unfold lnkGet lnkPut; exact tabGet_put _ _ _ _
theorem lnkGet_congr {s t : State} (h : t.links = s.links) (g : Nat) : lnkGet t g = lnkGet s g := by unfold lnkGet; rw [h]
theorem lnkUp_congr {s t : State} {g : Nat} (h : rget t (pgLnk g + 0xC) = rget s (pgLnk g + 0xC)) : lnkUp t g = lnkUp s g := by
  unfold lnkUp lnkState; rw [rbits_congr h]
theorem pgLnk_val (g : Fin 16) : pgLnk g = 0x300000 + g.val * 0x10000 := rfl

/-- An event of a group leaves the registers but EVT_RAW, and the error log's. -/
theorem raise_lnk (s : State) (g : Fin 16) (e : Nat) {b : Nat} (h : b < 0x400000) (n : b ≠ pgLnk g + 0x10) : rget (raise s (pgLnk g) e) b = rget s b := by
  have e : pgErr = 0x800000 := rfl
  exact rget_raise_ne _ _ _ n (by omega) (by omega)

theorem raise_lnk_bit (s : State) (g : Fin 16) (e i : Nat) (h : e.testBit i = true) (hi : i < 32) : (rget (raise s (pgLnk g) e) (pgLnk g + 0x10)).testBit i = true := by
  have e : pgErr = 0x800000 := rfl
  have := pgLnk_val g
  exact raise_bit _ _ _ _ h hi (by omega) (by omega)

theorem rget_bumpSat_ne (s : State) {a b : Nat} (n : Nat) (h : b ≠ a) : rget (bumpSat s a n) b = rget s b := rget_rset_ne _ _ h

theorem lnkState_set (s : State) (a v : Nat) (h : v < 4) : rbits (rsetBits s a 1 0 v) a 1 0 = v := by
  rw [rbits_rsetBits_same _ _ _ _ _ (by decide) (by decide)]; omega

theorem trainStart_spec {s t : State} {g : Fin 16} (ht : trainStart s g = t) (h0 : lnkState s g = 0) (he : lnkEnabled s g = true) (hd : devState s = dvConfigured ∨ devState s = dvRunning)
    (h1 : s.stop = none) (h2 : optHot s g = false) (h3 : ownNode s ≠ 0x7FFF) (h4 : regionDark s (g / 4) = false) : t = rsetBits s (pgLnk g + 0xC) 1 0 1 := by
  rw [← ht]
  unfold trainStart
  rw [if_pos (by rcases hd with hd | hd <;> simp [h0, he, hd, h1, h2, h3, h4])]

theorem lnkDown_spec (s : State) (g : Fin 16) (cause : Nat) (hc : cause < 16) (h : lnkState s g ≠ 0) :
    ∃ u, lnkDown s g cause = (let v := fabCut u (fun t => t.group == g.val) (fun f => f.group == g.val) stFailedLink 0
        runsFail v (fun r => (grpAt v r.part r.grp).elim false (fun c => c.uses v g)) stFailedLink 0 true) ∧
      lnkState u g = 0 ∧ rbits u (pgLnk g + 0xC) 7 4 = cause ∧ rget u (pgLnk g + 0x4C) = min (rget s (pgLnk g + 0x4C) + 1) 0xFFFFFFFF ∧
      (rget u (pgLnk g + 0x10)).testBit 1 = true ∧ (lnkGet u g).q = [] ∧ (lnkGet u g).unacked = [] ∧ (lnkGet u g).epi = none ∧ (lnkGet u g).downAt = s.now ∧
      u.mems = s.mems ∧ u.tags = s.tags ∧ u.cmds = s.cmds := by
  have pv := pgLnk_val g
  have hg := g.isLt
  obtain ⟨b, hb⟩ : ∃ b, rsetBits (rsetBits s (pgLnk g + 0xC) 7 4 cause) (pgLnk g + 0xC) 3 0 0 = b := ⟨_, rfl⟩
  obtain ⟨d, hd⟩ : ∃ d, lnkPut b g { linkInit with rx := (lnkGet s g).rx, downAt := s.now, blocked := (lnkGet s g).blocked, probe := (lnkGet s g).probe } = d := ⟨_, rfl⟩
  obtain ⟨x, hx⟩ : ∃ x, bumpSat d (pgLnk g + 0x4C) 1 = x := ⟨_, rfl⟩
  obtain ⟨u, hu⟩ : ∃ u, raise x (pgLnk g) 2 = u := ⟨_, rfl⟩
  have ev : lnkEvt (bumpSat d (pgLnk g + 0x4C) 1) g 2 = u := by rw [hx]; exact hu
  have rC : rget u (pgLnk g + 0xC) = rget b (pgLnk g + 0xC) := by
    rw [← hu, raise_lnk _ _ _ (by omega) (by omega), ← hx, rget_bumpSat_ne _ _ (by omega), rget_congr (show d.regs = b.regs by rw [← hd]; rfl)]
  have l : u.links = d.links := by rw [← hu, raise_links, ← hx, bumpSat_links]
  have lg : lnkGet u g = { linkInit with rx := (lnkGet s g).rx, downAt := s.now, blocked := (lnkGet s g).blocked, probe := (lnkGet s g).probe } := by
    rw [lnkGet_congr l, ← hd, lnkGet_put]
  have vC : rget b (pgLnk g + 0xC) = setBits (setBits (rget s (pgLnk g + 0xC)) 7 4 cause) 3 0 0 := by
    rw [← hb, rget_rsetBits, rget_rsetBits]
    rw [Nat.mod_eq_of_lt (setBits_lt32 _ 7 4 cause (by decide) (by decide) (rget_lt _ _))]
    exact Nat.mod_eq_of_lt (setBits_lt32 _ 3 0 0 (by decide) (by decide) (setBits_lt32 _ 7 4 cause (by decide) (by decide) (rget_lt _ _)))
  refine ⟨u, ?_, ?_, ?_, ?_, ?_, ?_, ?_, ?_, ?_, ?_, ?_, ?_⟩
  · unfold lnkDown
    rw [if_neg h]
    dsimp only
    rw [hb, hd, ev]
  · unfold lnkState rbits
    rw [rC, vC, bits_eq, setBits_eq]; omega
  · unfold rbits
    rw [rC, vC, bits_setBits_ne _ 3 0 0 7 4 (by decide) (by decide), bits_setBits_same _ 7 4 cause (by decide)]; omega
  · rw [← hu, raise_lnk _ _ _ (by omega) (by omega), ← hx, rget_bumpSat_val, rget_congr (show d.regs = b.regs by rw [← hd]; rfl), ← hb,
      rget_rsetBits_ne _ _ _ _ (by omega), rget_rsetBits_ne _ _ _ _ (by omega)]
  · rw [← hu]; exact raise_lnk_bit _ _ _ _ (by decide) (by decide)
  · rw [lg]; rfl
  · rw [lg]; rfl
  · rw [lg]; rfl
  · rw [lg]
  · rw [← hu, raise_mems, ← hx, bumpSat_mems, ← hd, lnkPut_mems, ← hb, rsetBits_mems, rsetBits_mems]
  · rw [← hu, raise_tags, ← hx, bumpSat_tags, ← hd, lnkPut_tags, ← hb, rsetBits_tags, rsetBits_tags]
  · rw [← hu, raise_cmds, ← hx, bumpSat_cmds, ← hd, lnkPut_cmds, ← hb, rsetBits_cmds, rsetBits_cmds]

theorem rxTake_some {s u : State} {g : Nat} {f : Pkt → Bool} {y : Pkt × Nat × Nat} (h : rxTake s g f = some (y, u)) :
    f y.1 = true ∧ ∃ ct, u = lnkPut s g { lnkGet s g with rx := (lnkGet s g).rx.erase y, ctrl := ct } := by
  unfold rxTake at h
  dsimp only at h
  rw [Option.map_eq_some_iff] at h
  obtain ⟨z, h1, h2⟩ := h
  have e := Prod.mk.inj h2
  have hy : z = y := e.1
  subst hy
  exact ⟨by have := List.find?_some h1; exact this, _, e.2.symm⟩
theorem lnkNotice_up {s : State} {g : Nat} {k : Pkt} (h : lnkUp s g = true) : lnkNotice s g k = lnkPut s g { lnkGet s g with q := (lnkGet s g).q ++ [⟨k, 1024, 0, none⟩] } := by
  unfold lnkNotice lnkQueue; rw [if_pos h]; rfl

theorem train_up {s t : State} {g : Fin 16} {node grp lo hi : Nat} (ht : train s g true true node grp 2 lo hi = t) (h0 : lnkState s g = 1) (hn : node < 2 ^ 15) (hg : grp < 256)
    (h1 : rbits s (pgLnk g + 0x40) 14 0 = 0x7FFF ∨ rbits s (pgLnk g + 0x40) 14 0 = node) (h2 : rbits s (pgLnk g + 0x40) 23 16 = 0xFF ∨ rbits s (pgLnk g + 0x40) 23 16 = grp)
    (h3 : lo ≤ 3) (h4 : lo ≤ hi) :
    ∃ k, lnkState t g = 2 ∧ lnkMinor t g = min hi 3 ∧ lnkPeer t g = node ∧ (rget t (pgLnk g + 0x10)).testBit 0 = true ∧
        lnkGet t g = { linkInit with q := [⟨k, 1024, 0, none⟩], downAt := (lnkGet s g).downAt, probe := ((lnkGet s g).probe + 1) % 65536, probeAt := s.now } ∧
        (k.ty, k.dst, k.tag) = (pkProbe, node, ((lnkGet s g).probe + 1) % 65536) ∧ t.mems = s.mems ∧ t.cells = s.cells := by
  have pv := pgLnk_val g
  have hgl := g.isLt
  obtain ⟨a, ha⟩ : ∃ a, rset s (pgLnk g + 0x44) (node % 2 ^ 15 + grp % 256 * 2 ^ 16) = a := ⟨_, rfl⟩
  obtain ⟨b, hb⟩ : ∃ b, rset a (pgLnk g + 0xC) (2 + min hi 3 * 4) = b := ⟨_, rfl⟩
  obtain ⟨d, hd⟩ : ∃ d, lnkPut b g { linkInit with probe := (lnkGet b g).probe, downAt := (lnkGet b g).downAt } = d := ⟨_, rfl⟩
  obtain ⟨x, hx⟩ : ∃ x, raise d (pgLnk g) 1 = x := ⟨_, rfl⟩
  have la : a.links = s.links := by rw [← ha, rset_links]
  have lb : b.links = s.links := by rw [← hb, rset_links, la]
  have gx : lnkGet x g = { linkInit with probe := (lnkGet s g).probe, downAt := (lnkGet s g).downAt } := by
    rw [lnkGet_congr (show x.links = d.links by rw [← hx, raise_links]), ← hd, lnkGet_put, lnkGet_congr lb]
  obtain ⟨z, hz⟩ : ∃ z, lnkPut x g { lnkGet x g with probe := ((lnkGet s g).probe + 1) % 65536, probeAt := x.now } = z := ⟨_, rfl⟩
  obtain ⟨k, hk⟩ : ∃ k, notePkt x pkProbe (lnkPeer x g) (((lnkGet s g).probe + 1) % 65536) (leBytes 8 0) = k := ⟨_, rfl⟩
  have xr : ∀ r, r < 0x400000 → r ≠ pgLnk g + 0x10 → rget x r = rget b r := by
    intro r h n
    rw [← hx, raise_lnk _ _ _ h n, rget_congr (show d.regs = b.regs by rw [← hd]; rfl)]
  have zr : z.regs = x.regs := by rw [← hz]; rfl
  have xC : rget x (pgLnk g + 0xC) = 2 + min hi 3 * 4 := by
    rw [xr _ (by omega) (by omega), ← hb, rget_rset_same]; omega
  have x44 : rget x (pgLnk g + 0x44) = node + grp * 2 ^ 16 := by
    rw [xr _ (by omega) (by omega), ← hb, rget_rset_ne _ _ (by omega), ← ha, rget_rset_same]; omega
  have peer : lnkPeer x g = node := by unfold lnkPeer rbits; rw [x44, bits_eq]; omega
  have zu : lnkUp z g = true := by
    rw [lnkUp_congr (rget_congr zr _)]; unfold lnkUp lnkState rbits; rw [xC, bits_eq]
    have : (2 + min hi 3 * 4) / 2 ^ 0 % 2 ^ (1 + 1 - 0) = 2 := by omega
    rw [this]; rfl
  have e : train s g true true node grp 2 lo hi = lnkNotice z g k := by
    have e0 : probeSend x g = lnkNotice z g k := by
      unfold probeSend; dsimp only
      rw [gx]
      dsimp only
      rw [← hz, ← hk, gx]
    unfold train
    rw [if_neg (by simp [h0]), if_neg (by decide), if_neg (by decide)]
    dsimp only
    rw [if_neg (by omega), if_neg (by omega), ha, hb, hd]
    show probeSend (raise d (pgLnk g) 1) g = _
    rw [hx, e0]
  have te : t = lnkPut z g { lnkGet z g with q := (lnkGet z g).q ++ [⟨k, 1024, 0, none⟩] } := by rw [← ht, e, lnkNotice_up zu]
  have gz : lnkGet z g = { linkInit with downAt := (lnkGet s g).downAt, probe := ((lnkGet s g).probe + 1) % 65536, probeAt := x.now } := by rw [← hz, lnkGet_put, gx]
  have xn : x.now = s.now := by rw [← hx, raise_now, ← hd, lnkPut_now, ← hb, rset_now, ← ha, rset_now]
  have tr : t.regs = x.regs := by rw [te, lnkPut_regs, zr]
  refine ⟨k, ?_, ?_, ?_, ?_, ?_, ?_, ?_, ?_⟩
  · unfold lnkState rbits; rw [rget_congr tr, xC, bits_eq]; omega
  · unfold lnkMinor rbits; rw [rget_congr tr, xC, bits_eq]; omega
  · unfold lnkPeer rbits at peer ⊢; rw [rget_congr tr, peer]
  · rw [rget_congr tr, ← hx]; exact raise_lnk_bit _ _ _ _ (by decide) (by decide)
  · rw [te, lnkGet_put, gz, xn]; rfl
  · rw [← hk, peer]; rfl
  · rw [te, lnkPut_mems, ← hz, lnkPut_mems, ← hx, raise_mems, ← hd, lnkPut_mems, ← hb, rset_mems, ← ha, rset_mems]
  · rw [te, lnkPut_cells, ← hz, lnkPut_cells, ← hx, raise_cells, ← hd, lnkPut_cells, ← hb, rset_cells, ← ha, rset_cells]

theorem foldl_some_mem {α : Type} (step : Option α → α → Option α) (h : ∀ m e, step m e = some e ∨ step m e = m) :
    ∀ (l : List α) (m : Option α) (y : α), l.foldl step m = some y → y ∈ l ∨ m = some y
  | [], m, y, e => Or.inr e
  | a :: l, m, y, e => by
    rcases foldl_some_mem step h l (step m a) y e with k | k
    · exact Or.inl (List.mem_cons_of_mem _ k)
    · rcases h m a with q | q
      · rw [q] at k; exact Or.inl (by rw [Option.some.inj k]; exact List.mem_cons_self)
      · rw [q] at k; exact Or.inr k

theorem firstOf_mem {l : List QEnt} {p : Nat} {e : QEnt} (h : firstOf l p = some e) : e ∈ l := by
  unfold firstOf at h
  rcases foldl_some_mem _ (fun m e => by cases m with
    | none => exact Or.inl rfl
    | some y => dsimp only; split
                · exact Or.inl rfl
                · exact Or.inr rfl) _ _ _ h with k | k
  · exact (List.mem_filter.mp k).1
  · cases k

theorem rrPick_mem {l : List QEnt} {n : Nat} {e : QEnt} (h : rrPick l n = some e) : e ∈ l := by
  unfold rrPick at h
  split at h
  · exact firstOf_mem h
  · split at h
    · exact firstOf_mem h
    · cases h

theorem oldestOf_mem {l : List QEnt} {e : QEnt} (h : e ∈ oldestOf l) : e ∈ l := by
  have k : ∀ (l acc : List QEnt), e ∈ l.foldl (fun acc e => if acc.any (fun y => y.part == e.part && y.pkt.vc == e.pkt.vc) then acc else acc ++ [e]) acc → e ∈ l ∨ e ∈ acc := by
    intro l
    induction l with
    | nil => intro acc h; exact Or.inr h
    | cons a l ih =>
      intro acc h
      rcases ih _ h with q | q
      · exact Or.inl (List.mem_cons_of_mem _ q)
      · dsimp only at q
        split at q
        · exact Or.inr q
        · rcases List.mem_append.mp q with q | q
          · exact Or.inr q
          · rw [List.mem_singleton.mp q]; exact Or.inl List.mem_cons_self
  rcases k l [] h with q | q
  · exact q
  · cases q

theorem egressPick_spec {s : State} {g : Nat} {e : QEnt} {k : Nat} (h : egressPick s g = some (e, k)) :
    e ∈ (lnkGet s g).q ∧ sendable (lnkGet s g) e = true ∧ (k = 5 → paidFor s g e = true) := by
  unfold egressPick at h
  dsimp only at h
  split at h
  · rename_i e' h1
    have := Prod.mk.inj (Option.some.inj h)
    have he := this.1; have hk := this.2; subst he; subst hk
    have p := List.find?_some h1
    simp only [Bool.and_eq_true] at p
    exact ⟨List.mem_of_find?_eq_some h1, p.2, fun q => by cases q⟩
  · split at h
    · rename_i e' h1
      have := Prod.mk.inj (Option.some.inj h)
      have he := this.1; have hk := this.2; subst he; subst hk
      have p := List.find?_some h1
      simp only [Bool.and_eq_true] at p
      exact ⟨List.mem_of_find?_eq_some h1, p.1.2, fun q => by cases q⟩
    · split at h
      · rename_i e' h1
        have := Prod.mk.inj (Option.some.inj h)
        have he := this.1; have hk := this.2; subst he; subst hk
        obtain ⟨a1, a2⟩ := List.mem_filter.mp (rrPick_mem h1)
        obtain ⟨a3, a4⟩ := List.mem_filter.mp a1
        exact ⟨(List.mem_filter.mp (oldestOf_mem a3)).1, a4, fun _ => a2⟩
      · rw [Option.map_eq_some_iff] at h
        obtain ⟨e', h1, h2⟩ := h
        have := Prod.mk.inj h2
        have he := this.1; have hk := this.2; subst he; subst hk
        obtain ⟨a1, a2⟩ := List.mem_filter.mp (rrPick_mem h1)
        obtain ⟨a3, a4⟩ := List.mem_filter.mp a1
        exact ⟨(List.mem_filter.mp (oldestOf_mem a3)).1, a4, fun q => by cases q⟩

theorem linkCharge_frame (s : State) (g : Nat) (e : QEnt) (k : Nat) : ∃ x, linkCharge s g e k = { s with credit := x } := by
  unfold linkCharge; dsimp only; split
  · exact ⟨_, rfl⟩
  · split
    · exact ⟨_, rfl⟩
    · split
      · exact ⟨_, rfl⟩
      · exact ⟨_, rfl⟩

theorem colSent_frame (s : State) (e : QEnt) : ∃ x, colSent s e = { s with cruns := x } := by
  unfold colSent; split
  · exact ⟨_, rfl⟩
  · exact ⟨_, rfl⟩

theorem lnkReplay_spec {s t : State} {g : Fin 16} {l : List Frame} (h : lnkReplay s g l = t) (hl : l = (lnkGet s g).unacked) (he : ∀ e, (lnkGet s g).epi = some e → e.replays < 16) :
    (lnkGet t g).replay = l ∧ (lnkGet t g).unacked = l.map (fun u => { u with sentAt := s.now }) ∧
      (lnkGet t g).epi = some ((lnkGet s g).epi.elim ⟨s.now, l.map (·.lseq), 1⟩ (fun e => { e with replays := e.replays + 1 })) ∧ lnkState t g = 3 ∧
      rget t (pgLnk g + 0x48) = min (rget s (pgLnk g + 0x48) + 1) 0xFFFFFFFF ∧ (rget t (pgLnk g + 0x10)).testBit 2 = true ∧ t.mems = s.mems ∧ t.tags = s.tags := by
  have pv := pgLnk_val g
  have hg := g.isLt
  obtain ⟨e, hE⟩ : ∃ e, (lnkGet s g).epi.elim (Episode.mk s.now (l.map (·.lseq)) 1) (fun e => { e with replays := e.replays + 1 }) = e := ⟨_, rfl⟩
  obtain ⟨a, ha⟩ : ∃ a, lnkPut s g { lnkGet s g with
      epi := some e, replay := l
      unacked := (lnkGet s g).unacked.map (fun u => if l.any (fun f => f.lseq == u.lseq) then { u with sentAt := s.now } else u) } = a := ⟨_, rfl⟩
  obtain ⟨b, hb⟩ : ∃ b, rsetBits a (pgLnk g + 0xC) 1 0 3 = b := ⟨_, rfl⟩
  obtain ⟨d, hd⟩ : ∃ d, bumpSat b (pgLnk g + 0x48) 1 = d := ⟨_, rfl⟩
  have et : t = raise d (pgLnk g) 4 := by
    rw [← h]
    unfold lnkReplay
    dsimp only
    cases hq : (lnkGet s g).epi with
    | none =>
      rw [hq] at hE
      have hE' : Episode.mk s.now (l.map (·.lseq)) 1 = e := hE
      dsimp only
      rw [← hl] at ha ⊢
      rw [if_neg (by show ¬ 16 < 1; decide), hE', ha, hb, hd]
      rfl
    | some v =>
      rw [hq] at hE
      have hE' : { v with replays := v.replays + 1 } = e := hE
      have := he v hq
      dsimp only
      rw [if_neg (by show ¬ 16 < v.replays + 1; omega), hE', ha, hb, hd]
      rfl
  have lt : t.links = a.links := by rw [et, raise_links, ← hd, bumpSat_links, ← hb, rsetBits_links]
  have lg : lnkGet t g = { lnkGet s g with
      epi := some e, replay := l
      unacked := (lnkGet s g).unacked.map (fun u => if l.any (fun f => f.lseq == u.lseq) then { u with sentAt := s.now } else u) } := by
    rw [lnkGet_congr lt, ← ha, lnkGet_put]
  refine ⟨by rw [lg], ?_, by rw [lg, hE], ?_, ?_, ?_, ?_, ?_⟩
  · rw [lg]
    show (lnkGet s g).unacked.map _ = _
    rw [← hl]
    refine List.map_congr_left (fun u hu => ?_)
    rw [if_pos (List.any_eq_true.mpr ⟨u, hu, by simp⟩)]
  · unfold lnkState; rw [et, rbits_congr (raise_lnk _ _ _ (by omega) (by omega)), ← hd, rbits_congr (rget_bumpSat_ne _ _ (by omega)), ← hb, lnkState_set _ _ _ (by decide)]
  · rw [et, raise_lnk _ _ _ (by omega) (by omega), ← hd, rget_bumpSat_val, ← hb, rget_rsetBits_ne _ _ _ _ (by omega), rget_congr (show a.regs = s.regs by rw [← ha]; rfl)]
  · rw [et]; exact raise_lnk_bit _ _ _ _ (by decide) (by decide)
  · rw [et, raise_mems, ← hd, bumpSat_mems, ← hb, rsetBits_mems, ← ha, lnkPut_mems]
  · rw [et, raise_tags, ← hd, bumpSat_tags, ← hb, rsetBits_tags, ← ha, lnkPut_tags]

theorem piece_spec (f : FabRun) (i : Nat) (h : 0 < f.len) (hi : i < f.count) : 0 < (f.piece i).2 ∧ (f.piece i).2 ≤ 4096 ∧ (f.piece i).1 + (f.piece i).2 ≤ f.len ∧
      (f.rem + (f.piece i).1) / 4096 = f.rem / 4096 + i ∧ (f.rem + (f.piece i).1 + (f.piece i).2 - 1) / 4096 = f.rem / 4096 + i ∧
      (i + 1 < f.count → (f.piece (i + 1)).1 = (f.piece i).1 + (f.piece i).2) ∧ (i + 1 = f.count → (f.piece i).1 + (f.piece i).2 = f.len) := by
  unfold FabRun.count at *
  have e : ∀ j, f.piece j = (max f.rem ((f.rem / 4096 + j) * 4096) - f.rem, min (f.rem + f.len) ((f.rem / 4096 + j + 1) * 4096) - max f.rem ((f.rem / 4096 + j) * 4096)) := fun _ => rfl
  rw [e, e]
  dsimp only
  generalize f.rem = r at *
  generalize f.len = l at *
  refine ⟨?_, ?_, ?_, ?_, ?_, ?_, ?_⟩ <;> omega

theorem hostFab_none {s : State} {p q : Nat} {c : Cmd} {w : Bool} (h : Next s p q (if w then 0x51 else 0x50) c) (h1 : routeTo s (opf c 16 2) = none) :
    hostFab s p q w = cmdFail s c dFbNoRoute := by
  unfold hostFab; rw [h.2.1]; dsimp only; rw [h1]

theorem hostFab_some {s : State} {p q g : Nat} {c : Cmd} {w : Bool} (h : Next s p q (if w then 0x51 else 0x50) c) (h1 : routeTo s (opf c 16 2) = some g)
    (h2 : operandsOk c [(16, 7), (24, 4), (32, 16)] = true) (h3 : bits (opf c 22 1) 7 1 = 0) (h4 : opf c 24 4 ≠ 0) (h5 : opf c 24 4 ≤ 16777216) (h6 : opf c 18 2 < 1024)
    (h7 : (partGet s p).quota ≠ 0) (h8 : bit (opf c 22 1) 0 = true → 2 ≤ lnkMinor s g ∧ wUrgent (rget s (lnkAddr g p + 4)) ≠ 0) :
    hostFab s p q w = if (hphys s p (opf c 32 8) (opf c 24 4)).isNone then cmdDone s c stDenied 0
      else fabPump { cmdStart s c with fabs := s.fabs ++ [⟨p, q, c.seq, w, bit (opf c 22 1) 0, g, opf c 16 2, opf c 18 2, opf c 20 2, opf c 24 4,
        opf c 32 8, opf c 40 8, 0, 0, none⟩] } := by
  unfold hostFab; rw [h.2.1]; dsimp only; rw [h1]; dsimp only
  rw [if_neg ?_]
  · rw [h2, h3]
    have a1 : (opf c 24 4 == 0) = false := by simpa using h4
    have a2 : ((partGet s p).quota == 0) = false := by simpa using h7
    have a3 : (bit (opf c 22 1) 0 && (decide (lnkMinor s g < 2) || wUrgent (rget s (lnkAddr g p + 4)) == 0)) = false := by
      cases hb : bit (opf c 22 1) 0
      · rfl
      · obtain ⟨b1, b2⟩ := h8 hb
        have : ¬ lnkMinor s g < 2 := by omega
        simp [this, b2]
    rw [a1, a2, a3]
    have a4 : ¬ 16777216 < opf c 24 4 := by omega
    have a5 : ¬ 1024 < opf c 18 2 := by omega
    simp [a4, a5]

theorem byteAt_lt (d : List Byte) (o : Nat) : byteAt d o < 256 := by
  unfold byteAt
  have k : fld d o 1 < 2 ^ 8 := by
    refine lt_of_lt_of_le (leNat_lt _) (Nat.pow_le_pow_right (by decide) ?_)
    have := List.length_take_le 1 (d.drop o); omega
  exact k

theorem slowReceive_spec {s u t : State} {g : Fin 16} {k : Pkt × Nat × Nat} (hx : rxTake s g (fun k => k.ty == pkSlow) = some (k, u)) (ht : slowReceive s g = t) :
    t.tags = s.tags.map (fun x => if x.node = k.1.src ∧ x.ext < 64000000 then { x with ext := slowExt x.ext } else x) ∧ t.mems = s.mems ∧ t.cmds = s.cmds ∧
      (rget t (pgLnk g + 0x10)).testBit 6 = true ∧ rget t (pgLnk g + 0x5C) = min (rget s (pgLnk g + 0x5C) + 1) 0xFFFFFFFF := by
  have pv := pgLnk_val g
  have hg := g.isLt
  obtain ⟨-, ct, e⟩ := rxTake_some hx
  obtain ⟨k1, k2, k3⟩ := k
  obtain ⟨n, hn⟩ : ∃ n, (u.tags.filter (fun t => t.node == k1.src && decide (t.ext < 64000000))).length + (u.cruns.filter (fun r => !r.reclaim && decide (r.ext < 64000000) &&
      (grpAt u r.part r.grp).elim false (fun c => c.members.any (fun m => m.1 == k1.src)))).length = n := ⟨_, rfl⟩
  obtain ⟨a, ha⟩ : ∃ a : State, { u with
      tags := u.tags.map (fun t => if t.node == k1.src && decide (t.ext < 64000000) then { t with ext := slowExt t.ext } else t)
      cruns := u.cruns.map (fun r => if !r.reclaim && decide (r.ext < 64000000) &&
        (grpAt u r.part r.grp).elim false (fun c => c.members.any (fun m => m.1 == k1.src)) then { r with ext := slowExt r.ext } else r) } = a := ⟨_, rfl⟩
  obtain ⟨b, hb⟩ : ∃ b, bumpSat a (pgCol + 0x58) n = b := ⟨_, rfl⟩
  obtain ⟨d, hd⟩ : ∃ d, bumpSat b (pgLnk g + 0x5C) 1 = d := ⟨_, rfl⟩
  have et : t = raise d (pgLnk g) 0x40 := by
    rw [← ht]
    unfold slowReceive; rw [hx]; dsimp only
    rw [hn, ha, hb, hd]; rfl
  have at' : a.tags = s.tags.map (fun x => if x.node = k1.src ∧ x.ext < 64000000 then { x with ext := slowExt x.ext } else x) := by
    rw [← ha]; show u.tags.map _ = _
    rw [e, lnkPut_tags]
    refine List.map_congr_left (fun x _ => ?_)
    by_cases q : x.node = k1.src ∧ x.ext < 64000000
    · rw [if_pos q, if_pos (by simp [q.1, q.2])]
    · rw [if_neg q, if_neg (by simpa using q)]
  refine ⟨?_, ?_, ?_, ?_, ?_⟩
  · rw [et, raise_tags, ← hd, bumpSat_tags, ← hb, bumpSat_tags, at']
  · rw [et, raise_mems, ← hd, bumpSat_mems, ← hb, bumpSat_mems, ← ha]; show u.mems = _; rw [e, lnkPut_mems]
  · rw [et, raise_cmds, ← hd, bumpSat_cmds, ← hb, bumpSat_cmds, ← ha]; show u.cmds = _; rw [e, lnkPut_cmds]
  · rw [et]; exact raise_lnk_bit _ _ _ _ (by decide) (by decide)
  · rw [et, raise_lnk _ _ _ (by omega) (by omega), ← hd, rget_bumpSat_val, ← hb, rget_bumpSat_ne _ _ (by unfold pgCol; omega),
      rget_congr (show a.regs = s.regs by rw [← ha]; show u.regs = _; rw [e, lnkPut_regs])]

theorem abortReceive_spec {s u : State} {g : Fin 16} {k : Pkt × Nat × Nat} (hx : rxTake s g (fun k => k.ty == pkAbort) = some (k, u)) : ∃ w,
      abortReceive s g = (let all := byteAt k.1.pay 1 == 0
        let v := fabCut w (fun t => t.node == k.1.src && (all || t.dpart == fld k.1.pay 2 2)) (fun f => f.node == k.1.src && (all || f.dpart == fld k.1.pay 2 2)) stFailedLink dFbRemoteAbort
        fabPump (runsFail v (fun r => (grpAt v r.part r.grp).elim false (fun c =>
          c.members.any (fun m => m.1 == k.1.src && (all || m.2 == fld k.1.pay 2 2)))) stFailedLink dFbRemoteAbort true)) ∧
      rbits w (pgCol + 0x54) 14 0 = k.1.src % 2 ^ 15 ∧ rbits w (pgCol + 0x54) 23 16 = byteAt k.1.pay 0 ∧ (rget w (pgLnk g + 0x10)).testBit 7 = true ∧ (rget w (pgCol + 0x10)).testBit 2 = true ∧
      (byteAt k.1.pay 1 = 0 → (lnkGet w g).blocked = true) ∧ w.tags = s.tags ∧ w.mems = s.mems := by
  have pv := pgLnk_val g
  have hg := g.isLt
  obtain ⟨-, ct, e⟩ := rxTake_some hx
  obtain ⟨k1, k2, k3⟩ := k
  have cl : byteAt k1.pay 0 < 256 := byteAt_lt _ _
  obtain ⟨n, hn⟩ : ∃ n, k1.src % 2 ^ 15 + byteAt k1.pay 1 % 2 * 2 ^ 15 + byteAt k1.pay 0 * 2 ^ 16 = n := ⟨_, rfl⟩
  obtain ⟨a, ha⟩ : ∃ a, rset u (pgCol + 0x54) n = a := ⟨_, rfl⟩
  obtain ⟨b, hb⟩ : ∃ b, raise a (pgLnk g) 0x80 = b := ⟨_, rfl⟩
  obtain ⟨d, hd⟩ : ∃ d, raise b pgCol 4 = d := ⟨_, rfl⟩
  obtain ⟨w, hw⟩ : ∃ w, (if byteAt k1.pay 1 = 0 then lnkUpd d g (fun x => { x with blocked := true }) else d) = w := ⟨_, rfl⟩
  have wf : w.regs = d.regs ∧ w.tags = d.tags ∧ w.mems = d.mems := by
    rw [← hw]; split
    · unfold lnkUpd; exact ⟨lnkPut_regs _ _ _, lnkPut_tags _ _ _, lnkPut_mems _ _ _⟩
    · exact ⟨rfl, rfl, rfl⟩
  have cv : pgCol = 0x400000 := rfl
  have r54 : rget w (pgCol + 0x54) = n := by
    rw [rget_congr wf.1, ← hd, rget_raise_ne _ _ _ (by omega) (by decide) (by decide), ← hb,
      rget_raise_ne _ _ _ (by omega) (by decide) (by decide), ← ha, rget_rset_same]
    omega
  refine ⟨w, ?_, ?_, ?_, ?_, ?_, ?_, ?_, ?_⟩
  · unfold abortReceive lnkEvt colEvt; rw [hx]; dsimp only
    rw [hn, ha, hb, hd, hw]
  · show _ = k1.src % 2 ^ 15
    unfold rbits; rw [r54, ← hn, bits_eq]; omega
  · show _ = byteAt k1.pay 0
    unfold rbits; rw [r54, ← hn, bits_eq]; omega
  · rw [rget_congr wf.1, ← hd, rget_raise_ne _ _ _ (by omega) (by unfold pgErr; omega) (by unfold pgErr; omega), ← hb]
    exact raise_lnk_bit _ _ _ _ (by decide) (by decide)
  · rw [rget_congr wf.1, ← hd]; exact raise_bit _ _ _ _ (by decide) (by decide) (by decide) (by decide)
  · intro h
    rw [← hw, if_pos h]; unfold lnkUpd; rw [lnkGet_put]
  · rw [wf.2.1, ← hd, raise_tags, ← hb, raise_tags, ← ha, rset_tags, e, lnkPut_tags]
  · rw [wf.2.2, ← hd, raise_mems, ← hb, raise_mems, ← ha, rset_mems, e, lnkPut_mems]

end Sys2Proof.Machine
end

