-- ==== Sys2Proof/Laws/Runs.lean ====
section
/-!
SUPPORT. Laws/Runs.lean: collectives: which run of a group starts next, and the slices of a buffer (R369, R370).
-/

namespace Sys2Proof.Machine

theorem takeWhile_mem {α : Type} (p : α → Bool) {a : α} : ∀ {l : List α}, a ∈ l.takeWhile p → a ∈ l ∧ p a = true
  | [], h => by cases h
  | b :: l, h => by
    rw [List.takeWhile_cons] at h
    split at h
    · rename_i hb
      rcases List.mem_cons.mp h with e | e
      · rw [e]; exact ⟨List.mem_cons_self, hb⟩
      · exact ⟨List.mem_cons_of_mem _ (takeWhile_mem p e).1, (takeWhile_mem p e).2⟩
    · cases h

theorem runsReady_mem {s : State} {p g : Nat} {r : CRun} (h : r ∈ runsReady s p g) : r ∈ s.cruns ∧ r.reclaim = false ∧ r.part = p ∧ r.grp = g := by
  obtain ⟨a, b⟩ := takeWhile_mem _ h
  obtain ⟨c, d⟩ := List.mem_filter.mp a
  simp only [Bool.and_eq_true, beq_iff_eq] at d
  exact ⟨c, by simpa using b, d.1, d.2⟩

theorem lowest_spec : ∀ (l : List CRun) (m : Option CRun) (r : CRun), l.foldl (fun m r => match m with
        | none => some r
        | some x => if r.seqNo < x.seqNo then some r else some x) m = some r →
    (r ∈ l ∨ m = some r) ∧ (∀ y ∈ l, r.seqNo ≤ y.seqNo) ∧ (∀ y, m = some y → r.seqNo ≤ y.seqNo)
  | [], m, r, h => ⟨Or.inr h, fun y q => (by cases q), fun y q => (by
      have e : m = some r := h
      rw [e] at q; rw [Option.some.inj q])⟩
  | a :: l, none, r, h => by
    obtain ⟨h1, h2, h3⟩ := lowest_spec l (some a) r h
    have ha := h3 a rfl
    refine ⟨Or.inl ?_, ?_, fun y q => by cases q⟩
    · rcases h1 with k | k
      · exact List.mem_cons_of_mem _ k
      · rw [Option.some.inj k]; exact List.mem_cons_self
    · intro y hy
      rcases List.mem_cons.mp hy with e | e
      · rw [e]; exact ha
      · exact h2 y e
  | a :: l, some x, r, h => by
    obtain ⟨h1, h2, h3⟩ := lowest_spec l _ r h
    by_cases c : a.seqNo < x.seqNo
    · dsimp only at h1 h3
      rw [if_pos c] at h1 h3
      have ha := h3 a rfl
      refine ⟨Or.inl ?_, ?_, ?_⟩
      · rcases h1 with k | k
        · exact List.mem_cons_of_mem _ k
        · rw [Option.some.inj k]; exact List.mem_cons_self
      · intro y hy
        rcases List.mem_cons.mp hy with e | e
        · rw [e]; exact ha
        · exact h2 y e
      · intro y q; rw [← Option.some.inj q]; omega
    · dsimp only at h1 h3
      rw [if_neg c] at h1 h3
      have ha := h3 x rfl
      refine ⟨?_, ?_, ?_⟩
      · rcases h1 with k | k
        · exact Or.inl (List.mem_cons_of_mem _ k)
        · exact Or.inr k
      · intro y hy
        rcases List.mem_cons.mp hy with e | e
        · rw [e]; omega
        · exact h2 y e
      · intro y q; rw [← Option.some.inj q]; exact ha

theorem runNext_spec {s : State} {p g : Nat} {r : CRun} (h : runNext s p g = some r) : runAt s p g = none ∧ r ∈ s.cruns ∧ r.reclaim = false ∧ r.part = p ∧ r.grp = g ∧
      ∃ c, grpAt s p g = some c ∧ (∀ v, c.lastSeq = some v → r.seqNo = v + 1) ∧ (c.lastSeq = none → ∀ r' ∈ runsReady s p g, r.seqNo ≤ r'.seqNo) := by
  unfold runNext at h
  split at h
  · cases h
  · rename_i c hc
    split at h
    · cases h
    · rename_i hr
      have hr' : runAt s p g = none := by simpa using hr
      split at h
      · rename_i v hv
        obtain ⟨m1, m2, m3, m4⟩ := runsReady_mem (List.mem_of_find?_eq_some h)
        have q := List.find?_some h
        refine ⟨hr', m1, m2, m3, m4, c, hc, ?_, ?_⟩
        · intro w hw; rw [hv] at hw; rw [← Option.some.inj hw]; simpa using q
        · intro hn; rw [hv] at hn; cases hn
      · rename_i hv
        obtain ⟨h1, h2, -⟩ := lowest_spec _ _ _ h
        have m := h1.resolve_right (fun k => by cases k)
        obtain ⟨m1, m2, m3, m4⟩ := runsReady_mem m
        refine ⟨hr', m1, m2, m3, m4, c, hc, ?_, fun _ => h2⟩
        intro w hw; rw [hv] at hw; cases hw

theorem sliceLo_mono (count n : Nat) {i j : Nat} (h : i ≤ j) : sliceLo count n i ≤ sliceLo count n j := Nat.div_le_div_right (Nat.mul_le_mul_right _ h)

theorem find_range_first (f : Nat → Bool) : ∀ n k, f k = true → k < n → ∃ j, (List.range n).find? f = some j ∧ f j = true ∧ j < n ∧ ∀ i, i < j → f i = false := by
  intro n k hk hkn
  cases h : (List.range n).find? f with
  | none =>
    have := List.find?_eq_none.mp h k (List.mem_range.mpr hkn)
    exact absurd hk this
  | some j =>
    rw [List.find?_range_eq_some] at h
    refine ⟨j, rfl, h.1, ?_, ?_⟩
    · exact List.mem_range.mp h.2.1
    · intro i hi; simpa using h.2.2 i hi

theorem sliceOf_spec (count n e : Nat) (hn : 0 < n) (he : e < count) : sliceOf count n e < n ∧ sliceLo count n (sliceOf count n e) ≤ e ∧ e < sliceLo count n (sliceOf count n e + 1) ∧
      sliceLo count n 0 = 0 ∧ sliceLo count n n = count ∧ ∀ j, j < n → sliceLo count n j ≤ e → e < sliceLo count n (j + 1) → j = sliceOf count n e := by
  have z : sliceLo count n 0 = 0 := by unfold sliceLo; rw [Nat.zero_mul, Nat.zero_div]
  have t : sliceLo count n n = count := by unfold sliceLo; exact Nat.mul_div_cancel_left _ hn
  obtain ⟨j, h1, h2, h3, h4⟩ := find_range_first (fun j => decide (e < sliceLo count n (j + 1))) n (n - 1)
    (by have : n - 1 + 1 = n := by omega
        rw [this, t]; simpa using he) (by omega)
  have es : sliceOf count n e = j := by unfold sliceOf; rw [h1]; rfl
  have h2' : e < sliceLo count n (j + 1) := by simpa using h2
  have lo : sliceLo count n j ≤ e := by
    cases j with
    | zero => rw [z]; exact Nat.zero_le _
    | succ j => have := h4 j (by omega); simpa using this
  rw [es]
  refine ⟨h3, lo, h2', z, t, ?_⟩
  intro i hi h5 h6
  rcases Nat.lt_trichotomy i j with q | q | q
  · have := sliceLo_mono count n (show i + 1 ≤ j by omega); omega
  · exact q
  · have := sliceLo_mono count n (show j + 1 ≤ i by omega); omega

end Sys2Proof.Machine
end

