-- ==== Sys2Proof/Laws/Scenes.lean ====
section
/-!
SUPPORT. Laws/Scenes.lean: the scene clock, the timetable and the tokenizer (R394 to R399, R408).
-/

namespace Sys2Proof.Machine

theorem lnkGet_put_ne (s : State) {g h : Nat} (x : Link) (n : h ≠ g) : lnkGet (lnkPut s g x) h = lnkGet s h := by
  unfold lnkGet lnkPut; exact tabGet_tabPut_ne _ _ n _

theorem within_base {a b t : State} (h1 : a.pending = b.pending) (h2 : a.now = b.now) (h3 : a.cold = b.cold) (h4 : a.perst = b.perst)
    (h5 : a.jtag = b.jtag) (h6 : a.fuses = b.fuses) : within a t = within b t := by
  unfold within; rw [h1, h2, h3, h4, h5, h6]

theorem ppsError_spec (t phase : Nat) (h : phase < 1000000000) : ((t : Int) + ppsError t phase - phase) % 1000000000 = 0 ∧ (ppsError t phase).natAbs ≤ 500000000 := by
  unfold ppsError
  dsimp only
  generalize hd : (phase + 1000000000 - t % 1000000000) % 1000000000 = d
  split
  · constructor <;> omega
  · constructor <;> omega

theorem scl_apart : pgScl + 0x10 ≠ pgErr + 0x60 ∧ pgScl ≠ pgErr := by decide

theorem sclEvt_bit (s : State) (e i : Nat) (h : e.testBit i = true) (hi : i < 32) : (rget (sclEvt s e) (pgScl + 0x10)).testBit i = true :=
  raise_bit _ _ _ _ h hi scl_apart.1 scl_apart.2

theorem sclError_spec (x : State) (e : Int) {t : State} (ht : sclError x e = t) :
      rget t (pgScl + 0x54) = ofSigned 32 e % 2 ^ 32 ∧ t.scl.first = false ∧ t.scl.heard = x.now ∧ t.tts = x.tts ∧ t.mems = x.mems ∧
      (x.scl.first = false ∨ e ≤ 0 ∨ x.tts ≠ [] → t.sclTime = x.sclTime ∧ t.scl.slew = e) ∧ (x.scl.first = true → 0 < e → x.tts = [] → t.sclTime = x.sclTime + e.toNat ∧ t.scl.slew = 0) ∧
      (20 ≤ e.natAbs → t.scl.good = none) ∧ (e.natAbs < 20 → x.scl.good = none → t.scl.good = some x.now) ∧
      sclLock t = (if sclLock x = 0 ∨ sclLock x = 3 then 1 else sclLock x) := by
  obtain ⟨a, ha⟩ : ∃ a, rset (rset (freeVal x).2 (pgScl + 0x54) (ofSigned 32 e)) (pgScl + 0x58) (freeVal x).1 = a := ⟨_, rfl⟩
  have a0 : a.scl = x.scl ∧ a.now = x.now ∧ a.tts = x.tts ∧ a.mems = x.mems ∧ a.sclTime = x.sclTime := by
    rw [← ha]; simp only [rset_scl, rset_now, rset_tts, rset_mems, rset_sclTime]; exact ⟨rfl, rfl, rfl, rfl, rfl⟩
  have a1 : rget a (pgScl + 0x54) = ofSigned 32 e % 2 ^ 32 := by
    rw [← ha, rget_rset_ne _ _ (by decide), rget_rset_same]
  have a2 : rget a (pgScl + 0xC) = rget x (pgScl + 0xC) := by
    rw [← ha, rget_rset_ne _ _ (by decide), rget_rset_ne _ _ (by decide)]; rfl
  obtain ⟨st, hst⟩ : ∃ st, (a.scl.first && decide (0 < e) && a.tts.isEmpty) = st := ⟨_, rfl⟩
  obtain ⟨b, hb⟩ : ∃ b : State, sclMark a e st x.now = b := ⟨_, rfl⟩
  obtain ⟨d, hd⟩ : ∃ d, (if st then sclJump b e else b) = d := ⟨_, rfl⟩
  have et : t = if sclLock d = 0 ∨ sclLock d = 3 then sclSetLock d 1 else d := by
    rw [← ht]; unfold sclError; dsimp only; rw [ha, hst, hb, hd]; rfl
  have d0 : d.scl = b.scl ∧ d.tts = b.tts ∧ d.mems = b.mems ∧ d.sclTime = (if st then b.sclTime + e.toNat else b.sclTime) ∧
      rget d (pgScl + 0x54) = rget b (pgScl + 0x54) ∧ rget d (pgScl + 0xC) = rget b (pgScl + 0xC) := by
    rw [← hd]
    cases st
    · exact ⟨rfl, rfl, rfl, rfl, rfl, rfl⟩
    · unfold sclJump sclEvt
      simp only [if_true, raise_scl, raise_tts, raise_mems, raise_sclTime]
      refine ⟨trivial, trivial, trivial, trivial, ?_, ?_⟩
      · rw [rget_raise_ne _ _ _ (by decide) (by decide) (by decide)]; rfl
      · rw [rget_raise_ne _ _ _ (by decide) (by decide) (by decide)]; rfl
  have br : ∀ r, rget b r = rget a r := fun r => rget_congr (show b.regs = a.regs by rw [← hb]; rfl) r
  have lk : sclLock d = sclLock x := by unfold sclLock; exact rbits_congr (by rw [d0.2.2.2.2.2, br, a2]) 1 0
  rw [lk] at et
  have t0 : t.scl = d.scl ∧ t.tts = d.tts ∧ t.mems = d.mems ∧ t.sclTime = d.sclTime ∧ rget t (pgScl + 0x54) = rget d (pgScl + 0x54) := by
    rw [et]; split
    · unfold sclSetLock
      exact ⟨by rw [rsetBits_scl], by rw [rsetBits_tts], by rw [rsetBits_mems], by rw [rsetBits_sclTime], rget_rsetBits_ne _ _ _ _ (by decide)⟩
    · exact ⟨rfl, rfl, rfl, rfl, rfl⟩
  have bs : b.scl = { x.scl with heard := x.now, first := false, slew := if st then 0 else e, good := if e.natAbs < 20 then x.scl.good.or (some x.now) else none } := by
    rw [← hb]; show ({ a.scl with heard := x.now, first := false, slew := if st then 0 else e, good := if e.natAbs < 20 then a.scl.good.or (some x.now) else none } : Scl) = _
    rw [a0.1]
  have ts : t.scl = { x.scl with heard := x.now, first := false, slew := if st then 0 else e, good := if e.natAbs < 20 then x.scl.good.or (some x.now) else none } := by
    rw [t0.1, d0.1, bs]
  have tt : t.sclTime = if st then x.sclTime + e.toNat else x.sclTime := by
    rw [t0.2.2.2.1, d0.2.2.2.1, show b.sclTime = x.sclTime by rw [← hb]; exact a0.2.2.2.2]
  have hst' : (x.scl.first && decide (0 < e) && x.tts.isEmpty) = st := by rw [← hst, a0.1, a0.2.2.1]
  refine ⟨?_, by rw [ts], by rw [ts], ?_, ?_, ?_, ?_, ?_, ?_, ?_⟩
  · rw [t0.2.2.2.2, d0.2.2.2.2.1, br, a1]
  · rw [t0.2.1, d0.2.1, ← hb]; exact a0.2.2.1
  · rw [t0.2.2.1, d0.2.2.1, ← hb]; exact a0.2.2.2.1
  · intro h
    have : st = false := by
      rw [← hst']
      rcases h with h | h | h
      · rw [h]; rfl
      · have : ¬ 0 < e := by omega
        simp [this]
      · have : x.tts.isEmpty = false := by simpa using h
        rw [this]; simp
    rw [tt, ts, this]; exact ⟨rfl, rfl⟩
  · intro h1 h2 h3
    have : st = true := by rw [← hst', h1, h3]; simp [h2]
    rw [tt, ts, this]; exact ⟨rfl, rfl⟩
  · intro h; rw [ts]; show (if e.natAbs < 20 then _ else none) = none; rw [if_neg (by omega)]
  · intro h h'; rw [ts]; show (if e.natAbs < 20 then x.scl.good.or (some x.now) else none) = _; rw [if_pos h, h']; rfl
  · rw [et]
    split
    · unfold sclLock sclSetLock; rw [lnkState_set _ _ _ (by decide)]
    · exact lk

theorem timeFold_spec (P : Nat → Bool) (pay : List Byte) : ∀ (l : List Nat) (s t : State), l.Nodup → l.foldl (fun t g =>
      if !lnkUp t g || P g then t else lnkNotice t g (notePkt t pkTime (lnkPeer t g) 0 pay)) s = t →
    t.regs = s.regs ∧ t.scl = s.scl ∧ t.mems = s.mems ∧ ∀ g, (g ∈ l → lnkUp s g = true → P g = true ∨ ∃ k, (lnkGet t g).q = (lnkGet s g).q ++ [⟨k, 1024, 0, none⟩] ∧ k.ty = pkTime ∧ k.dst = lnkPeer s g) ∧
      ((g ∉ l ∨ lnkUp s g = false ∨ P g = true) → lnkGet t g = lnkGet s g)
  | [], s, t, _, h => by
    have e : t = s := h.symm
    subst e
    exact ⟨rfl, rfl, rfl, fun g => ⟨fun hg => (by cases hg), fun _ => rfl⟩⟩
  | a :: l, s, t, hn, h => by
    rw [List.foldl_cons] at h
    obtain ⟨y, hy⟩ : ∃ y, (if !lnkUp s a || P a then s else lnkNotice s a (notePkt s pkTime (lnkPeer s a) 0 pay)) = y := ⟨_, rfl⟩
    rw [hy] at h
    obtain ⟨hn1, hn2⟩ := List.nodup_cons.mp hn
    obtain ⟨h1, h2, h3, h4⟩ := timeFold_spec P pay l y t hn2 h
    have yf : y.regs = s.regs ∧ y.scl = s.scl ∧ y.mems = s.mems ∧ (∀ g, g ≠ a → lnkGet y g = lnkGet s g) ∧
        (lnkUp s a = true → P a = false → (lnkGet y a).q = (lnkGet s a).q ++ [⟨notePkt s pkTime (lnkPeer s a) 0 pay, 1024, 0, none⟩]) ∧
        ((lnkUp s a = false ∨ P a = true) → lnkGet y a = lnkGet s a) := by
      rw [← hy]
      cases hu : lnkUp s a
      · simp
      · cases hp : P a
        · simp only [Bool.not_true, Bool.false_or, Bool.false_eq_true, if_false]
          rw [lnkNotice_up hu]
          refine ⟨lnkPut_regs _ _ _, lnkPut_scl _ _ _, lnkPut_mems _ _ _, fun g hg => lnkGet_put_ne _ _ hg, fun _ _ => by rw [lnkGet_put], fun k => by rcases k with k | k <;> cases k⟩
        · simp
    have up : ∀ g, lnkUp y g = lnkUp s g := fun g => lnkUp_congr (rget_congr yf.1 _)
    have pr : ∀ g, lnkPeer y g = lnkPeer s g := fun g => rbits_congr (rget_congr yf.1 _) 14 0
    refine ⟨h1.trans yf.1, h2.trans yf.2.1, h3.trans yf.2.2.1, fun g => ⟨fun hg hu => ?_, fun hg => ?_⟩⟩
    · by_cases e : g = a
      · subst e
        cases hp : P g
        · right
          exact ⟨_, by rw [(h4 g).2 (Or.inl hn1), yf.2.2.2.2.1 hu hp], rfl, rfl⟩
        · exact Or.inl rfl
      · have hg' : g ∈ l := by rcases List.mem_cons.mp hg with k | k
                               · exact absurd k e
                               · exact k
        rw [← pr g, ← yf.2.2.2.1 g e]
        exact (h4 g).1 hg' (by rw [up]; exact hu)
    · by_cases e : g = a
      · subst e
        rcases hg with hg | hg
        · exact absurd List.mem_cons_self hg
        · rw [(h4 g).2 (Or.inl hn1), yf.2.2.2.2.2 hg]
      · rw [← yf.2.2.2.1 g e]
        refine (h4 g).2 ?_
        rcases hg with hg | hg
        · exact Or.inl (fun k => hg (List.mem_cons_of_mem _ k))
        · rw [up]; exact Or.inr hg

theorem ttOrder_spec (l : List TEnt) : (ttOrder l).Pairwise (fun a b => a.slot ≤ b.slot) ∧ ∀ e, e ∈ ttOrder l ↔ e ∈ l ∧ e.slot < 1024 := by
  have mem : ∀ (n : Nat) e, e ∈ (List.range n).flatMap (fun i => l.filter (fun e => e.slot == i)) ↔ e ∈ l ∧ e.slot < n := by
    intro n e
    simp only [List.mem_flatMap, List.mem_range, List.mem_filter, beq_iff_eq]
    constructor
    · rintro ⟨i, h1, h2, h3⟩; exact ⟨h2, h3 ▸ h1⟩
    · rintro ⟨h1, h2⟩; exact ⟨e.slot, h2, h1, rfl⟩
  have pw : ∀ n : Nat, ((List.range n).flatMap (fun i => l.filter (fun e => e.slot == i))).Pairwise (fun a b => a.slot ≤ b.slot) := by
    intro n
    induction n with
    | zero => exact List.Pairwise.nil
    | succ n ih =>
      rw [List.range_succ, List.flatMap_append]
      refine List.pairwise_append.mpr ⟨ih, ?_, ?_⟩
      · rw [List.flatMap_singleton]
        refine List.pairwise_of_forall_mem_list ?_
        intro a ha b hb
        have h1 := (List.mem_filter.mp ha).2
        have h2 := (List.mem_filter.mp hb).2
        simp only [beq_iff_eq] at h1 h2
        omega
      · intro a ha b hb
        rw [List.flatMap_singleton] at hb
        have h1 := ((mem n a).mp ha).2
        have h2 := (List.mem_filter.mp hb).2
        simp only [beq_iff_eq] at h2
        omega
  exact ⟨pw 1024, mem 1024⟩

theorem free_slot (l : List TEnt) (n : Nat) (h : l.length < n) :
    ∃ j, (List.range n).find? (fun i => !l.any (fun e => e.slot == i)) = some j ∧ j < n ∧ ∀ x ∈ l, x.slot ≠ j := by
  cases hf : (List.range n).find? (fun i => !l.any (fun e => e.slot == i)) with
  | none =>
    exfalso
    have sub : List.range n ⊆ l.map (·.slot) := by
      intro i hi
      have := List.find?_eq_none.mp hf i hi
      simp only [Bool.not_eq_true, Bool.not_eq_false', List.any_eq_true, beq_iff_eq] at this
      obtain ⟨x, h1, h2⟩ := this
      exact List.mem_map.mpr ⟨x, h1, h2⟩
    have := (List.subperm_of_subset List.nodup_range sub).length_le
    rw [List.length_range, List.length_map] at this
    omega
  | some j =>
    have h1 := List.find?_some hf
    have h2 := List.mem_of_find?_eq_some hf
    refine ⟨j, rfl, List.mem_range.mp h2, fun x hx e => ?_⟩
    simp only [Bool.not_eq_true', List.any_eq_false, beq_iff_eq] at h1
    exact h1 x hx e

theorem tkLongest_aux (b : List Byte) : ∀ (l : List (List Byte × Nat)) (m : Option (List Byte × Nat)),
    let r := l.foldl (fun m e => if e.1.isPrefixOf b && (m.elim 0 (·.1.length)) < e.1.length then some e else m) m
    (∀ e, r = some e → (e ∈ l ∧ e.1.isPrefixOf b = true) ∨ m = some e) ∧ (m.elim 0 (·.1.length) ≤ r.elim 0 (·.1.length)) ∧
      (∀ x ∈ l, x.1.isPrefixOf b = true → x.1.length ≤ r.elim 0 (·.1.length))
  | [], m => ⟨fun _ h => Or.inr h, Nat.le_refl _, fun _ h => (by cases h)⟩
  | a :: l, m => by
    obtain ⟨k1, k2, k3⟩ := tkLongest_aux b l (if a.1.isPrefixOf b && (m.elim 0 (·.1.length)) < a.1.length then some a else m)
    rw [List.foldl_cons]
    refine ⟨fun e he => ?_, ?_, ?_⟩
    · rcases k1 e he with ⟨h1, h2⟩ | h
      · exact Or.inl ⟨List.mem_cons_of_mem _ h1, h2⟩
      · split at h
        · rename_i hc
          simp only [Bool.and_eq_true] at hc
          have := Option.some.inj h
          subst this
          exact Or.inl ⟨List.mem_cons_self, hc.1⟩
        · exact Or.inr h
    · refine Nat.le_trans ?_ k2
      split
      · rename_i hc
        simp only [Bool.and_eq_true, decide_eq_true_eq] at hc
        exact Nat.le_of_lt hc.2
      · exact Nat.le_refl _
    · intro x hx hp
      rcases List.mem_cons.mp hx with h | h
      · subst h
        refine Nat.le_trans ?_ k2
        split
        · exact Nat.le_refl _
        · rename_i hc
          rw [hp, Bool.true_and] at hc
          simpa using hc
      · exact k3 x h hp

theorem tkLongest_spec (es : List (List Byte × Nat)) (b : List Byte) : (∀ e, tkLongest es b = some e → e ∈ es ∧ e.1.isPrefixOf b = true ∧ ∀ x ∈ es, x.1.isPrefixOf b = true → x.1.length ≤ e.1.length) ∧
      (tkLongest es b = none → ∀ x ∈ es, x.1 ≠ [] → x.1.isPrefixOf b = false) := by
  obtain ⟨k1, k2, k3⟩ := tkLongest_aux b es none
  constructor
  · intro e he
    unfold tkLongest at he
    rcases k1 e he with ⟨h1, h2⟩ | h
    · refine ⟨h1, h2, fun x hx hp => ?_⟩
      have := k3 x hx hp
      rw [he] at this; exact this
    · cases h
  · intro he x hx hn
    unfold tkLongest at he
    cases hp : x.1.isPrefixOf b
    · rfl
    · exfalso
      have := k3 x hx hp
      rw [he] at this
      exact hn (List.length_eq_zero_iff.mp (Nat.le_zero.mp this))

theorem ttCount_frame (s : State) (late : Bool) : ∃ r, ttCount s late = { s with regs := r } := by
  unfold ttCount; cases late
  · exact ⟨_, rfl⟩
  · exact ⟨_, rfl⟩

theorem ttCount_val (s : State) (late : Bool) : rget (ttCount s late) (pgScl + 0x64) = min (rget s (pgScl + 0x64) + 1) 0xFFFFFFFF := by
  unfold ttCount; rw [rget_bumpSat_val]; cases late
  · rfl
  · rw [if_pos rfl, rget_bumpSat_ne _ _ (by decide)]

theorem jigPush_fold_frame (j : Jig) : ∀ (l : List Nat) (s : State), ∃ x, l.foldl (fun u x => jigPush u x j) s = { s with cells := x }
  | [], s => ⟨s.cells, rfl⟩
  | c :: l, s => by
    rw [List.foldl_cons, jigPush_pushed]
    obtain ⟨x, hx⟩ := jigPush_fold_frame j l (cellPut s c (pushed (cellGet s c) j))
    exact ⟨x, hx⟩

theorem ttFire_jig {s t : State} {e : TEnt} (h : s.tts.find? (fun x => x.uid == e.uid) = some e) (h2 : e.trig ≠ 2) (h0 : e.action = 0) (hr : e.repeat' ≠ 0)
    (hn : (partGet s e.part).cells.Nodup) (ht : ttFire s e.uid = t) :
      let cells := ((partGet s e.part).cells.drop (fld e.entry 40 2)).take (fld e.entry 42 2)
      (∀ x, cellGet t x = if x ∈ cells then pushed (cellGet s x) ⟨fld e.entry 44 4, fld e.entry 48 2, .tt e.slot⟩ else cellGet s x) ∧
      t.toccs = s.toccs ++ [⟨e.slot, e.uid, fld e.entry 48 2, cells, false⟩] ∧ rget t (pgScl + 0x64) = min (rget s (pgScl + 0x64) + 1) 0xFFFFFFFF ∧
      t.tts.map (fun x => (x.uid, x.at', x.fires)) = s.tts.map (fun x => if x.uid = e.uid then (e.uid, e.at' + e.repeat', e.fires + 1) else (x.uid, x.at', x.fires)) ∧ t.mems = s.mems := by
  intro cells
  have ea : e.advanced = { e.fired with at' := e.at' + e.repeat' } := by unfold TEnt.advanced; rw [if_neg h2]
  have a1 : e.advanced.action = 0 ∧ e.advanced.entry = e.entry ∧ e.advanced.part = e.part ∧ e.advanced.slot = e.slot ∧ e.advanced.uid = e.uid := by
    rw [ea]; exact ⟨h0, rfl, rfl, rfl, rfl⟩
  obtain ⟨r, hr'⟩ := ttCount_frame s e.late
  obtain ⟨w, hw⟩ : ∃ w, ttPut (ttCount s e.late) e.advanced = w := ⟨_, rfl⟩
  have ww : w = { s with regs := r, tts := s.tts.map (fun x => if x.uid = e.advanced.uid then e.advanced else x) } := by rw [← hw, hr']; rfl
  obtain ⟨v, hv⟩ : ∃ v, cells.foldl (fun t c => jigPush t c ⟨fld e.entry 44 4, fld e.entry 48 2, .tt e.slot⟩) w = v := ⟨_, rfl⟩
  have nd : cells.Nodup := (hn.sublist (List.drop_sublist _ _)).sublist (List.take_sublist _ _)
  have f1 := (jigPush_fold _ _ _ _ nd hv).1
  have f2 : ∃ x, v = { w with cells := x } := hv ▸ jigPush_fold_frame _ _ _
  obtain ⟨z, hz⟩ : ∃ z, ttAct w e.advanced = z := ⟨_, rfl⟩
  have ez : z = { v with toccs := v.toccs ++ [⟨e.slot, e.uid, fld e.entry 48 2, cells, false⟩] } := by
    rw [← hz]; unfold ttAct
    rw [a1.1, if_neg (by decide), if_neg (by decide), a1.2.1, a1.2.2.1, a1.2.2.2.1, a1.2.2.2.2]
    have pc : (partGet w e.part).cells = (partGet s e.part).cells := by unfold partGet; rw [ww]
    have hv' : List.foldl (fun t c => jigPush t c ⟨fld e.entry 44 4, fld e.entry 48 2, .tt e.slot⟩) w
        (((partGet s e.part).cells.drop (fld e.entry 40 2)).take (fld e.entry 42 2)) = v := hv
    dsimp only
    rw [pc, hv']
  have et : t = ttLate z e.uid := by
    rw [← ht]; unfold ttFire; rw [h]; dsimp only; rw [if_neg hr, hw, hz]
  have wc : ∀ x, cellGet w x = cellGet s x := fun x => cellGet_congr (by rw [ww]) x
  have vf : v.toccs = s.toccs ∧ v.regs = r ∧ v.mems = s.mems ∧ v.tts = s.tts.map (fun x => if x.uid = e.uid then e.advanced else x) := by
    obtain ⟨y, hy⟩ := f2
    have e5 := a1.2.2.2.2
    rw [hy, ww, e5]; exact ⟨rfl, rfl, rfl, rfl⟩
  refine ⟨fun x => ?_, ?_, ?_, ?_, ?_⟩
  · have : cellGet t x = cellGet v x := cellGet_congr (by rw [et]; show z.cells = _; rw [ez]) x
    rw [this, f1, wc]
  · rw [et]; show z.toccs = _; rw [ez]; show v.toccs ++ _ = _; rw [vf.1]
  · have : t.regs = (ttCount s e.late).regs := by rw [et]; show z.regs = _; rw [ez]; show v.regs = _; rw [vf.2.1, hr']
    rw [rget_congr this, ttCount_val]
  · rw [et]; show (z.tts.map _).map _ = _
    rw [ez]; show (v.tts.map _).map _ = _
    rw [vf.2.2.2, List.map_map, List.map_map]
    refine List.map_congr_left (fun x _ => ?_)
    simp only [Function.comp]
    by_cases hx : x.uid = e.uid
    · simp only [hx, if_true, a1.2.2.2.2]
      rw [ea]; rfl
    · simp only [hx, if_false]
  · rw [et]; show z.mems = _; rw [ez]; exact vf.2.2.1

end Sys2Proof.Machine
end

