-- ==== Sys2Proof/Laws/Rollouts.lean ====
section
/-!
SUPPORT. Laws/Rollouts.lean: the rollout sequencer: the command applied next, the status of a step, its candidates (R233, R238, R241).
-/

namespace Sys2Proof.Machine

theorem SeqM.exec_bind {α β : Type} (m : SeqM α) (f : α → SeqM β) (s : State) : SeqM.exec (m >>= f) s = match SeqM.exec m s with
    | (.ok a, t) => SeqM.exec (f a) t
    | (.error e, t) => (.error e, t) := by
  have e : SeqM.exec (m >>= f) s = ExceptT.bindCont f (SeqM.exec m s).1 (SeqM.exec m s).2 := rfl
  rw [e]
  rcases SeqM.exec m s with ⟨a | a, t⟩ <;> rfl

theorem SeqM.exec_pure {α : Type} (a : α) (s : State) : SeqM.exec (pure a) s = (.ok a, s) := rfl
theorem SeqM.exec_fail {α : Type} (st det : Nat) (s : State) : SeqM.exec (sqFail st det : SeqM α) s = (.error (st, det), s) := rfl
theorem SeqM.exec_get (s : State) : SeqM.exec (get : SeqM State) s = (.ok s, s) := rfl
theorem SeqM.exec_modify (f : State → State) (s : State) : SeqM.exec (modify f : SeqM Unit) s = (.ok (), f s) := rfl
theorem SeqM.exec_set (t s : State) : SeqM.exec (set t : SeqM PUnit) s = (.ok (), t) := rfl

theorem sqRoll_open {s : State} {p : Nat} {r : Roll} (h : rollGet s p = some r) : SeqM.exec (sqRoll p) s = (.ok r, s) := by
  unfold sqRoll; rw [SeqM.exec_bind, SeqM.exec_get]; simp only []; rw [h]; rfl

theorem rollGet_put (s : State) (p : Nat) (x : Option Roll) : rollGet (rollPut s p x) p = x := by unfold rollGet rollPut; exact tabGet_put _ _ _ _

theorem rollUpd_open {s : State} {p : Nat} {r : Roll} (h : rollGet s p = some r) (f : Roll → Roll) : rollUpd s p f = rollPut s p (some (f r)) := by
  unfold rollUpd; rw [h]

/-- R231: a dead identifier is refused. -/
theorem liveSeq_dead {r : Roll} {q : Nat} (h1 : seqRange r q = true) (h2 : r.seqAt q = none) (s : State) : SeqM.exec (liveSeq r q) s = (.error (stFailedOperand, dSqSeqDead), s) := by
  unfold liveSeq; rw [h1, h2]; rfl

theorem liveSeq_live {r : Roll} {q : Nat} {x : SeqRec} (h1 : seqRange r q = true) (h2 : r.seqAt q = some x) (s : State) : SeqM.exec (liveSeq r q) s = (.ok x, s) := by
  unfold liveSeq; rw [h1, h2]; rfl

theorem rollClose_exec {s : State} {p : Nat} {r : Roll} (c : Cmd) (h : rollGet s p = some r) (h1 : r.seqs = []) : SeqM.exec (rollClose p c) s = (.ok 0, rollPut s p none) := by
  unfold rollClose; rw [SeqM.exec_bind, sqRoll_open h]; simp only []; rw [h1]; rfl

theorem seqPrune_dead {s : State} {p : Nat} {r : Roll} {c : Cmd} (h : rollGet s p = some r) (h1 : seqRange r (opf c 16 4) = true) (h2 : r.seqAt (opf c 16 4) = none) :
    SeqM.exec (seqPrune p c) s = (.error (stFailedOperand, dSqSeqDead), s) := by
  unfold seqPrune; rw [SeqM.exec_bind, sqRoll_open h]; simp only []; rw [SeqM.exec_bind, liveSeq_dead h1 h2]

theorem seqLeave_dead {s : State} {p : Nat} {r : Roll} {c : Cmd} (h : rollGet s p = some r) (h1 : seqRange r (opf c 16 4) = true) (h2 : r.seqAt (opf c 16 4) = none) :
    SeqM.exec (seqLeave p c) s = (.error (stFailedOperand, dSqSeqDead), s) := by
  unfold seqLeave; rw [SeqM.exec_bind, sqRoll_open h]; simp only []; rw [SeqM.exec_bind, liveSeq_dead h1 h2]

theorem seqJoin_live {s : State} {p : Nat} {r : Roll} {c : Cmd} (h : rollGet s p = some r) (h0 : opf c 20 1 ≤ 15) (h3 : bit (opf c 21 1) 1 = true ∨ opf c 24 4 = 0)
    (h1 : seqRange r (opf c 16 4) = true) (h2 : (r.seqAt (opf c 16 4)).isSome = true) : SeqM.exec (seqJoin p c) s = (.error (stFailedOperand, dSqSeqLive), s) := by
  unfold seqJoin; rw [SeqM.exec_bind, sqRoll_open h]; simp only []
  rw [if_neg (by rintro (k | ⟨k, k'⟩)
                 · omega
                 · rcases h3 with e | e
                   · rw [e] at k; exact absurd k (by decide)
                   · exact k' e), h1, h2]
  rfl

theorem seqSet_prio {s : State} {p : Nat} {r : Roll} {c : Cmd} (h : rollGet s p = some r) (h0 : opf c 20 1 ≤ 15) (h1 : seqRange r (opf c 16 4) = true)
    (h2 : (r.seqAt (opf c 16 4)).isSome = true) (h3 : bit (opf c 21 1) 1 = false) (h4 : bit (opf c 21 1) 2 = true) :
    SeqM.exec (seqSet p c) s = (.ok 0, rollPut s p (some (r.seqUpd (opf c 16 4) (fun z => { z with prio := opf c 20 1 })))) := by
  obtain ⟨x, hx⟩ := Option.isSome_iff_exists.mp h2
  unfold seqSet; rw [SeqM.exec_bind, sqRoll_open h]; simp only []
  rw [if_neg (by omega), h3, h4, SeqM.exec_bind, liveSeq_live h1 hx]
  show (Except.ok 0, rollUpd s p _) = _
  rw [rollUpd_open h]

theorem seqJoin_fresh {s : State} {p : Nat} {r : Roll} {c : Cmd} (h : rollGet s p = some r) (h0 : opf c 20 1 ≤ 15) (h3 : opf c 21 1 ≤ 1) (h4 : opf c 24 4 = 0)
    (h1 : seqRange r (opf c 16 4) = true) (h2 : r.seqAt (opf c 16 4) = none) (h5 : r.seqs.length < r.maxLive) (h6 : r.kv = none) :
    SeqM.exec (seqJoin p c) s = (.ok 0, rollPut s p (some (r.seqPut (opf c 16 4) ⟨0, opf c 20 1, bit (opf c 21 1) 0, false, false, false, true, .fresh, r.steps, r.stamp + 1, 0⟩))) := by
  have b1 : bit (opf c 21 1) 1 = false := by interval_cases (opf c 21 1) <;> rfl
  have b2 : bit (opf c 21 1) 2 = false := by interval_cases (opf c 21 1) <;> rfl
  unfold seqJoin; rw [SeqM.exec_bind, sqRoll_open h]; simp only []
  rw [b1, b2, h4, h1, h2, h6]
  rw [if_neg (by rintro (k | ⟨-, k'⟩)
                 · omega
                 · exact k' rfl), if_neg (by decide), if_neg (by decide), if_neg (by omega), if_neg (by simp), if_neg (by decide)]
  have e : ((0:Nat) == 1048576) = false := by decide
  simp only [e, Bool.or_false]
  rw [if_neg (by omega)]
  show (Except.ok 0, rollUpd s p _) = _
  rw [rollUpd_open h]
  rfl

/-- The first of the least elements by a key. -/
theorem least_spec {α : Type} (k : α → Nat) (f : Option α → α → Option α) (h0 : ∀ c, f none c = some c)
    (h1 : ∀ x c, f (some x) c = if k c < k x then some c else some x) : ∀ (l : List α) (m : Option α),
    (∀ r, l.foldl f m = some r → (r ∈ l ∨ m = some r) ∧ (∀ y ∈ l, k r ≤ k y) ∧ (∀ y, m = some y → k r ≤ k y)) ∧ ((l ≠ [] ∨ m ≠ none) → l.foldl f m ≠ none)
  | [], m => ⟨fun r h => ⟨Or.inr h, fun y q => (by cases q), fun y q => (by
      have e : m = some r := h
      rw [e] at q; rw [Option.some.inj q])⟩, fun h => h.resolve_left (fun e => e rfl)⟩
  | a :: l, m => by
    rw [List.foldl_cons]
    obtain ⟨b, hb, ha, hm⟩ : ∃ b, f m a = some b ∧ (b = a ∨ m = some b) ∧ k b ≤ k a ∧ ∀ y, m = some y → k b ≤ k y := by
      cases m with
      | none => exact ⟨a, h0 a, Or.inl rfl, Nat.le_refl _, fun y q => by cases q⟩
      | some x =>
        by_cases c : k a < k x
        · exact ⟨a, by rw [h1, if_pos c], Or.inl rfl, Nat.le_refl _, fun y q => by rw [← Option.some.inj q]; omega⟩
        · exact ⟨x, by rw [h1, if_neg c], Or.inr rfl, by omega, fun y q => by rw [← Option.some.inj q]⟩
    rw [hb]
    obtain ⟨g1, g2⟩ := least_spec k f h0 h1 l (some b)
    refine ⟨fun r hr => ?_, fun _ => g2 (Or.inr (by simp))⟩
    obtain ⟨q1, q2, q3⟩ := g1 r hr
    have := q3 b rfl
    refine ⟨?_, ?_, fun y q => ?_⟩
    · rcases q1 with e | e
      · exact Or.inl (List.mem_cons_of_mem _ e)
      · rw [← Option.some.inj e]
        rcases ha with e | e
        · exact Or.inl (e ▸ List.mem_cons_self)
        · exact Or.inr e
    · intro y hy
      rcases List.mem_cons.mp hy with e | e
      · rw [e]; omega
      · exact q2 y e
    · have := hm.2 y q; omega

theorem seqNext_spec {x : State} {p : Nat} {c : Cmd} (h : seqNext x p = some c) : c ∈ x.cmds ∧ c.part = p ∧ isSeqCmd c = true ∧ c.started = false ∧
    (∀ d ∈ x.cmds, d.part = p → isSeqCmd d = true → d.started = false → c.bell ≤ d.bell) ∧ unfetchedBefore x p c.bell = false ∧
    ∀ r, rollGet x p = some r → r.step = none ∧ r.nq = [] ∧ ∀ b, r.stage8 = some b → c.bell < b ∧ cmdOp c ≠ 0x46 := by
  unfold seqNext at h
  split at h
  · cases h
  split at h
  · cases h
  rename_i d hd
  split at h
  · cases h
  rename_i hu
  have hdc : d = c ∧ ∀ r, rollGet x p = some r → r.step = none ∧ r.nq = [] ∧ ∀ b, r.stage8 = some b → d.bell < b ∧ cmdOp d ≠ 0x46 := by
    split at h
    · rename_i hr; exact ⟨Option.some.inj h, fun r hr' => by rw [hr] at hr'; cases hr'⟩
    · rename_i r hr
      split at h
      · cases h
      · rename_i hs
        simp only [Bool.or_eq_true, not_or, Bool.not_eq_true, Option.isSome_eq_false_iff, Option.isNone_iff_eq_none] at hs
        have hn : r.nq = [] := by
          cases e : r.nq with
          | nil => rfl
          | cons a l => rw [e] at hs; exact absurd hs.2 (by simp)
        split at h
        · rename_i b hb
          split at h
          · rename_i hc
            simp only [Bool.and_eq_true, decide_eq_true_eq, bne_iff_ne] at hc
            exact ⟨Option.some.inj h, fun r' hr' => by
              rw [hr] at hr'; cases hr'
              exact ⟨hs.1, hn, fun b' hb' => by rw [hb] at hb'; cases hb'; exact hc⟩⟩
          · cases h
        · rename_i hb
          exact ⟨Option.some.inj h, fun r' hr' => by
              rw [hr] at hr'; cases hr'
              exact ⟨hs.1, hn, fun b' hb' => by rw [hb] at hb'; cases hb'⟩⟩
  obtain ⟨e, hr⟩ := hdc
  subst e
  unfold seqFirst at hd
  obtain ⟨h1, h2, -⟩ := (least_spec (fun c : Cmd => c.bell) _ (fun _ => rfl) (fun _ _ => rfl) _ _).1 _ hd
  have hm : d ∈ seqWaiting x p := by
    rcases h1 with k | k
    · exact k
    · cases k
  unfold seqWaiting at hm h2
  obtain ⟨hm1, hm2⟩ := List.mem_filter.mp hm
  simp only [Bool.and_eq_true, beq_iff_eq, Bool.not_eq_eq_eq_not, Bool.not_true] at hm2
  refine ⟨hm1, hm2.1.1, hm2.1.2, hm2.2, ?_, ?_, hr⟩
  · intro y hy k1 k2 k3
    refine h2 y (List.mem_filter.mpr ⟨hy, ?_⟩)
    simp [k1, k2, k3]
  · simp only [Bool.or_eq_true, not_or, Bool.not_eq_true] at hu
    exact hu.1

theorem seqUndo_roll (x y : State) (p : Nat) : rollGet (seqUndo x y p) p = rollGet x p := by unfold seqUndo; exact rollGet_put _ _ _

theorem seqApply_bad {x : State} {p : Nat} {c : Cmd} (h : seqNext x p = some c) (m : Cmd → SeqM Nat) (h1 : seqOperandsOk c = false) :
    seqApply x p (cmdOp c) m = seqApplied (cmdFail x c dSqField) p := by
  unfold seqApply; rw [h]; dsimp only; rw [if_neg (by simp), h1]; rfl

theorem seqApply_ok {x : State} {p : Nat} {c : Cmd} (h : seqNext x p = some c) (m : Cmd → SeqM Nat) (h1 : seqOperandsOk c = true) {v : Nat} {y : State}
    (h2 : (m c).exec x = (.ok v, y)) : seqApply x p (cmdOp c) m = cmdDone (seqApplied y p) c stOk v := by
  unfold seqApply; rw [h]; dsimp only; rw [if_neg (by simp), h1, h2]; rfl

theorem seqApply_error {x : State} {p : Nat} {c : Cmd} (h : seqNext x p = some c) (m : Cmd → SeqM Nat) (h1 : seqOperandsOk c = true) {st det : Nat} {y : State}
    (h2 : (m c).exec x = (.error (st, det), y)) :
    seqApply x p (cmdOp c) m = cmdDone (seqApplied (if det = movedMark then rollPut y p (rollGet x p) else seqUndo x y p) p) c st (det % movedMark) := by
  unfold seqApply; rw [h]; dsimp only; rw [if_neg (by simp), h1, h2]; rfl

theorem stepStatus_ok {got : List (Nat × Nat)} (h : ∀ g ∈ got, g.2 = 0) : stepStatus got = stOk := by
  unfold stepStatus
  rw [List.filter_eq_nil_iff.mpr (by intro g hg; rw [h g hg]; decide)]; rfl

theorem stepStatus_lowest {got : List (Nat × Nat)} (h : ∃ g ∈ got, g.2 ≠ 0) : ∃ g ∈ got, g.2 ≠ 0 ∧ stepStatus got = g.2 ∧ ∀ h ∈ got, h.2 ≠ 0 → g.1 ≤ h.1 := by
  obtain ⟨g, hg, hn⟩ := h
  have hm : ∀ {x : Nat × Nat}, x ∈ got.filter (fun x => x.2 != 0) ↔ x ∈ got ∧ x.2 ≠ 0 := by
    intro x; rw [List.mem_filter]; simp
  obtain ⟨f, hf⟩ : ∃ f, f = fun (m : Option (Nat × Nat)) (x : Nat × Nat) => match m with
    | none => some x
    | some y => if x.1 < y.1 then some x else some y := ⟨_, rfl⟩
  obtain ⟨a, b⟩ := least_spec (fun x : Nat × Nat => x.1) f (fun _ => by rw [hf]) (fun _ _ => by rw [hf]) (got.filter (fun x => x.2 != 0)) none
  have he := b (Or.inl (List.ne_nil_of_mem (hm.mpr ⟨hg, hn⟩)))
  obtain ⟨r, hr⟩ := Option.ne_none_iff_exists'.mp he
  obtain ⟨q1, q2, -⟩ := a r hr
  have hr1 := hm.mp (q1.resolve_right (by simp))
  refine ⟨r, hr1.1, hr1.2, ?_, fun y hy hz => q2 y (hm.mpr ⟨hy, hz⟩)⟩
  have e : stepStatus got = ((got.filter (fun x => x.2 != 0)).foldl f none).elim stOk (·.2) := by rw [hf]; rfl
  rw [e, hr]; rfl

/-! ### Sorting -/

theorem insertBy_perm {α : Type} (le : α → α → Bool) (x : α) : ∀ l, (insertBy le x l).Perm (x :: l)
  | [] => List.Perm.refl _
  | y :: t => by
    unfold insertBy
    split
    · exact List.Perm.refl _
    · exact ((insertBy_perm le x t).cons y).trans (List.Perm.swap x y t)

theorem sortBy_perm {α : Type} (le : α → α → Bool) : ∀ l, (sortBy le l).Perm l
  | [] => List.Perm.refl _
  | x :: t => (insertBy_perm le x _).trans ((sortBy_perm le t).cons x)

theorem insertBy_sorted {α : Type} {le : α → α → Bool} (ht : ∀ a b, le a b = true ∨ le b a = true) (tr : ∀ a b c, le a b = true → le b c = true → le a c = true) (x : α) :
    ∀ l, l.Pairwise (fun a b => le a b = true) → (insertBy le x l).Pairwise (fun a b => le a b = true)
  | [], _ => List.pairwise_singleton _ _
  | y :: t, h => by
    obtain ⟨h1, h2⟩ := List.pairwise_cons.mp h
    unfold insertBy
    split
    · rename_i hx
      refine List.pairwise_cons.mpr ⟨fun z hz => ?_, h⟩
      rcases List.mem_cons.mp hz with e | e
      · rw [e]; exact hx
      · exact tr _ _ _ hx (h1 z e)
    · rename_i hx
      refine List.pairwise_cons.mpr ⟨fun z hz => ?_, insertBy_sorted ht tr x t h2⟩
      rcases List.mem_cons.mp ((insertBy_perm le x t).mem_iff.mp hz) with e | e
      · rw [e]; exact (ht x y).resolve_left hx
      · exact h1 z e

theorem sortBy_sorted {α : Type} {le : α → α → Bool} (ht : ∀ a b, le a b = true ∨ le b a = true) (tr : ∀ a b c, le a b = true → le b c = true → le a c = true) :
    ∀ l, (sortBy le l).Pairwise (fun a b => le a b = true)
  | [] => List.Pairwise.nil
  | x :: t => insertBy_sorted ht tr x _ (sortBy_sorted ht tr t)

theorem candidates_spec (r : Roll) (b : Nat) : (∀ e, e ∈ (candidates r b).2 ↔ e ∈ r.seqs ∧ e.2.idle = false ∧ e.2.broken = false ∧ bucketOf e.2.len = (candidates r b).1) ∧
    (candidates r b).2.Pairwise (fun a b => stepOrder a b = true) := by
  constructor
  · intro e
    have e2 : (candidates r b).2 = sortBy stepOrder ((r.seqs.filter (fun e => !e.2.idle && !e.2.broken)).filter (fun e => bucketOf e.2.len == (candidates r b).1)) := rfl
    rw [e2, (sortBy_perm _ _).mem_iff, List.mem_filter, List.mem_filter]
    simp [and_assoc]
  · unfold candidates
    refine sortBy_sorted ?_ ?_ _
    · intro a b; simp only [stepOrder, Bool.or_eq_true, Bool.and_eq_true, decide_eq_true_eq, beq_iff_eq]; omega
    · intro a b c; simp only [stepOrder, Bool.or_eq_true, Bool.and_eq_true, decide_eq_true_eq, beq_iff_eq]; omega

theorem dispatch_open {x : State} {p : Nat} {r : Roll} {st : StepRun} (h : rollGet x p = some r) (hs : r.step = some st) (nd : (partGet x p).cells.Nodup) :
    ∃ r', rollGet (dispatch x p) p = some r' ∧ r'.steps = r.steps + 1 ∧ r'.step = some { st with heldAt := none, cells := (partGet x p).cells, got := [] } ∧
      (∀ c ∈ (partGet x p).cells, cellGet (dispatch x p) c = pushed (cellGet x c) ⟨fld r.record 56 4, st.number % 65536, .seqr p⟩) ∧
      (∀ c, c ∉ (partGet x p).cells → cellGet (dispatch x p) c = cellGet x c) ∧ (dispatch x p).regs = x.regs ∧ (dispatch x p).mems = x.mems := by
  obtain ⟨r', hr'⟩ : ∃ r' : Roll, { r with
        steps := r.steps + 1, step := some { st with heldAt := none, cells := (partGet x p).cells, got := [] },
        seqs := r.seqs.map (fun e => if st.batch.contains e.1 then (e.1, { e.2 with first := false }) else e) } = r' := ⟨_, rfl⟩
  obtain ⟨w, hw⟩ : ∃ w, ({ rollPut x p (some r') with stepping := (rollPut x p (some r')).stepping ++ [p] } : State) = w := ⟨_, rfl⟩
  obtain ⟨v, hv⟩ : ∃ v, (partGet x p).cells.foldl (fun t c => jigPush t c ⟨fld r.record 56 4, st.number % 65536, .seqr p⟩) w = v := ⟨_, rfl⟩
  have e : dispatch x p = v := by
    unfold dispatch; rw [h]; dsimp only; rw [hs]; dsimp only; rw [hr', hw, hv]
  obtain ⟨f1, f2, f3, f4⟩ := jigPush_fold _ _ _ _ nd hv
  have f5 : ∃ c, v = { w with cells := c } := hv ▸ jigPush_fold_frame _ _ _
  obtain ⟨cs, hc⟩ := f5
  have hcell : ∀ c, cellGet w c = cellGet x c := by intro c; subst hw; rfl
  refine ⟨r', ?_, by rw [← hr'], by rw [← hr'], ?_, ?_, ?_, ?_⟩
  · rw [e, hc]
    have : rollGet { w with cells := cs } p = rollGet w p := rfl
    rw [this, ← hw]
    have : rollGet { rollPut x p (some r') with stepping := (rollPut x p (some r')).stepping ++ [p] } p = rollGet (rollPut x p (some r')) p := rfl
    rw [this, rollGet_put]
  · intro c hm; rw [e, f1, if_pos hm, hcell]
  · intro c hm; rw [e, f1, if_neg hm, hcell]
  · rw [e, f4, ← hw]; rfl
  · rw [e, f3, ← hw]; rfl

end Sys2Proof.Machine
end

