-- ==== Sys2Proof/Laws/Videos.lean ====
section
/-!
SUPPORT. Laws/Videos.lean: writes to a partition's memory, and the release of aligned sets (R285, R402, R403).
-/

namespace Sys2Proof.Machine

theorem foldl_frame {α : Type} (f : State → α → State) (P : State → State → Prop) (refl : ∀ s, P s s) (tr : ∀ a b c, P a b → P b c → P a c) (h : ∀ s a, P s (f s a)) :
    ∀ (l : List α) (s : State), P s (l.foldl f s)
  | [], s => refl s
  | a :: l, s => tr _ _ _ (h s a) (foldl_frame f P refl tr h l (f s a))

theorem physWrite_frame : ∀ (l : List (Nat × Nat)) (s : State) (bs : List Byte), ∃ m, physWrite s l bs = { s with mems := m }
  | [], s, _ => ⟨s.mems, rfl⟩
  | (y, m) :: t, s, bs => by
    obtain ⟨x, hx⟩ := physWrite_frame t (wr s .hbm y (bs.take m)) (bs.drop m)
    exact ⟨x, hx⟩

theorem physArrive_frame (s : State) (p : Nat) (l : List (Nat × Nat)) : ∃ q, physArrive s p l = { s with hbmq := q } := by
  unfold physArrive
  refine foldl_frame _ (fun a b => ∃ q, b = { a with hbmq := q }) (fun s => ⟨s.hbmq, rfl⟩) ?_ ?_ l s
  · rintro a b c ⟨x, rfl⟩ ⟨y, rfl⟩; exact ⟨y, rfl⟩
  · intro t x
    unfold hbmArrive
    split
    · exact ⟨t.hbmq, rfl⟩
    · exact ⟨_, rfl⟩

theorem lines_frame (p : Nat) (l : List Nat) (s : State) : ∃ c f, l.foldl (fun t x => lineInvalidate t p x) s = { s with cache := c, fills := f } := by
  refine foldl_frame _ (fun a b => ∃ c f, b = { a with cache := c, fills := f }) (fun s => ⟨s.cache, s.fills, rfl⟩) ?_ ?_ l s
  · rintro a b c ⟨x, y, rfl⟩ ⟨z, w, rfl⟩; exact ⟨z, w, rfl⟩
  · intro t x
    unfold lineInvalidate
    split
    · exact ⟨t.cache, t.fills, rfl⟩
    · exact ⟨_, _, rfl⟩

/-- R285, R293: a write to a partition's memory changes its bytes, the requests of its stacks, and the cached lines. -/
theorem hputD_frame (s : State) (p a : Nat) (bs : List Byte) : ∃ m q c f, hputD s p a bs = { s with mems := m, hbmq := q, cache := c, fills := f } := by
  unfold hputD hput
  split
  · exact ⟨s.mems, s.hbmq, s.cache, s.fills, rfl⟩
  · rename_i ps _
    obtain ⟨m, hm⟩ := physWrite_frame ps s bs
    obtain ⟨q, hq⟩ := physArrive_frame (physWrite s ps bs) p ps
    obtain ⟨c, f, hc⟩ := lines_frame p (linesOf a bs.length) (physArrive (physWrite s ps bs) p ps)
    refine ⟨m, q, c, f, ?_⟩
    rw [Option.getD_some, hc, hq, hm]

theorem find_map_put (id : Nat) (g' : AGroup) (hg : g'.id = id) : ∀ l : List AGroup, (∃ g, l.find? (fun g => g.id == id) = some g) →
    (l.map (fun x => if x.id = g'.id then g' else x)).find? (fun g => g.id == id) = some g'
  | [], h => by obtain ⟨g, h⟩ := h; cases h
  | a :: l, h => by
    rw [List.map_cons, hg]
    by_cases e : a.id = id
    · rw [if_pos e, List.find?_cons, hg]; simp
    · rw [if_neg e, List.find?_cons]
      have e' : (a.id == id) = false := by simpa using e
      rw [e']
      obtain ⟨g, h⟩ := h
      rw [List.find?_cons, e'] at h
      have := find_map_put id g' hg l ⟨g, h⟩
      rw [hg] at this; exact this

theorem sum_pos (l : List Nat) : ∀ a, a ≤ l.foldl (fun a j => a + 2 ^ j) a := by
  induction l with
  | nil => intro a; exact Nat.le_refl _
  | cons b l ih => intro a; rw [List.foldl_cons]; exact Nat.le_trans (Nat.le_add_right _ _) (ih _)

theorem alnMissing_ne {s : State} {g : AGroup} {j : Nat} (h : j < g.n) (k : memberFrame s g (g.tick g.k) (g.members.getD j 0) = none) : alnMissing s g ≠ 0 := by
  unfold alnMissing
  have hm : j ∈ (List.range g.n).filter (fun j => (memberFrame s g (g.tick g.k) (g.members.getD j 0)).isNone) :=
    List.mem_filter.mpr ⟨List.mem_range.mpr h, by rw [k]; rfl⟩
  cases hl : (List.range g.n).filter (fun j => (memberFrame s g (g.tick g.k) (g.members.getD j 0)).isNone) with
  | nil => rw [hl] at hm; cases hm
  | cons b l =>
    rw [List.foldl_cons]
    have h1 := sum_pos l (0 + 2 ^ b)
    have h2 := Nat.two_pow_pos b
    omega

theorem alnRelease_spec {s t : State} {id : Nat} {g : AGroup} (h : alnAt s id = some g) (hid : id < 64) (ht : alnRelease s id = t) :
      alnAt t id = some { g with k := g.k + 1 } ∧ rget t (alnReg id 0) = min (rget s (alnReg id 0) + 1) 0xFFFFFFFF ∧ (rget t (pgAln + 0x10)).testBit 0 = true ∧
      ((∃ j, j < g.n ∧ memberFrame s g (g.tick g.k) (g.members.getD j 0) = none) → (rget t (pgAln + 0x10)).testBit 1 = true ∧
        rget t (alnReg id 4) = min (rget s (alnReg id 4) + 1) 0xFFFFFFFF) := by
  have gid : g.id = id := by have := List.find?_some h; simpa using this
  have av : pgAln = 0x500000 := rfl
  have ev : pgErr = 0x800000 := rfl
  have r0 : alnReg id 0 = 0x500100 + 16 * id := by unfold alnReg; rw [av]; omega
  have r4 : alnReg id 4 = 0x500104 + 16 * id := by unfold alnReg; rw [av]; omega
  obtain ⟨a, ha⟩ : ∃ a, hputD s g.part (fld g.record 32 8 + 256 * (g.k % max (fld g.record 40 4) 1)) (alnBytes s g) = a := ⟨_, rfl⟩
  obtain ⟨m, q, c, f, ea⟩ := hputD_frame s g.part (fld g.record 32 8 + 256 * (g.k % max (fld g.record 40 4) 1)) (alnBytes s g)
  rw [ha] at ea
  obtain ⟨b, hb⟩ : ∃ b, ttSet (bumpSat (alnPut a { g with k := g.k + 1 }) (alnReg id 0) 1) id = b := ⟨_, rfl⟩
  have et : t = if alnMissing s g = 0 then raise b pgAln 1 else raise (bumpSat b (alnReg id 4) 1) pgAln 3 := by
    rw [← ht]; unfold alnRelease; rw [h]; dsimp only; rw [ha, hb]
  have ar : ∀ r, rget a r = rget s r := fun r => rget_congr (by rw [ea]) r
  have b0 : rget b (alnReg id 0) = min (rget s (alnReg id 0) + 1) 0xFFFFFFFF := by
    rw [← hb]; show rget (bumpSat (alnPut a { g with k := g.k + 1 }) (alnReg id 0) 1) _ = _
    rw [rget_bumpSat_val]; show min (rget a _ + 1) _ = _; rw [ar]
  have b1 : ∀ r, r ≠ alnReg id 0 → rget b r = rget s r := by
    intro r n
    rw [← hb]; show rget (bumpSat (alnPut a { g with k := g.k + 1 }) (alnReg id 0) 1) _ = _
    rw [rget_bumpSat_ne _ _ n]; show rget a _ = _; rw [ar]
  have ba : b.aligns = s.aligns.map (fun x => if x.id = id then { g with k := g.k + 1 } else x) := by
    rw [← hb]; show a.aligns.map (fun x => if x.id = g.id then { g with k := g.k + 1 } else x) = _
    rw [ea, gid]
  have tl : t.aligns = b.aligns := by
    rw [et]; split
    · rw [raise_aligns]
    · rw [raise_aligns, bumpSat_aligns]
  refine ⟨?_, ?_, ?_, ?_⟩
  · unfold alnAt; rw [tl, ba]
    obtain ⟨g', hg'⟩ : ∃ g' : AGroup, { g with k := g.k + 1 } = g' := ⟨_, rfl⟩
    have i' : g'.id = id := by rw [← hg']; exact gid
    rw [hg']
    have := find_map_put id g' i' s.aligns ⟨g, h⟩
    rw [i'] at this
    exact this
  · rw [et]; split
    · rw [rget_raise_ne _ _ _ (by omega) (by omega) (by omega), b0]
    · rw [rget_raise_ne _ _ _ (by omega) (by omega) (by omega), rget_bumpSat_ne _ _ (by omega), b0]
  · rw [et]; split
    · exact raise_bit _ _ _ _ (by decide) (by decide) (by decide) (by decide)
    · exact raise_bit _ _ _ _ (by decide) (by decide) (by decide) (by decide)
  · rintro ⟨j, h1, h2⟩
    rw [et, if_neg (alnMissing_ne h1 h2)]
    refine ⟨raise_bit _ _ _ _ (by decide) (by decide) (by decide) (by decide), ?_⟩
    rw [rget_raise_ne _ _ _ (by omega) (by omega) (by omega), rget_bumpSat_val, b1 _ (by omega)]

/-- The choice of R402 among frames: nearest, then lowest. -/
def nearer (t : Nat) (a b : Nat × Nat) : Prop := timeDist a.2 t ≤ timeDist b.2 t ∧ (timeDist b.2 t = timeDist a.2 t → a.1 ≤ b.1)

theorem nearest_fold (t : Nat) : ∀ (l : List (Nat × Nat)) (m : Option (Nat × Nat)) (r : Nat × Nat), l.foldl (fun (best : Option (Nat × Nat)) c => match best with
        | none => some c
        | some b => if timeDist c.2 t < timeDist b.2 t ∨ (timeDist c.2 t = timeDist b.2 t ∧ c.1 < b.1) then some c else some b) m = some r →
    (r ∈ l ∨ m = some r) ∧ (∀ y ∈ l, nearer t r y) ∧ (∀ y, m = some y → nearer t r y)
  | [], m, r, h => ⟨Or.inr h, fun _ q => (by cases q), fun y q => (by
      have e : m = some r := h
      rw [e] at q; rw [Option.some.inj q]; exact ⟨Nat.le_refl _, fun _ => Nat.le_refl _⟩)⟩
  | a :: l, none, r, h => by
    obtain ⟨h1, h2, h3⟩ := nearest_fold t l (some a) r h
    have ha := h3 a rfl
    refine ⟨Or.inl ?_, ?_, fun y q => (by cases q)⟩
    · rcases h1 with k | k
      · exact List.mem_cons_of_mem _ k
      · rw [Option.some.inj k]; exact List.mem_cons_self
    · intro y hy
      rcases List.mem_cons.mp hy with e | e
      · rw [e]; exact ha
      · exact h2 y e
  | a :: l, some x, r, h => by
    obtain ⟨h1, h2, h3⟩ := nearest_fold t l _ r h
    dsimp only at h1 h3
    by_cases c : timeDist a.2 t < timeDist x.2 t ∨ (timeDist a.2 t = timeDist x.2 t ∧ a.1 < x.1)
    · rw [if_pos c] at h1 h3
      have ha := h3 a rfl
      refine ⟨Or.inl ?_, ?_, ?_⟩
      · rcases h1 with k | k
        · exact List.mem_cons_of_mem _ k
        · rw [Option.some.inj k]; exact List.mem_cons_self
      · intro y hy
        rcases List.mem_cons.mp hy with e | e
        · rw [e]; exact ha
        · exact h2 y e
      · intro y q; rw [← Option.some.inj q]
        unfold nearer at ha ⊢; omega
    · rw [if_neg c] at h1 h3
      have ha := h3 x rfl
      refine ⟨?_, ?_, ?_⟩
      · rcases h1 with k | k
        · exact Or.inl (List.mem_cons_of_mem _ k)
        · exact Or.inr k
      · intro y hy
        rcases List.mem_cons.mp hy with e | e
        · rw [e]; unfold nearer at ha ⊢; omega
        · exact h2 y e
      · intro y q; rw [← Option.some.inj q]; exact ha

theorem memberFrame_spec {s : State} {g : AGroup} {t m f cap : Nat} (h : memberFrame s g t m = some (f, cap)) : ∃ x, sessAt s m = some x ∧ (f, cap) ∈ x.caps ∧ timeDist cap t ≤ g.tol ∧
      ∀ f' cap', (f', cap') ∈ x.caps → timeDist cap' t ≤ g.tol → timeDist cap t ≤ timeDist cap' t ∧ (timeDist cap' t = timeDist cap t → f ≤ f') := by
  unfold memberFrame at h
  split at h
  · cases h
  · split at h
    · cases h
    · rename_i x hx
      obtain ⟨h1, h2, -⟩ := nearest_fold t _ _ _ h
      have hm := h1.resolve_right (fun k => by cases k)
      obtain ⟨m1, m2⟩ := List.mem_filter.mp hm
      refine ⟨x, hx, m1, by simpa using m2, fun f' cap' hc ht => ?_⟩
      exact h2 (f', cap') (List.mem_filter.mpr ⟨hc, by simpa using ht⟩)

end Sys2Proof.Machine
end

