-- ==== Sys2Proof/Laws/Boots.lean ====
section
/-!
SUPPORT. Laws/Boots.lean: boot, the configuration record, images and the memories: what the shared operations leave (R315, R476, R480, R488, R493).
-/

namespace Sys2Proof.Machine

/-- `t` is `s` but for registers and what raising events does besides. -/
def RegsOnly (s t : State) : Prop :=
  { t with regs := s.regs, disarmed := s.disarmed, msix := s.msix, msixHeld := s.msixHeld, errLog := s.errLog } = s

theorem regsOnly_refl (s : State) : RegsOnly s s := rfl

theorem regsOnly_trans {s t u : State} (h : RegsOnly s t) (k : RegsOnly t u) : RegsOnly s u := by
  unfold RegsOnly at *
  rw [← h, ← k]

theorem regsOnly_rset (s : State) (a v : Nat) : RegsOnly s (rset s a v) := rfl
theorem regsOnly_rsetBits (s : State) (a hi lo v : Nat) : RegsOnly s (rsetBits s a hi lo v) := rfl

theorem regsOnly_raise (s : State) (pg e : Nat) : RegsOnly s (raise s pg e) := by
  obtain ⟨r, l, m, h, q⟩ := raise_frame s pg e
  rw [q]; rfl

theorem regsOnly_fold {α : Type} (f : State → α → State) (h : ∀ s a, RegsOnly s (f s a)) : ∀ (l : List α) (s : State), RegsOnly s (l.foldl f s)
  | [], s => regsOnly_refl s
  | a :: l, s => regsOnly_trans (h s a) (regsOnly_fold f h l (f s a))

theorem regsOnly_touches {l : List Nat} {s t : State} (h : Touches l s t) : RegsOnly s t := h.1

theorem RegsOnly.field {α : Type} {s t : State} (h : RegsOnly s t) (f : State → α) (k : ∀ (r : List (Nat × Word)) d m mh e, f { t with regs := r, disarmed := d, msix := m, msixHeld := mh, errLog := e } = f t) :
    f t = f s := by
  rw [← k s.regs s.disarmed s.msix s.msixHeld s.errLog, h]

theorem regsOnly_d2dTrain (s : State) (bad : Nat) (mods : List Nat) : RegsOnly s (d2dTrain s bad mods) := by
  unfold d2dTrain
  exact regsOnly_fold _ (fun t i => by dsimp only; split <;> rfl) _ _

theorem regsOnly_hbmTrain (s : State) (bad : Nat) : RegsOnly s (hbmTrain s bad) := by
  unfold hbmTrain
  exact regsOnly_fold _ (fun t i => by split <;> rfl) _ _

theorem regsOnly_mbxBind (s : State) (c v : Nat) : RegsOnly s (mbxBind s c v) := by
  unfold mbxBind lockedWrite
  split
  · split
    · rfl
    · exact regsOnly_trans (regsOnly_rset _ _ _) (regsOnly_raise _ _ _)
  · split
    · rfl
    · exact regsOnly_raise _ _ _

theorem regsOnly_bootBind (s : State) : RegsOnly s (bootBind s) := by
  unfold bootBind
  split
  · rfl
  · exact regsOnly_trans (regsOnly_mbxBind _ _ _) (regsOnly_mbxBind _ _ _)

theorem imgSlot_congr {s t : State} (h : t.mems = s.mems) (k : Nat) : imgSlot t k = imgSlot s k := by unfold imgSlot rd; rw [h]

theorem slotImage_congr {s t : State} (h : t.mems = s.mems) (f : t.fuses = s.fuses) (k : Nat) : slotImage t k = slotImage s k := by
  unfold slotImage; rw [imgSlot_congr h, imgSlot_congr h, f]

theorem regsOnly_imgRegs (s : State) : RegsOnly s (imgRegs s) := by
  unfold imgRegs
  exact regsOnly_trans (regsOnly_trans (regsOnly_trans (regsOnly_trans (regsOnly_rset _ _ _) (regsOnly_rset _ _ _)) (regsOnly_rset _ _ _)) (regsOnly_rset _ _ _)) (regsOnly_rset _ _ _)

theorem journalResume_frame (s : State) : ∃ j, journalResume s = { s with jnl := j } := by
  unfold journalResume
  exact foldl_frame _ (fun s t => ∃ j, t = { s with jnl := j }) (fun s => ⟨s.jnl, rfl⟩) (fun a b c => by rintro ⟨j, rfl⟩ ⟨k, rfl⟩; exact ⟨k, rfl⟩)
    (fun s r => by dsimp only; split <;> exact ⟨_, rfl⟩) _ _

theorem keeperStart_frame (s : State) : (keeperStart s).kImg = s.kImg ∧ (keeperStart s).uImg = s.uImg ∧ (keeperStart s).fuses = s.fuses ∧ (keeperStart s).power = s.power := by
  unfold keeperStart
  obtain ⟨x, hx⟩ : ∃ x, rset (bootScrub s) (pgKpr + 0xC) (1 + b2n s.uImg.isSome * 4) = x := ⟨_, rfl⟩
  have e1 : x.kImg = s.kImg ∧ x.uImg = s.uImg ∧ x.fuses = s.fuses ∧ x.power = s.power := by rw [← hx]; exact ⟨rfl, rfl, rfl, rfl⟩
  rw [hx]
  obtain ⟨y, hy⟩ : ∃ y, (if s.uImg.isSome then x else raise x pgKpr 4) = y := ⟨_, rfl⟩
  have R : RegsOnly x y := by rw [← hy]; split; exact regsOnly_refl _; exact regsOnly_raise _ _ _
  simp only [hy]
  obtain ⟨j, hj⟩ := journalResume_frame y
  rw [hj]
  exact ⟨(R.field State.kImg (fun _ _ _ _ _ => rfl)).trans e1.1, (R.field State.uImg (fun _ _ _ _ _ => rfl)).trans e1.2.1,
    (R.field State.fuses (fun _ _ _ _ _ => rfl)).trans e1.2.2.1, (R.field State.power (fun _ _ _ _ _ => rfl)).trans e1.2.2.2⟩

theorem regsOnly_heldSet (s : State) (m : Nat) : RegsOnly s (heldSet s m) := by
  unfold heldSet
  dsimp only
  split
  · exact regsOnly_trans (regsOnly_rsetBits _ _ _ _ _) (regsOnly_rsetBits _ _ _ _ _)
  · exact regsOnly_rsetBits _ _ _ _ _

theorem rbits_rsetBits_apart (s : State) (a hi lo v h l : Nat) (k : lo ≤ hi) (k2 : hi < 32) (d : h < lo ∨ hi < l) :
    rbits (rsetBits s a hi lo v) a h l = rbits s a h l := by
  unfold rbits
  rw [rget_rsetBits, Nat.mod_eq_of_lt (setBits_lt32 _ _ _ _ k k2 (rget_lt _ _)), bits_setBits_ne _ _ _ _ _ _ k d]

theorem reasons_heldSet (s : State) (m : Nat) (h : m < 4096) : reasons (heldSet s m) = reasons s ||| m := by
  have hr : reasons s < 4096 := by unfold reasons rbits; exact bits_lt _ 11 0
  have hm : (reasons s ||| m) % 4096 = reasons s ||| m := Nat.mod_eq_of_lt (Nat.or_lt_two_pow (n := 12) hr h)
  have e1 : reasons (rsetBits s (pgCfg + 0x48) 11 0 (reasons s ||| m)) = reasons s ||| m := by
    show rbits (rsetBits s (pgCfg + 0x48) 11 0 (reasons s ||| m)) (pgCfg + 0x48) 11 0 = _
    rw [rbits_rsetBits_same _ _ _ _ _ (by decide) (by decide)]
    exact hm
  unfold heldSet
  dsimp only
  split
  · show rbits _ (pgCfg + 0x48) 11 0 = _
    rw [rbits_rsetBits_apart _ _ _ _ _ _ _ (by decide) (by decide) (by decide)]
    exact e1
  · exact e1

theorem reasons_congr {s t : State} (h : rget t (pgCfg + 0x48) = rget s (pgCfg + 0x48)) : reasons t = reasons s := rbits_congr h _ _

theorem touches_heldSet {l : List Nat} (s : State) (m : Nat) (h : pgCfg + 0x48 ∈ l) : Touches l s (heldSet s m) := by
  unfold heldSet
  dsimp only
  split
  · exact touches_trans (touches_rsetBits _ _ _ _ h) (touches_rsetBits _ _ _ _ h)
  · exact touches_rsetBits _ _ _ _ h

/-- What the boot sequence leaves (R476, R481, R511). -/
theorem bootRun_spec {s : State} (f : Fuses) (d2d : Nat) (mods : List Nat) (hbm : Nat) (hc : s.cold = false) (hb : devState s = dvBoot) (hs : s.stop = none) {w : State}
    (hw : bootRun s f d2d mods hbm = w) : w.fuses = f ∧ rbits w (pgChp + 0x40) 2 0 = dvHeld ∧
      w.kImg = slotImage { s with fuses := f } 1 ∧ w.uImg = slotImage { s with fuses := f } 2 ∧
      (reasons w).testBit 0 = true ∧ (d2d % 2 ^ 16 ≠ 0 → (reasons w).testBit 9 = true) ∧ (hbm % 2 ^ 8 ≠ 0 → (reasons w).testBit 10 = true) ∧
      (w.kImg = none ∨ w.uImg = none → (reasons w).testBit 8 = true) ∧ (w.kImg ≠ none → w.power.vin < 44000 ∨ 59000 < w.power.vin ∨ w.power.cap < 15198 → (reasons w).testBit 11 = true) := by
  unfold bootRun at hw
  rw [if_neg (by rw [hc, hb, hs]; simp)] at hw
  obtain ⟨s1, h1⟩ : ∃ s1, hbmTrain (d2dTrain { s with fuses := f } d2d mods) hbm = s1 := ⟨_, rfl⟩
  have R1 : RegsOnly { s with fuses := f } s1 := by rw [← h1]; exact regsOnly_trans (regsOnly_d2dTrain _ _ _) (regsOnly_hbmTrain _ _)
  rw [h1] at hw
  have m1 : s1.mems = ({ s with fuses := f } : State).mems := R1.field State.mems (fun _ _ _ _ _ => rfl)
  have f1 : s1.fuses = ({ s with fuses := f } : State).fuses := R1.field State.fuses (fun _ _ _ _ _ => rfl)
  simp only [slotImage_congr m1 f1] at hw
  obtain ⟨k, hk⟩ : ∃ k, slotImage { s with fuses := f } 1 = k := ⟨_, rfl⟩
  obtain ⟨u, hu⟩ : ∃ u, slotImage { s with fuses := f } 2 = u := ⟨_, rfl⟩
  rw [hk, hu] at hw ⊢
  obtain ⟨x, hx⟩ : ∃ x, ({ s1 with kImg := k, uImg := u, trained := true } : State) = x := ⟨_, rfl⟩
  rw [hx] at hw
  obtain ⟨s2, h2⟩ : ∃ s2, bootBind (imgRegs x) = s2 := ⟨_, rfl⟩
  have R2 : RegsOnly x s2 := by rw [← h2]; exact regsOnly_trans (regsOnly_imgRegs _) (regsOnly_bootBind _)
  simp only [h2] at hw
  have k2 : s2.kImg = k := (R2.field State.kImg (fun _ _ _ _ _ => rfl)).trans (by rw [← hx])
  have u2 : s2.uImg = u := (R2.field State.uImg (fun _ _ _ _ _ => rfl)).trans (by rw [← hx])
  have f2 : s2.fuses = f := (R2.field State.fuses (fun _ _ _ _ _ => rfl)).trans (by rw [← hx]; exact f1)
  obtain ⟨s3, h3⟩ : ∃ s3, (if s2.kImg.isSome then keeperStart s2 else s2) = s3 := ⟨_, rfl⟩
  have F3 : s3.kImg = k ∧ s3.uImg = u ∧ s3.fuses = f := by
    rw [← h3]
    obtain ⟨a, b, c, -⟩ := keeperStart_frame s2
    split
    · exact ⟨a.trans k2, b.trans u2, c.trans f2⟩
    · exact ⟨k2, u2, f2⟩
  simp only [h3] at hw
  obtain ⟨mm, hm⟩ : ∃ mm, hNoConfig + b2n (untested s3) * hUntested + b2n (ifMismatch s3) * hIfMismatch +
      b2n (s3.kImg.isNone || s3.uImg.isNone) * hImage + b2n (d2d % 2 ^ 16 != 0) * hD2d + b2n (hbm % 2 ^ 8 != 0) * hHbm +
      b2n (s3.kImg.isSome && (inputBad s3 || bankBad s3)) * hInput = mm := ⟨_, rfl⟩
  rw [hm] at hw
  obtain ⟨y, hy⟩ : ∃ y, (if (s3.kImg.isSome && bankBad s3) = true then raise s3 pgPwr 0x400 else s3) = y := ⟨_, rfl⟩
  have Ry : RegsOnly s3 y := by rw [← hy]; split; exact regsOnly_raise _ _ _; exact regsOnly_refl _
  rw [hy] at hw
  obtain ⟨z, hz⟩ : ∃ z, heldSet y mm = z := ⟨_, rfl⟩
  have Rz : RegsOnly s3 z := by rw [← hz]; exact regsOnly_trans Ry (regsOnly_heldSet _ _)
  rw [hz] at hw
  obtain ⟨q1, q2⟩ := enterState_spec hw (by decide)
  have Rw : RegsOnly s3 w := regsOnly_trans Rz (regsOnly_touches q2)
  have bl : ∀ b, b2n b ≤ 1 := by intro b; cases b <;> decide
  have b1 : ∀ b, b = true → b2n b = 1 := by intro b h; rw [h]; rfl
  have l1 := bl (untested s3)
  have l2 := bl (ifMismatch s3)
  have l3 := bl (s3.kImg.isNone || s3.uImg.isNone)
  have l4 := bl (d2d % 2 ^ 16 != 0)
  have l5 := bl (hbm % 2 ^ 8 != 0)
  have l6 := bl (s3.kImg.isSome && (inputBad s3 || bankBad s3))
  have c3 := b1 (s3.kImg.isNone || s3.uImg.isNone)
  have c4 := b1 (d2d % 2 ^ 16 != 0)
  have c5 := b1 (hbm % 2 ^ 8 != 0)
  have c6 := b1 (s3.kImg.isSome && (inputBad s3 || bankBad s3))
  generalize b2n (untested s3) = n1 at hm l1
  generalize b2n (ifMismatch s3) = n2 at hm l2
  generalize b2n (s3.kImg.isNone || s3.uImg.isNone) = n3 at hm l3 c3
  generalize b2n (d2d % 2 ^ 16 != 0) = n4 at hm l4 c4
  generalize b2n (hbm % 2 ^ 8 != 0) = n5 at hm l5 c5
  generalize b2n (s3.kImg.isSome && (inputBad s3 || bankBad s3)) = n6 at hm l6 c6
  simp only [hNoConfig, hUntested, hIfMismatch, hImage, hD2d, hHbm, hInput] at hm
  have rr : reasons w = reasons y ||| mm := by
    rw [reasons_congr (q2.2 _ (by decide) (by decide) (by decide)), ← hz]
    exact reasons_heldSet _ _ (by omega)
  have tb : ∀ i, mm / 2 ^ i % 2 = 1 → (reasons w).testBit i = true := by
    intro i h
    rw [rr, Nat.testBit_or, Nat.testBit_eq_decide_div_mod_eq (x := mm), h]; simp
  have kw : w.kImg = s3.kImg := Rw.field State.kImg (fun _ _ _ _ _ => rfl)
  have uw : w.uImg = s3.uImg := Rw.field State.uImg (fun _ _ _ _ _ => rfl)
  have pw : w.power = s3.power := Rw.field State.power (fun _ _ _ _ _ => rfl)
  refine ⟨(Rw.field State.fuses (fun _ _ _ _ _ => rfl)).trans F3.2.2, q1, kw.trans F3.1, uw.trans F3.2.1, tb 0 (by omega), fun h => tb 9 ?_, fun h => tb 10 ?_, fun h => tb 8 ?_, fun h h' => tb 11 ?_⟩
  · have := c4 (by simpa using h); omega
  · have := c5 (by simpa using h); omega
  · have := c3 (by rw [kw, uw] at h; rcases h with h | h <;> rw [h] <;> simp); omega
  · rw [kw] at h; rw [pw] at h'
    have := c6 (by
      rw [Bool.and_eq_true]
      refine ⟨by cases e : s3.kImg with
        | none => exact absurd e h
        | some v => rfl, ?_⟩
      simp only [inputBad, bankBad, Bool.or_eq_true, decide_eq_true_eq]; omega)
    omega

theorem tabGet_filter {α : Type} (d : Nat → α) (p : Nat → Bool) : ∀ (l : List (Nat × α)) (k : Nat), tabGet d (l.filter (fun e => p e.1)) k = if p k then tabGet d l k else d k
  | [], k => by simp [tabGet]
  | (i, v) :: t, k => by
    rw [List.filter_cons]
    by_cases h : p i = true
    · rw [if_pos h]
      by_cases e : i = k
      · subst e; simp [tabGet, h]
      · simp only [tabGet, if_neg e]; exact tabGet_filter d p t k
    · rw [if_neg h, tabGet_filter d p t k]
      by_cases e : i = k
      · subst e; rw [if_neg h, if_neg h]
      · simp only [tabGet, if_neg e]

/-- With CFG served, so is every address of the pages that the boot ROM serves. -/
theorem served_boot {s : State} (h : Served s (pgCfg + 0x40)) {a : Nat} (ha : a < 0x3000) : Served s a := by
  refine ⟨h.1, ?_, h.2.2⟩
  have hp : ∀ p : Fin 3, (pageOf (p.val * 0x1000)).isNone = false := by decide
  have h1 : (pageOf a).isNone = false := by
    have e := pageOf_same a 0 (by decide)
    rw [← e]
    have q := hp ⟨a / 0x1000, by omega⟩
    rw [Nat.add_zero]; exact q
  unfold accessKind
  rw [h1, if_neg (by simp; omega), if_neg (by simp [bootPage, ha]), if_neg (by simp; omega)]
  rfl

theorem versions_le : ∀ v ∈ versions, 0x0206 ≤ v ∧ v ≤ 0x0302 := by decide

theorem negotiate_lt (k : Option Img) (req : Nat) : negotiate k req < 2 ^ 32 := by
  unfold negotiate
  dsimp only
  split
  · decide
  · rename_i v hv
    have := versions_le v (List.mem_of_find?_eq_some hv)
    split <;> omega

theorem negotiate_spec (i : Img) (req : Nat) : (negotiate (some i) req = 0 ∧ (∀ v ∈ versions, v ≤ req → v ≤ fld i.hdr 20 2 → v < fld i.hdr 18 2)) ∨
        ∃ v ∈ versions, negotiate (some i) req = v + 2 ^ 16 ∧ v ≤ req ∧ v ≤ fld i.hdr 20 2 ∧ fld i.hdr 18 2 ≤ v ∧ ∀ w ∈ versions, w ≤ req → w ≤ fld i.hdr 20 2 → w ≤ v := by
  obtain ⟨hi, hhi⟩ : ∃ x, fld i.hdr 20 2 = x := ⟨_, rfl⟩
  obtain ⟨lo, hlo⟩ : ∃ x, fld i.hdr 18 2 = x := ⟨_, rfl⟩
  have e : negotiate (some i) req = match versions.find? (fun v => decide (v ≤ min req (min hi 0x0302))) with
    | none => 0
    | some v => if max 0x0206 lo ≤ v then v + 2 ^ 16 else 0 := by rw [← hhi, ← hlo]; rfl
  rw [hhi, hlo, e]
  cases hf : versions.find? (fun v => decide (v ≤ min req (min hi 0x0302))) with
  | none =>
    refine Or.inl ⟨rfl, fun v hv h1 h2 => ?_⟩
    have := List.find?_eq_none.mp hf v hv
    have := versions_le v hv
    simp only [decide_eq_true_eq] at *
    omega
  | some v =>
    have hv := List.mem_of_find?_eq_some hf
    have hp := List.find?_some hf
    simp only [decide_eq_true_eq] at hp
    have hl := versions_le v hv
    have hbest : ∀ w ∈ versions, w ≤ req → w ≤ hi → w ≤ v := by
      intro w hw h1 h2
      obtain ⟨-, as, bs, e, hn⟩ := List.find?_eq_some_iff_append.mp hf
      have hwl := versions_le w hw
      have sorted : versions.Pairwise (fun a b => b ≤ a) := by decide
      rw [e] at hw sorted
      rcases List.mem_append.mp hw with k | k
      · have := hn w k
        simp only [Bool.not_eq_eq_eq_not, Bool.not_true, decide_eq_false_iff_not] at this
        omega
      · rcases List.mem_cons.mp k with k | k
        · omega
        · exact (List.pairwise_cons.mp (List.pairwise_append.mp sorted).2.1).1 w k
    dsimp only
    by_cases c : max 0x0206 lo ≤ v
    · rw [if_pos c]
      exact Or.inr ⟨v, hv, rfl, by omega, by omega, by omega, hbest⟩
    · rw [if_neg c]
      refine Or.inl ⟨rfl, fun w hw h1 h2 => ?_⟩
      have := hbest w hw h1 h2
      omega

theorem unwritten_none {s : State} {ws : List Nat} : unwritten s ws = none ↔ ∀ w ∈ ws, bit (rget s (pgCfg + 0x80 + 4 * (w / 32))) (w % 32) = true := by
  unfold unwritten
  rw [Option.map_eq_none_iff, List.find?_eq_none]
  simp

/-- R493: what a record that passes meets. -/
theorem commitCheck_passes (s : State) (r : List Byte) : (commitCheck s r).1 = 0 ↔ unwritten s (List.range 76) = none ∧ fld r 0 4 = 0x43464752 ∧ fld r 4 2 = 1 ∧ fld r 8 4 = 304 ∧
    fld r 28 4 = crc32c (r.take 28 ++ r.drop 32) ∧ rget s (pgCfg + 0x4C) < fld r 12 4 ∧ (∀ x ∈ recFields s r, x.2 = true) ∧ bit (rget s (pgVer + 0x48)) 16 = true := by
  have sub : unwritten s (List.range 76) = none → unwritten s [0, 1, 2] = none := by
    rw [unwritten_none, unwritten_none]
    intro h w hw
    refine h w (List.mem_range.mpr ?_)
    simp only [List.mem_cons, List.not_mem_nil, or_false] at hw; omega
  have hf : (recFields s r).find? (fun x => !x.2) = none ↔ ∀ x ∈ recFields s r, x.2 = true := by
    rw [List.find?_eq_none]; simp
  unfold commitCheck
  generalize crc32c (r.take 28 ++ r.drop 32) = crc
  generalize hu : unwritten s (List.range 76) = u76 at *
  generalize unwritten s [0, 1, 2] = u3 at *
  generalize (recFields s r).find? (fun x => !x.2) = rf at *
  rw [← hf]
  cases u3 with
  | some d => simp only [hIncomplete]; constructor
              · intro h; cases h
              · intro h; cases sub h.1
  | none =>
    simp only []
    by_cases a : fld r 0 4 = 0x43464752
    · by_cases b : fld r 4 2 = 1
      · by_cases c : fld r 8 4 = 304
        · rw [if_neg (by simpa using a), if_neg (by simpa using b), if_neg (by simpa using c)]
          cases u76 with
          | some d => simp [hIncomplete]
          | none =>
            simp only []
            by_cases e : fld r 28 4 = crc
            · rw [if_neg (by simpa using e)]
              by_cases f : fld r 12 4 ≤ rget s (pgCfg + 0x4C)
              · rw [if_pos f]; constructor
                · intro h; cases h
                · intro h; omega
              · rw [if_neg f]
                cases rf with
                | some x => simp [hInconsistent]
                | none =>
                  simp only []
                  cases bit (rget s (pgVer + 0x48)) 16
                  · simp [hVerNone]
                  · simp [a, b, c, e]; omega
            · rw [if_pos e]; simp [hCrc, e]
        · rw [if_neg (by simpa using a), if_neg (by simpa using b), if_pos c]; simp [hInconsistent, c]
      · rw [if_neg (by simpa using a), if_pos b]; simp [hInconsistent, b]
    · rw [if_pos a]; simp [hInconsistent, a]

theorem and_mask (x k : Nat) (hx : x < 4096) (h : ∀ i < 12, (x &&& k).testBit i = false) : x &&& k = 0 := by
  apply Nat.eq_of_testBit_eq
  intro i
  rw [Nat.zero_testBit]
  by_cases c : i < 12
  · exact h i c
  · rw [Nat.testBit_and, Nat.testBit_eq_false_of_lt (Nat.lt_of_lt_of_le hx (Nat.pow_le_pow_right (by decide : 0 < 2) (by omega : 12 ≤ i)))]; rfl

theorem reasons_lt (s : State) : reasons s < 4096 := by unfold reasons rbits; exact bits_lt _ 11 0

theorem reasons_set (s : State) (m : Nat) (h : m < 4096) : reasons (rsetBits s (pgCfg + 0x48) 11 0 m) = m := by
  show rbits (rsetBits s (pgCfg + 0x48) 11 0 m) (pgCfg + 0x48) 11 0 = _
  rw [rbits_rsetBits_same _ _ _ _ _ (by decide) (by decide)]
  exact Nat.mod_eq_of_lt h

theorem evt_bit (s : State) (e i : Nat) (h : e.testBit i = true) (hi : i < 32) : (rget (raise s pgCfg e) (pgCfg + 0x10)).testBit i = true :=
  raise_bit s pgCfg e i h hi (by decide) (by decide)

/-- Application of a held record: where it is last written (R494). -/
theorem recApply_spec {s w : State} {r : List Byte} (h : recApply s r = w) (hr : fld r 12 4 < 2 ^ 32) : rbits w (pgChp + 0x40) 2 0 = dvConfigured ∧
    rget w (pgCfg + 0x4C) = fld r 12 4 ∧ w.msixHeld = [] ∧ { w with regs := s.regs, disarmed := s.disarmed, msix := s.msix, msixHeld := s.msixHeld, errLog := s.errLog } = s := by
  unfold recApply at h
  obtain ⟨s1, h1⟩ : ∃ s1, rsetBits (rset (rset s (pgCol + 0x40) (fld r 32 2)) (pgCol + 0x44) (fld r 36 4)) (pgPwr + 0x48) 31 16 (fld r 40 4) = s1 := ⟨_, rfl⟩
  have R1 : RegsOnly s s1 := by rw [← h1]; exact regsOnly_trans (regsOnly_trans (regsOnly_rset _ _ _) (regsOnly_rset _ _ _)) (regsOnly_rsetBits _ _ _ _ _)
  simp only [h1] at h
  obtain ⟨s2, h2⟩ : ∃ s2, (List.range 8).foldl (fun t i => rsetBits t (pgHbm i + 8) 0 0 (b2n (bit (byteAt r 44) i))) s1 = s2 := ⟨_, rfl⟩
  have R2 : RegsOnly s1 s2 := by rw [← h2]; exact regsOnly_fold _ (fun t i => regsOnly_rsetBits _ _ _ _ _) _ _
  simp only [h2] at h
  obtain ⟨s3, h3⟩ : ∃ s3, (if dblLocked s2 then s2 else dblLock (recChannels.foldl (fun t c => mbxBind t c (recBind r c)) s2)) = s3 := ⟨_, rfl⟩
  have R3 : RegsOnly s2 s3 := by
    rw [← h3]; split
    · exact regsOnly_refl _
    · exact regsOnly_trans (regsOnly_fold _ (fun t c => regsOnly_mbxBind t c _) _ _) (regsOnly_rset _ _ _)
  simp only [h3] at h
  obtain ⟨s4, h4⟩ : ∃ s4, enterState (rset s3 (pgCfg + 0x4C) (fld r 12 4)) dvConfigured = s4 := ⟨_, rfl⟩
  obtain ⟨q1, q2⟩ := enterState_spec h4 (by decide)
  have R4 : RegsOnly s s4 := regsOnly_trans (regsOnly_trans (regsOnly_trans R1 R2) (regsOnly_trans R3 (regsOnly_rset _ _ _))) (regsOnly_touches q2)
  rw [h4] at h
  have g := q2.2 (pgCfg + 0x4C) (by decide) (by decide) (by decide)
  rw [rget_rset_same, Nat.mod_eq_of_lt hr] at g
  subst h
  exact ⟨q1, g, rfl, R4⟩

theorem fld_lt32 (b : List Byte) (o : Nat) : fld b o 4 < 2 ^ 32 := fld_lt4 b o

/-- `t` is `s` but for registers, what raising events does besides, and the requests of the stacks. -/
def ReadOnly (s t : State) : Prop :=
  { t with hbmq := s.hbmq, regs := s.regs, disarmed := s.disarmed, msix := s.msix, msixHeld := s.msixHeld, errLog := s.errLog } = s

theorem readOnly_trans {s t u : State} (h : ReadOnly s t) (k : ReadOnly t u) : ReadOnly s u := by
  unfold ReadOnly at *
  rw [← h, ← k]

theorem readOnly_regs {s t : State} (h : RegsOnly s t) : ReadOnly s t := by
  unfold ReadOnly RegsOnly at *
  rw [← h]

theorem ReadOnly.field {α : Type} {s t : State} (h : ReadOnly s t) (f : State → α)
    (k : ∀ q (r : List (Nat × Word)) d m mh e, f { t with hbmq := q, regs := r, disarmed := d, msix := m, msixHeld := mh, errLog := e } = f t) : f t = f s := by
  rw [← k s.hbmq s.regs s.disarmed s.msix s.msixHeld s.errLog, h]

theorem readOnly_arrive (s : State) (p : Nat) (l : List (Nat × Nat)) : ReadOnly s (physArrive s p l) := by
  obtain ⟨q, hq⟩ := physArrive_frame s p l
  rw [hq]; rfl

theorem regsOnly_capture (s : State) (pg a b c d : Nat) : RegsOnly s (capture s pg a b c d) :=
  regsOnly_touches (touches_capture (l := [pg + 0x20, pg + 0x24, pg + 0x28, pg + 0x2C]) s a b c d (by simp) (by simp) (by simp) (by simp))

theorem readOnly_ecc (s : State) (l : List (Nat × Nat)) : ReadOnly s (physEcc s l).1 := by
  unfold physEcc
  split
  · exact readOnly_regs (regsOnly_trans (regsOnly_trans (regsOnly_rset _ _ _) (regsOnly_capture _ _ _ _ _ _)) (regsOnly_raise _ _ _))
  · split
    · exact readOnly_regs (regsOnly_trans (regsOnly_capture _ _ _ _ _ _) (regsOnly_raise _ _ _))
    · exact readOnly_regs (regsOnly_refl _)

theorem readOnly_keeper (s : State) (a n : Nat) : ReadOnly s (keeperRead s a n).1 := by
  unfold keeperRead
  split
  · exact readOnly_regs (regsOnly_refl _)
  · dsimp only
    have h1 := readOnly_arrive s 1024 (physPieces a n)
    have h2 := readOnly_ecc (physArrive s 1024 (physPieces a n)) (physPieces a n)
    split <;> (rename_i q; rw [q] at h2; exact readOnly_trans h1 h2)

theorem readOnly_image (s : State) (a : Nat) : ReadOnly s (hbmImage s a).1 := by
  unfold hbmImage
  split
  · exact readOnly_regs (regsOnly_refl _)
  · have h1 := readOnly_keeper s a 512
    split
    · rename_i q; rw [q] at h1; exact h1
    · rename_i s1 h q
      rw [q] at h1
      split
      · exact h1
      · have h2 := readOnly_keeper s1 a (imgLength h)
        split <;> (rename_i q2; rw [q2] at h2; exact readOnly_trans h1 h2)

/-- R480: the checks, in their order. -/
theorem imgVerify_zero (f : Fuses) (kinds : List Nat) (b : List Byte) : imgVerify f kinds b = 0 ↔
    512 ≤ b.length ∧ imgFormat b = true ∧ imgLength b ≤ b.length ∧ byteAt b 4 ∈ kinds ∧ imgKey f b = true ∧ f.epoch ≤ fld b 24 4 ∧ imgSigned b = true := by
  unfold imgVerify
  generalize imgFormat b = A
  generalize imgKey f b = B
  generalize imgSigned b = C
  generalize imgLength b = n
  by_cases h1 : 512 ≤ b.length
  · by_cases h2 : n ≤ b.length
    · cases A
      · simp
      · rw [if_neg (by simp; omega)]
        by_cases h3 : byteAt b 4 ∈ kinds
        · rw [if_neg (by simpa using h3)]
          cases B
          · simp
          · rw [if_neg (by simp)]
            by_cases h4 : fld b 24 4 < f.epoch
            · rw [if_pos h4]; simp; omega
            · rw [if_neg h4]; cases C
              · simp
              · simp [h1, h2, h3]; omega
        · rw [if_pos (by simpa using h3)]; simp [h3]
    · rw [if_pos (by simp; omega)]; simp; omega
  · rw [if_pos (by simp; omega)]; simp; omega

/-- R484: an image is installed and the pairings are checked again. -/
theorem imgInstall_spec {s w : State} {h : List Byte} (hw : imgRecheck (imgInstall s h) = w) : w.heldRec = none ∧ (reasons w).testBit 0 = true ∧
    (byteAt h 4 = 1 → w.kImg = some ⟨2, h⟩ ∧ w.uImg = s.uImg) ∧ (byteAt h 4 ≠ 1 → w.uImg = some ⟨2, h⟩ ∧ w.kImg = s.kImg) := by
  obtain ⟨x, hx⟩ : ∃ x, imgInstall s h = x := ⟨_, rfl⟩
  have X : (byteAt h 4 = 1 → x.kImg = some ⟨2, h⟩ ∧ x.uImg = s.uImg) ∧ (byteAt h 4 ≠ 1 → x.uImg = some ⟨2, h⟩ ∧ x.kImg = s.kImg) := by
    constructor
    · intro k
      unfold imgInstall at hx; rw [if_pos k] at hx
      have R : RegsOnly { s with kImg := some ⟨2, h⟩ } x := by
        rw [← hx]; exact regsOnly_trans (regsOnly_trans (regsOnly_raise _ _ _) (regsOnly_rset _ _ _)) (regsOnly_rsetBits _ _ _ _ _)
      exact ⟨R.field State.kImg (fun _ _ _ _ _ => rfl), R.field State.uImg (fun _ _ _ _ _ => rfl)⟩
    · intro k
      unfold imgInstall at hx; rw [if_neg k] at hx
      rw [← hx]; exact ⟨rfl, rfl⟩
  rw [hx] at hw
  unfold imgRecheck at hw
  obtain ⟨y, hy⟩ : ∃ y, ({ x with heldRec := none, jnl := { x.jnl with work := x.jnl.work.filter (fun w => w.what != .accept) } } : State) = y := ⟨_, rfl⟩
  rw [hy] at hw
  obtain ⟨s1, h1⟩ : ∃ s1, imgRegs y = s1 := ⟨_, rfl⟩
  simp only [h1] at hw
  obtain ⟨s2, h2⟩ : ∃ s2, rset (rsetBits s1 (pgCfg + 0x48) 11 0 (reasons s1 &&& (0xFFF - (hUntested + hIfMismatch + hImage)))) (pgCfg + 0x58) 0 = s2 := ⟨_, rfl⟩
  simp only [h2] at hw
  have R1 : RegsOnly y s2 := by rw [← h2, ← h1]; exact regsOnly_trans (regsOnly_trans (regsOnly_imgRegs _) (regsOnly_rsetBits _ _ _ _ _)) (regsOnly_rset _ _ _)
  obtain ⟨mm, hm⟩ : ∃ mm, hNoConfig + b2n (untested s2) * hUntested + b2n (ifMismatch s2) * hIfMismatch +
    b2n (s2.kImg.isNone || s2.uImg.isNone) * hImage = mm := ⟨_, rfl⟩
  rw [hm] at hw
  have R : RegsOnly y w := by rw [← hw]; exact regsOnly_trans R1 (regsOnly_heldSet _ _)
  have bl : ∀ b, b2n b ≤ 1 := by intro b; cases b <;> decide
  have l1 := bl (untested s2)
  have l2 := bl (ifMismatch s2)
  have l3 := bl (s2.kImg.isNone || s2.uImg.isNone)
  generalize b2n (untested s2) = n1 at hm l1
  generalize b2n (ifMismatch s2) = n2 at hm l2
  generalize b2n (s2.kImg.isNone || s2.uImg.isNone) = n3 at hm l3
  simp only [hNoConfig, hUntested, hIfMismatch, hImage] at hm
  have hk : w.kImg = x.kImg := (R.field State.kImg (fun _ _ _ _ _ => rfl)).trans (by rw [← hy])
  have hu : w.uImg = x.uImg := (R.field State.uImg (fun _ _ _ _ _ => rfl)).trans (by rw [← hy])
  refine ⟨(R.field State.heldRec (fun _ _ _ _ _ => rfl)).trans (by rw [← hy]), ?_, ?_, ?_⟩
  · rw [← hw, reasons_heldSet _ _ (by omega), Nat.testBit_or, Nat.testBit_eq_decide_div_mod_eq (x := mm)]
    have : mm / 2 ^ 0 % 2 = 1 := by omega
    rw [decide_eq_true this, Bool.or_true]
  · rw [hk, hu]; exact X.1
  · rw [hk, hu]; exact X.2

/-! ### Memories -/

theorem memOf_setMem (m : Mems) (sp : Space) (x : List Host.Cell) (ms : List Mark) : memOf { setMem m sp x with marks := ms } sp = x := by cases sp <;> rfl

theorem memOf_setMem_ne (m : Mems) {sp sq : Space} (x : List Host.Cell) (ms : List Mark) (h : sq ≠ sp) : memOf { setMem m sp x with marks := ms } sq = memOf m sq := by
  cases sp <;> cases sq <;> first | rfl | exact absurd rfl h

theorem setMem_marks (m : Mems) (sp : Space) (x : List Host.Cell) (ms : List Mark) : ({ setMem m sp x with marks := ms } : Mems).marks = ms := by cases sp <;> rfl

/-- A unit carries a mark after some units were cleared: those lose theirs, the others keep it. -/
theorem marked_clear (sp : Space) (lo hi : Nat) (ms : List Mark) (sq : Space) (nv : Bool) (u : Nat) :
    marked (clearMarks sp lo hi ms) sq nv u = (marked ms sq nv u && !(sq == sp && decide (lo ≤ u ∧ u < hi))) := by
  rw [Bool.eq_iff_iff]
  simp only [marked, clearMarks, List.any_eq_true, List.mem_flatMap, Bool.and_eq_true, beq_iff_eq, decide_eq_true_eq, Bool.not_eq_eq_eq_not, Bool.not_true, Bool.and_eq_false_imp,
    decide_eq_false_iff_not]
  constructor
  · rintro ⟨k, ⟨j, hj, hk⟩, ⟨⟨h1, h2⟩, h3⟩, h4⟩
    by_cases e : j.sp = sp
    · rw [if_pos e] at hk
      rcases List.mem_append.mp hk with hk | hk
      · split at hk
        · rw [List.mem_singleton] at hk; subst hk
          dsimp only at h1 h2 h3 h4
          exact ⟨⟨j, hj, ⟨⟨h1, h2⟩, h3⟩, by omega⟩, fun _ => by omega⟩
        · cases hk
      · split at hk
        · rw [List.mem_singleton] at hk; subst hk
          dsimp only at h1 h2 h3 h4
          exact ⟨⟨j, hj, ⟨⟨h1, h2⟩, by omega⟩, h4⟩, fun _ => by omega⟩
        · cases hk
    · rw [if_neg e, List.mem_singleton] at hk; subst hk
      exact ⟨⟨k, hj, ⟨⟨h1, h2⟩, h3⟩, h4⟩, fun h => absurd (h1.trans h) e⟩
  · rintro ⟨⟨k, hk, ⟨⟨h1, h2⟩, h3⟩, h4⟩, h5⟩
    by_cases e : k.sp = sp
    · have h6 := h5 (h1.symm.trans e)
      by_cases c : u < lo
      · exact ⟨{ k with hi := min k.hi lo }, ⟨k, hk, by
          rw [if_pos e]; refine List.mem_append_left _ ?_
          rw [if_pos (by omega)]; exact List.mem_singleton.mpr rfl⟩, ⟨⟨h1, h2⟩, h3⟩, by dsimp only; omega⟩
      · exact ⟨{ k with lo := max k.lo hi }, ⟨k, hk, by
          rw [if_pos e]; refine List.mem_append_right _ ?_
          rw [if_pos (by omega)]; exact List.mem_singleton.mpr rfl⟩, ⟨⟨h1, h2⟩, by dsimp only; omega⟩, h4⟩
    · exact ⟨k, ⟨k, hk, by rw [if_neg e]; exact List.mem_singleton.mpr rfl⟩, ⟨⟨h1, h2⟩, h3⟩, h4⟩

theorem memGet_zeroIfMarked (ms : List Mark) (sp : Space) (u : Nat) (m : List Host.Cell) (b : Nat) (h : b / 32 ≠ u ∨ anyMark ms sp u = false) :
    memGet (zeroIfMarked ms sp u m) b = memGet m b := by
  unfold zeroIfMarked
  split
  · rename_i q
    rcases h with h | h
    · unfold memGet; rw [tabGet_tabClear, if_neg (by omega)]
    · rw [h] at q; cases q
  · rfl

theorem memsRead_one (m : Mems) (sp : Space) (b : Nat) : memsRead m sp b 1 = [if marked m.marks sp true (b / 32) then 0xFF#8 else memGet (memOf m sp) b] := rfl

theorem memsRead_ext {m : Mems} {sp : Space} : ∀ (n a : Nat) (bs : List Byte), bs.length = n →
    (∀ i, i < n → marked m.marks sp true ((a + i) / 32) = false ∧ memGet (memOf m sp) (a + i) = bs.getD i 0#8) → memsRead m sp a n = bs
  | 0, _, [], _, _ => rfl
  | n + 1, a, b :: bs, hl, h => by
    obtain ⟨h1, h2⟩ := h 0 (by omega)
    simp only [Nat.add_zero] at h1 h2
    unfold memsRead
    rw [h1, h2, memsRead_ext n (a + 1) bs (by simpa using hl) (fun i hi => by
      obtain ⟨a1, a2⟩ := h (i + 1) (by omega)
      rw [show a + 1 + i = a + (i + 1) by omega]
      exact ⟨a1, by rw [a2]; rfl⟩)]
    rfl

/-- A write reads back, and leaves what lies outside (R290, R315). -/
theorem memsWrite_read (m : Mems) (sp : Space) (a : Nat) (bs : List Byte) : 
    memsRead (memsWrite m sp a bs) sp a bs.length = bs ∧
    (∀ b, b / 32 < a / 32 ∨ (a + bs.length - 1) / 32 < b / 32 → memsRead (memsWrite m sp a bs) sp b 1 = memsRead m sp b 1) ∧
    (∀ b, b < a ∨ a + bs.length ≤ b → (∀ k ∈ m.marks, ¬ (k.sp = sp ∧ k.lo ≤ b / 32 ∧ b / 32 < k.hi)) → memsRead (memsWrite m sp a bs) sp b 1 = memsRead m sp b 1) ∧
    (∀ sq, sq ≠ sp → ∀ b n, memsRead (memsWrite m sp a bs) sq b n = memsRead m sq b n) := by
  by_cases hb : bs = []
  · subst hb; exact ⟨rfl, fun _ _ => rfl, fun _ _ _ => rfl, fun _ _ _ _ => rfl⟩
  have hl : 0 < bs.length := List.length_pos_iff.mpr hb
  have e : bs.isEmpty = false := by cases bs with
    | nil => exact absurd rfl hb
    | cons => rfl
  obtain ⟨x, hx⟩ : ∃ x, zeroIfMarked m.marks sp ((a + bs.length - 1) / 32) (zeroIfMarked m.marks sp (a / 32) (memOf m sp)) = x := ⟨_, rfl⟩
  have hw : memsWrite m sp a bs = { setMem m sp (memWrite x a bs) with marks := clearMarks sp (a / 32) ((a + bs.length - 1) / 32 + 1) m.marks } := by
    unfold memsWrite; rw [e, if_neg (by decide)]; dsimp only; rw [hx]
  rw [hw]
  have one : ∀ b, b < a ∨ a + bs.length ≤ b → (b / 32 < a / 32 ∨ (a + bs.length - 1) / 32 < b / 32 ∨ anyMark m.marks sp (b / 32) = false) →
      memsRead { setMem m sp (memWrite x a bs) with marks := clearMarks sp (a / 32) ((a + bs.length - 1) / 32 + 1) m.marks } sp b 1 = memsRead m sp b 1 := by
    intro b h1 h2
    rw [memsRead_one, memsRead_one, setMem_marks, memOf_setMem, memGet_memWrite, marked_clear, if_neg (show ¬(a ≤ b ∧ b < a + bs.length) by omega), ← hx]
    have z : ∀ u, u = a / 32 ∨ u = (a + bs.length - 1) / 32 → (b / 32 ≠ u ∨ anyMark m.marks sp u = false) := by
      intro u hu
      by_cases q : b / 32 = u
      · right; rw [← q]
        rcases h2 with h2 | h2 | h2
        · omega
        · omega
        · exact h2
      · exact Or.inl q
    rw [memGet_zeroIfMarked _ _ _ _ _ (z _ (Or.inr rfl)), memGet_zeroIfMarked _ _ _ _ _ (z _ (Or.inl rfl))]
    have k : (marked m.marks sp true (b / 32) && !(sp == sp && decide (a / 32 ≤ b / 32 ∧ b / 32 < (a + bs.length - 1) / 32 + 1))) = marked m.marks sp true (b / 32) := by
      rcases h2 with h2 | h2 | h2
      · have : ¬ (a / 32 ≤ b / 32 ∧ b / 32 < (a + bs.length - 1) / 32 + 1) := by omega
        rw [decide_eq_false this, Bool.and_false, Bool.not_false, Bool.and_true]
      · have : ¬ (a / 32 ≤ b / 32 ∧ b / 32 < (a + bs.length - 1) / 32 + 1) := by omega
        rw [decide_eq_false this, Bool.and_false, Bool.not_false, Bool.and_true]
      · have : marked m.marks sp true (b / 32) = false := by
          unfold anyMark at h2; rw [Bool.or_eq_false_iff] at h2; exact h2.1
        rw [this]; rfl
    rw [k]
  refine ⟨?_, ?_, ?_, ?_⟩
  · refine memsRead_ext _ _ _ rfl (fun i hi => ⟨?_, ?_⟩)
    · rw [setMem_marks, marked_clear]
      have : a / 32 ≤ (a + i) / 32 ∧ (a + i) / 32 < (a + bs.length - 1) / 32 + 1 := by omega
      simp [this]
    · rw [memOf_setMem, memGet_memWrite, if_pos (by omega), Nat.add_sub_cancel_left]
  · intro b h; exact one b (by omega) (by tauto)
  · intro b h1 h2
    refine one b h1 (Or.inr (Or.inr ?_))
    unfold anyMark marked
    rw [Bool.or_eq_false_iff, List.any_eq_false, List.any_eq_false]
    constructor <;>
    · intro k hk q
      simp only [Bool.and_eq_true, beq_iff_eq, decide_eq_true_eq] at q
      exact h2 k hk ⟨q.1.1.1, q.1.2, q.2⟩
  · intro sq hq b n
    induction n generalizing b with
    | zero => rfl
    | succ n ih =>
      unfold memsRead
      rw [ih, setMem_marks, marked_clear, memOf_setMem_ne _ _ _ hq]
      have : (sq == sp) = false := by simpa using hq
      rw [this]; simp

end Sys2Proof.Machine
end

