-- ==== Sys2Proof/Laws/Issue.lean ====
section
/-!
SUPPORT. Laws/Issue.lean: what the issue of a descriptor does (R80, R88, R104).
-/

namespace Sys2Proof.Machine

/-- The issued descriptor as it joins the others. -/
def issuedOf (s : State) (jr : JigRun) (d : List Byte) (aux : Nat) : RunDesc :=
  ⟨jr.nextIssue, jr.jig.start + 64 * jr.nextIssue, d, s.now, s.now, .queued, 0, 0, 0, [], false, 0, aux⟩

theorem traceIssue_frame (s : State) (c : Nat) (d : List Byte) (j i : Nat) : ∃ x, traceIssue s c d j i = { s with traces := x } := ⟨_, rfl⟩

theorem touches_perfBump {l : List Nat} (s : State) (c off n : Nat) (h : pgPerf c + off ∈ l) : Touches l s (perfBump s c off n) := by
  unfold perfBump; split
  · exact touches_refl _ _
  · exact touches_bumpSat _ _ h

@[simp] theorem perfBump_cells (s : State) (c off n : Nat) : (perfBump s c off n).cells = s.cells := by
  unfold perfBump; split
  · rfl
  · rw [bumpSat_cells]

/-- The registers that an issue may change. -/
def issueRegs (c : Nat) (d : List Byte) : List Nat := [semAddr c (dWait d), pgPerf c + 0x50, pgState c + 0x48]

theorem takeIssue_eq (s : State) (c : Nat) (jr : JigRun) (d : List Byte) (aux : Nat) : ∃ t x : State,
    (∃ y, t = { s with traces := y }) ∧ x.cells = s.cells ∧ x.now = s.now ∧ Touches (issueRegs c d) t x ∧
    (dWait d < 64 → rget x (semAddr c (dWait d)) = rget s (semAddr c (dWait d)) - 1) ∧
    takeIssue s c jr d aux = perfBump (setJr x c { jr with
      issued := jr.issued ++ [issuedOf s jr d aux], fetched := jr.fetched.drop 1, nextIssue := jr.nextIssue + 1,
      prev := some (d, 0), waitSince := s.now, lockSince := none }) c 0x50 1 := by
  have hsem : ∀ t : State, dWait d < 64 → rget (semDec t c (dWait d)) (semAddr c (dWait d)) = rget t (semAddr c (dWait d)) - 1 := by
    intro t _
    unfold semDec
    rw [rget_rset_same]
    have := rget_lt t (semAddr c (dWait d))
    exact Nat.mod_eq_of_lt (by omega)
  obtain ⟨y, hy⟩ := traceIssue_frame s c d jr.jig.id jr.nextIssue
  have e1 : pgState c = pgCel c + 0x5000 := rfl
  have key : ∀ x : State, (x = if dWait d < 64 then semDec (traceIssue s c d jr.jig.id jr.nextIssue) c (dWait d) else
      traceIssue s c d jr.jig.id jr.nextIssue) → x.cells = s.cells ∧ x.now = s.now ∧
      Touches (issueRegs c d) (traceIssue s c d jr.jig.id jr.nextIssue) x ∧
      (dWait d < 64 → rget x (semAddr c (dWait d)) = rget s (semAddr c (dWait d)) - 1) := by
    intro x hx
    by_cases hw : dWait d < 64
    · rw [if_pos hw] at hx
      subst hx
      refine ⟨by rw [hy]; rfl, by rw [hy]; rfl, touches_rset _ _ (by simp [issueRegs]), fun _ => ?_⟩
      rw [hsem _ hw, hy]; rfl
    · rw [if_neg hw] at hx
      subst hx
      exact ⟨by rw [hy], by rw [hy], touches_refl _ _, fun h => absurd h hw⟩
  obtain ⟨k1, k2, k3, k4⟩ := key _ rfl
  cases hl : jr.lockSince with
  | none =>
    refine ⟨_, _, ⟨y, hy⟩, k1, k2, k3, k4, ?_⟩
    unfold takeIssue
    rw [hl]
    rfl
  | some q =>
    refine ⟨_, bumpSat _ (pgState c + 0x48) (cyclesOf (s.now - q)), ⟨y, hy⟩, ?_, ?_, touches_trans k3 (touches_bumpSat _ _ (by simp [issueRegs])), ?_, ?_⟩
    · rw [bumpSat_cells]; exact k1
    · rw [bumpSat_now]; exact k2
    · intro hw
      have b := semAddr_bounds c _ hw
      unfold bumpSat
      rw [rget_rset_ne _ _ (by omega)]
      exact k4 hw
    · unfold takeIssue
      rw [hl]
      rfl

/-- R80, R88: the descriptor joins the issued ones, the next moves up, WAIT_SEM is decremented. -/
theorem takeIssue_spec {s u : State} {c : Nat} {jr : JigRun} {d : List Byte} {aux : Nat} (hu : u = takeIssue s c jr d aux) :
    cellGet u c = (cellGet s c).withRun { jr with
      issued := jr.issued ++ [issuedOf s jr d aux], fetched := jr.fetched.drop 1, nextIssue := jr.nextIssue + 1,
      prev := some (d, 0), waitSince := s.now, lockSince := none } ∧
    (∀ e, e ≠ c → cellGet u e = cellGet s e) ∧
    (dWait d < 64 → rget u (semAddr c (dWait d)) = rget s (semAddr c (dWait d)) - 1) ∧
    Touches (issueRegs c d) s { u with cells := s.cells, traces := s.traces } := by
  obtain ⟨t, x, ⟨y, hy⟩, h1, h2, h3, h4, h5⟩ := takeIssue_eq s c jr d aux
  generalize hj : ({ jr with issued := jr.issued ++ [issuedOf s jr d aux], fetched := jr.fetched.drop 1, nextIssue := jr.nextIssue + 1, prev := some (d, 0), waitSince := s.now, lockSince := none } : JigRun) = j at h5
  have hc : u.cells = (setJr x c j).cells := by rw [hu, h5, perfBump_cells]
  have ht : Touches (issueRegs c d) (setJr x c j) u := by rw [hu, h5]; exact touches_perfBump _ _ _ _ (by simp [issueRegs])
  refine ⟨?_, ?_, ?_, ?_⟩
  · rw [cellGet_congr hc, cellGet_setJr_same, cellGet_congr h1]; rfl
  · intro e he; rw [cellGet_congr hc]; exact (cellGet_cellPut_ne _ _ he).trans (cellGet_congr h1 e)
  · intro hw
    have b := semAddr_bounds c _ hw
    have q : rget u (semAddr c (dWait d)) = rget (setJr x c j) (semAddr c (dWait d)) := by
      rw [hu, h5]; unfold perfBump; split
      · rfl
      · unfold bumpSat; exact rget_rset_ne _ _ (by have : pgPerf c = pgCel c + 0x7000 := rfl
                                                   omega)
    rw [q]; exact h4 hw
  · have a1 : Touches (issueRegs c d) s { x with cells := s.cells, traces := s.traces } := by
      obtain ⟨f1, f2⟩ := h3
      subst hy
      exact ⟨(congrArg (fun v : State => { v with cells := s.cells, traces := s.traces }) f1).trans rfl, f2⟩
    obtain ⟨f1, f2⟩ := a1
    obtain ⟨g1, g2⟩ := ht
    exact ⟨(congrArg (fun v : State => { v with cells := s.cells, traces := s.traces, regs := s.regs, disarmed := s.disarmed, msix := s.msix, msixHeld := s.msixHeld, errLog := s.errLog }) g1).trans f1,
      fun a b c' d' => (g2 a b c' d').trans (f2 a b c' d')⟩

theorem issueTest_go {s : State} {c : Nat} {jr : JigRun} {d : List Byte} {p : Plan} {dt : List Chk} (h : issueTest s c jr d p dt = .go) :
    interlocked jr d = false := by
  unfold issueTest at h
  split at h
  · cases h
  · split at h
    · cases h
    · split at h
      · cases h
      · rename_i k
        simp only [Bool.or_eq_true, not_or] at k
        simpa using k.2

theorem noteLock_none {s : State} {c : Nat} {jr : JigRun} {d : List Byte} (h : interlocked jr d = false) : noteLock s c jr d = s := by
  unfold noteLock; rw [h]; rfl

theorem nextOp_run {s : State} {c op : Nat} {jr : JigRun} {d : List Byte} (h : nextOp s c op = some (jr, d)) :
    (cellGet s c).run = some jr ∧ (cellGet s c).mode = .normal := by
  unfold nextOp at h
  dsimp only at h
  split at h
  · split at h
    · split at h
      · cases h; exact ⟨by assumption, by assumption⟩
      · cases h
    · cases h
  · cases h

theorem nextOp_head {s : State} {c op : Nat} {jr : JigRun} {d : List Byte} (h : nextOp s c op = some (jr, d)) : ∃ l, jr.fetched = d :: l := by
  unfold nextOp at h
  dsimp only at h
  split at h
  · split at h
    · split at h
      · rename_i h3 _
        cases h; exact ⟨_, h3⟩
      · cases h
    · cases h
  · cases h

/-- R88: a descriptor that may issue does. -/
theorem issueDesc_go {s : State} {c op : Nat} {ecc : Ecc} {jr : JigRun} {d : List Byte} (h : nextOp (eccIn s ecc) c op = some (jr, d))
    (hg : issueTest (eccIn s ecc) c jr d (planOf (eccIn s ecc) c jr d) (dtChecks jr d (planOf (eccIn s ecc) c jr d).results) = .go) :
    ∃ aux, issueDesc s c op ecc = after (takeIssue (eccIn s ecc) c jr d aux) := by
  have hn := noteLock_none (s := eccIn s ecc) (c := c) (issueTest_go hg)
  refine ⟨if op = 0x15 then b2n (!lfRestart d) else b2n (dtToMma jr d), ?_⟩
  unfold issueDesc
  dsimp only
  rw [h]
  dsimp only
  rw [hn, (nextOp_run h).1]
  dsimp only [Option.getD_some]
  rw [hg]

/-- R104: a descriptor that breaks a check at issue fails there. -/
theorem issueDesc_fail {s : State} {c op : Nat} {ecc : Ecc} {jr : JigRun} {d : List Byte} {r det : Nat} (h : nextOp (eccIn s ecc) c op = some (jr, d))
    (hi : interlocked jr d = false)
    (hg : issueTest (eccIn s ecc) c jr d (planOf (eccIn s ecc) c jr d) (dtChecks jr d (planOf (eccIn s ecc) c jr d).results) = .fail r det) :
    issueDesc s c op ecc = after (failNext (eccIn s ecc) c jr d (reasonStatus r) r det) := by
  have hn := noteLock_none (s := eccIn s ecc) (c := c) hi
  unfold issueDesc
  dsimp only
  rw [h]
  dsimp only
  rw [hn, (nextOp_run h).1]
  dsimp only [Option.getD_some]
  rw [hg]

end Sys2Proof.Machine
end

