-- ==== Sys2Proof/Laws/Locks.lean ====
section
/-!
SUPPORT. Laws/Locks.lean: the beats that a commit puts into the windows of its Locks (R334).
-/

namespace Sys2Proof.Machine

theorem commit_locks : ∀ (path : List Need) (s : State),
    let t := path.foldl (fun t n => lockPut t n.1 { lockGet t n.1 with beats := (lockGet t n.1).beats + n.2.2, headAt := t.now }) s
    { t with locks := s.locks } = s ∧ ∀ l, (lockGet t l).beats = (lockGet s l).beats + ((path.filter (fun n => n.1 == l)).map (fun n => n.2.2)).sum ∧
      (lockGet t l).dirIn = (lockGet s l).dirIn ∧ (lockGet t l).turning = (lockGet s l).turning := by
  intro path
  induction path with
  | nil => intro s; exact ⟨rfl, fun l => ⟨rfl, rfl, rfl⟩⟩
  | cons n path ih =>
    intro s
    simp only [List.foldl_cons]
    obtain ⟨u, hu⟩ : ∃ u, lockPut s n.1 { lockGet s n.1 with beats := (lockGet s n.1).beats + n.2.2, headAt := s.now } = u := ⟨_, rfl⟩
    rw [hu]
    obtain ⟨a1, a2⟩ := ih u
    have same : lockGet u n.1 = { lockGet s n.1 with beats := (lockGet s n.1).beats + n.2.2, headAt := s.now } := by
      rw [← hu]; exact tabGet_tabPut_same (d := fun _ => lockInit) _ _ _
    have other : ∀ l, l ≠ n.1 → lockGet u l = lockGet s l := by
      intro l hl; rw [← hu]; exact tabGet_tabPut_ne (d := fun _ => lockInit) _ hl _
    refine ⟨?_, fun l => ?_⟩
    · refine (congrArg (fun z : State => { z with locks := s.locks }) a1).trans ?_
      rw [← hu]; rfl
    · obtain ⟨b1, b2, b3⟩ := a2 l
      by_cases hl : n.1 = l
      · subst hl
        rw [b1, b2, b3, same]
        simp only [List.filter_cons, beq_self_eq_true, if_true, List.map_cons, List.sum_cons]
        exact ⟨by omega, trivial, trivial⟩
      · rw [b1, b2, b3, other l (fun h => hl h.symm)]
        simp [hl]

theorem lockGet_put_same (s : State) (l : Nat) (x : Lock) : lockGet (lockPut s l x) l = x := tabGet_tabPut_same (d := fun _ => lockInit) _ _ _
theorem lockGet_put_ne (s : State) {l k : Nat} (x : Lock) (h : k ≠ l) : lockGet (lockPut s l x) k = lockGet s k := tabGet_tabPut_ne (d := fun _ => lockInit) _ h _

end Sys2Proof.Machine
end

