-- ==== Sys2Proof/WellFormed.lean ====
section
/-!
DEFINITION. WellFormed.lean: which commands the world around the module can send: the operands lie in the ranges that the manual gives them.
A meaning is given for every command; an ill-formed one is only outside what the manual describes.
Log entries that code here: 8 (DESIGN CHOICE, unsafe).
-/

namespace Sys2Proof

/-- R464: a master identity: the host PF, a VF, the Keeper, a region controller, the BMC. -/
def masterOk (m : Half) : Bool :=
  m == 0#16 || m == 0xF000#16 || m == 0xF800#16 || decide ((0x1001 ≤ m.toNat ∧ m.toNat ≤ 0x1400) ∨ (0xF100 ≤ m.toNat ∧ m.toNat ≤ 0xF103))

/-- R77: an engine that dispatches jigs over the towpath. -/
def senderOk : Machine.Pusher → Bool
  | .seqr p => decide (p < 1024)
  | .tt slot => decide (slot < 4096)
  | .col p g => decide (p < 1024 ∧ g < 256)
  | .keeper => true
  | .reg _ | .cmd _ _ _ => false

/-- R350: the header fields of a packet fit their bits, and its payload its limit. -/
def packetOk (k : Machine.Pkt) : Bool :=
  decide (k.ty < 256 ∧ k.ctl < 8 ∧ k.dst < 32768 ∧ k.src < 32768 ∧ k.dpart ≤ 1024 ∧ k.spart ≤ 1024 ∧ k.key < 65536 ∧ k.tag < 4294967296 ∧
    k.addr < 18446744073709551616 ∧ k.len ≤ 4096 ∧ k.status < 256 ∧ k.level < 256 ∧ k.group < 65536 ∧ k.pay.length ≤ 4096)

/-- R476, R480: four digests of 384 bits, four revocation bits, an epoch. -/
def fusesOk (f : Fuses) : Bool :=
  decide (f.digests.length = 4 ∧ f.revoked < 16 ∧ f.epoch < 4294967296) && f.digests.all (fun d => decide (d < 2 ^ 384))

/-- An aperture access moves at least a byte. -/
def accessOk (data : Option (List Byte)) (n : Nat) : Bool := match data with
  | some b => !b.isEmpty
  | none => decide (0 < n)

/-- The ranges of a command's operands. -/
def Instr.wellFormed : Instr → Bool
  | .celJqPush m _ _ => masterOk m
  | .towpathJigDispatch _ src _ _ => senderOk src
  | .jqPushAdmit _ => true
  | .jigStart _ => true
  | .descriptorFetch _ _ => true
  | .mma _ _ => true
  | .conv _ _ => true
  | .attn _ _ => true
  | .rstep _ _ => true
  | .vprog _ _ => true
  | .sfu _ _ => true
  | .stat _ _ => true
  | .softmax _ _ => true
  | .gather _ _ => true
  | .scatter _ _ => true
  | .segred _ _ => true
  | .sort _ _ => true
  | .gsuGrant _ _ _ _ => true
  | .mitre _ _ => true
  | .barge _ _ => true
  | .fence _ _ => true
  | .fenceComplete _ => true
  | .ttwait _ _ => true
  | .ttwaitComplete _ => true
  | .rng _ _ => true
  | .crop _ _ => true
  | .stateSave _ _ => true
  | .stateLoad _ _ => true
  | .layerFence _ _ => true
  | .streamRestart _ _ => true
  | .layerFenceDrain _ => true
  | .lateWeightsTimeout _ => true
  | .streamEntryRequest _ _ => true
  | .streamEntryLanded _ => true
  | .descriptorComplete _ idx => decide (idx < 262144)
  | .waitTimeout _ => true
  | .descOverrun _ => true
  | .mcastStreamStart _ _ _ => true
  | .celResume m _ _ => masterOk m
  | .celSemWrite m _ _ _ => masterOk m
  | .celMpLoad m _ _ => masterOk m
  | .mpInstall _ => true
  | .celMpClear m _ _ => masterOk m
  | .cellParityError _ _ => true
  | .throttleLevelChange => true
  | .bargeAccept _ => true
  | .bargeUnitStart _ => true
  | .lockCommit _ _ => true
  | .lockWindowEnd l => decide (l < 1088)
  | .lockTurnaroundEnd l => decide (l < 1088)
  | .lockAging _ _ => true
  | .urgentBeat l _ => decide (l < 1088)
  | .bargeUnitLand _ dma _ _ => decide (dma.length ≤ 4096)
  | .weirCreditTick _ => true
  | .hbmRequestSelect _ => true
  | .hbmRefresh _ => true
  | .hbmLinkError _ _ => true
  | .hbmWcommit m _ => masterOk m
  | .flsWcommit m => masterOk m
  | .lnkWcommit m _ => masterOk m
  | .hbmTempReading _ _ => true
  | .hbmCoolTimer _ => true
  | .slowNoticeTimer _ => true
  | .inFlightWalk => true
  | .cacheFillComplete _ l => decide (l < 33554432)
  | .weightStripeWrite => true
  | .rollOpen _ _ => true
  | .rollClose _ _ => true
  | .join _ _ => true
  | .fork _ _ => true
  | .prune _ _ => true
  | .leave _ _ => true
  | .step _ _ => true
  | .seqSet _ _ => true
  | .holdLimitExpiry _ => true
  | .stepCompletion _ => true
  | .noticeWrite _ => true
  | .fabRead _ _ => true
  | .fabWrite _ _ _ => true
  | .readReq _ _ => true
  | .writeReq _ => true
  | .readRsp _ => true
  | .writeAck _ => true
  | .fabDeadline slot => decide (slot < 65536)
  | .egressFrameSelect _ => true
  | .linkFrameReceive _ lseq ack _ k ret => decide (lseq < 256 ∧ ack < 256 ∧ ret.length ≤ 4) && k.all packetOk
  | .linkNak _ lseq => decide (lseq < 256)
  | .linkReplayTimeout _ => true
  | .linkRecoveryBudget _ => true
  | .laneFault _ => true
  | .linkRetrainTimer _ => true
  | .lnkRetrain m _ _ => masterOk m
  | .train _ _ _ node grp major lo hi => decide (node < 32768 ∧ grp < 256 ∧ major < 65536 ∧ lo < 65536 ∧ hi < 65536)
  | .delayProbeTimer _ => true
  | .delayProbe _ => true
  | .delayEcho _ => true
  | .slow _ => true
  | .abort _ => true
  | .colAbort _ => true
  | .time _ => true
  | .timeSend => true
  | .colOpen _ _ _ => true
  | .colRun _ _ => true
  | .colRunStart _ _ _ => true
  | .colData _ _ => true
  | .colPieceTimeout _ _ => true
  | .colClose _ _ => true
  | .colReclaim _ _ => true
  | .vidOpen _ _ _ => true
  | .vidClose _ _ => true
  | .vidDecode _ _ => true
  | .vidEncode _ _ => true
  | .streamMark _ _ _ => true
  | .videoEngineRound _ _ => true
  | .decodeUnitDone _ _ _ _ => true
  | .frameWriteStart _ _ _ _ => true
  | .encodeChunkWrite _ _ _ => true
  | .ttArm _ _ => true
  | .ttDisarm _ _ => true
  | .ttEntryFire => true
  | .alnOpen _ _ _ => true
  | .alnClose _ _ => true
  | .alignDeadline _ => true
  | .tokLoad _ _ _ => true
  | .tokenize _ _ _ => true
  | .sclSet m _ => masterOk m
  | .timerefPpsEdge => true
  | .sclSourceLost _ => true
  | .sclLocked => true
  | .prtCreate m => masterOk m
  | .prtDestroy m => masterOk m
  | .prtReset m => masterOk m
  | .vfFlr _ => true
  | .partitionReset _ data => data.all (fun e => decide (e.1 < 16 ∧ e.2.length % 64 = 0))
  | .partitionResetDone _ => true
  | .dblSqTail _ _ _ => true
  | .dblCqHead _ _ _ => true
  | .partSqCtrlEnable _ _ _ data => decide (data.length % 64 = 0)
  | .partCqCtrlEnable _ _ _ => true
  | .sqFetch data fault => decide (data.length % 64 = 0) && fault.all (fun i => decide (i < 128))
  | .cqCompletionWrite _ _ fails => decide (fails ≤ 2)
  | .cqIrqTimer _ _ => true
  | .nop _ _ => true
  | .copy _ _ => true
  | .zero _ _ => true
  | .jigPush _ _ => true
  | .cancel _ _ => true
  | .pfBar2Access _ data n _ => accessOk data n
  | .vfBar2Access _ _ data n _ => accessOk data n
  | .registerWrite m _ _ _ _ => masterOk m
  | .reg64LowRead m _ _ _ => masterOk m
  | .evtClr m _ _ => masterOk m
  | .evtForce m _ _ => masterOk m
  | .mbxClaim m _ _ => masterOk m
  | .mbxGo m _ => masterOk m
  | .mbxDone m _ => masterOk m
  | .mbxRelease m _ => masterOk m
  | .mbxPush m _ _ => masterOk m
  | .mbxPop m _ => masterOk m
  | .mbxBind m _ _ => masterOk m
  | .dblLock m => masterOk m
  | .domainPowerOff id => masterOk id
  | .perstNDeassert _ => true
  | .perstNAssert => true
  | .bootSequence f d2dBad modules hbmBad => fusesOk f && decide (d2dBad < 65536 ∧ hbmBad < 256) && modules.all (fun n => decide (n ≤ 16))
  | .chipWarmReset => true
  | .verRequest m _ => masterOk m
  | .cfgRecWrite m _ _ => masterOk m
  | .cfgCommit m => masterOk m
  | .cfgStart m => masterOk m
  | .cfgClear m => masterOk m
  | .cfgAccept m _ => masterOk m
  | .acceptComplete => true
  | .imgLoad m => masterOk m
  | .imgLoadStore m => masterOk m
  | .statusBlockWrite _ => true
  | .powerSample _ _ => true
  | .bankSwitchOpen => true
  | .dipRecover => true
  | .surgeTimer => true
  | .holdupEnergyTick => true
  | .bankCapMeasure => true
  | .journalWriteCheck => true
  | .pwrJcmdAppend m _ => masterOk m
  | .dieThermalReading _ _ _ => true
  | .dieCoolTimer _ => true
  | .pwrGate m _ => masterOk m
  | .routerFault _ => true
  | .rcFault _ _ => true
  | .d2dReplayLimit _ _ => true
  | .unitFaultReport => true
  | .cellReset _ => true
  | .blockReset _ => true
  | .regionReset _ => true
  | .errReset m _ => masterOk m
  | .forceFatal m => masterOk m
  | .keeperWatchdog => true
  | .hubUe lost => lost.all (fun x => decide (x.1 < 1024 ∧ x.2.1 < 16 ∧ x.2.2 < 65536))
  | .fatalPath => true
  | .crashDumpWrite => true
  | .dumpJournalCopy => true
  | .kprHeartbeat => true
  | .i3cDynamicAddress _ _ => true
  | .i3cPrivateWrite _ => true
  | .i3cPrivateRead => true
  | .jtagInstruction _ => true
  | .jtagReset => true
  | .p54vConnect => true
  | .p54vInRange100ms => true
  | .p54vLoss => true
  | .pcieLinkUp => true

/-- The master identity that a command carries. -/
def Instr.master : Instr → Option Half
  | .celJqPush m _ _ => some m
  | .towpathJigDispatch _ _ _ _ => none
  | .jqPushAdmit _ => none
  | .jigStart _ => none
  | .descriptorFetch _ _ => none
  | .mma _ _ => none
  | .conv _ _ => none
  | .attn _ _ => none
  | .rstep _ _ => none
  | .vprog _ _ => none
  | .sfu _ _ => none
  | .stat _ _ => none
  | .softmax _ _ => none
  | .gather _ _ => none
  | .scatter _ _ => none
  | .segred _ _ => none
  | .sort _ _ => none
  | .gsuGrant _ _ _ _ => none
  | .mitre _ _ => none
  | .barge _ _ => none
  | .fence _ _ => none
  | .fenceComplete _ => none
  | .ttwait _ _ => none
  | .ttwaitComplete _ => none
  | .rng _ _ => none
  | .crop _ _ => none
  | .stateSave _ _ => none
  | .stateLoad _ _ => none
  | .layerFence _ _ => none
  | .streamRestart _ _ => none
  | .layerFenceDrain _ => none
  | .lateWeightsTimeout _ => none
  | .streamEntryRequest _ _ => none
  | .streamEntryLanded _ => none
  | .descriptorComplete _ _ => none
  | .waitTimeout _ => none
  | .descOverrun _ => none
  | .mcastStreamStart _ _ _ => none
  | .celResume m _ _ => some m
  | .celSemWrite m _ _ _ => some m
  | .celMpLoad m _ _ => some m
  | .mpInstall _ => none
  | .celMpClear m _ _ => some m
  | .cellParityError _ _ => none
  | .throttleLevelChange => none
  | .bargeAccept _ => none
  | .bargeUnitStart _ => none
  | .lockCommit _ _ => none
  | .lockWindowEnd _ => none
  | .lockTurnaroundEnd _ => none
  | .lockAging _ _ => none
  | .urgentBeat _ _ => none
  | .bargeUnitLand _ _ _ _ => none
  | .weirCreditTick _ => none
  | .hbmRequestSelect _ => none
  | .hbmRefresh _ => none
  | .hbmLinkError _ _ => none
  | .hbmWcommit m _ => some m
  | .flsWcommit m => some m
  | .lnkWcommit m _ => some m
  | .hbmTempReading _ _ => none
  | .hbmCoolTimer _ => none
  | .slowNoticeTimer _ => none
  | .inFlightWalk => none
  | .cacheFillComplete _ _ => none
  | .weightStripeWrite => none
  | .rollOpen _ _ => none
  | .rollClose _ _ => none
  | .join _ _ => none
  | .fork _ _ => none
  | .prune _ _ => none
  | .leave _ _ => none
  | .step _ _ => none
  | .seqSet _ _ => none
  | .holdLimitExpiry _ => none
  | .stepCompletion _ => none
  | .noticeWrite _ => none
  | .fabRead _ _ => none
  | .fabWrite _ _ _ => none
  | .readReq _ _ => none
  | .writeReq _ => none
  | .readRsp _ => none
  | .writeAck _ => none
  | .fabDeadline _ => none
  | .egressFrameSelect _ => none
  | .linkFrameReceive _ _ _ _ _ _ => none
  | .linkNak _ _ => none
  | .linkReplayTimeout _ => none
  | .linkRecoveryBudget _ => none
  | .laneFault _ => none
  | .linkRetrainTimer _ => none
  | .lnkRetrain m _ _ => some m
  | .train _ _ _ _ _ _ _ _ => none
  | .delayProbeTimer _ => none
  | .delayProbe _ => none
  | .delayEcho _ => none
  | .slow _ => none
  | .abort _ => none
  | .colAbort _ => none
  | .time _ => none
  | .timeSend => none
  | .colOpen _ _ _ => none
  | .colRun _ _ => none
  | .colRunStart _ _ _ => none
  | .colData _ _ => none
  | .colPieceTimeout _ _ => none
  | .colClose _ _ => none
  | .colReclaim _ _ => none
  | .vidOpen _ _ _ => none
  | .vidClose _ _ => none
  | .vidDecode _ _ => none
  | .vidEncode _ _ => none
  | .streamMark _ _ _ => none
  | .videoEngineRound _ _ => none
  | .decodeUnitDone _ _ _ _ => none
  | .frameWriteStart _ _ _ _ => none
  | .encodeChunkWrite _ _ _ => none
  | .ttArm _ _ => none
  | .ttDisarm _ _ => none
  | .ttEntryFire => none
  | .alnOpen _ _ _ => none
  | .alnClose _ _ => none
  | .alignDeadline _ => none
  | .tokLoad _ _ _ => none
  | .tokenize _ _ _ => none
  | .sclSet m _ => some m
  | .timerefPpsEdge => none
  | .sclSourceLost _ => none
  | .sclLocked => none
  | .prtCreate m => some m
  | .prtDestroy m => some m
  | .prtReset m => some m
  | .vfFlr _ => none
  | .partitionReset _ _ => none
  | .partitionResetDone _ => none
  | .dblSqTail _ _ _ => none
  | .dblCqHead _ _ _ => none
  | .partSqCtrlEnable _ _ _ _ => none
  | .partCqCtrlEnable _ _ _ => none
  | .sqFetch _ _ => none
  | .cqCompletionWrite _ _ _ => none
  | .cqIrqTimer _ _ => none
  | .nop _ _ => none
  | .copy _ _ => none
  | .zero _ _ => none
  | .jigPush _ _ => none
  | .cancel _ _ => none
  | .pfBar2Access _ _ _ _ => none
  | .vfBar2Access _ _ _ _ _ => none
  | .registerWrite m _ _ _ _ => some m
  | .reg64LowRead m _ _ _ => some m
  | .evtClr m _ _ => some m
  | .evtForce m _ _ => some m
  | .mbxClaim m _ _ => some m
  | .mbxGo m _ => some m
  | .mbxDone m _ => some m
  | .mbxRelease m _ => some m
  | .mbxPush m _ _ => some m
  | .mbxPop m _ => some m
  | .mbxBind m _ _ => some m
  | .dblLock m => some m
  | .domainPowerOff _ => none
  | .perstNDeassert _ => none
  | .perstNAssert => none
  | .bootSequence _ _ _ _ => none
  | .chipWarmReset => none
  | .verRequest m _ => some m
  | .cfgRecWrite m _ _ => some m
  | .cfgCommit m => some m
  | .cfgStart m => some m
  | .cfgClear m => some m
  | .cfgAccept m _ => some m
  | .acceptComplete => none
  | .imgLoad m => some m
  | .imgLoadStore m => some m
  | .statusBlockWrite _ => none
  | .powerSample _ _ => none
  | .bankSwitchOpen => none
  | .dipRecover => none
  | .surgeTimer => none
  | .holdupEnergyTick => none
  | .bankCapMeasure => none
  | .journalWriteCheck => none
  | .pwrJcmdAppend m _ => some m
  | .dieThermalReading _ _ _ => none
  | .dieCoolTimer _ => none
  | .pwrGate m _ => some m
  | .routerFault _ => none
  | .rcFault _ _ => none
  | .d2dReplayLimit _ _ => none
  | .unitFaultReport => none
  | .cellReset _ => none
  | .blockReset _ => none
  | .regionReset _ => none
  | .errReset m _ => some m
  | .forceFatal m => some m
  | .keeperWatchdog => none
  | .hubUe _ => none
  | .fatalPath => none
  | .crashDumpWrite => none
  | .dumpJournalCopy => none
  | .kprHeartbeat => none
  | .i3cDynamicAddress _ _ => none
  | .i3cPrivateWrite _ => none
  | .i3cPrivateRead => none
  | .jtagInstruction _ => none
  | .jtagReset => none
  | .p54vConnect => none
  | .p54vInRange100ms => none
  | .p54vLoss => none
  | .pcieLinkUp => none

end Sys2Proof
end

