-- ==== Sys2Proof/Laws/PerInstr.lean ====
section
/-!
SUPPORT. Laws/PerInstr.lean: a statement about every command as syntax: the master that a well-formed command carries is
one of the identities of R464. One lemma per constructor.
-/

namespace Sys2Proof.Laws.Masters

/-- R464: the master that a well-formed command carries is a master identity. -/
def Statement (i : Instr) : Prop := i.wellFormed = true → ∀ m, i.master = some m → masterOk m = true

theorem celJqPush (m : Half) (c : Fin 1024) (v : Word) : Statement (.celJqPush m c v) := fun h _ e => Option.some.inj e ▸ h
theorem towpathJigDispatch (c : Fin 1024) (src : Machine.Pusher) (start : BitVec 24) (id : Half) : Statement (.towpathJigDispatch c src start id) := fun _ _ e => nomatch e
theorem jqPushAdmit (c : Fin 1024) : Statement (.jqPushAdmit c) := fun _ _ e => nomatch e
theorem jigStart (c : Fin 1024) : Statement (.jigStart c) := fun _ _ e => nomatch e
theorem descriptorFetch (c : Fin 1024) (ecc : Ecc) : Statement (.descriptorFetch c ecc) := fun _ _ e => nomatch e
theorem mma (c : Fin 1024) (ecc : Ecc) : Statement (.mma c ecc) := fun _ _ e => nomatch e
theorem conv (c : Fin 1024) (ecc : Ecc) : Statement (.conv c ecc) := fun _ _ e => nomatch e
theorem attn (c : Fin 1024) (ecc : Ecc) : Statement (.attn c ecc) := fun _ _ e => nomatch e
theorem rstep (c : Fin 1024) (ecc : Ecc) : Statement (.rstep c ecc) := fun _ _ e => nomatch e
theorem vprog (c : Fin 1024) (ecc : Ecc) : Statement (.vprog c ecc) := fun _ _ e => nomatch e
theorem sfu (c : Fin 1024) (ecc : Ecc) : Statement (.sfu c ecc) := fun _ _ e => nomatch e
theorem stat (c : Fin 1024) (ecc : Ecc) : Statement (.stat c ecc) := fun _ _ e => nomatch e
theorem softmax (c : Fin 1024) (ecc : Ecc) : Statement (.softmax c ecc) := fun _ _ e => nomatch e
theorem gather (c : Fin 1024) (ecc : Ecc) : Statement (.gather c ecc) := fun _ _ e => nomatch e
theorem scatter (c : Fin 1024) (ecc : Ecc) : Statement (.scatter c ecc) := fun _ _ e => nomatch e
theorem segred (c : Fin 1024) (ecc : Ecc) : Statement (.segred c ecc) := fun _ _ e => nomatch e
theorem sort (c : Fin 1024) (ecc : Ecc) : Statement (.sort c ecc) := fun _ _ e => nomatch e
theorem gsuGrant (b : Fin 64) (ce : Bool) (ue : Bool) (ecc : Ecc) : Statement (.gsuGrant b ce ue ecc) := fun _ _ e => nomatch e
theorem mitre (c : Fin 1024) (ecc : Ecc) : Statement (.mitre c ecc) := fun _ _ e => nomatch e
theorem barge (c : Fin 1024) (ecc : Ecc) : Statement (.barge c ecc) := fun _ _ e => nomatch e
theorem fence (c : Fin 1024) (ecc : Ecc) : Statement (.fence c ecc) := fun _ _ e => nomatch e
theorem fenceComplete (c : Fin 1024) : Statement (.fenceComplete c) := fun _ _ e => nomatch e
theorem ttwait (c : Fin 1024) (ecc : Ecc) : Statement (.ttwait c ecc) := fun _ _ e => nomatch e
theorem ttwaitComplete (c : Fin 1024) : Statement (.ttwaitComplete c) := fun _ _ e => nomatch e
theorem rng (c : Fin 1024) (ecc : Ecc) : Statement (.rng c ecc) := fun _ _ e => nomatch e
theorem crop (c : Fin 1024) (ecc : Ecc) : Statement (.crop c ecc) := fun _ _ e => nomatch e
theorem stateSave (c : Fin 1024) (ecc : Ecc) : Statement (.stateSave c ecc) := fun _ _ e => nomatch e
theorem stateLoad (c : Fin 1024) (ecc : Ecc) : Statement (.stateLoad c ecc) := fun _ _ e => nomatch e
theorem layerFence (c : Fin 1024) (ecc : Ecc) : Statement (.layerFence c ecc) := fun _ _ e => nomatch e
theorem streamRestart (c : Fin 1024) (ecc : Ecc) : Statement (.streamRestart c ecc) := fun _ _ e => nomatch e
theorem layerFenceDrain (c : Fin 1024) : Statement (.layerFenceDrain c) := fun _ _ e => nomatch e
theorem lateWeightsTimeout (c : Fin 1024) : Statement (.lateWeightsTimeout c) := fun _ _ e => nomatch e
theorem streamEntryRequest (c : Fin 1024) (ecc : Ecc) : Statement (.streamEntryRequest c ecc) := fun _ _ e => nomatch e
theorem streamEntryLanded (c : Fin 1024) : Statement (.streamEntryLanded c) := fun _ _ e => nomatch e
theorem descriptorComplete (c : Fin 1024) (idx : Nat) : Statement (.descriptorComplete c idx) := fun _ _ e => nomatch e
theorem waitTimeout (c : Fin 1024) : Statement (.waitTimeout c) := fun _ _ e => nomatch e
theorem descOverrun (c : Fin 1024) : Statement (.descOverrun c) := fun _ _ e => nomatch e
theorem mcastStreamStart (b : Fin 64) (k : Fin 8) (ecc : Ecc) : Statement (.mcastStreamStart b k ecc) := fun _ _ e => nomatch e
theorem celResume (m : Half) (c : Fin 1024) (v : Word) : Statement (.celResume m c v) := fun h _ e => Option.some.inj e ▸ h
theorem celSemWrite (m : Half) (c : Fin 1024) (n : Fin 64) (v : Word) : Statement (.celSemWrite m c n v) := fun h _ e => Option.some.inj e ▸ h
theorem celMpLoad (m : Half) (c : Fin 1024) (v : Word) : Statement (.celMpLoad m c v) := fun h _ e => Option.some.inj e ▸ h
theorem mpInstall (c : Fin 1024) : Statement (.mpInstall c) := fun _ _ e => nomatch e
theorem celMpClear (m : Half) (c : Fin 1024) (v : Word) : Statement (.celMpClear m c v) := fun h _ e => Option.some.inj e ▸ h
theorem cellParityError (c : Fin 1024) (lane : Bool) : Statement (.cellParityError c lane) := fun _ _ e => nomatch e
theorem throttleLevelChange : Statement .throttleLevelChange := fun _ _ e => nomatch e
theorem bargeAccept (e : Fin 32) : Statement (.bargeAccept e) := fun _ _ e => nomatch e
theorem bargeUnitStart (e : Fin 32) : Statement (.bargeUnitStart e) := fun _ _ e => nomatch e
theorem lockCommit (bid : Nat) (u : Nat) : Statement (.lockCommit bid u) := fun _ _ e => nomatch e
theorem lockWindowEnd (l : Nat) : Statement (.lockWindowEnd l) := fun _ _ e => nomatch e
theorem lockTurnaroundEnd (l : Nat) : Statement (.lockTurnaroundEnd l) := fun _ _ e => nomatch e
theorem lockAging (bid : Nat) (u : Nat) : Statement (.lockAging bid u) := fun _ _ e => nomatch e
theorem urgentBeat (l : Nat) (inward : Bool) : Statement (.urgentBeat l inward) := fun _ _ e => nomatch e
theorem bargeUnitLand (bid : Nat) (dma : List Byte) (fail : Bool) (ecc : Ecc) : Statement (.bargeUnitLand bid dma fail ecc) := fun _ _ e => nomatch e
theorem weirCreditTick (n : Nat) : Statement (.weirCreditTick n) := fun _ _ e => nomatch e
theorem hbmRequestSelect (st : Fin 8) : Statement (.hbmRequestSelect st) := fun _ _ e => nomatch e
theorem hbmRefresh (st : Fin 8) : Statement (.hbmRefresh st) := fun _ _ e => nomatch e
theorem hbmLinkError (st : Fin 8) (cleared : Bool) : Statement (.hbmLinkError st cleared) := fun _ _ e => nomatch e
theorem hbmWcommit (m : Half) (st : Fin 8) : Statement (.hbmWcommit m st) := fun h _ e => Option.some.inj e ▸ h
theorem flsWcommit (m : Half) : Statement (.flsWcommit m) := fun h _ e => Option.some.inj e ▸ h
theorem lnkWcommit (m : Half) (g : Fin 16) : Statement (.lnkWcommit m g) := fun h _ e => Option.some.inj e ▸ h
theorem hbmTempReading (st : Fin 8) (temp : Byte) : Statement (.hbmTempReading st temp) := fun _ _ e => nomatch e
theorem hbmCoolTimer (st : Fin 8) : Statement (.hbmCoolTimer st) := fun _ _ e => nomatch e
theorem slowNoticeTimer (st : Fin 8) : Statement (.slowNoticeTimer st) := fun _ _ e => nomatch e
theorem inFlightWalk : Statement .inFlightWalk := fun _ _ e => nomatch e
theorem cacheFillComplete (h : Fin 1024) (l : Nat) : Statement (.cacheFillComplete h l) := fun _ _ e => nomatch e
theorem weightStripeWrite : Statement .weightStripeWrite := fun _ _ e => nomatch e
theorem rollOpen (p : Fin 1024) (ecc : Ecc) : Statement (.rollOpen p ecc) := fun _ _ e => nomatch e
theorem rollClose (p : Fin 1024) (ecc : Ecc) : Statement (.rollClose p ecc) := fun _ _ e => nomatch e
theorem join (p : Fin 1024) (ecc : Ecc) : Statement (.join p ecc) := fun _ _ e => nomatch e
theorem fork (p : Fin 1024) (ecc : Ecc) : Statement (.fork p ecc) := fun _ _ e => nomatch e
theorem prune (p : Fin 1024) (ecc : Ecc) : Statement (.prune p ecc) := fun _ _ e => nomatch e
theorem leave (p : Fin 1024) (ecc : Ecc) : Statement (.leave p ecc) := fun _ _ e => nomatch e
theorem step (p : Fin 1024) (ecc : Ecc) : Statement (.step p ecc) := fun _ _ e => nomatch e
theorem seqSet (p : Fin 1024) (ecc : Ecc) : Statement (.seqSet p ecc) := fun _ _ e => nomatch e
theorem holdLimitExpiry (p : Fin 1024) : Statement (.holdLimitExpiry p) := fun _ _ e => nomatch e
theorem stepCompletion (p : Fin 1024) : Statement (.stepCompletion p) := fun _ _ e => nomatch e
theorem noticeWrite (p : Fin 1024) : Statement (.noticeWrite p) := fun _ _ e => nomatch e
theorem fabRead (p : Fin 1024) (q : Fin 16) : Statement (.fabRead p q) := fun _ _ e => nomatch e
theorem fabWrite (p : Fin 1024) (q : Fin 16) (ecc : Ecc) : Statement (.fabWrite p q ecc) := fun _ _ e => nomatch e
theorem readReq (g : Fin 16) (ecc : Ecc) : Statement (.readReq g ecc) := fun _ _ e => nomatch e
theorem writeReq (g : Fin 16) : Statement (.writeReq g) := fun _ _ e => nomatch e
theorem readRsp (g : Fin 16) : Statement (.readRsp g) := fun _ _ e => nomatch e
theorem writeAck (g : Fin 16) : Statement (.writeAck g) := fun _ _ e => nomatch e
theorem fabDeadline (slot : Nat) : Statement (.fabDeadline slot) := fun _ _ e => nomatch e
theorem egressFrameSelect (g : Fin 16) : Statement (.egressFrameSelect g) := fun _ _ e => nomatch e
theorem linkFrameReceive (g : Fin 16) (lseq : Nat) (ack : Nat) (good : Bool) (k : Option Machine.Pkt) (ret : List Nat) : Statement (.linkFrameReceive g lseq ack good k ret) := fun _ _ e => nomatch e
theorem linkNak (g : Fin 16) (lseq : Nat) : Statement (.linkNak g lseq) := fun _ _ e => nomatch e
theorem linkReplayTimeout (g : Fin 16) : Statement (.linkReplayTimeout g) := fun _ _ e => nomatch e
theorem linkRecoveryBudget (g : Fin 16) : Statement (.linkRecoveryBudget g) := fun _ _ e => nomatch e
theorem laneFault (g : Fin 16) : Statement (.laneFault g) := fun _ _ e => nomatch e
theorem linkRetrainTimer (g : Fin 16) : Statement (.linkRetrainTimer g) := fun _ _ e => nomatch e
theorem lnkRetrain (m : Half) (g : Fin 16) (v : Word) : Statement (.lnkRetrain m g v) := fun h _ e => Option.some.inj e ▸ h
theorem train (g : Fin 16) (signal : Bool) (fec : Bool) (node : Nat) (grp : Nat) (major : Nat) (lo : Nat) (hi : Nat) : Statement (.train g signal fec node grp major lo hi) := fun _ _ e => nomatch e
theorem delayProbeTimer (g : Fin 16) : Statement (.delayProbeTimer g) := fun _ _ e => nomatch e
theorem delayProbe (g : Fin 16) : Statement (.delayProbe g) := fun _ _ e => nomatch e
theorem delayEcho (g : Fin 16) : Statement (.delayEcho g) := fun _ _ e => nomatch e
theorem slow (g : Fin 16) : Statement (.slow g) := fun _ _ e => nomatch e
theorem abort (g : Fin 16) : Statement (.abort g) := fun _ _ e => nomatch e
theorem colAbort (g : Fin 16) : Statement (.colAbort g) := fun _ _ e => nomatch e
theorem time (g : Fin 16) : Statement (.time g) := fun _ _ e => nomatch e
theorem timeSend : Statement .timeSend := fun _ _ e => nomatch e
theorem colOpen (p : Fin 1024) (q : Fin 16) (ecc : Ecc) : Statement (.colOpen p q ecc) := fun _ _ e => nomatch e
theorem colRun (p : Fin 1024) (q : Fin 16) : Statement (.colRun p q) := fun _ _ e => nomatch e
theorem colRunStart (p : Fin 1024) (grp : Nat) (ecc : Ecc) : Statement (.colRunStart p grp ecc) := fun _ _ e => nomatch e
theorem colData (g : Fin 16) (ecc : Ecc) : Statement (.colData g ecc) := fun _ _ e => nomatch e
theorem colPieceTimeout (p : Fin 1024) (grp : Nat) : Statement (.colPieceTimeout p grp) := fun _ _ e => nomatch e
theorem colClose (p : Fin 1024) (q : Fin 16) : Statement (.colClose p q) := fun _ _ e => nomatch e
theorem colReclaim (p : Fin 1024) (q : Fin 16) : Statement (.colReclaim p q) := fun _ _ e => nomatch e
theorem vidOpen (p : Fin 1024) (q : Fin 16) (ecc : Ecc) : Statement (.vidOpen p q ecc) := fun _ _ e => nomatch e
theorem vidClose (p : Fin 1024) (q : Fin 16) : Statement (.vidClose p q) := fun _ _ e => nomatch e
theorem vidDecode (p : Fin 1024) (q : Fin 16) : Statement (.vidDecode p q) := fun _ _ e => nomatch e
theorem vidEncode (p : Fin 1024) (q : Fin 16) : Statement (.vidEncode p q) := fun _ _ e => nomatch e
theorem streamMark (p : Fin 1024) (q : Fin 16) (ecc : Ecc) : Statement (.streamMark p q ecc) := fun _ _ e => nomatch e
theorem videoEngineRound (r : Fin 4) (prog : List (Nat × Nat × Nat)) : Statement (.videoEngineRound r prog) := fun _ _ e => nomatch e
theorem decodeUnitDone (n : Nat) (verdict : Fin 3) (keep : Bool) (ref : Option (List Byte)) : Statement (.decodeUnitDone n verdict keep ref) := fun _ _ e => nomatch e
theorem frameWriteStart (n : Nat) (pic : Nat) (intra : Bool) (img : Option (List Byte)) : Statement (.frameWriteStart n pic intra img) := fun _ _ e => nomatch e
theorem encodeChunkWrite (n : Nat) (payload : List Byte) (last : Bool) : Statement (.encodeChunkWrite n payload last) := fun _ _ e => nomatch e
theorem ttArm (p : Fin 1024) (q : Fin 16) : Statement (.ttArm p q) := fun _ _ e => nomatch e
theorem ttDisarm (p : Fin 1024) (q : Fin 16) : Statement (.ttDisarm p q) := fun _ _ e => nomatch e
theorem ttEntryFire : Statement .ttEntryFire := fun _ _ e => nomatch e
theorem alnOpen (p : Fin 1024) (q : Fin 16) (ecc : Ecc) : Statement (.alnOpen p q ecc) := fun _ _ e => nomatch e
theorem alnClose (p : Fin 1024) (q : Fin 16) : Statement (.alnClose p q) := fun _ _ e => nomatch e
theorem alignDeadline (id : Nat) : Statement (.alignDeadline id) := fun _ _ e => nomatch e
theorem tokLoad (p : Fin 1024) (q : Fin 16) (ecc : Ecc) : Statement (.tokLoad p q ecc) := fun _ _ e => nomatch e
theorem tokenize (p : Fin 1024) (q : Fin 16) (ecc : Ecc) : Statement (.tokenize p q ecc) := fun _ _ e => nomatch e
theorem sclSet (m : Half) (v : Word) : Statement (.sclSet m v) := fun h _ e => Option.some.inj e ▸ h
theorem timerefPpsEdge : Statement .timerefPpsEdge := fun _ _ e => nomatch e
theorem sclSourceLost (ref10 : Bool) : Statement (.sclSourceLost ref10) := fun _ _ e => nomatch e
theorem sclLocked : Statement .sclLocked := fun _ _ e => nomatch e
theorem prtCreate (m : Half) : Statement (.prtCreate m) := fun h _ e => Option.some.inj e ▸ h
theorem prtDestroy (m : Half) : Statement (.prtDestroy m) := fun h _ e => Option.some.inj e ▸ h
theorem prtReset (m : Half) : Statement (.prtReset m) := fun h _ e => Option.some.inj e ▸ h
theorem vfFlr (p : Fin 1024) : Statement (.vfFlr p) := fun _ _ e => nomatch e
theorem partitionReset (p : Fin 1024) (data : List (Nat × List Byte)) : Statement (.partitionReset p data) := fun _ _ e => nomatch e
theorem partitionResetDone (p : Fin 1024) : Statement (.partitionResetDone p) := fun _ _ e => nomatch e
theorem dblSqTail (p : Fin 1024) (q : Fin 16) (v : Word) : Statement (.dblSqTail p q v) := fun _ _ e => nomatch e
theorem dblCqHead (p : Fin 1024) (q : Fin 16) (v : Word) : Statement (.dblCqHead p q v) := fun _ _ e => nomatch e
theorem partSqCtrlEnable (p : Fin 1024) (q : Fin 16) (v : Word) (data : List Byte) : Statement (.partSqCtrlEnable p q v data) := fun _ _ e => nomatch e
theorem partCqCtrlEnable (p : Fin 1024) (q : Fin 16) (v : Word) : Statement (.partCqCtrlEnable p q v) := fun _ _ e => nomatch e
theorem sqFetch (data : List Byte) (fault : Option Nat) : Statement (.sqFetch data fault) := fun _ _ e => nomatch e
theorem cqCompletionWrite (p : Fin 1024) (q : Fin 16) (fails : Nat) : Statement (.cqCompletionWrite p q fails) := fun _ _ e => nomatch e
theorem cqIrqTimer (p : Fin 1024) (q : Fin 16) : Statement (.cqIrqTimer p q) := fun _ _ e => nomatch e
theorem nop (p : Fin 1024) (q : Fin 16) : Statement (.nop p q) := fun _ _ e => nomatch e
theorem copy (p : Fin 1024) (q : Fin 16) : Statement (.copy p q) := fun _ _ e => nomatch e
theorem zero (p : Fin 1024) (q : Fin 16) : Statement (.zero p q) := fun _ _ e => nomatch e
theorem jigPush (p : Fin 1024) (q : Fin 16) : Statement (.jigPush p q) := fun _ _ e => nomatch e
theorem cancel (p : Fin 1024) (q : Fin 16) : Statement (.cancel p q) := fun _ _ e => nomatch e
theorem pfBar2Access (off : BitVec 36) (data : Option (List Byte)) (n : Nat) (ecc : Ecc) : Statement (.pfBar2Access off data n ecc) := fun _ _ e => nomatch e
theorem vfBar2Access (p : Fin 1024) (off : BitVec 32) (data : Option (List Byte)) (n : Nat) (ecc : Ecc) : Statement (.vfBar2Access p off data n ecc) := fun _ _ e => nomatch e
theorem registerWrite (m : Half) (a : BitVec 30) (v : Word) (be : BitVec 4) (whole : Bool) : Statement (.registerWrite m a v be whole) := fun h _ e => Option.some.inj e ▸ h
theorem reg64LowRead (m : Half) (a : BitVec 30) (be : BitVec 4) (whole : Bool) : Statement (.reg64LowRead m a be whole) := fun h _ e => Option.some.inj e ▸ h
theorem evtClr (m : Half) (a : BitVec 30) (v : Word) : Statement (.evtClr m a v) := fun h _ e => Option.some.inj e ▸ h
theorem evtForce (m : Half) (a : BitVec 30) (v : Word) : Statement (.evtForce m a v) := fun h _ e => Option.some.inj e ▸ h
theorem mbxClaim (m : Half) (c : Fin 64) (both : Bool) : Statement (.mbxClaim m c both) := fun h _ e => Option.some.inj e ▸ h
theorem mbxGo (m : Half) (c : Fin 64) : Statement (.mbxGo m c) := fun h _ e => Option.some.inj e ▸ h
theorem mbxDone (m : Half) (c : Fin 64) : Statement (.mbxDone m c) := fun h _ e => Option.some.inj e ▸ h
theorem mbxRelease (m : Half) (c : Fin 64) : Statement (.mbxRelease m c) := fun h _ e => Option.some.inj e ▸ h
theorem mbxPush (m : Half) (c : Fin 64) (v : Word) : Statement (.mbxPush m c v) := fun h _ e => Option.some.inj e ▸ h
theorem mbxPop (m : Half) (c : Fin 64) : Statement (.mbxPop m c) := fun h _ e => Option.some.inj e ▸ h
theorem mbxBind (m : Half) (c : Fin 64) (v : Word) : Statement (.mbxBind m c v) := fun h _ e => Option.some.inj e ▸ h
theorem dblLock (m : Half) : Statement (.dblLock m) := fun h _ e => Option.some.inj e ▸ h
theorem domainPowerOff (id : Half) : Statement (.domainPowerOff id) := fun _ _ e => nomatch e
theorem perstNDeassert (slot : Byte) : Statement (.perstNDeassert slot) := fun _ _ e => nomatch e
theorem perstNAssert : Statement .perstNAssert := fun _ _ e => nomatch e
theorem bootSequence (f : Fuses) (d2dBad : Nat) (modules : List Nat) (hbmBad : Nat) : Statement (.bootSequence f d2dBad modules hbmBad) := fun _ _ e => nomatch e
theorem chipWarmReset : Statement .chipWarmReset := fun _ _ e => nomatch e
theorem verRequest (m : Half) (v : Word) : Statement (.verRequest m v) := fun h _ e => Option.some.inj e ▸ h
theorem cfgRecWrite (m : Half) (w : Fin 256) (v : Word) : Statement (.cfgRecWrite m w v) := fun h _ e => Option.some.inj e ▸ h
theorem cfgCommit (m : Half) : Statement (.cfgCommit m) := fun h _ e => Option.some.inj e ▸ h
theorem cfgStart (m : Half) : Statement (.cfgStart m) := fun h _ e => Option.some.inj e ▸ h
theorem cfgClear (m : Half) : Statement (.cfgClear m) := fun h _ e => Option.some.inj e ▸ h
theorem cfgAccept (m : Half) (v : Word) : Statement (.cfgAccept m v) := fun h _ e => Option.some.inj e ▸ h
theorem acceptComplete : Statement .acceptComplete := fun _ _ e => nomatch e
theorem imgLoad (m : Half) : Statement (.imgLoad m) := fun h _ e => Option.some.inj e ▸ h
theorem imgLoadStore (m : Half) : Statement (.imgLoadStore m) := fun h _ e => Option.some.inj e ▸ h
theorem statusBlockWrite (bme : Bool) : Statement (.statusBlockWrite bme) := fun _ _ e => nomatch e
theorem powerSample (vin : BitVec 20) (bank : BitVec 20) : Statement (.powerSample vin bank) := fun _ _ e => nomatch e
theorem bankSwitchOpen : Statement .bankSwitchOpen := fun _ _ e => nomatch e
theorem dipRecover : Statement .dipRecover := fun _ _ e => nomatch e
theorem surgeTimer : Statement .surgeTimer := fun _ _ e => nomatch e
theorem holdupEnergyTick : Statement .holdupEnergyTick := fun _ _ e => nomatch e
theorem bankCapMeasure : Statement .bankCapMeasure := fun _ _ e => nomatch e
theorem journalWriteCheck : Statement .journalWriteCheck := fun _ _ e => nomatch e
theorem pwrJcmdAppend (m : Half) (v : Word) : Statement (.pwrJcmdAppend m v) := fun h _ e => Option.some.inj e ▸ h
theorem dieThermalReading (d : Fin 15) (temp : Byte) (layer : Byte) : Statement (.dieThermalReading d temp layer) := fun _ _ e => nomatch e
theorem dieCoolTimer (d : Fin 15) : Statement (.dieCoolTimer d) := fun _ _ e => nomatch e
theorem pwrGate (m : Half) (v : Word) : Statement (.pwrGate m v) := fun h _ e => Option.some.inj e ▸ h
theorem routerFault (b : Fin 64) : Statement (.routerFault b) := fun _ _ e => nomatch e
theorem rcFault (r : Fin 4) (dog : Bool) : Statement (.rcFault r dog) := fun _ _ e => nomatch e
theorem d2dReplayLimit (r : Fin 4) (k : Fin 4) : Statement (.d2dReplayLimit r k) := fun _ _ e => nomatch e
theorem unitFaultReport : Statement .unitFaultReport := fun _ _ e => nomatch e
theorem cellReset (c : Fin 1024) : Statement (.cellReset c) := fun _ _ e => nomatch e
theorem blockReset (b : Fin 64) : Statement (.blockReset b) := fun _ _ e => nomatch e
theorem regionReset (r : Fin 4) : Statement (.regionReset r) := fun _ _ e => nomatch e
theorem errReset (m : Half) (v : Word) : Statement (.errReset m v) := fun h _ e => Option.some.inj e ▸ h
theorem forceFatal (m : Half) : Statement (.forceFatal m) := fun h _ e => Option.some.inj e ▸ h
theorem keeperWatchdog : Statement .keeperWatchdog := fun _ _ e => nomatch e
theorem hubUe (lost : Option (Nat × Nat × Nat)) : Statement (.hubUe lost) := fun _ _ e => nomatch e
theorem fatalPath : Statement .fatalPath := fun _ _ e => nomatch e
theorem crashDumpWrite : Statement .crashDumpWrite := fun _ _ e => nomatch e
theorem dumpJournalCopy : Statement .dumpJournalCopy := fun _ _ e => nomatch e
theorem kprHeartbeat : Statement .kprHeartbeat := fun _ _ e => nomatch e
theorem i3cDynamicAddress (static : Option (BitVec 7)) (addr : BitVec 7) : Statement (.i3cDynamicAddress static addr) := fun _ _ e => nomatch e
theorem i3cPrivateWrite (bytes : List Byte) : Statement (.i3cPrivateWrite bytes) := fun _ _ e => nomatch e
theorem i3cPrivateRead : Statement .i3cPrivateRead := fun _ _ e => nomatch e
theorem jtagInstruction (code : JInstr) : Statement (.jtagInstruction code) := fun _ _ e => nomatch e
theorem jtagReset : Statement .jtagReset := fun _ _ e => nomatch e
theorem p54vConnect : Statement .p54vConnect := fun _ _ e => nomatch e
theorem p54vInRange100ms : Statement .p54vInRange100ms := fun _ _ e => nomatch e
theorem p54vLoss : Statement .p54vLoss := fun _ _ e => nomatch e
theorem pcieLinkUp : Statement .pcieLinkUp := fun _ _ e => nomatch e

end Sys2Proof.Laws.Masters
end

