-- ==== Sys2Proof/Laws/Results.lean ====
section
/-!
SUPPORT. Laws/Results.lean: what running a descriptor writes and records (R88, R104).
-/

namespace Sys2Proof.Machine

theorem applyWrites_spec (s : State) (ws : List (Space × Nat × List Byte)) : (applyWrites s ws).1 = { s with mems := ws.foldl (fun m w => memsWrite m w.1 w.2.1 w.2.2) s.mems } := by
  have : ∀ (ws : List (Space × Nat × List Byte)) (s : State) (u : List (Space × Nat × List Byte)),
      (ws.foldl (fun p w => (wr p.1 w.1 w.2.1 w.2.2, undoOf p.1 p.2 w)) (s, u)).1 = { s with mems := ws.foldl (fun m w => memsWrite m w.1 w.2.1 w.2.2) s.mems } := by
    intro ws
    induction ws with
    | nil => intro s u; rfl
    | cons w ws ih => intro s u; rw [List.foldl_cons, List.foldl_cons, ih]; rfl
  exact this ws s []

/-- The outcome of a descriptor: its bytes are written, and it is as far as its run says (R88, R104). -/
theorem putRun_spec {o : RunOut} {c : Nat} {jr : JigRun} (hr : (cellGet o.st c).run = some jr) (hs : o.scramble = []) (idx : Nat) :
    ((putRun c idx o).mems = o.writes.foldl (fun m w => memsWrite m w.1 w.2.1 w.2.2) o.st.mems ∧ (putRun c idx o).regs = o.st.regs ∧
      ∀ e, e ≠ c → cellGet (putRun c idx o) e = cellGet o.st e) ∧
    ∃ jr', (cellGet (putRun c idx o) c).run = some jr' ∧ jr'.issued.map (fun q => q.idx) = jr.issued.map (fun q => q.idx) ∧
      (∀ q ∈ jr'.issued, q.idx = idx → q.phase = o.phase ∧ q.status = o.status ∧ q.reason = o.reason ∧ q.detail = o.detail) ∧
      (∀ q, q.idx ≠ idx → (q ∈ jr'.issued ↔ q ∈ jr.issued)) := by
  obtain ⟨s1, h1⟩ : ∃ s1, (applyWrites o.st o.writes).1 = s1 := ⟨_, rfl⟩
  have e1 := applyWrites_spec o.st o.writes
  rw [h1] at e1
  have hsc : scrambleRegions c [] s1 = s1 := rfl
  have hp : putRun c idx o = updIssued s1 c idx (fun r => { r with
    phase := o.phase, status := o.status, reason := o.reason, detail := o.detail, undo := r.undo ++ (applyWrites o.st o.writes).2, since := s1.now }) := by
    unfold putRun
    rcases hab : applyWrites o.st o.writes with ⟨a, b⟩
    rw [hab] at h1
    dsimp only at h1 ⊢
    rw [hs, h1, hsc]
  have hc : ∀ e, cellGet s1 e = cellGet o.st e := fun e => cellGet_congr (by rw [e1]) e
  have hr1 : (cellGet s1 c).run = some jr := by rw [hc]; exact hr
  rw [hp]
  generalize (applyWrites o.st o.writes).2 = u
  refine ⟨⟨?_, ?_, fun e he => (updIssued_ne _ _ _ _ e he).trans (hc e)⟩, ?_⟩
  · have := congrArg State.mems (updIssued_cells_only s1 c idx (fun r => { r with phase := o.phase, status := o.status, reason := o.reason, detail := o.detail, undo := r.undo ++ u, since := s1.now }))
    exact this.trans (by rw [e1])
  · have := congrArg State.regs (updIssued_cells_only s1 c idx (fun r => { r with phase := o.phase, status := o.status, reason := o.reason, detail := o.detail, undo := r.undo ++ u, since := s1.now }))
    exact this.trans (by rw [e1])
  · rw [updIssued_cell s1 c idx _ jr hr1]
    refine ⟨_, rfl, map_idx_upd (fun r => { r with phase := o.phase, status := o.status, reason := o.reason, detail := o.detail, undo := r.undo ++ u, since := s1.now }) (fun _ => rfl) _ _, ?_, ?_⟩
    · intro q hq hi
      obtain ⟨x, hx, rfl⟩ := List.mem_map.mp hq
      by_cases k : x.idx = idx
      · rw [if_pos k]; exact ⟨rfl, rfl, rfl, rfl⟩
      · rw [if_neg k] at hi; exact absurd hi k
    · intro q hq
      constructor
      · intro h
        obtain ⟨x, hx, e⟩ := List.mem_map.mp h
        by_cases k : x.idx = idx
        · rw [if_pos k] at e; rw [← e] at hq; exact absurd k hq
        · rw [if_neg k] at e; rw [← e]; exact hx
      · intro h
        exact List.mem_map.mpr ⟨q, h, if_neg hq⟩

end Sys2Proof.Machine
end

