-- ==== Sys2Proof/Tests/Slice0.lean ====
section
/-!
SUPPORT. Tests/Slice0.lean: the author's tests. Smoke tests of well-formedness; for each statement with hypotheses, states and operands that meet the
hypotheses of its clauses together; a few effects with values worked out from the manual's tables.
-/

namespace Sys2Proof.Tests

open Sys2Proof.Machine

/-! ### Helpers -/

def noEcc : Ecc := ⟨[], []⟩

/-- A running module: powered, the Keeper up, CHP_STATE RUNNING. -/
def on : State := { State.reset with
  cold := false, perst := false, pcieUp := true, trained := true, regs := [(pgChp + 0x40, 4#32), (pgKpr + 0xC, 5#32)],
  power := { powerInit with live := true, vin := 48000, bank := 54000, okSince := some 0, inSince := some 0 } }

/-- `s` with registers set. -/
def withRegs (s : State) (l : List (Nat × Nat)) : State := { s with regs := l.map (fun e => (e.1, BitVec.ofNat 32 e.2)) ++ s.regs }

/-- A descriptor of an opcode whose other header bytes name no semaphore, with the bytes `l` from byte 6. -/
def descOf (op : Nat) (l : List Nat) : List Byte :=
  let d : List Byte := [BitVec.ofNat 8 op, 2, 255, 255, 0, 0] ++ l.map (BitVec.ofNat 8)
  d ++ List.replicate (64 - d.length) 0

/-- A cell that runs a jig at 0 with the descriptors `f` fetched and `r` issued. -/
def runOf (f : List (List Byte)) (r : List RunDesc) : JigRun :=
  ⟨⟨0, 7, .keeper⟩, f, f.length + r.length, r.length, 0, true, r, 0, none, 0, none, false, false, none, []⟩

/-- Descriptor `d` issued at place `i` of its jig, in a phase. -/
def ranOf (i : Nat) (d : List Byte) (p : Phase) (aux : Nat) : RunDesc := ⟨i, 64 * i, d, 0, 0, p, 0, 0, 0, [], false, 0, aux⟩

/-- `s` with cell `c` running `jr`. -/
def running0 (s : State) (c : Nat) (jr : JigRun) : State := cellPut s c { cellInit with run := some jr }

/-- Partition 1023, ACTIVE, with cell 1023. -/
def part1 : Part := { partNone with st := 2, cells := [1023], key := 7, quota := 4 }
def owned : State := { on with parts := [(1023, part1)] }
/-! ### Well-formedness refuses what the manual's ranges exclude -/

theorem test_wf_master : (Instr.prtCreate 0x1000#16).wellFormed = false ∧ (Instr.prtCreate 0x1001#16).wellFormed = true ∧ (Instr.prtCreate 0xF104#16).wellFormed = false := by decide
theorem test_wf_sender : (Instr.towpathJigDispatch 0 (.seqr 1024) 0 0).wellFormed = false ∧ (Instr.towpathJigDispatch 0 (.seqr 1023) 0 0).wellFormed = true := by decide
theorem test_wf_sender_host : (Instr.towpathJigDispatch 0 (.reg 0) 0 0).wellFormed = false := by decide
theorem test_wf_index : (Instr.descriptorComplete 0 262144).wellFormed = false ∧ (Instr.descriptorComplete 0 262143).wellFormed = true := by decide
theorem test_wf_lock : (Instr.lockWindowEnd 1088).wellFormed = false ∧ (Instr.lockTurnaroundEnd 1088).wellFormed = false ∧ (Instr.urgentBeat 1088 true).wellFormed = false := by decide
theorem test_wf_line : (Instr.cacheFillComplete 0 33554432).wellFormed = false := by decide
theorem test_wf_slot : (Instr.fabDeadline 65536).wellFormed = false := by decide
theorem test_wf_frame : (Instr.linkFrameReceive 0 256 0 true none []).wellFormed = false ∧ (Instr.linkFrameReceive 0 0 0 true none [0, 0, 0, 0, 0]).wellFormed = false ∧
    (Instr.linkNak 0 256).wellFormed = false := by decide
theorem test_wf_packet : (Instr.linkFrameReceive 0 0 0 true (some ⟨1, 8, 0, 0, 0, 0, 0, 0, 0, 0, 0, 0, 0, [], []⟩) []).wellFormed = false := by decide
theorem test_wf_train : (Instr.train 0 true true 32768 0 0 0 0).wellFormed = false := by decide
theorem test_wf_entries : (Instr.sqFetch [0#8] none).wellFormed = false ∧ (Instr.sqFetch [] (some 128)).wellFormed = false ∧ (Instr.partSqCtrlEnable 0 0 0 [0#8]).wellFormed = false ∧
    (Instr.partitionReset 0 [(16, [])]).wellFormed = false := by decide
theorem test_wf_fails : (Instr.cqCompletionWrite 0 0 3).wellFormed = false := by decide
theorem test_wf_window : (Instr.pfBar2Access 0 none 0 noEcc).wellFormed = false ∧ (Instr.vfBar2Access 0 0 (some []) 0 noEcc).wellFormed = false := by decide
theorem test_wf_boot : (Instr.bootSequence ⟨[], 0, 0⟩ 0 [] 0).wellFormed = false ∧ (Instr.bootSequence ⟨[0, 0, 0, 0], 16, 0⟩ 0 [] 0).wellFormed = false ∧
    (Instr.bootSequence ⟨[0, 0, 0, 0], 0, 0⟩ 65536 [] 0).wellFormed = false ∧ (Instr.bootSequence ⟨[0, 0, 0, 0], 0, 0⟩ 0 [17] 0).wellFormed = false := by decide
theorem test_wf_lost : (Instr.hubUe (some (1024, 0, 0))).wellFormed = false := by decide

/-! ### The block as a whole -/

theorem test_StepRunsFrontCommand_met : step { State.reset with pending := [.p54vConnect, .perstNAssert] } = exec .p54vConnect { State.reset with pending := [.perstNAssert] } := rfl
theorem test_IdleAndRest_met : AtRest State.reset := by unfold AtRest; decide
theorem test_ColdAndPinsChangeByTheirCommands_leaves : (match exec (.perstNDeassert 3) { State.reset with power := on.power, now := 100000000 } with
    | .next t => (State.reset.cold, t.cold, t.perst, rget t (pgChp + 0x58))
    | _ => (false, true, true, 0)) = (true, false, false, 3) := by decide
theorem test_ColdAndPinsChangeByTheirCommands_enters : (match exec .p54vLoss on with
    | .next t => (on.cold, t.cold)
    | _ => (true, false)) = (false, true) := by decide
theorem test_ColdAndPinsChangeByTheirCommands_pins : (match exec .perstNAssert on, exec (.jtagInstruction .sample) on with
    | .next t, .next u => (t.perst, on.perst, u.jtag, on.jtag)
    | _, _ => (false, false, .idcode, .idcode)) = (true, false, .sample, .idcode) := by decide
theorem test_CommandsAnswerAndKeepTheQueue_tick : (match exec (.weirCreditTick 5) on with
    | .next t => t.now
    | _ => 0) = 5 := by decide
theorem test_EveryStepKeepsColdAsReset_met : ColdAsReset State.reset ∧ (match step { State.reset with pending := [.p54vConnect] } with
    | .next t => t.cold
    | _ => false) = true := ⟨fun _ => ⟨rfl, fun _ _ => rfl⟩, by decide⟩

/-! ### Cells -/

/-- Cell 1023 with a FENCE (its last descriptor) at scratchpad address 0 and the jigs `q` queued. -/
def fenced (q : List Jig) (h : List Jig) : State :=
  let b := sliceA 1023 0
  cellPut { on with mems := { on.mems with slice := [(b, 0x0F#8), (b + 1, 2#8), (b + 2, 255#8), (b + 3, 255#8), (b + 6, 1#8), (b + 8, 8#8)] } } 1023 { cellInit with queue := q, held := h }

theorem test_JigsArePushed_met : on.cold = false ∧ Served on (pgJq 0 + 0x44) ∧ Served on (pgJq 1023 + 0x44) ∧
    (cellGet (fenced [] [⟨0, 7, .keeper⟩]) 1023).held = [⟨0, 7, .keeper⟩] ∧ (cellGet (fenced [] [⟨0, 7, .keeper⟩]) 1023).queue.length < 16 := by
  unfold Served; decide

theorem test_JigsStart_met : let s := fenced [⟨0, 7, .keeper⟩] []
    s.cold = false ∧ (cellGet s 1023).mode = .normal ∧ (cellGet s 1023).run = none ∧ (cellGet s 1023).queue = [⟨0, 7, .keeper⟩] ∧ 0 % 64 = 0 ∧ 0 + 64 ≤ scratchBytes s 1023 ∧ s.stop = none ∧
    firstBad s.mems .slice (sliceA 1023 0) 64 = none ∧ firstFail (headerChecks (requireBound s 1023) (crd s .slice 1023 0 64)) = none := by decide
theorem test_JigsStart_bad_met : let s := fenced [⟨32, 7, .keeper⟩] []
    s.cold = false ∧ (cellGet s 1023).mode = .normal ∧ (cellGet s 1023).run = none ∧ (cellGet s 1023).queue = [⟨32, 7, .keeper⟩] ∧ ¬ (32 % 64 = 0 ∧ 32 + 64 ≤ scratchBytes s 1023) := by decide
theorem test_JigsStart_top_met : let s := fenced [⟨0x1000000, 7, .keeper⟩] []
    (cellGet s 1023).queue = [⟨0x1000000, 7, .keeper⟩] ∧ ¬ (0x1000000 % 64 = 0 ∧ 0x1000000 + 64 ≤ scratchBytes s 1023) := by decide

/-- A jig that fetches from index `n` on. -/
def fetching (n : Nat) : JigRun := { runOf [] [] with nextFetch := n, sawLast := false }

theorem test_DescriptorsAreFetched_met : let s := running0 (fenced [] []) 1023 (fetching 0)
    s.cold = false ∧ (cellGet (eccIn s noEcc) 1023).run = some (fetching 0) ∧ (cellGet (eccIn s noEcc) 1023).mode = .normal ∧ (eccIn s noEcc).stop = none ∧ (fetching 0).sawLast = false ∧
    (fetching 0).stop = 0 ∧ (fetching 0).trap = false ∧ (fetching 0).halt = false ∧ (fetching 0).fetched.length < 4 ∧ (fetching 0).nextFetch < 16384 ∧
    (fetching 0).jig.start + 64 * (fetching 0).nextFetch + 64 ≤ scratchBytes (eccIn s noEcc) 1023 ∧
    firstBad (eccIn s noEcc).mems .slice (sliceA 1023 ((fetching 0).jig.start + 64 * (fetching 0).nextFetch)) 64 = none := by decide
theorem test_DescriptorsAreFetched_last_met : 16384 ≤ (fetching 16384).nextFetch ∧ (cellGet (eccIn (running0 on 0 (fetching 16384)) noEcc) 0).run = some (fetching 16384) := by decide
theorem test_DescriptorsAreFetched_out_met : let j := { fetching 16383 with jig := ⟨0xFFFFC0, 7, .keeper⟩ }
    j.nextFetch < 16384 ∧ scratchBytes (eccIn (running0 on 0 j) noEcc) 0 < j.jig.start + 64 * j.nextFetch + 64 ∧ (cellGet (eccIn (running0 on 0 j) noEcc) 0).run = some j := by decide

/-- A FENCE on the transfer port; a TTWAIT of a kind that no manual gives, which fails at issue. -/
def fenceD : List Byte := descOf 0x0F [0, 0, 8]
def badD : List Byte := descOf 0x0F [0, 0, 0]

def issuing (d : List Byte) : State := running0 (withRegs on [(pgCel 0 + 8, 1)]) 0 (runOf [d] [])

theorem test_DescriptorsIssue_met : (0x0F, Instr.fence 0 noEcc) ∈ descRows 0 noEcc ∧ nextOp (eccIn (issuing fenceD) noEcc) 0 0x0F = some (runOf [fenceD] [], fenceD) ∧
    issueTest (eccIn (issuing fenceD) noEcc) 0 (runOf [fenceD] []) fenceD (planOf (eccIn (issuing fenceD) noEcc) 0 (runOf [fenceD] []) fenceD)
      (dtChecks (runOf [fenceD] []) fenceD (planOf (eccIn (issuing fenceD) noEcc) 0 (runOf [fenceD] []) fenceD).results) = .go := by
  refine ⟨by decide, by decide, by decide⟩
theorem test_DescriptorsFailAtIssue_met : (0x0F, Instr.fence 0 noEcc) ∈ descRows 0 noEcc ∧ nextOp (eccIn (issuing badD) noEcc) 0 0x0F = some (runOf [badD] [], badD) ∧ interlocked (runOf [badD] []) badD = false ∧
    ∃ r det, issueTest (eccIn (issuing badD) noEcc) 0 (runOf [badD] []) badD (planOf (eccIn (issuing badD) noEcc) 0 (runOf [badD] []) badD)
      (dtChecks (runOf [badD] []) badD (planOf (eccIn (issuing badD) noEcc) 0 (runOf [badD] []) badD).results) = .fail r det := by
  refine ⟨by decide, by decide, by decide, _, _, rfl⟩

/-- A cell with one issued descriptor. -/
def issued (d : List Byte) (p : Phase) (aux : Nat) (now : Nat) : State := { running0 on 0 (runOf [] [ranOf 0 d p aux]) with now := now }

theorem test_DescriptorsComplete_ran_met : let s := issued (descOf 0x11 []) .ran 0 0
    s.cold = false ∧ (cellGet s 0).run = some (runOf [] [ranOf 0 (descOf 0x11 []) .ran 0]) ∧ issuedAt s 0 0 = some (ranOf 0 (descOf 0x11 []) .ran 0) ∧
    completable [ranOf 0 (descOf 0x11 []) .ran 0] (ranOf 0 (descOf 0x11 []) .ran 0) = true ∧ (cellGet s 0).mode = .normal := by decide
theorem test_DescriptorsComplete_fence_met : let s := issued fenceD .waiting 0 0
    waitingAt s 0 0x0F = some (ranOf 0 fenceD .waiting 0) ∧ issuedAt s 0 0 = some (ranOf 0 fenceD .waiting 0) ∧ fcLocal s 0 (ranOf 0 fenceD .waiting 0) = true ∧ fcBarrier fenceD = false := by decide
def lateD : List Byte := descOf 0x15 [0, 0, 0, 0, 0, 0, 8, 0, 0, 0]
theorem test_DescriptorsComplete_late_met : let s := issued lateD .waiting 2 1000
    fenceAt s 0 = some (ranOf 0 lateD .waiting 2) ∧ (ranOf 0 lateD .waiting 2).aux = 2 ∧ issuedAt s 0 0 = some (ranOf 0 lateD .waiting 2) ∧
    lateLimit s 0 lateD ≤ cyclesOf (s.now - (ranOf 0 lateD .waiting 2).since) := by decide
theorem test_DescriptorsComplete_wait_met : let s := { withRegs (issued fenceD .waiting 0 1000) [(pgCel 0 + 0x44, 10)] with now := 1000 }
    waitedTooLong s 0 = some (ranOf 0 fenceD .waiting 0) ∧ dOp fenceD = 0x0F ∧ fcBarrier fenceD = false ∧ issuedAt s 0 0 = some (ranOf 0 fenceD .waiting 0) := by decide
def ttD : List Byte := descOf 0x10 [0, 0, 0]
theorem test_DescriptorsComplete_ttwait_met : let s := issued ttD .waiting 0 0
    waitingAt s 0 0x10 = some (ranOf 0 ttD .waiting 0) ∧ issuedAt s 0 0 = some (ranOf 0 ttD .waiting 0) ∧ (ttwaitEnds s ttD).isSome = true := by decide

/-- Cell 0 waits at a LAYER_FENCE of entry 0; its stream table at 0 has one line entry. -/
def streaming (aux flags : Nat) (x : Strm) : State :=
  let d := descOf 0x15 [0, 0, 0, 0, flags]
  { running0 on 0 (runOf [] [ranOf 0 d .waiting aux]) with
    mems := { on.mems with slice := [(0, 0x4D#8), (1, 0x52#8), (2, 0x54#8), (3, 0x53#8), (4, 1#8), (8, 1#8), (32, 8#8)] }, streams := [(0, x)] }

theorem test_StreamsAdvance_restart_met : let s := eccIn (streaming 0 1 strmInit) noEcc
    (streaming 0 1 strmInit).cold = false ∧ fenceAt s 0 = some (ranOf 0 (descOf 0x15 [0, 0, 0, 0, 1]) .waiting 0) ∧ lfRestart (descOf 0x15 [0, 0, 0, 0, 1]) = true ∧
    s.barges.isEmpty = true ∧ s.bargeWait.isEmpty = true ∧
    firstBad s.mems .slice (sliceA 0 (rbits s (pgSlice 0 + 0x44) 23 0)) (32 + 32 * fld (crd s .slice 0 (rbits s (pgSlice 0 + 0x44) 23 0) 32) 8 2) = none ∧
    (match streamTable s 0 with
      | .ok es => decide (lfEntry (descOf 0x15 [0, 0, 0, 0, 1]) < es.length)
      | .error _ => false) = true := by decide
theorem test_StreamsAdvance_drain_met : let s := streaming 1 0 { strmInit with st := 1 }
    fenceAt s 0 = some (ranOf 0 (descOf 0x15 [0, 0, 0, 0, 0]) .waiting 1) ∧ (strmGet s 0).fail = none ∧ (strmGet s 0).landed ≤ lfEntry (descOf 0x15 [0, 0, 0, 0, 0]) := by decide
theorem test_StreamsAdvance_request_met : let s := eccIn (streaming 1 0 ⟨1, 0, 1, [descOf 8 []], 0, 0, [], [], false, none, 0⟩) noEcc
    (strmGet s 0).st = 1 ∧ (strmGet s 0).req < (strmGet s 0).ents.length ∧ (strmGet s 0).req < (strmGet s 0).f1 + (strmGet s 0).dist ∧ (strmGet s 0).fail = none ∧
    seKind ((strmGet s 0).ents.getD (strmGet s 0).req []) ≠ 9 := by decide
theorem test_StreamsAdvance_landed_met : let s := streaming 1 0 ⟨1, 0, 1, [descOf 8 []], 0, 1, [], [], true, none, 0⟩
    (strmGet s 0).moving = true ∧ (strmGet s 0).lines = [] ∧ s.barges.isEmpty = true ∧ s.bargeWait.isEmpty = true ∧ (strmGet s 0).fail = none := by decide

theorem test_BlockUnitsServe_gsu_met : let s := eccIn (running0 on 1023 (runOf [] [ranOf 0 (descOf 0x09 []) .waiting 0])) noEcc
    gsuBusy s 63 = none ∧ gsuNext s 63 = some 15 ∧ gsuDesc s (16 * 63 + 15) .waiting = some (ranOf 0 (descOf 0x09 []) .waiting 0) := by decide
def mcD : List Byte := descOf 0x01 [0, 0, 0, 0, 0, 0, 0, 0, 0, 0, 0, 0, 0, 16]
theorem test_BlockUnitsServe_mcast_met : let s := eccIn { running0 on 16 (runOf [] [ranOf 0 mcD .waiting 0]) with mcast := [(8, ⟨1, some 16, [16], none⟩)] } noEcc
    (mcGet s 8).leader = some 16 ∧ mcDesc s 8 16 .waiting = some (ranOf 0 mcD .waiting 0) ∧ mcBusy s 8 = false ∧
    (∀ i ∈ maskBits 16 (mcGet s 8).mask, (mcGet s 8).members.contains (1 * 16 + i) = true) ∧ (readEcc s 16 (mmaRunPlan (ranOf 0 mcD .waiting 0)).reads).2 = true := by decide

theorem test_ParityFaultsTheCell_met : on.cold = false ∧ (cellGet on 0).mode ≠ .faulted ∧ (cellGet on 1023).mode ≠ .faulted := by decide
theorem test_OverrunsAreRecordedOnce_met : let d := descOf 0x11 [0, 1]
    let s := issued d .queued 0 2
    (cellGet s 0).run = some (runOf [] [ranOf 0 d .queued 0]) ∧ (runOf [] [ranOf 0 d .queued 0]).issued.find? (overruns s) = some (ranOf 0 d .queued 0) ∧ ownerOf s 0 = none := by decide
theorem test_CellWritesActAndMicroProgramsInstall_write_met : on.cold = false ∧ Served on (semAddr 0 0) ∧ Served on (semAddr 1023 63) ∧ Served on (pgCel 1023 + 8) ∧ Served on (pgVector 1023 + 0x4C) ∧ Served on (pgVector 1023 + 0x54) ∧
    (cellGet (cellPut on 1023 { cellInit with mode := .trapped }) 1023).mode = .trapped ∧ 0x40 ≤ (0x40#32).toNat % 128 ∧ (cellGet on 1023).mpLoad = none ∧
    (cellGet (cellPut on 1023 { cellInit with mpLoad := some (none, 0x7F) }) 1023).mpLoad ≠ none := by unfold Served; decide
theorem test_CellWritesActAndMicroProgramsInstall_clear_met : (cellGet (cellPut on 1023 { cellInit with mpLoad := some (none, 0x7F) }) 1023).mpLoad = some (none, 0x7F) ∧
    (cellGet (cellPut on 1023 { cellInit with mpLoad := some (none, 0x7F) }) 1023).run = none := by decide
/-- A load of a micro-program image at scratchpad address 0 of cell 0 into slot `n`. -/
def loading (n : Nat) (img : List Byte) : State :=
  cellPut { on with mems := memsWrite on.mems .slice 0 img } 0 { cellInit with mpLoad := some (some 0, n) }
theorem test_CellWritesActAndMicroProgramsInstall_bad_met : let s := loading 0x40 [1#8]
    0 % 64 = 0 ∧ 0 + 224 ≤ scratchBytes s 0 ∧ 0 + fld (crd s .slice 0 0 16) 8 4 ≤ scratchBytes s 0 ∧ firstBad s.mems .slice (sliceA 0 0) (fld (crd s .slice 0 0 16) 8 4) = none ∧
    mpReject 0x40 (crd s .slice 0 0 (min (fld (crd s .slice 0 0 16) 8 4) 4832)) ≠ 0 := by decide

/-- A micro-program image of one step, LD V0 ← input 0, without tables; its CRC-32C worked out apart. -/
def goodBody : List Byte := (List.replicate 8 (List.replicate 26 0#8)).flatten ++ [1#8, 0, 0, 0, 0, 0, 0, 0]
def goodImg : List Byte := [0x47#8, 0x52#8, 0x50#8, 0x4D#8, 1#8, 1#8, 0#8, 0#8, 232#8, 0#8, 0#8, 0#8, 175#8, 211#8, 119#8, 105#8] ++ goodBody
theorem test_good_crc : crc32c goodBody = 1769460655 := by
  have h0 : List.foldl crcByte 4294967295 (List.replicate 26 0#8) = 795420265 := by decide +kernel
  have h1 : List.foldl crcByte 795420265 (List.replicate 26 0#8) = 2493084981 := by decide +kernel
  have h2 : List.foldl crcByte 2493084981 (List.replicate 26 0#8) = 2521183441 := by decide +kernel
  have h3 : List.foldl crcByte 2521183441 (List.replicate 26 0#8) = 2052322934 := by decide +kernel
  have h4 : List.foldl crcByte 2052322934 (List.replicate 26 0#8) = 975184426 := by decide +kernel
  have h5 : List.foldl crcByte 975184426 (List.replicate 26 0#8) = 2493348528 := by decide +kernel
  have h6 : List.foldl crcByte 2493348528 (List.replicate 26 0#8) = 3298640196 := by decide +kernel
  have h7 : List.foldl crcByte 3298640196 (List.replicate 26 0#8) = 2994234801 := by decide +kernel
  have h8 : List.foldl crcByte 2994234801 [1#8, 0, 0, 0, 0, 0, 0, 0] = 2525506640 := by decide +kernel
  have e : goodBody = (List.replicate 26 0#8) ++ ((List.replicate 26 0#8) ++ ((List.replicate 26 0#8) ++ ((List.replicate 26 0#8) ++ ((List.replicate 26 0#8) ++ ((List.replicate 26 0#8) ++ ((List.replicate 26 0#8) ++ ((List.replicate 26 0#8) ++ ([1#8, 0, 0, 0, 0, 0, 0, 0])))))))) := by decide +kernel
  rw [e, crc32c]
  simp only [List.foldl_append, h0, h1, h2, h3, h4, h5, h6, h7, h8]
  decide
theorem test_CellWritesActAndMicroProgramsInstall_good_met : let s := loading 0x7F goodImg
    (cellGet s 0).mpLoad = some (some 0, 0x7F) ∧ 0 % 64 = 0 ∧ 0 + 224 ≤ scratchBytes s 0 ∧ 0 + fld (crd s .slice 0 0 16) 8 4 ≤ scratchBytes s 0 ∧
    firstBad s.mems .slice (sliceA 0 0) (fld (crd s .slice 0 0 16) 8 4) = none ∧ goodImg = crd s .slice 0 0 (min (fld (crd s .slice 0 0 16) 8 4) 4832) ∧ mpReject 0x7F goodImg = 0 := by
  refine ⟨by decide +kernel, by decide +kernel, by decide +kernel, by decide +kernel, by decide +kernel, by decide +kernel, ?_⟩
  have h : (goodImg.drop 16).take (fld goodImg 8 4 - 16) = goodBody := by decide +kernel
  rw [mpReject, h, test_good_crc]
  decide +kernel

/-! ### What descriptors compute -/

theorem test_DescriptorsCompute_met : let s := issued (descOf 0x11 []) .queued 0 0
    startable s 0 = some (ranOf 0 (descOf 0x11 []) .queued 0) ∧ producerStatus s 0 (ranOf 0 (descOf 0x11 []) .queued 0) = 0 ∧ (readEcc s 0 (rngPlan (descOf 0x11 [])).reads).2 = true := by decide
theorem test_DescriptorsCompute_failed_met : let d := descOf 0x01 [2]
    let s := running0 on 0 (runOf [] [{ ranOf 1 d .queued 0 with dtStatus := 1 }])
    dDtIn d = true ∧ producerStatus s 0 { ranOf 1 d .queued 0 with dtStatus := 1 } ≠ 0 := by decide

/-! ### The input, the sideband, HBM, the Locks -/

/-- `on` at time `n` ns with `p` applied to its input. -/
def fed (n : Nat) (p : Power) : State := { on with now := n, power := p }
/-- A module in COLD whose input has settled. -/
def settled : State := { State.reset with perst := false, now := 100000000, power := { powerInit with live := true, vin := 44000, inSince := some 0 } }

theorem test_InputPowersTheModule_met : State.reset.power.live = false ∧ settled.cold = true ∧ settled.perst = false ∧ inputSettled settled = true ∧
    settled.power.live = true ∧ on.cold = false := by decide
theorem test_SidebandAnswers_met : inputGood settled = true ∧ settled.cold = true ∧ inputGood on = true ∧ on.cold = false ∧
    (∀ x : BitVec 7, some 0x58#7 = some x → x.toNat = 0x58 + rbits on (pgChp + 0x58) 2 0) := by
  refine ⟨by decide, by decide, by decide, by decide, ?_⟩
  intro x h; cases h; decide
theorem test_SidebandAnswers_read_met : let s := { on with i3c := { on.i3c with addr := some 0x58, down := false } }
    let b : List Byte := [1, 0x02, 0, 0, 0]
    s.i3c.down = false ∧ s.i3c.addr.isSome = true ∧ b.length = 5 ∧ byteAt b 0 = 1 ∧ accessKind s (fld b 1 4) (decide (fld b 1 4 % 4 = 0)) ≠ 0 := by decide
theorem test_InputIsWatched_met : on.power.live = true ∧ on.cold = false ∧ 38000 ≤ (38000#20).toNat ∧ (43999#20).toNat < 44000 ∧ on.power.dip = none ∧ on.power.over59 = none ∧
    keeperRuns on = true ∧ settled.cold = true ∧ settled.power.live = true := by decide
theorem test_InputIsWatched_surge_met : let s := fed 10000001 { on.power with over59 := some 0 }
    s.power.over59.elim false (fun t => decide (10000000 < s.now - t)) = true ∧ s.cold = false ∧ inputStatus s ≠ 3 ∧ s.stop = none ∧ devState s ≠ dvFaulted ∧ devState s ≠ dvDumped ∧
    ({ s with cold := true }).power.over59.elim false (fun t => decide (10000000 < s.now - t)) = true := by decide
theorem test_InputIsWatched_charge_met : let s := fed 9 { on.power with chargeAt := some 0, bank := 54000 }
    s.power.chargeAt = some 0 ∧ 54000 ≤ s.power.bank ∧ s.cold = false ∧ ({ settled with power := s.power }).cold = true := by decide
theorem test_ThrottleFollowsTheInput_met : let s := fed 2000000 { on.power with dip := some 0, bankOpen := false }
    let u := withRegs (fed 10000000 on.power) [(pgPwr + 0x5C, 0x100400)]
    s.cold = false ∧ s.power.dip = some 0 ∧ s.power.bankOpen = false ∧ inputStatus s ≠ 3 ∧ 2000000 ≤ s.now - 0 ∧
    u.power.okSince = some 0 ∧ 10000000 ≤ u.now - 0 ∧ rbits u (pgPwr + 0x5C) 12 8 ≠ 16 ∧ inputStatus u ≠ 3 := by decide
theorem test_HeatIsWatched_met : keeperRuns on = true ∧ (3 : Fin 15).val < 4 ∧ heatStep on 3 < dieStep (114#8).toNat ∧ (114#8).toNat < 115 ∧
    heatStep { on with power := { on.power with steps := [(3, 1)] } } 3 ≠ 0 ∧ coolAt (fed 10000000 { on.power with cool := [(3, 0)] }) 3 = some 0 := by decide
theorem test_HeatIsWatched_gate_met : Served on (pgPwr + 0x74) ∧ bits (rget on (pgPwr + 0x74)) 3 1 = 0 ∧ bits (4#32).toNat 3 1 = 2 ∧ gateOk on 2 = true := by unfold Served; decide

theorem test_TimePasses_met : on.cold = false ∧ on.scl.slew = 0 := by decide
theorem test_HbmSlotsAreGiven_met : (hbmqGet { on with hbmq := [(7, { hbmqGet on 7 with refresh := 1 })] } 7).refresh ≠ 0 ∧
    (let s := { on with hbmq := [(7, { hbmqGet on 7 with urgent := [1023] })] }
     (hbmqGet s 7).refresh = 0 ∧ (hbmqGet s 7).urgent = [1023]) ∧
    (let s := creditPut { on with hbmq := [(7, { hbmqGet on 7 with wait := [(1023, 1)] })] } (weiAddr 7 1023) (256 * 2 ^ 24)
     (hbmqGet s 7).refresh = 0 ∧ (hbmqGet s 7).urgent = [] ∧
     rrAfter (((hbmqGet s 7).wait.map (·.1)).filter (fun p => decide (p < 1024) && decide ((256 * 2 ^ 24 : Int) ≤ creditGet s (weiAddr 7 p)))) (hbmqGet s 7).lastG = some 1023) ∧
    (let s := { on with hbmq := [(7, { hbmqGet on 7 with wait := [(1023, 1)] })] }
     ((hbmqGet s 7).wait.map (·.1)).filter (fun p => decide (p < 1024) && decide ((256 * 2 ^ 24 : Int) ≤ creditGet s (weiAddr 7 p))) = [] ∧
     rrAfter ((hbmqGet s 7).wait.map (·.1)) (hbmqGet s 7).lastB = some 1023) := by decide
theorem test_CommitsTakeEffectWhole_met : Served on (pgHbm 7 + 0x48) ∧ Served on (pgFls + 0x40) ∧ Served on (pgLnk 15 + 0x60) := by unfold Served; decide
theorem test_StacksAreWatched_met : let h := withRegs (fed 10000000 { on.power with cool := [(23, 0)] }) [(pgHbm 7 + 0xC, 1)]
    keeperRuns on = true ∧ stackHeat on 7 = 0 ∧ 95 ≤ (95#8).toNat ∧ (104#8).toNat < 105 ∧ on.stop = none ∧ devState on ≠ dvFaulted ∧ devState on ≠ dvDumped ∧
    stackHeat h 7 = 1 ∧ coolAt h (16 + 7) = some 0 ∧ 10000000 ≤ h.now - 0 ∧ h.stop = none ∧ (∀ e ∈ h.power.slowAt, e.1 = 7 → 1000000 ≤ h.now - e.2) := by decide
theorem test_LocksTurn_met : let s := lockPut { on with now := 1000 } 0 { lockGet on 0 with openAt := 0, beats := 0, turning := true }
    (lockGet s 0).turning = true ∧ (lockGet s 0).urgent < 16 ∧ s.cold = false := by decide

/-! ### Caches, barges, Locks -/


theorem test_FillsReturn_met : (∀ g : Bool, let s := withRegs { owned with fills := [⟨1023, 5, g⟩] } [(pgSlice 1023 + 0x40, 8)]
    s.cold = false ∧ s.fills.find? (fun f => f.home == 1023 && f.line == 5) = some ⟨1023, 5, g⟩ ∧ ownerOf s 1023 = some 1023 ∧ lineHome s 1023 5 = some (1023, 5) ∧
    (∀ e ∈ s.streams, e.2.lines.contains 5 = false)) ∧ AtRest { owned with fills := [⟨1023, 5, true⟩] } := by unfold AtRest; decide

/-- A zero fill of 8,192 bytes of the bench of cell 0, offered to engine 31 by an originator. -/
def zeroB (o : Origin) : Barge := ⟨3, o, 7, 1024, 31, .host, [.bench 0], 0, 0, 8192, true, none, none, 0, 0, [], none, 0, List.replicate 56 0#8⟩
/-- A copy between overlapping ranges of a slice, which the engine rejects. -/
def overB (o : Origin) : Barge := { zeroB o with src := .slice 0, dsts := [.slice 0], zero := false }
def offering (b : Barge) : State := { on with bargeWait := [b] }

theorem test_BargesAreAcceptedAndGranted_accept_met :
    (∀ o ∈ [Origin.cell 1023 0, .keeper], nextOffer (offering (zeroB o)) 31 = some (zeroB o) ∧ bargeReject { offering (zeroB o) with bargeWait := [] } (zeroB o) = none) ∧
    nextOffer (offering (overB .keeper)) 31 = some (overB .keeper) ∧ bargeReject { offering (overB .keeper) with bargeWait := [] } (overB .keeper) ≠ none := by decide
/-- A copy from the slice of cell 0 to the bench of cell 0, with its unit 0 started. -/
def copyB (granted : Bool) : Barge := { zeroB .keeper with zero := false, src := .slice 0, next := 1, units := [⟨0, 0, granted, false⟩] }
theorem test_BargesAreAcceptedAndGranted_unit_met : nextUnit { on with barges := [zeroB .keeper] } 31 = some (zeroB .keeper) ∧ AtRest { on with barges := [zeroB .keeper] } := by unfold AtRest; decide
theorem test_BargesAreAcceptedAndGranted_commit_met : let s := { on with barges := [copyB false] }
    s.barges.find? (fun b => b.bid == 3) = some (copyB false) ∧ (copyB false).units.any (fun v => v.u == 0 && !v.granted) = true ∧
    (unitPath s (copyB false) 0).all (fun n => !lockBarred s n.1) = true ∧ pathOffers s 3 0 (unitPath s (copyB false) 0) = true ∧ unitPath s (copyB false) 0 ≠ [] := by decide
/-- Two copies of cell 0: one out of its slice, one into it. -/
def inB : Barge := { zeroB .keeper with bid := 4, zero := false, src := .bench 1, dsts := [.slice 0], next := 1, units := [⟨0, 0, false, false⟩] }
theorem test_LocksTurn_window_met : let s := lockPut { on with now := 1000000, barges := [copyB false, inB] } 0 { lockGet on 0 with beats := 64 }
    let t := lockPut { on with now := 1000000, barges := [copyB false] } 0 { lockGet on 0 with beats := 64 }
    windowEnds s 0 = true ∧ (headReq s 0 (!(lockGet s 0).dirIn)).isSome = true ∧ windowEnds t 0 = true ∧ headReq t 0 (!(lockGet t 0).dirIn) = none ∧
    t.barges.find? (fun b => b.bid == 3) = some (copyB false) := by decide
theorem test_UnitsLand_met : let b := { zeroB .keeper with next := 2, units := [⟨0, 0, true, false⟩, ⟨1, 0, false, false⟩] }
    let s := { on with barges := [b] }
    eccIn s noEcc = s ∧ s.barges.find? (fun b => b.bid == 3) = some b ∧ b.units.find? (fun v => v.u == b.landed) = some ⟨0, 0, true, false⟩ ∧ b.cut = none ∧
    b.landed + 1 ≠ b.count ∧ b.zero = true ∧ b.skew = none ∧ b.dsts = [.bench 0] ∧ b.src = .host ∧ AtRest s := by unfold AtRest; decide
theorem test_UnitsLand_data_met : ∃ ws, unitData { on with barges := [zeroB .keeper] } (zeroB .keeper) 0 [] = ({ on with barges := [zeroB .keeper] }, some ws) := ⟨_, rfl⟩
/-- A source in the weight tier of a partition that has none cannot be read. -/
theorem test_UnitsLand_fails_met : let b : Barge := { zeroB .keeper with zero := false, src := .tier, srcAddr := 2 ^ 60, part := 1023, units := [⟨0, 0, true, false⟩] }
    (unitData { owned with barges := [b] } b 0 []).2 = none := by decide

/-! ### Faults, resets, the stop, the journal and the dump -/

theorem test_UnitFaultsAreReported_met : let f : FaultRec := ⟨.cell 1023, 0, 0⟩
    let s := { on with faults := [f] }
    s.faults = f :: [] ∧ escalates s f.unit = false ∧ escalates { s with lastReset := [(f.unit.key, 1)] } f.unit = true ∧ f.unit.wider = some (.block 63) := by decide
theorem test_ResetsComplete_met : let s := { on with uresets := [⟨.cell 1023, false⟩, ⟨.block 63, true⟩, ⟨.region 3, false⟩] }
    (∀ u ∈ [UnitRef.cell 1023, .block 63, .region 3], (s.uresets.find? (fun y => y.unit == u)).isSome = true) ∧ resetDrained s (.cell 1023) = true ∧
    resetDrained s (.block 63) = true ∧ resetDrained s (.region 3) = true := by
  refine ⟨by decide, ?_, ?_, ?_⟩ <;> simp [resetDrained, cellDrained, on, State.reset]
theorem test_ResetCommandsBegin_met : let busy := withRegs on [(pgErr + 0x4C, 0x100)]
    Served on (pgErr + 0x48) ∧ Served busy (pgErr + 0x48) ∧ bit (rget on (pgErr + 0x4C)) 8 = false ∧ devState on = dvRunning ∧ on.stop = none ∧
    (0x03FF0001#32).toNat % 4 = 1 ∧ bits (0x03FF0001#32).toNat 25 16 = 1023 ∧ (0x003F0002#32).toNat % 4 = 2 ∧ bits (0x003F0002#32).toNat 25 16 = 63 ∧
    (0x00030003#32).toNat % 4 = 3 ∧ bits (0x00030003#32).toNat 25 16 = 3 ∧ bit (rget on (pgPwr + 0x74)) 3 = false ∧ bit (rget busy (pgErr + 0x4C)) 8 = true ∧
    bit (rget (withRegs on [(pgPwr + 0x74, 8)]) (pgPwr + 0x74)) 3 = true := by unfold Served; decide
theorem test_StopsBeginAndRun_met : Stoppable on ∧ Served on (pgErr + 8) ∧ (BitVec.ofNat 16 mHost).toNat = mHost ∧ devState on = dvRunning ∧ keeperRuns on = true := by unfold Stoppable Served; decide

/-- A stop at a stage, by cause 4. -/
def stopAt (stage : Nat) (only : Bool) : StopRun := ⟨4, 3, 0, stFailedDevice, 0, 4, stage, 0, 0, false, only, [], [], []⟩
def stopping (stage : Nat) (only : Bool) : State := { on with stop := some (stopAt stage only) }
theorem test_StopsBeginAndRun_stages_met : ∀ n ∈ [0, 1, 2], (stopping n false).cold = false ∧ (stopping n false).trained = true ∧ (stopping n false).stop = some (stopAt n false) ∧
    (stopAt n false).stage = n := by decide
theorem test_DumpsAreWrittenAndCopied_met : (stopping 3 false).cold = false ∧ (stopAt 3 false).stage = 3 ∧ journalOnly (stopping 3 false) (stopAt 3 false) = false ∧
    journalOnly (stopping 3 true) (stopAt 3 true) = true ∧ (stopAt 4 false).stage = 4 ∧ journalOnly (stopping 4 false) (stopAt 4 false) = false ∧
    bit (rget (stopping 4 false) (pgDmp + 0xC)) 2 = false ∧ rbits (stopping 4 false) (pgDmp + 0x4C) 15 8 = 0 := by decide
/-- The journal waits to write, with usable energy below a reserve where `low`. -/
def writing (w : JWork) (us : List Update) (low : Bool) : State :=
  withRegs { on with jnl := { jnlInit with work := [w], updates := us }, power := { on.power with cap := 20000 } } [(pgPwr + 0x48, if low then 0xFFFF0000 else 0)]
theorem test_FlashWritesKeepTheReserve_stripe_met : let w : JWork := ⟨.stripe 1, 0, [], 0, 0, 0, 0⟩
    let u : Update := ⟨1, 4, 3, 0, 0, false⟩
    (∀ low : Bool, (writing w [u] low).jnl.work = w :: [] ∧ (writing w [u] low).jnl.updates.find? (fun u => u.seq == 1) = some u ∧ inWindow (writing w [u] low) (u.first + u.done) = false ∧
      reserveOk (writing w [u] low) = !low) ∧ inWindow { writing w [u] false with wins := [(0, 4, 1)] } (u.first + u.done) = true ∧
    (u.done + 1) % 64 ≠ 0 ∧ u.done + 1 ≠ u.count ∧ u.cmd = false := by decide
theorem test_FlashWritesKeepTheReserve_record_met : let w : JWork := ⟨.accept, 0x10000000, List.replicate 0x100001 0#8, 0, 1, 1, 64⟩
    (writing w [] false).jnl.work = w :: [] ∧ (∀ q, w.what ≠ .stripe q) ∧ (∀ q, w.what ≠ .dump q) ∧ w.done + 0x100000 < w.bytes.length := by
  refine ⟨rfl, ?_, ?_, by rw [List.length_replicate]; decide⟩ <;> intro q h <;> cases h
theorem test_FlashWritesKeepTheReserve_append_met : let busy := withRegs on [(pgPwr + 0x6C, 0x100)]
    let odd := withRegs on [(pgPwr + 0x60, 1)]
    Served on (pgPwr + 0x68) ∧ Served busy (pgPwr + 0x68) ∧ Served odd (pgPwr + 0x68) ∧ bit (1#32).toNat 0 = true ∧ bit (rget busy (pgPwr + 0x6C)) 8 = true ∧
    bit (rget odd (pgPwr + 0x6C)) 8 = false ∧ odd.stop = none ∧ dvHeld ≤ devState odd ∧ devState odd ≤ dvRunning ∧ jsrc odd % 4096 ≠ 0 := by unfold Served; decide

/-! ### Registers, mailboxes, partitions -/

theorem test_RegisterFieldsFollowTheirCodes_met : Served on (pgErr + 0x44) ∧ (pgErr + 0x44) % 4 = 0 ∧ pageOf (pgErr + 0x44) = some (.err, 0) ∧
    (findReg .err ((pgErr + 0x44) % 0x1000)).isSome = true ∧ pairOf .err ((pgErr + 0x44) % 0x1000) = none ∧
    headerWrite on (pgErr + 0x44 - (pgErr + 0x44) % 0x1000) ((pgErr + 0x44) % 0x1000) 5 = none ∧
    chipWrite on mHost .err 0 ((pgErr + 0x44) % 0x1000) 5 = none ∧ unitWrite on .err 0 ((pgErr + 0x44) % 0x1000) 5 = none := by unfold Served; decide
theorem test_AccessesAct_met : Served on (pgCfg + 0x60) ∧ (pgCfg + 0x60) % 4 = 0 ∧ pageOf (pgCfg + 0x60) = some (.cfg, 0) ∧
    pairOf .cfg ((pgCfg + 0x60) % 0x1000) = some ((pgCfg + 0x60) % 0x1000) := by unfold Served; decide
/-- Channel `c` between the host and the Keeper, with `st` in its status register. -/
def bound (c st : Nat) : State := withRegs on [(pgMbx c + 0x40, 0xF0000000), (pgMbx c + 0xC, st)]
theorem test_ChannelsPassMessages_met : MbxServed (bound 59 0) mHost 59 ∧ mbxState (bound 59 0) 59 = 0 ∧
    MbxServed (bound 59 1) mHost 59 ∧ mbxState (bound 59 1) 59 = 1 ∧ mbxHolds (bound 59 1) mHost 59 = true ∧
    MbxServed (bound 59 2) mKeeper 59 ∧ mbxState (bound 59 2) 59 = 2 ∧ mbxHolds (bound 59 2) mKeeper 59 = false := by unfold MbxServed PartServed Served; decide
theorem test_QueuesPassWords_met : ∀ n ∈ [0, 31, 32], let s := { bound 63 0 with mbxq := [(63, ⟨List.replicate n 1, List.replicate (32 - n) 7⟩)] }
    MbxServed s mHost 63 ∧ (mbxA s 63 == mHost) = true ∧ (mbxqGet s 63).ab.length = n ∧ (mbxqGet s 63).ba.length = 32 - n := by
  intro n hn; fin_cases hn <;> unfold MbxServed PartServed Served <;> decide
theorem test_BindingsAndDomains_met : let l := withRegs on [(pgDbl + 0x40, 1)]
    Served on (pgMbx 63 + 0x40) ∧ (BitVec.ofNat 16 mKeeper).toNat = mKeeper ∧ dblLocked on = false ∧ bindOk on 63 0xF0000000 = true ∧ bindOk on 63 0 = false ∧
    Served l (pgMbx 63 + 0x40) ∧ dblLocked l = true ∧ 0xF0000000 ≠ rget l (pgMbx 63 + 0x40) ∧ Served on (pgDbl + 0x40) ∧ domainOff on 0x1001 = true := by unfold Served; decide

theorem test_PrtCommandsAreRefused_met : let busy := withRegs on [(pgPrt + 0xC, 1)]
    let s := withRegs owned [(pgPrt + 0x40, 1023)]
    Served busy (pgPrt + 0x44) ∧ bit (rget busy (pgPrt + 0xC)) 0 = true ∧ Served s (pgPrt + 0x44) ∧ prtTurn s = true ∧
    (partGet s (rbits s (pgPrt + 0x40) 9 0)).st = 2 := by unfold Served; decide
theorem test_PartitionsAreMadeStoppedAndReset_met : let s := withRegs owned [(pgPrt + 0x40, 1023)]
    let t := withRegs on [(pgPrt + 0x40, 1023)]
    Served s (pgPrt + 0x44) ∧ Served t (pgPrt + 0x44) ∧ prtTurn s = true ∧ prtTurn t = true ∧ (partGet s (rbits s (pgPrt + 0x40) 9 0)).st = 2 ∧
    (partGet t (rbits t (pgPrt + 0x40) 9 0)).st = 0 ∧ s.cold = false ∧ s.stop = none ∧
    createFail s (rbits s (pgPrt + 0x40) 9 0) (stagedPart s) (rbits s (pgPrt + 0x50) 16 8) = some (stFailedOperand, dPtState) := by unfold Served; decide
theorem test_PartitionsAreMadeStoppedAndReset_create_met : let s := withRegs on [(pgPrt + 0x40, 1023), (pgPrt + 0x17C, 2147483648)]
    prtTurn s = true ∧ createFail s (rbits s (pgPrt + 0x40) 9 0) (stagedPart s) (rbits s (pgPrt + 0x50) 16 8) = none ∧ (stagedPart s).cells = [1023] := by decide +kernel
/-- Partition 1023 in a reset whose stop and cancel stage has run or not. -/
def resetting (st : Nat) (stopped : Bool) : State := { on with parts := [(1023, { part1 with st := st, rst := some ⟨2, 0, 0, stopped, false, List.replicate 9 0⟩ })] }
theorem test_PartitionsAreMadeStoppedAndReset_stages_met : ∀ st ∈ [3, 4], ∀ b : Bool, let s := resetting st b
    s.cold = false ∧ s.stop = none ∧ (partGet s 1023).rst = some ⟨2, 0, 0, b, false, List.replicate 9 0⟩ ∧ (partGet s 1023).st = st ∧
    s.barges.any (fun b => b.part == 1023) = false ∧ (partGet s 1023).cells.all (cellDrained s) = true ∧ (∀ c ∈ (partGet s 1023).cells, c < 1024) := by decide

/-! ### The host's queues, commands and windows -/

/-- `owned` with both queues 15 of partition 1023 enabled at 64 entries, and registers. -/
def queued (l : List (Nat × Nat)) : State :=
  withRegs owned (l ++ [(sqReg 1023 15 8, 0x61), (sqReg 1023 15 0x10, 0x1000), (cqReg 1023 15 8, 0x61), (cqReg 1023 15 0x10, 0x10000)])
theorem test_QueuesTurnAndEntriesAreFetched_rings_met : let s := queued []
    s.cold = false ∧ PartServed s 1023 ∧ sqState s 1023 15 = 1 ∧ (63#32).toNat < sqSize s 1023 15 ∧ sqSize s 1023 15 ≤ 4096 ∧ rget s (sqTail 1023 15) < sqSize s 1023 15 ∧
    (63#32).toNat ≠ rget s (sqTail 1023 15) ∧ sqSize s 1023 15 ≤ (64#32).toNat ∧ cqState s 1023 15 = 1 ∧ 0 < cqSize s 1023 15 ∧
    (0 + cqSize s 1023 15 - rget s (cqHead 1023 15) % cqSize s 1023 15) % cqSize s 1023 15 ≤ cqUnread s 1023 15 := by unfold PartServed; decide
theorem test_QueuesTurnAndEntriesAreFetched_enables_met : PartServed owned 1023 ∧ sqState owned 1023 15 = 0 ∧ cqState owned 1023 15 = 0 ∧ bit (0xC1#32).toNat 0 = true ∧
    6 ≤ bits (0xC1#32).toNat 7 4 ∧ bits (0xC1#32).toNat 7 4 ≤ 12 ∧ rget owned (sqReg 1023 15 0) % 4096 = 0 ∧ rget owned (cqReg 1023 15 0) % 4096 = 0 ∧
    bit (0#32).toNat 0 = false := by unfold PartServed; decide
theorem test_QueuesTurnAndEntriesAreFetched_completion_met : let c : Comp := ⟨1, 15, 0, 0, 0, 0, 0⟩
    let s := { queued [] with cqs := [(1023 * 16 + 15, ⟨[c], true, [], false, 0⟩)] }
    let t := queued [(cqReg 1023 15 0xC, 0x80000001), (cqReg 1023 15 0x10, 0x10001)]
    s.pcieUp = true ∧ flrRuns s 1023 = false ∧ s.stop = none ∧ (cqGet s 1023 15).held = c :: [] ∧ cqRoom s 1023 15 = true ∧
    rbits s (cqReg 1023 15 0x10) 15 0 < cqSize s 1023 15 ∧ (cqCountDue t 1023 15 || cqTimeDue t 1023 15) = true ∧ (cqGet t 1023 15).irq = false ∧ devState t = dvRunning := by decide
/-- The bytes of a command with operand bytes `l`. -/
def entry (op : Nat) (l : List Nat) : List Byte :=
  let d : List Byte := [BitVec.ofNat 8 op, 0, 0, 0, 1, 0, 0, 0, 0, 0, 0, 0, 0, 0, 0, 0] ++ l.map (BitVec.ofNat 8)
  d ++ List.replicate (64 - d.length) 0
theorem test_QueuesTurnAndEntriesAreFetched_fetch_met : let s := { queued [(sqReg 1023 15 0x14, 0), (pgVer + 0x48, 0x10302)] with sqs := [(1023 * 16 + 15, ⟨[(0, 1)], [], []⟩)], turn := [(1023, 15)] }
    let e := entryOf (entry 0 []) 0
    s.cold = false ∧ running s = true ∧ nextTurn s = some ((1023, 15), []) ∧ (sqGet s 1023 15).vis = [(0, 1)] ∧ (sqGet s 1023 15).cancels = [] ∧
    1 ≤ (fld e 4 4 + 2 ^ 32 - rget s (sqReg 1023 15 0x14)) % 2 ^ 32 ∧ (fld e 4 4 + 2 ^ 32 - rget s (sqReg 1023 15 0x14)) % 2 ^ 32 < 2 ^ 31 ∧ headerFail s e = 0 := by decide
/-- A command of partition 1023 that starts next. -/
def cmdOf (op : Nat) (l : List Nat) : Cmd := ⟨1023, 15, 1, 0, entry op l, 0, false, [], 0, []⟩
def commanded (c : Cmd) : State := { queued [] with cmds := [c] }
theorem test_HostCommandsAct_met : (∀ c ∈ [cmdOf 0x00 [], cmdOf 0x00 [1]], Next (commanded c) 1023 15 0x00 c) ∧ operandsOk (cmdOf 0x00 []) [] = true ∧
    operandsOk (cmdOf 0x00 [1]) [] = false := by unfold Next; decide
theorem test_HostCommandsAct_copy_met : let c := cmdOf 0x01 [8, 4, 0, 0, 0, 0, 0, 0, 64]
    Next (commanded c) 1023 15 0x01 c ∧ operandsOk c [(16, 6), (24, 4), (32, 16)] = true ∧ opf c 24 4 ≠ 0 ∧ opf c 16 1 = 8 ∧ opf c 17 1 = 4 := by unfold Next; decide
theorem test_HostCommandsAct_zero_met : let c := cmdOf 0x02 [0, 4, 0, 0, 0, 0, 0, 0, 64]
    Next (commanded c) 1023 15 0x02 c ∧ operandsOk c [(17, 1), (20, 2), (24, 4), (40, 8)] = true ∧ opf c 24 4 ≠ 0 ∧ opf c 17 1 = 4 := by unfold Next; decide
theorem test_HostCommandsAct_jig_met : let c := cmdOf 0x03 [0, 0, 1]
    let s := commanded c
    Next s 1023 15 0x03 c ∧ operandsOk c [(16, 10)] = true ∧ opf c 18 2 ≠ 0 ∧ opf c 20 4 % 64 = 0 ∧ opf c 16 2 + opf c 18 2 ≤ (partGet s 1023).cells.length ∧
    (partGet s 1023).cells.Nodup := by unfold Next; decide
theorem test_HostCommandsAct_cancel_met : let c := cmdOf 0x04 [15, 0, 0, 0, 5, 0, 0, 0, 9]
    let s := commanded c
    Next s 1023 15 0x04 c ∧ operandsOk c [(16, 1), (20, 8)] = true ∧ opf c 16 1 < 16 ∧
    (∀ x ∈ sqCmds s 1023 (opf c 16 1), x.started = true ∨ (x.sq = c.sq ∧ x.seq = c.seq) ∨
        (opf c 24 4 + 2 ^ 32 - opf c 20 4) % 2 ^ 32 < (x.seq + 2 ^ 32 - opf c 20 4) % 2 ^ 32) := by unfold Next; decide
theorem test_WindowsReachMemory_met : let s := withRegs { owned with mems := memsWrite on.mems .slice 0 (List.replicate 32 1#8) } [(pgChp + 0x100, 3), (pgApCtl 1023 + 0x40, 1)]
    eccIn s noEcc = s ∧ s.cold = false ∧ devState s ≠ dvBoot ∧ bit (rget s (pgChp + 0x100)) 0 = true ∧ bit (rget s (pgChp + 0x100)) 1 = true ∧
    bits (rget s (pgChp + 0x100)) 11 2 = 0 ∧ regionDark s 0 = false ∧ firstBad s.mems .slice 0 32 = none ∧ firstNever s.mems .slice 0 32 = none ∧ 0 + 32 ≤ scratchBytes s 0 ∧
    bit (rget s (pgChp + 0x100 + 4 * 15)) 0 = false ∧ PartServed s 1023 ∧ bit (rget s (pgApCtl 1023 + 0x40)) 0 = true ∧ (partGet s 1023).cells[0]? = some 1023 ∧
    0 + 1 ≤ scratchBytes s 1023 ∧ (partGet s 1023).cells[1]? = none := by unfold PartServed; decide

/-! ### Links, frames, remote memory, collectives -/

/-- Node 3, with lane group 15 in a state, its peer node 5; partition 1023 has a granule of stack 0. -/
def linked (st : Nat) (x : Link) (l : List (Nat × Nat)) : State :=
  { queued (l ++ [(pgCol + 0x40, 3), (pgLnk 15 + 8, 1), (pgLnk 15 + 0xC, 12 + st), (pgLnk 15 + 0x40, 0x00FF7FFF), (pgLnk 15 + 0x44, 5)]) with
    links := [(15, x)], now := 100000000, parts := [(1023, { part1 with stk := [0], gran := [[0]] })] }
/-- A packet of a type from node 5 about the first 64 bytes of partition 1023, with its key. -/
def pktOf (ty : Nat) : Pkt := ⟨ty, 1, 3, 5, 1023, 0, 7, 0, 0, 64, 0, 0, 0, List.replicate 32 0#8, []⟩
/-- A packet of a type has arrived. -/
def arrived (k : Pkt) : State := linked 2 { linkInit with rx := [(k, 9, 9)] } []
/-- The arrived packet, and what it leaves. -/
def taken (k : Pkt) (P : Pkt × Nat × Nat → State → Bool) : Bool := (rxTake (arrived k) 15 (fun y => y.ty == k.ty)).elim false (fun x => P x.1 x.2)

theorem test_LinksTrainAndGoDown_down_met : let s := linked 0 linkInit []
    s.cold = false ∧ lnkState s 15 = 0 ∧ devState s = dvRunning ∧ s.stop = none ∧ optHot s 15 = false ∧ ownNode s ≠ 0x7FFF ∧ regionDark s 3 = false ∧
    Served s (pgLnk 15 + 8) ∧ bit (1#32).toNat 0 = true ∧ lnkEnabled s 15 = true ∧ 100000000 ≤ s.now - (lnkGet s 15).downAt := by unfold Served; decide
theorem test_LinksTrainAndGoDown_train_met : let s := linked 1 linkInit []
    lnkState s 15 = 1 ∧ 32767 < 2 ^ 15 ∧ 255 < 256 ∧ rbits s (pgLnk 15 + 0x40) 14 0 = 0x7FFF ∧ rbits s (pgLnk 15 + 0x40) 23 16 = 0xFF ∧ 3 ≤ 3 ∧ 15 < 16 ∧ lnkState s 15 ≠ 0 := by decide
theorem test_LinksTrainAndGoDown_up_met : let s := linked 2 { linkInit with epi := some ⟨0, [], 1⟩ } []
    lnkUp s 15 = true ∧ (lnkGet s 15).epi = some ⟨0, [], 1⟩ ∧ 20000 ≤ s.now - 0 ∧ 1000000 ≤ s.now - (lnkGet s 15).probeAt ∧
    taken (pktOf pkProbe) (fun _ _ => true) = true ∧ lnkUp (arrived (pktOf pkProbe)) 15 = true ∧
    taken (pktOf pkEcho) (fun x _ => x.1.tag == (lnkGet (arrived (pktOf pkEcho)) 15).probe && decide (x.2.2 - (lnkGet (arrived (pktOf pkEcho)) 15).probeAt ≤ 100000)) = true := by decide

/-- A packet queued at an egress for partition 1023, in a class. -/
def entOf (cls : Nat) : QEnt := ⟨pktOf pkReadRsp, 1023, cls, none⟩
theorem test_FramesAreRetried_send_met : let c := linked 2 { linkInit with ctrl := [(0, 255)] } []
    let r := linked 3 { linkInit with replay := [⟨255, 0, entOf 2⟩] } []
    let q := linked 2 { linkInit with q := [entOf 2] } []
    let p := creditPut q (lnkAddr 15 1023) (2 ^ 40)
    lnkUp c 15 = true ∧ (lnkGet c 15).ctrl = [(0, 255)] ∧ lnkUp r 15 = true ∧ (lnkGet r 15).ctrl = [] ∧ (lnkGet r 15).replay = [⟨255, 0, entOf 2⟩] ∧
    (lnkGet q 15).ctrl = [] ∧ (lnkGet q 15).replay = [] ∧ egressPick q 15 = some (entOf 2, 6) ∧ egressPick p 15 = some (entOf 2, 5) := by decide
theorem test_FramesAreRetried_receive_met : let s := linked 2 linkInit []
    (lnkGet s 15).nakked = false ∧ knownType (pktOf pkWriteReq).ty = true ∧ (lnkGet (lnkAck s 15 255) 15).expect < 256 ∧ 255 ≠ (lnkGet (lnkAck s 15 255) 15).expect ∧ 255 < 256 ∧
    ((lnkGet (lnkAck s 15 255) 15).expect + 256 - 255) % 256 < 128 ∧ ([1, 0, 0, 4] : List Nat).length = 4 ∧ (lnkGet (lnkAck s 15 255) 15).credits.length = 4 := by decide
theorem test_FramesAreRetried_replay_met : let s := linked 2 { linkInit with unacked := [⟨0, 0, entOf 2⟩] } []
    let l := linked 3 { linkInit with unacked := [⟨0, 0, entOf 2⟩], epi := some ⟨0, [0], 16⟩ } []
    (lnkGet s 15).epi = none ∧ (lnkGet s 15).unacked.filter (fun f => decide (128 ≤ ((0 + 255) % 256 + 256 - f.lseq) % 256)) ≠ [] ∧
    (lnkGet s 15).unacked = ⟨0, 0, entOf 2⟩ :: [] ∧ 2000 ≤ s.now - 0 ∧ (lnkGet l 15).unacked = ⟨0, 0, entOf 2⟩ :: [] ∧ (lnkGet l 15).epi = some ⟨0, [0], 16⟩ ∧ 2000 ≤ l.now - 0 := by decide

/-- A command that waits in `linked`. -/
def wired (c : Cmd) : State := { linked 2 linkInit [] with cmds := [c] }
theorem test_RemoteMemoryIsReached_command_met : ∀ w : Bool, let c := cmdOf (if w then 0x51 else 0x50) [5, 0, 255, 3, 7, 0, 0, 0, 64]
    let far := cmdOf (if w then 0x51 else 0x50) [6]
    Next (wired c) 1023 15 (if w then 0x51 else 0x50) c ∧ eccIn (wired c) noEcc = wired c ∧ routeTo (wired c) (opf c 16 2) = some 15 ∧
    operandsOk c [(16, 7), (24, 4), (32, 16)] = true ∧ bits (opf c 22 1) 7 1 = 0 ∧ opf c 24 4 ≠ 0 ∧ opf c 24 4 ≤ 16777216 ∧ opf c 18 2 < 1024 ∧
    (partGet (wired c) 1023).quota ≠ 0 ∧ bit (opf c 22 1) 0 = false ∧ hphys (wired c) 1023 (opf c 32 8) (opf c 24 4) ≠ none ∧
    hphys { wired c with parts := [(1023, part1)] } 1023 (opf c 32 8) (opf c 24 4) = none ∧ Next (wired far) 1023 15 (if w then 0x51 else 0x50) far ∧
    routeTo (wired far) (opf far 16 2) = none := by unfold Next; decide
theorem test_RemoteMemoryIsReached_pieces_met : let f : FabRun := ⟨0, 0, 0, false, false, 0, 0, 0, 0, 8192, 0, 1, 0, 0, none⟩
    0 < f.len ∧ f.count = 3 ∧ 1 < f.count := by decide
theorem test_RemoteMemoryIsReached_target_met : (∀ ty ∈ [pkReadReq, pkWriteReq],
      taken (pktOf ty) (fun x u => !(lnkGet u 15).blocked && !targetDenies u x.1) = true ∧
      taken { pktOf ty with key := 8 } (fun x u => !(lnkGet u 15).blocked && targetDenies u x.1) = true) ∧
    taken (pktOf pkReadReq) (fun x u => (hget u x.1.dpart x.1.addr x.1.len true).2.1 == 0) = true := by decide
theorem test_RemoteMemoryIsReached_late_met : ∀ ty ∈ [pkReadRsp, pkWriteAck, pkSlow, pkAbort],
    taken (pktOf ty) (fun x u => (u.tags.find? (fun t => t.slot == x.1.tag % 65536 && t.gen == bits x.1.tag 23 16)).isNone) = true := by decide
/-- A live tag of lane group 15, sent at 0. -/
def tag0 : Tag := ⟨0, 0, 1023, 15, 1, 0, 15, 5, 0, false, false, 0, 64, some 0, 0, false⟩
theorem test_RemoteMemoryIsReached_tag_met : ∀ st ∈ [2, 3], let s := { linked st { linkInit with rx := [(pktOf pkReadRsp, 9, 9)] } [(pgCol + 0x44, 1)] with tags := [tag0] }
    (rxTake s 15 (fun y => y.ty == pkReadRsp)).elim false (fun x => x.2.tags.find? (fun t => t.slot == x.1.1.tag % 65536 && t.gen == bits x.1.1.tag 23 16) == some tag0) = true ∧
    s.tags.find? (fun t => t.slot == 0) = some tag0 ∧ tag0.sent = some 0 ∧ 0 + colTimeout s + tag0.ext ≤ s.now ∧ lnkState s tag0.group = st := by decide

/-- A collective group 255 of nodes 3 and 4 with `areas` receive areas. -/
def grp0 (areas : Nat) : CGroup := ⟨1023, 255, false, [(3, 1023), (4, 1023)], 0, 4096, areas, 0xFF, 0xFF, [], none⟩
/-- The COL_RUN of an ALL-GATHER of one F32 element. -/
def runCmd (flags : Nat) : Cmd := cmdOf 0x53 [255, 0, 0, flags, 0, 0, 0, 0, 1, 0, 0, 0, 1, 0, 0, 0, 64]
theorem test_CollectivesRun_open_met : let c := cmdOf 0x52 [255]
    Next (eccIn (wired c) noEcc) 1023 15 0x52 c ∧ operandsOk c [(16, 2), (24, 8)] = true ∧ opf c 16 2 ≤ 255 ∧ opf c 24 8 % 64 = 0 ∧
    (∃ s1 h, hget (eccIn (wired c) noEcc) 1023 (opf c 24 8) 32 true = (s1, 0, h) ∧ fld h 6 2 ≤ 2560 ∧
      ∃ s2 b, hget s1 1023 (opf c 24 8) (32 + 4 * fld h 6 2) true = (s2, 0, b) ∧ clRecordOk s2 b = false) := by
  refine ⟨by unfold Next; decide, by decide, by decide, by decide, _, _, rfl, by decide, _, _, rfl, by decide⟩
theorem test_CollectivesRun_run_met : let s := { wired (runCmd 0) with cgroups := [grp0 1] }
    let r := colAccepted 1023 (runCmd 0) false (runGap s 1023 (grp0 1) (runCmd 0)) s.now
    Next s 1023 15 0x53 (runCmd 0) ∧ colTurn s 1023 (runCmd 0) = true ∧ grpAt (wired (runCmd 0)) 1023 (opf (runCmd 0) 16 2) = none ∧
    grpAt s 1023 (opf (runCmd 0) 16 2) = some (grp0 1) ∧ colFieldsOk s 1023 (runCmd 0) = true ∧ hphys s 1023 r.src r.srcBytes ≠ none ∧
    hphys s 1023 r.dst (r.dstBytes (grp0 1) ((grp0 1).rank (ownNode s))) ≠ none ∧
    spansMeet (r.src, r.srcBytes) (r.dst, r.dstBytes (grp0 1) ((grp0 1).rank (ownNode s))) = false := by unfold Next; decide
/-- The run of `runCmd` of group 255, accepted. -/
def ready (flags : Nat) (started : Bool) (k : Pkt) : State :=
  let c := { runCmd flags with started := true }
  { arrived k with cmds := [c], cgroups := [grp0 1], cruns := [{ colAccepted 1023 c false false 0 with started := started }] }
theorem test_CollectivesRun_start_met : ∀ fl ∈ [0, 1, 4], let g := grp0 (if fl = 4 then 0 else 1)
    let s := eccIn { ready fl false (pktOf pkColData) with cgroups := [g] } noEcc
    running s = true ∧ (runNext s 1023 255).isSome = true ∧ grpAt s 1023 255 = some g ∧ (runNext s 1023 255).elim false (fun r => (areaBad g r != 0) == (fl == 4)) = true := by decide
theorem test_CollectivesRun_packet_met : ∀ ty ∈ [pkColData, pkColAbort], ∀ ctl ∈ [2, 6], ∀ tag ∈ [0, 1],
    let k : Pkt := { pktOf ty with ctl := ctl, dst := if ctl = 6 then 4 else 3, group := 255, tag := tag, par := if tag = 0 then [9] else [] }
    let s := eccIn (ready 0 true k) noEcc
    (rxTake s 15 (fun y => y.ty == ty && colMeets s y)).isSome = true ∧ k.relay = (ctl == 6) ∧ (runAt s 1023 255).elim false (fun r => r.par != k.par && !(r.checked.contains k.src)) = true := by decide
theorem test_CollectivesRun_timeout_met : let s := { ready 0 true (pktOf pkProbe) with now := 10 ^ 15 }
    (s.cruns.find? (fun r => r.part == 1023 && r.grp == 255 && !r.reclaim && (r.started || r.gap))).elim false (fun r => r.pend.isEmpty && decide (r.since + colTimeout s + r.ext ≤ s.now)) = true := by decide
theorem test_CollectivesRun_close_met : let c := cmdOf 0x54 [255]
    let s := { wired c with cgroups := [grp0 1] }
    Next s 1023 15 0x54 c ∧ operandsOk c [(16, 2)] = true ∧ grpAt s 1023 (opf c 16 2) ≠ none ∧ s.cruns = [] := by unfold Next; decide
theorem test_CollectivesRun_reclaim_met : ∀ a ∈ [0, 1], let c := cmdOf 0x55 [255, 0, a]
    let s := { wired c with cgroups := [grp0 1] }
    Next s 1023 15 0x55 c ∧ colTurn s 1023 c = true ∧ grpAt s 1023 (opf c 16 2) = some (grp0 1) ∧ operandsOk c [(16, 4)] = true ∧ opf c 18 2 = a := by unfold Next; decide
theorem test_CollectivesRun_slices_met : 0 < 64 ∧ 268435455 < 268435456 := by decide

/-! ### The scene clock, the timetable, the tokenizer -/

theorem test_SceneClockTimetableAndTokenizer_set_met : (∀ src ∈ [0, 1, 2, 3], let s := withRegs on [(pgScl + 8, src)]
    Served s (pgScl + 0x4C) ∧ sclSrc s = src ∧ s.tts = [] ∧ s.sclTime ≤ stagedLow s mHost (pgScl + 0x48) % 2 ^ 32 + (1#32).toNat * 2 ^ 32) ∧
    (499999999 : Nat) < 1000000000 := by unfold Served; decide
theorem test_SceneClockTimetableAndTokenizer_source_met : let s := withRegs { on with scl := { on.scl with setAt := some 5 }, now := 10 ^ 10 } [(pgScl + 8, 1), (pgScl + 0xC, 2)]
    let m := withRegs (arrived (pktOf pkTime)) [(pgScl + 8, 63)]
    s.scl.setAt = some 5 ∧ ({ s with scl := { s.scl with setAt := none } }).scl.setAt = none ∧ sclSrc s = 1 ∧ sclLock s ≠ 0 ∧ sclLock s ≠ 3 ∧ 1500000000 ≤ s.now - s.scl.heard ∧
    sclSrc m = 3 ∧ sclGroup m = 15 ∧ (rxTake m 15 (fun y => y.ty == pkTime)).isSome = true := by decide
theorem test_SceneClockTimetableAndTokenizer_lock_met : let s := withRegs { on with scl := { on.scl with good := some 0 }, now := 1000000000 } [(pgScl + 8, 0x40), (pgScl + 0xC, 1)]
    s.scl.good = some 0 ∧ sclLock s = 1 ∧ 1000000000 ≤ s.now - 0 ∧ bit (rget s (pgScl + 8)) 6 = true ∧ s.scl.sentAt + 1000000 ≤ s.now := by decide
/-- An armed entry in slot 1023. -/
def ent0 (action rep : Nat) : TEnt := ⟨1023, 9, 1023, 15, 2, entry 0x65 [0, action, 0, 0, 0, 0, 0, 0, 0, 0, 0, 0, 0, 0, 0, 0, rep, 0, 0, 0, 0, 0, 0, 0, 0, 0, 1], 0, false, 0, 0, 0, 0⟩
theorem test_SceneClockTimetableAndTokenizer_arm_met : let c := cmdOf 0x65 [0, 1]
    let s := wired c
    let t := { s with tts := [ent0 1 0] }
    let f := { s with parts := [(0, { partNone with st := 2, ttRes := 1024 }), (1023, part1)] }
    Next s 1023 15 0x65 c ∧ ttArmBad s 1023 c = none ∧ s.tts = [] ∧ ttRoom s 1023 = true ∧ Next t 1023 15 0x65 c ∧ ttArmBad t 1023 c = none ∧
    (∃ e ∈ t.tts, e.part = 1023 ∧ e.tag = fld c.entry 52 4) ∧ Next f 1023 15 0x65 c ∧ ttArmBad f 1023 c = none ∧ ttRoom f 1023 = false := by unfold Next; decide
theorem test_SceneClockTimetableAndTokenizer_disarm_met : ∀ l ∈ [[], [ent0 1 0]], let c := cmdOf 0x66 []
    let s := { wired c with tts := l }
    Next s 1023 15 0x66 c ∧ operandsOk c [(16, 4)] = true ∧ (s.tts.find? (fun e => e.part == 1023 && e.tag == opf c 16 4)).isSome = !l.isEmpty := by unfold Next; decide
theorem test_SceneClockTimetableAndTokenizer_fire_met : let s := { on with tts := [ent0 0 5] }
    running s = true ∧ s.tts.find? (fun x => x.uid == 9) = some (ent0 0 5) ∧ (ent0 0 5).trig ≠ 2 ∧ (ent0 0 5).action = 0 ∧ (ent0 0 5).repeat' ≠ 0 ∧ (ent0 0 5).slot < 1024 ∧
    (partGet owned 1023).cells.Nodup := by decide
theorem test_SceneClockTimetableAndTokenizer_tokens_met : let l := cmdOf 0x69 [15]
    let t := cmdOf 0x6A [15]
    let s := eccIn { wired t with dicts := [(1023 * 16 + 15, 0)] } noEcc
    Next (eccIn (wired l) noEcc) 1023 15 0x69 l ∧ operandsOk l [(16, 1), (24, 8)] = true ∧ opf l 16 1 ≤ 15 ∧ (hget (eccIn (wired l) noEcc) 1023 0 64 true).2.1 = 0 ∧
    Next s 1023 15 0x6A t ∧ operandsOk t [(16, 1), (24, 4), (32, 20)] = true ∧ tabGet (fun _ => 2 ^ 64) (wired t).dicts (1023 * 16 + 15) = 2 ^ 64 ∧
    tabGet (fun _ => 2 ^ 64) s.dicts (1023 * 16 + 15) = 0 ∧ (hget s 1023 (opf t 32 8) (opf t 24 4) true).2.1 = 0 ∧ hphys s 1023 (opf t 40 8) (4 * opf t 48 4) ≠ none := by
  unfold Next; decide
theorem test_SceneClockTimetableAndTokenizer_longest_met : tkLongest [([1#8], 4), ([1#8, 2#8], 5)] [1#8, 2#8, 3#8] = some ([1#8, 2#8], 5) ∧ tkLongest [([1#8], 4)] [2#8] = none := by decide

/-! ### Video and alignment -/

/-- A session record of 16 by 16 samples: KIND, and the ring of 1 MiB of an encode session. -/
def vidRec (kind : Nat) : List Byte :=
  ([0x53, 0x44, 0x49, 0x56, 1, kind, 0, 8, 16, 0, 16, 0, 0, 2, 0, 0, 0, 0, 0, 0, 32, 0, 0, 0, 0, 0, 0, 0, 0, 0, 0, 0, 0, 0x10, 0, 0].map (BitVec.ofNat 8)) ++
    List.replicate 46 0#8 ++ [0x10#8] ++ List.replicate 45 0#8
/-- Session 1023 of partition 1023, its command in service, a frame in writing or none. -/
def sess0 (kind bs : Nat) (cur : Option (Nat × Nat × List Byte)) : Sess :=
  ⟨1023, 1023, vidRec kind, 0x1000, 3, 0, 0, [(15, 1)], [], [(0, 5), (1, 15)], cur, none, 0, 0, 0, false, bs, [], none, [], false⟩
theorem test_SessionsRunAndSetsAreAligned_open_met : let c := cmdOf 0x60 [255, 3, 0, 0, 0, 0, 0, 0, 64]
    let s := eccIn { wired c with mems := memsWrite on.mems .hbm 64 (vidRec 2 ++ List.replicate 128 0#8) } noEcc
    Next s 1023 15 0x60 c ∧ operandsOk c [(16, 2), (24, 8)] = true ∧ opf c 16 2 ≤ 1023 ∧ opf c 24 8 % 64 = 0 ∧ (hget s 1023 (opf c 24 8) 256 true).2.1 = 0 ∧
    vidRecordOk ((hget s 1023 (opf c 24 8) 256 true).2.2.take 128) = true ∧ vidRecordOk (List.replicate 128 0#8) = false ∧
    (let x := hget s 1023 (opf c 24 8) 256 true
     vidAreasOk x.1 1023 x.2.2 = true ∧ sessAt x.1 (opf c 16 2) = none ∧ vidOver x.1 1023 x.2.2 = false) := by unfold Next; decide +kernel
theorem test_SessionsRunAndSetsAreAligned_commands_met : (let c := cmdOf 0x61 [255, 3]
      let s := { wired c with sess := [sess0 2 0 none] }
      Next s 1023 15 0x61 c ∧ operandsOk c [(16, 2)] = true ∧ sessAt s (opf c 16 2) = some (sess0 2 0 none)) ∧
    (let c := cmdOf 0x62 [255, 3, 1, 0, 0, 0, 0, 0, 64]
      let s := { wired c with sess := [sess0 0 0 none] }
      Next s 1023 15 0x62 c ∧ operandsOk c [(16, 3), (24, 4), (32, 16)] = true ∧ opf c 18 1 ≤ 1 ∧ 1 ≤ opf c 24 4 ∧ opf c 24 4 ≤ 268435456 ∧
      sessAt s (opf c 16 2) = some (sess0 0 0 none) ∧ (sess0 0 0 none).kind = 0 ∧ (hget s 1023 (opf c 32 8) (opf c 24 4) true).2.1 = 0) := by unfold Next; decide
theorem test_SessionsRunAndSetsAreAligned_encode_met : let c := cmdOf 0x63 [255, 3]
    let s := { wired c with sess := [sess0 1 0 none] }
    Next s 1023 15 0x63 c ∧ operandsOk c [(16, 5), (32, 16)] = true ∧ opf c 18 1 ≤ 7 ∧ (if bit (opf c 18 1) 1 then opf c 19 1 < byteAt (vidRec 1) 97 else opf c 19 1 = 0) ∧
    opf c 20 1 < 2 ^ byteAt (vidRec 1) 97 ∧ sessAt s (opf c 16 2) = some (sess0 1 0 none) ∧ (sess0 1 0 none).kind = 1 ∧
    (hget s 1023 (opf c 32 8) (3 * (sess0 1 0 none).height * (sess0 1 0 none).pitch / 2) true).2.1 = 0 := by unfold Next; decide
theorem test_SessionsRunAndSetsAreAligned_mark_met : ∀ fl ∈ [0, 1], let c := cmdOf 0x64 [255, 3, fl, 0, 16]
    let s := eccIn { wired c with sess := [sess0 2 0 none] } noEcc
    Next s 1023 15 0x64 c ∧ sessAt s (opf c 16 2) = some (sess0 2 0 none) ∧ (sess0 2 0 none).kind = 2 ∧ operandsOk c [(16, 3), (20, 20)] = true ∧ opf c 18 1 = fl ∧
    opf c 20 4 ≤ (sess0 2 0 none).height ∧ opf c 24 8 = (sess0 2 0 none).f ∧ (sess0 2 0 none).l ≤ opf c 20 4 := by unfold Next; decide
theorem test_SessionsRunAndSetsAreAligned_engines_met : let c := { cmdOf 0x62 [255, 3] with started := true }
    let w := sess0 0 0 (some (0, 0, []))
    let s := { wired c with sess := [sess0 0 0 none] }
    running s = true ∧ sessAt { s with sess := [w] } 1023 = some w ∧ w.region = 3 ∧ w.kind ≠ 2 ∧ w.l < min (8 / 8 * 8) (w.height - 8) ∧
    sessAt s 1023 = some (sess0 0 0 none) ∧ (sess0 0 0 none).cur = none ∧ (sess0 0 0 none).unit s = some c ∧ (sess0 0 0 none).conceal = false ∧
    (sess0 0 0 none).f < (sess0 0 0 none).released s + (sess0 0 0 none).frames := by decide
theorem test_SessionsRunAndSetsAreAligned_chunk_met : ∀ bs ∈ [0, 0x100000], let c := { cmdOf 0x63 [255, 3] with started := true }
    let x := sess0 1 bs (some (0, 0, []))
    let s := { wired c with sess := [x] }
    x.unit s = some c ∧ x.kind = 1 ∧ x.bsWritten % max x.bsBytes 1 + 64 ≤ x.bsBytes ∧ (x.bsBytes < x.bsWritten - x.consumed s + 64 ↔ bs = 0x100000) := by decide
/-- An alignment group of session 1023 with a period of 100,000 ns. -/
def alnRec : List Byte :=
  ([0x47, 0x4E, 0x4C, 0x41, 1, 1, 0, 0, 0, 0, 0, 0, 0, 0, 0, 0, 0xA0, 0x86, 1, 0, 0, 0, 0, 0, 16, 0, 0, 0, 16, 0, 0, 0, 0, 0, 0, 0, 0, 0, 0, 0, 4, 0, 0, 0, 0, 0, 0, 0, 255, 3].map (BitVec.ofNat 8)) ++ List.replicate 78 0#8
def aln0 (part : Nat) : AGroup := ⟨63, part, alnRec, 0, 0, []⟩
theorem test_SessionsRunAndSetsAreAligned_set_commands_met : (let c := cmdOf 0x67 [63, 0, 0, 0, 0, 0, 0, 0, 64]
      let s := eccIn { wired c with mems := memsWrite on.mems .hbm 64 alnRec, sess := [sess0 2 0 none] } noEcc
      let x := hget s 1023 (opf c 24 8) 128 true
      Next s 1023 15 0x67 c ∧ operandsOk c [(16, 2), (24, 8)] = true ∧ opf c 16 2 ≤ 63 ∧ x.2.1 = 0 ∧ alnRecordOk x.1 1023 x.2.2 = true ∧ alnRecordOk s 1023 [] = false ∧
      hphys x.1 1023 (fld x.2.2 32 8) (256 * fld x.2.2 40 4) ≠ none ∧ alnAt x.1 (opf c 16 2) = none) ∧
    (let c := cmdOf 0x68 [63]
      let s := { wired c with aligns := [aln0 1023] }
      Next s 1023 15 0x68 c ∧ operandsOk c [(16, 2)] = true ∧ alnAt s (opf c 16 2) = some (aln0 1023) ∧ alnAt (wired c) (opf c 16 2) = none) := by unfold Next; decide +kernel
theorem test_SessionsRunAndSetsAreAligned_set_release_met : let s := { on with aligns := [aln0 1023], sess := [sess0 2 0 none], sclTime := 10 ^ 6 }
    alnAt s 63 = some (aln0 1023) ∧ (aln0 1023).tick (aln0 1023).k + (aln0 1023).window ≤ sceneNow s ∧ memberFrame s (aln0 1023) 10 1023 = some (0, 5) ∧
    (∃ j, j < (aln0 1023).n ∧ memberFrame { s with sess := [] } (aln0 1023) ((aln0 1023).tick (aln0 1023).k) ((aln0 1023).members.getD j 0) = none) := by
  exact ⟨by decide, by decide, by decide, 0, by decide, by decide⟩

/-! ### Rollouts -/

/-- A rollout with its ring of `n` notices, four sequences at most. -/
def roll0 (n : Nat) (seqs : List (Nat × SeqRec)) (step : Option StepRun) (nq : List (Nat × Nat × Nat × Nat)) : Roll :=
  ⟨List.replicate 48 0#8 ++ leBytes 4 n ++ leBytes 4 4 ++ List.replicate 72 0#8, [], [], seqs, 0, 0, 0, step, none, [], [], nq, 0, 0, 0, 0⟩
def live (idle : Bool) : SeqRec := ⟨0, 0, idle, false, false, false, true, .fresh, 0, 0, 0⟩
def rolling (c : Cmd) (r : Roll) : State := eccIn { wired c with rolls := [(1023, some r)] } noEcc
theorem test_RolloutsRun_next_met : ∀ op ∈ [0x41, 0x42, 0x43, 0x44, 0x45, 0x46, 0x47], let c := cmdOf op []
    let s := rolling c (roll0 1 [] none [])
    seqNext s 1023 = some c ∧ cmdOp c = op ∧ seqOperandsOk c = true ∧ rollGet s 1023 = some (roll0 1 [] none []) := by decide
theorem test_RolloutsRun_open_met : let c := cmdOf 0x40 []
    seqNext (wired c) 1023 = some c ∧ cmdOp c = 0x40 ∧ seqOperandsOk c = true ∧ seqOperandsOk (cmdOf 0x41 [1]) = false ∧ seqNext (wired (cmdOf 0x41 [1])) 1023 = some (cmdOf 0x41 [1]) := by decide
theorem test_RolloutsRun_ids_met : let e := roll0 1 [] none []
    let f := roll0 1 [(1048575, live false)] none []
    let j := cmdOf 0x42 [255, 255, 15, 0, 15, 1]
    e.seqs = [] ∧ opf j 20 1 ≤ 15 ∧ opf j 21 1 ≤ 1 ∧ opf j 24 4 = 0 ∧ opf j 16 4 = 1048575 ∧ seqRange e (opf j 16 4) = true ∧ e.seqAt (opf j 16 4) = none ∧ e.seqs.length < e.maxLive ∧ e.kv = none ∧
    seqRange f (opf j 16 4) = true ∧ (f.seqAt (opf j 16 4)).isSome = true ∧
    (let c := cmdOf 0x47 [255, 255, 15, 0, 15, 4]
     opf c 20 1 ≤ 15 ∧ (f.seqAt (opf c 16 4)).isSome = true ∧ bit (opf c 21 1) 1 = false ∧ bit (opf c 21 1) 2 = true) := by decide
theorem test_RolloutsRun_step_met : ∀ idle : Bool, let c := cmdOf 0x46 [0xFF]
    let s := rolling c (roll0 1 [(0, live idle)] none [])
    seqNext s 1023 = some c ∧ seqOperandsOk c = true ∧ opf c 16 1 = 0xFF ∧ opf c 18 2 ≤ 4096 ∧
    (match (stepReserve 1023 1 0xFF 4096).exec s with
      | (.ok (_, batch, _), y) => batch.isEmpty == idle && (match (stepPrepare 1023 1 batch).exec y with
        | (.ok _, _) => true
        | _ => false)
      | _ => false) = true := by decide
theorem test_RolloutsRun_run_met : let h := roll0 1 [] (some ⟨15, 1, 1, [0], 0, some 0, [], []⟩) []
    let g := roll0 1 [] (some ⟨15, 1, 1, [0], 0, none, [1023], [(1023, 0)]⟩) []
    let c := cmdOf 0x46 []
    rollGet (rolling c h) 1023 = some h ∧ fld h.record 6 2 * 1000 ≤ (rolling c h).now - 0 ∧ (partGet (rolling c h) 1023).cells.Nodup ∧ rollGet (rolling c g) 1023 = some g ∧
    (∀ c ∈ [1023], ∃ x ∈ [(1023, 0)], x.1 = c) ∧ (∃ x ∈ [(1023, 4)], x.2 ≠ 0) := by
  refine ⟨by decide, by decide, by decide, by decide, by decide, ?_⟩
  exact ⟨(1023, 4), by decide, by decide⟩
theorem test_RolloutsRun_notice_met : ∀ n ∈ [0, 1], let r := roll0 n [] none [(0, 2, 0, 1)]
    rollGet (rolling (cmdOf 0x46 []) r) 1023 = some r ∧ noticeRoom (rolling (cmdOf 0x46 []) r) 1023 r = (n == 1) := by decide

/-! ### Boot, versions, configuration, images, memories -/

/-- The module in a device state. -/
def dev (n : Nat) (l : List (Nat × Nat)) : State := withRegs on (l ++ [(pgChp + 0x40, n)])
theorem test_BootReachesHeld_met : (dev 1 []).cold = false ∧ devState (dev 1 []) = dvBoot ∧ (dev 1 []).stop = none ∧ keeperRuns on = true ∧
    keeperRuns (withRegs on [(pgKpr + 0xC, 0)]) = false ∧
    (let s := dev 4 [(pgCfg + 0x60, 64)]
     s.cold = false ∧ devState s ≠ dvBoot ∧ rget64 s (pgCfg + 0x60) ≠ 0 ∧ s.pcieUp = true ∧ s.sblk.1.take 4 ≠ blockKey s) := by decide
theorem test_RecordWindowIsWritten_met : Served (dev 2 []) (pgCfg + 0x40) ∧ devState (dev 2 []) = dvHeld ∧ Served (dev 3 []) (pgCfg + 0x40) ∧ devState (dev 3 []) ≠ dvHeld := by
  unfold Served; decide
theorem test_ConfigurationRunsAndImagesAreTaken_held_met : Served (dev 2 []) (pgCfg + 0x40) ∧ configLocked (dev 2 []) = false ∧ devState (dev 2 []) = dvHeld ∧ (rget (dev 2 []) (pgCfg + 0xC)).testBit 0 = false ∧
    (dev 2 []).stop = none ∧ commitCheck (dev 2 []) (windowRecord (dev 2 [])) = (hIncomplete, 0) ∧ Served (dev 3 []) (pgCfg + 0x40) ∧ devState (dev 3 []) = dvConfigured := by unfold Served; decide +kernel
/-- HELD with a whole record in the window: node 3, COL_TIMEOUT of 100 µs, RESERVE_MJ of 4,000, no channel bound; its CRC-32C worked out apart. -/
def recorded (held : Nat) : State :=
  dev 2 (([0x43464752, 1, 304, 1, 0, 0, 0, 0x146d0605, 3, 100, 4000, 0, 0xFFFFFFFF, 0xFFFFFFFF, 0, 0] ++ List.replicate 60 0xFFFFFFFF).zipIdx.map (fun (x : Nat × Nat) => (pgCfg + 0x100 + 4 * x.2, x.1)) ++
    [(pgCfg + 0x80, 0xFFFFFFFF), (pgCfg + 0x84, 0xFFFFFFFF), (pgCfg + 0x88, 0xFFFFFFFF), (pgVer + 0x48, 0x10302), (pgCfg + 0x48, held)])
/-- The 300 bytes that the record's CRC-32C covers, in pieces. -/
def covered : List (List Byte) := [[82#8, 71, 70, 67, 1, 0, 0, 0, 48, 1, 0, 0, 1, 0, 0, 0, 0, 0, 0, 0, 0, 0, 0, 0, 0, 0, 0, 0, 3, 0], [0#8, 0, 100, 0, 0, 0, 160, 15, 0, 0, 0, 0, 0, 0, 255, 255, 255, 255, 255, 255, 255, 255, 0, 0, 0, 0, 0, 0, 0, 0]] ++ List.replicate 8 (List.replicate 30 0xFF#8)
theorem test_covered_crc : crc32c covered.flatten = 0x146d0605 := by
  have h0 : List.foldl crcByte 4294967295 [82#8, 71, 70, 67, 1, 0, 0, 0, 48, 1, 0, 0, 1, 0, 0, 0, 0, 0, 0, 0, 0, 0, 0, 0, 0, 0, 0, 0, 3, 0] = 1856924874 := by decide +kernel
  have h1 : List.foldl crcByte 1856924874 [0#8, 0, 100, 0, 0, 0, 160, 15, 0, 0, 0, 0, 0, 0, 255, 255, 255, 255, 255, 255, 255, 255, 0, 0, 0, 0, 0, 0, 0, 0] = 347475763 := by decide +kernel
  have h2 : List.foldl crcByte 347475763 (List.replicate 30 0xFF#8) = 675768776 := by decide +kernel
  have h3 : List.foldl crcByte 675768776 (List.replicate 30 0xFF#8) = 1572167879 := by decide +kernel
  have h4 : List.foldl crcByte 1572167879 (List.replicate 30 0xFF#8) = 1128472013 := by decide +kernel
  have h5 : List.foldl crcByte 1128472013 (List.replicate 30 0xFF#8) = 2404503261 := by decide +kernel
  have h6 : List.foldl crcByte 2404503261 (List.replicate 30 0xFF#8) = 1636127458 := by decide +kernel
  have h7 : List.foldl crcByte 1636127458 (List.replicate 30 0xFF#8) = 356465611 := by decide +kernel
  have h8 : List.foldl crcByte 356465611 (List.replicate 30 0xFF#8) = 1066608251 := by decide +kernel
  have h9 : List.foldl crcByte 1066608251 (List.replicate 30 0xFF#8) = 3952278010 := by decide +kernel
  have e : covered.flatten = [82#8, 71, 70, 67, 1, 0, 0, 0, 48, 1, 0, 0, 1, 0, 0, 0, 0, 0, 0, 0, 0, 0, 0, 0, 0, 0, 0, 0, 3, 0] ++ ([0#8, 0, 100, 0, 0, 0, 160, 15, 0, 0, 0, 0, 0, 0, 255, 255, 255, 255, 255, 255, 255, 255, 0, 0, 0, 0, 0, 0, 0, 0] ++ ((List.replicate 30 0xFF#8) ++ ((List.replicate 30 0xFF#8) ++ ((List.replicate 30 0xFF#8) ++ ((List.replicate 30 0xFF#8) ++ ((List.replicate 30 0xFF#8) ++ ((List.replicate 30 0xFF#8) ++ ((List.replicate 30 0xFF#8) ++ ((List.replicate 30 0xFF#8)))))))))) := by decide +kernel
  rw [e, crc32c]
  simp only [List.foldl_append, h0, h1, h2, h3, h4, h5, h6, h7, h8, h9]
  decide
theorem test_ConfigurationRunsAndImagesAreTaken_commit_met : ∀ held ∈ [1, 0x41], let s := recorded held
    commitCheck s (windowRecord s) = (0, 0) ∧ (reasons s &&& 0xFC0 = 0 ↔ held = 1) ∧ devState s = dvHeld ∧ s.stop = none := by
  intro held hh
  have hc : (windowRecord (recorded held)).take 28 ++ (windowRecord (recorded held)).drop 32 = covered.flatten := by fin_cases hh <;> decide +kernel
  refine ⟨?_, by fin_cases hh <;> decide +kernel, by fin_cases hh <;> decide +kernel, rfl⟩
  have h1 : unwritten (recorded held) [0, 1, 2] = none := by fin_cases hh <;> decide +kernel
  have h2 : unwritten (recorded held) (List.range 76) = none := by fin_cases hh <;> decide +kernel
  have h3 : fld (windowRecord (recorded held)) 0 4 = 0x43464752 ∧ fld (windowRecord (recorded held)) 4 2 = 1 ∧ fld (windowRecord (recorded held)) 8 4 = 304 ∧
      fld (windowRecord (recorded held)) 28 4 = 0x146d0605 ∧ ¬ fld (windowRecord (recorded held)) 12 4 ≤ rget (recorded held) (pgCfg + 0x4C) ∧
      (recFields (recorded held) (windowRecord (recorded held))).find? (fun x => !x.2) = none ∧ bit (rget (recorded held) (pgVer + 0x48)) 16 = true := by
    fin_cases hh <;> decide +kernel
  obtain ⟨a, b, c, d, e, f, g⟩ := h3
  simp [commitCheck, h1, h2, a, b, c, d, e, f, g, hc, test_covered_crc]
theorem test_ConfigurationRunsAndImagesAreTaken_accept_met : (let s := dev 2 [(pgCfg + 0x48, 0x40), (pgCfg + 0x50, 5)]
      Served s (pgCfg + 0x40) ∧ bit (reasons s) 6 = true ∧ (5#32).toNat = rget s (pgCfg + 0x50) ∧ rget s (pgCfg + 0x58) ≠ 1 ∧ (6#32).toNat ≠ rget s (pgCfg + 0x50) ∧
      (logPlace (recSlot (padded (pairBytes s ++ leBytes 4 (rget s (pgCfg + 0x50)))).length) s.jnl.recs.length s).2.isSome = true) ∧
    (∀ r ∈ [0x40, 0x41], let s := { dev 2 [(pgCfg + 0x48, r), (pgCfg + 0x58, 1)] with heldRec := some [] }
      rget s (pgCfg + 0x58) = 1 ∧ s.jnl.work = [] ∧ (reasons s &&& 0xFBF = 0 ↔ r = 0x40) ∧ devState s = dvHeld ∧ s.stop = none ∧ s.heldRec = some []) := by unfold Served; decide
theorem test_ConfigurationRunsAndImagesAreTaken_image_met : let s := dev 2 []
    devState s = dvHeld ∧ imgVerify s.fuses [1, 2] (hbmImage s (rget64 s (pgCfg + 0x68))).2 ≠ 0 ∧ devState (dev 3 []) ≠ dvHeld := by decide +kernel
theorem test_MemoriesReadBack_met : memsWf on.mems = true ∧ 31 / 32 < 32 / 32 ∧ (32 + [1#8].length - 1) / 32 < 64 / 32 ∧ Space.hbm ≠ Space.slc := by decide

/-! ### Worked examples of the manual -/

/-- After R12: cell 2.13.7 is 727; its CEL page lies at 0x0DCB_0000, its error page at 0x0DCB_8000. -/
theorem test_example_cell_pages : pgCel 727 = 0x0DCB0000 ∧ pgCelErr 727 = 0x0DCB8000 ∧ pageOf 0x0DCB8000 = some (.celErr, 727) := by decide
/-- The codes of E4M3 and E5M2 by their values (R39). -/
theorem test_example_fp8_codes : encodePlain .e4m3 (.fin false 3 0) = (0x44, 0) ∧ encodePlain .e4m3 (.fin true 5 (-1)) = (0xC2, 0) ∧
    encodePlain .e4m3 (.fin false 448 0) = (0x7E, 0) ∧ encodePlain .e5m2 (.fin false 57344 0) = (0x7B, 0) ∧ decodeFmt .e5m2 0x7C = .inf false := by decide
/-- 3.3 converts to E4M3 as 3.25; 470 saturates and raises SAT_E4M3 (R43). -/
theorem test_example_fp8_rounds : encodePlain .e4m3 (val32 0x40533333) = (0x45, 0) ∧ encodePlain .e4m3 (.fin false 470 0) = (0x7E, evSatE4M3) := by decide
/-- Partition address 0x5010 over the stack set {4, 5} (R287): stack 5, byte 0x2010 of the granule. -/
theorem test_example_hbm_address : ({ part1 with stk := [4, 5], gran := [[0], [0]] } : Part).xlate 0x5010 = some (hbmPhys 5 0 0x2010) := by decide
/-- A window at stripe 1,000,000: weight address 0x21_0010 reads byte 16 of stripe 1,000,033 (R302). -/
theorem test_example_weight_address : tierAddr { on with wins := [(1023, 1000000, 64)] } 1023 0x210010 1 = some (1000033 * 65536 + 16) := by decide
/-- The recurrence example of R211: fp32_fma(0.75, 1.0, 0.5) = 1.25, and 1.25 × 0.5 = 0.625 in BF16. -/
theorem test_example_recurrence : ffma 0x3F400000 0x3F800000 0x3F000000 = 0x3FA00000 ∧ encodePlain .bf16 (val32 (fmul 0x3FA00000 0x3F000000)) = (0x3F20, 0) := by decide
/-- The MXFP8 chunk of the example at R52: 2^24 + 1 − 2^24 is 1, summed exactly. -/
theorem test_example_mx_chunk : (chunkResult 0x12 0x12 96 0 (fun _ => true) (fun k => if k = 0 then 0x78 else if k = 32 then 0x38 else if k = 64 then 0xF8 else 0) (fun _ => 0x38)
    (fun j => if j = 1 then 0x7F else 0x8F) (fun _ => 0x7F) 0x7F 0x7F).1 = 0x3F800000 := by decide

end Sys2Proof.Tests
end

/-! ### PRT commands in and out of their turn (R420) -/

namespace Sys2Proof.Machine

/-- R477: a PRT command whose write is served acts at once. -/
theorem awake_prtWrite_served {s : State} (h : Served s (pgPrt + 0x44)) (m d : Nat) (f : State → State) :
    awake s (fun t => pfWrite t m (pgPrt + 0x44) d f) = within s (f s) := by
  rw [awake_on h.1, pfWrite_served h]

theorem exec_prtCreate_served {s : State} (h : Served s (pgPrt + 0x44)) (m : Half) :
    exec (.prtCreate m) s = .next (within s (prtCreate s)) :=
  congrArg Host.Outcome.next (awake_prtWrite_served h m.toNat 1 prtCreate)

theorem exec_prtDestroy_served {s : State} (h : Served s (pgPrt + 0x44)) (m : Half) :
    exec (.prtDestroy m) s = .next (within s (prtStop s 3)) :=
  congrArg Host.Outcome.next (awake_prtWrite_served h m.toNat 2 (prtStop · 3))

theorem exec_prtReset_served {s : State} (h : Served s (pgPrt + 0x44)) (m : Half) :
    exec (.prtReset m) s = .next (within s (prtStop s 2)) :=
  congrArg Host.Outcome.next (awake_prtWrite_served h m.toNat 3 (prtStop · 2))

/-- R420: the two reasons for which the spec has a PRT command ignored. -/
theorem prtTurn_eq_false {s : State}
    (h : bit (rget s (pgPrt + 0xC)) 0 = true ∨ (devState s ≠ dvConfigured ∧ devState s ≠ dvRunning)) : prtTurn s = false := by
  unfold prtTurn
  rcases h with busy | ⟨notConfigured, notRunning⟩
  · simp [busy]
  · simp [notConfigured, notRunning]

theorem prtCreate_refused {s : State} (h : prtTurn s = false) : prtCreate s = raise s pgPrt 2 := by
  simp [prtCreate, h]

theorem prtStop_refused {s : State} (h : prtTurn s = false) (cause : Nat) : prtStop s cause = raise s pgPrt 2 := by
  simp [prtStop, h]

/-- R420: CMD_REFUSED is all that a refused PRT command leaves. -/
theorem prtRefusal_spec (s : State) :
    Touches [pgPrt + 0x10] s (within s (raise s pgPrt 2)) ∧ (rget (within s (raise s pgPrt 2)) (pgPrt + 0x10)).testBit 1 = true ∧
    rget (within s (raise s pgPrt 2)) (pgPrt + 0x48) = rget s (pgPrt + 0x48) := by
  have refusal : Touches [pgPrt + 0x10] s (raise s pgPrt 2) := touches_raise s 2 (by simp)
  rw [within_touches refusal]
  exact ⟨refusal, raise_bit s pgPrt 2 1 (by decide) (by decide) (by decide) (by decide),
    refusal.2 _ (by decide) (by decide) (by decide)⟩

/-- R430: the start of a partition's reset writes no register. -/
theorem startReset_regs (s : State) (p cause : Nat) : (startReset s p cause).regs = s.regs := by
  unfold startReset
  dsimp only
  split
  · rfl
  · split <;> rfl

/-- R419, R430: in its turn, DESTROY or RESET of a partition that exists sets BUSY before the reset starts. -/
theorem prtStop_busy {s : State} (turn : prtTurn s = true) (lives : (partGet s (rbits s (pgPrt + 0x40) 9 0)).st ≠ 0) (cause : Nat) :
    rget (prtStop s cause) (pgPrt + 0xC) = 1 := by
  unfold prtStop
  dsimp only
  rw [if_neg (by simp [turn]), if_neg lives, rget_congr (startReset_regs _ _ _), rget_rset_same, Nat.mod_eq_of_lt (by decide)]

/-- Settles O45: out of its turn each command only raises CMD_REFUSED; in its turn a DESTROY or RESET of an ACTIVE partition sets BUSY. -/
theorem prtCommandsAreRefused : Obligations.PrtCommandsAreRefused := by
  unfold Obligations.PrtCommandsAreRefused
  intro s m served
  refine ⟨fun refused => ?_, fun turn active => ?_⟩
  · have noTurn := prtTurn_eq_false refused
    have spec := prtRefusal_spec s
    simp only [List.forall_mem_cons]
    refine ⟨⟨_, exec_prtCreate_served served m, ?_⟩, ⟨_, exec_prtDestroy_served served m, ?_⟩,
      ⟨_, exec_prtReset_served served m, ?_⟩, by simp⟩
    · rwa [prtCreate_refused noTurn]
    · rwa [prtStop_refused noTurn]
    · rwa [prtStop_refused noTurn]
  · have busy (cause : Nat) : bit (rget (within s (prtStop s cause)) (pgPrt + 0xC)) 0 = true := by
      rw [rget_within, prtStop_busy turn (by simp [active])]; decide
    simp only [List.forall_mem_cons]
    exact ⟨⟨_, exec_prtDestroy_served served m, busy 3⟩, ⟨_, exec_prtReset_served served m, busy 2⟩, by simp⟩

end Sys2Proof.Machine

/-! ### Words through the queues of channels 60 to 63 (R467) -/

namespace Sys2Proof.Machine

/-- R467: the queue of channel `c` that a push by master `m` joins. -/
def mbxOut (s : State) (m c : Nat) : List Nat := if mbxA s c == m then (mbxqGet s c).ab else (mbxqGet s c).ba

/-- R467: the queue of channel `c` towards master `m`. -/
def mbxIn (s : State) (m c : Nat) : List Nat := if mbxA s c == m then (mbxqGet s c).ba else (mbxqGet s c).ab

/-- The queues of channel `c` with the queue that `m` pushes to replaced by `l`. -/
def mbxWithOut (s : State) (m c : Nat) (l : List Nat) : MbxQ :=
  if mbxA s c == m then { mbxqGet s c with ab := l } else { mbxqGet s c with ba := l }

/-- The queues of channel `c` with the queue towards `m` replaced by `l`. -/
def mbxWithIn (s : State) (m c : Nat) (l : List Nat) : MbxQ :=
  if mbxA s c == m then { mbxqGet s c with ba := l } else { mbxqGet s c with ab := l }

/-- R467: the word `v` behind those that `m` has pushed. -/
def mbxQueued (s : State) (m c v : Nat) : State := mbxqPut s c (mbxWithOut s m c (mbxOut s m c ++ [v]))

/-- R467, R468: the push of `v` by `m`, with the other master's doorbell where the queue was empty; PUSHED is still to be raised. -/
def mbxRung (s : State) (m c v : Nat) : State :=
  if (mbxOut s m c).isEmpty then dblRing (mbxQueued s m c v) (mbxOther s m c) c else mbxQueued s m c v

theorem exec_mbxPush_served {s : State} {m : Half} {c : Fin 64} (h : MbxServed s m.toNat c) (v : Word) :
    exec (.mbxPush m c v) s = .next (within s (mbxPush s m.toNat c v.toNat)) :=
  congrArg Host.Outcome.next <| (awake_on (mbxServed_cold h) _).trans (congrArg (within s) (mbxWrite_served h _))

theorem exec_mbxPop_served {s : State} {m : Half} {c : Fin 64} (h : MbxServed s m.toNat c) :
    exec (.mbxPop m c) s = .next (within s (mbxPop s m.toNat c)) :=
  congrArg Host.Outcome.next <| (awake_on (mbxServed_cold h) _).trans (congrArg (within s) (mbxPop_served h))

section Branches
variable {s : State} {m c : Nat} (queues : 60 ≤ c)
include queues

theorem mbxPush_full (full : 32 ≤ (mbxOut s m c).length) (v : Nat) :
    mbxPush s m c v = raise (bumpSat s (pgMbx c + 0x58) 1) (pgMbx c) 0x40 :=
  (if_neg (by omega)).trans (if_pos full)

theorem mbxPush_room (room : (mbxOut s m c).length < 32) (v : Nat) : mbxPush s m c v = raise (mbxRung s m c v) (pgMbx c) 1 :=
  (if_neg (by omega)).trans (if_neg (Nat.not_le.mpr room))

theorem mbxPop_word {v : Nat} {l : List Nat} (word : mbxIn s m c = v :: l) :
    mbxPop s m c = raise { mbxqPut s c (mbxWithIn s m c l) with resp := .value v } (pgMbx c) 2 := by
  unfold mbxIn at word
  simp only [mbxPop, if_neg (Nat.not_lt.mpr queues), word, mbxWithIn]

theorem mbxPop_empty (empty : mbxIn s m c = []) : mbxPop s m c = raise { s with resp := .value 0 } (pgMbx c) 0x80 := by
  unfold mbxIn at empty
  simp only [mbxPop, if_neg (Nat.not_lt.mpr queues), empty]

end Branches

/-- A doorbell reaches neither the queues nor the rest of the module. -/
theorem mbxRung_frame (s : State) (m c v : Nat) :
    mbxqGet (mbxRung s m c v) c = mbxWithOut s m c (mbxOut s m c ++ [v]) ∧ (mbxRung s m c v).mems = s.mems ∧ (mbxRung s m c v).cells = s.cells := by
  unfold mbxRung
  split
  · have rung := channelTouch_dblRing (mbxQueued s m c v) (mbxOther s m c) c
    exact ⟨(mbxqGet_congr (dblRing_mbxq _ _ _) c).trans (mbxqGet_put s c _),
      channelTouch_field rung State.mems (fun _ _ _ _ _ _ _ => rfl), channelTouch_field rung State.cells (fun _ _ _ _ _ _ _ => rfl)⟩
  · exact ⟨mbxqGet_put s c _, rfl, rfl⟩

/-- R467, R468: a word behind an empty queue rings the receiver. -/
theorem mbxRung_bit {s : State} {m c g : Nat} (empty : mbxOut s m c = []) (group : dblGroup (mbxOther s m c) = some g) (v : Nat) :
    (rget (mbxRung s m c v) g).testBit (c % 32) = true := by
  rw [mbxRung, if_pos (by rw [empty]; rfl)]
  exact dblRing_bit _ _ _ group

theorem mbxOverflow_touches (s : State) (c : Nat) :
    Touches [pgMbx c + 0x58, pgMbx c + 0x10] s (raise (bumpSat s (pgMbx c + 0x58) 1) (pgMbx c) 0x40) :=
  touches_trans (touches_bumpSat s 1 (by simp)) (touches_raise _ _ (by simp))

/-- Settles O43: each command by the two branches of its meaning, the queue with room or full, with a word or empty. -/
theorem queuesPassWords : Obligations.QueuesPassWords := by
  unfold Obligations.QueuesPassWords
  intro s m c queues served isA out inn
  refine ⟨fun v room => ⟨_, exec_mbxPush_served served v, ?_⟩, fun v full => ⟨_, exec_mbxPush_served served v, ?_⟩,
    fun v l word => ⟨_, exec_mbxPop_served served, ?_⟩, fun empty => ⟨_, exec_mbxPop_served served, ?_⟩⟩
  · rw [mbxPush_room queues room]
    obtain ⟨queue, mems, cells⟩ := mbxRung_frame s m.toNat c v.toNat
    refine ⟨(mbxqGet_congr (raise_mbxq _ _ _) c).trans queue, raise_chan_bit _ c 1 0 (by decide) (by decide), fun empty g group => ?_,
      (raise_mems _ _ _).trans mems, (raise_cells _ _ _).trans cells⟩
    rw [rget_within, raise_group _ c 1 group]
    exact mbxRung_bit empty group _
  · have overflow := mbxOverflow_touches s c
    rw [mbxPush_full queues full, within_touches overflow]
    have page := pgMbx_lt c
    refine ⟨overflow, raise_chan_bit _ c 0x40 6 (by decide) (by decide), ?_⟩
    rw [raise_chan _ c _ (by omega) (by omega), rget_bumpSat_val]
  · rw [mbxPop_word queues word]
    exact ⟨raise_resp _ _ _, (mbxqGet_congr (raise_mbxq _ _ _) c).trans (mbxqGet_put s c _), raise_chan_bit _ c 2 1 (by decide) (by decide)⟩
  · rw [mbxPop_empty queues empty]
    have underflow : Touches [pgMbx c + 0x10] { s with resp := .value 0 } (raise { s with resp := .value 0 } (pgMbx c) 0x80) :=
      touches_raise _ _ (by simp)
    refine ⟨raise_resp _ _ _, raise_chan_bit _ c 0x80 7 (by decide) (by decide), ?_⟩
    exact ⟨congrArg (fun t : State => within s { t with resp := s.resp }) underflow.1, underflow.2⟩

end Sys2Proof.Machine

/-! ### The configuration record's window (R492) -/

namespace Sys2Proof.Machine

/-- R477: a write of PF BAR0 that is served acts at once. -/
theorem awake_pfWrite_served {s : State} {a : Nat} (h : Served s a) (m d : Nat) (f : State → State) :
    awake s (fun t => pfWrite t m a d f) = within s (f s) := by
  rw [awake_on h.1, pfWrite_served h]

/-- The window lies in the CFG page, which the boot ROM serves throughout. -/
theorem served_recordWord {s : State} (h : Served s (pgCfg + 0x40)) (w : Fin 256) : Served s (pgCfg + 0x100 + 4 * w) :=
  served_boot h (by unfold pgCfg; omega)

theorem exec_cfgRecWrite_served {s : State} (h : Served s (pgCfg + 0x40)) (m : Half) (w : Fin 256) (v : Word) :
    exec (.cfgRecWrite m w v) s = .next (within s (cfgWord s w v.toNat)) :=
  congrArg Host.Outcome.next (awake_pfWrite_served (served_recordWord h w) m.toNat v.toNat (cfgWord · w v.toNat))

theorem exec_cfgClear_served {s : State} (h : Served s (pgCfg + 0x40)) (m : Half) :
    exec (.cfgClear m) s = .next (within s (cfgClear s)) :=
  congrArg Host.Outcome.next (awake_pfWrite_served h m.toNat 3 cfgClear)

/-! A word of the window. -/

theorem cfgWord_locked {s : State} (h : devState s ≠ dvHeld) (w v : Nat) : cfgWord s w v = raise s pgCfg 4 := if_pos h

theorem cfgWord_held {s : State} (h : devState s = dvHeld) (w v : Nat) :
    cfgWord s w v = rset (rset s (pgCfg + 0x100 + 4 * w) v) (pgCfg + 0x80 + 4 * (w / 32))
      (rget s (pgCfg + 0x80 + 4 * (w / 32)) ||| 2 ^ (w % 32)) := if_neg (not_not_intro h)

/-- The eight CFG_WRITTEN registers end below the window, so marking a word leaves the window as it is. -/
theorem rget_cfgWord_word {s : State} (h : devState s = dvHeld) (w : Fin 256) (v : Word) :
    rget (cfgWord s w v.toNat) (pgCfg + 0x100 + 4 * w) = v.toNat := by
  have apart : pgCfg + 0x100 + 4 * w.val ≠ pgCfg + 0x80 + 4 * (w.val / 32) := by omega
  rw [cfgWord_held h, rget_rset_ne _ _ apart, rget_rset_same, Nat.mod_eq_of_lt v.isLt]

theorem cfgWord_marks {s : State} (h : devState s = dvHeld) (w v : Nat) :
    (rget (cfgWord s w v) (pgCfg + 0x80 + 4 * (w / 32))).testBit (w % 32) = true := by
  have bitInWord : w % 32 < 32 := Nat.mod_lt _ (by decide)
  rw [cfgWord_held h, rget_rset_same, Nat.testBit_mod_two_pow, Nat.testBit_or, Nat.testBit_two_pow_self]
  simp [bitInWord]

theorem cfgWord_touches {s : State} (h : devState s = dvHeld) (w v : Nat) :
    Touches [pgCfg + 0x100 + 4 * w, pgCfg + 0x80 + 4 * (w / 32)] s (cfgWord s w v) := by
  rw [cfgWord_held h]
  exact touches_trans (touches_rset s v List.mem_cons_self) (touches_rset _ _ (List.mem_cons_of_mem _ List.mem_cons_self))

theorem cfgLocked_touches (s : State) : Touches [pgCfg + 0x10] s (raise s pgCfg 4) := touches_raise s 4 (by simp)

/-! CLEAR. -/

theorem cfgClear_held {s : State} (h : devState s = dvHeld) :
    cfgClear s = { s with regs := tabClear (pgCfg + 0x100) (pgCfg + 0x500) (tabClear (pgCfg + 0x80) (pgCfg + 0xA0) s.regs) } :=
  if_neg (not_not_intro h)

/-- R492: CLEAR returns the window and CFG_WRITTEN to their reset values and leaves every other register. -/
theorem rget_cfgClear {s : State} (h : devState s = dvHeld) (a : Nat) :
    rget (cfgClear s) a =
      if (pgCfg + 0x100 ≤ a ∧ a < pgCfg + 0x500) ∨ (pgCfg + 0x80 ≤ a ∧ a < pgCfg + 0xA0) then rget State.reset a else rget s a := by
  rw [cfgClear_held h, rget_reset]
  unfold rget
  rw [tabGet_tabClear, tabGet_tabClear, ite_or]
  split_ifs <;> rfl

theorem cfgClear_frame {s : State} (h : devState s = dvHeld) : { within s (cfgClear s) with regs := s.regs } = s := by
  rw [cfgClear_held h]; rfl

/-- Settles O58: a window write by its two branches, HELD or not, and CLEAR as the clearing of two ranges of registers. -/
theorem recordWindowIsWritten : Obligations.RecordWindowIsWritten := by
  unfold Obligations.RecordWindowIsWritten
  intro s m served
  refine ⟨fun w v held => ⟨_, exec_cfgRecWrite_served served m w v, ?_⟩,
    fun w v locked => ⟨_, exec_cfgRecWrite_served served m w v, ?_⟩, fun held => ⟨_, exec_cfgClear_served served m, ?_⟩⟩
  · have touched := cfgWord_touches held w v.toNat
    rw [within_touches touched]
    exact ⟨rget_cfgWord_word held w v, cfgWord_marks held w v.toNat, touched⟩
  · have touched := cfgLocked_touches s
    rw [cfgWord_locked locked, within_touches touched]
    exact ⟨evt_bit s 4 2 (by decide) (by decide), touched⟩
  · refine ⟨fun a inside => ?_, fun a notWindow notWritten => ?_, cfgClear_frame held⟩
    · rw [rget_within, rget_cfgClear held, if_pos inside]
    · rw [rget_within, rget_cfgClear held, if_neg (not_or.mpr ⟨notWindow, notWritten⟩)]

end Sys2Proof.Machine

/-! ### What bounds every command (R474, R558, R560) -/

namespace Sys2Proof.Machine

/-- The time that passes with a command (R292). -/
def elapsed : Instr → Nat
  | .weirCreditTick n => n
  | _ => 0

/-- In COLD, `t` is `s` but for the input and the bank, the sideband, and the PCIe link, which can only go down (R474, R497, R562). -/
def ColdStep (s t : State) : Prop :=
  { t with power := s.power, i3c := s.i3c, resp := s.resp, pcieUp := s.pcieUp } = s ∧ (t.pcieUp = s.pcieUp ∨ t.pcieUp = false)

/-- What command `i` does to `s`: it sleeps in COLD, or changes there only what lives in COLD, or it is one of the few that move the
clock, the pins, the fuses or COLD itself. -/
inductive Effect (i : Instr) (s : State) : State → Prop where
  | asleep (idle : elapsed i = 0) (cold : s.cold = true) : Effect i s s
  | inCold (idle : elapsed i = 0) (cold : s.cold = true) {t : State} (h : ColdStep s t) : Effect i s t
  | bounded (idle : elapsed i = 0) (on : s.cold = false) (t : State) : Effect i s (within s t)
  | tick {n : Nat} (e : i = .weirCreditTick n) : Effect i s { within s (tick s n) with now := s.now + n }
  | boot {f : Fuses} {d h : Nat} {m : List Nat} (e : i = .bootSequence f d m h) (on : s.cold = false) (t : State) (g : Fuses) :
      Effect i s { within s t with fuses := g }
  | port (e : (∃ x, i = .jtagInstruction x) ∨ i = .jtagReset) (j : JInstr) : Effect i s { s with jtag := j }
  | release {b : Byte} (e : i = .perstNDeassert b) : Effect i s (perstRelease s b.toNat)
  | assert (e : i = .perstNAssert) : Effect i s (perstAssert s)
  | ready (e : i = .p54vInRange100ms) : Effect i s (inputReady s)
  | loss (e : i = .p54vLoss) : Effect i s (busLoss s)

/-! Commands that also work in COLD change there only what lives in COLD. -/

theorem coldStep_refl (s : State) : ColdStep s s := ⟨rfl, .inl rfl⟩

theorem coldStep_power (s : State) (p : Power) : ColdStep s { s with power := p } := ⟨rfl, .inl rfl⟩

theorem coldStep_i3c (s : State) (x : I3c) : ColdStep s { s with i3c := x } := ⟨rfl, .inl rfl⟩

theorem overVoltage_cold {s : State} (cold : s.cold = true) : overVoltage s = { s with power := { s.power with inputOpen := true } } :=
  if_pos (.inl cold)

theorem coldStep_inputCheck {s t : State} (cold : t.cold = true) (h : ColdStep s t) : ColdStep s (inputCheck t) := by
  have still : inputCheck t = t := by simp [inputCheck, cold]
  rwa [still]

theorem coldStep_powerSample {s : State} (cold : s.cold = true) (vin bank : Nat) : ColdStep s (powerSample s vin bank) := by
  unfold powerSample
  split
  · exact coldStep_refl s
  · exact coldStep_power s _

theorem coldStep_surgeTimer {s : State} (cold : s.cold = true) : ColdStep s (surgeTimer s) := by
  unfold surgeTimer
  split
  · rw [overVoltage_cold cold]; exact coldStep_power s _
  · exact coldStep_refl s

theorem coldStep_capMeasure {s : State} (cold : s.cold = true) : ColdStep s (capMeasure s) := by
  unfold capMeasure
  split
  · exact coldStep_refl s
  · split
    · exact coldStep_refl s
    · exact coldStep_inputCheck cold (coldStep_power s _)

theorem coldStep_busConnect (s : State) : ColdStep s (busConnect s) := by
  unfold busConnect
  split
  · exact coldStep_refl s
  · exact coldStep_power s _

theorem coldStep_domainDown {s : State} (cold : s.cold = true) (id : Nat) : ColdStep s (domainDown s id) := by
  unfold domainDown
  dsimp only
  rw [if_pos cold]
  split
  · exact ⟨rfl, .inr rfl⟩
  · split
    · exact coldStep_i3c s _
    · exact coldStep_refl s

theorem coldStep_i3cAssign (s : State) (static : Option Nat) (addr : Nat) : ColdStep s (i3cAssign s static addr) := by
  unfold i3cAssign
  dsimp only
  split
  · exact coldStep_i3c s _
  · exact coldStep_refl s

theorem coldStep_i3cWrite {s : State} (cold : s.cold = true) (b : List Byte) : ColdStep s (i3cWrite s b) := by
  unfold i3cWrite
  split
  · exact coldStep_refl s
  · exact coldStep_i3c s _

theorem coldStep_i3cRead (s : State) : ColdStep s (i3cRead s) := by
  unfold i3cRead
  split
  · exact coldStep_refl s
  · exact ⟨rfl, .inl rfl⟩

/-! The effect of each way a meaning is written. -/

variable {i : Instr} {s : State}

theorem effect_awake (idle : elapsed i = 0) (f : State → State) : Effect i s (awake s f) := by
  cases cold : s.cold
  · rw [awake_on cold]; exact .bounded idle cold _
  · rw [awake_cold cold]; exact .asleep idle cold

theorem effect_always (idle : elapsed i = 0) (f : State → State) (h : s.cold = true → ColdStep s (f s)) : Effect i s (always s f) := by
  cases cold : s.cold
  · rw [always_on cold]; exact .bounded idle cold _
  · rw [always_cold cold]; exact .inCold idle cold (h cold)

/-- A change of what lives in COLD alone is within its bounds outside COLD too. -/
theorem effect_coldStep (idle : elapsed i = 0) {t : State} (h : ColdStep s t) : Effect i s t := by
  cases cold : s.cold
  · have kept := congrArg (fun x : State => { x with power := t.power, i3c := t.i3c, resp := t.resp, pcieUp := t.pcieUp }) h.1
    change t = _ at kept
    rw [kept]
    exact .bounded idle cold { s with power := t.power, i3c := t.i3c, resp := t.resp, pcieUp := t.pcieUp }
  · exact .inCold idle cold h

theorem effect_boot (f : Fuses) (d h : Nat) (m : List Nat) : ∃ t, exec (.bootSequence f d m h) s = .next t ∧ Effect (.bootSequence f d m h) s t := by
  refine ⟨_, rfl, ?_⟩
  split
  next cold => exact .asleep rfl cold
  next on => exact .boot rfl (by simpa using on) _ _

theorem tick_cold (cold : s.cold = true) (n : Nat) : Machine.tick s n = { s with now := s.now + n } := if_pos cold

theorem effect_tick (n : Nat) : ∃ t, exec (.weirCreditTick n) s = .next t ∧ Effect (.weirCreditTick n) s t := by
  refine ⟨_, rfl, ?_⟩
  split
  next cold =>
    have own : Machine.tick s n = { within s (Machine.tick s n) with now := s.now + n } := by rw [tick_cold cold]; rfl
    rw [own]; exact .tick rfl
  next => exact .tick rfl

theorem effect_jtagLoad (x : JInstr) : Effect (.jtagInstruction x) s (jtagLoad s x) := by
  unfold jtagLoad
  split
  · exact .port (.inl ⟨x, rfl⟩) _
  · exact .port (s := s) (.inl ⟨x, rfl⟩) s.jtag

theorem effect_jtagReset : Effect .jtagReset s (jtagReset s) := by
  unfold jtagReset
  split
  · exact .port (.inr rfl) _
  · exact .port (s := s) (.inr rfl) s.jtag

/-- Every command answers a next state, of one of the shapes of `Effect` (R474). -/
theorem exec_effect (i : Instr) (s : State) : ∃ t, exec i s = .next t ∧ Effect i s t := by
  cases i
  case weirCreditTick n => exact effect_tick n
  case bootSequence f d m h => exact effect_boot f d h m
  case perstNDeassert b => exact ⟨_, rfl, .release rfl⟩
  case perstNAssert => exact ⟨_, rfl, .assert rfl⟩
  case p54vInRange100ms => exact ⟨_, rfl, .ready rfl⟩
  case p54vLoss => exact ⟨_, rfl, .loss rfl⟩
  case p54vConnect => exact ⟨_, rfl, effect_coldStep rfl (coldStep_busConnect s)⟩
  case jtagInstruction x => exact ⟨_, rfl, effect_jtagLoad x⟩
  case jtagReset => exact ⟨_, rfl, effect_jtagReset⟩
  case powerSample v b => exact ⟨_, rfl, effect_always rfl _ (fun cold => coldStep_powerSample cold _ _)⟩
  case surgeTimer => exact ⟨_, rfl, effect_always rfl _ coldStep_surgeTimer⟩
  case bankCapMeasure => exact ⟨_, rfl, effect_always rfl _ coldStep_capMeasure⟩
  case domainPowerOff id => exact ⟨_, rfl, effect_always rfl _ (fun cold => coldStep_domainDown cold _)⟩
  case i3cDynamicAddress st a => exact ⟨_, rfl, effect_always rfl _ (fun _ => coldStep_i3cAssign s _ _)⟩
  case i3cPrivateWrite b => exact ⟨_, rfl, effect_always rfl _ (fun cold => coldStep_i3cWrite cold b)⟩
  case i3cPrivateRead => exact ⟨_, rfl, effect_always rfl _ (fun _ => coldStep_i3cRead s)⟩
  all_goals exact ⟨_, rfl, effect_awake rfl _⟩

theorem effect_of_exec {t : State} (h : exec i s = .next t) : Effect i s t := by
  obtain ⟨u, hu, effect⟩ := exec_effect i s
  obtain rfl : t = u := Host.Outcome.next.inj (h.symm.trans hu)
  exact effect

theorem ColdStep.field {α : Type} {t : State} (h : ColdStep s t) (f : State → α)
    (hf : ∀ (x : State) p y r u, f { x with power := p, i3c := y, resp := r, pcieUp := u } = f x) : f t = f s :=
  (hf t _ _ _ _).symm.trans (congrArg f h.1)

/-! ### The queue, the clock and the pins (O2, O6) -/

/-- PERST_N is deasserted; COLD is left or stands (R558). -/
theorem perstRelease_eq (s : State) (slot : Nat) :
    ∃ b, perstRelease s slot = { rset s (pgChp + 0x58) slot with perst := false, cold := b } ∧ (b = true → s.cold = true) := by
  unfold perstRelease
  dsimp only
  split
  · exact ⟨false, rfl, nofun⟩
  · exact ⟨s.cold, rfl, id⟩

/-- COLD is left, with PERST_N deasserted, or stands (R558). -/
theorem inputReady_eq (s : State) : inputReady s = s ∨ (s.perst = false ∧ inputReady s = { s with cold := false }) := by
  unfold inputReady
  split
  next ready => exact .inr ⟨by simp_all, rfl⟩
  next => exact .inl rfl

theorem effect_pending {t : State} (h : Effect i s t) : t.pending = s.pending := by
  cases h with
  | inCold _ _ h => exact h.field State.pending (fun _ _ _ _ _ => rfl)
  | @release b => obtain ⟨_, eq, -⟩ := perstRelease_eq s b.toNat; rw [eq]; rfl
  | ready => rcases inputReady_eq s with eq | ⟨-, eq⟩ <;> rw [eq]
  | loss => unfold busLoss; split <;> rfl
  | _ => rfl

theorem effect_now {t : State} (h : Effect i s t) : t.now = s.now + elapsed i := by
  cases h with
  | asleep idle | bounded idle => rw [idle]; rfl
  | inCold idle _ h => rw [idle]; exact h.field State.now (fun _ _ _ _ _ => rfl)
  | tick e | boot e | assert e => rw [e]; rfl
  | port e => rcases e with ⟨x, rfl⟩ | rfl <;> rfl
  | @release b e => obtain ⟨_, eq, -⟩ := perstRelease_eq s b.toNat; rw [e, eq]; rfl
  | ready e => rcases inputReady_eq s with eq | ⟨-, eq⟩ <;> rw [e, eq] <;> rfl
  | loss e => rw [e]; unfold busLoss; split <;> rfl

/-- COLD is entered by PERST_N or the loss of P54V only, and left only with PERST_N deasserted (R474, R558, R560). -/
theorem effect_cold {t : State} (h : Effect i s t) :
    (s.cold = true → t.cold = false → t.perst = false ∧ ((∃ b, i = .perstNDeassert b) ∨ i = .p54vInRange100ms)) ∧
    (s.cold = false → t.cold = true → i = .perstNAssert ∨ i = .p54vLoss) := by
  have stays : t.cold = s.cold → (s.cold = true → t.cold = false → t.perst = false ∧ ((∃ b, i = .perstNDeassert b) ∨ i = .p54vInRange100ms)) ∧
      (s.cold = false → t.cold = true → i = .perstNAssert ∨ i = .p54vLoss) := by
    intro same
    rw [same]
    exact ⟨fun a b => absurd (a.symm.trans b) (by decide), fun a b => absurd (a.symm.trans b) (by decide)⟩
  cases h with
  | inCold _ _ h => exact stays (h.field State.cold (fun _ _ _ _ _ => rfl))
  | asleep | bounded | tick | boot | port => exact stays rfl
  | @release b e =>
    obtain ⟨_, eq, was⟩ := perstRelease_eq s b.toNat
    rw [eq]
    exact ⟨fun _ _ => ⟨rfl, .inl ⟨_, e⟩⟩, fun on cold => absurd (on.symm.trans (was cold)) (by decide)⟩
  | assert e => exact ⟨fun _ left => Bool.noConfusion (show true = false from left), fun _ _ => .inl e⟩
  | ready e =>
    rcases inputReady_eq s with eq | ⟨released, eq⟩
    · exact stays (congrArg State.cold eq)
    · rw [eq]; exact ⟨fun _ _ => ⟨released, .inr e⟩, fun _ cold => nomatch (show false = true from cold)⟩
  | loss e =>
    refine ⟨fun cold left => ?_, fun _ _ => .inr e⟩
    unfold busLoss at left
    split at left
    · exact absurd (cold.symm.trans left) (by decide)
    · exact nomatch (show true = false from left)

/-- PERST_N, the test port and the fuses change with their own commands (R476, R558, R560, R564). -/
theorem effect_pins {t : State} (h : Effect i s t) :
    (t.perst ≠ s.perst → (∃ b, i = .perstNDeassert b) ∨ i = .perstNAssert) ∧
    (t.jtag ≠ s.jtag → (∃ x, i = .jtagInstruction x) ∨ i = .jtagReset ∨ i = .p54vLoss) ∧
    (t.fuses ≠ s.fuses → ∃ f d m h, i = .bootSequence f d m h) := by
  cases h with
  | asleep | bounded | tick => exact ⟨(absurd rfl ·), (absurd rfl ·), (absurd rfl ·)⟩
  | inCold _ _ h =>
    exact ⟨(absurd (h.field State.perst (fun _ _ _ _ _ => rfl)) ·), (absurd (h.field State.jtag (fun _ _ _ _ _ => rfl)) ·),
      (absurd (h.field State.fuses (fun _ _ _ _ _ => rfl)) ·)⟩
  | boot e => exact ⟨(absurd rfl ·), (absurd rfl ·), fun _ => ⟨_, _, _, _, e⟩⟩
  | port e => exact ⟨(absurd rfl ·), fun _ => e.imp_right .inl, (absurd rfl ·)⟩
  | @release b e =>
    obtain ⟨_, eq, -⟩ := perstRelease_eq s b.toNat
    rw [eq]; exact ⟨fun _ => .inl ⟨_, e⟩, (absurd rfl ·), (absurd rfl ·)⟩
  | assert e => exact ⟨fun _ => .inr e, (absurd rfl ·), (absurd rfl ·)⟩
  | ready => rcases inputReady_eq s with eq | ⟨-, eq⟩ <;> rw [eq] <;> exact ⟨(absurd rfl ·), (absurd rfl ·), (absurd rfl ·)⟩
  | loss e => unfold busLoss; split <;> exact ⟨(absurd rfl ·), fun _ => .inr (.inr e), (absurd rfl ·)⟩

theorem step_cons {c : Instr} {rest : List Instr} (h : s.pending = c :: rest) : step s = exec c { s with pending := rest } := by
  unfold step; rw [h]

/-- Settles O2: each shape of an effect keeps the queue and moves the clock by the command's own time. -/
theorem commandsAnswerAndKeepTheQueue : Obligations.CommandsAnswerAndKeepTheQueue := by
  unfold Obligations.CommandsAnswerAndKeepTheQueue
  refine ⟨fun i s => (exec_effect i s).imp fun _ h => h.1, fun s t c rest front stepped => ?_, fun i s t ran => effect_now (effect_of_exec ran)⟩
  rw [step_cons front] at stepped
  exact effect_pending (effect_of_exec stepped)

/-- Settles O6, by the shapes of an effect. -/
theorem coldAndPinsChangeByTheirCommands : Obligations.ColdAndPinsChangeByTheirCommands := by
  unfold Obligations.ColdAndPinsChangeByTheirCommands
  exact ⟨fun i s t ran => effect_cold (effect_of_exec ran), fun i s t ran => effect_pins (effect_of_exec ran)⟩

/-! ### What COLD leaves (O7, O8) -/

/-- Settles O7. -/
theorem resetIsColdAsReset : Obligations.ResetIsColdAsReset := fun _ => ⟨rfl, fun _ _ => rfl⟩

/-- With every register of `t` but CHP_SLOT at its reset value, `t` is as COLD leaves it where it differs from such a state only in
what a cold reset keeps. -/
theorem coldAsReset_of {x t : State}
    (form : { State.reset with
      pending := x.pending, now := x.now, free := x.free, mems := x.mems, msix := x.msix, power := x.power, jnl := x.jnl,
      fuses := x.fuses, i3c := x.i3c, jtag := x.jtag, perst := x.perst, resp := x.resp, regs := x.regs } = x)
    (kept : { t with
      pending := x.pending, now := x.now, free := x.free, mems := x.mems, msix := x.msix, power := x.power, jnl := x.jnl,
      fuses := x.fuses, i3c := x.i3c, jtag := x.jtag, perst := x.perst, resp := x.resp, regs := x.regs } = x)
    (regs : ∀ a, a ≠ pgChp + 0x58 → rget t a = rget State.reset a) : ColdAsReset t := by
  refine fun _ => ⟨?_, regs⟩
  exact congrArg (fun y : State => { y with
    pending := t.pending, now := t.now, free := t.free, mems := t.mems, msix := t.msix, power := t.power, jnl := t.jnl,
    fuses := t.fuses, i3c := t.i3c, jtag := t.jtag, perst := t.perst, resp := t.resp, regs := t.regs }) (form.trans kept.symm)

/-- A cold reset leaves what COLD leaves (R474, R527). -/
theorem coldAsReset_coldReset (s : State) : ColdAsReset (coldReset s) := coldAsReset_of (x := State.reset) rfl rfl (fun _ _ => rfl)

theorem coldAsReset_busLoss (h : ColdAsReset s) : ColdAsReset (busLoss s) := by
  unfold busLoss
  split
  · exact h
  · exact coldAsReset_of (x := State.reset) rfl rfl (fun _ _ => rfl)

theorem effect_keeps_coldAsReset {t : State} (inv : ColdAsReset s) (h : Effect i s t) : ColdAsReset t := by
  intro cold
  cases h with
  | asleep => exact inv cold
  | inCold _ was h =>
    obtain ⟨form, regs⟩ := inv was
    have down : s.pcieUp = false := congrArg State.pcieUp form.symm
    have link : t.pcieUp = s.pcieUp := h.2.elim id (·.trans down.symm)
    have frame : { t with power := s.power, i3c := s.i3c, resp := s.resp } = s := (congrArg (fun u => { t with
      power := s.power, i3c := s.i3c, resp := s.resp, pcieUp := u }) link).trans h.1
    exact coldAsReset_of form (congrArg (fun y : State => { y with
        pending := s.pending, now := s.now, free := s.free, mems := s.mems, msix := s.msix, power := s.power, jnl := s.jnl,
        fuses := s.fuses, i3c := s.i3c, jtag := s.jtag, perst := s.perst, resp := s.resp, regs := s.regs }) frame)
      (fun a ha => (rget_congr (h.field State.regs (fun _ _ _ _ _ => rfl)) a).trans (regs a ha)) cold
  | bounded _ on | boot _ on => exact absurd (on.symm.trans cold) (by decide)
  | tick =>
    have was : s.cold = true := cold
    obtain ⟨form, regs⟩ := inv was
    rw [tick_cold was]
    exact coldAsReset_of form rfl regs cold
  | port =>
    obtain ⟨form, regs⟩ := inv cold
    exact coldAsReset_of form rfl regs cold
  | @release b =>
    obtain ⟨still, eq, was⟩ := perstRelease_eq s b.toNat
    rw [eq] at cold ⊢
    have same : still = s.cold := (show still = true from cold).trans (was cold).symm
    obtain ⟨form, regs⟩ := inv (was cold)
    subst same
    exact coldAsReset_of form rfl (fun a ha => (rget_rset_ne s _ ha).trans (regs a ha)) cold
  | assert => exact coldAsReset_of (x := State.reset) rfl rfl (fun _ _ => rfl) cold
  | ready =>
    rcases inputReady_eq s with eq | ⟨-, eq⟩
    · rw [eq] at cold ⊢; exact inv cold
    · rw [eq] at cold; exact nomatch (show false = true from cold)
  | loss => exact coldAsReset_busLoss inv cold

/-- Settles O8: every shape of an effect keeps what COLD leaves; the queue of commands has no part in it. -/
theorem everyStepKeepsColdAsReset : Obligations.EveryStepKeepsColdAsReset := by
  unfold Obligations.EveryStepKeepsColdAsReset
  intro s t inv stepped
  cases queue : s.pending with
  | nil =>
    unfold step at stepped
    rw [queue] at stepped
    exact Host.Outcome.next.inj stepped ▸ inv
  | cons c rest =>
    rw [step_cons queue] at stepped
    have inv' : ColdAsReset { s with pending := rest } := fun cold => coldAsReset_of (inv cold).1 rfl (inv cold).2 cold
    exact effect_keeps_coldAsReset inv' (effect_of_exec stepped)

end Sys2Proof.Machine

/-! ### A step, the module after reset, COLD and the input (O1, O3, O4, O5, O21) -/

namespace Sys2Proof.Machine

/-- Settles O1: the front of the queue is what a step takes. -/
theorem stepRunsFrontCommand : Obligations.StepRunsFrontCommand := by
  unfold Obligations.StepRunsFrontCommand
  exact fun s c rest => step_cons (s := { s with pending := c :: rest }) rfl

theorem step_idle {s : State} (h : s.pending = []) : step s = .next s := by unfold step; rw [h]

/-- Settles O3. -/
theorem idleAndRest : Obligations.IdleAndRest := ⟨fun _ => step_idle, fun _ => after_rest⟩

/-- Settles O4: the tables of the state after reset are empty, so each reads as its default. -/
theorem resetState_holds : Obligations.ResetState := by
  unfold Obligations.ResetState
  refine ⟨rfl, rfl, rfl, rget_reset, fun sp a => ?_, rfl, rfl⟩
  cases sp <;> rfl

/-- Settles O5: but for the commands named, a meaning is written with `awake` or asks for COLD itself. -/
theorem coldIsStill : Obligations.ColdIsStill := by
  unfold Obligations.ColdIsStill
  intro i s cold
  cases i
  case bootSequence f d m h => exact congrArg Host.Outcome.next (if_pos cold)
  case perstNDeassert | perstNAssert | jtagInstruction | jtagReset | p54vConnect | p54vInRange100ms | p54vLoss | powerSample | surgeTimer
    | bankCapMeasure | domainPowerOff | i3cDynamicAddress | i3cPrivateWrite | i3cPrivateRead | weirCreditTick => trivial
  all_goals exact congrArg Host.Outcome.next (awake_cold cold _)

theorem busLoss_live {s : State} (live : s.power.live = true) :
    busLoss s = { coldReset s with
      power := powerInit, jtag := .idcode, i3c := { s.i3c with addr := none, status := 0, data := 0 },
      mems := { s.mems with
        hbm := [], slice := [], bench := [], acc := []
        marks := s.mems.marks.filter (fun k => k.sp == .tier || k.sp == .slc || k.sp == .host) } } := by
  unfold busLoss
  rw [live]; rfl

/-- Settles O21: each command by its own meaning. -/
theorem inputPowersTheModule : Obligations.InputPowersTheModule := by
  unfold Obligations.InputPowersTheModule
  intro s
  refine ⟨fun dead => ?_, fun cold released settled => ?_, fun live => ⟨busLoss s, rfl, ?_⟩, fun on => ?_⟩
  · exact congrArg Host.Outcome.next (if_neg (by rw [dead]; decide))
  · exact congrArg Host.Outcome.next (if_pos (by rw [cold, released, settled]; rfl))
  · rw [busLoss_live live]
    exact ⟨rfl, rfl, rfl, rfl, rfl, rfl, rfl, rfl, rfl, rfl, rfl, rfl, rfl, rfl, rfl, rfl, rfl⟩
  · exact congrArg Host.Outcome.next (awake_on on linkUp)

end Sys2Proof.Machine

/-! ### Jigs: pushes, starts, fetches (O9, O10, O11) -/

namespace Sys2Proof.Machine

/-- R77: a push enters the queue or waits. -/
theorem jigPush_eq (s : State) (c : Nat) (j : Jig) : jigPush s c j = cellPut s c (pushed (cellGet s c) j) := by
  unfold jigPush pushed
  dsimp only
  by_cases room : (cellGet s c).queue.length < 16 ∧ (cellGet s c).held = []
  · rw [if_pos room, if_pos (by simpa using room)]
  · rw [if_neg room, if_neg (by simpa using room)]

/-- R77: the oldest push that waits enters once an entry is free. -/
theorem jigAdmit_eq {s : State} {c : Nat} {j : Jig} {l : List Jig} (held : (cellGet s c).held = j :: l) (room : (cellGet s c).queue.length < 16) :
    jigAdmit s c = cellPut s c { cellGet s c with queue := (cellGet s c).queue ++ [j], held := l } := by
  unfold jigAdmit
  simp only [held, if_pos room]

/-- Settles O9. -/
theorem jigsArePushed : Obligations.JigsArePushed := by
  unfold Obligations.JigsArePushed
  intro s c on
  refine ⟨fun src start id => ?_, fun m v served => ?_, fun j l held room => ?_⟩
  · exact congrArg Host.Outcome.next ((awake_on on _).trans (congrArg (within s) (jigPush_eq s c _)))
  · exact congrArg Host.Outcome.next ((awake_pfWrite_served served _ _ _).trans (congrArg (within s) (jigPush_eq _ c _)))
  · exact congrArg Host.Outcome.next ((awake_on on _).trans (congrArg (within s) (jigAdmit_eq held room)))

/-- R76: a descriptor that may be fetched and can be read joins those fetched. -/
theorem fetchOne_good {s : State} {c : Nat} {jr : JigRun} (may : mayFetch s c jr) (room : jr.nextFetch < 16384)
    (inside : jr.jig.start + 64 * jr.nextFetch + 64 ≤ scratchBytes s c)
    (clean : firstBad s.mems .slice (sliceA c (jr.jig.start + 64 * jr.nextFetch)) 64 = none) :
    fetchOne s c = setJr s c { jr with
      fetched := jr.fetched ++ [crd s .slice c (jr.jig.start + 64 * jr.nextFetch) 64], nextFetch := jr.nextFetch + 1,
      sawLast := dLast (crd s .slice c (jr.jig.start + 64 * jr.nextFetch) 64) } := by
  rw [fetchOne_eq may, if_neg (Nat.not_le.mpr room), if_neg (Nat.not_lt.mpr inside), clean]

/-- R78: a jig before its first fetch; `stop` is not 0 where it does not start on a 64-byte boundary of the scratchpad. -/
def jigBegun (s : State) (j : Jig) (stop : Nat) : JigRun := ⟨j, [], 0, 0, stop, false, [], 0, none, s.now, none, false, false, none, []⟩

section Start
variable {s : State} {c : Nat} {j : Jig} {l : List Jig} (mode : (cellGet s c).mode = .normal) (idle : (cellGet s c).run = none)
  (queue : (cellGet s c).queue = j :: l)
include mode idle queue

theorem jigStart_of_start (aligned : j.start % 64 = 0) (inside : j.start + 64 ≤ scratchBytes s c) :
    jigStart s c = settleEnd (fetchOne (cellPut s c ((cellGet s c).withRun (jigBegun s j 0))) c) c := by
  rw [jigStart_eq mode idle queue, if_pos (by simp [aligned, inside])]; rfl

theorem jigStart_of_bad (bad : ¬(j.start % 64 = 0 ∧ j.start + 64 ≤ scratchBytes s c)) :
    jigStart s c = settleEnd (fetchOne (cellPut s c ((cellGet s c).withRun (jigBegun s j rBadJig))) c) c := by
  rw [jigStart_eq mode idle queue, if_neg (by simpa using bad)]; rfl

omit idle queue in
/-- R76: the fetch of the first descriptor of a jig. -/
theorem fetchOne_first (inside : j.start + 64 ≤ scratchBytes s c) (going : s.stop = none)
    (clean : firstBad s.mems .slice (sliceA c j.start) 64 = none) :
    fetchOne (cellPut s c ((cellGet s c).withRun (jigBegun s j 0))) c = cellPut s c ((cellGet s c).withRun
      { jigBegun s j 0 with fetched := [crd s .slice c j.start 64], nextFetch := 1, sawLast := dLast (crd s .slice c j.start 64) }) := by
  have cell : cellGet (cellPut s c ((cellGet s c).withRun (jigBegun s j 0))) c = (cellGet s c).withRun (jigBegun s j 0) := cellGet_cellPut_same _ _ _
  have may : mayFetch (cellPut s c ((cellGet s c).withRun (jigBegun s j 0))) c (jigBegun s j 0) :=
    ⟨by rw [cell]; rfl, by rw [cell]; exact mode, going, rfl, rfl, rfl, rfl, show 0 < 4 by decide⟩
  exact (fetchOne_good may (show 0 < 16384 by decide) inside clean).trans (setJr_withRun _ _ _ _ _)

/-- R78, R104: a jig whose first descriptor is readable and passes the header checks starts with it fetched. -/
theorem jigStart_good (aligned : j.start % 64 = 0) (inside : j.start + 64 ≤ scratchBytes s c) (going : s.stop = none)
    (clean : firstBad s.mems .slice (sliceA c j.start) 64 = none)
    (passes : firstFail (headerChecks (requireBound s c) (crd s .slice c j.start 64)) = none) :
    jigStart s c = cellPut s c ((cellGet s c).withRun
      { jigBegun s j 0 with fetched := [crd s .slice c j.start 64], nextFetch := 1, sawLast := dLast (crd s .slice c j.start 64) }) := by
  rw [jigStart_of_start mode idle queue aligned inside, fetchOne_first mode inside going clean]
  have runs : (cellGet (cellPut s c ((cellGet s c).withRun { jigBegun s j 0 with
      fetched := [crd s .slice c j.start 64], nextFetch := 1, sawLast := dLast (crd s .slice c j.start 64) })) c).run = some { jigBegun s j 0 with
      fetched := [crd s .slice c j.start 64], nextFetch := 1, sawLast := dLast (crd s .slice c j.start 64) } := by
    rw [cellGet_cellPut_same]; rfl
  unfold settleEnd
  rw [settle_good c 5 _ _ _ [] runs rfl rfl passes]
  exact jigMaybeEnd_stay _ c _ runs (by simp) rfl rfl

/-- R78, R79: a jig that does not start on a 64-byte boundary of the scratchpad ends at once. -/
theorem jigStart_bad (bad : ¬(j.start % 64 = 0 ∧ j.start + 64 ≤ scratchBytes s c)) :
    jigStart s c = jigMaybeEnd (cellPut s c ((cellGet s c).withRun (jigBegun s j rBadJig))) c := by
  have runs : (cellGet (cellPut s c ((cellGet s c).withRun (jigBegun s j rBadJig))) c).run = some (jigBegun s j rBadJig) := by
    rw [cellGet_cellPut_same]; rfl
  rw [jigStart_of_bad mode idle queue bad, fetchOne_stopped runs (show rBadJig ≠ 0 by decide)]
  unfold settleEnd
  rw [settle_empty c 5 _ _ runs rfl]

end Start

/-- Settles O10: a good start by the fetch it makes, a bad one by the end of the jig. -/
theorem jigsStart : Obligations.JigsStart := by
  unfold Obligations.JigsStart
  intro s c j l on mode idle queue
  refine ⟨fun aligned inside going clean passes => ?_, fun bad => ⟨_, congrArg Host.Outcome.next (awake_on on _), ?_⟩⟩
  · exact congrArg Host.Outcome.next ((awake_on on _).trans (congrArg (within s ∘ after)
      (jigStart_good mode idle queue aligned inside going clean passes)))
  · have runs : (cellGet (cellPut s c ((cellGet s c).withRun (jigBegun s j rBadJig))) c).run = some (jigBegun s j rBadJig) := by
      rw [cellGet_cellPut_same]; rfl
    obtain ⟨⟨own, others⟩, notice, last, done, touched⟩ := jigMaybeEnd_spec runs rfl rfl rfl (jigStart_bad mode idle queue bad)
    refine ⟨?_, fun e he => (others e he).trans (cellGet_cellPut_ne _ _ he), notice, last.trans ?_, done, touches_via touched rfl rfl ?_⟩
    · rw [own, cellGet_cellPut_same]
      unfold Cell.withRun
      rw [queue, ← idle]; rfl
    · simp [jigBegun, jigStatus]; rfl
    · have kept := congrArg (fun t : State => { t with cells := s.cells }) touched.1
      exact kept

/-- Settles O11: the three outcomes of a fetch that may go on. -/
theorem descriptorsAreFetched : Obligations.DescriptorsAreFetched := by
  unfold Obligations.DescriptorsAreFetched
  intro s c ecc jr on s0 runs mode going notLast notStopped noTrap noHalt ahead
  have may : mayFetch s0 c jr := ⟨runs, mode, going, notLast, notStopped, noTrap, noHalt, ahead⟩
  have ran : exec (.descriptorFetch c ecc) s = .next (within s (after (fetchOne s0 c))) := congrArg Host.Outcome.next (awake_on on _)
  refine ⟨fun past => ?_, fun room outside => ?_, fun room inside clean => ?_⟩
  · rw [ran, fetchOne_eq may, if_pos past]
  · rw [ran, fetchOne_eq may, if_neg (Nat.not_le.mpr room), if_pos outside]
  · rw [ran, fetchOne_good may room inside clean]

end Sys2Proof.Machine

/-! ### Descriptors issue or fail at issue, cells fault and overrun (O12, O13, O18, O19) -/

namespace Sys2Proof.Machine

/-- R88: each of the 21 commands issues the descriptors of its opcode. -/
theorem exec_descRow {c : Fin 1024} {ecc : Ecc} {op : Nat} {i : Instr} (row : (op, i) ∈ descRows c ecc) (s : State) :
    exec i s = .next (awake s (fun t => issueDesc t c op ecc)) := by
  have rows : ∀ x ∈ descRows c ecc, exec x.2 s = .next (awake s (fun t => issueDesc t c x.1 ecc)) := by
    unfold descRows
    simp only [List.forall_mem_cons]
    refine ⟨rfl, rfl, rfl, rfl, rfl, rfl, rfl, rfl, rfl, rfl, rfl, rfl, rfl, rfl, rfl, rfl, rfl, rfl, rfl, rfl, rfl, ?_⟩
    exact fun _ none => absurd none List.not_mem_nil
  exact rows _ row

/-- Settles O12, by what the issue of a descriptor does to its cell. -/
theorem descriptorsIssue : Obligations.DescriptorsIssue := by
  unfold Obligations.DescriptorsIssue
  intro s c ecc op i jr d on row s0 next goes
  obtain ⟨aux, issues⟩ := issueDesc_go next goes
  obtain ⟨own, others, sem, touched⟩ := takeIssue_spec (s := s0) (c := c) (jr := jr) (d := d) (aux := aux) rfl
  refine ⟨_, issuedOf s0 jr d aux, ?_, rfl, rfl, rfl, rfl, rfl, rfl, own, others, sem, touched⟩
  rw [exec_descRow row, awake_on on, issues]

theorem reasonStatus_ne_ok (r : Nat) : reasonStatus r ≠ 0 := by
  unfold reasonStatus
  split_ifs <;> decide

/-- Settles O13: a failure at issue is a completion with a status other than OK. -/
theorem descriptorsFailAtIssue : Obligations.DescriptorsFailAtIssue := by
  unfold Obligations.DescriptorsFailAtIssue
  intro s c ecc op i jr d r det on row s0 next free fails
  let left : JigRun := { jr with
    fetched := jr.fetched.drop 1, nextIssue := jr.nextIssue + 1, prev := some (d, reasonStatus r), waitSince := s0.now, lockSince := none }
  obtain ⟨own, others, -, touched⟩ :=
    descDone_spec s0 c left jr.nextIssue (jr.jig.start + 64 * jr.nextIssue) d (reasonStatus r) r det []
  obtain ⟨-, fetched, nextIssue, failed, -⟩ := jigAfter_fields left jr.nextIssue d (reasonStatus r)
  refine ⟨failNext s0 c jr d (reasonStatus r) r det, _, ?_, own, jigAfter_issued _ _ _ _, fetched, nextIssue, ?_, others, ?_⟩
  · rw [exec_descRow row, awake_on on, issueDesc_fail next free fails]
  · have counts : (reasonStatus r != 0) = true := by simpa using reasonStatus_ne_ok r
    rw [failed, counts]; rfl
  · rwa [List.append_nil] at touched

/-! A parity error (R107). -/

/-- The page whose event a parity error raises. -/
def parityPage (c : Nat) (lane : Bool) : Nat := if lane then pgVector c else pgArrays c

theorem parityError_eq (s : State) (c : Nat) (lane : Bool) (sound : (cellGet s c).mode ≠ .faulted) :
    parityError s c lane = cellFault (raise s (parityPage c lane) 0x1000) c := by
  have same : cellGet (raise s (parityPage c lane) 0x1000) c = cellGet s c := cellGet_congr (raise_cells s _ _) c
  rw [← same] at sound
  have first : (if lane = true then raise s (pgVector c) 0x1000 else raise s (pgArrays c) 0x1000) = raise s (parityPage c lane) 0x1000 :=
    (apply_ite (fun pg => raise s pg 0x1000) (lane = true) _ _).symm
  unfold parityError
  dsimp only
  rw [first, if_neg sound]

theorem cellFault_eq (s : State) (c : Nat) : cellFault s c = raise { cellPut s c { cellGet s c with mode := .faulted } with
    faults := s.faults ++ [⟨.cell c, 0, s.sclTime⟩] } (pgCelErr c) 2 := rfl

theorem touches_cells_faults {l : List Nat} {s t u : State} {x : List (Nat × Cell)} {f : List FaultRec}
    (form : t = { s with cells := x, faults := f }) (h : Touches l t u) : Touches l s { u with cells := s.cells, faults := s.faults } := by
  subst form
  exact touches_via h rfl rfl (congrArg (fun t : State => { t with cells := s.cells, faults := s.faults }) h.1)

/-- R107: a cell fault marks its cell, raises its event and is on its way to the Keeper. -/
theorem cellFault_spec (s : State) (c : Nat) :
    cellGet (cellFault s c) c = { cellGet s c with mode := .faulted } ∧ (∀ e, e ≠ c → cellGet (cellFault s c) e = cellGet s e) ∧
    (cellFault s c).faults = s.faults ++ [⟨.cell c, 0, s.sclTime⟩] ∧ (rget (cellFault s c) (pgCelErr c + 0x10)).testBit 1 = true ∧
    Touches [pgCelErr c + 0x10] s { cellFault s c with cells := s.cells, faults := s.faults } := by
  have far := pgCel_far c
  have page : pgCelErr c = pgCel c + 0x8000 := rfl
  have err : pgErr = 0x800000 := rfl
  obtain ⟨x, hx⟩ : ∃ x, x = ({ cellPut s c { cellGet s c with mode := .faulted } with faults := s.faults ++ [⟨.cell c, 0, s.sclTime⟩] } : State) := ⟨_, rfl⟩
  have eq : cellFault s c = raise x (pgCelErr c) 2 := by rw [hx, cellFault_eq]
  have touched := touches_raise (l := [pgCelErr c + 0x10]) x 2 List.mem_cons_self
  have cells : (raise x (pgCelErr c) 2).cells = (cellPut s c { cellGet s c with mode := .faulted }).cells := by rw [raise_cells, hx]
  have event := raise_bit x (pgCelErr c) 2 1 (by decide) (by decide) (by omega) (by omega)
  rw [eq]
  refine ⟨(cellGet_congr cells c).trans (cellGet_cellPut_same s c _), fun e he => (cellGet_congr cells e).trans (cellGet_cellPut_ne s _ he),
    by rw [raise_faults, hx], event, touches_cells_faults hx touched⟩

theorem rget_with_cells_faults (s : State) (x : List (Nat × Cell)) (f : List FaultRec) (a : Nat) :
    rget { s with cells := x, faults := f } a = rget s a := rfl

theorem rget_with_cells (s : State) (x : List (Nat × Cell)) (a : Nat) : rget { s with cells := x } a = rget s a := rfl

/-- Settles O18. -/
theorem parityFaultsTheCell : Obligations.ParityFaultsTheCell := by
  unfold Obligations.ParityFaultsTheCell
  intro s c lane on sound
  have far := pgCel_far c
  have err : pgErr = 0x800000 := rfl
  have errPage : pgCelErr c = pgCel c + 0x8000 := rfl
  have page : parityPage c lane = pgCel c + 0x4000 ∨ parityPage c lane = pgCel c + 0x3000 := by
    unfold parityPage; cases lane <;> [exact .inr rfl; exact .inl rfl]
  obtain ⟨own, others, reported, event, touched⟩ := cellFault_spec (raise s (parityPage c lane) 0x1000) c
  have first := touches_raise (l := [parityPage c lane + 0x10]) s (pg := parityPage c lane) 0x1000 List.mem_cons_self
  have lit := raise_bit s (parityPage c lane) 0x1000 12 (by decide) (by decide) (by omega) (by omega)
  have ran : exec (.cellParityError c lane) s = .next (within s (after (cellFault (raise s (parityPage c lane) 0x1000) c))) :=
    congrArg Host.Outcome.next ((awake_on on _).trans (congrArg (within s ∘ after) (parityError_eq s c lane sound)))
  generalize raise s (parityPage c lane) 0x1000 = t at first lit ran own others reported event touched
  generalize cellFault t c = u at own others reported event touched ran
  have raised : t.cells = s.cells := touches_field first State.cells (fun _ _ _ _ _ _ => rfl)
  have faults : t.faults = s.faults := touches_field first State.faults (fun _ _ _ _ _ _ => rfl)
  have clock : t.sclTime = s.sclTime := touches_field first State.sclTime (fun _ _ _ _ _ _ => rfl)
  refine ⟨u, ran, own.trans (by rw [cellGet_congr raised]), fun e he => (others e he).trans (cellGet_congr raised e),
    reported.trans (by rw [faults, clock]), ?_, event, ?_⟩
  · have kept : rget u (parityPage c lane + 0x10) = rget t (parityPage c lane + 0x10) :=
      (rget_with_cells_faults u _ _ _).symm.trans (touched.2 _ (by simp; omega) (by omega) (by omega))
    change (rget u (parityPage c lane + 0x10)).testBit 12 = true
    rw [kept, lit]
  · have both := touches_trans (touches_mono first (by simp)) (touches_mono (m := [parityPage c lane + 0x10, pgCelErr c + 0x10]) touched (by simp))
    rwa [raised, faults] at both

/-! Overruns (R85, R424). -/

/-- R85: an overrun in the registers of its cell. -/
def overrunCounted (s : State) (c : Nat) : State := raise (bumpSat s (pgCel c + 0x4C) 1) (pgCel c) 4

theorem overrunCounted_spec (s : State) (c : Nat) :
    rget (overrunCounted s c) (pgCel c + 0x4C) = min (rget s (pgCel c + 0x4C) + 1) 0xFFFFFFFF ∧
    (rget (overrunCounted s c) (pgCel c + 0x10)).testBit 2 = true ∧ (overrunCounted s c).cells = s.cells ∧
    Touches [pgCel c + 0x4C, pgCel c + 0x10] s (overrunCounted s c) := by
  have far := pgCel_far c
  have err : pgErr = 0x800000 := rfl
  unfold overrunCounted
  refine ⟨?_, raise_bit _ _ _ _ (by decide) (by decide) (by omega) (by omega), ?_, ?_⟩
  · rw [rget_raise_ne _ _ _ (by omega) (by omega) (by omega), rget_bumpSat_val]
  · rw [raise_cells, bumpSat_cells]
  · exact touches_trans (touches_bumpSat _ _ (by simp)) (touches_raise _ _ (by simp))

theorem updIssued_regs (s : State) (c idx : Nat) (f : RunDesc → RunDesc) : (updIssued s c idx f).regs = s.regs := by
  have only := congrArg State.regs (updIssued_cells_only s c idx f)
  exact only

theorem overrunCell_spec {s : State} {c : Nat} {jr : JigRun} (idx : Nat) (runs : (cellGet s c).run = some jr) :
    cellGet (overrunCell s c idx) c =
      (cellGet s c).withRun { jr with issued := jr.issued.map (fun q => if q.idx = idx then { q with overrun := true } else q) } ∧
    (∀ e, e ≠ c → cellGet (overrunCell s c idx) e = cellGet s e) ∧
    rget (overrunCell s c idx) (pgCel c + 0x4C) = min (rget s (pgCel c + 0x4C) + 1) 0xFFFFFFFF ∧
    (rget (overrunCell s c idx) (pgCel c + 0x10)).testBit 2 = true ∧
    Touches [pgCel c + 0x4C, pgCel c + 0x10] s { overrunCell s c idx with cells := s.cells } := by
  obtain ⟨count, event, cells, touched⟩ := overrunCounted_spec s c
  have regs : (overrunCell s c idx).regs = (overrunCounted s c).regs := updIssued_regs _ _ _ _
  have only : ({ overrunCell s c idx with cells := (overrunCounted s c).cells } : State) = overrunCounted s c := updIssued_cells_only _ c idx _
  refine ⟨?_, fun e he => (updIssued_ne _ c idx _ e he).trans (cellGet_congr cells e), (rget_congr regs _).trans count,
    (congrArg (·.testBit 2) (rget_congr regs _)).trans event, ?_⟩
  · have before : (cellGet (overrunCounted s c) c).run = some jr := by rw [cellGet_congr cells]; exact runs
    exact (updIssued_cell _ c idx _ jr before).trans (congrArg (Cell.withRun · _) (cellGet_congr cells c))
  · rw [cells] at only
    rw [only]; exact touched

/-- The registers in which a partition records an overrun (R424). -/
def overrunPartRegs (p : Nat) : List Nat := [pgPartId p + 0x10, pgPartId p + 0x48, pgPartId p + 0x4C, pgPartId p + 0x50, pgPrt + 0x10]

theorem overrunPart_spec (s : State) (p c tag jig : Nat) :
    rget (overrunPart s p c tag jig) (pgPartId p + 0x48) = min (rget s (pgPartId p + 0x48) + 1) 0xFFFFFFFF ∧
    (overrunPart s p c tag jig).cells = s.cells ∧ Touches (overrunPartRegs p) s (overrunPart s p c tag jig) := by
  have page : pgPartId p = 0x20000000 + p * 0x10000 := rfl
  have prt : pgPrt = 0x60000 := rfl
  have err : pgErr = 0x800000 := rfl
  have latched : ∀ t, (t = s ∨ t = rset (rset s (pgPartId p + 0x4C) (c % 1024 + tag * 2 ^ 16)) (pgPartId p + 0x50) (jig % 65536)) →
      rget t (pgPartId p + 0x48) = rget s (pgPartId p + 0x48) ∧ t.cells = s.cells ∧ Touches (overrunPartRegs p) s t := by
    rintro t (rfl | rfl)
    · exact ⟨rfl, rfl, touches_refl _ _⟩
    · refine ⟨?_, rfl, touches_trans (touches_rset _ _ (by simp [overrunPartRegs])) (touches_rset _ _ (by simp [overrunPartRegs]))⟩
      rw [rget_rset_ne _ _ (by omega), rget_rset_ne _ _ (by omega)]
  unfold overrunPart
  dsimp only
  obtain ⟨t, which⟩ : ∃ t, t = if bit (rget s (pgPartId p + 0x10)) 0 = true then s
    else rset (rset s (pgPartId p + 0x4C) (c % 1024 + tag * 2 ^ 16)) (pgPartId p + 0x50) (jig % 65536) := ⟨_, rfl⟩
  obtain ⟨count, cells, touched⟩ := latched t (by rw [which]; split <;> simp)
  rw [← which]
  refine ⟨?_, ?_, ?_⟩
  · rw [rget_raise_ne _ _ _ (by omega) (by omega) (by omega), rget_raise_ne _ _ _ (by omega) (by omega) (by omega), rget_bumpSat_val, count]
  · rw [raise_cells, raise_cells, bumpSat_cells, cells]
  · exact touches_trans touched (touches_trans (touches_bumpSat _ _ (by simp [overrunPartRegs]))
      (touches_trans (touches_raise _ _ (by simp [overrunPartRegs])) (touches_raise _ _ (by simp [overrunPartRegs]))))

theorem cellBase_lt {c : Nat} (h : c < 1024) : pgCel c + 0x10000 ≤ 0x14000000 := by
  unfold pgCel cellBase blockBase regionBase; omega

theorem touches_within {l : List Nat} {s t : State} (h : Touches l s { t with cells := s.cells }) :
    Touches l s { within s t with cells := s.cells } := by
  have kept := within_touches h
  exact Eq.mp (congrArg (Touches l s) kept.symm) h

/-- `Touches` up to cells chains with `Touches`. -/
theorem touches_cells_alone {l : List Nat} {s a b : State} (h : Touches l s { a with cells := s.cells }) (k : Touches l a b) :
    Touches l s { b with cells := s.cells } := by
  obtain ⟨h1, h2⟩ := h
  obtain ⟨k1, k2⟩ := k
  refine ⟨Eq.trans ?_ h1, fun x hx h3 h4 => (k2 x hx h3 h4).trans (h2 x hx h3 h4)⟩
  exact congrArg (fun t : State => { t with
    regs := s.regs, disarmed := s.disarmed, msix := s.msix, msixHeld := s.msixHeld, errLog := s.errLog, cells := s.cells }) k1

section Overrun
variable {s : State} {c : Nat} {jr : JigRun} {r : RunDesc} (runs : (cellGet s c).run = some jr) (late : jr.issued.find? (overruns s) = some r)
include runs late

theorem descOverrun_unowned (owner : ownerOf s c = none) : descOverrun s c = overrunCell s c r.idx := by
  unfold descOverrun
  simp only [runs, late, owner]

theorem descOverrun_owned {p : Nat} (owner : ownerOf s c = some p) :
    descOverrun s c = overrunPart (overrunCell s c r.idx) p c (dTag r.desc) jr.jig.id := by
  unfold descOverrun
  simp only [runs, late, owner]

end Overrun

/-- Settles O19: the cell records the overrun, and then its partition where it has one. -/
theorem overrunsAreRecordedOnce : Obligations.OverrunsAreRecordedOnce := by
  unfold Obligations.OverrunsAreRecordedOnce
  intro s c jr r on runs late small
  obtain ⟨own, others, count, event, touched⟩ := overrunCell_spec r.idx runs
  have ran : exec (.descOverrun c) s = .next (within s (descOverrun s c)) := congrArg Host.Outcome.next (awake_on on _)
  cases owner : ownerOf s c with
  | none =>
    rw [descOverrun_unowned runs late owner] at ran
    generalize overrunCell s c r.idx = t at own others count event touched ran
    refine ⟨_, ran, (cellGet_within s t c).trans own, fun e he => (cellGet_within s t e).trans (others e he), ?_, ?_, fun _ => touches_within touched, nofun⟩
    · rw [rget_within, count]
    · rw [rget_within, event]
  | some p =>
    rw [descOverrun_owned runs late owner] at ran
    generalize overrunCell s c r.idx = t at own others count event touched ran
    obtain ⟨partCount, cells, partTouched⟩ := overrunPart_spec t p c (dTag r.desc) jr.jig.id
    generalize overrunPart t p c (dTag r.desc) jr.jig.id = u at partCount cells partTouched ran
    have page : pgPartId p = 0x20000000 + p * 0x10000 := rfl
    have prt : pgPrt = 0x60000 := rfl
    have err : pgErr = 0x800000 := rfl
    have far := pgCel_far c
    have near := cellBase_lt c.isLt
    have apart : ∀ a, pgCel c ≤ a → a < pgCel c + 0x10000 → rget u a = rget t a :=
      fun a low high => partTouched.2 a (by simp [overrunPartRegs]; omega) (by omega) (by omega)
    have before : rget t (pgPartId p + 0x48) = rget s (pgPartId p + 0x48) :=
      (rget_with_cells t _ _).symm.trans (touched.2 _ (by simp; omega) (by omega) (by omega))
    have mine : Touches ([pgCel c + 0x4C, pgCel c + 0x10] ++ overrunPartRegs p) s { t with cells := s.cells } :=
      touches_mono touched (fun _ h => List.mem_append_left _ h)
    have parts := touches_mono partTouched (fun a h => List.mem_append_right [pgCel c + 0x4C, pgCel c + 0x10] h)
    refine ⟨_, ran, ?_, fun e he => ?_,
      ?_, ?_, nofun, fun q hq => ?_⟩
    · rw [cellGet_within, cellGet_congr cells, own]
    · rw [cellGet_within, cellGet_congr cells, others e he]
    · rw [rget_within, apart _ (by omega) (by omega), count]
    · rw [rget_within, apart _ (by omega) (by omega), event]
    · obtain rfl := Option.some.inj hq
      refine ⟨?_, touches_within (touches_cells_alone mine parts)⟩
      rw [rget_within, partCount, before]

end Sys2Proof.Machine

/-! ### Software writes to a cell; micro-programs (O20) -/

namespace Sys2Proof.Machine

theorem within_mpRequest {s t : State} (h : within s t = t) (c : Nat) (addr : Option Nat) (slot : Nat) :
    within s (mpRequest t c addr slot) = mpRequest t c addr slot := by
  have kept : ∀ x : Cell, within s (cellPut t c x) = cellPut t c x := fun x => congrArg (fun u : State => cellPut u c x) h
  unfold mpRequest
  dsimp only
  split
  · exact kept _
  · exact kept _

/-- R147: a load or clear goes on while no issued descriptor of the cell uses the vector engine or the special-function unit. -/
theorem mpInstallRow_free {s : State} {c : Nat}
    (free : ∀ jr, (cellGet s c).run = some jr → ∀ r ∈ jr.issued, (opUnits (dOp r.desc)).any (fun u => u == .vector || u == .sfu) = false) :
    mpInstallRow s c = mpInstall s c := by
  unfold mpInstallRow
  refine if_neg ?_
  cases runs : (cellGet s c).run with
  | none => simp
  | some jr =>
    have none : jr.issued.any (fun r => (opUnits (dOp r.desc)).any (fun u => u == .vector || u == .sfu)) = false :=
      List.any_eq_false.mpr (fun r hr => by simp [free jr runs r hr])
    simp [none]

theorem mpInstall_clear {s : State} {c slot : Nat} (load : (cellGet s c).mpLoad = some (none, slot)) :
    mpInstall s c = cellPut s c { cellGet s c with
      mp := tabPut (fun _ => []) (cellGet s c).mp slot [], mpLoad := (cellGet s c).mpHeld.head?, mpHeld := (cellGet s c).mpHeld.drop 1 } := by
  unfold mpInstall
  simp only [load]

section Image
variable {s : State} {c slot a : Nat} {img : List Byte} (load : (cellGet s c).mpLoad = some (some a, slot)) (aligned : a % 64 = 0)
  (header : a + 224 ≤ scratchBytes s c) (inside : a + fld (crd s .slice c a 16) 8 4 ≤ scratchBytes s c)
  (clean : firstBad s.mems .slice (sliceA c a) (fld (crd s .slice c a 16) 8 4) = none)
  (read : img = crd s .slice c a (min (fld (crd s .slice c a 16) 8 4) 4832))
include load aligned header inside clean read

/-- R148: what an image that lies in the scratchpad and can be read leads to is decided by its contents. -/
theorem mpInstall_image : mpInstall s c =
    (let y : Cell := { cellGet s c with
      mp := if mpReject slot img = 0 then tabPut (fun _ => []) (cellGet s c).mp slot img else (cellGet s c).mp
      mpLoad := (cellGet s c).mpHeld.head?, mpHeld := (cellGet s c).mpHeld.drop 1 }
    let s1 := rset (cellPut s c y) (pgVector c + 0x50) (mpReject slot img * 2 ^ 8 + slot % 128 * 2 ^ 16)
    if mpReject slot img = 0 then s1 else raise s1 (pgVector c) 0x400) := by
  have place : ¬(a % 64 ≠ 0 ∨ scratchBytes s c < a + 224 ∨ scratchBytes s c < a + fld (crd s .slice c a 16) 8 4) := by omega
  unfold mpInstall
  simp only [load, if_neg place, clean, Option.isSome_none, Bool.false_eq_true, if_false, read]

theorem mpInstall_good (good : mpReject slot img = 0) : mpInstall s c = rset (cellPut s c { cellGet s c with
    mp := tabPut (fun _ => []) (cellGet s c).mp slot img, mpLoad := (cellGet s c).mpHeld.head?, mpHeld := (cellGet s c).mpHeld.drop 1 })
    (pgVector c + 0x50) (slot % 128 * 2 ^ 16) := by
  rw [mpInstall_image load aligned header inside clean read]
  simp only [good, if_true, Nat.zero_mul, Nat.zero_add]

theorem mpInstall_bad (bad : mpReject slot img ≠ 0) : mpInstall s c = raise (rset (cellPut s c { cellGet s c with
    mpLoad := (cellGet s c).mpHeld.head?, mpHeld := (cellGet s c).mpHeld.drop 1 })
    (pgVector c + 0x50) (mpReject slot img * 2 ^ 8 + slot % 128 * 2 ^ 16)) (pgVector c) 0x400 := by
  rw [mpInstall_image load aligned header inside clean read]
  simp only [if_neg bad]

end Image

/-- RESUME is set in every write that the command makes. -/
theorem celCtrl_resume (s : State) (c v : Nat) : celCtrl s c (v ||| 2) = after (celResume (plainWrite s .cel c (pgCel c + 8) (v ||| 2)) c) := by
  have set : bit (v ||| 2) 1 = true := by
    unfold bit; rw [Nat.testBit_or]; simp [show Nat.testBit 2 1 = true by decide]
  unfold celCtrl
  dsimp only
  rw [if_pos set]

theorem rget_cellPut (s : State) (c : Nat) (x : Cell) (a : Nat) : rget (cellPut s c x) a = rget s a := rfl

theorem touches_cellPut {l : List Nat} {s t : State} (h : Touches l s t) (c : Nat) (x : Cell) :
    Touches l s { cellPut t c x with cells := s.cells } := by
  obtain ⟨y, hy⟩ : ∃ y, cellPut t c x = { t with cells := y } := ⟨_, rfl⟩
  rw [hy]
  exact touches_via h rfl rfl (congrArg (fun t : State => { t with cells := s.cells }) h.1)

theorem celResume_trapped {s : State} {c : Nat} (trapped : (cellGet s c).mode = .trapped) :
    celResume s c = cellPut s c { cellGet s c with mode := .normal } := if_pos trapped

/-- R106: RESUME of a TRAPPED cell. -/
theorem celResume_spec {s u : State} {c v : Nat} (trapped : (cellGet s c).mode = .trapped)
    (resumed : u = celResume (plainWrite s .cel c (pgCel c + 8) (v ||| 2)) c) :
    cellGet u c = { cellGet s c with mode := .normal } ∧ (∀ e, e ≠ c → cellGet u e = cellGet s e) ∧
    bits (rget u (pgCel c + 8)) 0 0 = bits v 0 0 ∧
    bits (rget u (pgCel c + 8)) 2 2 = (if (ownerOf s c).isSome then bits (rget s (pgCel c + 8)) 2 2 else bits v 2 2) ∧
    Touches [pgCel c + 8, pgChp + 0x10, pgChp + 0x74] s { u with cells := s.cells } := by
  obtain ⟨cells, touched, enable, bound⟩ := plainWrite_celCtrl s c (v ||| 2)
  generalize plainWrite s .cel c (pgCel c + 8) (v ||| 2) = w at cells touched enable bound resumed
  have same := cellGet_congr cells
  rw [celResume_trapped (by rw [same]; exact trapped)] at resumed
  subst resumed
  refine ⟨?_, fun e he => ?_, ?_, ?_, ?_⟩
  · rw [cellGet_cellPut_same, same]
  · rw [cellGet_cellPut_ne _ _ he, same]
  · rw [rget_cellPut, enable]; exact bits_or_ne v 1 0 (by decide)
  · have same2 : bits (v ||| 2) 2 2 = bits v 2 2 := bits_or_ne v 1 2 (by decide)
    rw [rget_cellPut, bound, same2]
  · exact touches_cellPut touched c _

/-- Settles O20: each write by its meaning, and the installation by what is in progress. -/
theorem cellWritesActAndMicroProgramsInstall : Obligations.CellWritesActAndMicroProgramsInstall := by
  unfold Obligations.CellWritesActAndMicroProgramsInstall
  refine ⟨fun s c m v on => ⟨fun n served => ?_, fun served trapped => ?_, fun served => ?_, fun served slot idle => ?_, fun served slot busy => ?_⟩,
    fun s c slot on free => ⟨fun load => ?_, fun a img load aligned header inside clean read => ⟨fun good => ?_, fun bad => ?_⟩⟩⟩
  · exact congrArg Host.Outcome.next ((awake_pfWrite_served served _ _ _).trans (congrArg (within s) (plainWrite_sem s c n v.toNat n.isLt)))
  · exact ⟨_, congrArg Host.Outcome.next ((awake_pfWrite_served served _ _ _).trans (congrArg (within s) (celCtrl_resume s c v.toNat))),
      celResume_spec trapped rfl⟩
  · exact congrArg Host.Outcome.next ((awake_pfWrite_served served _ _ _).trans (within_mpRequest rfl c _ _))
  · have clears : mpClearWrite s c v.toNat = cellPut s c { cellGet s c with mpLoad := some (none, v.toNat % 128) } := by
      unfold mpClearWrite mpRequest
      rw [if_neg (Nat.not_lt.mpr slot)]
      simp only [idle, Option.isNone_none, if_true]
    exact congrArg Host.Outcome.next ((awake_pfWrite_served served _ _ _).trans (congrArg (within s) clears))
  · have waits : mpClearWrite s c v.toNat = cellPut s c { cellGet s c with mpHeld := (cellGet s c).mpHeld ++ [(none, v.toNat % 128)] } := by
      unfold mpClearWrite mpRequest
      rw [if_neg (Nat.not_lt.mpr slot)]
      simp only [Option.isNone_iff_eq_none, if_neg busy]
    exact congrArg Host.Outcome.next ((awake_pfWrite_served served _ _ _).trans (congrArg (within s) waits))
  · exact congrArg Host.Outcome.next ((awake_on on _).trans (congrArg (within s) ((mpInstallRow_free free).trans (mpInstall_clear load))))
  · exact congrArg Host.Outcome.next ((awake_on on _).trans (congrArg (within s)
      ((mpInstallRow_free free).trans (mpInstall_good load aligned header inside clean read good))))
  · have installs := (mpInstallRow_free free).trans (mpInstall_bad load aligned header inside clean read bad)
    generalize hx : rset (cellPut s c { cellGet s c with mpLoad := (cellGet s c).mpHeld.head?, mpHeld := (cellGet s c).mpHeld.drop 1 })
      (pgVector c + 0x50) (mpReject slot img * 2 ^ 8 + slot % 128 * 2 ^ 16) = x at installs ⊢
    have raised := touches_raise (l := [pgVector c + 0x10]) x (pg := pgVector c) 0x400 List.mem_cons_self
    have kept : within x (raise x (pgVector c) 0x400) = raise x (pgVector c) 0x400 := within_touches raised
    have same : within s (raise x (pgVector c) 0x400) = within x (raise x (pgVector c) 0x400) := by rw [← hx]; rfl
    exact congrArg Host.Outcome.next ((awake_on on _).trans ((congrArg (within s) installs).trans (same.trans kept)))

end Sys2Proof.Machine

/-! ### Accesses, the sideband and the test port (O22, O41) -/

namespace Sys2Proof.Machine

/-- R534: the page that captures an aborted access. -/
def abortPage (a kind : Nat) : Nat := if kind = 1 then a / 0x1000 * 0x1000 else pgChp

/-- R534, R535: what an aborted access changes. -/
theorem abortAccess_spec (s : State) (m a : Nat) (write : Bool) (be data kind : Nat) :
    (abortAccess s m a write be data kind).resp = .abort ∧
    Touches [abortPage a kind + 0x20, abortPage a kind + 0x24, abortPage a kind + 0x28, abortPage a kind + 0x2C, pgChp + 0x70, pgChp + 0x10] s
      { abortAccess s m a write be data kind with resp := s.resp } := by
  obtain ⟨t, ht⟩ : ∃ t, t = bumpSat (capture s (abortPage a kind) a (m + b2n write * 2 ^ 16 + be % 16 * 2 ^ 17) (if write = true then data else 0)
    (0xFE + kind * 2 ^ 8)) (pgChp + 0x70) 1 := ⟨_, rfl⟩
  have counted : Touches [abortPage a kind + 0x20, abortPage a kind + 0x24, abortPage a kind + 0x28, abortPage a kind + 0x2C, pgChp + 0x70, pgChp + 0x10] s t := by
    rw [ht]
    exact touches_trans (touches_capture s _ _ _ _ (by simp) (by simp) (by simp) (by simp)) (touches_bumpSat _ _ (by simp))
  have raised : ∀ u, u = t ∨ u = raise t pgChp 2 → Touches [abortPage a kind + 0x20, abortPage a kind + 0x24, abortPage a kind + 0x28,
      abortPage a kind + 0x2C, pgChp + 0x70, pgChp + 0x10] s u := by
    rintro u (rfl | rfl)
    · exact counted
    · exact touches_trans counted (touches_raise _ _ (by simp))
  obtain ⟨u, hu, eq⟩ : ∃ u, (u = t ∨ u = raise t pgChp 2) ∧ abortAccess s m a write be data kind = { u with resp := .abort } := by
    refine ⟨if kind = 1 ∨ kind = 2 then raise t pgChp 2 else t, ?_, ?_⟩
    · by_cases h : kind = 1 ∨ kind = 2
      · exact .inr (if_pos h)
      · exact .inl (if_neg h)
    · rw [ht]; rfl
  have touched := raised u hu
  have resp : u.resp = s.resp := touches_field touched State.resp (fun _ _ _ _ _ _ => rfl)
  rw [eq]
  refine ⟨rfl, ?_⟩
  have back : ({ ({ u with resp := .abort } : State) with resp := s.resp } : State) = u := by rw [← resp]
  rwa [back]

/-! What the sideband and the test port do with P54V in range. -/

section Sideband
variable {s : State} (good : inputGood s = true)
include good

theorem i3cAssign_named {static : Option Nat} (named : ∀ x, static = some x → x = 0x58 + rbits s (pgChp + 0x58) 2 0) (addr : Nat) :
    i3cAssign s static addr = { s with i3c := { s.i3c with addr := some addr, down := false } } := by
  have fits : static.elim true (fun a => a == 0x58 + rbits s (pgChp + 0x58) 2 0) = true := by
    cases static with
    | none => rfl
    | some x => simpa using named x rfl
  unfold i3cAssign
  dsimp only
  rw [fits, good]; rfl

theorem jtagLoad_good (i : JInstr) : jtagLoad s i = { s with jtag := if i = .other then .bypass else i } := if_pos good

theorem jtagReset_good : Machine.jtagReset s = { s with jtag := .idcode } := if_pos good

variable (up : s.i3c.down = false) (addressed : s.i3c.addr.isSome = true)
include up addressed

theorem i3cReady_true : i3cReady s = true := by unfold i3cReady; simp [good, up, addressed]

theorem i3cRead_ready :
    i3cRead s = { s with resp := .bytes (leBytes 1 (if s.cold then 2 else s.i3c.status) ++ leBytes 4 s.i3c.data) } := by
  unfold i3cRead
  rw [i3cReady_true good up addressed]; rfl

theorem i3cWrite_cold (cold : s.cold = true) (b : List Byte) : i3cWrite s b = { s with i3c := { s.i3c with status := 2 } } := by
  unfold i3cWrite
  rw [i3cReady_true good up addressed, if_neg (by decide), if_pos cold]; rfl

/-- R563: command 1 of a private write reads a register. -/
theorem i3cWrite_read (on : s.cold = false) {b : List Byte} (length : b.length = 5) (command : byteAt b 0 = 1) :
    i3cWrite s b = i3cAccess s (fld b 1 4) none := by
  unfold i3cWrite
  rw [i3cReady_true good up addressed, on, if_neg (by decide), if_neg (by decide), if_pos ⟨length, command⟩]

end Sideband

/-- R563: an access that PF BAR0 would abort leaves its status only, besides the record of the abort. -/
theorem i3cAccess_refused {s : State} {a : Nat} (refused : accessKind s a (decide (a % 4 = 0)) ≠ 0) :
    (i3cAccess s a none).resp = s.resp ∧
    (i3cAccess s a none).i3c = { s.i3c with status := if accessKind s a (decide (a % 4 = 0)) = 3 then 2 else 1 } ∧
    (i3cAccess s a none).mems = s.mems ∧ (i3cAccess s a none).cells = s.cells := by
  obtain ⟨-, touched⟩ := abortAccess_spec s mBmc a false 15 0 (accessKind s a (decide (a % 4 = 0)))
  have eq : i3cAccess s a none = i3cDone { abortAccess s mBmc a false 15 0 (accessKind s a (decide (a % 4 = 0))) with resp := s.resp }
      (if accessKind s a (decide (a % 4 = 0)) = 3 then 2 else 1) s.i3c.data := by
    unfold i3cAccess
    dsimp only
    rw [if_pos refused]; rfl
  rw [eq]
  generalize abortAccess s mBmc a false 15 0 (accessKind s a (decide (a % 4 = 0))) = t at touched
  have i3c : t.i3c = s.i3c := touches_field touched State.i3c (fun _ _ _ _ _ _ => rfl)
  refine ⟨rfl, ?_, touches_field touched State.mems (fun _ _ _ _ _ _ => rfl), touches_field touched State.cells (fun _ _ _ _ _ _ => rfl)⟩
  change ({ t.i3c with status := _, data := s.i3c.data } : I3c) = _
  rw [i3c]

/-- A command that also works in COLD, where what it does is within its bounds. -/
theorem always_eq {s t : State} {f : State → State} (h : f s = t) (kept : within s t = t) : always s f = t := by
  unfold always
  rw [h, kept, ite_self]

/-- Settles O22: each command of the sideband and the test port by its own meaning. -/
theorem sidebandAnswers : Obligations.SidebandAnswers := by
  unfold Obligations.SidebandAnswers
  intro s good
  refine ⟨fun st a named => ?_, fun i => congrArg Host.Outcome.next (jtagLoad_good good i), congrArg Host.Outcome.next (jtagReset_good good),
    fun up addressed => ⟨?_, fun b cold => ?_, fun b on length command refused => ?_⟩⟩
  · have static : ∀ x, st.map BitVec.toNat = some x → x = 0x58 + rbits s (pgChp + 0x58) 2 0 := by
      intro x hx
      obtain ⟨y, hy, rfl⟩ := Option.map_eq_some_iff.mp hx
      exact named y hy
    exact congrArg Host.Outcome.next (always_eq (i3cAssign_named good static a.toNat) rfl)
  · exact congrArg Host.Outcome.next (always_eq (i3cRead_ready good up addressed) rfl)
  · exact congrArg Host.Outcome.next (always_eq (i3cWrite_cold good up addressed cold b) rfl)
  · obtain ⟨resp, i3c, mems, cells⟩ := i3cAccess_refused refused
    refine ⟨_, congrArg Host.Outcome.next ((always_on on _).trans (congrArg (within s) (i3cWrite_read good up addressed on length command))), ?_⟩
    exact ⟨resp, i3c, mems, cells⟩

/-! The registers of a served page. -/

section Served
variable {s : State} {a : Nat} {pg : Page} {i : Nat} (served : Served s a) (page : pageOf a = some (pg, i)) (notMailbox : pg ≠ .mbx)
include served page notMailbox

/-- R15: a write of an event register of a page acts on that page. -/
theorem regWrite_header {off : Nat} (small : off < 0x1000) (aligned : off % 4 = 0) (m v : Nat) {t : State}
    (acts : headerWrite s (a / 0x1000 * 0x1000) off v = some t) : regWrite s m (a / 0x1000 * 0x1000 + off) v 15 true = t := by
  have same : pageOf (a / 0x1000 * 0x1000 + off) = some (pg, i) := (pageOf_same a off small).trans page
  have offset : (a / 0x1000 * 0x1000 + off) % 0x1000 = off := by omega
  rw [regWrite_served (served_same served off small) (by omega), pfPageWrite_page same notMailbox]
  unfold pageWrite
  dsimp only
  rw [offset, Nat.add_sub_cancel, acts]

omit page notMailbox in
theorem evtBase_lt : a / 0x1000 * 0x1000 < 0x20000000 := by have := served_lt served; omega

/-- R14: a read of a page without rules of its own. -/
theorem regRead_word (notDoorbell : pg ≠ .dbl) (notAmb : pg ≠ .amb) (aligned : a % 4 = 0) (m be : Nat) :
    regRead s m a be true = wordRead s m a pg := by
  rw [regRead_served served aligned page]
  unfold pfPageRead
  split
  · exact absurd rfl notMailbox
  · exact absurd rfl notDoorbell
  · exact absurd rfl notAmb
  · rfl

end Served

/-- R536: what a write of EVT_CLR changes of a page of PF BAR0. -/
theorem evtClear_spec (s : State) {pg : Nat} (chip : pg < 0x20000000) (v : Word) :
    rget (evtClear s pg v.toNat) (pg + 0x10) = rget s (pg + 0x10) &&& (0xFFFFFFFF - v.toNat) ∧
    (∀ b, b ≠ pg + 0x10 → rget (evtClear s pg v.toNat) b = rget s b) ∧ (evtClear s pg v.toNat).mems = s.mems ∧
    (evtClear s pg v.toNat).cells = s.cells := by
  obtain ⟨t, ht⟩ : ∃ t, t = rset s (pg + 0x10) (rget s (pg + 0x10) &&& (0xFFFFFFFF - v.toNat)) := ⟨_, rfl⟩
  have small : rget s (pg + 0x10) &&& (0xFFFFFFFF - v.toNat) < 2 ^ 32 := lt_of_le_of_lt Nat.and_le_left (rget_lt s _)
  have same : rget t (pg + 0x10) = rget s (pg + 0x10) &&& (0xFFFFFFFF - v.toNat) := by rw [ht, rget_rset_same, Nat.mod_eq_of_lt small]
  have other : ∀ b, b ≠ pg + 0x10 → rget t b = rget s b := fun b hb => by rw [ht, rget_rset_ne _ _ hb]
  have frame : t.mems = s.mems ∧ t.cells = s.cells := by rw [ht]; exact ⟨rfl, rfl⟩
  obtain ⟨u, hu, eq⟩ : ∃ u : State, (u.regs = t.regs ∧ u.mems = t.mems ∧ u.cells = t.cells) ∧ evtClear s pg v.toNat = summarise s u := by
    refine ⟨if rget t (pg + 0x10) = 0 then armCapture t pg else t, ?_, ?_⟩
    · split <;> exact ⟨rfl, rfl, rfl⟩
    · unfold evtClear pendChange
      dsimp only
      rw [if_pos chip, Nat.mod_eq_of_lt v.isLt, ← ht]
  obtain ⟨regs, mems, cells⟩ := summarise_regs s u
  obtain ⟨uregs, umems, ucells⟩ := hu
  rw [eq]
  refine ⟨?_, fun b hb => ?_, mems.trans (umems.trans frame.1), cells.trans (ucells.trans frame.2)⟩
  · rw [rget_congr regs, rget_congr uregs, same]
  · rw [rget_congr regs, rget_congr uregs, other b hb]

/-- R539: what a write of EVT_FORCE changes. -/
theorem evtForce_spec (s : State) {a : Nat} {pg : Page} {i : Nat} (page : pageOf a = some (pg, i)) (v : Nat) :
    evtForce s (a / 0x1000 * 0x1000) v = setEvents s (a / 0x1000 * 0x1000) (v &&& pg.evtBits) := by
  have same := pageOf_same a 0 (by decide)
  rw [Nat.add_zero, page] at same
  unfold evtForce
  rw [same]

section Latch
variable {s : State} {a : Nat} {pg : Page} (low : pairOf pg (a % 0x1000) = some (a % 0x1000))
include low

/-- R14: the read of the low word of a 64-bit register latches its high word for the master that reads. -/
theorem wordRead_low (m : Nat) : wordRead s m a pg = { s with
    latch := tabPut (fun _ => (0 : Nat)) s.latch (masterKey m (a - a % 0x1000 + a % 0x1000)) (peek s (a + 4) + 1), resp := .value (peek s a) } := by
  unfold wordRead
  dsimp only
  rw [low]
  exact if_pos rfl

theorem pair_high : pairOf pg (a % 0x1000 + 4) = some (a % 0x1000) ∧ a % 0x1000 < 0xF00 :=
  pairs_ok pg _ (List.mem_of_find?_eq_some low)

/-- R14: the same master's read of the high word answers what the read of the low word latched. -/
theorem wordRead_high (m v : Nat) (latched : tabGet (fun _ => (0 : Nat)) s.latch (masterKey m (a - a % 0x1000 + a % 0x1000)) = v + 1) :
    (wordRead s m (a + 4) pg).resp = .value v := by
  obtain ⟨high, small⟩ := pair_high low
  have offset : (a + 4) % 0x1000 = a % 0x1000 + 4 := by omega
  have base : a + 4 - (a % 0x1000 + 4) = a - a % 0x1000 := by omega
  unfold wordRead
  dsimp only
  rw [offset, high]
  dsimp only
  rw [if_neg (by omega), base, latched, if_neg (by omega), Nat.add_sub_cancel]

end Latch

/-- Settles O41: an abort by its record, the event registers by their writes, the latch by the two reads. -/
theorem accessesAct : Obligations.AccessesAct := by
  unfold Obligations.AccessesAct
  intro s m a pg i served aligned page notMailbox
  have chip := evtBase_lt served
  refine ⟨fun v be => ?_, fun v => ?_, fun v => ?_, fun be notDoorbell notAmb low => ?_⟩
  · have aborts : regWrite s m.toNat a.toNat v.toNat be.toNat false = abortAccess s m.toNat a.toNat true be.toNat v.toNat 1 := by
      unfold regWrite access
      simp only [served.1, Bool.false_and, Bool.false_eq_true, if_false, if_pos (served_lt served), accessKind_part served.2.1, ne_eq,
        one_ne_zero, not_false_eq_true, if_true]
    obtain ⟨resp, touched⟩ := abortAccess_spec s m.toNat a.toNat true be.toNat v.toNat 1
    refine ⟨_, congrArg Host.Outcome.next ((awake_on served.1 _).trans (congrArg (within s) aborts)), resp, ?_⟩
    have kept := within_touches touched
    exact Eq.mp (congrArg (Touches _ s) kept.symm) touched
  · have acts := regWrite_header served page notMailbox (off := 0x18) (by decide) (by decide) m.toNat v.toNat (t := evtClear s _ v.toNat) rfl
    obtain ⟨value, others, mems, cells⟩ := evtClear_spec s chip v
    refine ⟨_, congrArg Host.Outcome.next ((awake_on served.1 _).trans (congrArg (within s) acts)), ?_, fun b hb => ?_, mems, cells⟩
    · rw [rget_within, value]
    · rw [rget_within, others b hb]
  · have acts := regWrite_header served page notMailbox (off := 0x1C) (by decide) (by decide) m.toNat v.toNat (t := evtForce s _ v.toNat) rfl
    rw [evtForce_spec s page] at acts
    refine ⟨_, congrArg Host.Outcome.next ((awake_on served.1 _).trans (congrArg (within s) acts)), ?_, fun b hb => ?_, setEvents_mems s _ _,
      setEvents_cells s _ _⟩
    · rw [rget_within, rget_setEvents, if_pos rfl]
    · rw [rget_within, rget_setEvents, if_neg hb]
  · have reads := (regRead_word served page notMailbox notDoorbell notAmb aligned m.toNat be.toNat).trans (wordRead_low low m.toNat)
    refine ⟨_, congrArg Host.Outcome.next ((awake_on served.1 _).trans (congrArg (within s) reads)), rfl, rfl, rfl, fun u latch again => ?_⟩
    have small := served_lt served
    have next : (a + 4#30).toNat = a.toNat + 4 := by
      rw [BitVec.toNat_add]
      exact Nat.mod_eq_of_lt (by simp; omega)
    have offset := (pair_high low).2
    have split : a.toNat / 0x1000 * 0x1000 + (a.toNat % 0x1000 + 4) = a.toNat + 4 := by omega
    have servedHigh : Served u (a.toNat + 4) := by
      have := served_same again (a.toNat % 0x1000 + 4) (by omega)
      rwa [split] at this
    have pageHigh : pageOf (a.toNat + 4) = some (pg, i) := by
      have := pageOf_same a.toNat (a.toNat % 0x1000 + 4) (by omega)
      rw [split] at this
      exact this.trans page
    have readsHigh : regRead u m.toNat (a + 4#30).toNat be.toNat true = wordRead u m.toNat (a.toNat + 4) pg := by
      rw [next]
      exact regRead_word servedHigh pageHigh notMailbox notDoorbell notAmb (by omega) m.toNat be.toNat
    refine ⟨_, congrArg Host.Outcome.next ((awake_on again.1 _).trans (congrArg (within u) readsHigh)), ?_⟩
    refine wordRead_high low m.toNat _ ?_
    rw [latch]
    exact tabGet_tabPut_same _ _ _ _

end Sys2Proof.Machine

/-! ### Bindings, domains and apertures (O44, O49) -/

namespace Sys2Proof.Machine

/-- R465: what the Keeper's write of a binding does. -/
theorem bindWrite_keeper (s : State) (c v : Nat) : bindWrite s mKeeper c v = mbxBind s c v := if_pos rfl

/-- R540: a write that would change a locked field is counted. -/
theorem lockedWrite_spec (s : State) : Touches [pgChp + 0x74, pgChp + 0x10] s (lockedWrite s) ∧
    rget (lockedWrite s) (pgChp + 0x74) = min (rget s (pgChp + 0x74) + 1) 0xFFFFFFFF := by
  refine ⟨touches_lockedWrite s (by simp) (by simp), ?_⟩
  unfold lockedWrite
  rw [rget_raise_ne _ _ _ (by decide) (by decide) (by decide), rget_bumpSat_val]

section Bind
variable {s : State} {m : Half} {c : Fin 64} (served : Served s (pgMbx c + 0x40)) (keeper : m.toNat = mKeeper)
include served keeper

theorem exec_mbxBind_served (v : Word) : exec (.mbxBind m c v) s = .next (within s (mbxBind s c v.toNat)) := by
  have acts : bindWrite s m.toNat c v.toNat = mbxBind s c v.toNat := by rw [keeper, bindWrite_keeper]
  exact congrArg Host.Outcome.next ((awake_pfWrite_served served _ _ _).trans (congrArg (within s) acts))

end Bind

theorem mbxBind_valid {s : State} {c v : Nat} (free : dblLocked s = false) (valid : bindOk s c v = true) :
    mbxBind s c v = rset s (pgMbx c + 0x40) v := by
  unfold mbxBind
  rw [if_neg (by simp [free]), if_pos valid]

theorem mbxBind_invalid {s : State} {c v : Nat} (free : dblLocked s = false) (invalid : bindOk s c v = false) :
    mbxBind s c v = raise s (pgMbx c) 0x100 := by
  unfold mbxBind
  rw [if_neg (by simp [free]), if_neg (by simp [invalid])]

theorem mbxBind_locked {s : State} {c : Nat} {v : Word} (locked : dblLocked s = true) (other : v.toNat ≠ rget s (pgMbx c + 0x40)) :
    mbxBind s c v.toNat = lockedWrite s := by
  unfold mbxBind
  rw [if_pos locked, if_neg (by rw [Nat.mod_eq_of_lt v.isLt]; exact fun same => other same.symm)]

theorem exec_dblLock_served {s : State} {m : Half} (served : Served s (pgDbl + 0x40)) (keeper : m.toNat = mKeeper) :
    exec (.dblLock m) s = .next (within s (dblLock s)) := by
  have acts : dblPageWrite s m.toNat 0x40 1 = dblLock s := by rw [keeper]; rfl
  exact congrArg Host.Outcome.next ((awake_pfWrite_served served _ _ _).trans (congrArg (within s) acts))

/-! A domain powers off (R469). -/

/-- R469: the state in which the domain is off and its channels still stand. -/
def domainCut (s : State) (id : Nat) : State :=
  if id = mHost then { s with pcieUp := false } else if id = mBmc then { s with i3c := { s.i3c with down := true } } else s

theorem domainOff_congr {s t : State} (link : t.pcieUp = s.pcieUp) (parts : t.parts = s.parts) (i3c : t.i3c = s.i3c)
    (gates : rget t (pgPwr + 0x74) = rget s (pgPwr + 0x74)) (id : Nat) : domainOff t id = domainOff s id := by
  unfold domainOff partGet
  rw [link, parts, i3c, gates]

/-- The domain is off in the end: it was, or it is the host or the BMC. -/
theorem domainOff_cut {s : State} {id : Nat} (off : domainOff s id = true ∨ id = mHost ∨ id = mBmc) : domainOff (domainCut s id) id = true := by
  unfold domainCut
  by_cases host : id = mHost
  · rw [if_pos host, host]; rfl
  · rw [if_neg host]
    by_cases bmc : id = mBmc
    · rw [if_pos bmc, bmc]; rfl
    · rw [if_neg bmc]
      exact off.resolve_right (not_or.mpr ⟨host, bmc⟩)

/-- Cutting a domain changes no register, channel, memory or cell. -/
theorem domainCut_frame (s : State) (id : Nat) : (domainCut s id).regs = s.regs ∧ (domainCut s id).mbxq = s.mbxq ∧ (domainCut s id).mems = s.mems ∧
    (domainCut s id).cells = s.cells := by
  unfold domainCut
  split
  · exact ⟨rfl, rfl, rfl, rfl⟩
  · split <;> exact ⟨rfl, rfl, rfl, rfl⟩

theorem domainDown_off {s : State} {id : Nat} (on : s.cold = false) (off : domainOff (domainCut s id) id = true) :
    domainDown s id = channelsOff (domainCut s id) id := by
  have eq : domainDown s id = if s.cold = true then domainCut s id else if domainOff (domainCut s id) id = true then channelsOff (domainCut s id) id
    else domainCut s id := rfl
  rw [eq, if_neg (by simp [on]), if_pos off]

theorem mbxBound_congr {s t : State} {c : Nat} (h : rget t (pgMbx c + 0x40) = rget s (pgMbx c + 0x40)) (m : Nat) : mbxBound t m c = mbxBound s m c := by
  unfold mbxBound; rw [(mbxA_congr h).1, (mbxA_congr h).2]

/-- R469: the channel of a domain after its power-off. -/
theorem channelsOff_chan {s t : State} {id : Nat} (c : Fin 64) (same : ChanSame s t c) (bound : mbxBound s id c = true) :
    (c.val < 60 → mbxState (channelsOff t id) c = 0 ∧ (mbxState s c ≠ 0 → rbits (channelsOff t id) (pgMbx c + 0xC) 3 3 = 1)) ∧
    (60 ≤ c.val → (if mbxA s c = id then (mbxqGet (channelsOff t id) c).ba else (mbxqGet (channelsOff t id) c).ab) = []) := by
  obtain ⟨u, ⟨before, binding, -⟩, after, -, queues⟩ := channelsOff_spec t id c
  have start : rget u (pgMbx c + 0xC) = rget s (pgMbx c + 0xC) := before.trans same.1
  have bound' : rget u (pgMbx c + 0x40) = rget s (pgMbx c + 0x40) := binding.trans same.2.1
  obtain ⟨message, queue⟩ := channelOff_same u id c ((mbxBound_congr bound' id).trans bound)
  have state : mbxState (channelsOff t id) c = mbxState (channelOff u id c) c := rbits_congr after 1 0
  have error : rbits (channelsOff t id) (pgMbx c + 0xC) 3 3 = rbits (channelOff u id c) (pgMbx c + 0xC) 3 3 := rbits_congr after 3 3
  have held : mbxState u c = mbxState s c := rbits_congr start 1 0
  refine ⟨fun low => ?_, fun high => ?_⟩
  · rw [state, error, ← held]; exact message low
  · rw [queues, ← (mbxA_congr bound').1]; exact queue high

/-- Settles O44: bindings by the three branches of a write, domains by what each channel keeps. -/
theorem bindingsAndDomains : Obligations.BindingsAndDomains := by
  unfold Obligations.BindingsAndDomains
  refine ⟨fun s m c v served keeper => ⟨fun free valid => ⟨_, exec_mbxBind_served served keeper v, ?_⟩,
      fun free invalid => ⟨_, exec_mbxBind_served served keeper v, ?_⟩, fun locked other => ⟨_, exec_mbxBind_served served keeper v, ?_⟩⟩,
    fun s m served keeper => ⟨_, exec_dblLock_served served keeper, ?_⟩, fun s id on off => ?_⟩
  · rw [mbxBind_valid free valid]
    have touched : Touches [pgMbx c + 0x40] s (rset s (pgMbx c + 0x40) v.toNat) := touches_rset s _ List.mem_cons_self
    rw [within_touches touched, rget_rset_same, Nat.mod_eq_of_lt v.isLt]
    exact ⟨rfl, touched⟩
  · rw [mbxBind_invalid free invalid]
    have touched : Touches [pgMbx c + 0x10] s (raise s (pgMbx c) 0x100) := touches_raise s _ List.mem_cons_self
    rw [within_touches touched]
    exact ⟨touched, raise_chan_bit s c 0x100 8 (by decide) (by decide)⟩
  · obtain ⟨touched, counted⟩ := lockedWrite_spec s
    rw [mbxBind_locked locked other, within_touches touched]
    exact ⟨touched, counted⟩
  · have touched : Touches [pgDbl + 0x40] s (dblLock s) := touches_rset s _ List.mem_cons_self
    rw [within_touches touched]
    refine ⟨?_, touched⟩
    unfold dblLocked dblLock
    rw [rget_rset_same]; rfl
  · have cut := domainOff_cut off
    obtain ⟨regs, mbxq, mems, cells⟩ := domainCut_frame s id.toNat
    have touched := channelTouch_all (domainCut s id.toNat) id.toNat
    have same : ∀ c, ChanSame s (domainCut s id.toNat) c := fun c => ⟨rget_congr regs _, rget_congr regs _, mbxqGet_congr mbxq c⟩
    refine ⟨_, congrArg Host.Outcome.next ((always_on on _).trans (congrArg (within s) (domainDown_off on cut))), ?_, fun c small bound => ?_,
      fun c large small bound => ?_, ?_, ?_⟩
    · have kept := domainOff_congr (channelTouch_field touched State.pcieUp (fun _ _ _ _ _ _ _ => rfl))
        (channelTouch_field touched State.parts (fun _ _ _ _ _ _ _ => rfl)) (channelTouch_field touched State.i3c (fun _ _ _ _ _ _ _ => rfl))
        (touched.2 _ (by decide) (by decide) (by decide) (by decide)) id.toNat
      exact kept.trans cut
    · exact (channelsOff_chan ⟨c, by omega⟩ (same c) bound).1 small
    · exact (channelsOff_chan ⟨c, small⟩ (same c) bound).2 large
    · exact (channelTouch_field touched State.mems (fun _ _ _ _ _ _ _ => rfl)).trans mems
    · exact (channelTouch_field touched State.cells (fun _ _ _ _ _ _ _ => rfl)).trans cells

/-! The apertures (R443, R444). -/

section PfAperture
variable {x : State} {off : Nat} (on : x.cold = false) (booted : devState x ≠ dvBoot)
include on booted

omit booted in
/-- R443: an access through a window that is not enabled is aborted. -/
theorem pfAperture_disabled (disabled : bit (rget x (pgChp + 0x100 + 4 * (off / 0x100000000))) 0 = false) (b : Option (List Byte)) (n : Nat) :
    pfAperture x off b n = { x with resp := .abort } := by
  unfold pfAperture
  dsimp only
  rw [if_neg (by simp [on]), if_pos (.inr (by rw [disabled]; rfl))]

variable (enabled : bit (rget x (pgChp + 0x100 + 4 * (off / 0x100000000))) 0 = true)
  (sram : bit (rget x (pgChp + 0x100 + 4 * (off / 0x100000000))) 1 = true)
  (lit : regionDark x ((bits (rget x (pgChp + 0x100 + 4 * (off / 0x100000000))) 11 2 * 0x40000000 + off % 0x100000000) / 0x100000000) = false)
include enabled sram lit

/-- R443: an access to SRAM through an enabled window. -/
theorem pfAperture_sram (data : Option (List Byte)) (n : Nat)
    (inside : bits (rget x (pgChp + 0x100 + 4 * (off / 0x100000000))) 11 2 * 0x40000000 + off % 0x100000000 + (data.map List.length).getD n ≤ 0x400000000) :
    pfAperture x off data n =
      match data with
      | some b => { wr x .slice (bits (rget x (pgChp + 0x100 + 4 * (off / 0x100000000))) 11 2 * 0x40000000 + off % 0x100000000) b with resp := .none }
      | none => sramRead x (bits (rget x (pgChp + 0x100 + 4 * (off / 0x100000000))) 11 2 * 0x40000000 + off % 0x100000000) n := by
  have answers : ¬(devState x = dvBoot ∨ (!bit (rget x (pgChp + 0x100 + 4 * (off / 0x100000000))) 0) = true) := by simp [booted, enabled]
  unfold pfAperture
  dsimp only
  rw [if_neg (by simp [on]), if_neg answers, sram, if_neg (by simpa using inside), if_neg (by simp [lit]), if_pos rfl]
  cases data <;> rfl

end PfAperture

/-- R443: a read of scratch bytes that were written and are good. -/
theorem sramRead_clean {x : State} {a n : Nat} (good : firstBad x.mems .slice a n = none) (written : firstNever x.mems .slice a n = none)
    (scratch : a % 0x1000000 + n ≤ scratchBytes x (a / 0x1000000)) :
    sramRead x a n = { x with free := x.free + 1, resp := .bytes (memsRead x.mems .slice a n) } := by
  have whole : n - (scratchBytes x (a / 0x1000000) - a % 0x1000000) = 0 := by omega
  have all : min n (scratchBytes x (a / 0x1000000) - a % 0x1000000) = n := by omega
  unfold sramRead
  rw [good, written]
  dsimp only
  rw [whole, all]
  unfold freeBytes rd
  simp [leBytes]

section VfAperture
variable {x : State} {p o y : Nat} (served : PartServed x p) (sram : bit (rget x (pgApCtl p + 0x40)) 0 = true)
  (place : y = rget x (pgApCtl p + 0x40) / 2 ^ 28 * 2 ^ 28 + rget x (pgApCtl p + 0x44) * 2 ^ 32 + o)
include served sram place

/-- R444: a write through the aperture of a partition to the scratchpad of one of its cells. -/
theorem vfAperture_write {c : Nat} {b : List Byte} (cell : (partGet x p).cells[y / 0x1000000]? = some c)
    (inside : y % 0x1000000 + b.length ≤ scratchBytes x c) (n : Nat) :
    vfAperture x p o (some b) n = { wr x .slice (sliceA c (y % 0x1000000)) b with resp := .none } := by
  unfold vfAperture
  dsimp only
  rw [vfPart_served served, if_pos sram, ← place, cell]
  dsimp only
  rw [if_neg (by simpa using inside)]

/-- R444: an access outside the partition is denied. -/
theorem vfAperture_outside (cell : (partGet x p).cells[y / 0x1000000]? = none) (b : List Byte) (n : Nat) :
    vfAperture x p o (some b) n = { vfEvt x p 8 with resp := .abort } := by
  unfold vfAperture
  dsimp only
  rw [vfPart_served served, if_pos sram, ← place, cell]

end VfAperture

theorem rget_with_resp (s : State) (r : Resp) (a : Nat) : rget { s with resp := r } a = rget s a := rfl

/-- Settles O49: the windows of PF BAR2 and the aperture of a partition by their branches. -/
theorem windowsReachMemory : Obligations.WindowsReachMemory := by
  unfold Obligations.WindowsReachMemory
  intro s x off ecc on hx onx booted
  have pf : ∀ b n, exec (.pfBar2Access off b n ecc) s = .next (within s (pfAperture x off.toNat b n)) := by
    intro b n; rw [← hx]; exact congrArg Host.Outcome.next (awake_on on _)
  have vf : ∀ (p : Fin 1024) (o : BitVec 32) b n, exec (.vfBar2Access p o b n ecc) s = .next (within s (vfAperture x p o.toNat b n)) := by
    intro p o b n; rw [← hx]; exact congrArg Host.Outcome.next (awake_on on _)
  refine ⟨fun b n enabled sram inside lit => ⟨_, pf (some b) n, ?_⟩, fun b n disabled => ⟨_, pf b n, ?_⟩,
    fun n enabled sram inside lit good written scratch => ⟨_, pf none n, ?_⟩,
    fun p o b n c served sram => ⟨fun cell inside => ⟨_, vf p o (some b) n, ?_⟩, fun cell => ⟨_, vf p o (some b) n, ?_⟩⟩⟩
  · rw [pfAperture_sram onx booted enabled sram lit (some b) n inside]
    exact ⟨rfl, rfl, rfl, rfl⟩
  · rw [pfAperture_disabled onx disabled]
    exact ⟨rfl, rfl, rfl⟩
  · rw [pfAperture_sram onx booted enabled sram lit none n inside]
    dsimp only
    rw [sramRead_clean good written scratch]
    exact ⟨rfl, rfl, rfl⟩
  · rw [vfAperture_write served sram rfl cell inside]
    exact ⟨rfl, rfl, rfl⟩
  · rw [vfAperture_outside served sram rfl cell]
    have event := vfEvt_bit x p 8 3 (by decide) (by decide)
    have mems : (vfEvt x p 8).mems = x.mems := raise_mems x (pgVfEvt p) 8
    generalize vfEvt x p 8 = u at event mems
    refine ⟨rfl, mems, ?_⟩
    rw [rget_within, rget_with_resp, event]

end Sys2Proof.Machine

/-! ### The throttle and the stacks (O24, O29) -/

namespace Sys2Proof.Machine

theorem Touches.mems {l : List Nat} {s t : State} (h : Touches l s t) : t.mems = s.mems := touches_field h State.mems (fun _ _ _ _ _ _ => rfl)

theorem Touches.cells {l : List Nat} {s t : State} (h : Touches l s t) : t.cells = s.cells := touches_field h State.cells (fun _ _ _ _ _ _ => rfl)

theorem Touches.power {l : List Nat} {s t : State} (h : Touches l s t) : t.power = s.power := touches_field h State.power (fun _ _ _ _ _ _ => rfl)

theorem rbits_within (s t : State) (a hi lo : Nat) : rbits (within s t) a hi lo = rbits t a hi lo := rbits_congr (rget_within s t a) hi lo

theorem rbits_lt (s : State) (a hi lo : Nat) : rbits s a hi lo < 2 ^ (hi + 1 - lo) := bits_lt _ _ _

theorem rget_with_throttle (s : State) (q a : Nat) : rget { s with throttle := q } a = rget s a := rfl

/-! A dip of the input (R499, R500). -/

/-- R503: the level in force after the change. -/
theorem levelChange_on {s : State} (on : s.cold = false) : levelChange s =
    { rsetBits s (pgPwr + 0x5C) 4 0 (min (rbits s (pgPwr + 0x5C) 12 8) (rbits s (pgPwr + 0x5C) 20 16)) with
      throttle := min (rbits s (pgPwr + 0x5C) 12 8) (rbits s (pgPwr + 0x5C) 20 16) } := by
  unfold levelChange
  dsimp only
  rw [if_neg (by simp [on])]

/-- R297, R499: a change of the power request `lvl` and of STATUS.INPUT `st`, with the stacks derated by it. -/
def inputSet (s : State) (lvl st : Nat) : State := derateAll (rsetBits (rsetBits s (pgPwr + 0x5C) 12 8 lvl) (pgPwr + 0xC) 1 0 st)

/-- The registers that such a change may write. -/
def inputSetRegs : List Nat := [pgPwr + 0x5C, pgPwr + 0xC] ++ derateRegs

theorem touches_inputSet (s : State) (lvl st : Nat) : Touches inputSetRegs s (inputSet s lvl st) :=
  touches_trans (touches_rsetBits _ _ _ _ (by simp [inputSetRegs]))
    (touches_trans (touches_rsetBits _ _ _ _ (by simp [inputSetRegs])) (touches_mono (touches_derateAll _) (fun _ h => List.mem_append_right _ h)))

theorem inputSet_spec (s : State) {lvl st : Nat} (hl : lvl < 32) (hs : st < 4) :
    rbits (inputSet s lvl st) (pgPwr + 0x5C) 12 8 = lvl ∧ rbits (inputSet s lvl st) (pgPwr + 0xC) 1 0 = st := by
  have keeps : ∀ (t : State) (x : Nat), x = 0x5C ∨ x = 0xC → rget (derateAll t) (pgPwr + x) = rget t (pgPwr + x) := by
    rintro t x (rfl | rfl) <;> exact rget_derateAll t (.inr (by decide)) (by decide) (by decide)
  unfold inputSet
  constructor
  · rw [rbits_congr (keeps _ _ (.inl rfl)), rbits_rsetBits_ne _ _ _ _ _ _ (by decide), rbits_rsetBits_same _ _ _ _ _ (by decide) (by decide)]
    exact Nat.mod_eq_of_lt hl
  · rw [rbits_congr (keeps _ _ (.inr rfl)), rbits_rsetBits_same _ _ _ _ _ (by decide) (by decide)]
    exact Nat.mod_eq_of_lt hs

/-- R297: a power request below 16 halves every stack. -/
theorem inputSet_derates (s : State) {lvl st : Nat} (below : lvl < 16) {i : Nat} (hi : i < 8) :
    rbits (inputSet s lvl st) (pgHbm i + 0x44) 12 0 = 2048 := by
  unfold inputSet
  refine derateAll_value _ ?_ i hi
  rw [rbits_rsetBits_ne _ _ _ _ _ _ (by decide), rbits_rsetBits_same _ _ _ _ _ (by decide) (by decide)]
  omega

/-- What an event of the power page leaves of the registers of the throttle, the input and the stacks. -/
theorem rget_raise_pwr (s : State) (e : Nat) {a : Nat} (h : a = pgPwr + 0x5C ∨ a = pgPwr + 0xC ∨ a < 0x180000) : rget (raise s pgPwr e) a = rget s a := by
  have pwr : pgPwr = 0x700000 := rfl
  have err : pgErr = 0x800000 := rfl
  exact rget_raise_ne s pgPwr e (by omega) (by omega) (by omega)

/-- R499: the bank switch opens. -/
theorem bankOpen_dip {s : State} {t : Nat} (on : s.cold = false) (dip : s.power.dip = some t) (closed : s.power.bankOpen = false)
    (going : inputStatus s ≠ 3) (due : 2000000 ≤ s.now - t ∨ s.power.bank ≤ 48900) : bankOpen s =
    bumpSat (raise (inputSet { s with power := { s.power with bankOpen := true } } 4 2) pgPwr 2) (pgPwr + 0x50) 1 := by
  have waits : ¬(s.now - t < 2000000 ∧ 48900 < s.power.bank) := by omega
  have none : (s.cold || s.power.bankOpen || inputStatus s == 3 || decide (s.now - t < 2000000 ∧ 48900 < s.power.bank)) = false := by
    simp only [on, closed, Bool.or_false, Bool.false_or, Bool.or_eq_false_iff, beq_eq_false_iff_ne, ne_eq, decide_eq_false_iff_not]
    exact ⟨going, waits⟩
  unfold bankOpen
  rw [dip]
  dsimp only
  rw [none, if_neg Bool.false_ne_true]
  rfl

/-- R500: ten ms at 44 V or above release the power throttle. -/
theorem dipRecover_ok {s : State} {t : Nat} (on : s.cold = false) (ok : s.power.okSince = some t) (long : 10000000 ≤ s.now - t)
    (throttled : rbits s (pgPwr + 0x5C) 12 8 ≠ 16) (going : inputStatus s ≠ 3) : dipRecover s = raise (inputSet s 16 0) pgPwr 4 := by
  have none : ¬(rbits s (pgPwr + 0x5C) 12 8 = 16 ∨ s.cold = true ∨ inputStatus s = 3 ∨
      s.power.okSince.elim true (fun t => decide (s.now - t < 10000000)) = true) := by
    rw [ok]
    simp only [Option.elim_some, decide_eq_true_eq, on, Bool.false_eq_true, false_or, not_or]
    exact ⟨throttled, going, by omega⟩
  unfold dipRecover
  rw [if_neg none]; rfl

/-- Settles O24: the level, the opening of the bank switch, the recovery, each by its registers. -/
theorem throttleFollowsTheInput : Obligations.ThrottleFollowsTheInput := by
  unfold Obligations.ThrottleFollowsTheInput
  intro s on
  refine ⟨?_, fun t dip closed going due => ?_, fun t ok long throttled going => ?_⟩
  · have level := levelChange_on on
    generalize hq : min (rbits s (pgPwr + 0x5C) 12 8) (rbits s (pgPwr + 0x5C) 20 16) = q at level ⊢
    have small : q < 2 ^ 5 := by rw [← hq]; exact lt_of_le_of_lt (min_le_left _ _) (rbits_lt s _ 12 8)
    have touched : Touches [pgPwr + 0x5C] s (rsetBits s (pgPwr + 0x5C) 4 0 q) := touches_rsetBits s _ _ _ List.mem_cons_self
    have value := rbits_rsetBits_same s (pgPwr + 0x5C) 4 0 q (by decide) (by decide)
    generalize rsetBits s (pgPwr + 0x5C) 4 0 q = x at level touched value
    refine ⟨_, congrArg Host.Outcome.next ((awake_on on _).trans (congrArg (within s) level)), rfl, ?_, ?_⟩
    · rw [rbits_within, rbits_congr (rget_with_throttle x q _), value, Nat.mod_eq_of_lt small]
    · have same : x.throttle = s.throttle := touches_field touched State.throttle (fun _ _ _ _ _ _ => rfl)
      have back : ({ within s { x with throttle := q } with throttle := s.throttle } : State) = within s x := by rw [← same]; rfl
      rw [back, within_touches touched]
      exact touched
  · have acts := bankOpen_dip on dip closed going due
    obtain ⟨level, input⟩ := inputSet_spec { s with power := { s.power with bankOpen := true } } (lvl := 4) (st := 2) (by decide) (by decide)
    have derated := fun st hst => inputSet_derates { s with power := { s.power with bankOpen := true } } (lvl := 4) (st := 2) (by decide) (i := st) hst
    have touched := touches_inputSet { s with power := { s.power with bankOpen := true } } 4 2
    generalize inputSet { s with power := { s.power with bankOpen := true } } 4 2 = x at acts level input derated touched
    have pwr : pgPwr = 0x700000 := rfl
    have kept : ∀ a, (a = pgPwr + 0x5C ∨ a = pgPwr + 0xC ∨ a < 0x180000) → rget (bumpSat (raise x pgPwr 2) (pgPwr + 0x50) 1) a = rget x a := by
      intro a ha
      rw [rget_bumpSat_ne _ _ (by omega), rget_raise_pwr x 2 ha]
    have noted : Touches [pgPwr + 0x10, pgPwr + 0x50] x (bumpSat (raise x pgPwr 2) (pgPwr + 0x50) 1) :=
      touches_trans (touches_raise _ _ (by simp)) (touches_bumpSat _ _ (by simp))
    generalize bumpSat (raise x pgPwr 2) (pgPwr + 0x50) 1 = u at acts kept noted
    refine ⟨_, congrArg Host.Outcome.next ((awake_on on _).trans (congrArg (within s) acts)), ?_, ?_, ?_, fun st hst => ?_, ?_, ?_⟩
    · exact noted.power.trans touched.power
    · rw [rbits_within, rbits_congr (kept _ (.inl rfl)), level]
    · rw [rbits_within, rbits_congr (kept _ (.inr (.inl rfl))), input]
    · rw [rbits_within, rbits_congr (kept _ (.inr (.inr (by unfold pgHbm; omega)))), derated st hst]
    · exact noted.mems.trans touched.mems
    · exact noted.cells.trans touched.cells
  · have acts := dipRecover_ok on ok long throttled going
    obtain ⟨level, input⟩ := inputSet_spec s (lvl := 16) (st := 0) (by decide) (by decide)
    have touched := touches_inputSet s 16 0
    generalize inputSet s 16 0 = x at acts level input touched
    have noted : Touches [pgPwr + 0x10] x (raise x pgPwr 4) := touches_raise _ _ List.mem_cons_self
    refine ⟨_, congrArg Host.Outcome.next ((awake_on on _).trans (congrArg (within s) acts)), ?_, ?_, ?_, ?_, ?_, ?_⟩
    · rw [rbits_within, rbits_congr (rget_raise_pwr x 4 (.inl rfl)), level]
    · rw [rbits_within, rbits_congr (rget_raise_pwr x 4 (.inr (.inl rfl))), input]
    · rw [rget_within]; exact raise_bit x pgPwr 4 2 (by decide) (by decide) (by decide) (by decide)
    · exact noted.power.trans touched.power
    · exact noted.mems.trans touched.mems
    · exact noted.cells.trans touched.cells

/-! The stacks (R289, R298). -/

theorem stopCause_regs (s : State) (cause level inst status : Nat) (lost : Bool) {a : Nat} (h0 : a ≠ pgErr + 0x40) (h1 : a ≠ pgErr + 0xC)
    (h2 : a ≠ pgErr + 0x10) (h3 : a ≠ pgErr + 0x60) : rget (stopCause s cause level inst status lost) a = rget s a :=
  (stopCause_spec s cause level inst status lost).1.2 a (by simp [h0, h1, h2]) h2 h3

/-- R298: the temperature of a stack is kept with its maximum. -/
def tempNoted (s : State) (st temp : Nat) : State :=
  rset s (pgHbm st + 0x40) (setBits (setBits (rget s (pgHbm st + 0x40)) 7 0 temp) 15 8 (max (bits (rget s (pgHbm st + 0x40)) 15 8) temp))

theorem tempNoted_value (s : State) (st : Nat) (temp : Byte) : rbits (tempNoted s st temp.toNat) (pgHbm st + 0x40) 7 0 = temp.toNat := by
  have inner := setBits_lt32 (rget s (pgHbm st + 0x40)) 7 0 temp.toNat (by decide) (by decide) (rget_lt s _)
  unfold tempNoted rbits
  rw [rget_rset_same, Nat.mod_eq_of_lt (setBits_lt32 _ _ _ _ (by decide) (by decide) inner),
    bits_setBits_ne _ _ _ _ _ _ (by decide) (.inl (by decide)), bits_setBits_same _ _ _ _ (by decide)]
  exact Nat.mod_eq_of_lt temp.isLt

theorem stackHeat_tempNoted (s : State) (st temp : Nat) : stackHeat (tempNoted s st temp) st = stackHeat s st :=
  rbits_congr (rget_rset_ne _ _ (by omega)) 1 0

theorem touches_tempNoted (s : State) (st temp : Nat) : Touches [pgHbm st + 0x40] s (tempNoted s st temp) := touches_rset _ _ List.mem_cons_self

/-- R297: a HOT stack runs at half rate. -/
theorem derateUpdate_hot (s : State) {st : Nat} (hot : stackHeat s st = 1) : rbits (derateUpdate s st) (pgHbm st + 0x44) 12 0 = 2048 := by
  have page : pgHbm st = 0x100000 + st * 0x10000 := rfl
  have err : pgErr = 0x800000 := rfl
  unfold derateUpdate
  dsimp only
  rw [if_pos (Or.inl (show rbits s (pgHbm st + 0xC) 1 0 = 1 from hot))]
  split
  next already => exact already
  next =>
    have value : rget (raise (rset s (pgHbm st + 0x44) 2048) (pgHbm st) 8) (pgHbm st + 0x44) = 2048 := by
      rw [rget_raise_ne _ _ _ (by omega) (by omega) (by omega), rget_rset_same]; rfl
    unfold rbits; rw [value]; rfl

/-- R298: THERMAL and HOT of a stack, with its DERATE after them. -/
def heatNoted (s : State) (st heat hot : Nat) : State := derateUpdate (rsetBits (rsetBits s (pgHbm st + 0xC) 1 0 heat) (pgHbm st + 0xC) 3 3 hot) st

/-- The registers that a change of a stack's heat may write. -/
def heatRegs (st : Nat) : List Nat := [pgHbm st + 0xC, pgHbm st + 0x44, pgHbm st + 0x10]

theorem touches_heatNoted (s : State) (st heat hot : Nat) : Touches (heatRegs st) s (heatNoted s st heat hot) :=
  touches_trans (touches_rsetBits _ _ _ _ (by simp [heatRegs]))
    (touches_trans (touches_rsetBits _ _ _ _ (by simp [heatRegs])) (touches_mono (touches_derateUpdate _ _) (by simp [heatRegs])))

theorem heatNoted_spec (s : State) {st heat hot : Nat} (h1 : heat < 4) (h2 : hot < 2) :
    stackHeat (heatNoted s st heat hot) st = heat ∧ rbits (heatNoted s st heat hot) (pgHbm st + 0xC) 3 3 = hot := by
  have page : pgHbm st = 0x100000 + st * 0x10000 := rfl
  have err : pgErr = 0x800000 := rfl
  have kept : rget (heatNoted s st heat hot) (pgHbm st + 0xC) = rget (rsetBits (rsetBits s (pgHbm st + 0xC) 1 0 heat) (pgHbm st + 0xC) 3 3 hot) (pgHbm st + 0xC) :=
    (touches_derateUpdate _ st).2 _ (by simp) (by omega) (by omega)
  unfold stackHeat
  rw [rbits_congr kept, rbits_congr kept, rbits_rsetBits_apart _ _ _ _ _ _ _ (by decide) (by decide) (.inl (by decide)),
    rbits_rsetBits_same _ _ _ _ _ (by decide) (by decide), rbits_rsetBits_same _ _ _ _ _ (by decide) (by decide)]
  exact ⟨Nat.mod_eq_of_lt h1, Nat.mod_eq_of_lt h2⟩

/-- The DERATE of a stack that has become HOT. -/
theorem heatNoted_derates (s : State) (st hot : Nat) : rbits (heatNoted s st 1 hot) (pgHbm st + 0x44) 12 0 = 2048 := by
  refine derateUpdate_hot _ ?_
  unfold stackHeat
  rw [rbits_rsetBits_apart _ _ _ _ _ _ _ (by decide) (by decide) (.inl (by decide)), rbits_rsetBits_same _ _ _ _ _ (by decide) (by decide)]
  rfl

section Reading
variable {s : State} {st : Nat} {temp : Byte} (on : s.cold = false) (keeper : keeperRuns s = true)
include on keeper

/-- R298: a reading of a NORMAL stack from 95 °C makes it HOT. -/
theorem hbmTemp_hot (normal : stackHeat s st = 0) (high : 95 ≤ temp.toNat) (below : temp.toNat < 105) : hbmTemp s st temp.toNat =
    slowNow (coolSet (raise (heatNoted (tempNoted s st temp.toNat) st 1 1) (pgHbm st) 1) (16 + st) none) st temp.toNat := by
  have heat := (stackHeat_tempNoted s st temp.toNat).trans normal
  unfold hbmTemp
  rw [if_neg (by simp [on, keeper])]
  change (if stackHeat (tempNoted s st temp.toNat) st = 2 then _ else _) = _
  rw [heat, if_neg (by decide), if_neg (by omega), if_pos ⟨heat, high⟩]
  rfl

/-- R298, R299: a reading from 105 °C stops the module. -/
theorem hbmTemp_over (cool : stackHeat s st < 2) (reached : 105 ≤ temp.toNat) : hbmTemp s st temp.toNat =
    thermalStop (raise (rsetBits (tempNoted s st temp.toNat) (pgHbm st + 0xC) 1 0 2) (pgHbm st) 4) st := by
  have heat := stackHeat_tempNoted s st temp.toNat
  unfold hbmTemp
  rw [if_neg (by simp [on, keeper])]
  change (if stackHeat (tempNoted s st temp.toNat) st = 2 then _ else _) = _
  rw [heat, if_neg (by omega), if_pos reached]
  rfl

end Reading

/-- R298: a HOT stack that has been cool for 10 ms. -/
theorem hbmCool_due {s : State} {st t0 : Nat} (on : s.cold = false) (hot : stackHeat s st = 1) (since : coolAt s (16 + st) = some t0)
    (long : 10000000 ≤ s.now - t0) : hbmCool s st = raise (heatNoted (coolSet s (16 + st) none) st 0 0) (pgHbm st) 2 := by
  have due : ((coolAt s (16 + st)).elim true (fun t => decide (s.now - t < 10000000))) = false := by rw [since]; simpa using long
  unfold hbmCool
  rw [due, hot, on]
  rfl

theorem coolSet_frame (s : State) (d : Nat) (t : Option Nat) : ∃ p, coolSet s d t = { s with power := p } := ⟨_, rfl⟩

theorem rget_with_power (s : State) (p : Power) (a : Nat) : rget { s with power := p } a = rget s a := rfl

theorem stackHeat_congr {s t : State} {st : Nat} (h : rget t (pgHbm st + 0xC) = rget s (pgHbm st + 0xC)) : stackHeat t st = stackHeat s st := rbits_congr h 1 0

/-- A stop for one cause, after a change that leaves the device as it is. -/
theorem stopCause_some {l : List Nat} {s x : State} (stops : Stoppable s) (touched : Touches l s x) (apart : pgChp + 0x40 ∉ l)
    (cause level inst status : Nat) (lost : Bool) : (stopCause x cause level inst status lost).stop.isSome = true := by
  rw [stopCause_stop (stoppable_touches stops touched apart)]; rfl

/-- Settles O29: link errors, readings, cooling, the notices' timer. -/
theorem stacksAreWatched : Obligations.StacksAreWatched := by
  unfold Obligations.StacksAreWatched
  intro s st on
  have page : pgHbm st = 0x100000 + st * 0x10000 := rfl
  have small := st.isLt
  have err : pgErr = 0x800000 := rfl
  have chp : pgChp = 0 := rfl
  refine ⟨?_, fun going fault dump => ?_, fun temp keeper normal high below => ?_, fun temp keeper cool reached going fault dump => ?_,
    fun t0 hot since long => ?_, fun hot going due => ?_⟩
  · have touched : Touches [pgHbm st + 0x5C, pgHbm st + 0x10] s (raise (bumpSat s (pgHbm st + 0x5C) 1) (pgHbm st) 0x40) :=
      touches_trans (touches_bumpSat _ _ (by simp)) (touches_raise _ _ (by simp))
    have acts : exec (.hbmLinkError st true) s = .next (raise (bumpSat s (pgHbm st + 0x5C) 1) (pgHbm st) 0x40) :=
      congrArg Host.Outcome.next ((awake_on on _).trans (within_touches touched))
    refine ⟨_, acts, ?_, ?_, touched⟩
    · rw [rget_raise_ne _ _ _ (by omega) (by omega) (by omega), rget_bumpSat_val]
    · exact raise_bit _ _ 0x40 6 (by decide) (by decide) (by omega) (by omega)
  · have touched : Touches [pgHbm st + 0x10] s (raise s (pgHbm st) 0x80) := touches_raise _ _ List.mem_cons_self
    have event := raise_bit s (pgHbm st) 0x80 7 (by decide) (by decide) (by omega) (by omega)
    have acts : hbmLinkError s st false = stopCause (raise s (pgHbm st) 0x80) 1 3 st stFailedDevice false := rfl
    have stops := stopCause_some ⟨going, on, fault, dump⟩ touched (by simp; omega) 1 3 st stFailedDevice false
    refine ⟨_, congrArg Host.Outcome.next ((awake_on on _).trans (congrArg (within s) acts)), stops, ?_⟩
    rw [rget_within, stopCause_regs _ _ _ _ _ _ (by omega) (by omega) (by omega) (by omega)]
    exact event
  · have acts := hbmTemp_hot (st := st) on keeper normal high below
    have reading := tempNoted_value s st temp
    have first := touches_tempNoted s st temp.toNat
    generalize tempNoted s st temp.toNat = x1 at acts reading first
    obtain ⟨heat, bit⟩ := heatNoted_spec x1 (st := st) (heat := 1) (hot := 1) (by decide) (by decide)
    have derated := heatNoted_derates x1 st 1
    have second := touches_heatNoted x1 st 1 1
    generalize heatNoted x1 st 1 1 = x2 at acts heat bit derated second
    have event := raise_bit x2 (pgHbm st) 1 0 (by decide) (by decide) (by omega) (by omega)
    have third : Touches [pgHbm st + 0x10] x2 (raise x2 (pgHbm st) 1) := touches_raise _ _ List.mem_cons_self
    generalize raise x2 (pgHbm st) 1 = x3 at acts event third
    obtain ⟨p, hp⟩ := coolSet_frame x3 (16 + st) none
    have kept : ∀ b, b = 0xC ∨ b = 0x44 → rget (coolSet x3 (16 + st) none) (pgHbm st + b) = rget x2 (pgHbm st + b) := by
      intro b hb
      rw [hp, rget_with_power]
      exact third.2 _ (by simp; omega) (by omega) (by omega)
    have temperature : rget (coolSet x3 (16 + st) none) (pgHbm st + 0x40) = rget x1 (pgHbm st + 0x40) := by
      rw [hp, rget_with_power]
      exact (third.2 _ (by simp) (by omega) (by omega)).trans (second.2 _ (by simp [heatRegs]) (by omega) (by omega))
    refine ⟨_, congrArg Host.Outcome.next ((awake_on on _).trans (congrArg (within s) acts)), ?_, ?_, ?_, ?_, ?_, ?_, ?_⟩
    · rw [stackHeat_congr (kept _ (.inl rfl)), heat]
    · rw [rbits_congr (kept _ (.inl rfl)), bit]
    · rw [rbits_congr temperature, reading]
    · rw [rbits_congr (kept _ (.inr rfl)), derated]
    · rw [hp, rget_with_power]; exact event
    · rw [hp]; exact third.mems.trans (second.mems.trans first.mems)
    · rw [hp]; exact third.cells.trans (second.cells.trans first.cells)
  · have acts := hbmTemp_over (st := st) on keeper cool reached
    have first := touches_tempNoted s st temp.toNat
    generalize tempNoted s st temp.toNat = x1 at acts first
    have heat := rbits_rsetBits_same x1 (pgHbm st + 0xC) 1 0 2 (by decide) (by decide)
    have second : Touches [pgHbm st + 0xC] x1 (rsetBits x1 (pgHbm st + 0xC) 1 0 2) := touches_rsetBits _ _ _ _ List.mem_cons_self
    generalize rsetBits x1 (pgHbm st + 0xC) 1 0 2 = x2 at acts heat second
    have event := raise_bit x2 (pgHbm st) 4 2 (by decide) (by decide) (by omega) (by omega)
    have third : Touches [pgHbm st + 0x10] x2 (raise x2 (pgHbm st) 4) := touches_raise _ _ List.mem_cons_self
    generalize raise x2 (pgHbm st) 4 = x3 at acts event third
    have touched : Touches [pgHbm st + 0x40, pgHbm st + 0xC, pgHbm st + 0x10] s x3 :=
      touches_trans (touches_mono first (by simp)) (touches_trans (touches_mono second (by simp)) (touches_mono third (by simp)))
    have stops := stopCause_some ⟨going, on, fault, dump⟩ touched (by simp; omega) 6 3 st stThermalAbort false
    have stopped : thermalStop x3 st = stopCause x3 6 3 st stThermalAbort false := rfl
    rw [stopped] at acts
    refine ⟨_, congrArg Host.Outcome.next ((awake_on on _).trans (congrArg (within s) acts)), ?_, stops, ?_⟩
    · have kept : rget (within s (stopCause x3 6 3 st stThermalAbort false)) (pgHbm st + 0xC) = rget x2 (pgHbm st + 0xC) := by
        rw [rget_within, stopCause_regs _ _ _ _ _ _ (by omega) (by omega) (by omega) (by omega)]
        exact third.2 _ (by simp) (by omega) (by omega)
      rw [stackHeat_congr kept]; exact heat
    · rw [rget_within, stopCause_regs _ _ _ _ _ _ (by omega) (by omega) (by omega) (by omega)]
      exact event
  · have acts := hbmCool_due on hot since long
    obtain ⟨p, hp⟩ := coolSet_frame s (16 + st) none
    rw [hp] at acts
    obtain ⟨heat, bit⟩ := heatNoted_spec ({ s with power := p } : State) (st := st) (heat := 0) (hot := 0) (by decide) (by decide)
    have first := touches_heatNoted ({ s with power := p } : State) st 0 0
    generalize heatNoted ({ s with power := p } : State) st 0 0 = x1 at acts heat bit first
    have event := raise_bit x1 (pgHbm st) 2 1 (by decide) (by decide) (by omega) (by omega)
    have second : Touches [pgHbm st + 0x10] x1 (raise x1 (pgHbm st) 2) := touches_raise _ _ List.mem_cons_self
    generalize raise x1 (pgHbm st) 2 = x2 at acts event second
    have kept : rget (within s x2) (pgHbm st + 0xC) = rget x1 (pgHbm st + 0xC) := second.2 _ (by simp) (by omega) (by omega)
    refine ⟨_, congrArg Host.Outcome.next ((awake_on on _).trans (congrArg (within s) acts)), ?_, ?_, ?_, ?_, ?_⟩
    · rw [stackHeat_congr kept, heat]
    · rw [rbits_congr kept, bit]
    · rw [rget_within]; exact event
    · exact second.mems.trans first.mems
    · exact second.cells.trans first.cells
  · exact congrArg Host.Outcome.next ((awake_on on _).trans (congrArg (within s) (slowTimer_due on hot going due)))

end Sys2Proof.Machine

/-! ### Request slots, commits, fills (O27, O28, O30) -/

namespace Sys2Proof.Machine

theorem reqCharge_eq : reqCharge = 256 * 2 ^ 24 := by decide

/-! R288, R293: whom a slot serves. -/

section Slot
variable {s : State} {st : Nat}

theorem hbmSelect_refresh (due : (hbmqGet s st).refresh ≠ 0) :
    hbmSelect s st = hbmqPut s st { hbmqGet s st with refresh := (hbmqGet s st).refresh - 1 } := if_pos due

variable (idle : (hbmqGet s st).refresh = 0)
include idle

theorem hbmSelect_urgent {p : Nat} {l : List Nat} (urgent : (hbmqGet s st).urgent = p :: l) : hbmSelect s st =
    creditPut (hbmqPut s st { hbmqGet s st with urgent := l }) (weiAddr st p)
      (max (creditGet s (weiAddr st p) - 256 * 2 ^ 24)
        (min (creditGet s (weiAddr st p)) (-(wUrgent (rget s (weiAddr st p + 4)) * 256 * 2 ^ 24 : Nat)))) := by
  unfold hbmSelect
  dsimp only
  rw [if_neg (not_not_intro idle), urgent]
  dsimp only
  unfold urgentCharge
  dsimp only
  rw [reqCharge_eq]
  rfl

variable (calm : (hbmqGet s st).urgent = [])
include calm

/-- R293: a request that its weir's credit pays comes before the others. -/
theorem hbmSelect_paid {p : Nat} (next : rrAfter (((hbmqGet s st).wait.map (·.1)).filter
      (fun p : Nat => decide (p < 1024) && decide ((256 * 2 ^ 24 : Int) ≤ creditGet s (weiAddr st p)))) (hbmqGet s st).lastG = some p) :
    hbmSelect s st = creditPut (hbmqPut s st { hbmqGet s st with
      wait := tabPut (fun _ => 0) (hbmqGet s st).wait p (tabGet (fun _ => 0) (hbmqGet s st).wait p - 1), lastG := p }) (weiAddr st p)
      (creditGet s (weiAddr st p) - 256 * 2 ^ 24) := by
  unfold hbmSelect
  dsimp only
  rw [if_neg (not_not_intro idle), calm, reqCharge_eq]
  dsimp only
  rw [next]

theorem hbmSelect_unpaid {p : Nat} (none : ((hbmqGet s st).wait.map (·.1)).filter
      (fun p : Nat => decide (p < 1024) && decide ((256 * 2 ^ 24 : Int) ≤ creditGet s (weiAddr st p))) = [])
    (next : rrAfter ((hbmqGet s st).wait.map (·.1)) (hbmqGet s st).lastB = some p) :
    hbmSelect s st = hbmqPut s st { hbmqGet s st with
      wait := tabPut (fun _ => 0) (hbmqGet s st).wait p (tabGet (fun _ => 0) (hbmqGet s st).wait p - 1), lastB := p } := by
  have all : ((hbmqGet s st).wait.map (·.1)).filter
      (fun p : Nat => !(decide (p < 1024) && decide ((256 * 2 ^ 24 : Int) ≤ creditGet s (weiAddr st p)))) = (hbmqGet s st).wait.map (·.1) := by
    refine List.filter_eq_self.mpr (fun p hp => ?_)
    have unpaid := List.filter_eq_nil_iff.mp none p hp
    simpa only [Bool.not_eq_true', Bool.not_eq_true] using unpaid
  unfold hbmSelect
  dsimp only
  rw [if_neg (not_not_intro idle), calm, reqCharge_eq]
  dsimp only
  rw [none, all]
  simp only [rrAfter, List.find?_nil, List.head?_nil] at next ⊢
  rw [next]

end Slot

/-- Settles O27: the five cases of a slot. -/
theorem hbmSlotsAreGiven : Obligations.HbmSlotsAreGiven := by
  unfold Obligations.HbmSlotsAreGiven
  intro s st on
  have slot : ∀ {t : State}, hbmSelect s st = t → within s t = t → exec (.hbmRequestSelect st) s = .next t :=
    fun acts kept => congrArg Host.Outcome.next ((awake_on on _).trans ((congrArg (within s) acts).trans kept))
  exact ⟨congrArg Host.Outcome.next (awake_on on _), fun due => slot (hbmSelect_refresh due) rfl,
    fun idle p l urgent => slot (hbmSelect_urgent idle urgent) rfl, fun idle calm p next => slot (hbmSelect_paid idle calm next) rfl,
    fun idle calm none p next => slot (hbmSelect_unpaid idle calm none next) rfl⟩

/-! R296: commits. -/

theorem weirVerdict_lt (staged : List Nat) (urgent : Bool) : weirVerdict staged urgent < 2 ^ 8 := by
  unfold weirVerdict
  split_ifs <;> decide

/-- The status field of a commit's result register. -/
theorem verdict_field {v n : Nat} (small : v < 2 ^ 8) : bits ((v + n * 2 ^ 8) % 2 ^ 32) 7 0 = v := by
  rw [bits_eq]; omega

theorem weiAddr_inj (st : Nat) : ∀ p < 1024, ∀ q < 1024, p ≠ q → weiAddr st p ≠ weiAddr st q := by
  intro p hp q hq ne
  unfold weiAddr pgWei
  omega

theorem flsAddr_inj : ∀ p < 1024, ∀ q < 1024, p ≠ q → flsAddr p ≠ flsAddr q := by
  intro p hp q hq ne
  unfold flsAddr pgFlsWin
  omega

theorem lnkAddr_inj (g : Nat) : ∀ p < 1024, ∀ q < 1024, p ≠ q → lnkAddr g p ≠ lnkAddr g q := by
  intro p hp q hq ne
  unfold lnkAddr pgLnkWei
  omega

theorem frame_fields {s w : State} (frame : { w with regs := s.regs, credit := s.credit } = s) :
    w.mems = s.mems ∧ w.cells = s.cells ∧ w.wins = s.wins ∧ within s w = w := by
  have field : ∀ {α : Type} (f : State → α), (∀ (x : State) r c, f { x with regs := r, credit := c } = f x) → f w = f s :=
    fun f same => (same w s.regs s.credit).symm.trans (congrArg f frame)
  exact ⟨field State.mems (fun _ _ _ => rfl), field State.cells (fun _ _ _ => rfl), field State.wins (fun _ _ _ => rfl),
    within_eq (field State.pending (fun _ _ _ => rfl)) (field State.now (fun _ _ _ => rfl)) (field State.cold (fun _ _ _ => rfl))
      (field State.perst (fun _ _ _ => rfl)) (field State.jtag (fun _ _ _ => rfl)) (field State.fuses (fun _ _ _ => rfl))⟩

/-- What the result registers and the event of a commit leave of `u`, in which the status of page `pg` stands at offset `st`. -/
theorem raise_commit (u : State) {pg st ev i v x : Nat} (small : v < 2 ^ 8) (status : rget u (pg + st) = (v + x * 2 ^ 8) % 2 ^ 32)
    (event : ev.testBit i = true) (word : i < 32) (aligned : pg % 0x1000 = 0) (far : pg ≠ pgErr) (inPage : st < 0x1000) (own : st ≠ 0x10) :
    bits (rget (raise u pg ev) (pg + st)) 7 0 = v ∧
    (∀ a, a / 0x1000 ≠ pg / 0x1000 → a / 0x1000 ≠ 0x800 → rget (raise u pg ev) a = rget u a) ∧ (rget (raise u pg ev) (pg + 0x10)).testBit i = true := by
  have err : pgErr = 0x800000 := rfl
  refine ⟨?_, fun a other log => ?_, raise_bit _ _ _ _ event word (by omega) far⟩
  · rw [rget_raise_ne _ _ _ (by omega) (by omega) (by omega), status, verdict_field small]
  · rw [rget_raise_ne _ _ _ (by omega) (by omega) (by omega)]

section Commit
variable {s : State} {staged : List Nat}

theorem weirCommit_all {group : Nat → Nat} {so ao : Nat} {u : Bool} (list : (List.range 1024).map (fun p => rget s (group p + so)) = staged)
    (apart : ∀ p < 1024, ∀ q < 1024, p ≠ q → group p ≠ group q) :
    ∃ w : State, weirCommit s group so ao u = (w, weirVerdict staged u, staged) ∧
      (∀ p, p < 1024 → rget w (group p + ao) = if weirVerdict staged u = stOk then rget s (group p + so) else rget s (group p + ao)) ∧
      { w with regs := s.regs, credit := s.credit } = s := by
  have spec := weirCommit_spec s group so ao u apart
  dsimp only at spec
  rw [list] at spec
  obtain ⟨outcome, active, -, frame, -⟩ := spec
  exact ⟨(weirCommit s group so ao u).1, (Prod.mk.eta (p := weirCommit s group so ao u)).symm.trans (congrArg (Prod.mk _) outcome), active, frame⟩

theorem hbmCommit_spec (st : Fin 8) (list : (List.range 1024).map (fun p => rget s (weiAddr st p)) = staged) :
    bits (rget (hbmCommit s st) (pgHbm st + 0x4C)) 7 0 = weirVerdict staged true ∧
    (∀ p, p < 1024 → rget (hbmCommit s st) (weiAddr st p + 4) =
      if weirVerdict staged true = stOk then rget s (weiAddr st p) else rget s (weiAddr st p + 4)) ∧
    (rget (hbmCommit s st) (pgHbm st + 0x10)).testBit 9 = true ∧ (hbmCommit s st).mems = s.mems ∧ (hbmCommit s st).cells = s.cells := by
  obtain ⟨w, outcome, active, frame⟩ := weirCommit_all (group := weiAddr st) (so := 0) (ao := 4) (u := true) list (weiAddr_inj st)
  simp only [Nat.add_zero] at active
  have page : pgHbm st = 0x100000 + st * 0x10000 := rfl
  have err : pgErr = 0x800000 := rfl
  have small := st.isLt
  rw [hbmCommit_eq outcome]
  obtain ⟨mems, cells, -, -⟩ := frame_fields frame
  obtain ⟨verdict, others, event⟩ := raise_commit (rset (rset w (pgHbm st + 0x4C) (weirVerdict staged true + (staged.map wShare).sum * 2 ^ 8))
    (pgHbm st + 0x50) (staged.map wUrgent).sum) (pg := pgHbm st) (st := 0x4C) (ev := 0x200) (i := 9) (weirVerdict_lt staged true)
    (by rw [rget_rset_ne _ _ (by omega), rget_rset_same]) (by decide) (by decide) (by omega) (by omega) (by decide) (by decide)
  refine ⟨verdict, fun p hp => ?_, event, (raise_mems _ _ _).trans mems, (raise_cells _ _ _).trans cells⟩
  have place : weiAddr st p = 0x100000 + st * 0x10000 + (p / 128 % 8 + 1) * 0x1000 + 0x40 + 16 * (p % 128) := rfl
  rw [← active p hp]
  refine (others _ (by omega) (by omega)).trans ?_
  rw [rget_rset_ne _ _ (by omega), rget_rset_ne _ _ (by omega)]

theorem lnkCommit_spec (g : Fin 16) (list : (List.range 1024).map (fun p => rget s (lnkAddr g p)) = staged) :
    bits (rget (lnkCommit s g) (pgLnk g + 0x64)) 7 0 = weirVerdict staged true ∧
    (∀ p, p < 1024 → rget (lnkCommit s g) (lnkAddr g p + 4) =
      if weirVerdict staged true = stOk then rget s (lnkAddr g p) else rget s (lnkAddr g p + 4)) ∧
    (rget (lnkCommit s g) (pgLnk g + 0x10)).testBit 9 = true ∧ (lnkCommit s g).mems = s.mems ∧ (lnkCommit s g).cells = s.cells := by
  obtain ⟨w, outcome, active, frame⟩ := weirCommit_all (group := lnkAddr g) (so := 0) (ao := 4) (u := true) list (lnkAddr_inj g)
  simp only [Nat.add_zero] at active
  have page : pgLnk g = 0x300000 + g * 0x10000 := rfl
  have err : pgErr = 0x800000 := rfl
  have small := g.isLt
  rw [lnkCommit_eq outcome]
  obtain ⟨mems, cells, -, -⟩ := frame_fields frame
  obtain ⟨verdict, others, event⟩ := raise_commit (rset (rset w (pgLnk g + 0x64) (weirVerdict staged true + (staged.map wShare).sum * 2 ^ 8))
    (pgLnk g + 0x6C) (staged.map wUrgent).sum) (pg := pgLnk g) (st := 0x64) (ev := 0x200) (i := 9) (weirVerdict_lt staged true)
    (by rw [rget_rset_ne _ _ (by omega), rget_rset_same]) (by decide) (by decide) (by omega) (by omega) (by decide) (by decide)
  refine ⟨verdict, fun p hp => ?_, event, (raise_mems _ _ _).trans mems, (raise_cells _ _ _).trans cells⟩
  have place : lnkAddr g p = 0x300000 + g * 0x10000 + (p / 128 % 8 + 1) * 0x1000 + 0x40 + 16 * (p % 128) := rfl
  rw [← active p hp]
  refine (others _ (by omega) (by omega)).trans ?_
  rw [rget_rset_ne _ _ (by omega), rget_rset_ne _ _ (by omega)]

theorem flsCommit_spec (list : (List.range 1024).map (fun p => rget s (flsAddr p + 8)) = staged) :
    bits (rget (flsCommit s) (pgFls + 0x44)) 7 0 = weirVerdict staged false ∧
    (∀ p, p < 1024 → rget (flsCommit s) (flsAddr p + 12) =
      if weirVerdict staged false = stOk then rget s (flsAddr p + 8) else rget s (flsAddr p + 12)) ∧
    (weirVerdict staged false ≠ stOk → (flsCommit s).wins = s.wins) ∧
    (rget (flsCommit s) (pgFls + 0x10)).testBit 2 = true ∧ (flsCommit s).mems = s.mems ∧ (flsCommit s).cells = s.cells := by
  obtain ⟨w, outcome, active, frame⟩ := weirCommit_all (group := flsAddr) (so := 8) (ao := 12) (u := false) list flsAddr_inj
  have page : pgFls = 0x200000 := rfl
  have err : pgErr = 0x800000 := rfl
  obtain ⟨x, acts, windows⟩ := flsCommit_eq outcome
  rw [acts]
  obtain ⟨mems, cells, wins, -⟩ := frame_fields frame
  obtain ⟨verdict, others, event⟩ := raise_commit (rset { w with wins := x } (pgFls + 0x44) (weirVerdict staged false + (staged.map wShare).sum * 2 ^ 8))
    (pg := pgFls) (st := 0x44) (ev := 4) (i := 2) (weirVerdict_lt staged false)
    (by rw [rget_rset_same]) (by decide) (by decide) (by omega) (by omega) (by decide) (by decide)
  refine ⟨verdict, fun p hp => ?_, fun bad => (raise_wins _ _ _).trans ((windows bad).trans wins), event, (raise_mems _ _ _).trans mems,
    (raise_cells _ _ _).trans cells⟩
  have place : flsAddr p = 0x201000 + p / 128 % 8 * 0x1000 + 0x40 + 16 * (p % 128) := rfl
  rw [← active p hp]
  refine (others _ (by omega) (by omega)).trans ?_
  rw [rget_rset_ne _ _ (by omega)]
  rfl

end Commit

/-- Settles O28: each kind of weirs by its commit. -/
theorem commitsTakeEffectWhole : Obligations.CommitsTakeEffectWhole := by
  unfold Obligations.CommitsTakeEffectWhole
  intro s m
  refine ⟨fun st served => ?_, fun served => ?_, fun g served => ?_⟩
  · intro staged
    refine ⟨_, congrArg Host.Outcome.next (awake_pfWrite_served served _ _ _), ?_⟩
    have spec := hbmCommit_spec (s := s) (staged := staged) st rfl
    generalize hbmCommit s st = t at spec ⊢
    obtain ⟨verdict, active, event, mems, cells⟩ := spec
    exact ⟨by rw [rget_within, verdict], fun p hp => by rw [rget_within, active p hp], by rw [rget_within, event], mems, cells⟩
  · intro staged
    refine ⟨_, congrArg Host.Outcome.next (awake_pfWrite_served served _ _ _), ?_⟩
    have spec := flsCommit_spec (s := s) (staged := staged) rfl
    generalize flsCommit s = t at spec ⊢
    obtain ⟨verdict, active, windows, event, mems, cells⟩ := spec
    exact ⟨by rw [rget_within, verdict], fun p hp => by rw [rget_within, active p hp], windows, by rw [rget_within, event], mems, cells⟩
  · intro staged
    refine ⟨_, congrArg Host.Outcome.next (awake_pfWrite_served served _ _ _), ?_⟩
    have spec := lnkCommit_spec (s := s) (staged := staged) g rfl
    generalize lnkCommit s g = t at spec ⊢
    obtain ⟨verdict, active, event, mems, cells⟩ := spec
    exact ⟨by rw [rget_within, verdict], fun p hp => by rw [rget_within, active p hp], by rw [rget_within, event], mems, cells⟩

/-! R284: fills. -/

section Fills
variable {s : State} {h l p st : Nat} {f : Fill} (found : s.fills.find? (fun f => f.home == h && f.line == l) = some f)
  (owner : ownerOf s h = some p) (home : lineHome s p l = some (h, st))
include found owner home

theorem fillDone_good (good : f.good = true) : fillDone s h l = { s with
    fills := s.fills.erase f
    cache := tabPut (fun _ => []) s.cache (setKey h st) ((l :: (tabGet (fun _ => []) s.cache (setKey h st)).filter (· != l)).take 16) } := by
  unfold fillDone
  rw [found, owner]
  dsimp only
  rw [home]
  dsimp only
  rw [good, beq_self_eq_true]
  rfl

theorem fillDone_met (met : f.good = false) : fillDone s h l = { s with fills := s.fills.erase f } := by
  unfold fillDone
  rw [found, owner]
  dsimp only
  rw [home]
  dsimp only
  rw [met]
  rfl

omit owner home in
/-- A fill that no stream waits for only joins the cache. -/
theorem cacheFill_alone (streams : (fillDone s h l).streams = s.streams) (alone : ∀ e ∈ s.streams, e.2.lines.contains l = false) :
    cacheFill s h l = fillDone s h l := by
  unfold cacheFill
  rw [found]
  dsimp only
  refine foldl_id _ _ _ (fun e he => ?_)
  rw [streams] at he
  rw [alone e he, Bool.false_and, if_neg Bool.false_ne_true]

end Fills

/-- At rest the end of a command is what the command did, if that leaves the module at rest. -/
theorem exec_rest {i : Instr} {s t : State} {f : State → State} (on : s.cold = false) (meaning : exec i s = .next (awake s (fun s => after (f s))))
    (acts : f s = t) (rest : AtRest t) (kept : within s t = t) : exec i s = .next t := by
  rw [meaning, awake_on on, acts, after_rest rest, kept]

/-- Settles O30. -/
theorem fillsReturn : Obligations.FillsReturn := by
  unfold Obligations.FillsReturn
  intro s h l p st f on rest found owner home alone
  refine ⟨fun good => ?_, fun met => ?_⟩
  · have done := fillDone_good found owner home good
    exact exec_rest on rfl ((cacheFill_alone found (by rw [done]) alone).trans done) rest rfl
  · have done := fillDone_met found owner home met
    exact exec_rest on rfl ((cacheFill_alone found (by rw [done]) alone).trans done) rest rfl

end Sys2Proof.Machine

/-! ### Barges and Locks (O31, O32, O33) -/

namespace Sys2Proof.Machine

/-! R323, R324: acceptance. -/

section Accept
variable {s : State} {e : Nat} {b : Barge} (offer : nextOffer s e = some b)
include offer

theorem bargeAccept_cell {c i : Nat} (good : bargeReject { s with bargeWait := s.bargeWait.filter (fun x => x.bid != b.bid) } b = none)
    (origin : b.origin = .cell c i) : bargeAccept s e = updIssued
      { s with bargeWait := s.bargeWait.filter (fun x => x.bid != b.bid), barges := s.barges ++ [b] } c i (fun r => { r with phase := .barged }) := by
  unfold bargeAccept
  rw [offer]
  dsimp only
  rw [good, origin]

theorem bargeAccept_other (good : bargeReject { s with bargeWait := s.bargeWait.filter (fun x => x.bid != b.bid) } b = none)
    (origin : ∀ c i, b.origin ≠ .cell c i) : bargeAccept s e =
      { s with bargeWait := s.bargeWait.filter (fun x => x.bid != b.bid), barges := s.barges ++ [b] } := by
  unfold bargeAccept
  rw [offer]
  dsimp only
  rw [good]
  dsimp only
  cases cell : b.origin with
  | cell c i => exact absurd cell (origin c i)
  | _ => rfl

theorem bargeAccept_rejected {st d : Nat} (bad : bargeReject { s with bargeWait := s.bargeWait.filter (fun x => x.bid != b.bid) } b = some (st, d)) :
    bargeAccept s e = bargeFinish { s with bargeWait := s.bargeWait.filter (fun x => x.bid != b.bid) } b st d := by
  unfold bargeAccept
  rw [offer]
  dsimp only
  rw [bad]

end Accept

/-! R327, R334: units start and are granted. -/

theorem unitStart_next {s : State} {e : Nat} {b : Barge} (next : nextUnit s e = some b) : unitStart s e = { s with
    barges := s.barges.map (fun x => if x.bid = b.bid then
      { b with next := b.next + 1, units := b.units ++ [⟨b.next, s.now, (unitPath s b b.next).isEmpty, false⟩] } else x)
    engineLast := tabPut (fun _ => 0) s.engineLast e (b.bid + 1) } := by
  unfold unitStart
  rw [next]
  rfl

theorem find_bid {l : List Barge} {bid : Nat} {b : Barge} (found : l.find? (fun b => b.bid == bid) = some b) : b.bid = bid := by
  simpa using List.find?_some found

theorem lockCommit_granted {s : State} {bid u : Nat} {b : Barge} (found : s.barges.find? (fun b => b.bid == bid) = some b)
    (waits : b.units.any (fun v => v.u == u && !v.granted) = true) (free : (unitPath s b u).all (fun n => !lockBarred s n.1) = true)
    (offered : pathOffers s bid u (unitPath s b u) = true) : lockCommit s bid u =
      (unitPath s b u).foldl (fun t n => lockPut t n.1 { lockGet t n.1 with beats := (lockGet t n.1).beats + n.2.2, headAt := t.now })
        (bargePut s { b with units := b.units.map (fun v => if v.u = u then { v with granted := true } else v) }) := by
  have open' : (unitPath s b u).any (fun n => lockBarred s n.1) = false := by
    rw [List.any_eq_not_all_not, free]; rfl
  unfold lockCommit
  rw [found]
  dsimp only
  rw [open', waits, offered]
  rfl

/-- R334: a commit changes the barge's units and the windows of the Locks of its path only. -/
theorem lockCommit_spec {s : State} {bid u : Nat} {b : Barge} (found : s.barges.find? (fun b => b.bid == bid) = some b)
    (waits : b.units.any (fun v => v.u == u && !v.granted) = true) (free : (unitPath s b u).all (fun n => !lockBarred s n.1) = true)
    (offered : pathOffers s bid u (unitPath s b u) = true) : ∃ t, lockCommit s bid u = t ∧ { t with barges := s.barges, locks := s.locks } = s ∧
      t.barges = s.barges.map (fun x => if x.bid = bid then { b with units := b.units.map (fun v => if v.u = u then { v with granted := true } else v) } else x) ∧
      ∀ l, (lockGet t l).beats = (lockGet s l).beats + (((unitPath s b u).filter (fun n => n.1 == l)).map (fun n => n.2.2)).sum ∧
        (lockGet t l).dirIn = (lockGet s l).dirIn ∧ (lockGet t l).turning = (lockGet s l).turning := by
  obtain ⟨frame, windows⟩ := commit_locks (unitPath s b u)
    (bargePut s { b with units := b.units.map (fun v => if v.u = u then { v with granted := true } else v) })
  refine ⟨_, lockCommit_granted found waits free offered, (congrArg (fun x : State => { x with barges := s.barges }) frame), ?_, windows⟩
  have barges : _ = _ := congrArg State.barges frame
  exact barges.trans (by rw [← find_bid found]; rfl)

theorem within_frame {s t : State} {bs : List Barge} {ls : List (Nat × Lock)} (frame : { t with barges := bs, locks := ls } = s) : within s t = t := by
  subst frame; rfl

/-- Settles O31. -/
theorem bargesAreAcceptedAndGranted : Obligations.BargesAreAcceptedAndGranted := by
  unfold Obligations.BargesAreAcceptedAndGranted
  refine ⟨fun s e b on offer => ?_, fun s on => ⟨fun e b next rest => ?_, fun bid u b found waits free offered => ?_⟩⟩
  · have accepts : ∀ {t}, bargeAccept s e = t → exec (.bargeAccept e) s = .next (within s (after t)) := fun acts =>
      congrArg Host.Outcome.next ((awake_on on _).trans (congrArg (fun t => within s (after t)) acts))
    exact ⟨fun c i good origin => accepts (bargeAccept_cell offer good origin),
      fun good origin => accepts (bargeAccept_other offer good origin), fun st d bad => accepts (bargeAccept_rejected offer bad)⟩
  · exact exec_rest on rfl (unitStart_next next) rest rfl
  · obtain ⟨t, acts, frame, rest⟩ := lockCommit_spec found waits free offered
    exact ⟨t, congrArg Host.Outcome.next ((awake_on on _).trans ((congrArg (within s) acts).trans (within_frame frame))), frame, rest⟩

/-! R334, R335: windows. -/

section Windows
variable {s : State} {l : Nat}

theorem lockWindowEnd_turns (ends : windowEnds s l = true) (other : (headReq s l (!(lockGet s l).dirIn)).isSome = true) :
    lockWindowEnd s l = lockPut s l { lockGet s l with turning := true } := by
  unfold lockWindowEnd
  rw [ends]
  exact if_pos other

theorem lockWindowEnd_renews (ends : windowEnds s l = true) (none : headReq s l (!(lockGet s l).dirIn) = none) :
    lockWindowEnd s l = lockPut s l { lockGet s l with beats := 0, urgent := 0, openAt := s.now, headAt := s.now } := by
  unfold lockWindowEnd
  rw [ends]
  dsimp only
  rw [none]
  rfl

theorem lockTurned_turning (turning : (lockGet s l).turning = true) :
    lockTurned s l = bumpSat (lockPut s l ⟨!(lockGet s l).dirIn, 0, 0, s.now, s.now, false⟩) (lockReg l + 4) 1 := if_pos turning

theorem lockAge_found {bid u : Nat} {b : Barge} (found : s.barges.find? (fun b => b.bid == bid) = some b) : lockAge s bid u = { s with
    barges := s.barges.map (fun x => if x.bid = b.bid then { b with units := b.units.map (fun v =>
      if v.u = u ∧ v.granted = false ∧ 256 ≤ cyclesOf (s.now - v.since) then { v with aged := true } else v) } else x) } := by
  unfold lockAge
  rw [found]
  rfl

theorem urgentBeat_within (few : (lockGet s l).urgent < 16) : urgentBeat s l (lockGet s l).dirIn =
    lockPut s l { lockGet s l with beats := (lockGet s l).beats + 1, urgent := (lockGet s l).urgent + 1 } :=
  (if_pos rfl).trans (if_pos few)

theorem urgentBeat_against : urgentBeat s l (!(lockGet s l).dirIn) = bumpSat s (lockReg l + 4) 2 := if_neg (by simp)

end Windows

theorem lockGet_bumpSat (s : State) (a n l : Nat) : lockGet (bumpSat s a n) l = lockGet s l := rfl
theorem rget_lockPut (s : State) (l : Nat) (x : Lock) (a : Nat) : rget (lockPut s l x) a = rget s a := rfl

/-- Settles O32. -/
theorem locksTurn : Obligations.LocksTurn := by
  unfold Obligations.LocksTurn
  intro s l on
  have acts : ∀ {i : Instr} {f : State → State} {t}, exec i s = .next (awake s f) → f s = t → within s t = t → exec i s = .next t := by
    intro i f t meaning done kept
    rw [meaning, awake_on on, done, kept]
  refine ⟨fun ends other => acts rfl (lockWindowEnd_turns ends other) rfl, fun ends none => acts rfl (lockWindowEnd_renews ends none) rfl,
    fun turning => ⟨_, acts rfl (lockTurned_turning turning) rfl, ?_, ?_, fun k other => ?_, fun a other => ?_, rfl, rfl⟩,
    fun few => acts rfl (urgentBeat_within few) rfl, acts rfl urgentBeat_against rfl, fun bid u b found => acts rfl (lockAge_found found) rfl⟩
  · rw [lockGet_bumpSat, lockGet_put_same]
  · rw [rget_bumpSat_val, rget_lockPut]
  · rw [lockGet_bumpSat, lockGet_put_ne _ _ other]
  · rw [rget_bumpSat_ne _ _ other, rget_lockPut]

/-! R327, R328: landings. -/

theorem bargeSettleCut_whole {s : State} {b : Barge} (whole : b.cut = none) : bargeSettleCut s b = bargePut s b := by
  unfold bargeSettleCut
  rw [whole]

section Land
variable {x : State} {bid : Nat} {b : Barge} {v : UnitRun} {dma : List Byte}
  (found : x.barges.find? (fun b => b.bid == bid) = some b) (lowest : b.units.find? (fun v => v.u == b.landed) = some v)
  (granted : v.granted = true)
include found lowest granted

theorem unitLand_data {s1 : State} {ws : List (Nat × List Byte)} (whole : b.cut = none) (data : unitData x b v.u dma = (s1, some ws))
    (more : b.landed + 1 ≠ b.count) : unitLand x bid dma =
      bargePut (bumpWrap64 (b.dsts.foldl (fun t e => ws.foldl (fun y w => endWrite y b.part e w.1 w.2) t) s1) (pgEngine b.engine + 0x50)
        (ws.foldl (fun n w => n + w.2.length) 0)) { b with landed := b.landed + 1, units := b.units.filter (fun y => y.u != v.u) } := by
  have unfinished : (b.landed + 1 == ({ b with landed := b.landed + 1, units := b.units.filter (fun y => y.u != v.u) } : Barge).count) = false :=
    beq_false_of_ne more
  have uncut : b.cut.isSome = false := by rw [whole]; rfl
  unfold unitLand
  rw [found]
  dsimp only
  rw [lowest]
  dsimp only
  rw [granted, data]
  dsimp only
  rw [uncut, unfinished, Bool.and_false]
  exact bargeSettleCut_whole whole

theorem unitLand_unreadable {s1 : State} (data : unitData x b v.u dma = (s1, none)) :
    unitLand x bid dma = bargeFinish (raise s1 (pgEngine b.engine) 4) b stFailedMemory 0 := by
  unfold unitLand
  rw [found]
  dsimp only
  rw [lowest]
  dsimp only
  rw [granted, data]
  rfl

theorem hostUnitLand_failed (host : b.src = .host) :
    hostUnitLand x bid dma true = bargeFinish (raise x (pgEngine b.engine) 4) b stFailedMemory dHqHostDma := by
  have waits : b.units.any (fun v => v.u == b.landed && v.granted) = true :=
    List.any_eq_true.mpr ⟨v, List.mem_of_find?_eq_some lowest, by rw [List.find?_some lowest, granted]; rfl⟩
  unfold hostUnitLand
  rw [found]
  dsimp only
  rw [host, waits]
  rfl

end Land

theorem hostUnitLand_works {x : State} {bid : Nat} {b : Barge} (found : x.barges.find? (fun b => b.bid == bid) = some b) (dma : List Byte) :
    hostUnitLand x bid dma false = unitLand x bid dma := by
  unfold hostUnitLand
  rw [found]
  rfl

theorem unitData_zero {x : State} {b : Barge} {u : Nat} {dma : List Byte} (zero : b.zero = true) (flat : b.skew = none) :
    unitData x b u dma = (x, some [((b.unit u).1, List.replicate (b.unit u).2 0#8)]) := by
  unfold unitData
  dsimp only
  rw [flat, zero]
  rfl

/-- A unit of one write lands in one bench. -/
theorem landed_bench {dsts : List BEnd} {d : Nat} (p : Nat) (bench : dsts = [.bench d]) {x : State} {a : Nat} {bs : List Byte} :
    dsts.foldl (fun t e => [(a, bs)].foldl (fun y w => endWrite y p e w.1 w.2) t) x = wr x .bench (benchA d a) bs := by
  subst bench; rfl

/-- Nothing follows from a state with the cells, notices and rollouts of a module at rest. -/
theorem after_alike {s t : State} (rest : AtRest s) (cells : t.cells = s.cells) (notices : t.notices = s.notices)
    (barges : t.bargeNotices = s.bargeNotices) (rolls : t.rolls = s.rolls) : after t = t := by
  refine after_rest ?_
  unfold AtRest cellGet at rest ⊢
  rwa [cells, notices, barges, rolls]

/-- Settles O33. -/
theorem unitsLand : Obligations.UnitsLand := by
  unfold Obligations.UnitsLand
  intro s x bid dma ecc b v on arrives found lowest granted whole
  have lands : ∀ {fail : Bool} {t}, hostUnitLand x bid dma fail = t → exec (.bargeUnitLand bid dma fail ecc) s = .next (within s (after t)) := by
    intro fail t acts
    refine congrArg Host.Outcome.next ((awake_on on _).trans ?_)
    rw [arrives, acts]
  have works := fun {t} (acts : unitLand x bid dma = t) => lands ((hostUnitLand_works found dma).trans acts)
  refine ⟨fun s1 ws data more => works (unitLand_data found lowest granted whole data more), fun d zero flat bench more rest => ?_,
    fun s1 data => works (unitLand_unreadable found lowest granted data), fun host => lands (hostUnitLand_failed found lowest granted host)⟩
  have landed := works (unitLand_data found lowest granted whole (unitData_zero zero flat) more)
  rw [landed_bench b.part bench] at landed
  exact ⟨_, landed.trans (congrArg (fun t => Host.Outcome.next (within s t)) (after_alike rest rfl rfl rfl rfl)), rfl, rfl, rfl⟩

end Sys2Proof.Machine

/-! ### Memories, the stream engine, the shared units of a block, flash (O60, O16, O17, O38) -/

namespace Sys2Proof.Machine

/-- Settles O60. -/
theorem memoriesReadBack : Obligations.MemoriesReadBack := by
  unfold Obligations.MemoriesReadBack
  intro m sp a bs
  exact ⟨memsWrite_wf m sp a bs, memsWrite_read m sp a bs⟩

/-! R306 to R311: the stream engine. -/

/-- A barge of the stream engine of cell `c`. -/
def Barge.ofStream (c : Nat) (b : Barge) : Bool := match b.origin with
  | .stream x _ => x == c
  | _ => false

/-- No barge of the stream of cell `c` is offered or in flight. -/
def StreamStill (s : State) (c : Nat) : Prop := s.barges.any (Barge.ofStream c) = false ∧ s.bargeWait.any (Barge.ofStream c) = false

theorem fenceEntryBad_started {x : Strm} {d : List Byte} (started : x.st = 1) (restart : lfRestart d = true) (entry : lfEntry d < x.ents.length) :
    fenceEntryBad x d = none := by
  unfold fenceEntryBad
  rw [if_neg (fun h => h.1 started), restart, if_neg (by simpa using entry)]

theorem streamRestart_good {s : State} {c : Nat} {r : RunDesc} {es : List (List Byte)} (fence : fenceAt s c = some r) (stage : r.aux = 0)
    (restart : lfRestart r.desc = true) (still : StreamStill s c)
    (clean : firstBad s.mems .slice (sliceA c (rbits s (pgSlice c + 0x44) 23 0)) (32 + 32 * fld (crd s .slice c (rbits s (pgSlice c + 0x44) 23 0) 32) 8 2) = none)
    (table : streamTable s c = .ok es) (entry : lfEntry r.desc < es.length) : streamRestart s c =
      fenceStage (strmPut s c ⟨1, 0, rbits s (pgSlice c + 0x48) 3 0, es, 0, 0, [], [], false, none, (strmGet s c).bad⟩) c r.idx 1 := by
  have goes : ¬ (decide (r.aux ≠ 0) || !lfRestart r.desc || s.barges.any (Barge.ofStream c) || s.bargeWait.any (Barge.ofStream c)) = true := by
    simp [stage, restart, still.1, still.2]
  unfold streamRestart
  rw [fence]
  refine (if_neg goes).trans ?_
  dsimp only
  rw [clean]
  dsimp only
  rw [table]
  dsimp only
  rw [fenceEntryBad_started rfl restart entry]

/-- A search on what a change keeps finds the changed item. -/
theorem find?_map_upd {α : Type} (p : α → Bool) (f : α → α) (same : ∀ x, p (f x) = p x) : ∀ l : List α, (l.map f).find? p = (l.find? p).map f := by
  intro l
  rw [List.find?_map, show p ∘ f = p from funext same]

/-- The fence of a cell whose stage has been set. -/
theorem fenceAt_stage {s : State} {c stage : Nat} {r : RunDesc} (fence : fenceAt s c = some r) :
    fenceAt (fenceStage s c r.idx stage) c = some { r with aux := stage, since := s.now } := by
  unfold fenceAt at fence
  cases runs : (cellGet s c).run with
  | none => rw [runs] at fence; cases fence
  | some jr =>
    rw [runs] at fence
    dsimp only at fence
    unfold fenceAt fenceStage
    rw [updIssued_cell _ _ _ _ _ runs]
    refine (find?_map_upd _ _ (fun x => ?_) _).trans ?_
    · split_ifs <;> rfl
    · rw [fence, Option.map_some, if_pos rfl]

theorem strmGet_fenceStage (s : State) (c idx stage e : Nat) : strmGet (fenceStage s c idx stage) e = strmGet s e := by
  have only := congrArg State.streams (updIssued_cells_only s c idx (fun r => { r with aux := stage, since := s.now }))
  exact congrArg (fun m => tabGet (fun _ => strmInit) m e) only

/-- R310: a fence waits while its entry has neither landed nor failed. -/
theorem fenceCheck_waits {s : State} {c : Nat} {r : RunDesc} (fence : fenceAt s c = some r) (sound : (strmGet s c).fail = none)
    (early : (strmGet s c).landed ≤ lfEntry r.desc) : fenceCheck s c = s := by
  unfold fenceCheck
  rw [fence]
  dsimp only
  rw [sound]
  dsimp only
  rw [if_neg (Nat.not_lt.mpr early), ite_self]

theorem strmGet_put (s : State) (c : Nat) (x : Strm) : strmGet (strmPut s c x) c = x := tabGet_tabPut_same (d := fun _ => strmInit) _ _ _

theorem fenceAt_strmPut (s : State) (c e : Nat) (x : Strm) : fenceAt (strmPut s c x) e = fenceAt s e := rfl

theorem fenceDrain_waits {s : State} {c : Nat} {r : RunDesc} {jr : JigRun} (fence : fenceAt s c = some r) (runs : (cellGet s c).run = some jr)
    (stage : r.aux = 1) (drained : ∀ q ∈ jr.issued, r.idx ≤ q.idx) (sound : (strmGet s c).fail = none)
    (early : (strmGet s c).landed ≤ lfEntry r.desc) :
    fenceDrain s c = fenceStage (strmPut s c { strmGet s c with f1 := lfEntry r.desc + 1 }) c r.idx 2 := by
  have all : jr.issued.all (fun q => decide (r.idx ≤ q.idx)) = true := List.all_eq_true.mpr (fun q hq => decide_eq_true (drained q hq))
  unfold fenceDrain
  rw [fence, runs]
  dsimp only
  rw [if_pos ⟨Or.inl stage, all⟩]
  have strm := (strmGet_fenceStage (strmPut s c { strmGet s c with f1 := lfEntry r.desc + 1 }) c r.idx 2 c).trans (strmGet_put s c _)
  exact fenceCheck_waits (fenceAt_stage ((fenceAt_strmPut s c c _).trans fence)) (by rw [strm]; exact sound) (by rw [strm]; exact early)

theorem streamRequest_next {s : State} {c : Nat} (started : (strmGet s c).st = 1) (left : (strmGet s c).req < (strmGet s c).ents.length)
    (near : (strmGet s c).req < (strmGet s c).f1 + (strmGet s c).dist) (sound : (strmGet s c).fail = none)
    (kind : seKind ((strmGet s c).ents.getD (strmGet s c).req []) ≠ 9) :
    streamRequest s c = streamMove (strmPut s c { strmGet s c with req := (strmGet s c).req + 1 }) c := by
  refine (if_neg ?_).trans (if_neg kind)
  rw [sound]
  simp [started]
  omega

theorem streamLanded_next {s : State} {c : Nat} (moving : (strmGet s c).moving = true) (lines : (strmGet s c).lines = []) (still : StreamStill s c)
    (sound : (strmGet s c).fail = none) : streamLanded s c =
      streamMove (fenceCheck (strmPut s c { strmGet s c with landed := (strmGet s c).landed + 1, moving := false }) c) c := by
  refine if_neg (show ¬ (!(strmGet s c).moving || !(strmGet s c).lines.isEmpty || s.barges.any (Barge.ofStream c) ||
    s.bargeWait.any (Barge.ofStream c) || (strmGet s c).fail.elim false (fun f => f.1 == (strmGet s c).landed)) = true from ?_)
  simp [moving, lines, still.1, still.2, sound]

/-- Settles O16. -/
theorem streamsAdvance : Obligations.StreamsAdvance := by
  unfold Obligations.StreamsAdvance
  intro s c ecc on s0 mine
  have ends : ∀ {i : Instr} {f : State → State} {t}, exec i s = .next (awake s (fun s => after (f s))) → f s = t →
      exec i s = .next (within s (after t)) := by
    intro i f t meaning acts
    rw [meaning, awake_on on, acts]
  have same : mine = Barge.ofStream c := rfl
  refine ⟨fun r es fence stage restart flight offered clean table entry => ?_, fun r jr fence runs stage drained sound early => ?_,
    fun started left near sound kind => ?_, fun moving lines flight offered sound => ?_⟩
  · rw [same] at flight offered
    exact ends (f := fun s => streamRestart (eccIn s ecc) c) rfl (streamRestart_good fence stage restart ⟨flight, offered⟩ clean table entry)
  · exact ends (f := fun s => fenceDrain s c) rfl (fenceDrain_waits fence runs stage drained sound early)
  · exact ends (f := fun s => streamRequest (eccIn s ecc) c) rfl (streamRequest_next started left near sound kind)
  · rw [same] at flight offered
    exact ends (f := fun s => streamLanded s c) rfl (streamLanded_next moving lines ⟨flight, offered⟩ sound)

/-! R69, R247: the GSU and the multicast router. -/

theorem gsuGrant_next {s : State} {g i : Nat} {r : RunDesc} (free : gsuBusy s g = none) (next : gsuNext s g = some i)
    (waits : gsuDesc s (16 * g + i) .waiting = some r) (op : dOp r.desc = 0x09 ∨ dOp r.desc = 0x0A) :
    let s1 := bumpSat { s with gsuLast := tabPut (fun _ => 15) s.gsuLast g i } (pgGsu g + 0x40) (cyclesOf (s.now - r.since))
    gsuGrant s g false false = putRun (16 * g + i) r.idx (withReads s1 (16 * g + i) (gsPlan s1 (16 * g + i) r.desc) (fun t => gsRun t (16 * g + i) r.desc)) := by
  have notSeg : dOp r.desc ≠ 0x0B := by omega
  have notSort : dOp r.desc ≠ 0x0C := by omega
  unfold gsuGrant
  rw [free, next]
  dsimp only
  rw [waits]
  simp only [if_neg notSeg, if_neg notSort, Bool.false_eq_true, if_false]

theorem mcStart_whole {s s1 : State} {b k l : Nat} {ld : RunDesc} (lane : k < 8) (leads : (mcGet s (b * 8 + k)).leader = some l)
    (waits : mcDesc s (b * 8 + k) l .waiting = some ld) (free : mcBusy s (b * 8 + k) = false)
    (all : ∀ i ∈ maskBits 16 (mcGet s (b * 8 + k)).mask, (mcGet s (b * 8 + k)).members.contains (b * 16 + i) = true)
    (reads : readEcc s l (mmaRunPlan ld).reads = (s1, true)) : mcStart s (b * 8 + k) =
      (mcGet s (b * 8 + k)).members.foldl (fun t c => match mcDesc t (b * 8 + k) c .waiting with
        | none => t
        | some r => putRun c r.idx (withReads t c (if c = l then ⟨[], [], [], [], [], [], mmaOut r⟩ else mmaRunPlan r)
            (fun u => mmaFinish u c l (mmaOps ld.desc).bAddr (mmaOps ld.desc).bPitch (r.aux == 1) r.desc)))
        (mcPut s1 (b * 8 + k) ⟨0, none, [], some l⟩) := by
  have block : (b * 8 + k) / 8 = b := by omega
  have gathered : (maskBits 16 (mcGet s (b * 8 + k)).mask).all (fun i => (mcGet s (b * 8 + k)).members.contains (b * 16 + i)) = true :=
    List.all_eq_true.mpr all
  unfold mcStart
  dsimp only
  rw [leads]
  dsimp only
  rw [waits]
  dsimp only
  rw [free, block, gathered, reads]
  rfl

/-- Settles O17. -/
theorem blockUnitsServe : Obligations.BlockUnitsServe := by
  unfold Obligations.BlockUnitsServe
  intro s b ecc on s0
  refine ⟨?_, fun k l ld s1 leads waits free all reads => ?_⟩
  · intro i r free next waits op s1
    exact congrArg Host.Outcome.next ((awake_on on _).trans (congrArg (fun t => within s (after t)) (gsuGrant_next free next waits op)))
  · exact congrArg Host.Outcome.next ((awake_on on _).trans (congrArg (fun t => within s (after t)) (mcStart_whole k.isLt leads waits free all reads)))

/-! R304, R505, R508: flash writes. -/

theorem stripeQueue_copy (s t : State) (j : Jnl) (a b n seq : Nat) :
    (within s (stripeQueue { wr t .tier a (rd t .slc b n) with jnl := j } seq)).mems = memsWrite t.mems .tier a (memsRead t.mems .slc b n) ∧
      (within s (stripeQueue { wr t .tier a (rd t .slc b n) with jnl := j } seq)).cells = t.cells := ⟨rfl, rfl⟩

section Stripe
variable {s : State} {w : JWork} {rest : List JWork} {seq : Nat} {u : Update} (head : s.jnl.work = w :: rest) (stripe : w.what = .stripe seq)
  (update : s.jnl.updates.find? (fun u => u.seq == seq) = some u)
include head stripe update

theorem stripeWrite_denied (active : inWindow s (u.first + u.done) = true) :
    stripeWrite s = updateEnd { s with jnl := { s.jnl with work := rest } } u stDenied := by
  unfold stripeWrite
  rw [head]
  dsimp only
  rw [stripe]
  dsimp only
  rw [update]
  exact if_pos active

theorem stripeWrite_deferred (apart : inWindow s (u.first + u.done) = false) (low : reserveOk s = false) : stripeWrite s = deferWrite s w := by
  unfold stripeWrite
  rw [head]
  dsimp only
  rw [stripe]
  dsimp only
  rw [update]
  dsimp only
  rw [apart, low]
  rfl

/-- A stripe that is not the last of its 64 is copied, and the next one is queued. -/
theorem stripeWrite_goes (apart : inWindow s (u.first + u.done) = false) (high : reserveOk s = true) (inside : (u.done + 1) % 64 ≠ 0)
    (more : u.done + 1 ≠ u.count) (own : u.cmd = false) : ∃ t j, stripeWrite s =
      stripeQueue { wr t .tier ((u.first + u.done) * 65536) (rd t .slc (u.data + 65536 * u.done) 65536) with jnl := j } u.seq ∧
        t.mems = s.mems ∧ t.cells = s.cells := by
  have goes : ¬((u.done + 1) % 64 = 0 ∨ u.done + 1 = u.count) := not_or.mpr ⟨inside, more⟩
  unfold stripeWrite
  rw [head]
  dsimp only
  rw [stripe]
  dsimp only
  rw [update]
  dsimp only
  simp only [apart, high, own, if_neg goes, Bool.not_true, Bool.false_eq_true, if_false]
  exact ⟨_, _, rfl, rfl, rfl⟩

end Stripe

section Check
variable {s : State} {w : JWork} {rest : List JWork} (on : s.cold = false) (booted : devState s ≠ dvBoot) (head : s.jnl.work = w :: rest)
  (noStripe : ∀ q, w.what ≠ .stripe q) (noDump : ∀ q, w.what ≠ .dump q)
include on booted head noStripe

include noDump in
theorem journalCheck_deferred (low : reserveOk s = false) : journalCheck s = deferWrite s w := by
  unfold journalCheck
  rw [if_neg (by simp [on, booted]), head]
  dsimp only
  rw [low]
  cases kind : w.what with
  | stripe q => exact absurd kind (noStripe q)
  | dump q => exact absurd kind (noDump q)
  | _ => rfl

theorem journalCheck_unit (high : reserveOk s = true) (more : w.done + 0x100000 < w.bytes.length) : journalCheck s =
    { wr (startWrite s) .slc (w.addr + w.done) ((w.bytes.drop w.done).take 0x100000) with
      jnl := { s.jnl with deferred := false, work := { w with done := w.done + 0x100000 } :: rest } } := by
  have whole : ((w.bytes.drop w.done).take 0x100000).length = 0x100000 := by
    rw [List.length_take, List.length_drop]; omega
  unfold journalCheck
  rw [if_neg (by simp [on, booted]), head]
  dsimp only
  rw [high, whole, if_pos more]
  cases kind : w.what with
  | stripe q => exact absurd kind (noStripe q)
  | _ => rfl

end Check

theorem jcmdWrite_refused {s : State} {v : Nat} (go : bit v 0 = true) (busy : bit (rget s (pgPwr + 0x6C)) 8 = true ∨ s.stop.isSome = true) :
    jcmdWrite s v = raise s pgPwr 0x1000 := by
  unfold jcmdWrite
  rw [go]
  refine (if_neg (by decide)).trans (if_pos ?_)
  exact busy.elim Or.inl (fun stopping => Or.inr (Or.inl stopping))

theorem jsrc_rset (s : State) (v : Nat) : jsrc (rset s (pgPwr + 0x6C) v) = jsrc s := by
  unfold jsrc rget64
  rw [rget_rset_ne _ _ (by decide), rget_rset_ne _ _ (by decide)]

/-- R508: an APPEND from a misaligned place fails at once. -/
theorem jcmdWrite_misaligned {s : State} {v : Nat} (go : bit v 0 = true) (free : bit (rget s (pgPwr + 0x6C)) 8 = false) (runs : s.stop = none)
    (held : dvHeld ≤ devState s) (running : devState s ≤ dvRunning) (off : jsrc s % 4096 ≠ 0) :
    ∃ x, jcmdWrite s v = jcmdDone (rset s (pgPwr + 0x6C) x) stFailedOperand := by
  have idle : ¬(bit (rget s (pgPwr + 0x6C)) 8 = true ∨ s.stop.isSome = true ∨ devState s < dvHeld ∨ dvRunning < devState s) := by
    rw [free, runs]
    simp only [Bool.false_eq_true, Option.isSome_none, false_or]
    omega
  unfold jcmdWrite
  rw [go, if_neg (by decide), if_neg idle, hostRecord_misaligned (by rw [jsrc_rset]; exact off), jcmdRun_inl]
  exact ⟨_, rfl⟩

theorem jcmdDone_spec (s : State) {st : Nat} (small : st < 2 ^ 10) : rbits (jcmdDone s st) (pgPwr + 0x6C) 9 0 = st ∧
    (rget (jcmdDone s st) (pgPwr + 0x10)).testBit 11 = true ∧ (jcmdDone s st).mems = s.mems ∧ (jcmdDone s st).jnl = s.jnl := by
  unfold jcmdDone
  refine ⟨?_, raise_bit _ pgPwr 0x800 11 (by decide) (by decide) (by decide) (by decide), raise_mems _ pgPwr 0x800, raise_jnl _ pgPwr 0x800⟩
  rw [rbits_congr (rget_raise_ne _ pgPwr 0x800 (a := pgPwr + 0x6C) (by decide) (by decide) (by decide)),
    rbits_rsetBits_same _ _ _ _ _ (by decide) (by decide), Nat.mod_eq_of_lt small]

/-- Settles O38. -/
theorem flashWritesKeepTheReserve : Obligations.FlashWritesKeepTheReserve := by
  unfold Obligations.FlashWritesKeepTheReserve
  intro s on
  have stripes : ∀ {t}, stripeWrite s = t → exec .weightStripeWrite s = .next (within s t) := fun acts =>
    congrArg Host.Outcome.next ((awake_on on _).trans (congrArg (within s) acts))
  have checks : ∀ {t}, journalCheck s = t → exec .journalWriteCheck s = .next (within s t) := fun acts =>
    congrArg Host.Outcome.next ((awake_on on _).trans (congrArg (within s) acts))
  refine ⟨fun w rest seq u head stripe update => ⟨fun active => stripes (stripeWrite_denied head stripe update active),
      fun apart low => stripes (stripeWrite_deferred head stripe update apart low),
      fun apart high inside more own => ?_⟩,
    fun w rest booted head noStripe noDump => ⟨fun low => checks (journalCheck_deferred on booted head noStripe noDump low),
      fun high more => ⟨_, checks (journalCheck_unit on booted head noStripe high more), rfl, rfl, rfl⟩⟩,
    fun m v served go => ⟨fun busy => ?_, fun free runs held running off => ?_⟩⟩
  · obtain ⟨t, j, copies, mems, cells⟩ := stripeWrite_goes head stripe update apart high inside more own
    obtain ⟨copyMems, copyCells⟩ := stripeQueue_copy s t j ((u.first + u.done) * 65536) (u.data + 65536 * u.done) 65536 u.seq
    exact ⟨_, stripes copies, copyMems.trans (by rw [mems]), copyCells.trans cells⟩
  · have acts := (awake_pfWrite_served served m.toNat v.toNat (fun t => jcmdWrite t v.toNat)).trans (congrArg (within s) (jcmdWrite_refused go busy))
    have events : Touches [pgPwr + 0x10] s (raise s pgPwr 0x1000) := touches_raise s 0x1000 (List.mem_singleton.mpr rfl)
    rw [within_touches events] at acts
    exact ⟨_, congrArg Host.Outcome.next acts, events, raise_bit s pgPwr 0x1000 12 (by decide) (by decide) (by decide) (by decide)⟩
  · obtain ⟨x, fails⟩ := jcmdWrite_misaligned go free runs held running off
    have acts := (awake_pfWrite_served served m.toNat v.toNat (fun t => jcmdWrite t v.toNat)).trans (congrArg (within s) fails)
    obtain ⟨status, event, mems, jnl⟩ := jcmdDone_spec (rset s (pgPwr + 0x6C) x) (st := stFailedOperand) (by decide)
    refine ⟨_, congrArg Host.Outcome.next acts, (rbits_within _ _ _ _ _).trans status, ?_, mems, jnl⟩
    rw [rget_within]
    exact event

end Sys2Proof.Machine

/-! ### Host commands (O48) -/

namespace Sys2Proof.Machine

section Next
variable {s : State} {p q : Nat} {c : Cmd}

theorem hostNop_good (next : cmdNext s p q 0x00 = some c) (good : operandsOk c [] = true) : hostNop s p q = cmdDone s c stOk 0 := by
  unfold hostNop
  rw [next]
  exact if_pos good

theorem hostNop_bad (next : cmdNext s p q 0x00 = some c) (bad : operandsOk c [] = false) : hostNop s p q = cmdDone s c stFailedOperand dHqField := by
  unfold hostNop
  rw [next]
  exact if_neg (by simp [bad])

/-- R461: COPY from host memory to HBM. -/
theorem hostCopy_hostToHbm (next : cmdNext s p q 0x01 = some c) (good : operandsOk c [(16, 6), (24, 4), (32, 16)] = true) (some : opf c 24 4 ≠ 0)
    (src : opf c 16 1 = 8) (dst : opf c 17 1 = 4) : ∃ eng desc, hostCopy s p q false = bargeOffer (cmdStart s c)
      ⟨s.bargeSeq, .cmd p c.sq c.seq, 1025, p, eng, .host, [.hbm], opf c 32 8, opf c 40 8, opf c 24 4, false, none, none, 0, 0, [], none, s.now, desc⟩ := by
  unfold hostCopy
  simp only [Bool.false_eq_true, if_false, next, good, src, dst, hostEnd]
  rw [if_neg (by simpa using some), if_neg (by decide), if_neg (by simp)]
  exact ⟨_, _, rfl⟩

/-- R461: ZERO of HBM. -/
theorem hostCopy_zeroHbm (next : cmdNext s p q 0x02 = some c) (good : operandsOk c [(17, 1), (20, 2), (24, 4), (40, 8)] = true) (some : opf c 24 4 ≠ 0)
    (dst : opf c 17 1 = 4) : ∃ eng desc, hostCopy s p q true = bargeOffer (cmdStart s c)
      ⟨s.bargeSeq, .cmd p c.sq c.seq, 1025, p, eng, .hbm, [.hbm], opf c 32 8, opf c 40 8, opf c 24 4, true, none, none, 0, 0, [], none, s.now, desc⟩ := by
  unfold hostCopy
  simp only [if_true, next, good, dst, hostEnd]
  rw [if_neg (by simpa using some), if_neg (by decide), if_neg (by simp)]
  exact ⟨_, _, rfl⟩

theorem hostJigPush_good (next : cmdNext s p q 0x03 = some c) (good : operandsOk c [(16, 10)] = true) (some : opf c 18 2 ≠ 0)
    (aligned : opf c 20 4 % 64 = 0) (inside : opf c 16 2 + opf c 18 2 ≤ (partGet s p).cells.length) : hostJigPush s p q =
      (((partGet s p).cells.drop (opf c 16 2)).take (opf c 18 2)).foldl (fun t x => jigPush t x ⟨opf c 20 4, opf c 24 2, .cmd p c.sq c.seq⟩)
        (cmdUpd s c (fun x => { x with started := true, left := opf c 18 2 })) := by
  unfold hostJigPush
  rw [next]
  dsimp only
  rw [if_neg (by simp [good, some, aligned]), if_neg (Nat.not_lt.mpr inside)]

/-- R463: a CANCEL that finds no command waiting. -/
theorem hostCancel_none (next : cmdNext s p q 0x04 = some c) (good : operandsOk c [(16, 1), (20, 8)] = true) (queue : opf c 16 1 < 16)
    (apart : ∀ x ∈ sqCmds s p (opf c 16 1), x.started = true ∨ (x.sq = c.sq ∧ x.seq = c.seq) ∨
      (opf c 24 4 + 2 ^ 32 - opf c 20 4) % 2 ^ 32 < (x.seq + 2 ^ 32 - opf c 20 4) % 2 ^ 32) :
    ∃ y, hostCancel s p q = cmdDone (sqPut s p (opf c 16 1) y) c stOk 0 := by
  have none : (sqCmds s p (opf c 16 1)).filter (fun x => !x.started && !(x.sq == c.sq && x.seq == c.seq) &&
      decide ((x.seq + 2 ^ 32 - opf c 20 4) % 2 ^ 32 ≤ (opf c 24 4 + 2 ^ 32 - opf c 20 4) % 2 ^ 32)) = [] := by
    refine List.filter_eq_nil_iff.mpr (fun x hx => ?_)
    obtain started | ⟨sq, seq⟩ | beyond := apart x hx
    · simp [started]
    · simp [sq, seq]
    · simp only [decide_eq_false (Nat.not_le.mpr beyond), Bool.and_false, Bool.false_eq_true, not_false_eq_true]
  unfold hostCancel
  rw [next]
  dsimp only
  rw [if_neg (by simp [good, queue]), none]
  exact ⟨_, rfl⟩

end Next

/-- Settles O48. -/
theorem hostCommandsAct : Obligations.HostCommandsAct := by
  unfold Obligations.HostCommandsAct
  intro s p q c
  have acts : ∀ {i : Instr} {f : State → State} {t}, s.cold = false → exec i s = .next (awake s f) → f s = t → exec i s = .next (within s t) := by
    intro i f t on meaning done
    rw [meaning, awake_on on, done]
  refine ⟨fun next good => ?_, fun next bad => ?_, fun next good some src dst => ?_, fun next good some dst => ?_,
    fun next good some aligned inside nodup => ?_, fun next good queue apart => ?_⟩
  · exact ⟨_, acts next.1 rfl (hostNop_good next.2.1 good), (cmdDone_answered next.at stOk 0).inside⟩
  · exact ⟨_, acts next.1 rfl (hostNop_bad next.2.1 bad), (cmdDone_answered next.at stFailedOperand dHqField).inside⟩
  · obtain ⟨eng, desc, offers⟩ := hostCopy_hostToHbm next.2.1 good some src dst
    exact ⟨_, _, acts next.1 rfl offers, rfl, rfl, rfl, rfl, rfl⟩
  · obtain ⟨eng, desc, offers⟩ := hostCopy_zeroHbm next.2.1 good some dst
    exact ⟨_, _, acts next.1 rfl offers, rfl, rfl, rfl, rfl, rfl⟩
  · have distinct := nodup.sublist ((List.take_sublist (opf c 18 2) _).trans (List.drop_sublist (opf c 16 2) _))
    obtain ⟨cells, cmds, mems, regs⟩ := jigPush_fold ⟨opf c 20 4, opf c 24 2, .cmd p c.sq c.seq⟩ _
      (cmdUpd s c (fun x => { x with started := true, left := opf c 18 2 })) _ distinct rfl
    exact ⟨_, acts next.1 rfl (hostJigPush_good next.2.1 good some aligned inside), cells, cmds, mems, regs⟩
  · obtain ⟨y, done⟩ := hostCancel_none next.2.1 good queue apart
    obtain ⟨cmds, held, frame, regs⟩ := cmdDone_answered (s := sqPut s p (opf c 16 1) y) (c := c) next.at stOk 0
    exact ⟨_, acts next.1 rfl (congrArg after done), cmds, held, congrArg (fun t : State => { t with sqs := s.sqs }) frame, regs⟩

end Sys2Proof.Machine

/-! ### Resets and boot (O57) -/

namespace Sys2Proof.Machine

theorem devState_awake {s : State} (on : s.cold = false) : devState s = rbits s (pgChp + 0x40) 2 0 := by
  unfold devState
  rw [on]
  exact if_neg Bool.false_ne_true

/-! R558, R559: PERST_N is deasserted. -/

theorem perstRelease_regs (s : State) (slot : Nat) : (perstRelease s slot).regs = (rset s (pgChp + 0x58) slot).regs := by
  unfold perstRelease bootBegin
  split <;> rfl

theorem perstRelease_frame (s : State) (slot : Nat) :
    { perstRelease s slot with regs := s.regs, perst := s.perst, cold := s.cold } = s ∧ (perstRelease s slot).perst = false := by
  unfold perstRelease bootBegin
  split <;> exact ⟨rfl, rfl⟩

theorem perstRelease_cold (s : State) (slot : Nat) : (perstRelease s slot).cold = true ↔ s.cold = true ∧ inputSettled s = false := by
  unfold perstRelease bootBegin
  cases cold : s.cold <;> cases settled : inputSettled s <;> simp [cold]

theorem perstRelease_spec (s : State) (slot : Byte) : rget (perstRelease s slot.toNat) (pgChp + 0x58) = slot.toNat ∧
    ∀ a, a ≠ pgChp + 0x58 → rget (perstRelease s slot.toNat) a = rget s a := by
  have same := rget_congr (perstRelease_regs s slot.toNat)
  refine ⟨?_, fun a other => (same a).trans (rget_rset_ne s _ other)⟩
  rw [same, rget_rset_same, Nat.mod_eq_of_lt (by omega)]

/-! R474, R560: resets. -/

theorem perstAssert_regs (s : State) (a : Nat) : rget (perstAssert s) a = rget State.reset a := rget_congr rfl a

/-- The state of a warm reset before the copy of the dump ends. -/
def warmed (s : State) : State :=
  { resetState s with regs := s.regs.filter (fun e => warmKeeps e.1), cold := false, sclTime := s.sclTime }

theorem warmReset_on {s : State} (on : s.cold = false) : warmReset s = rsetBits (warmed s) (pgDmp + 0xC) 2 2 0 := by
  unfold warmReset
  rw [on]
  exact if_neg Bool.false_ne_true

theorem rget_warmed (s : State) (a : Nat) : rget (warmed s) a = if warmKeeps a = true then rget s a else rget State.reset a := by
  have regs : rget (warmed s) a = (tabGet regRst (s.regs.filter (fun e => warmKeeps e.1)) a).toNat := rfl
  rw [regs, tabGet_filter regRst warmKeeps, apply_ite BitVec.toNat]
  rfl

theorem warmReset_spec {s : State} (on : s.cold = false) : devState (warmReset s) = dvBoot ∧
    ∀ a, a ≠ pgDmp + 0xC → rget (warmReset s) a = if warmKeeps a = true then rget s a else rget State.reset a := by
  rw [warmReset_on on]
  refine ⟨?_, fun a other => (rget_rsetBits_ne _ _ _ _ other).trans (rget_warmed s a)⟩
  have dev : rget (rsetBits (warmed s) (pgDmp + 0xC) 2 2 0) (pgChp + 0x40) = rget State.reset (pgChp + 0x40) :=
    (rget_rsetBits_ne _ _ _ _ (by decide)).trans ((rget_warmed s _).trans (if_neg (by decide)))
  exact (devState_awake rfl).trans ((rbits_congr dev 2 0).trans (by decide))

theorem warmReset_frame {s : State} (on : s.cold = false) : ∃ r, warmReset s = { resetState s with regs := r, cold := false, sclTime := s.sclTime } :=
  ⟨_, warmReset_on on⟩

/-! R476: the boot sequence. -/

/-- What the command gives back of the module that booted: BOOT_SEQUENCE reads the fuses and changes no pin. -/
theorem exec_bootSequence {s : State} (on : s.cold = false) (f : Fuses) (d2d : Nat) (mods : List Nat) (hbm : Nat) :
    exec (.bootSequence f d2d mods hbm) s = .next { within s (bootRun s f d2d mods hbm) with fuses := (bootRun s f d2d mods hbm).fuses } :=
  congrArg Host.Outcome.next (if_neg (by rw [on]; exact Bool.false_ne_true))

theorem rget_with_fuses (s t : State) (f : Fuses) (a : Nat) : rget { within s t with fuses := f } a = rget t a := rfl

/-! R487, R542: the Keeper at work. -/

theorem heartbeat_runs {s : State} (on : s.cold = false) (runs : keeperRuns s = true) : heartbeat s = bumpWrap s (pgKpr + 0x40) 1 :=
  if_pos (by rw [on, runs]; rfl)

theorem heartbeat_stopped {s : State} (stopped : keeperRuns s = false) : heartbeat s = s := if_neg (by simp [stopped])

theorem blockWrite_due {s : State} (on : s.cold = false) (booted : devState s ≠ dvBoot) (set : rget64 s (pgCfg + 0x60) ≠ 0) (up : s.pcieUp = true)
    (due : s.sblk.1.take 4 ≠ blockKey s ∨ 100000000 ≤ s.now - s.sblk.2) : blockWrite s true =
      { wr s .host (rget64 s (pgCfg + 0x60) / 64 * 64) (statusBlock s (s.sblk.1.getD 4 0 + 1)) with
        sblk := (blockKey s ++ [s.sblk.1.getD 4 0 + 1], s.now) } := by
  have late : ¬(s.sblk.1.take 4 = blockKey s ∧ s.now - s.sblk.2 < 100000000) := fun h =>
    due.elim (fun changed => changed h.1) (fun old => absurd h.2 (Nat.not_lt.mpr old))
  unfold blockWrite
  dsimp only
  rw [if_neg (by simp [on, booted, set, up]), if_neg late]

theorem within_wr_sblk (s t : State) (sp : Space) (a : Nat) (bs : List Byte) (b : List Nat × Nat) :
    (within s { wr t sp a bs with sblk := b }).mems = memsWrite t.mems sp a bs ∧ (within s { wr t sp a bs with sblk := b }).sblk = b ∧
      (within s { wr t sp a bs with sblk := b }).regs = t.regs := ⟨rfl, rfl, rfl⟩

/-- Settles O57. -/
theorem bootReachesHeld : Obligations.BootReachesHeld := by
  unfold Obligations.BootReachesHeld
  intro s
  refine ⟨fun slot => ?_, ?_, fun on => ?_, fun f d2d mods hbm on boot runs => ?_, fun on runs => ?_, fun stopped => ?_, fun on booted set up due => ?_⟩
  · obtain ⟨sampled, regs⟩ := perstRelease_spec s slot
    obtain ⟨frame, perst⟩ := perstRelease_frame s slot.toNat
    exact ⟨_, rfl, sampled, perst, perstRelease_cold s slot.toNat, regs, frame⟩
  · exact ⟨_, rfl, rfl, rfl, perstAssert_regs s, rfl, rfl, rfl, rfl, rfl, rfl, rfl, rfl, rfl, rfl, rfl⟩
  · obtain ⟨dev, regs⟩ := warmReset_spec on
    obtain ⟨r, reset⟩ := warmReset_frame on
    have kept : within s (warmReset s) = warmReset s := by rw [reset]; exact within_eq rfl rfl on.symm rfl rfl rfl
    have acts : exec .chipWarmReset s = .next (warmReset s) := congrArg Host.Outcome.next ((awake_on on _).trans kept)
    refine ⟨_, acts, ?_, dev, ?_, ?_, ?_, ?_, ?_, regs⟩ <;> rw [reset] <;> rfl
  · obtain ⟨w, boots⟩ : ∃ w, bootRun s f d2d mods hbm = w := ⟨_, rfl⟩
    obtain ⟨fuses, held, keeper, seqr, config, links, hbms, image, power⟩ := bootRun_spec f d2d mods hbm on boot runs boots
    have acts := exec_bootSequence on f d2d mods hbm
    rw [boots] at acts
    have same : reasons { within s w with fuses := w.fuses } = reasons w := reasons_congr (rget_with_fuses s w w.fuses _)
    refine ⟨_, acts, on, fuses, ?_, keeper, seqr, ?_⟩
    · exact (devState_awake (s := { within s w with fuses := w.fuses }) on).trans ((rbits_congr (rget_with_fuses s w w.fuses _) 2 0).trans held)
    · rw [same]
      exact ⟨config, links, hbms, image, power⟩
  · have acts : exec .kprHeartbeat s = .next (bumpWrap s (pgKpr + 0x40) 1) :=
      congrArg Host.Outcome.next ((awake_on on _).trans (congrArg (within s) (heartbeat_runs on runs)))
    exact ⟨_, acts, rget_rset_same _ _ _, touches_rset s _ (List.mem_singleton.mpr rfl)⟩
  · refine congrArg Host.Outcome.next ?_
    cases cold : s.cold with
    | true => exact awake_cold cold _
    | false => exact (awake_on cold _).trans (congrArg (within s) (heartbeat_stopped stopped))
  · have acts : exec (.statusBlockWrite true) s = .next _ :=
      congrArg Host.Outcome.next ((awake_on on _).trans (congrArg (within s) (blockWrite_due on booted set up due)))
    exact ⟨_, acts, within_wr_sblk s s .host _ _ _⟩

end Sys2Proof.Machine

/-! ### Versions, the configuration record, pairings and images (O59) -/

namespace Sys2Proof.Machine

/-- A served write of a page that the boot ROM serves. -/
theorem exec_bootPage {s t : State} {i : Instr} {m a v : Nat} {f : State → State} (served : Served s (pgCfg + 0x40)) (page : a < 0x3000)
    (meaning : exec i s = .next (awake s (fun s => pfWrite s m a v f))) (acts : f s = t) : exec i s = .next (within s t) := by
  rw [meaning, awake_pfWrite_served (served_boot served page), acts]

theorem Touches.devState {l : List Nat} {s t : State} (h : Touches l s t) (far : pgChp + 0x40 ∉ l) : devState t = devState s := by
  have cold := touches_field h State.cold (fun _ _ _ _ _ _ => rfl)
  unfold Machine.devState
  rw [cold, rbits_congr (h.2 _ far (by decide) (by decide))]

theorem Touches.reasons {l : List Nat} {s t : State} (h : Touches l s t) (far : pgCfg + 0x48 ∉ l) : reasons t = reasons s :=
  reasons_congr (h.2 _ far (by decide) (by decide))

/-! R488: VER_REQUEST. -/

theorem verRequest_free {s : State} (free : configLocked s = false) (v : Nat) : verRequest s v =
    if negotiate s.kImg (v % 65536) = 0
      then raise (rset (rset s (pgVer + 0x44) (v % 65536)) (pgVer + 0x48) (negotiate s.kImg (v % 65536))) pgVer 1
      else rset (rset s (pgVer + 0x44) (v % 65536)) (pgVer + 0x48) (negotiate s.kImg (v % 65536)) :=
  if_neg (by rw [free]; exact Bool.false_ne_true)

theorem verSet_spec (s : State) {req act : Nat} (small : req < 65536) (word : act < 2 ^ 32) :
    rget (rset (rset s (pgVer + 0x44) req) (pgVer + 0x48) act) (pgVer + 0x44) = req ∧
    rget (rset (rset s (pgVer + 0x44) req) (pgVer + 0x48) act) (pgVer + 0x48) = act ∧
    Touches [pgVer + 0x44, pgVer + 0x48, pgVer + 0x10] s (rset (rset s (pgVer + 0x44) req) (pgVer + 0x48) act) := by
  refine ⟨?_, ?_, touches_trans (touches_rset s _ (by simp)) (touches_rset _ _ (by simp))⟩
  · rw [rget_rset_ne _ _ (by decide), rget_rset_same, Nat.mod_eq_of_lt (by omega)]
  · rw [rget_rset_same, Nat.mod_eq_of_lt word]

theorem verRequest_spec {s : State} (free : configLocked s = false) (v : Nat) : rget (verRequest s v) (pgVer + 0x44) = v % 65536 ∧
    rget (verRequest s v) (pgVer + 0x48) = negotiate s.kImg (v % 65536) ∧
    (negotiate s.kImg (v % 65536) = 0 → (rget (verRequest s v) (pgVer + 0x10)).testBit 0 = true) ∧
    Touches [pgVer + 0x44, pgVer + 0x48, pgVer + 0x10] s (verRequest s v) := by
  obtain ⟨request, active, touches⟩ := verSet_spec s (Nat.mod_lt v (by decide)) (negotiate_lt s.kImg (v % 65536))
  rw [verRequest_free free]
  generalize rset (rset s (pgVer + 0x44) (v % 65536)) (pgVer + 0x48) (negotiate s.kImg (v % 65536)) = x at *
  by_cases none : negotiate s.kImg (v % 65536) = 0
  · rw [if_pos none]
    exact ⟨(rget_raise_ne x pgVer 1 (by decide) (by decide) (by decide)).trans request,
      (rget_raise_ne x pgVer 1 (by decide) (by decide) (by decide)).trans active,
      fun _ => raise_bit x pgVer 1 0 (by decide) (by decide) (by decide) (by decide), touches_trans touches (touches_raise x 1 (by simp))⟩
  · rw [if_neg none]
    exact ⟨request, active, fun zero => absurd zero none, touches⟩

/-! R486, R493, R494: COMMIT. -/

theorem cfgRefused_spec (s : State) : (rget (cfgRefused s) (pgCfg + 0x10)).testBit 1 = true ∧ Touches [pgCfg + 0x10] s (cfgRefused s) :=
  ⟨evt_bit s 2 1 (by decide) (by decide), touches_raise s 2 (List.mem_singleton.mpr rfl)⟩

theorem masked_lt (s : State) (k : Nat) : reasons s &&& k < 4096 := Nat.lt_of_le_of_lt Nat.and_le_left (reasons_lt s)

/-- R486: reasons are left: nothing is applied. -/
theorem heldClear_kept {s : State} {m : Nat} (left : reasons s &&& (0xFFF - m) ≠ 0) :
    heldClear s m = rsetBits s (pgCfg + 0x48) 11 0 (reasons s &&& (0xFFF - m)) := by
  have rest := reasons_set s _ (masked_lt s (0xFFF - m))
  unfold heldClear heldCheck
  split
  · rfl
  · exact if_neg (fun h => left (rest.symm.trans h.2.1))

/-- R486, R494: no reason is left: the held record is applied. -/
theorem heldClear_applies {s : State} {m : Nat} {r : List Byte} (record : s.heldRec = some r) (gone : reasons s &&& (0xFFF - m) = 0)
    (held : devState s = dvHeld) (runs : s.stop = none) :
    heldClear s m = recApply (rsetBits s (pgCfg + 0x48) 11 0 (reasons s &&& (0xFFF - m))) r := by
  have rest := (reasons_set s _ (masked_lt s (0xFFF - m))).trans gone
  have touches := touches_rsetBits (l := [pgCfg + 0x48]) s 11 0 (reasons s &&& (0xFFF - m)) (List.mem_singleton.mpr rfl)
  have still := (touches.devState (by decide)).trans held
  unfold heldClear heldCheck
  rw [show (rsetBits s (pgCfg + 0x48) 11 0 (reasons s &&& (0xFFF - m))).heldRec = some r from record]
  exact if_pos ⟨still, rest, Option.isNone_iff_eq_none.mpr runs⟩

/-- R493: the module while a COMMIT that passes decides. -/
def commitStaged (s : State) (r : List Byte) : State :=
  raise (rset { rsetBits s (pgCfg + 0x48) 11 0 (reasons s &&& 0xFC1) with heldRec := some r } (pgCfg + 0x44) 0) pgCfg 1

section Commit
variable {s : State} (held : devState s = dvHeld) (free : (rget s (pgCfg + 0xC)).testBit 0 = false) (runs : s.stop = none)
include held free runs

theorem cfgCommit_passes {d : Nat} (passes : commitCheck s (windowRecord s) = (0, d)) :
    cfgCommit s = heldClear (commitStaged s (windowRecord s)) hNoConfig := by
  unfold cfgCommit bit
  rw [free, runs, if_neg (by simp [held])]
  dsimp only
  rw [passes]
  rfl

theorem cfgCommit_fails {c d : Nat} (fails : commitCheck s (windowRecord s) = (c, d)) (bad : c ≠ 0) : cfgCommit s =
    raise (rset (heldSet (rsetBits s (pgCfg + 0x48) 11 0 (reasons s &&& 0xFC1)) c) (pgCfg + 0x44) (c.log2 + 1 + d * 2 ^ 8)) pgCfg 1 := by
  unfold cfgCommit bit
  rw [free, runs, if_neg (by simp [held])]
  dsimp only
  rw [fails]
  cases c with
  | zero => exact absurd rfl bad
  | succ n => rfl

end Commit

theorem touches_with_heldRec {l : List Nat} {s t : State} {r : Option (List Byte)} (h : Touches l { s with heldRec := r } t) :
    Touches l s { t with heldRec := s.heldRec } :=
  touches_via h rfl rfl (congrArg (fun z : State => { z with heldRec := s.heldRec }) h.1)

theorem commitStaged_spec (s : State) (r : List Byte) : Touches [pgCfg + 0x48, pgCfg + 0x44, pgCfg + 0x10] { s with heldRec := some r } (commitStaged s r) ∧
    (commitStaged s r).heldRec = some r ∧ reasons (commitStaged s r) = reasons s &&& 0xFC1 ∧ rget (commitStaged s r) (pgCfg + 0x44) = 0 ∧
    (rget (commitStaged s r) (pgCfg + 0x10)).testBit 0 = true := by
  obtain ⟨x, hx⟩ : ∃ x : State, x = { rsetBits s (pgCfg + 0x48) 11 0 (reasons s &&& 0xFC1) with heldRec := some r } := ⟨_, rfl⟩
  have cleared : reasons x = reasons s &&& 0xFC1 := (reasons_congr (by rw [hx]; rfl)).trans (reasons_set s _ (masked_lt s _))
  have first : Touches [pgCfg + 0x48, pgCfg + 0x44, pgCfg + 0x10] { s with heldRec := some r } x := by
    rw [hx]
    exact touches_rsetBits { s with heldRec := some r } 11 0 _ (by simp)
  have staged : commitStaged s r = raise (rset x (pgCfg + 0x44) 0) pgCfg 1 := by rw [hx]; rfl
  have record : x.heldRec = some r := by rw [hx]
  rw [staged]
  refine ⟨touches_trans first (touches_trans (touches_rset x 0 (by simp)) (touches_raise _ 1 (by simp))), ?_, ?_, ?_, evt_bit _ 1 0 (by decide) (by decide)⟩
  · exact (regsOnly_raise _ pgCfg 1).field State.heldRec (fun _ _ _ _ _ => rfl) |>.trans record
  · exact (reasons_congr ((rget_raise_ne _ pgCfg 1 (by decide) (by decide) (by decide)).trans (rget_rset_ne x 0 (by decide)))).trans cleared
  · rw [rget_raise_ne _ pgCfg 1 (by decide) (by decide) (by decide), rget_rset_same, Nat.zero_mod]

theorem mask_noConfig (n : Nat) : n &&& 0xFC1 &&& (0xFFF - hNoConfig) = n &&& 0xFC0 := by rw [Nat.and_assoc]; rfl

/-- R493: a record passes while reasons stand that a commit does not clear. -/
theorem cfgCommit_kept {s : State} {r : List Byte} (left : reasons s &&& 0xFC0 ≠ 0) : ∃ t, heldClear (commitStaged s r) hNoConfig = t ∧ t.heldRec = some r ∧
    reasons t = reasons s &&& 0xFC0 ∧ rget t (pgCfg + 0x44) = 0 ∧ (rget t (pgCfg + 0x10)).testBit 0 = true ∧
    Touches [pgCfg + 0x48, pgCfg + 0x44, pgCfg + 0x10] { s with heldRec := some r } t := by
  obtain ⟨touches, record, masked, status, event⟩ := commitStaged_spec s r
  have mask : reasons (commitStaged s r) &&& (0xFFF - hNoConfig) = reasons s &&& 0xFC0 := by rw [masked, mask_noConfig]
  generalize commitStaged s r = x at *
  have clears := heldClear_kept (s := x) (m := hNoConfig) (by rw [mask]; exact left)
  rw [mask] at clears
  exact ⟨_, clears, record, reasons_set x _ (masked_lt s _), (rget_rsetBits_ne x 11 0 _ (by decide)).trans status,
    (congrArg (Nat.testBit · 0) (rget_rsetBits_ne x 11 0 _ (by decide))).trans event, touches_trans touches (touches_rsetBits x 11 0 _ (by simp))⟩

/-- R494: what the application of a held record leaves. -/
theorem heldClear_configured {s : State} {m : Nat} {r : List Byte} (on : s.cold = false) (record : s.heldRec = some r)
    (gone : reasons s &&& (0xFFF - m) = 0) (held : devState s = dvHeld) (runs : s.stop = none) : ∃ t, heldClear s m = t ∧
      RegsOnly s t ∧ devState t = dvConfigured ∧ rget t (pgCfg + 0x4C) = fld r 12 4 ∧ t.msixHeld = [] := by
  obtain ⟨configured, last, sent, frame⟩ := recApply_spec (s := rsetBits s (pgCfg + 0x48) 11 0 (reasons s &&& (0xFFF - m))) (r := r) rfl (fld_lt4 r 12)
  have whole := regsOnly_trans (regsOnly_rsetBits s (pgCfg + 0x48) 11 0 (reasons s &&& (0xFFF - m))) frame
  have awake := (whole.field State.cold (fun _ _ _ _ _ => rfl)).trans on
  exact ⟨_, heldClear_applies record gone held runs, whole, (devState_awake awake).trans configured, last, sent⟩

/-- R493: what a commit that fails leaves. -/
theorem commitFailed_spec (s : State) {c : Nat} (small : c < 4096) (v : Nat) : ∃ t,
    raise (rset (heldSet (rsetBits s (pgCfg + 0x48) 11 0 (reasons s &&& 0xFC1)) c) (pgCfg + 0x44) v) pgCfg 1 = t ∧
    reasons t = (reasons s &&& 0xFC1) ||| c ∧ rget t (pgCfg + 0x44) = v % 2 ^ 32 ∧ (rget t (pgCfg + 0x10)).testBit 0 = true ∧
    Touches [pgCfg + 0x48, pgCfg + 0x44, pgCfg + 0x10] s t := by
  obtain ⟨x, hx⟩ : ∃ x, heldSet (rsetBits s (pgCfg + 0x48) 11 0 (reasons s &&& 0xFC1)) c = x := ⟨_, rfl⟩
  have set : reasons x = (reasons s &&& 0xFC1) ||| c := by rw [← hx, reasons_heldSet _ c small, reasons_set s _ (masked_lt s _)]
  have touches : Touches [pgCfg + 0x48, pgCfg + 0x44, pgCfg + 0x10] s x := by
    rw [← hx]
    exact touches_trans (touches_rsetBits s 11 0 _ (by simp)) (touches_heldSet _ c (by simp))
  rw [hx]
  refine ⟨_, rfl, ?_, ?_, evt_bit _ 1 0 (by decide) (by decide), touches_trans touches (touches_trans (touches_rset x v (by simp)) (touches_raise _ 1 (by simp)))⟩
  · exact (reasons_congr ((rget_raise_ne _ pgCfg 1 (by decide) (by decide) (by decide)).trans (rget_rset_ne x v (by decide)))).trans set
  · rw [rget_raise_ne _ pgCfg 1 (by decide) (by decide) (by decide), rget_rset_same]

theorem cfgStart_configured {s : State} (configured : devState s = dvConfigured) (runs : s.stop = none) : cfgStart s = enterState s dvRunning :=
  if_neg (by rw [configured, runs]; decide)

theorem cfgStart_refused {s : State} (other : devState s ≠ dvConfigured) : cfgStart s = cfgRefused s := if_pos (Or.inl other)

theorem cfgCommit_refused {s : State} (other : devState s ≠ dvHeld) : cfgCommit s = cfgRefused s := if_pos (Or.inl other)

/-! R483: acceptance. -/

theorem cfgAccept_refused {s : State} {v : Word} (bad : bit (reasons s) 6 = false ∨ v.toNat ≠ rget s (pgCfg + 0x50)) :
    cfgAccept s v.toNat = raise s pgCfg 0x20 := by
  refine if_pos ?_
  rw [Nat.mod_eq_of_lt v.isLt]
  obtain tested | other := bad
  · rw [tested]; rfl
  · simp [other]

theorem cfgAccept_queued {s u : State} {v : Word} {a : Nat} (untested : bit (reasons s) 6 = true) (own : v.toNat = rget s (pgCfg + 0x50))
    (idle : rget s (pgCfg + 0x58) ≠ 1)
    (room : logPlace (recSlot (padded (pairBytes s ++ leBytes 4 (rget s (pgCfg + 0x50)))).length) s.jnl.recs.length s = (u, some a)) :
    ∃ x : State, cfgAccept s v.toNat = rset x (pgCfg + 0x58) 1 ∧ ∃ w ∈ x.jnl.work, w.what = .accept ∧ w.addr = a := by
  unfold cfgAccept
  rw [Nat.mod_eq_of_lt v.isLt, own, if_neg (by simp [untested]), if_neg idle]
  unfold recQueue
  dsimp only
  rw [room]
  exact ⟨_, rfl, _, List.mem_append_right _ (List.mem_singleton.mpr rfl), rfl, rfl⟩

/-- R483: the module once the acceptance record is written, before its reason goes. -/
def accepted (s : State) : State := raise (rset s (pgCfg + 0x58) 2) pgCfg 0x10

theorem acceptDone_written {s : State} (queued : rget s (pgCfg + 0x58) = 1) (written : ∀ w ∈ s.jnl.work, w.what ≠ .accept) :
    acceptDone s = heldClear (accepted s) hUntested := by
  have none : s.jnl.work.any (fun w => w.what == .accept) = false := List.any_eq_false.mpr (fun w hw => by simpa using written w hw)
  refine if_neg ?_
  rw [none, queued]
  decide

theorem accepted_spec (s : State) : rget (accepted s) (pgCfg + 0x58) = 2 ∧ (rget (accepted s) (pgCfg + 0x10)).testBit 4 = true ∧
    Touches [pgCfg + 0x58, pgCfg + 0x10] s (accepted s) := by
  unfold accepted
  refine ⟨?_, evt_bit _ 0x10 4 (by decide) (by decide), touches_trans (touches_rset s 2 (by simp)) (touches_raise _ 0x10 (by simp))⟩
  rw [rget_raise_ne _ pgCfg 0x10 (by decide) (by decide) (by decide), rget_rset_same]
  rfl

theorem accepted_mask (s : State) : reasons (accepted s) &&& (0xFFF - hUntested) = reasons s &&& 0xFBF := by
  rw [(accepted_spec s).2.2.reasons (by decide)]
  rfl

/-! R480, R484: images. -/

theorem imgLoad_refused {s : State} (other : devState s ≠ dvHeld) (store : Bool) : imgLoad s store = cfgRefused s := if_pos (Or.inl other)

theorem imgVerify_lt (f : Fuses) (kinds : List Nat) (b : List Byte) : imgVerify f kinds b < 2 ^ 32 := by
  unfold imgVerify
  split_ifs <;> decide

section Image
variable {s u : State} {b : List Byte} (held : devState s = dvHeld) (free : (rget s (pgCfg + 0xC)).testBit 0 = false) (runs : s.stop = none)
  (read : hbmImage s (rget64 s (pgCfg + 0x68)) = (u, b)) (store : Bool)
include held free runs read

theorem imgLoad_bad (bad : imgVerify s.fuses [1, 2] b ≠ 0) :
    imgLoad s store = raise (rset u (pgCfg + 0x74) (imgVerify s.fuses [1, 2] b)) pgCfg 8 := by
  unfold imgLoad bit
  rw [free, runs, if_neg (by simp [held]), read]
  exact if_pos bad

theorem imgLoad_good (good : imgVerify s.fuses [1, 2] b = 0) : imgLoad s store =
    (let y := imgRecheck (imgInstall (rset u (pgCfg + 0x74) 0) (b.take 512))
    raise (if store = true then { y with jnl := { y.jnl with work := y.jnl.work ++ [⟨.image (byteAt b 4), (byteAt b 4 - 1) * 0x8000000, b, 0, 0, 0, 0⟩] } }
      else y) pgCfg 8) := by
  unfold imgLoad bit
  rw [free, runs, if_neg (by simp [held]), read]
  dsimp only
  rw [good]
  exact if_neg (not_not_intro rfl)

end Image

theorem byteAt_take (b : List Byte) : byteAt (b.take 512) 4 = byteAt b 4 := by
  unfold byteAt fld
  rw [List.drop_take, List.take_take]
  rfl

theorem touches_within_both {l : List Nat} {u x : State} (s : State) (h : Touches l u x) : Touches l (within s u) (within s x) :=
  ⟨congrArg (within s) h.1, h.2⟩
theorem within_regsOnly {s t : State} (frame : RegsOnly s t) : within s t = t :=
  within_eq (frame.field State.pending (fun _ _ _ _ _ => rfl)) (frame.field State.now (fun _ _ _ _ _ => rfl)) (frame.field State.cold (fun _ _ _ _ _ => rfl))
    (frame.field State.perst (fun _ _ _ _ _ => rfl)) (frame.field State.jtag (fun _ _ _ _ _ => rfl)) (frame.field State.fuses (fun _ _ _ _ _ => rfl))

/-- What the load of an image that verifies leaves. -/
theorem imgLoaded_spec (u : State) (b : List Byte) (store : Bool) : ∃ t,
    (let y := imgRecheck (imgInstall u (b.take 512))
    raise (if store = true then { y with jnl := { y.jnl with work := y.jnl.work ++ [⟨.image (byteAt b 4), (byteAt b 4 - 1) * 0x8000000, b, 0, 0, 0, 0⟩] } }
      else y) pgCfg 8) = t ∧ t.heldRec = none ∧ (reasons t).testBit 0 = true ∧ (rget t (pgCfg + 0x10)).testBit 3 = true ∧
      (byteAt b 4 = 1 → t.kImg = some ⟨2, b.take 512⟩ ∧ t.uImg = u.uImg) ∧ (byteAt b 4 ≠ 1 → t.uImg = some ⟨2, b.take 512⟩ ∧ t.kImg = u.kImg) ∧
      (store = true → ∃ w ∈ t.jnl.work, w.what = .image (byteAt b 4) ∧ w.addr = (byteAt b 4 - 1) * 0x8000000 ∧ w.bytes = b) := by
  obtain ⟨record, config, keeper, seqr⟩ := imgInstall_spec (s := u) (h := b.take 512) rfl
  rw [byteAt_take] at keeper seqr
  generalize imgRecheck (imgInstall u (b.take 512)) = y at *
  dsimp only
  obtain ⟨x, hx⟩ : ∃ x, (if store = true then { y with jnl := { y.jnl with
    work := y.jnl.work ++ [⟨.image (byteAt b 4), (byteAt b 4 - 1) * 0x8000000, b, 0, 0, 0, 0⟩] } } else y : State) = x := ⟨_, rfl⟩
  have kept : x.heldRec = y.heldRec ∧ x.kImg = y.kImg ∧ x.uImg = y.uImg ∧ x.regs = y.regs := by
    rw [← hx]; split <;> exact ⟨rfl, rfl, rfl, rfl⟩
  have queued : store = true → ∃ w ∈ x.jnl.work, w.what = .image (byteAt b 4) ∧ w.addr = (byteAt b 4 - 1) * 0x8000000 ∧ w.bytes = b := fun h => by
    rw [← hx, if_pos h]
    exact ⟨_, List.mem_append_right _ (List.mem_singleton.mpr rfl), rfl, rfl, rfl⟩
  obtain ⟨sameRec, sameK, sameU, sameRegs⟩ := kept
  rw [hx]
  have frame := regsOnly_raise x pgCfg 8
  have kImg := (frame.field State.kImg (fun _ _ _ _ _ => rfl)).trans sameK
  have uImg := (frame.field State.uImg (fun _ _ _ _ _ => rfl)).trans sameU
  refine ⟨_, rfl, (frame.field State.heldRec (fun _ _ _ _ _ => rfl)).trans (sameRec.trans record), ?_, evt_bit x 8 3 (by decide) (by decide),
    fun one => ?_, fun other => ?_, ?_⟩
  · rw [reasons_congr ((rget_raise_ne x pgCfg 8 (by decide) (by decide) (by decide)).trans (rget_congr sameRegs _))]
    exact config
  · rw [kImg, uImg]
    exact keeper one
  · rw [kImg, uImg]
    exact seqr other
  · rw [raise_jnl]
    exact queued

theorem imgRejected_spec (s : State) {u : State} (reads : ReadOnly s u) {code : Nat} (small : code < 2 ^ 32) : ∃ t,
    within s (raise (rset u (pgCfg + 0x74) code) pgCfg 8) = t ∧ rget t (pgCfg + 0x74) = code ∧ t.kImg = s.kImg ∧ t.uImg = s.uImg ∧ t.heldRec = s.heldRec ∧
      (rget t (pgCfg + 0x10)).testBit 3 = true ∧ Touches [pgCfg + 0x74, pgCfg + 0x10] (within s u) t := by
  have frame := readOnly_trans reads (readOnly_regs (regsOnly_trans (regsOnly_rset u (pgCfg + 0x74) code) (regsOnly_raise _ pgCfg 8)))
  have touches : Touches [pgCfg + 0x74, pgCfg + 0x10] u (raise (rset u (pgCfg + 0x74) code) pgCfg 8) :=
    touches_trans (touches_rset u code (by simp)) (touches_raise _ 8 (by simp))
  refine ⟨_, rfl, ?_, frame.field State.kImg (fun _ _ _ _ _ _ => rfl), frame.field State.uImg (fun _ _ _ _ _ _ => rfl),
    frame.field State.heldRec (fun _ _ _ _ _ _ => rfl), ?_, touches_within_both s touches⟩
  · rw [rget_within, rget_raise_ne _ pgCfg 8 (by decide) (by decide) (by decide), rget_rset_same, Nat.mod_eq_of_lt small]
  · rw [rget_within]
    exact evt_bit _ 8 3 (by decide) (by decide)

theorem exec_imgLoads {s t : State} {m : Half} (served : Served s (pgCfg + 0x40)) : ∀ i ∈ [(false, Instr.imgLoad m), (true, Instr.imgLoadStore m)],
    imgLoad s i.1 = t → exec i.2 s = .next (within s t) := by
  intro i mem acts
  simp only [List.mem_cons, List.not_mem_nil, or_false] at mem
  obtain rfl | rfl := mem
  · exact exec_bootPage served (by decide) rfl acts
  · exact exec_bootPage served (by decide) rfl acts

section Settle
variable {s : State} {m : Half} (served : Served s (pgCfg + 0x40))
include served

theorem exec_refused {i : Instr} {a v : Nat} {f : State → State} (page : a < 0x3000) (meaning : exec i s = .next (awake s (fun s => pfWrite s m.toNat a v f)))
    (refuses : f s = cfgRefused s) : ∃ t, exec i s = .next t ∧ (rget t (pgCfg + 0x10)).testBit 1 = true ∧ Touches [pgCfg + 0x10] s t := by
  obtain ⟨event, touches⟩ := cfgRefused_spec s
  have acts := exec_bootPage served page meaning refuses
  rw [within_touches touches] at acts
  exact ⟨_, acts, event, touches⟩

/-- R493, R494: the outcomes of COMMIT in HELD. -/
theorem cfgCommit_outcomes (held : devState s = dvHeld) (free : (rget s (pgCfg + 0xC)).testBit 0 = false) (runs : s.stop = none) :
    let r := windowRecord s
    ∀ c d, commitCheck s r = (c, d) →
      (c = 0 → reasons s &&& 0xFC0 ≠ 0 → ∃ t, exec (.cfgCommit m) s = .next t ∧ t.heldRec = some r ∧ reasons t = reasons s &&& 0xFC0 ∧
        rget t (pgCfg + 0x44) = 0 ∧ devState t = dvHeld ∧ (rget t (pgCfg + 0x10)).testBit 0 = true ∧
        Touches [pgCfg + 0x48, pgCfg + 0x44, pgCfg + 0x10] s { t with heldRec := s.heldRec }) ∧
      (c = 0 → reasons s &&& 0xFC0 = 0 → ∃ t, exec (.cfgCommit m) s = .next t ∧ devState t = dvConfigured ∧ rget t (pgCfg + 0x4C) = fld r 12 4 ∧
        t.msixHeld = [] ∧ t.cells = s.cells ∧ t.mems = s.mems) ∧
      (c ∈ [hIncomplete, hCrc, hInconsistent, hStale, hVerNone] → ∃ t, exec (.cfgCommit m) s = .next t ∧ reasons t = (reasons s &&& 0xFC1) ||| c ∧
        rget t (pgCfg + 0x44) = (c.log2 + 1 + d * 2 ^ 8) % 2 ^ 32 ∧ (rget t (pgCfg + 0x10)).testBit 0 = true ∧ rget t (pgCfg + 0x4C) = rget s (pgCfg + 0x4C) ∧
        Touches [pgCfg + 0x48, pgCfg + 0x44, pgCfg + 0x10] s t) := by
  intro r c d verdict
  have commits : ∀ {t}, cfgCommit s = t → exec (.cfgCommit m) s = .next (within s t) := fun acts => exec_bootPage served (by decide) rfl acts
  refine ⟨fun passes left => ?_, fun passes gone => ?_, fun fails => ?_⟩
  · subst passes
    obtain ⟨t, clears, record, masked, status, event, touches⟩ := cfgCommit_kept (r := r) left
    have acts := commits ((cfgCommit_passes held free runs verdict).trans clears)
    have kept : within { s with heldRec := some r } t = t := within_touches touches
    rw [show within s t = t from kept] at acts
    exact ⟨t, acts, record, masked, status, (touches.devState (by decide)).trans held, event, touches_with_heldRec touches⟩
  · subst passes
    obtain ⟨touches, record, masked, -, -⟩ := commitStaged_spec s r
    obtain ⟨t, applies, frame, configured, last, sent⟩ := heldClear_configured (m := hNoConfig)
      ((touches_field touches State.cold (fun _ _ _ _ _ _ => rfl)).trans served.1) record (by rw [masked, mask_noConfig, gone])
      ((touches.devState (by decide)).trans held) ((touches_field touches State.stop (fun _ _ _ _ _ _ => rfl)).trans runs)
    have whole : RegsOnly { s with heldRec := some r } t := regsOnly_trans touches.1 frame
    have kept : within { s with heldRec := some r } t = t := within_regsOnly whole
    have acts := commits ((cfgCommit_passes held free runs verdict).trans applies)
    rw [show within s t = t from kept] at acts
    exact ⟨t, acts, configured, last, sent, whole.field State.cells (fun _ _ _ _ _ => rfl), whole.field State.mems (fun _ _ _ _ _ => rfl)⟩
  · have bad : c ≠ 0 ∧ c < 4096 := by
      simp only [List.mem_cons, List.not_mem_nil, or_false] at fails
      obtain rfl | rfl | rfl | rfl | rfl := fails <;> decide
    obtain ⟨t, ends, set, status, event, touches⟩ := commitFailed_spec s bad.2 (c.log2 + 1 + d * 2 ^ 8)
    have acts := commits ((cfgCommit_fails held free runs verdict bad.1).trans ends)
    rw [within_touches touches] at acts
    exact ⟨t, acts, set, status, event, touches.2 _ (by decide) (by decide) (by decide), touches⟩

end Settle

/-- R483: the outcomes of an acceptance whose record is written. -/
theorem acceptDone_outcomes {s : State} (on : s.cold = false) (queued : rget s (pgCfg + 0x58) = 1) (written : ∀ w ∈ s.jnl.work, w.what ≠ .accept) :
    (reasons s &&& 0xFBF ≠ 0 → ∃ t, exec .acceptComplete s = .next t ∧ rget t (pgCfg + 0x58) = 2 ∧
      reasons t = reasons s &&& 0xFBF ∧ (rget t (pgCfg + 0x10)).testBit 4 = true ∧ Touches [pgCfg + 0x58, pgCfg + 0x48, pgCfg + 0x10] s t) ∧
    (reasons s &&& 0xFBF = 0 → devState s = dvHeld → s.stop = none → ∀ r, s.heldRec = some r →
      ∃ t, exec .acceptComplete s = .next t ∧ devState t = dvConfigured ∧ rget t (pgCfg + 0x4C) = fld r 12 4 ∧ t.msixHeld = []) := by
  obtain ⟨status, event, touches⟩ := accepted_spec s
  have mask := accepted_mask s
  have done : ∀ {t}, heldClear (accepted s) hUntested = t → exec .acceptComplete s = .next (within s t) := fun acts =>
    congrArg Host.Outcome.next ((awake_on on _).trans (congrArg (within s) ((acceptDone_written queued written).trans acts)))
  generalize accepted s = x at *
  refine ⟨fun left => ?_, fun gone held runs r record => ?_⟩
  · have clears := heldClear_kept (s := x) (m := hUntested) (by rw [mask]; exact left)
    rw [mask] at clears
    have whole : Touches [pgCfg + 0x58, pgCfg + 0x48, pgCfg + 0x10] s (rsetBits x (pgCfg + 0x48) 11 0 (reasons s &&& 0xFBF)) :=
      touches_trans (touches_mono touches (by simp +contextual)) (touches_rsetBits x 11 0 _ (by simp))
    have acts := done clears
    rw [within_touches whole] at acts
    exact ⟨_, acts, (rget_rsetBits_ne x 11 0 _ (by decide)).trans status, reasons_set x _ (masked_lt s _),
      (congrArg (Nat.testBit · 4) (rget_rsetBits_ne x 11 0 _ (by decide))).trans event, whole⟩
  · obtain ⟨t, applies, frame, configured, last, sent⟩ := heldClear_configured (m := hUntested)
      ((touches_field touches State.cold (fun _ _ _ _ _ _ => rfl)).trans on) ((touches_field touches State.heldRec (fun _ _ _ _ _ _ => rfl)).trans record)
      (mask.trans gone) ((touches.devState (by decide)).trans held) ((touches_field touches State.stop (fun _ _ _ _ _ _ => rfl)).trans runs)
    have acts := done applies
    rw [within_regsOnly (regsOnly_trans touches.1 frame)] at acts
    exact ⟨t, acts, configured, last, sent⟩

/-- Settles O59. -/
theorem configurationRunsAndImagesAreTaken : Obligations.ConfigurationRunsAndImagesAreTaken := by
  unfold Obligations.ConfigurationRunsAndImagesAreTaken
  refine ⟨fun s m served => ⟨fun v free => ?_, fun i req => negotiate_spec i req, fun other => exec_refused served (by decide) rfl (cfgCommit_refused other),
      fun held free runs => cfgCommit_outcomes served held free runs, fun r => commitCheck_passes s r, fun configured runs => ?_,
      fun other => exec_refused served (by decide) rfl (cfgStart_refused other)⟩,
    fun s m served => ⟨fun v bad => ?_, fun v untested own idle u a room => ?_,
      fun queued written => (acceptDone_outcomes served.1 queued written).1, fun queued written => (acceptDone_outcomes served.1 queued written).2,
      fun i mem => ⟨fun other => ?_, fun held free runs u b read => ⟨fun bad => ?_, fun good => ?_⟩⟩, imgVerify_zero⟩⟩
  · obtain ⟨request, active, event, touches⟩ := verRequest_spec free v.toNat
    have acts : exec (.verRequest m v) s = .next _ := exec_bootPage served (by decide) rfl rfl
    rw [within_touches touches] at acts
    exact ⟨_, acts, request, active, event, touches⟩
  · obtain ⟨t, enters⟩ : ∃ t, enterState s dvRunning = t := ⟨_, rfl⟩
    obtain ⟨running, touches⟩ := enterState_spec enters (by decide)
    have acts : exec (.cfgStart m) s = .next _ := exec_bootPage served (by decide) rfl ((cfgStart_configured configured runs).trans enters)
    rw [within_touches touches] at acts
    exact ⟨t, acts, (devState_awake ((touches_field touches State.cold (fun _ _ _ _ _ _ => rfl)).trans served.1)).trans running, touches⟩
  · have acts : exec (.cfgAccept m v) s = .next _ := exec_bootPage served (by decide) rfl (cfgAccept_refused bad)
    have touches : Touches [pgCfg + 0x10] s (raise s pgCfg 0x20) := touches_raise s 0x20 (List.mem_singleton.mpr rfl)
    rw [within_touches touches] at acts
    exact ⟨_, acts, evt_bit s 0x20 5 (by decide) (by decide), touches⟩
  · obtain ⟨x, queues, work⟩ := cfgAccept_queued untested own idle room
    have acts : exec (.cfgAccept m v) s = .next _ := exec_bootPage served (by decide) rfl queues
    exact ⟨_, acts, (rget_within _ _ _).trans (rget_rset_same _ _ _), work⟩
  · have acts := exec_imgLoads (m := m) served i mem (imgLoad_refused other i.1)
    obtain ⟨event, touches⟩ := cfgRefused_spec s
    rw [within_touches touches] at acts
    exact ⟨_, acts, event, touches⟩
  · have acts := exec_imgLoads served i mem (imgLoad_bad held free runs read i.1 bad)
    have reads : ReadOnly s u := by
      have image := readOnly_image s (rget64 s (pgCfg + 0x68))
      rwa [read] at image
    obtain ⟨t, ends, outcome⟩ := imgRejected_spec s reads (imgVerify_lt s.fuses [1, 2] b)
    rw [ends] at acts
    exact ⟨t, acts, outcome⟩
  · have reads : ReadOnly s u := by
      have image := readOnly_image s (rget64 s (pgCfg + 0x68))
      rwa [read] at image
    obtain ⟨t, loads, record, config, event, keeper, seqr, queued⟩ := imgLoaded_spec (rset u (pgCfg + 0x74) 0) b i.1
    have acts := exec_imgLoads served i mem ((imgLoad_good held free runs read i.1 good).trans loads)
    have kImg : u.kImg = s.kImg := reads.field State.kImg (fun _ _ _ _ _ _ => rfl)
    have uImg : u.uImg = s.uImg := reads.field State.uImg (fun _ _ _ _ _ _ => rfl)
    exact ⟨_, acts, record, (congrArg (Nat.testBit · 0) (reasons_congr (rget_within s t _))).trans config,
      (congrArg (Nat.testBit · 3) (rget_within s t _)).trans event,
      fun one => ⟨(keeper one).1, (keeper one).2.trans uImg⟩, fun other => ⟨(seqr other).1, (seqr other).2.trans kImg⟩, queued⟩

end Sys2Proof.Machine

/-! ### Lane groups: training, going down, delay (O50) -/

namespace Sys2Proof.Machine

theorem lnkUp_lnkPut (s : State) (g h : Nat) (x : Link) : lnkUp (lnkPut s g x) h = lnkUp s h := rfl

/-! R348: training begins. -/

/-- R348: what training needs besides a group that is DOWN and enabled. -/
structure MayTrain (s : State) (g : Fin 16) : Prop where
  down : lnkState s g = 0
  live : devState s = dvConfigured ∨ devState s = dvRunning
  runs : s.stop = none
  cool : optHot s g = false
  node : ownNode s ≠ 0x7FFF
  lit : regionDark s (g / 4) = false

/-- A write of the group's LNK_CTRL leaves what training needs. -/
theorem MayTrain.enabled {s : State} {g : Fin 16} (may : MayTrain s g) (v : Nat) : MayTrain (rset s (pgLnk g + 8) v) g := by
  obtain ⟨down, live, runs, cool, node, lit⟩ := may
  have page := pgLnk_val g
  have small := g.isLt
  have far : ∀ a, a < 0x300000 ∨ 0x400000 ≤ a → rget (rset s (pgLnk g + 8) v) a = rget s a := fun a apart => rget_rset_ne s v (by omega)
  refine ⟨?_, ?_, runs, cool, ?_, lit⟩
  · exact (rbits_congr (rget_rset_ne s v (by omega)) 1 0).trans down
  · have touches := touches_rset (l := [pgLnk g + 8]) s v (List.mem_singleton.mpr rfl)
    rwa [touches.devState (by rw [List.mem_singleton, show pgChp = 0 from rfl]; omega)]
  · unfold ownNode at node ⊢
    rwa [rbits_congr (far _ (by decide))]

theorem trainStart_may {s : State} {g : Fin 16} (may : MayTrain s g) (enabled : lnkEnabled s g = true) : trainStart s g = rsetBits s (pgLnk g + 0xC) 1 0 1 :=
  trainStart_spec rfl may.down enabled may.live may.runs may.cool may.node may.lit

theorem lnkCtrl_retrain {s : State} {g : Fin 16} (may : MayTrain s g) {v : Nat} (enable : bit v 0 = true) :
    lnkCtrl s g (v ||| 2) = rsetBits (rset s (pgLnk g + 8) 1) (pgLnk g + 0xC) 1 0 1 := by
  have odd : (v ||| 2) % 2 = 1 := by
    have low : (v ||| 2).testBit 0 = true := by rw [Nat.testBit_or, show v.testBit 0 = true from enable]; rfl
    simpa [Nat.testBit_zero] using low
  have again : bit (v ||| 2) 1 = true := by
    unfold bit
    rw [Nat.testBit_or, Nat.testBit_eq_decide_div_mod_eq (x := 2)]
    simp
  have enabled : lnkEnabled (rset s (pgLnk g + 8) 1) g = true := by
    unfold lnkEnabled
    rw [rget_rset_same]
    decide
  unfold lnkCtrl
  rw [odd]
  refine (if_pos again).trans ?_
  rw [if_neg (by decide)]
  exact trainStart_may (may.enabled 1) enabled

theorem lnkCtrl_retrain_spec (s : State) (g : Fin 16) : lnkState (rsetBits (rset s (pgLnk g + 8) 1) (pgLnk g + 0xC) 1 0 1) g = 1 ∧
    lnkEnabled (rsetBits (rset s (pgLnk g + 8) 1) (pgLnk g + 0xC) 1 0 1) g = true ∧
    Touches [pgLnk g + 8, pgLnk g + 0xC] s (rsetBits (rset s (pgLnk g + 8) 1) (pgLnk g + 0xC) 1 0 1) := by
  refine ⟨lnkState_set _ _ _ (by decide), ?_, touches_trans (touches_rset s 1 (by simp)) (touches_rsetBits _ 1 0 1 (by simp))⟩
  unfold lnkEnabled
  rw [rget_rsetBits_ne _ _ _ _ (by omega), rget_rset_same]
  decide

/-! R348, R349: outcomes of training and causes of going down. -/

theorem train_noSignal {s : State} {g : Nat} (training : lnkState s g = 1) (fec : Bool) (node grp major lo hi : Nat) :
    train s g false fec node grp major lo hi = lnkDown s g 3 := by
  unfold train
  rw [if_neg (not_not_intro training)]
  rfl

theorem train_noFec {s : State} {g : Nat} (training : lnkState s g = 1) (node grp major lo hi : Nat) :
    train s g true false node grp major lo hi = lnkDown s g 4 := by
  unfold train
  rw [if_neg (not_not_intro training)]
  rfl

theorem lnkBudget_spent {s : State} {g : Nat} {e : Episode} (epi : (lnkGet s g).epi = some e) (spent : 20000 ≤ s.now - e.start) :
    lnkBudget s g = lnkDown s g 8 := by
  unfold lnkBudget
  rw [epi]
  exact if_pos spent

/-! R365: delay. -/

/-- R365: a probe of an UP group. -/
theorem probeSend_up {s : State} {g : Nat} (up : lnkUp s g = true) :
    probeSend s g = lnkPut (lnkPut s g { lnkGet s g with probe := ((lnkGet s g).probe + 1) % 65536, probeAt := s.now }) g
      { lnkGet s g with probe := ((lnkGet s g).probe + 1) % 65536, probeAt := s.now, q := (lnkGet s g).q ++
        [⟨notePkt s pkProbe (lnkPeer s g) (((lnkGet s g).probe + 1) % 65536) (leBytes 8 0), 1024, 0, none⟩] } := by
  unfold probeSend
  dsimp only
  rw [lnkNotice_up ((lnkUp_lnkPut s g g _).trans up), lnkGet_put]

theorem probeReceive_up {s u : State} {g t2 a : Nat} {k : Pkt} (taken : rxTake s g (fun k => k.ty == pkProbe) = some ((k, t2, a), u)) (up : lnkUp u g = true) :
    probeReceive s g = lnkPut u g { lnkGet u g with q := (lnkGet u g).q ++
      [⟨notePkt u pkEcho k.src (k.tag % 65536) (k.pay.take 8 ++ leBytes 8 t2 ++ leBytes 16 0), 1024, 0, none⟩] } := by
  unfold probeReceive
  rw [taken]
  exact lnkNotice_up up

theorem echoReceive_latest {s u : State} {g t4 a : Nat} {k : Pkt} (taken : rxTake s g (fun k => k.ty == pkEcho) = some ((k, t4, a), u))
    (latest : k.tag = (lnkGet u g).probe) (near : a - (lnkGet u g).probeAt ≤ 100000) : echoReceive s g = rset u (pgLnk g + 0x50)
      (ofSigned 24 ((((t4 : Int) - fld k.pay 0 8) - ((fld k.pay 16 8 : Int) - fld k.pay 8 8)) / 2)) := by
  unfold echoReceive
  rw [taken]
  refine if_neg (not_or.mpr ⟨not_not_intro latest, Nat.not_lt.mpr near⟩)

/-- Settles O50. -/
theorem linksTrainAndGoDown : Obligations.LinksTrainAndGoDown := by
  unfold Obligations.LinksTrainAndGoDown
  intro s g on
  have acts : ∀ {i : Instr} {f : State → State} {t}, exec i s = .next (awake s f) → f s = t → exec i s = .next (within s t) := by
    intro i f t meaning done
    rw [meaning, awake_on on, done]
  refine ⟨fun down live runs cool node lit => ⟨fun m v served enable => ?_, fun enabled old => ?_⟩, fun node grp lo hi training nodeOk grpOk nodeFits grpFits common range => ?_,
    fun fec node grp major lo hi training => ⟨acts rfl (train_noSignal training fec node grp major lo hi), acts rfl (train_noFec training node grp major lo hi)⟩,
    fun up => acts rfl (if_pos up), fun e epi spent => acts rfl (lnkBudget_spent epi spent), fun cause small live => lnkDown_spec s g cause small live,
    fun up due => ?_, fun k t2 a u taken up => ?_, fun k t4 a u taken latest near => ?_⟩
  · obtain ⟨state, enabled, touches⟩ := lnkCtrl_retrain_spec s g
    have done : exec (.lnkRetrain m g v) s = .next _ := congrArg Host.Outcome.next
      ((awake_pfWrite_served served _ _ _).trans (congrArg (within s) (lnkCtrl_retrain ⟨down, live, runs, cool, node, lit⟩ enable)))
    rw [within_touches touches] at done
    exact ⟨_, done, state, enabled, rfl, touches⟩
  · have touches : Touches [pgLnk g + 0xC] s (rsetBits s (pgLnk g + 0xC) 1 0 1) := touches_rsetBits s 1 0 1 (List.mem_singleton.mpr rfl)
    have done : exec (.linkRetrainTimer g) s = .next _ := acts rfl ((if_pos old).trans (trainStart_may ⟨down, live, runs, cool, node, lit⟩ enabled))
    rw [within_touches touches] at done
    exact ⟨_, done, lnkState_set _ _ _ (by decide), rfl, touches⟩
  · obtain ⟨k, state, minor, peer, event, link, pkt, mems, cells⟩ := train_up rfl training nodeOk grpOk nodeFits grpFits common range
    exact ⟨_, k, acts rfl rfl, (rbits_within _ _ _ _ _).trans state, (rbits_within _ _ _ _ _).trans minor, (rbits_within _ _ _ _ _).trans peer,
      (congrArg (Nat.testBit · 0) (rget_within _ _ _)).trans event, (lnkGet_congr rfl g).trans link, pkt, mems, cells⟩
  · have sends : exec (.delayProbeTimer g) s = .next _ := acts rfl ((if_pos (by rw [up, decide_eq_true due]; rfl)).trans (probeSend_up up))
    refine ⟨_, notePkt s pkProbe (lnkPeer s g) (((lnkGet s g).probe + 1) % 65536) (leBytes 8 0), sends, ?_, ?_, rfl, rfl, rfl⟩
    · exact congrArg Link.q ((lnkGet_congr rfl g).trans (lnkGet_put _ g _))
    · exact congrArg Link.probe ((lnkGet_congr rfl g).trans (lnkGet_put _ g _))
  · obtain ⟨-, ct, left⟩ := rxTake_some taken
    have same : (lnkGet u g).q = (lnkGet s g).q := by rw [left, lnkGet_put]
    have regs : u.regs = s.regs := by rw [left]; rfl
    have mems : u.mems = s.mems := by rw [left]; rfl
    have answers : exec (.delayProbe g) s = .next _ := acts rfl (probeReceive_up taken (by rw [left, lnkUp_lnkPut]; exact up))
    refine ⟨_, notePkt u pkEcho k.src (k.tag % 65536) (k.pay.take 8 ++ leBytes 8 t2 ++ leBytes 16 0), answers, ?_, rfl, regs, mems⟩
    rw [← same]
    exact congrArg Link.q ((lnkGet_congr rfl g).trans (lnkGet_put _ g _))
  · obtain ⟨-, ct, left⟩ := rxTake_some taken
    have probe : (lnkGet u g).probe = (lnkGet s g).probe ∧ (lnkGet u g).probeAt = (lnkGet s g).probeAt := by
      rw [left, lnkGet_put]; exact ⟨rfl, rfl⟩
    have regs : u.regs = s.regs := by rw [left]; rfl
    have mems : u.mems = s.mems := by rw [left]; rfl
    have measures : exec (.delayEcho g) s = .next _ := acts rfl (echoReceive_latest taken (by rw [probe.1]; exact latest) (by rw [probe.2]; exact near))
    exact ⟨_, measures, (rget_within _ _ _).trans (rget_rset_same _ _ _),
      fun b other => (rget_within _ _ _).trans ((rget_rset_ne _ _ other).trans (rget_congr regs b)), mems⟩

end Sys2Proof.Machine

/-! ### Frames and their retry (O51) -/

namespace Sys2Proof.Machine

/-! R356, R362, R363: one frame slot. -/

section Egress
variable {s : State} {g : Nat} (up : lnkUp s g = true)
include up

theorem egress_ctrl {h : Nat × Nat} {l : List (Nat × Nat)} (ctrl : (lnkGet s g).ctrl = h :: l) :
    egress s g = lnkPut s g { lnkGet s g with ctrl := l } := by
  unfold egress
  rw [up]
  refine (if_neg (by decide)).trans ?_
  rw [ctrl]

variable (idle : (lnkGet s g).ctrl = [])
include idle

theorem egress_replay {f : Frame} {l : List Frame} (replay : (lnkGet s g).replay = f :: l) : egress s g = lnkPut s g { lnkGet s g with
    replay := l, unacked := (lnkGet s g).unacked.map (fun u => if u.lseq = f.lseq then { u with sentAt := s.now } else u) } := by
  unfold egress
  rw [up]
  refine (if_neg (by decide)).trans ?_
  split
  next some => rw [idle] at some; cases some
  next =>
    split
    next _ _ first => rw [replay] at first; cases first; rfl
    next none => rw [replay] at none; cases none

theorem egress_picked {e : QEnt} {k : Nat} (replayed : (lnkGet s g).replay = []) (picked : egressPick s g = some (e, k)) : egress s g = frameOut s g e k := by
  unfold egress
  rw [up]
  refine (if_neg (by decide)).trans ?_
  rw [idle]
  dsimp only
  rw [replayed]
  dsimp only
  rw [picked]

end Egress

theorem tagSent_frame (s : State) (slot : Option Nat) : ∃ x, tagSent s slot = { s with tags := x } := by
  cases slot with
  | none => exact ⟨s.tags, rfl⟩
  | some k => exact ⟨_, rfl⟩

/-- What the departure of a new frame leaves. -/
theorem frameOut_spec (s : State) (g : Nat) (e : QEnt) (k : Nat) :
    (lnkGet (frameOut s g e k) g).unacked = (lnkGet s g).unacked ++ [⟨(lnkGet s g).nextSeq, s.now, { e with pkt := stampOut s e.pkt }⟩] ∧
    (lnkGet (frameOut s g e k) g).nextSeq = ((lnkGet s g).nextSeq + 1) % 256 ∧ (lnkGet (frameOut s g e k) g).q = qRemove e (lnkGet s g).q ∧
    (lnkGet (frameOut s g e k) g).credits = (lnkGet s g).credits.set e.pkt.vc ((lnkGet s g).credits.getD e.pkt.vc 0 - e.pkt.need) ∧
    (frameOut s g e k).credit = (linkCharge s g e k).credit ∧ (frameOut s g e k).regs = s.regs ∧ (frameOut s g e k).mems = s.mems ∧
    (frameOut s g e k).cmds = s.cmds := by
  obtain ⟨y, hy⟩ : ∃ y : Link, y = { lnkGet s g with
    q := qRemove e (lnkGet s g).q
    unacked := (lnkGet s g).unacked ++ [⟨(lnkGet s g).nextSeq, s.now, { e with pkt := stampOut s e.pkt }⟩]
    nextSeq := ((lnkGet s g).nextSeq + 1) % 256
    credits := (lnkGet s g).credits.set e.pkt.vc ((lnkGet s g).credits.getD e.pkt.vc 0 - e.pkt.need)
    lastG := if k = 5 then e.part else (lnkGet s g).lastG, lastB := if k = 6 then e.part else (lnkGet s g).lastB
    probeAt := if e.pkt.ty = pkProbe then s.now else (lnkGet s g).probeAt } := ⟨_, rfl⟩
  have out : frameOut s g e k = colSent (tagSent (lnkPut (linkCharge s g e k) g y) e.slot) e := by rw [hy]; rfl
  obtain ⟨charge, charged⟩ := linkCharge_frame s g e k
  obtain ⟨tags, tagged⟩ := tagSent_frame (lnkPut (linkCharge s g e k) g y) e.slot
  obtain ⟨runs, ran⟩ := colSent_frame (tagSent (lnkPut (linkCharge s g e k) g y) e.slot) e
  rw [out, ran, tagged]
  have link : lnkGet { { lnkPut (linkCharge s g e k) g y with tags := tags } with cruns := runs } g = y := (lnkGet_congr rfl g).trans (lnkGet_put _ g y)
  rw [link, hy]
  refine ⟨rfl, rfl, rfl, rfl, rfl, ?_⟩
  rw [charged]
  exact ⟨rfl, rfl, rfl⟩

/-! R352, R356: a frame arrives. -/

section Receive
variable {s : State} {g : Nat} (up : lnkUp s g = true) (lseq ack : Nat) (ret : List Nat)
include up

theorem lnkReceive_bad (fresh : (lnkGet s g).nakked = false) (k : Option Pkt) : lnkReceive s g lseq ack false k ret =
    lnkPut s g { lnkGet s g with nakked := true, ctrl := (lnkGet s g).ctrl ++ [(1, (lnkGet s g).expect)] } := by
  unfold lnkReceive
  rw [up]
  exact (if_neg (by decide)).trans ((if_pos rfl).trans (if_neg (by rw [fresh]; exact Bool.false_ne_true)))

theorem lnkReceive_control : lnkReceive s g lseq ack true none ret = lnkPut (lnkAck s g ack) g { lnkGet (lnkAck s g ack) g with
    credits := (lnkGet (lnkAck s g ack) g).credits.zipWith (· + ·) (ret ++ List.replicate ((lnkGet (lnkAck s g ack) g).credits.length - ret.length) 0) } := by
  unfold lnkReceive
  rw [up]
  exact (if_neg (by decide)).trans (if_neg (by decide))

theorem lnkReceive_expected {p : Pkt} (known : knownType p.ty = true) : lnkReceive s g (lnkGet (lnkAck s g ack) g).expect ack true (some p) ret =
    lnkPut (lnkAck s g ack) g { lnkGet (lnkAck s g ack) g with
      expect := ((lnkGet (lnkAck s g ack) g).expect + 1) % 256, nakked := false
      ctrl := (lnkGet (lnkAck s g ack) g).ctrl ++ [(0, (lnkGet (lnkAck s g ack) g).expect)]
      rx := (lnkGet (lnkAck s g ack) g).rx ++ [(p, sceneNow s, s.now)] } := by
  unfold lnkReceive
  rw [up]
  refine (if_neg (by decide)).trans ((if_neg (by decide)).trans ((if_pos rfl).trans ?_))
  rw [known, if_pos rfl, if_pos rfl, List.append_nil]

theorem lnkReceive_repeated (p : Pkt) (other : lseq ≠ (lnkGet (lnkAck s g ack) g).expect)
    (seen : ((lnkGet (lnkAck s g ack) g).expect + 256 - lseq) % 256 < 128) : lnkReceive s g lseq ack true (some p) ret =
    lnkPut (lnkAck s g ack) g { lnkGet (lnkAck s g ack) g with
      ctrl := (lnkGet (lnkAck s g ack) g).ctrl ++ [(0, ((lnkGet (lnkAck s g ack) g).expect + 255) % 256)] } := by
  unfold lnkReceive
  rw [up]
  exact (if_neg (by decide)).trans ((if_neg (by decide)).trans ((if_neg other).trans (if_pos seen)))

end Receive

/-! R356, R357: replays. -/

/-- R356: an acknowledgement outside an episode. -/
theorem lnkAck_calm {s : State} {g : Nat} (calm : (lnkGet s g).epi = none) (ack : Nat) : lnkAck s g ack = lnkPut s g { lnkGet s g with
    unacked := (lnkGet s g).unacked.filter (fun f => decide (128 ≤ (ack + 256 - f.lseq) % 256))
    replay := (lnkGet s g).replay.filter (fun f => decide (128 ≤ (ack + 256 - f.lseq) % 256)) } := by
  have left : (fun f : Frame => !decide ((ack + 256 - f.lseq) % 256 < 128)) = fun f => decide (128 ≤ (ack + 256 - f.lseq) % 256) := by
    funext f
    rw [← decide_not]
    simp only [Nat.not_lt]
  unfold lnkAck
  dsimp only
  rw [calm, left]
  exact if_neg Bool.false_ne_true

theorem lnkReplayTimeout_due {s : State} {g : Nat} {f : Frame} {l : List Frame} (up : lnkUp s g = true) (oldest : (lnkGet s g).unacked = f :: l)
    (due : 2000 ≤ s.now - f.sentAt) : lnkReplayTimeout s g = lnkReplay s g (lnkGet s g).unacked := by
  unfold lnkReplayTimeout
  rw [oldest]
  exact if_pos (by rw [up, decide_eq_true due]; rfl)

/-- R357: the 17th replay of an episode. -/
theorem lnkReplay_last {s : State} {g : Nat} {e : Episode} (epi : (lnkGet s g).epi = some e) (many : 16 ≤ e.replays) (l : List Frame) :
    lnkReplay s g l = lnkDown s g 7 := by
  unfold lnkReplay
  dsimp only
  rw [epi]
  exact if_pos (Nat.lt_succ_of_le many)

/-- What the command of a replay answers. -/
theorem replay_within {s u t : State} {g : Fin 16} (replays : lnkReplay u g (lnkGet u g).unacked = t) (few : ∀ e, (lnkGet u g).epi = some e → e.replays < 16)
    (now : u.now = s.now) (regs : u.regs = s.regs) (mems : u.mems = s.mems) (tags : u.tags = s.tags) :
    (lnkGet (within s t) g).replay = (lnkGet u g).unacked ∧
    (lnkGet (within s t) g).unacked = (lnkGet u g).unacked.map (fun f => { f with sentAt := s.now }) ∧
    (lnkGet (within s t) g).epi =
      some ((lnkGet u g).epi.elim ⟨s.now, (lnkGet u g).unacked.map (·.lseq), 1⟩ (fun e => { e with replays := e.replays + 1 })) ∧
    lnkState (within s t) g = 3 ∧ rget (within s t) (pgLnk g + 0x48) = min (rget s (pgLnk g + 0x48) + 1) 0xFFFFFFFF ∧
    (rget (within s t) (pgLnk g + 0x10)).testBit 2 = true ∧ (within s t).mems = s.mems ∧ (within s t).tags = s.tags := by
  obtain ⟨replay, unacked, epi, state, count, event, sameMems, sameTags⟩ := lnkReplay_spec replays rfl few
  have link : lnkGet (within s t) g = lnkGet t g := lnkGet_congr rfl g
  rw [now] at unacked epi
  rw [rget_congr regs] at count
  exact ⟨(congrArg Link.replay link).trans replay, (congrArg Link.unacked link).trans unacked, (congrArg Link.epi link).trans epi,
    (rbits_within s t _ _ _).trans state, (rget_within s t _).trans count, (congrArg (Nat.testBit · 2) (rget_within s t _)).trans event,
    sameMems.trans mems, sameTags.trans tags⟩

theorem lnkNak_calm {s : State} {g lseq : Nat} (up : lnkUp s g = true) (left : (lnkGet (lnkAck s g ((lseq + 255) % 256)) g).unacked ≠ []) :
    lnkNak s g lseq = lnkReplay (lnkAck s g ((lseq + 255) % 256)) g (lnkGet (lnkAck s g ((lseq + 255) % 256)) g).unacked := by
  unfold lnkNak
  rw [up]
  exact (if_neg (by decide)).trans (if_neg (by simpa using left))

/-- Settles O51. -/
theorem framesAreRetried : Obligations.FramesAreRetried := by
  unfold Obligations.FramesAreRetried
  intro s g on up x
  have acts : ∀ {i : Instr} {f : State → State} {t}, exec i s = .next (awake s f) → f s = t → exec i s = .next (within s t) := by
    intro i f t meaning done
    rw [meaning, awake_on on, done]
  have slot : ∀ {t}, egress s g = t → exec (.egressFrameSelect g) s = .next (within s (colPumpAll t)) := fun out => acts rfl (congrArg colPumpAll out)
  refine ⟨fun h l ctrl => slot (egress_ctrl up ctrl), fun f l idle replay => slot (egress_replay up idle replay), fun e k idle replayed picked => ?_,
    fun lseq ack k ret fresh => acts rfl (lnkReceive_bad up lseq ack ret fresh k), ?_, ?_, fun lseq ack ret four credits => ?_, ?_,
    fun f l oldest due few => ?_, fun f l e oldest due epi many => acts rfl ((lnkReplayTimeout_due up oldest due).trans (lnkReplay_last epi many _))⟩
  · obtain ⟨queued, fits, paid⟩ := egressPick_spec picked
    exact ⟨queued, fits, paid, _, slot (egress_picked up idle replayed picked), frameOut_spec s g e k⟩
  · intro ack ret p u y known
    exact acts rfl (lnkReceive_expected up ack ret known)
  · intro lseq ack p ret u y _ other _ seen
    exact acts rfl (lnkReceive_repeated up lseq ack ret p other seen)
  · have control := lnkReceive_control up lseq ack ret
    rw [credits, four, Nat.sub_self, List.replicate_zero, List.append_nil] at control
    exact ⟨_, acts rfl control, congrArg Link.credits ((lnkGet_congr rfl g).trans (lnkGet_put _ g _)), rfl⟩
  · intro lseq rest calm left
    have acked := lnkAck_calm calm ((lseq + 255) % 256)
    have link : lnkGet (lnkAck s g ((lseq + 255) % 256)) g = _ := (congrArg (lnkGet · g) acked).trans (lnkGet_put _ g _)
    have unacked : (lnkGet (lnkAck s g ((lseq + 255) % 256)) g).unacked = rest := congrArg Link.unacked link
    have epi : (lnkGet (lnkAck s g ((lseq + 255) % 256)) g).epi = none := (congrArg Link.epi link).trans calm
    have spec := replay_within (s := s) (u := lnkAck s g ((lseq + 255) % 256)) (g := g) rfl (by rw [epi]; intro e h; cases h)
      (by rw [acked]; rfl) (by rw [acked]; rfl) (by rw [acked]; rfl) (by rw [acked]; rfl)
    rw [unacked, epi] at spec
    exact ⟨_, acts rfl ((lnkNak_calm up (by rw [unacked]; exact left)).trans (by rw [unacked])), spec⟩
  · exact ⟨_, acts rfl (lnkReplayTimeout_due up oldest due), replay_within rfl few rfl rfl rfl rfl⟩

end Sys2Proof.Machine

/-! ### Remote memory (O52) -/

namespace Sys2Proof.Machine

/-! R354: FAB_READ and FAB_WRITE. -/

/-- What a FAB command runs, of a module whose memory errors have been noted for a write. -/
theorem exec_fab {s x : State} (on : s.cold = false) {p : Fin 1024} {q : Fin 16} {write : Bool} {ecc : Ecc} {i : Instr}
    (which : (write = false ∧ i = .fabRead p q ∧ x = s) ∨ (write = true ∧ i = .fabWrite p q ecc ∧ x = eccIn s ecc)) :
    exec i s = .next (within s (hostFab x p q write)) := by
  obtain ⟨rfl, rfl, rfl⟩ | ⟨rfl, rfl, rfl⟩ := which
  · exact congrArg Host.Outcome.next (awake_on on _)
  · exact congrArg Host.Outcome.next (awake_on on _)

/-! R355: targets. -/

section Target
variable {s u : State} {g : Nat} {k : Pkt × Nat × Nat}

theorem targetReq_denied {write : Bool} (taken : rxTake s g (fun k => k.ty == (if write = true then pkWriteReq else pkReadReq)) = some (k, u))
    (heard : (lnkGet u g).blocked = false) (denied : targetDenies u k.1 = true) : targetReq s g write =
      lnkQueue u g ⟨rspPkt u k.1 (if write = true then pkWriteAck else pkReadRsp) stDenied [], k.1.dpart, 2, none⟩ := by
  unfold targetReq
  rw [taken]
  exact (if_neg (by rw [heard]; exact Bool.false_ne_true)).trans (if_pos denied)

theorem targetReq_read {w : State} {bs : List Byte} (taken : rxTake s g (fun k => k.ty == pkReadReq) = some (k, u)) (heard : (lnkGet u g).blocked = false)
    (allowed : targetDenies u k.1 = false) (read : hget u k.1.dpart k.1.addr k.1.len true = (w, 0, bs)) : targetReq s g false =
      lnkQueue w g ⟨rspPkt w k.1 pkReadRsp stOk bs, k.1.dpart, 2, none⟩ := by
  unfold targetReq
  rw [show rxTake s g (fun k => k.ty == (if false = true then pkWriteReq else pkReadReq)) = some (k, u) from taken]
  refine (if_neg (by rw [heard]; exact Bool.false_ne_true)).trans ((if_neg (by rw [allowed]; exact Bool.false_ne_true)).trans ((if_neg Bool.false_ne_true).trans ?_))
  rw [read]
  rfl

theorem targetReq_write (taken : rxTake s g (fun k => k.ty == pkWriteReq) = some (k, u)) (heard : (lnkGet u g).blocked = false)
    (allowed : targetDenies u k.1 = false) : targetReq s g true =
      lnkQueue (hputD u k.1.dpart k.1.addr k.1.pay) g ⟨rspPkt (hputD u k.1.dpart k.1.addr k.1.pay) k.1 pkWriteAck stOk [], k.1.dpart, 2, none⟩ := by
  unfold targetReq
  rw [show rxTake s g (fun k => k.ty == (if true = true then pkWriteReq else pkReadReq)) = some (k, u) from taken]
  exact (if_neg (by rw [heard]; exact Bool.false_ne_true)).trans ((if_neg (by rw [allowed]; exact Bool.false_ne_true)).trans (if_pos rfl))

end Target

/-! R358, R359: outcomes. -/

section Response
variable {s u : State} {g : Nat} {write : Bool} {k : Pkt × Nat × Nat}
  (taken : rxTake s g (fun k => k.ty == (if write = true then pkWriteAck else pkReadRsp)) = some (k, u))
include taken

theorem response_live {t : Tag} (live : u.tags.find? (fun t => t.slot == k.1.tag % 65536 && t.gen == bits k.1.tag 23 16) = some t) :
    response s g write =
      fabPump (tagOutcome (if k.1.status = stOk ∧ write = false then hputD u t.part t.addr (k.1.pay.take t.len) else u) t k.1.status 0) := by
  unfold response
  rw [taken]
  dsimp only
  rw [live]

theorem response_late (late : u.tags.find? (fun t => t.slot == k.1.tag % 65536 && t.gen == bits k.1.tag 23 16) = none) :
    response s g write = lnkEvt (bumpSat u (pgLnk g + 0x54) 1) g 0x20 := by
  unfold response
  rw [taken]
  dsimp only
  rw [late]

end Response

/-- R359: a late response is counted, and nothing else changes but the buffer it leaves. -/
theorem lateCounted {s u : State} {g : Fin 16} {f : Pkt → Bool} {k : Pkt × Nat × Nat} (taken : rxTake s g f = some (k, u)) : ∃ t,
    lnkEvt (bumpSat u (pgLnk g + 0x54) 1) g 0x20 = t ∧ rget t (pgLnk g + 0x54) = min (rget s (pgLnk g + 0x54) + 1) 0xFFFFFFFF ∧
      (rget t (pgLnk g + 0x10)).testBit 5 = true ∧ t.mems = s.mems ∧ t.tags = s.tags ∧ t.fabs = s.fabs ∧ t.cmds = s.cmds := by
  obtain ⟨-, ct, left⟩ := rxTake_some taken
  have page := pgLnk_val g
  have small := g.isLt
  have regs : u.regs = s.regs := by rw [left]; rfl
  refine ⟨_, rfl, ?_, raise_lnk_bit _ g 0x20 5 (by decide) (by decide), ?_, ?_, ?_, ?_⟩
  · exact (raise_lnk _ g 0x20 (by omega) (by omega)).trans ((rget_bumpSat_val u _ 1).trans (by rw [rget_congr regs]))
  · exact (raise_mems (bumpSat u (pgLnk g + 0x54) 1) (pgLnk g) 0x20).trans (by rw [left]; rfl)
  · exact (raise_tags (s := bumpSat u (pgLnk g + 0x54) 1) (pgLnk g) 0x20).trans (by rw [left]; rfl)
  · exact (raise_fabs (s := bumpSat u (pgLnk g + 0x54) 1) (pgLnk g) 0x20).trans (by rw [left]; rfl)
  · exact (raise_cmds (s := bumpSat u (pgLnk g + 0x54) 1) (pgLnk g) 0x20).trans (by rw [left]; rfl)

theorem exec_response {s t : State} (on : s.cold = false) (g : Fin 16) (write : Bool) (acts : response s g write = t) :
    exec (if write = true then .writeAck g else .readRsp g) s = .next (within s t) := by
  cases write <;> exact congrArg Host.Outcome.next ((awake_on on _).trans (congrArg (within s) acts))

section Deadline
variable {s : State} {slot at' : Nat} {t : Tag} (live : s.tags.find? (fun t => t.slot == slot) = some t) (sent : t.sent = some at')
  (passed : at' + colTimeout s + t.ext ≤ s.now)
include live sent passed

theorem fabDeadline_timeout (well : lnkState s t.group ≠ 3) : fabDeadline s slot = fabPump (tagOutcome s t stTimeout 0) := by
  unfold fabDeadline
  rw [live]
  dsimp only
  rw [sent]
  exact (if_neg (Nat.not_lt.mpr passed)).trans (if_neg well)

theorem fabDeadline_held (recovers : lnkState s t.group = 3) :
    fabDeadline s slot = { s with tags := s.tags.map (fun x => if x.slot = slot then { x with held := true } else x) } := by
  unfold fabDeadline
  rw [live]
  dsimp only
  rw [sent]
  exact (if_neg (Nat.not_lt.mpr passed)).trans (if_pos recovers)

end Deadline

/-- Settles O52. -/
theorem remoteMemoryIsReached : Obligations.RemoteMemoryIsReached := by
  unfold Obligations.RemoteMemoryIsReached
  intro s on
  have acts : ∀ {i : Instr} {f : State → State} {t}, exec i s = .next (awake s f) → f s = t → exec i s = .next (within s t) := by
    intro i f t meaning done
    rw [meaning, awake_on on, done]
  refine ⟨fun x p q c write ecc i which next => ⟨fun noRoute => ?_, fun g route fields flags some' most dpart quota urgent => ⟨fun outside => ?_, fun inside => ?_⟩⟩,
    fun f i some' piece => piece_spec f i some' piece, fun g ecc k u taken heard => ⟨fun denied => ?_, fun w bs allowed read => ?_⟩,
    fun g k u taken heard => ⟨fun denied => ?_, fun allowed => ?_⟩, fun g write k u taken => ⟨fun t live => ?_, fun late => ?_⟩,
    fun slot t at' live sent passed => ⟨fun well => ?_, fun recovers => ?_⟩, fun g k u taken => ?_, fun g k u taken => ?_⟩
  · have runs := exec_fab on which
    rw [hostFab_none next noRoute] at runs
    exact ⟨_, runs, cmdDone_answered next.at stFailedOperand dFbNoRoute⟩
  · have runs := exec_fab on which
    rw [hostFab_some next route fields flags some' most dpart quota urgent, outside] at runs
    exact ⟨_, runs, cmdDone_answered next.at stDenied 0⟩
  · have runs := exec_fab on which
    rw [hostFab_some next route fields flags some' most dpart quota urgent, if_neg (by simpa using inside)] at runs
    exact runs
  · exact acts rfl (targetReq_denied (write := false) taken heard denied)
  · exact acts rfl (targetReq_read taken heard allowed read)
  · exact acts rfl (targetReq_denied (write := true) taken heard denied)
  · exact acts rfl (targetReq_write taken heard allowed)
  · exact exec_response on g write (response_live taken live)
  · obtain ⟨t, counts, count, event, mems, tags, fabs, cmds⟩ := lateCounted taken
    exact ⟨_, exec_response on g write ((response_late taken late).trans counts), (rget_within _ _ _).trans count,
      (congrArg (Nat.testBit · 5) (rget_within _ _ _)).trans event, mems, tags, fabs, cmds⟩
  · exact acts rfl (fabDeadline_timeout live sent passed well)
  · exact ⟨_, acts rfl (fabDeadline_held live sent passed recovers), rfl, rfl, rfl, rfl⟩
  · obtain ⟨tags, mems, cmds, event, count⟩ := slowReceive_spec taken rfl
    exact ⟨_, acts rfl rfl, tags, mems, cmds, (congrArg (Nat.testBit · 6) (rget_within _ _ _)).trans event, (rget_within _ _ _).trans count⟩
  · obtain ⟨w, cuts, spec⟩ := abortReceive_spec taken
    exact ⟨w, acts rfl cuts, spec⟩

end Sys2Proof.Machine

/-! ### The scene clock, the timetable and the tokenizer (O54) -/

namespace Sys2Proof.Machine

/-! R394, R395: SCL_SET. -/

theorem sclStep_forward {s : State} {v : Nat} (free : s.tts = []) (ahead : s.sclTime ≤ v) :
    sclStep s v = sclEvt { s with sclTime := v, scl := { s.scl with slew := 0 } } 4 :=
  if_neg (by simp [free, ahead])

theorem sclStep_refused {s : State} {v : Nat} (bad : s.tts ≠ [] ∨ v < s.sclTime) : sclStep s v = sclEvt s 8 := by
  refine if_pos ?_
  obtain armed | behind := bad
  · simp [armed]
  · simp [behind]

section Set
variable {s : State} {v : Nat}

theorem sclSet_free (source : sclSrc s = 0) : sclSet s v = sclStep s v := if_pos source

theorem sclSet_refused (bad : sclSrc s = 3 ∨ s.tts ≠ [] ∨ v < s.sclTime) : sclSet s v = sclEvt s 8 := by
  unfold sclSet
  dsimp only
  by_cases source : sclSrc s = 0
  · rw [if_pos source]
    exact sclStep_refused (bad.resolve_left (by rw [source]; decide))
  · rw [if_neg source]
    refine if_pos ?_
    obtain group | armed | behind := bad
    · simp [group]
    · simp [armed]
    · simp [behind]

theorem sclSet_waits (source : sclSrc s = 1 ∨ sclSrc s = 2) (free : s.tts = []) (ahead : s.sclTime ≤ v) :
    sclSet s v = { s with scl := { s.scl with setAt := some v } } := by
  have edge : sclSrc s ≠ 0 ∧ sclSrc s ≠ 3 := by omega
  unfold sclSet
  dsimp only
  rw [if_neg edge.1]
  exact if_neg (by simp [edge.2, free, ahead])

end Set

theorem sclEvt_touches (s : State) (e : Nat) : Touches [pgScl + 0x10] s (sclEvt s e) := touches_raise s e (List.mem_singleton.mpr rfl)

theorem Touches.scl {l : List Nat} {s t : State} (h : Touches l s t) : t.scl = s.scl := touches_field h State.scl (fun _ _ _ _ _ _ => rfl)

theorem Touches.sclTime {l : List Nat} {s t : State} (h : Touches l s t) : t.sclTime = s.sclTime := touches_field h State.sclTime (fun _ _ _ _ _ _ => rfl)

section SetWrite
variable {s : State} {m : Half} {v : Word} (served : Served s (pgScl + 0x4C))
include served

theorem exec_sclSet {t : State} (acts : sclSet (stage s m.toNat (pgScl + 0x48) none) (stagedLow s m.toNat (pgScl + 0x48) % 2 ^ 32 + v.toNat * 2 ^ 32) = t) :
    exec (.sclSet m v) s = .next (within s t) := by
  have write : sclSetWrite s m.toNat v.toNat = t := by
    unfold sclSetWrite
    rw [Nat.mod_eq_of_lt v.isLt]
    exact acts
  exact congrArg Host.Outcome.next ((awake_pfWrite_served served _ _ _).trans (congrArg (within s) write))

/-- R394, R395: the outcomes of a write of SCL_SET. -/
theorem sclSet_outcomes :
    let x := stage s m.toNat (pgScl + 0x48) none
    let n := stagedLow s m.toNat (pgScl + 0x48) % 2 ^ 32 + v.toNat * 2 ^ 32
    (sclSrc s = 0 → s.tts = [] → s.sclTime ≤ n → ∃ t, exec (.sclSet m v) s = .next t ∧ t.sclTime = n ∧ t.scl.slew = 0 ∧
      (rget t (pgScl + 0x10)).testBit 2 = true ∧ Touches [pgScl + 0x10] { x with sclTime := n, scl := { x.scl with slew := 0 } } t) ∧
    ((sclSrc s = 3 ∨ s.tts ≠ [] ∨ n < s.sclTime) → ∃ t, exec (.sclSet m v) s = .next t ∧ t.sclTime = s.sclTime ∧ t.scl = s.scl ∧
      (rget t (pgScl + 0x10)).testBit 3 = true ∧ Touches [pgScl + 0x10] x t) ∧
    ((sclSrc s = 1 ∨ sclSrc s = 2) → s.tts = [] → s.sclTime ≤ n →
      ∃ t, exec (.sclSet m v) s = .next t ∧ t.sclTime = s.sclTime ∧ t.scl = { s.scl with setAt := some n } ∧ t.regs = s.regs) := by
  intro x n
  have acts : ∀ {t}, sclSet x n = t → exec (.sclSet m v) s = .next (within s t) := fun h => exec_sclSet served h
  have tts : x.tts = s.tts := rfl
  have time : x.sclTime = s.sclTime := rfl
  have base : ∀ t, within s t = within x t := fun t => within_base rfl rfl rfl rfl rfl rfl
  have same : sclSrc x = sclSrc s := rfl
  have scl : x.scl = s.scl := rfl
  have regs : x.regs = s.regs := rfl
  clear_value x n
  refine ⟨fun source free ahead => ?_, fun bad => ?_, fun source free ahead => ?_⟩
  · have step := acts ((sclSet_free (same.trans source)).trans (sclStep_forward (tts.trans free) (by rw [time]; exact ahead)))
    have touches := sclEvt_touches { x with sclTime := n, scl := { x.scl with slew := 0 } } 4
    have stepped : ∀ t, within x t = within { x with sclTime := n, scl := { x.scl with slew := 0 } } t := fun t => within_base rfl rfl rfl rfl rfl rfl
    rw [base, stepped, within_touches touches] at step
    exact ⟨_, step, touches.sclTime, congrArg Scl.slew touches.scl, sclEvt_bit _ 4 2 (by decide) (by decide), touches⟩
  · have refuses := acts (sclSet_refused (s := x) (v := n) (by rw [same, tts, time]; exact bad))
    have touches := sclEvt_touches x 8
    rw [base, within_touches touches] at refuses
    exact ⟨_, refuses, touches.sclTime.trans time, touches.scl.trans scl, sclEvt_bit x 8 3 (by decide) (by decide), touches⟩
  · have waits := acts (sclSet_waits (by rw [same]; exact source) (tts.trans free) (by rw [time]; exact ahead))
    rw [scl] at waits
    exact ⟨_, waits, time, rfl, regs⟩

end SetWrite

/-! R395, R396: edges, messages, loss and lock. -/

section Edge
variable {s : State} (source : sclSrc s = 1 ∨ sclSrc s = 2)
include source

theorem ppsEdge_applies {v : Nat} (waits : s.scl.setAt = some v) :
    ppsEdge s = sclStep { s with scl := { s.scl with setAt := none, heard := s.now } } v := by
  unfold ppsEdge
  rw [if_neg (by omega), waits]

theorem ppsEdge_measures (none : s.scl.setAt = none) : ppsEdge s = sclError s (ppsError s.sclTime (rbits s (pgScl + 0x50) 29 0)) := by
  unfold ppsEdge
  rw [if_neg (by omega), none]

end Edge

theorem timeReceive_own {s u : State} {g a b : Nat} {k : Pkt} (taken : rxTake s g (fun k => k.ty == pkTime) = some ((k, a, b), u))
    (source : sclSrc u = 3) (group : sclGroup u = g) : timeReceive s g =
      sclError (rset u (pgScl + 0x5C) ((byteAt k.pay 8 + 1) % 256)) ((fld k.pay 0 8 : Int) + (rbits u (pgLnk g + 0x50) 23 0 : Int) - (a : Int)) := by
  unfold timeReceive
  rw [taken]
  exact if_neg (by rw [source, group]; simp)

/-- R395: what ends the hearing of a source. -/
def SclQuiet (s : State) (ref10 : Bool) : Prop :=
  (sclSrc s = 3 ∧ (10000000 ≤ s.now - s.scl.heard ∨ lnkUp s (sclGroup s) = false)) ∨
    ((sclSrc s = 1 ∨ sclSrc s = 2) ∧ 1500000000 ≤ s.now - s.scl.heard) ∨ (sclSrc s = 2 ∧ ref10 = true)

theorem sclLost_quiet {s : State} {ref10 : Bool} (heard : sclLock s ≠ 0) (locked : sclLock s ≠ 3) (quiet : SclQuiet s ref10) :
    sclLost s ref10 = sclEvt (sclSetLock { s with scl := { s.scl with good := none, slew := 0 } } 3) 2 := by
  have lost : (if sclSrc s = 3 then decide (10000000 ≤ s.now - s.scl.heard) || !lnkUp s (sclGroup s)
      else if sclSrc s = 0 then false else decide (1500000000 ≤ s.now - s.scl.heard) || (sclSrc s == 2 && ref10)) = true := by
    obtain ⟨source, old | down⟩ | ⟨source, old⟩ | ⟨source, failed⟩ := quiet
    · simp [source, old]
    · simp [source, down]
    · rw [if_neg (by omega), if_neg (by omega)]
      simp [old]
    · simp [source, failed]
  unfold sclLost
  dsimp only
  rw [lost]
  exact if_pos (by simp [heard, locked])

theorem sclLock_evt (s : State) (v e : Nat) (small : v < 4) : sclLock (sclEvt (sclSetLock s v) e) = v :=
  (rbits_congr (rget_raise_ne _ pgScl e (by decide) (by decide) (by decide)) 1 0).trans (lnkState_set s _ v small)

theorem sclLockEvt_touches (s : State) (v e : Nat) : Touches [pgScl + 0xC, pgScl + 0x10] s (sclEvt (sclSetLock s v) e) :=
  touches_trans (touches_rsetBits s 1 0 v (by decide)) (touches_raise _ e (by decide))

theorem sclLocked_good {s : State} {a : Nat} (good : s.scl.good = some a) (acquired : sclLock s = 1) (long : 1000000000 ≤ s.now - a) :
    sclLocked s = sclEvt (sclSetLock s 2) 1 := by
  unfold sclLocked
  rw [good]
  exact if_pos ⟨acquired, long⟩

/-- R396: TIME goes out on every UP group but the source's. -/
theorem timeSend_spec {s : State} (master : bit (rget s (pgScl + 8)) 6 = true) (due : s.scl.sentAt + 1000000 ≤ s.now) : ∃ t, timeSend s = t ∧
    t.scl = { s.scl with sentAt := s.now } ∧ t.regs = s.regs ∧ t.mems = s.mems ∧
      ∀ g : Fin 16, (lnkUp s g = true → (sclSrc s = 3 ∧ sclGroup s = g) ∨ ∃ k, (lnkGet t g).q = (lnkGet s g).q ++ [⟨k, 1024, 0, none⟩] ∧ k.ty = pkTime ∧ k.dst = lnkPeer s g) ∧
        ((lnkUp s g = false ∨ (sclSrc s = 3 ∧ sclGroup s = g)) → lnkGet t g = lnkGet s g) := by
  have sends : timeSend s = _ := if_neg (by simp [master]; omega)
  obtain ⟨regs, scl, mems, groups⟩ := timeFold_spec (fun g => sclSrc s == 3 && sclGroup s == g) _ (List.range 16)
    { s with scl := { s.scl with sentAt := s.now } } _ List.nodup_range sends.symm
  refine ⟨_, rfl, scl, regs, mems, fun g => ⟨fun up => ?_, fun out => (groups g).2 (Or.inr ?_)⟩⟩
  · exact ((groups g).1 (List.mem_range.mpr g.isLt) up).imp (fun own => by simpa using own) id
  · exact out.imp id (fun own => by simpa using own)

/-! R397 to R399: the timetable. -/

section Arm
variable {s : State} {p q : Nat} {c : Cmd} (next : cmdNext s p q 0x65 = some c) (good : ttArmBad s p c = none)
include next good

theorem ttArm_tagUsed (used : ∃ e ∈ s.tts, e.part = p ∧ e.tag = fld c.entry 52 4) : ttArm s p q = cmdFail s c dTtTag := by
  unfold ttArm
  rw [next]
  dsimp only
  rw [good]
  refine if_pos ?_
  obtain ⟨e, armed, part, tag⟩ := used
  exact List.any_eq_true.mpr ⟨e, armed, by simp [part, tag]⟩

section Fresh
variable (fresh : ∀ e ∈ s.tts, e.part = p → e.tag ≠ fld c.entry 52 4)
include fresh

theorem ttArm_unused : ttArm s p q = if !ttRoom s p then cmdFail s c dTtFull
    else
      let slot := ((List.range 1024).find? (fun i => !s.tts.any (fun e => e.slot == i))).getD 0
      let e : TEnt := ⟨slot, s.ttUid, p, c.sq, c.seq, c.entry, fld c.entry 24 8, false, 0, 0, 0, 0⟩
      cmdStart { s with tts := s.tts ++ [{ e with late := e.trig != 2 && ttDue s e }], ttUid := s.ttUid + 1 } c := by
  have unused : ¬ s.tts.any (fun e => e.part == p && e.tag == fld c.entry 52 4) = true := by
    rw [List.any_eq_true]
    rintro ⟨e, armed, same⟩
    rw [Bool.and_eq_true, beq_iff_eq, beq_iff_eq] at same
    exact fresh e armed same.1 same.2
  unfold ttArm
  rw [next]
  dsimp only
  rw [good]
  exact if_neg unused

theorem ttArm_full (full : ttRoom s p = false) : ttArm s p q = cmdFail s c dTtFull :=
  (ttArm_unused next good fresh).trans (if_pos (by rw [full]; rfl))

/-- R397: an entry takes a slot that no armed entry has. -/
theorem ttArm_room (room : ttRoom s p = true) : ∃ e : TEnt, ttArm s p q = cmdStart { s with tts := s.tts ++ [e], ttUid := s.ttUid + 1 } c ∧
    e.slot < 1024 ∧ (∀ x ∈ s.tts, x.slot ≠ e.slot) ∧ (e.uid, e.part, e.sq, e.seq, e.entry, e.at', e.fires) = (s.ttUid, p, c.sq, c.seq, c.entry, fld c.entry 24 8, 0) ∧
    e.late = (e.trig != 2 && ttDue s e) := by
  have short : s.tts.length < 1024 := of_decide_eq_true (Bool.and_eq_true _ _ ▸ room).1
  obtain ⟨slot, found, small, free⟩ := free_slot s.tts 1024 short
  have arms := (ttArm_unused next good fresh).trans (if_neg (by rw [room]; decide))
  rw [found] at arms
  exact ⟨_, arms, small, free, rfl, rfl⟩

end Fresh
end Arm

section Disarm
variable {s : State} {p q : Nat} {c : Cmd} (next : cmdNext s p q 0x66 = some c) (good : operandsOk c [(16, 4)] = true)
include next good

theorem ttDisarmEnds {e : TEnt} (armed : s.tts.find? (fun e => e.part == p && e.tag == opf c 16 4) = some e) :
    ttDisarm s p q = cmdDone (ttEnd s e stOk) c stOk 0 := by
  unfold ttDisarm
  rw [next]
  dsimp only
  rw [if_neg (by rw [good]; decide), armed]

theorem ttDisarmUnknown (none : s.tts.find? (fun e => e.part == p && e.tag == opf c 16 4) = none) : ttDisarm s p q = cmdFail s c dTtTag := by
  unfold ttDisarm
  rw [next]
  dsimp only
  rw [if_neg (by rw [good]; decide), none]

end Disarm

/-! R407, R408: the tokenizer. -/

section Load
variable {s s1 s2 : State} {p q : Nat} {c : Cmd} {h b : List Byte} (next : cmdNext s p q 0x69 = some c) (good : operandsOk c [(16, 1), (24, 8)] = true)
  (small : opf c 16 1 ≤ 15) (header : hget s p (opf c 24 8) 64 true = (s1, 0, h)) (image : hget s1 p (opf c 24 8) (fld h 28 4) true = (s2, 0, b))
include next good small header image

theorem tokLoad_read : tokLoad s p q = if tkOk b then cmdDone { s2 with dicts := tabPut (fun _ => 2 ^ 64) s2.dicts (p * 16 + opf c 16 1) (opf c 24 8) } c stOk 0
    else cmdFail s2 c dTkDict := by
  unfold tokLoad
  rw [next]
  dsimp only
  rw [if_neg (by simp [good, small])]
  simp only [header, image]

end Load

section Tokenize
variable {s : State} {p q : Nat} {c : Cmd} (next : cmdNext s p q 0x6A = some c) (good : operandsOk c [(16, 1), (24, 4), (32, 20)] = true)
  (small : opf c 16 1 ≤ 15)
include next good small

theorem tokenize_unbound (unbound : tabGet (fun _ => 2 ^ 64) s.dicts (p * 16 + opf c 16 1) = 2 ^ 64) : tokenize s p q = cmdFail s c dTkDict := by
  unfold tokenize
  rw [next]
  dsimp only
  rw [if_neg (by simp [good, small]), if_pos unbound]

theorem tokenize_bound {s1 s2 : State} {a : Nat} {input b : List Byte} {r : List Nat × Nat × Nat}
    (bound : tabGet (fun _ => 2 ^ 64) s.dicts (p * 16 + opf c 16 1) = a) (some : a ≠ 2 ^ 64)
    (read : hget s p (opf c 32 8) (opf c 24 4) true = (s1, 0, input)) (image : hget s1 p a (fld (hpeek s1 p a 64) 28 4) true = (s2, 0, b))
    (room : hphys s2 p (opf c 40 8) (4 * opf c 48 4) ≠ none) (run : tkRun (tkEntries b) (fld b 12 4) (opf c 48 4) input ([], 0, 0) = r) :
    tokenize s p q = cmdDone (bumpSat (hputD (freeBelow 4 s2).2 p (opf c 40 8) (r.1.flatMap (leBytes 4))) (pgVidEnt (freeBelow 4 s2).1 + 0x44) r.2.2) c stOk
      (r.1.length + r.2.1 * 2 ^ 32) := by
  unfold tokenize
  rw [next]
  dsimp only
  rw [if_neg (by simp [good, small]), bound, if_neg some]
  simp only [read, image, run]
  exact if_neg (by simpa using room)

end Tokenize

/-- Settles O54. -/
theorem sceneClockTimetableAndTokenizer : Obligations.SceneClockTimetableAndTokenizer := by
  unfold Obligations.SceneClockTimetableAndTokenizer
  have acts : ∀ {s : State} {i : Instr} {f : State → State} {t}, s.cold = false → exec i s = .next (awake s f) → f s = t → exec i s = .next (within s t) := by
    intro s i f t on meaning done
    rw [meaning, awake_on on, done]
  refine ⟨fun s on => ⟨fun m v served => sclSet_outcomes served, fun source => ⟨fun v waits => ?_, fun none => ?_⟩, fun t phase small => ppsError_spec t phase small,
    fun g k a b u taken source group => ?_, fun x e => sclError_spec x e rfl, fun ref10 heard locked quiet => ?_, fun a good acquired long => ?_,
    fun master due => ?_⟩, fun s p q c on => ⟨fun next good => ⟨fun used => ?_, fun fresh => ⟨fun full => ?_, fun room => ?_⟩⟩,
    fun next good => ⟨fun e armed => ?_, fun none => ?_⟩, fun runs => ?_, ttOrder_spec,
    fun e armed trig action repeats distinct => ttFire_jig armed trig action repeats distinct rfl,
    fun ecc s1 h s2 b next good small header image => ⟨fun ok => ?_, fun bad => ?_⟩,
    fun ecc s1 input s2 b next good small => ⟨fun unbound => ?_, fun bound read image room => ?_⟩, tkLongest_spec⟩⟩
  · exact acts on rfl (ppsEdge_applies source waits)
  · exact acts on rfl (ppsEdge_measures source none)
  · obtain ⟨_, _, rest⟩ := rxTake_some taken
    have regs : u.regs = s.regs := rest ▸ lnkPut_regs _ _ _
    exact acts on rfl (timeReceive_own taken ((rbits_congr (rget_congr regs _) 1 0).trans source) ((rbits_congr (rget_congr regs _) 5 2).trans group))
  · have touches := sclLockEvt_touches { s with scl := { s.scl with good := none, slew := 0 } } 3 2
    have lost : exec (.sclSourceLost ref10) s = _ := acts on rfl (sclLost_quiet heard locked quiet)
    exact ⟨_, lost, (rbits_within s _ _ 1 0).trans (sclLock_evt _ 3 2 (by decide)), touches.scl, touches.sclTime, sclEvt_bit _ 2 1 (by decide) (by decide), touches.mems⟩
  · have touches := sclLockEvt_touches s 2 1
    have locks : exec .sclLocked s = _ := acts on rfl (sclLocked_good good acquired long)
    rw [within_touches touches] at locks
    exact ⟨_, locks, sclLock_evt s 2 1 (by decide), sclEvt_bit _ 1 0 (by decide) (by decide), touches⟩
  · obtain ⟨t, sends, scl, regs, mems, groups⟩ := timeSend_spec master due
    exact ⟨_, acts on rfl sends, scl, regs, mems, groups⟩
  · exact ⟨_, acts on rfl (ttArm_tagUsed next.2.1 good used), (cmdDone_answered next.at stFailedOperand dTtTag).inside⟩
  · exact ⟨_, acts on rfl (ttArm_full next.2.1 good fresh full), (cmdDone_answered next.at stFailedOperand dTtFull).inside⟩
  · obtain ⟨e, arms, small, free, fields, late⟩ := ttArm_room next.2.1 good fresh room
    exact ⟨_, e, acts on rfl arms, rfl, small, free, fields, late, rfl, rfl, rfl⟩
  · exact acts on rfl (ttDisarmEnds next.2.1 good armed)
  · exact ⟨_, acts on rfl (ttDisarmUnknown next.2.1 good none), (cmdDone_answered next.at stFailedOperand dTtTag).inside⟩
  · exact acts on rfl (congrArg after (if_neg (by rw [runs]; decide)))
  · exact acts on rfl ((tokLoad_read next.2.1 good small header image).trans (if_pos ok))
  · exact acts on rfl ((tokLoad_read next.2.1 good small header image).trans (if_neg (by rw [bad]; decide)))
  · exact acts on rfl (tokenize_unbound next.2.1 good small unbound)
  · exact acts on rfl (tokenize_bound next.2.1 good small rfl bound read image room rfl)

end Sys2Proof.Machine

/-! ### Sessions and alignment groups (O55) -/

namespace Sys2Proof.Machine

/-! R384: sessions are opened and commands join them. -/

section Open
variable {s s1 : State} {p q : Nat} {c : Cmd} {b : List Byte}

/-- The session that a VID_OPEN opens. -/
def opened (s : State) (p : Nat) (c : Cmd) (b : List Byte) : Sess :=
  ⟨opf c 16 2, p, b.take 128, opf c 24 8, vidRegion s b, 0, 0, [], [], [], none, none, 0, 0, 0, false, 0, [], none, [], false⟩

section Read
variable (next : cmdNext s p q 0x60 = some c) (good : operandsOk c [(16, 2), (24, 8)] = true) (small : opf c 16 2 ≤ 1023) (aligned : opf c 24 8 % 64 = 0)
  (read : hget s p (opf c 24 8) 256 true = (s1, 0, b))
include next good small aligned read

theorem vidOpen_read : vidOpen s p q =
    if !vidRecordOk (b.take 128) then cmdFail s1 c dVdRecord
    else if !vidAreasOk s1 p b then cmdDone s1 c stDenied 0
    else if (sessAt s1 (opf c 16 2)).isSome then cmdFail s1 c dVdStream
    else if vidOver s1 p b then cmdDone s1 c stOversubscribed 0
    else cmdDone (vidStatus { s1 with sess := s1.sess ++ [opened s1 p c b] } (opened s1 p c b)) c stOk
      (if (opened s1 p c b).kind = 2 then 0 else (opened s1 p c b).region) := by
  unfold vidOpen
  rw [next]
  dsimp only
  rw [if_neg (by simp [good, small]), if_neg (by simp [aligned])]
  simp only [read]
  rfl

theorem vidOpen_badRecord (bad : vidRecordOk (b.take 128) = false) : vidOpen s p q = cmdFail s1 c dVdRecord :=
  (vidOpen_read next good small aligned read).trans (if_pos (by rw [bad]; rfl))

section Areas
variable (record : vidRecordOk (b.take 128) = true) (areas : vidAreasOk s1 p b = true)
include record areas

theorem vidOpen_streamUsed (used : sessAt s1 (opf c 16 2) ≠ none) : vidOpen s p q = cmdFail s1 c dVdStream := by
  rw [vidOpen_read next good small aligned read, if_neg (by rw [record]; decide), if_neg (by rw [areas]; decide)]
  exact if_pos (Option.isSome_iff_ne_none.mpr used)

theorem vidOpen_fresh (fresh : sessAt s1 (opf c 16 2) = none) : vidOpen s p q =
    if vidOver s1 p b then cmdDone s1 c stOversubscribed 0
    else cmdDone (vidStatus { s1 with sess := s1.sess ++ [opened s1 p c b] } (opened s1 p c b)) c stOk
      (if (opened s1 p c b).kind = 2 then 0 else (opened s1 p c b).region) := by
  rw [vidOpen_read next good small aligned read, if_neg (by rw [record]; decide), if_neg (by rw [areas]; decide)]
  exact if_neg (by rw [fresh]; decide)

end Areas
end Read

/-- `c` at the end of the commands of session `x`, started. -/
def joined (s1 : State) (x : Sess) (c : Cmd) : State := cmdStart (sessPut s1 { x with cmds := x.cmds ++ [(c.sq, c.seq)] }) c

section Named
variable {x : Sess} {k : Nat} (named : sessAt s (opf c 16 2) = some x)
include named

theorem vidNamed_own (own : x.part = p) (kind : x.kind = k) : vidNamed s p c k = .ok x := by
  unfold vidNamed
  rw [named]
  dsimp only
  rw [if_neg (not_not_intro own), if_neg (not_not_intro kind)]

section Close
variable (next : cmdNext s p q 0x61 = some c) (good : operandsOk c [(16, 2)] = true)
include next good

theorem vidClose_named : vidClose s p q = if x.part ≠ p then cmdDone s c stDenied 0 else cmdDone (sessClose s x stCancelledHost) c stOk 0 := by
  unfold vidClose
  rw [next]
  dsimp only
  rw [if_neg (by rw [good]; decide), named]

end Close

section Joins
variable (own : x.part = p)
include own

theorem vidDecode_joins (next : cmdNext s p q 0x62 = some c) (good : operandsOk c [(16, 3), (24, 4), (32, 16)] = true) (flags : opf c 18 1 ≤ 1)
    (some : 1 ≤ opf c 24 4) (short : opf c 24 4 ≤ 268435456) (kind : x.kind = 0) (read : hget s p (opf c 32 8) (opf c 24 4) true = (s1, 0, b)) :
    vidDecode s p q = joined s1 x c := by
  unfold vidDecode
  rw [next]
  dsimp only
  rw [if_neg (by simp only [good, decide_eq_false (Nat.not_lt.mpr flags), decide_eq_false (Nat.not_lt.mpr some), decide_eq_false (Nat.not_lt.mpr short)]; decide),
    vidNamed_own named own kind]
  simp only [read]
  rfl

theorem vidEncode_joins (next : cmdNext s p q 0x63 = some c) (good : operandsOk c [(16, 5), (32, 16)] = true) (flags : opf c 18 1 ≤ 7)
    (slot : if bit (opf c 18 1) 1 then opf c 19 1 < byteAt x.record 97 else opf c 19 1 = 0) (slots : opf c 20 1 < 2 ^ byteAt x.record 97)
    (kind : x.kind = 1) (read : hget s p (opf c 32 8) (3 * x.height * x.pitch / 2) true = (s1, 0, b)) : vidEncode s p q = joined s1 x c := by
  have inside : (if bit (opf c 18 1) 1 then decide (byteAt x.record 97 ≤ opf c 19 1) else opf c 19 1 != 0) = false := by
    cases long : bit (opf c 18 1) 1
    · simpa [long] using slot
    · simpa [long] using slot
  unfold vidEncode
  rw [next]
  dsimp only
  rw [vidNamed_own named own kind]
  dsimp only
  rw [inside, if_neg (by simp [good, flags, slots])]
  simp only [read]
  rfl

end Joins

section Mark
variable (next : cmdNext s p q 0x64 = some c) (own : x.part = p) (kind : x.kind = 2) (good : operandsOk c [(16, 3), (20, 20)] = true) (flags : opf c 18 1 ≤ 1)
  (lines : opf c 20 4 ≤ x.height)
include next own kind good flags lines

theorem streamMark_named : streamMark s p q =
    if opf c 24 8 ≠ x.f ∨ opf c 20 4 < x.l then cmdFail s c dVdMark
    else cmdDone (if bit (opf c 18 1) 0 then vidFrameDone (markPut s x (opf c 20 4) ((x.cur.map (·.1)).getD (opf c 32 8)))
        { x with l := opf c 20 4, cur := some ((x.cur.map (·.1)).getD (opf c 32 8), 0, []) } ((x.cur.map (·.1)).getD (opf c 32 8))
      else markPut s x (opf c 20 4) ((x.cur.map (·.1)).getD (opf c 32 8))) c stOk 0 := by
  unfold streamMark
  rw [next]
  dsimp only
  rw [vidNamed_own named own kind]
  dsimp only
  rw [if_neg (by simp [good, flags, lines])]

end Mark
end Named
end Open

/-! R383, R384, R392: frames, units and chunks. -/

section Run
variable {s : State} {n : Nat} {x : Sess} {c : Cmd} (runs : running s = true) (found : sessAt s n = some x)
include runs found

theorem engineRound_advances {r l us cap fl : Nat} {img : List Byte} (region : x.region = r) (kind : x.kind ≠ 2) (cur : x.cur = some (cap, fl, img))
    (ahead : x.l < min (l / 8 * 8) (x.height - 8)) : engineRound s r [(n, l, us)] =
      vidStatus (sessPut (vidLines (bumpSat s (pgVidEnt r + 0x40) us) x img x.l (min (l / 8 * 8) (x.height - 8))) { x with l := min (l / 8 * 8) (x.height - 8) })
        { x with l := min (l / 8 * 8) (x.height - 8) } := by
  unfold engineRound
  rw [if_neg (by rw [runs]; decide), List.foldl_cons, List.foldl_nil]
  dsimp only
  rw [found]
  dsimp only
  rw [if_neg (by simp [region, kind]), cur]
  exact if_neg (Nat.not_le.mpr ahead)

omit runs in
theorem vidFinish_idle (idle : x.cur = none) : vidFinish s n = s := by
  unfold vidFinish
  rw [found]
  dsimp only
  rw [idle]

section Unit
variable (served : x.unit s = some c)
include served

theorem decodeDone_ends (kind : x.kind = 0) (idle : x.cur = none) (verdict : Nat) (keep : Bool) (ref : Option (List Byte)) :
    let y := { x with cmds := x.cmds.drop 1, outs := 0, ref := ref.or x.ref, held := if bit (opf c 18 1) 0 then [] else if keep then x.held ++ [opf c 40 8] else x.held }
    decodeDone s n verdict keep ref = if verdict = 0 then cmdDone (sessPut s y) c stOk (x.outs + (x.f - x.outs) % 2 ^ 32 * 2 ^ 32)
      else cmdFail (sessPut s y) c (if verdict = 1 then dVdSyntax else dVdUnsupported) := by
  unfold decodeDone
  rw [found]
  dsimp only
  rw [if_neg (by simp [kind, runs]), served]
  dsimp only
  rw [vidFinish_idle found idle, found]

theorem frameStart_opens (kind : x.kind = 0) (idle : x.cur = none) (shown : x.conceal = false) (room : x.f < x.released s + x.frames) (pic : Nat) (intra : Bool)
    (img : List Byte) : frameStart s n pic intra (some img) = frameOpen s x c pic intra (some img) := by
  unfold frameStart
  rw [if_neg (by rw [found]; simp [kind])]
  dsimp only
  rw [vidFinish_idle found idle, found]
  dsimp only
  rw [served]
  dsimp only
  rw [if_neg (by simp [runs, room]), shown]
  rfl

section Chunk
variable {cap flags : Nat} {img payload : List Byte} (kind : x.kind = 1) (cur : x.cur = some (cap, flags, img))
  (fits : x.bsWritten % max x.bsBytes 1 + (32 + roundUp payload.length 32) ≤ x.bsBytes)
include kind cur fits

/-- R392: a chunk that does not cross the end of the ring needs no PAD header. -/
theorem encodeChunk_fits : encodeChunk s n payload false =
    if x.bsBytes < x.bsWritten - x.consumed s + (32 + roundUp payload.length 32) then sessPut s { x with full := true }
    else vidStatus (sessPut (chunkPut s x cap (chunkFlags x cap flags payload.length false) 0 payload) (x.wrote (32 + roundUp payload.length 32) payload.length))
      (x.wrote (32 + roundUp payload.length 32) payload.length) := by
  unfold encodeChunk
  rw [found]
  dsimp only
  rw [served, cur]
  dsimp only
  rw [if_neg (by simp [kind, runs]), if_neg (Nat.not_lt.mpr fits), Nat.zero_add, Nat.add_zero]
  rfl

end Chunk
end Unit
end Run

theorem frameOpen_decodes {x : Sess} (kind : x.kind = 0) (shown : x.conceal = false) (s : State) (c : Cmd) (pic : Nat) (intra : Bool) (img : List Byte) :
    let cap := x.held.getD pic (opf c 40 8)
    let y := { x with held := x.held.eraseIdx pic, conceal := false }
    frameOpen s x c pic intra (some img) = vidRecord (sessPut s { y with cur := some (cap, 2 * b2n intra, img), l := 0 }) y cap (2 * b2n intra) := by
  intro cap y
  have flags : b2n (some img).isNone + 2 * b2n intra = 2 * b2n intra := Nat.zero_add _
  unfold frameOpen
  dsimp only
  rw [kind, shown, if_neg (show ¬ (0 : Nat) = 1 by decide), if_neg (show ¬ (0 : Nat) = 1 by decide), if_pos (rfl : (0 : Nat) = 0), flags]
  rfl

/-! R401 to R404: alignment groups. -/

section Aln
variable {s s1 : State} {p q : Nat} {c : Cmd} {b : List Byte}

/-- R401: the first tick of a group that opens. -/
def firstTick (s : State) (b : List Byte) : Nat := if sceneNow s < fld b 8 8 then 0 else (sceneNow s - fld b 8 8) / fld b 16 8 + 1

section Open
variable (next : cmdNext s p q 0x67 = some c) (good : operandsOk c [(16, 2), (24, 8)] = true) (small : opf c 16 2 ≤ 63)
  (read : hget s p (opf c 24 8) 128 true = (s1, 0, b))
include next good small read

theorem alnOpen_read : alnOpen s p q =
    if !alnRecordOk s1 p b then cmdFail s1 c dAlRecord
    else if (hphys s1 p (fld b 32 8) (256 * fld b 40 4)).isNone then cmdDone s1 c stDenied 0
    else if (alnAt s1 (opf c 16 2)).isSome then cmdFail s1 c dAlGroup
    else cmdDone { s1 with aligns := s1.aligns ++ [⟨opf c 16 2, p, b, firstTick s1 b, firstTick s1 b, []⟩] } c stOk 0 := by
  unfold alnOpen
  rw [next]
  dsimp only
  rw [if_neg (by simp [good, small])]
  simp only [read]
  rfl

theorem alnOpen_badRecord (bad : alnRecordOk s1 p b = false) : alnOpen s p q = cmdFail s1 c dAlRecord :=
  (alnOpen_read next good small read).trans (if_pos (by rw [bad]; rfl))

section Ring
variable (record : alnRecordOk s1 p b = true) (ring : hphys s1 p (fld b 32 8) (256 * fld b 40 4) ≠ none)
include record ring

theorem alnOpen_used (used : alnAt s1 (opf c 16 2) ≠ none) : alnOpen s p q = cmdFail s1 c dAlGroup := by
  rw [alnOpen_read next good small read, if_neg (by rw [record]; decide), if_neg (by simpa using ring)]
  exact if_pos (Option.isSome_iff_ne_none.mpr used)

theorem alnOpen_fresh (fresh : alnAt s1 (opf c 16 2) = none) :
    alnOpen s p q = cmdDone { s1 with aligns := s1.aligns ++ [⟨opf c 16 2, p, b, firstTick s1 b, firstTick s1 b, []⟩] } c stOk 0 := by
  rw [alnOpen_read next good small read, if_neg (by rw [record]; decide), if_neg (by simpa using ring)]
  exact if_neg (by rw [fresh]; decide)

end Ring
end Open

section Close
variable (next : cmdNext s p q 0x68 = some c) (good : operandsOk c [(16, 2)] = true)
include next good

theorem alnClose_own {g : AGroup} (found : alnAt s (opf c 16 2) = some g) (own : g.part = p) :
    alnClose s p q = cmdDone (alnShut s g stCancelledHost) c stOk 0 := by
  unfold alnClose
  rw [next]
  dsimp only
  rw [if_neg (by rw [good]; decide), found]
  exact if_neg (not_not_intro own)

theorem alnClose_unknown (none : alnAt s (opf c 16 2) = none) : alnClose s p q = cmdFail s c dAlGroup := by
  unfold alnClose
  rw [next]
  dsimp only
  rw [if_neg (by rw [good]; decide), none]

end Close

theorem alnDeadline_passed {id : Nat} {g : AGroup} (found : alnAt s id = some g) (passed : g.tick g.k + g.window ≤ sceneNow s) :
    alnDeadline s id = alnRelease s id := by
  unfold alnDeadline
  rw [found]
  exact if_pos passed

end Aln

/-- Settles O55. -/
theorem sessionsRunAndSetsAreAligned : Obligations.SessionsRunAndSetsAreAligned := by
  unfold Obligations.SessionsRunAndSetsAreAligned
  have acts : ∀ {s : State} {i : Instr} {f : State → State} {t}, s.cold = false → exec i s = .next (awake s f) → f s = t → exec i s = .next (within s t) := by
    intro s i f t on meaning done
    rw [meaning, awake_on on, done]
  refine ⟨fun s on => ⟨fun p q ecc c s1 b next good small aligned read => ?_, fun p q c x next good found => ⟨fun own => ?_, fun other => ?_⟩,
    fun p q c x s1 b next good flags some short found own kind read => ?_, fun p q c x s1 b next good flags slot slots found own kind read => ?_,
    fun p q ecc c x next found own kind good flags lines => ?_, fun r n l us x cap fl img runs found region kind cur ahead => ?_,
    fun n verdict keep ref x c runs found kind idle served => ?_, fun n pic intra img x c runs found kind idle shown served room => ?_,
    fun n payload x c cap flags img runs found kind served cur => ?_⟩,
    fun s on => ⟨fun p q ecc c s1 b next good small read => ?_, fun p q c next good => ⟨fun g found own => ?_, fun none => ?_⟩, fun id g found passed => ?_,
      fun id g found small => alnRelease_spec found small rfl, fun g t m f cap h => memberFrame_spec h⟩⟩
  · intro x
    refine ⟨fun bad => ?_, fun record areas used => ?_, fun record areas fresh => ⟨fun full => ?_, fun room => ?_⟩⟩
    · exact acts on rfl (vidOpen_badRecord next.2.1 good small aligned read bad)
    · exact acts on rfl (vidOpen_streamUsed next.2.1 good small aligned read record areas used)
    · exact acts on rfl ((vidOpen_fresh next.2.1 good small aligned read record areas fresh).trans (if_pos full))
    · exact acts on rfl ((vidOpen_fresh next.2.1 good small aligned read record areas fresh).trans (if_neg (by rw [room]; decide)))
  · exact acts on rfl (congrArg after ((vidClose_named found next.2.1 good).trans (if_neg (not_not_intro own))))
  · exact acts on rfl (congrArg after ((vidClose_named found next.2.1 good).trans (if_pos other)))
  · exact acts on rfl (vidDecode_joins found own next.2.1 good flags some short kind read)
  · exact acts on rfl (vidEncode_joins found own next.2.1 good flags slot slots kind read)
  · intro cap y s2
    have marks := streamMark_named found next.2.1 own kind good flags lines
    refine ⟨fun bad => ?_, fun frame further goes => ?_, fun frame further ends => ?_⟩
    · exact acts on rfl (marks.trans (if_pos bad))
    · exact acts on rfl (marks.trans ((if_neg (by omega)).trans (by rw [goes]; rfl)))
    · exact acts on rfl (marks.trans ((if_neg (by omega)).trans (by rw [ends]; rfl)))
  · exact acts on rfl (engineRound_advances runs found region kind cur ahead)
  · intro y
    have ends := acts (i := .decodeUnitDone n verdict keep ref) on rfl (decodeDone_ends runs found served kind idle verdict keep ref)
    match verdict with
    | 0 => exact ends
    | 1 => exact ends
    | 2 => exact ends
  · exact acts on rfl ((frameStart_opens runs found served kind idle shown room pic intra img).trans (frameOpen_decodes kind shown s c pic intra img))
  · intro size pos
    refine ⟨fun fits full => ?_, fun fits room => ?_⟩
    · exact acts on rfl ((encodeChunk_fits runs found served kind cur fits).trans (if_pos full))
    · exact acts on rfl ((encodeChunk_fits runs found served kind cur fits).trans (if_neg (Nat.not_lt.mpr room)))
  · intro k
    refine ⟨fun bad => ?_, fun record ring used => ?_, fun record ring fresh => ?_⟩
    · exact acts on rfl (alnOpen_badRecord next.2.1 good small read bad)
    · exact acts on rfl (alnOpen_used next.2.1 good small read record ring used)
    · exact acts on rfl (alnOpen_fresh next.2.1 good small read record ring fresh)
  · exact acts on rfl (congrArg after (alnClose_own next.2.1 good found own))
  · exact acts on rfl (congrArg after (alnClose_unknown next.2.1 good none))
  · exact acts on rfl (alnDeadline_passed found passed)

end Sys2Proof.Machine

/-! ### The rollout sequencer (O56) -/

namespace Sys2Proof.Machine

/-! R232: commands that fail, and those applied by their code. -/

/-- R232: a command that fails with no state move leaves the tables as they were. -/
theorem seqApply_refused {x y : State} {p : Nat} {c : Cmd} (next : seqNext x p = some c) (m : Cmd → SeqM Nat) (good : seqOperandsOk c = true) {st det : Nat}
    (fails : (m c).exec x = (.error (st, det), y)) (small : det < movedMark) :
    seqApply x p (cmdOp c) m = cmdDone (seqApplied (seqUndo x y p) p) c st det := by
  rw [seqApply_error next m good fails, if_neg (Nat.ne_of_lt small), Nat.mod_eq_of_lt small]

/-- The sequencer's commands besides STEP, with their codes and what they do. -/
def seqRows (p : Fin 1024) (ecc : Ecc) : List (Nat × Instr × (Cmd → SeqM Nat)) :=
  [(0x40, Instr.rollOpen p ecc, rollOpen p), (0x41, Instr.rollClose p ecc, rollClose p), (0x42, Instr.join p ecc, seqJoin p), (0x43, Instr.fork p ecc, seqFork p),
    (0x44, Instr.prune p ecc, seqPrune p), (0x45, Instr.leave p ecc, seqLeave p), (0x47, Instr.seqSet p ecc, seqSet p)]

theorem exec_seqRow {s : State} (p : Fin 1024) (ecc : Ecc) :
    ∀ row ∈ seqRows p ecc, exec row.2.1 s = .next (awake s (fun s => after (seqApply (eccIn s ecc) p row.1 row.2.2))) := by
  simp only [seqRows, List.forall_mem_cons]
  exact ⟨rfl, rfl, rfl, rfl, rfl, rfl, rfl, fun _ h => absurd h List.not_mem_nil⟩

theorem exec_seqApply {s t : State} (on : s.cold = false) {p : Fin 1024} {ecc : Ecc} {c : Cmd} {row : Nat × Instr × (Cmd → SeqM Nat)} (known : row ∈ seqRows p ecc)
    (op : cmdOp c = row.1) (applies : seqApply (eccIn s ecc) p (cmdOp c) row.2.2 = t) : exec row.2.1 s = .next (within s (after t)) := by
  rw [exec_seqRow p ecc row known, awake_on on, ← op, applies]

/-! R238 to R242: STEP. -/

section Step
variable {x y z : State} {p : Nat} {c : Cmd} {r : Roll} {b k : Nat} {batch : List Nat} (next : seqNext x p = some c) (op : cmdOp c = 0x46) (roll : rollGet x p = some r)
  (good : seqOperandsOk c = true) (bucket : opf c 16 1 ≤ 15 ∨ opf c 16 1 = 0xFF) (most : opf c 18 2 ≤ 4096)
  (reserved : (stepReserve p (r.steps + 1) (opf c 16 1) (if opf c 18 2 = 0 then 4096 else opf c 18 2)).exec x = (.ok (b, batch, k), y))
  (prepared : (stepPrepare p (r.steps + 1) batch).exec y = (.ok (), z))
include next op roll good bucket most reserved prepared

/-- The step as it waits for its release. -/
def stepHeld (w : State) (p : Nat) (c : Cmd) (number : Nat) (batch : List Nat) (parked : Nat) : State :=
  cmdStart (rollUpd w p (fun y => { y with step := some ⟨c.sq, c.seq, number, batch, parked, some w.now, [], []⟩ })) c

theorem seqStep_prepared : seqStep x p =
    if batch.isEmpty then stage8Begin (cmdDone (seqApplied (writeBatch z p (r.steps + 1) b batch) p) c stOk (stepResult (r.steps + 1) 0 k)) p
    else if bit (opf c 17 1) 0 then stepHeld (seqApplied (writeBatch z p (r.steps + 1) b batch) p) p c (r.steps + 1) batch k
    else dispatch (stepHeld (seqApplied (writeBatch z p (r.steps + 1) b batch) p) p c (r.steps + 1) batch k) p := by
  have inRange : ¬ (15 < opf c 16 1 ∧ opf c 16 1 ≠ 0xFF) := by omega
  unfold seqStep
  rw [next]
  dsimp only
  rw [if_neg (not_not_intro op), roll]
  dsimp only
  rw [if_neg (by simp only [good, decide_eq_false inRange, decide_eq_false (Nat.not_lt.mpr most)]; decide)]
  simp only [reserved, prepared]
  rfl

theorem seqStep_empty (none : batch = []) :
    seqStep x p = stage8Begin (cmdDone (seqApplied (writeBatch z p (r.steps + 1) b batch) p) c stOk (stepResult (r.steps + 1) 0 k)) p := by
  rw [seqStep_prepared next op roll good bucket most reserved prepared, none]
  exact if_pos rfl

theorem seqStep_some (some : batch ≠ []) : seqStep x p =
    if bit (opf c 17 1) 0 then stepHeld (seqApplied (writeBatch z p (r.steps + 1) b batch) p) p c (r.steps + 1) batch k
    else dispatch (stepHeld (seqApplied (writeBatch z p (r.steps + 1) b batch) p) p c (r.steps + 1) batch k) p := by
  rw [seqStep_prepared next op roll good bucket most reserved prepared]
  exact if_neg (by simpa using some)

end Step

section InFlight
variable {s : State} {p : Nat} {r : Roll} {st : StepRun} (roll : rollGet s p = some r) (step : r.step = some st)
include roll step

theorem stepInFlight : (rollGet s p).bind (fun r => r.step.map (fun st => (r, st))) = some (r, st) := by
  rw [roll, Option.bind_some, step]
  rfl

/-- R242: HOLD_LIMIT. -/
theorem holdExpire_held {t : Nat} (held : st.heldAt = some t) : holdExpire s p =
    if fld r.record 6 2 * 1000 ≤ s.now - t then stage8Begin (complete s p st.sq st.seq stTimeout (stepResult st.number 0 st.parked)) p else s := by
  unfold holdExpire
  rw [stepInFlight roll step]
  dsimp only
  rw [held]

/-- R241: the last notice completes the step. -/
theorem stepComplete_all (released : st.heldAt = none) (all : ∀ c ∈ st.cells, ∃ g ∈ st.got, g.1 = c) : stepComplete s p =
    ((stepSettle p (stepStatus st.got) st.batch).exec (stage8Begin
      (complete (rollPut { s with stepping := s.stepping.erase p } p (some { r with last := stepStatus st.got })) p st.sq st.seq (stepStatus st.got)
        (stepResult st.number st.batch.length st.parked)) p)).2 := by
  have told : st.cells.all (fun c => st.got.any (fun g => g.1 == c)) = true := by simpa using all
  have open' : rollGet { s with stepping := s.stepping.erase p } p = some r := roll
  unfold stepComplete
  rw [stepInFlight roll step]
  dsimp only
  rw [released, told, if_neg (by decide), rollUpd_open open']

end InFlight

/-- R230: a notice takes its place in the ring. -/
theorem noticeWrite_first {s : State} {p q kind st n : Nat} {r : Roll} {l : List (Nat × Nat × Nat × Nat)} (roll : rollGet s p = some r)
    (waits : r.nq = (q, kind, st, n) :: l) : noticeWrite s p = if noticeRoom s p r then writeStatus (rollPut
        (hputD s p (fld r.record 40 8 + 16 * (r.head % r.notices)) (leBytes 4 q ++ leBytes 1 kind ++ leBytes 1 st ++ leBytes 2 0 ++ leBytes 8 n))
        p (some { r with nq := l, head := (r.head + 1) % 2 ^ 32 })) p else s := by
  unfold noticeWrite
  rw [roll]
  dsimp only
  rw [waits]

/-- Settles O56. -/
theorem rolloutsRun : Obligations.RolloutsRun := by
  unfold Obligations.RolloutsRun
  intro s on
  have acts : ∀ {i : Instr} {f : State → State} {t}, exec i s = .next (awake s (fun s => after (f s))) → f s = t → exec i s = .next (within s (after t)) := by
    intro i f t meaning done
    rw [meaning, awake_on on, done]
  refine ⟨fun x p c next => seqNext_spec next, fun p ecc c next => ?_, fun x y p => ⟨seqUndo_roll x y p, rfl, rfl, rfl, rfl⟩,
    fun p ecc c r next op roll good bucket most => ?_, fun x p r st roll step distinct => dispatch_open roll step distinct,
    fun p r st t roll step held => ⟨fun passed => ?_, fun early => ?_⟩, fun p r st roll step released all => ?_, fun got fine => stepStatus_ok fine,
    fun got bad => stepStatus_lowest bad, fun p r q kind st n l roll waits => ⟨fun room => ?_, fun full => ?_⟩, candidates_spec⟩
  · intro x
    refine ⟨fun row known op => ⟨fun bad => ?_, fun good => ⟨fun v y done => ?_, fun st det y fails => ?_⟩⟩, fun r roll good => ⟨?_, ?_, ?_, ?_, ?_, ?_⟩⟩
    · exact exec_seqApply on known op (seqApply_bad next row.2.2 bad)
    · exact exec_seqApply on known op (seqApply_ok next row.2.2 good done)
    · exact exec_seqApply on known op (seqApply_error next row.2.2 good fails)
    · intro op empty
      exact exec_seqApply on (row := (0x41, .rollClose p ecc, rollClose p)) (by simp [seqRows]) op (seqApply_ok next _ good (rollClose_exec c roll empty))
    · intro op prio len range live
      exact exec_seqApply on (row := (0x42, .join p ecc, seqJoin p)) (by simp [seqRows]) op
        (seqApply_refused next _ good (seqJoin_live roll prio len range live) (by decide))
    · intro op prio flags len range dead most none
      exact exec_seqApply on (row := (0x42, .join p ecc, seqJoin p)) (by simp [seqRows]) op
        (seqApply_ok next _ good (seqJoin_fresh roll prio flags len range dead most none))
    · intro op range dead
      exact exec_seqApply on (row := (0x44, .prune p ecc, seqPrune p)) (by simp [seqRows]) op
        (seqApply_refused next _ good (seqPrune_dead roll range dead) (by decide))
    · intro op range dead
      exact exec_seqApply on (row := (0x45, .leave p ecc, seqLeave p)) (by simp [seqRows]) op
        (seqApply_refused next _ good (seqLeave_dead roll range dead) (by decide))
    · intro op prio range live noIdle sets
      exact exec_seqApply on (row := (0x47, .seqSet p ecc, seqSet p)) (by simp [seqRows]) op
        (seqApply_ok next _ good (seqSet_prio roll prio range live noIdle sets))
  · intro n b batch k y reserved z prepared w
    refine ⟨fun none => ?_, fun some => ?_⟩
    · exact acts rfl (seqStep_empty next op roll good bucket most reserved prepared none)
    · exact acts rfl (seqStep_some next op roll good bucket most reserved prepared some)
  · exact acts rfl ((holdExpire_held roll step held).trans (if_pos passed))
  · exact acts rfl ((holdExpire_held roll step held).trans (if_neg (Nat.not_le.mpr early)))
  · exact acts rfl (stepComplete_all roll step released all)
  · exact acts rfl ((noticeWrite_first roll waits).trans (if_pos room))
  · exact acts rfl ((noticeWrite_first roll waits).trans (if_neg (by rw [full]; decide)))

end Sys2Proof.Machine
